-- ==== Sys2Proof/Word.lean ====
section
/-!
DEFINITION. The word types of the B7 and their plainest arithmetic (R5, R44, R46).
-/

namespace Sys2Proof

/-- A 64-bit word of the control thread, of a CSR or of a block constant. -/
abbrev Word := BitVec 64

/-- One byte of memory. -/
abbrev Byte := BitVec 8

/-- The bits of one vector register at the largest grant, eight lane groups (R67). -/
def maxVlen : Nat := 262144

/-- The bits of one lane group's slice of a register (R44). -/
def groupBits : Nat := 32768

/-- A vector or a mask register (R44, R45): the bits at and above the hart's VLEN are zero. -/
abbrev VecBits := BitVec maxVlen

/-- A scale register (R46): VLEN/64 bytes, here at the largest VLEN; bytes above VLEN/64 are zero. -/
abbrev ScaleBits := BitVec groupBits

end Sys2Proof
end

