-- ==== Sys2Proof/Syntax.lean ====
section
/-!
DEFINITION. The instructions and events of the B7: one constructor of `Instr` for each row of the opcode table (R68, R71 to
R91, and the steps of spec/95_what_each_step_holds.md), with every operand turned into the thing it names.
-/

namespace Sys2Proof

/-! ## Register names (R72) -/

/-- A control-thread register x0 to x31. -/
abbrev XReg := Fin 32
/-- A vector register v0 to v31. -/
abbrev VName := Fin 32
/-- A mask register m0 to m7, or a predicate q0 to q7. -/
abbrev MName := Fin 8
/-- A scale register k0 to k15. -/
abbrev KName := Fin 16
/-- An accumulator tile acc0 to acc3. -/
abbrev AccName := Fin 4

/-! ## Formats and modifiers -/

/-- The 33 format codes (R15), in the order of their codes. -/
inductive Fmt where
  | fp64 | fp32 | e8m10 | fp16 | e8m7 | e5m2 | e4m3 | e3m2
  | e2m3 | e2m1 | mxe5m2 | mxe4m3 | mxe3m2 | mxe2m3 | mxe2m1 | mxi8
  | l6 | l6b | i16 | n16 | i8 | n8 | i4 | n4
  | i2 | n2 | bxi4 | bxi2 | i64 | n64 | i32 | n32
  | e8m0
  deriving DecidableEq, Repr

/-- The code of a format (R15). -/
def Fmt.code : Fmt → Nat
  | .fp64 => 0
  | .fp32 => 1
  | .e8m10 => 2
  | .fp16 => 3
  | .e8m7 => 4
  | .e5m2 => 5
  | .e4m3 => 6
  | .e3m2 => 7
  | .e2m3 => 8
  | .e2m1 => 9
  | .mxe5m2 => 10
  | .mxe4m3 => 11
  | .mxe3m2 => 12
  | .mxe2m3 => 13
  | .mxe2m1 => 14
  | .mxi8 => 15
  | .l6 => 16
  | .l6b => 17
  | .i16 => 18
  | .n16 => 19
  | .i8 => 20
  | .n8 => 21
  | .i4 => 22
  | .n4 => 23
  | .i2 => 24
  | .n2 => 25
  | .bxi4 => 26
  | .bxi2 => 27
  | .i64 => 28
  | .n64 => 29
  | .i32 => 30
  | .n32 => 31
  | .e8m0 => 32

/-- The format with a code; none for the reserved codes 33 to 63 (R15). -/
def Fmt.ofCode : Nat → Option Fmt
  | 0 => some .fp64
  | 1 => some .fp32
  | 2 => some .e8m10
  | 3 => some .fp16
  | 4 => some .e8m7
  | 5 => some .e5m2
  | 6 => some .e4m3
  | 7 => some .e3m2
  | 8 => some .e2m3
  | 9 => some .e2m1
  | 10 => some .mxe5m2
  | 11 => some .mxe4m3
  | 12 => some .mxe3m2
  | 13 => some .mxe2m3
  | 14 => some .mxe2m1
  | 15 => some .mxi8
  | 16 => some .l6
  | 17 => some .l6b
  | 18 => some .i16
  | 19 => some .n16
  | 20 => some .i8
  | 21 => some .n8
  | 22 => some .i4
  | 23 => some .n4
  | 24 => some .i2
  | 25 => some .n2
  | 26 => some .bxi4
  | 27 => some .bxi2
  | 28 => some .i64
  | 29 => some .n64
  | 30 => some .i32
  | 31 => some .n32
  | 32 => some .e8m0
  | _ => none

/-- The rounding modes an `rm` field can name (R29); the reserved value 6 has no constructor. -/
inductive Rm where
  | rne | rtz | rdn | rup | rmm | sr | dyn
  deriving DecidableEq, Repr

/-- The full-empty qualifier of a load (R74, R112). -/
inductive FeLoad where
  | plain | fe | fec
  deriving DecidableEq, Repr

/-- Reduction and scan operations (R77). -/
inductive RedOp where
  | sum | min | max | and | or | xor | ssum
  deriving DecidableEq, Repr

/-- Operations of VIXACC (R76). -/
inductive IxOp where
  | addFp64 | addFp32 | addI64 | min | max | or
  deriving DecidableEq, Repr

/-- Update operations of VUPD and VAMO (R78). -/
inductive UpdOp where
  | add | min | max | and | or | xor | swap | fadd
  deriving DecidableEq, Repr

/-- The scopes of VDRAIN and BARRIVE, smallest first (R78, R281). -/
inductive Scope where
  | hart | core | cluster | die | device | system
  deriving DecidableEq, Repr

/-- The three kinds of VCOPY (R74). -/
inductive CopyKind where
  | onDevice | put | get
  deriving DecidableEq, Repr

/-- Run modifiers (R77): `.p` with its payload width code, and `.dn`. Without `.p` the width code is 0. -/
structure RunMods where
  payload : Bool
  pw : Fin 4
  descending : Bool
  deriving DecidableEq, Repr

/-! ## Block operands (R82 to R87) -/

/-- A source specifier of a block instruction (R83). -/
inductive Src where
  | e (n : Fin 32) | b (n : Fin 16) | eid | vl | zero
  deriving DecidableEq, Repr

/-- The XPF prefix of an instruction (R86): the override of source a and of source b. -/
structure Xpf where
  af : Option Fmt
  bf : Option Fmt
  deriving DecidableEq, Repr

/-- The fields of one block instruction with its prefixes (R82, R86): `x` is the target predicate of `.x`, `pred` the
sense (`true` executes where the bit is clear) and the predicate register. -/
structure BlockArgs where
  d : Fin 32
  a : Src
  b : Src
  c : Src
  fmt : Fmt
  rm : Rm
  sat : Bool
  x : Option MName
  pred : Option (Bool × MName)
  fn13 : BitVec 13
  xpf : Option Xpf
  xpi : Option (BitVec 48)
  deriving DecidableEq, Repr

/-- The 58 block operations (R85), in the order of their codes. -/
inductive BlockOp where
  | add | sub | mul | mulh | div | rem | and | or | xor | sll | srl | sra
  | min | max | abs | clz | popc | addi | li | sel | wadd | wmul | wmac | nclip
  | bext | bins | fadd | fsub | fmul | fmulz | fma | fdiv | fsqrt | fmin | fmax | fclass
  | fsgnj | fcvt | fcvti | icvtf | lmul | lacc | lcvtf | fcvtl | cmp | fcmp | plog | pset
  | ld | st | pf | lget | lput | sget | mov | stop | fetch | fetchc
  deriving DecidableEq, Repr

/-! ## The standard control stream (R68) -/

/-- Branch conditions. -/
inductive BrCond where
  | eq | ne | lt | ge | ltu | geu
  deriving DecidableEq, Repr

/-- Load widths. -/
inductive LoadW where
  | b | h | w | d | bu | hu | wu
  deriving DecidableEq, Repr

/-- Store widths. -/
inductive StoreW where
  | b | h | w | d
  deriving DecidableEq, Repr

/-- Register-immediate operations with a 12-bit immediate. -/
inductive ImmOp where
  | addi | slti | sltiu | xori | ori | andi | addiw
  deriving DecidableEq, Repr

/-- Shifts by an immediate amount: the first three by 6 bits, the word forms by 5. -/
inductive ShiftOp where
  | slli | srli | srai
  deriving DecidableEq, Repr

/-- Register-register operations of RV64I, M and Zicond. -/
inductive AluOp where
  | add | sub | sll | slt | sltu | xor | srl | sra | or | and
  | mul | mulh | mulhsu | mulhu | div | divu | rem | remu
  | addw | subw | sllw | srlw | sraw | mulw | divw | divuw | remw | remuw
  | czeroEqz | czeroNez
  deriving DecidableEq, Repr

/-- AMO operations of the A extension. -/
inductive AmoOp where
  | swap | add | xor | and | or | min | max | minu | maxu
  deriving DecidableEq, Repr

/-- The three CSR operations of Zicsr. -/
inductive CsrOp where
  | rw | rs | rc
  deriving DecidableEq, Repr

/-- The source operand of a CSR instruction: a register, or a 5-bit immediate. -/
inductive CsrSrc where
  | reg (rs1 : XReg) | imm (z : BitVec 5)
  deriving DecidableEq, Repr

/-- The operands of one CSR instruction. -/
structure CsrArgs where
  op : CsrOp
  rd : XReg
  src : CsrSrc
  addr : BitVec 12
  deriving DecidableEq, Repr

/-- The standard instructions that the row RV64_INSTRUCTION covers (R68). -/
inductive Rv where
  | lui (rd : XReg) (imm : BitVec 20)
  | auipc (rd : XReg) (imm : BitVec 20)
  | jal (rd : XReg) (off : BitVec 20)
  | jalr (rd rs1 : XReg) (imm : BitVec 12)
  | branch (c : BrCond) (rs1 rs2 : XReg) (off : BitVec 12)
  | load (width : LoadW) (rd rs1 : XReg) (imm : BitVec 12)
  | store (width : StoreW) (rs1 rs2 : XReg) (imm : BitVec 12)
  | aluImm (op : ImmOp) (rd rs1 : XReg) (imm : BitVec 12)
  | shift (op : ShiftOp) (rd rs1 : XReg) (sh : BitVec 6)
  | shiftw (op : ShiftOp) (rd rs1 : XReg) (sh : BitVec 5)
  | alu (op : AluOp) (rd rs1 rs2 : XReg)
  | lr (dbl aq rl : Bool) (rd rs1 : XReg)
  | sc (dbl aq rl : Bool) (rd rs1 rs2 : XReg)
  | amo (op : AmoOp) (dbl aq rl : Bool) (rd rs1 rs2 : XReg)
  | csr (a : CsrArgs)
  | ecall | ebreak | mret | wfi
  deriving DecidableEq, Repr

/-! ## What the events carry -/

/-- What every message between packages carries (R370, R375): the other package's device number, its boot generation and
the request number. -/
structure MsgHeader where
  dev : BitVec 21
  bootgen : BitVec 32
  req : Nat
  deriving DecidableEq, Repr

/-- What a check of stored or carried data finds (R377). -/
inductive LineState where
  | clean | correctable | uncorrectable
  deriving DecidableEq, Repr

/-- A vector register file of a hart (R377). -/
inductive RegFile where
  | v | m | k | tag | ixt
  deriving DecidableEq, Repr

/-- What is checked for errors (R377): a line of a memory; a register, a tag or an IXT entry of a hart, by its number, with the lane group
that holds the error; the resume element state of an element of a hart, likewise; a PCIe root port. -/
inductive Checked where
  | line (addr : Nat)
  | register (hart : Nat) (file : RegFile) (index lane : Nat)
  | element (hart elem lane : Nat)
  | port (p : Fin 8)
  deriving DecidableEq, Repr

/-- The on-chip network flit that failed its parity (R380): a request, a response, or a flit whose requester cannot be
named. -/
inductive FlitKind where
  | request | response | unnamed
  deriving DecidableEq, Repr

/-- Whose access a network flit carries (R380): of the selected hart, the access of its control thread's instruction, its fetch, the
access of its vector queue, of its matrix queue, of a micro-thread, or the fetch of a block by a micro-thread's fetch group; the
access of a copy, of its bytes or of its barrier; the read of an address-space entry or of a squall's control block by the dispatcher of a die; the
next access of the remote agent; the arrival at a completion barrier of the launch whose last hart exits; an access of an endpoint; or one of
the move of a page by the migration block of a die. -/
inductive Requester where
  | thread | fetch | vector | matrix
  | micro (elem : Nat)
  | block (elem : Nat)
  | copy (id : Nat)
  | dispatcher (die : Fin 4) (squall : Bool)
  | remote
  | exit
  | endpoint
  | migration (die : Fin 4)
  deriving DecidableEq, Repr

/-- A network flit that failed its parity: whose access it carries, and what it is (R380). -/
structure NetFlit where
  requester : Requester
  kind : FlitKind
  deriving DecidableEq, Repr

/-- A flit of a UCIe link, or from 8 on of a root port, by its number (R363, R377). -/
structure LinkFlit where
  link : Nat
  number : Nat
  deriving DecidableEq, Repr

/-- The access of an endpoint (R365): the root port that it lies behind, its device number there, and whether it writes. -/
structure Endpoint where
  port : Fin 8
  device : BitVec 16
  write : Bool
  deriving DecidableEq, Repr

/-- Where the IOMMU of the application die sends an access of an endpoint (R365): to main memory, to an identity in the interrupt file
of an application core, or nowhere. -/
inductive DmaTarget where
  | memory (pa : Nat)
  | interrupt (core : Fin 16) (identity : Fin 2048)
  | refused
  deriving DecidableEq, Repr, Inhabited

/-- A bin of a histogram of the lifetime records (R386): of a die's junction temperature, 5 °C each, or of the voltage of a rail. The
fifth die is the application die. -/
inductive Bin where
  | thermal (die : Fin 5) (bin : Fin 25)
  | voltage (rail : Nat) (bin : Nat)
  deriving DecidableEq, Repr

/-- The functions of the readiness map (R388), and the firmware of a die, which has no bit of its own there. -/
inductive Function where
  | dieFirmware (die : Nat) | core (c : Nat) | clusterMemory (g : Nat) | isobar (g : Nat)
  | channel (die k : Nat) | dieSram (die : Nat) | dispatcher (die : Nat) | ucie (die k : Nat)
  | rootPort (p : Nat) | security | appCores
  deriving DecidableEq, Repr

/-- A firmware image that the security engine checks at power-on (R389): its digest, security version and whether the
signature over that digest is the one the fused key accepts are inputs from the flash. -/
structure Firmware where
  function : Function
  digest : BitVec 512
  version : Nat
  signature : Nat
  deriving DecidableEq, Repr

/-! ## Instructions and events -/

/-- One constructor for each row of the opcode table. -/
inductive Instr where
  -- custom-0 (R74)
  | vle (d : VName) (a : XReg) (ff : Bool) (full : FeLoad) (nt : Bool) (m : Option MName)
  | vse (d : VName) (a : XReg) (fes nt : Bool) (m : Option MName)
  | vlse (d : VName) (a b : XReg) (m : Option MName)
  | vsse (d : VName) (a b : XReg) (m : Option MName)
  | vlxe (d : VName) (a : XReg) (b : VName) (m : Option MName)
  | vsxe (d : VName) (a : XReg) (b : VName) (m : Option MName)
  | vlseg (d : VName) (a : XReg) (fields : Fin 8) (m : Option MName)
  | vsseg (d : VName) (a : XReg) (fields : Fin 8) (m : Option MName)
  | vssegx (d : VName) (a : XReg) (k : KName) (m : Option MName)
  | vlsc (d : KName) (a b : XReg)
  | vssc (d : KName) (a b : XReg)
  | vstc (d : XReg) (a : XReg) (b : VName) (m : Option MName)
  | vldx (d : VName) (a : XReg) (m : Option MName)
  | vsbind (d : VName) (a : XReg) (slot : Fin 4)
  | vsunbind (slot : Fin 4)
  | vcopy (d a b : XReg) (kind : CopyKind) (bar : Bool)
  | vfeset (a b : XReg)
  | vfeclr (a b : XReg)
  | vpref (a b : XReg)
  -- custom-1 (R76)
  | vmv (d a : VName) (m : Option MName)
  | vbcst (d : VName) (a : XReg) (m : Option MName)
  | vperm (d a b : VName) (m : Option MName)
  | vslideup (d a : VName) (b : XReg) (m : Option MName)
  | vslidedn (d a : VName) (b : XReg) (m : Option MName)
  | vcompress (d a : VName) (m : MName)
  | vexpand (d a : VName) (m : MName)
  | viota (d : VName) (m : MName)
  | vredt (d a : VName) (op : RedOp) (m : Option MName)
  | vredo (d a : VName) (op : RedOp) (m : Option MName)
  | vscan (d a : VName) (op : RedOp) (ex : Bool) (m : Option MName)
  | vpopc (d : XReg) (a : MName) (m : Option MName)
  | vmfirst (d : XReg) (a : MName) (m : Option MName)
  | vmkeepn (d a : MName) (b : XReg)
  | vmlogic (d a b : MName) (t : BitVec 4)
  | vmovx (d : XReg) (a : VName) (b : XReg)
  | vxmov (d : VName) (a b : XReg)
  | vordkey (d a : VName) (m : Option MName)
  | vzip (d a b : VName)
  | vunzip (d a : VName) (odd : Bool)
  | vsortg (d a : VName) (g : Fin 8) (mods : RunMods)
  | vassert (d : VName) (uq : Bool) (gr : Fin 32) (mods : RunMods)
  | vmergeg (d a : VName)
  | vmerge2 (d a b : VName)
  | vmergeh (d a b : VName) (cnt : Fin 8)
  | visect (d a b : VName) (cnt : Fin 8)
  | vdiffk (d a b : VName) (cnt : Fin 8)
  | vuniq (d a : VName) (cnt : Fin 8)
  | vrank (d a b : VName) (le : Bool)
  | vpart (d a b : VName)
  | vlocate (d : XReg) (a : VName) (b : XReg)
  | vrtagc (d : VName)
  | vixins (d : MName) (a b : VName) (m : Option MName)
  | vixlkp (d a : VName) (b : MName) (m : Option MName)
  | vixacc (d : MName) (a b : VName) (op : IxOp)
  | vixdump (d : VName) (a : XReg) (cnt : Fin 8)
  | vixclr
  -- custom-2 (R78)
  | matt (rows : Fin 32)
  | mdet
  | mshape (a : XReg)
  | mlds (d : KName) (a b : XReg) (t : Bool)
  | mldsv (d : KName) (a : VName) (t : Bool)
  | mswap
  | mmul (d : AccName) (a : VName) (b : KName)
  | mmuls (d : AccName) (a : VName) (b : KName)
  | mrd (d : VName) (a : AccName) (b : XReg) (rm : Rm) (sat : Bool)
  | mrdq (d : VName) (a : AccName) (b : XReg) (k : KName)
  | mzero (d : AccName)
  | mwait
  | vfb (a : XReg)
  | vfbm (a : XReg) (m : MName)
  | vbconst (d : Fin 16) (a : XReg)
  | vdrain (scope : Scope) (micro : Bool)
  | vresume (g : Fin 8) (all : Bool)
  | vkill
  | vupd (d : VName) (a : XReg) (b : VName) (op : UpdOp) (masked : Bool)
  | vamo (d : VName) (a : XReg) (b : VName) (op : UpdOp) (remote : Bool)
  -- custom-3 (R79)
  | vsetl (d a b : XReg)
  | vsetli (d a : XReg) (imm : BitVec 9)
  | vsetsh (d a b : XReg)
  | vsetlq (d a b : XReg)
  | sqdecl (d a : XReg)
  | sqend (a : XReg)
  | barinit (a b : XReg)
  | barrive (a : XReg) (scope : Scope)
  | barwait (a : XReg)
  | bartest (d a : XReg)
  | ldfe (d a : XReg) (c : Bool)
  | stfe (a b : XReg)
  | launch (d a b : XReg)
  | lstat (d a : XReg)
  | svcall (a : XReg)
  | tcinv (a b : XReg)
  | vctxsave (a : XReg) (port : Bool)
  | vctxrst (a : XReg) (port : Bool)
  | lanepart (a : XReg)
  | hexit
  | hyield
  -- block operations (R85)
  | add (f : BlockArgs)
  | sub (f : BlockArgs)
  | mul (f : BlockArgs)
  | mulh (f : BlockArgs)
  | div (f : BlockArgs)
  | rem (f : BlockArgs)
  | and (f : BlockArgs)
  | or (f : BlockArgs)
  | xor (f : BlockArgs)
  | sll (f : BlockArgs)
  | srl (f : BlockArgs)
  | sra (f : BlockArgs)
  | min (f : BlockArgs)
  | max (f : BlockArgs)
  | abs (f : BlockArgs)
  | clz (f : BlockArgs)
  | popc (f : BlockArgs)
  | addi (f : BlockArgs)
  | li (f : BlockArgs)
  | sel (f : BlockArgs)
  | wadd (f : BlockArgs)
  | wmul (f : BlockArgs)
  | wmac (f : BlockArgs)
  | nclip (f : BlockArgs)
  | bext (f : BlockArgs)
  | bins (f : BlockArgs)
  | fadd (f : BlockArgs)
  | fsub (f : BlockArgs)
  | fmul (f : BlockArgs)
  | fmulz (f : BlockArgs)
  | fma (f : BlockArgs)
  | fdiv (f : BlockArgs)
  | fsqrt (f : BlockArgs)
  | fmin (f : BlockArgs)
  | fmax (f : BlockArgs)
  | fclass (f : BlockArgs)
  | fsgnj (f : BlockArgs)
  | fcvt (f : BlockArgs)
  | fcvti (f : BlockArgs)
  | icvtf (f : BlockArgs)
  | lmul (f : BlockArgs)
  | lacc (f : BlockArgs)
  | lcvtf (f : BlockArgs)
  | fcvtl (f : BlockArgs)
  | cmp (f : BlockArgs)
  | fcmp (f : BlockArgs)
  | plog (f : BlockArgs)
  | pset (f : BlockArgs)
  | ld (f : BlockArgs)
  | st (f : BlockArgs)
  | pf (f : BlockArgs)
  | lget (f : BlockArgs)
  | lput (f : BlockArgs)
  | sget (f : BlockArgs)
  | mov (f : BlockArgs)
  | stop (f : BlockArgs)
  | fetch (f : BlockArgs)
  | fetchc (f : BlockArgs)
  -- the standard part of the control stream (R68)
  | rv64 (i : Rv)
  | fence (fm pred succ : BitVec 4) (rd rs1 : XReg)
  | fenceI (imm : BitVec 12) (rd rs1 : XReg)
  | sfenceVma (rs1 rs2 : XReg)
  | sret
  | vectorCsrAccess (a : CsrArgs)
  | vseedWrite (a : CsrArgs)
  | mshapeMirrorWrite (a : CsrArgs)
  | registerWrite (a : CsrArgs)
  -- events of the control thread, the queues and the rounds
  | supervisorInterrupt (cause : Nat)
  | vectorFaultTrap
  | fetchGroupForm
  | fetchGroupPark (slot : Nat)
  | chainBreak (entry boundary : Nat)
  | chainReplay (entry : Nat)
  | fullEmptyWaitEnd
  | fullEmptyWaitAbandon
  | barriveFire
  | barwaitReturn
  -- events of the copy engines
  | copyAccept
  | pendingDecrement (copy : Nat)
  | copyComplete (copy : Nat)
  | copyFault (copy : Nat)
  -- events of the dispatchers, the allocator, the service queues and migration
  | dispatch
  | laneReclaim
  | laneGroupPass
  | lqFlush (queue : Fin 64)
  | svqPop (die : Fin 4)
  | svtoDeliver (die : Fin 4) (seq : Word)
  | migrationStart (die : Fin 4)
  | migrationCopyDone (die : Fin 4)
  | migrationRelease (die : Fin 4)
  | movedRequestReissue
  -- events between packages
  | pgrant (value : Word)
  | permitGrantReceive (h : MsgHeader) (queue : Fin 64) (asid : BitVec 16) (count : Nat)
  | permitReturn (h : MsgHeader) (queue : Fin 64) (asid : BitVec 16)
  | remoteLaunchReceive (h : MsgHeader) (queue : Fin 64) (asid : BitVec 16) (record : Vector Word 8)
  | rdmaWriteReceive (h : MsgHeader) (addr : Nat) (key : BitVec 32) (data : List Byte)
  | rdmaReadReceive (h : MsgHeader) (addr : Nat) (key : BitVec 32) (len : Nat)
  | remoteAtomicReceive (h : MsgHeader) (addr : Nat) (key : BitVec 32) (op : UpdOp) (fmt : Fmt) (value : Word)
  | remoteAckReceive (h : MsgHeader) (refused : Bool) (value : Word)
  | remoteAckTimeout (req : Nat)
  -- events of the links, the memories and the endpoints
  | flitReplay (flit : LinkFlit)
  | linkRetrain (link : Nat)
  | linkDisable (link : Nat)
  | networkFlitParityError (flit : NetFlit) (addr : Nat)
  | scrubLine (at' : Checked) (found : LineState)
  | endpointDma (endpoint : Endpoint) (addr : Nat) (data : List Byte)
  -- events of power, bring-up and the management service
  | powerOn (bootgen : BitVec 32) (images : List Firmware)
  | functionReady (f : Function)
  | powerBudgetLower (die : Fin 4)
  | powerBudgetRaise (die : Fin 4)
  | thermalTrip (die : Fin 5)
  | lifetimeRecordWrite
  | orderlyPowerOff
  | setPwrcap (watts : Nat)
  | lifetimeRecordRead
  | attestationReport (nonce : BitVec 512)
  | abruptLossOfPower
  -- further events of links and packages
  | retrainingEnd (link : Nat) (ok : Bool)
  | connectionFailure (dev : BitVec 21)
  | rdmaReadResponseReceive (h : MsgHeader) (data : List Byte)
  | resultAcknowledgmentReceive (h : MsgHeader)
  | grantAcknowledgmentReceive (h : MsgHeader) (queue : Fin 64) (asid : BitVec 16) (accepted : Bool) (count : Nat)
  deriving DecidableEq, Repr

/-- The block instruction of an operation and its fields. -/
def Instr.ofBlock (op : BlockOp) (f : BlockArgs) : Instr :=
  match op with
  | .add => .add f
  | .sub => .sub f
  | .mul => .mul f
  | .mulh => .mulh f
  | .div => .div f
  | .rem => .rem f
  | .and => .and f
  | .or => .or f
  | .xor => .xor f
  | .sll => .sll f
  | .srl => .srl f
  | .sra => .sra f
  | .min => .min f
  | .max => .max f
  | .abs => .abs f
  | .clz => .clz f
  | .popc => .popc f
  | .addi => .addi f
  | .li => .li f
  | .sel => .sel f
  | .wadd => .wadd f
  | .wmul => .wmul f
  | .wmac => .wmac f
  | .nclip => .nclip f
  | .bext => .bext f
  | .bins => .bins f
  | .fadd => .fadd f
  | .fsub => .fsub f
  | .fmul => .fmul f
  | .fmulz => .fmulz f
  | .fma => .fma f
  | .fdiv => .fdiv f
  | .fsqrt => .fsqrt f
  | .fmin => .fmin f
  | .fmax => .fmax f
  | .fclass => .fclass f
  | .fsgnj => .fsgnj f
  | .fcvt => .fcvt f
  | .fcvti => .fcvti f
  | .icvtf => .icvtf f
  | .lmul => .lmul f
  | .lacc => .lacc f
  | .lcvtf => .lcvtf f
  | .fcvtl => .fcvtl f
  | .cmp => .cmp f
  | .fcmp => .fcmp f
  | .plog => .plog f
  | .pset => .pset f
  | .ld => .ld f
  | .st => .st f
  | .pf => .pf f
  | .lget => .lget f
  | .lput => .lput f
  | .sget => .sget f
  | .mov => .mov f
  | .stop => .stop f
  | .fetch => .fetch f
  | .fetchc => .fetchc f

/-- The operation and the fields of a block instruction; none for every other instruction. -/
def Instr.block? : Instr → Option (BlockOp × BlockArgs)
  | .add f => some (.add, f)
  | .sub f => some (.sub, f)
  | .mul f => some (.mul, f)
  | .mulh f => some (.mulh, f)
  | .div f => some (.div, f)
  | .rem f => some (.rem, f)
  | .and f => some (.and, f)
  | .or f => some (.or, f)
  | .xor f => some (.xor, f)
  | .sll f => some (.sll, f)
  | .srl f => some (.srl, f)
  | .sra f => some (.sra, f)
  | .min f => some (.min, f)
  | .max f => some (.max, f)
  | .abs f => some (.abs, f)
  | .clz f => some (.clz, f)
  | .popc f => some (.popc, f)
  | .addi f => some (.addi, f)
  | .li f => some (.li, f)
  | .sel f => some (.sel, f)
  | .wadd f => some (.wadd, f)
  | .wmul f => some (.wmul, f)
  | .wmac f => some (.wmac, f)
  | .nclip f => some (.nclip, f)
  | .bext f => some (.bext, f)
  | .bins f => some (.bins, f)
  | .fadd f => some (.fadd, f)
  | .fsub f => some (.fsub, f)
  | .fmul f => some (.fmul, f)
  | .fmulz f => some (.fmulz, f)
  | .fma f => some (.fma, f)
  | .fdiv f => some (.fdiv, f)
  | .fsqrt f => some (.fsqrt, f)
  | .fmin f => some (.fmin, f)
  | .fmax f => some (.fmax, f)
  | .fclass f => some (.fclass, f)
  | .fsgnj f => some (.fsgnj, f)
  | .fcvt f => some (.fcvt, f)
  | .fcvti f => some (.fcvti, f)
  | .icvtf f => some (.icvtf, f)
  | .lmul f => some (.lmul, f)
  | .lacc f => some (.lacc, f)
  | .lcvtf f => some (.lcvtf, f)
  | .fcvtl f => some (.fcvtl, f)
  | .cmp f => some (.cmp, f)
  | .fcmp f => some (.fcmp, f)
  | .plog f => some (.plog, f)
  | .pset f => some (.pset, f)
  | .ld f => some (.ld, f)
  | .st f => some (.st, f)
  | .pf f => some (.pf, f)
  | .lget f => some (.lget, f)
  | .lput f => some (.lput, f)
  | .sget f => some (.sget, f)
  | .mov f => some (.mov, f)
  | .stop f => some (.stop, f)
  | .fetch f => some (.fetch, f)
  | .fetchc f => some (.fetchc, f)
  | _ => none

end Sys2Proof
end

