-- ==== Sys2Proof/Machine/Formats.lean ====
section
/-!
DEFINITION. The number formats (R15), the sets of formats the instructions accept (R95), and what each block operation uses
of its word (R84, R98 to R121).
-/

namespace Sys2Proof

/-! ## Widths and classes (R15) -/

/-- The register slot width of a format in bits: the SEW it sets (R15). -/
def Fmt.slot : Fmt → Nat
  | .fp64 | .i64 | .n64 => 64
  | .fp32 | .e8m10 | .i32 | .n32 => 32
  | .fp16 | .e8m7 | .i16 | .n16 => 16
  | .e2m1 | .mxe2m1 | .i4 | .n4 | .bxi4 => 4
  | .i2 | .n2 | .bxi2 => 2
  | .e5m2 | .e4m3 | .e3m2 | .e2m3 | .mxe5m2 | .mxe4m3 | .mxe3m2 | .mxe2m3 | .mxi8 | .l6 | .l6b | .i8 | .n8 | .e8m0 => 8

/-- The packed width of a format: the bits an element occupies in memory (R15). -/
def Fmt.packed : Fmt → Nat
  | .e3m2 | .e2m3 | .mxe3m2 | .mxe2m3 | .l6 | .l6b => 6
  | f => f.slot

/-- A format that takes an e8m0 scale from a scale register (R15). -/
def Fmt.scaled : Fmt → Bool
  | .mxe5m2 | .mxe4m3 | .mxe3m2 | .mxe2m3 | .mxe2m1 | .mxi8 | .l6b | .bxi4 | .bxi2 => true
  | _ => false

/-- The set INT (R95). -/
def Fmt.isInt : Fmt → Bool
  | .i64 | .n64 | .i32 | .n32 | .i16 | .n16 | .i8 | .n8 | .i4 | .n4 | .i2 | .n2 => true
  | _ => false

/-- The signed integer formats (R20). -/
def Fmt.signed : Fmt → Bool
  | .i64 | .i32 | .i16 | .i8 | .i4 | .i2 => true
  | _ => false

/-- The set FA (R95). -/
def Fmt.isFA : Fmt → Bool
  | .fp64 | .fp32 | .e8m10 | .fp16 | .e8m7 => true
  | _ => false

/-- The set FS (R95). -/
def Fmt.isFS : Fmt → Bool
  | .fp64 | .fp32 | .e8m10 | .fp16 | .e8m7 | .e5m2 | .e4m3 | .e3m2 | .e2m3 | .e2m1 => true
  | _ => false

/-- The set SC (R95). -/
def Fmt.isSC : Fmt → Bool
  | .mxe5m2 | .mxe4m3 | .mxe3m2 | .mxe2m3 | .mxe2m1 | .mxi8 | .bxi4 | .bxi2 => true
  | _ => false

/-- The set M8 (R95). -/
def Fmt.isM8 (f : Fmt) : Bool := f.packed == 8 || f.packed == 16 || f.packed == 32 || f.packed == 64

/-- The integer format of a width and a signedness (R20); i64 for a width that has none. -/
def Fmt.intOf (w : Nat) (signed : Bool) : Fmt :=
  match w, signed with
  | 64, false => .n64
  | 32, true => .i32 | 32, false => .n32
  | 16, true => .i16 | 16, false => .n16
  | 8, true => .i8 | 8, false => .n8
  | 4, true => .i4 | 4, false => .n4
  | 2, true => .i2 | 2, false => .n2
  | _, _ => .i64

/-- The element format of a scaled format (R21): the format whose element decoding it shares. -/
def Fmt.element : Fmt → Fmt
  | .mxe5m2 => .e5m2 | .mxe4m3 => .e4m3 | .mxe3m2 => .e3m2 | .mxe2m3 => .e2m3 | .mxe2m1 => .e2m1
  | .mxi8 => .i8 | .l6b => .l6 | .bxi4 => .i4 | .bxi2 => .i2
  | f => f

/-- The widened format of WADD, WMUL and WMAC (R101); none for the formats they do not accept. -/
def Fmt.widened : Fmt → Option Fmt
  | .i2 => some .i4 | .i4 => some .i8 | .i8 => some .i16 | .i16 => some .i32 | .i32 => some .i64
  | .n2 => some .n4 | .n4 => some .n8 | .n8 => some .n16 | .n16 => some .n32 | .n32 => some .n64
  | .e5m2 | .e4m3 => some .fp16
  | .fp16 | .e8m7 => some .fp32
  | .fp32 | .e8m10 => some .fp64
  | _ => none

/-- The one override that WADD, WMUL and WMAC allow on a source of a format (R101): the other signedness of the same width,
or the other of the pair. -/
def Fmt.widePartner : Fmt → Option Fmt
  | .i2 => some .n2 | .i4 => some .n4 | .i8 => some .n8 | .i16 => some .n16 | .i32 => some .n32
  | .n2 => some .i2 | .n4 => some .i4 | .n8 => some .i8 | .n16 => some .i16 | .n32 => some .i32
  | .e5m2 => some .e4m3 | .e4m3 => some .e5m2
  | .fp16 => some .e8m7 | .e8m7 => some .fp16
  | .fp32 => some .e8m10 | .e8m10 => some .fp32
  | _ => none

/-! ## What each block operation uses of its word (R84) -/

/-- The operation code of a block operation (R85). -/
def BlockOp.code : BlockOp → Nat
  | .add => 1
  | .sub => 2
  | .mul => 3
  | .mulh => 4
  | .div => 5
  | .rem => 6
  | .and => 7
  | .or => 8
  | .xor => 9
  | .sll => 10
  | .srl => 11
  | .sra => 12
  | .min => 13
  | .max => 14
  | .abs => 15
  | .clz => 16
  | .popc => 17
  | .addi => 18
  | .li => 19
  | .sel => 20
  | .wadd => 21
  | .wmul => 22
  | .wmac => 23
  | .nclip => 24
  | .bext => 25
  | .bins => 26
  | .fadd => 27
  | .fsub => 28
  | .fmul => 29
  | .fmulz => 30
  | .fma => 31
  | .fdiv => 32
  | .fsqrt => 33
  | .fmin => 34
  | .fmax => 35
  | .fclass => 36
  | .fsgnj => 37
  | .fcvt => 38
  | .fcvti => 39
  | .icvtf => 40
  | .lmul => 41
  | .lacc => 42
  | .lcvtf => 43
  | .fcvtl => 44
  | .cmp => 45
  | .fcmp => 46
  | .plog => 47
  | .pset => 48
  | .ld => 49
  | .st => 50
  | .pf => 51
  | .lget => 52
  | .lput => 53
  | .sget => 54
  | .mov => 55
  | .stop => 56
  | .fetch => 57
  | .fetchc => 58

/-- The block operation of an operation code (R85); none for the reserved codes and the prefixes. -/
def BlockOp.ofCode : Nat → Option BlockOp
  | 1 => some .add
  | 2 => some .sub
  | 3 => some .mul
  | 4 => some .mulh
  | 5 => some .div
  | 6 => some .rem
  | 7 => some .and
  | 8 => some .or
  | 9 => some .xor
  | 10 => some .sll
  | 11 => some .srl
  | 12 => some .sra
  | 13 => some .min
  | 14 => some .max
  | 15 => some .abs
  | 16 => some .clz
  | 17 => some .popc
  | 18 => some .addi
  | 19 => some .li
  | 20 => some .sel
  | 21 => some .wadd
  | 22 => some .wmul
  | 23 => some .wmac
  | 24 => some .nclip
  | 25 => some .bext
  | 26 => some .bins
  | 27 => some .fadd
  | 28 => some .fsub
  | 29 => some .fmul
  | 30 => some .fmulz
  | 31 => some .fma
  | 32 => some .fdiv
  | 33 => some .fsqrt
  | 34 => some .fmin
  | 35 => some .fmax
  | 36 => some .fclass
  | 37 => some .fsgnj
  | 38 => some .fcvt
  | 39 => some .fcvti
  | 40 => some .icvtf
  | 41 => some .lmul
  | 42 => some .lacc
  | 43 => some .lcvtf
  | 44 => some .fcvtl
  | 45 => some .cmp
  | 46 => some .fcmp
  | 47 => some .plog
  | 48 => some .pset
  | 49 => some .ld
  | 50 => some .st
  | 51 => some .pf
  | 52 => some .lget
  | 53 => some .lput
  | 54 => some .sget
  | 55 => some .mov
  | 56 => some .stop
  | 57 => some .fetch
  | 58 => some .fetchc
  | _ => none

/-- Terminators (R120). -/
def BlockOp.terminator : BlockOp → Bool
  | .stop | .fetch | .fetchc => true
  | _ => false

/-- The instruction uses the destination field (R98 to R120). -/
def BlockOp.usesD : BlockOp → Bool
  | .st | .pf | .lput | .stop | .fetch | .fetchc => false
  | _ => true

/-- The instruction uses source field a. -/
def BlockOp.usesA : BlockOp → Bool
  | .li | .lget | .sget | .stop => false
  | _ => true

/-- The instruction uses source field b. -/
def BlockOp.usesB : BlockOp → Bool
  | .abs | .clz | .popc | .addi | .li | .bext | .fsqrt | .fclass | .fcvt | .fcvti | .icvtf | .lcvtf | .fcvtl | .pset | .lget
  | .lput | .sget | .mov | .stop | .fetch | .fetchc => false
  | _ => true

/-- The instruction uses source field c. -/
def BlockOp.usesC : BlockOp → Bool
  | .fma | .st | .fetchc => true
  | _ => false

/-- The destination is a predicate (R111). -/
def BlockOp.predicateDest : BlockOp → Bool
  | .cmp | .fcmp | .plog | .pset => true
  | _ => false

/-- The instruction lists `.sat` (R98 to R110). -/
def BlockOp.takesSat : BlockOp → Bool
  | .add | .sub | .mul | .abs | .addi | .wadd | .wmul | .wmac | .nclip | .fadd | .fsub | .fmul | .fmulz | .fdiv | .fma
  | .fcvt | .icvtf => true
  | _ => false

/-- The instruction lists `.x` for a format (R98 to R110); the widening instructions list it for floating forms alone. -/
def BlockOp.takesX : BlockOp → Fmt → Bool
  | .div, _ | .rem, _ => true
  | .fadd, _ | .fsub, _ | .fmul, _ | .fmulz, _ | .fdiv, _ | .fma, _ | .fsqrt, _ | .fmin, _ | .fmax, _ => true
  | .fcvt, _ | .fcvti, _ | .icvtf, _ | .lmul, _ | .lacc, _ | .lcvtf, _ | .fcvtl, _ => true
  | .wadd, f | .wmul, f | .wmac, f => !f.isInt
  | _, _ => false

/-- The instruction accepts a format in its fmt field (R95, R98 to R119). Terminators and PLOG take none, so theirs is 0. -/
def BlockOp.accepts : BlockOp → Fmt → Bool
  | .add, f | .sub, f | .mul, f | .mulh, f | .div, f | .rem, f | .and, f | .or, f | .xor, f | .sll, f | .srl, f | .sra, f
  | .min, f | .max, f | .abs, f | .clz, f | .popc, f | .addi, f | .li, f | .bext, f | .bins, f | .cmp, f | .sget, f
  | .fcvti, f => f.isInt
  | .sel, _ | .pset, _ | .lget, _ | .lput, _ | .mov, _ => true
  | .wadd, f | .wmul, f | .wmac, f => f.widened.isSome
  | .nclip, f => f.isInt && f.slot < 64
  | .fadd, f | .fsub, f | .fmul, f | .fmulz, f | .fma, f | .fdiv, f | .fsqrt, f | .fmin, f | .fmax, f | .fclass, f => f.isFA
  | .fsgnj, f | .icvtf, f | .fcmp, f => f.isFS
  | .fcvt, f => f.isFS || f.isSC
  | .lmul, f | .lacc, f | .fcvtl, f => f == .l6
  | .lcvtf, f => f == .fp32
  | .ld, f | .st, f | .pf, f => f.isM8
  | .plog, f | .stop, f | .fetch, f | .fetchc, f => f == .fp64

/-- XPF may override source a of an operation of format `f` with format `g` (R121). -/
def BlockOp.overrideA : BlockOp → Fmt → Fmt → Bool
  | .fcvt, f, g => (g.isFS || g.isSC) && !(f.isSC && g.isSC)
  | .fcvti, _, g | .fma, _, g => g.isFS
  | .icvtf, _, g => g.isInt
  | .fcvtl, _, g => g.isFS && g != .fp64
  | .wadd, f, g | .wmul, f, g | .wmac, f, g => f.widePartner == some g
  | .nclip, f, g => g.isInt && g.slot == 2 * f.slot
  | .mov, _, _ => true
  | _, _, _ => false

/-- XPF may override source b of an operation of format `f` with format `g` (R121). -/
def BlockOp.overrideB : BlockOp → Fmt → Fmt → Bool
  | .fma, _, g => g.isFS
  | .wadd, f, g | .wmul, f, g | .wmac, f, g => f.widePartner == some g
  | .ld, _, g | .st, _, g => g.isInt && 8 ≤ g.slot
  | _, _, _ => false

/-- XPF may precede the operation (R86). -/
def BlockOp.takesXpf : BlockOp → Bool
  | .fcvt | .fcvti | .icvtf | .fcvtl | .fma | .wadd | .wmul | .wmac | .nclip | .ld | .st | .mov => true
  | _ => false

/-- XPI may precede the operation (R86). -/
def BlockOp.takesXpi : BlockOp → Bool
  | .addi | .li => true
  | _ => false

/-- The format of source a: the override, or fmt (R86). -/
def BlockArgs.fmtA (f : BlockArgs) : Fmt := (f.xpf.bind (·.af)).getD f.fmt

/-- The format of source b: the override, or fmt (R86). -/
def BlockArgs.fmtB (f : BlockArgs) : Fmt := (f.xpf.bind (·.bf)).getD f.fmt

/-- The fn13 field is one the operation allows (R84, R98 to R120). -/
def BlockArgs.fn13Ok (op : BlockOp) (f : BlockArgs) : Bool :=
  let n := f.fn13.toNat
  match op with
  | .addi | .li | .fetch | .fetchc => true
  | .sel | .plog | .sget => n < 16
  | .bext | .bins => n % 64 + (n / 64 + 1) ≤ f.fmt.slot
  | .fsgnj => n < 3
  | .fcvt => if f.fmt.isSC || f.fmtA.isSC then n < 16 else n == 0
  | .cmp | .fcmp => n < 4
  | .pset => n < 64 && n < f.fmt.slot
  | .ld => n < 16 && n / 4 != 3
  | .st => n < 8
  | .pf => n < 4
  | _ => n == 0

/-- A specifier that is zero bits: e0 (R84). -/
def Src.isZeroField (x : Src) : Bool := x == .e 0

/-- A specifier that names one of q0 to q7 (R111). -/
def Src.isPredicate : Src → Bool
  | .e n => n.val < 8
  | _ => false

/-- A specifier that names a block constant (R112). -/
def Src.isConstant : Src → Bool
  | .b _ => true
  | _ => false

/-- The prefix fields are ones the operation may take (R86, R87, R121). -/
def BlockArgs.prefixesOk (op : BlockOp) (f : BlockArgs) : Bool :=
  (match f.xpf with
    | none => true
    | some p => op.takesXpf && p.af.all (op.overrideA f.fmt ·) && p.bf.all (op.overrideB f.fmt ·)) &&
  (f.xpi.isNone || op.takesXpi)

/-- The fields of the instruction's own word are ones the operation may hold, whatever the vector type (R84, R98 to R120). -/
def BlockArgs.fieldsOk (op : BlockOp) (f : BlockArgs) : Bool :=
  op.accepts f.fmt &&
  (!f.sat || op.takesSat) && (f.x.isNone || op.takesX f.fmt) &&
  (f.pred.isNone || !op.terminator) &&
  (if op.usesD then (!op.predicateDest || f.d.val < 8) else f.d == 0) &&
  (if op.usesA then
      (match op with
        | .ld | .st | .pf => f.a.isConstant
        | .plog => f.a.isPredicate
        | .fcvti => f.fmtA.isFS
        | .icvtf => f.fmtA.isInt
        | .fcvtl => f.fmtA.isFS && f.fmtA != .fp64
        | .fcvt => !(f.fmt.isSC && f.fmtA.isSC)
        | _ => true)
    else f.a.isZeroField) &&
  (if op.usesB then (op != .plog || f.b.isPredicate) else f.b.isZeroField) &&
  (if op.usesC then
      (match op, f.c with
        | .fetchc, .e n => n.val < 16
        | .fetchc, _ => false
        | _, _ => true)
    else f.c.isZeroField) &&
  f.fn13Ok op

/-- The instruction with its prefixes is legal whatever the vector type. -/
def BlockArgs.formOk (op : BlockOp) (f : BlockArgs) : Bool := f.prefixesOk op && f.fieldsOk op

/-! ## CSR instructions (R60, R61) -/

/-- The CSR instruction writes its CSR: CSRRW always, the others when their source field is not 0 (Zicsr). -/
def CsrArgs.writes (a : CsrArgs) : Bool :=
  match a.op, a.src with
  | .rw, _ => true
  | _, .reg r => r != 0
  | _, .imm z => z != 0#5

/-- A CSR that R60 makes a synchronising point. -/
def isVectorCsr (addr : BitVec 12) : Bool :=
  (0x800 ≤ addr.toNat && addr.toNat ≤ 0x806) || (0xCC0 ≤ addr.toNat && addr.toNat ≤ 0xCFF)

/-- A supervisor CSR of the B7 (R61). -/
def isB7SupervisorCsr (addr : BitVec 12) : Bool := 0x5C0 ≤ addr.toNat && addr.toNat ≤ 0x5C7

/-- The row of the opcode table that a CSR instruction belongs to: the vector CSRs, with the writes of `vseed` and of the
`mshape` mirror apart; the writes of the B7's supervisor CSRs; every other CSR instruction is a standard one. -/
def Instr.ofCsr (a : CsrArgs) : Instr :=
  if isVectorCsr a.addr then
    if a.addr = 0x803#12 && a.writes then .vseedWrite a
    else if a.addr = 0x805#12 && a.writes then .mshapeMirrorWrite a
    else .vectorCsrAccess a
  else if isB7SupervisorCsr a.addr && a.writes then .registerWrite a
  else .rv64 (.csr a)

end Sys2Proof
end

