-- ==== Sys2Proof/WellFormed.lean ====
section
/-!
DEFINITION. Which instructions have an encoding: the field values that R72 to R79 and R84 mark illegal are refused here.
-/

namespace Sys2Proof

/-- An instruction whose operands are ones its encoding admits: the checks of R72 (odd pairs), R74 (`.ff` with `.fe` or
`.fec`), R76 (VSORTG's g, VASSERT's GR), R77 (a width code without `.p`), R78 (MATT's rows, VRESUME.ALL, VUPD.SWAP), R60 and
R61 (which row a CSR instruction belongs to) and R84 (block instructions). Events carry no encoding and are well formed. -/
def Instr.wf : Instr → Bool
  | .vle _ _ ff full _ _ => !(ff && full != .plain)
  | .vstc _ a _ _ => a.val % 2 == 0
  | .vldx _ a _ => a.val % 2 == 0
  | .vcopy d a b kind bar =>
      (kind != .put || d.val % 2 == 0) && (kind != .get || a.val % 2 == 0) && (!bar || b.val % 2 == 0)
  | .vsortg _ _ g mods => 1 ≤ g.val && g.val ≤ 6 && (mods.payload || mods.pw == 0)
  | .vassert _ _ gr mods => (gr.val ≤ 18 || gr.val == 31) && (mods.payload || mods.pw == 0)
  | .matt rows => 1 ≤ rows.val && rows.val ≤ 8
  | .vresume g all => !all || g == 0
  | .vupd _ _ _ op _ => op != .swap
  | .vamo _ a _ _ remote => !remote || a.val % 2 == 0
  | .rv64 (.csr a) => Instr.ofCsr a == .rv64 (.csr a)
  | .vectorCsrAccess a => Instr.ofCsr a == .vectorCsrAccess a
  | .vseedWrite a => Instr.ofCsr a == .vseedWrite a
  | .mshapeMirrorWrite a => Instr.ofCsr a == .mshapeMirrorWrite a
  | .registerWrite a => Instr.ofCsr a == .registerWrite a
  | i => match i.block? with
    | some (op, f) => f.formOk op
    | none => true

end Sys2Proof
end

