-- ==== Sys2Proof/Decode.lean ====
section
/-!
DEFINITION. Decoding: from a control-stream word (R68 to R81) and from the words of a block (R82 to R89) to an instruction or
a refusal, and the encoder written from the same tables.
-/

namespace Sys2Proof

/-! ## The fields of a control-stream word (R71) -/

/-- The fields of a 32-bit word: bits [31:25], [24:20], [19:15], [14:12], [11:7] and [6:0]. The OVIS format of R71 and the
standard formats share these places. -/
structure WordFields where
  f7 : BitVec 7
  b : BitVec 5
  a : BitVec 5
  f3 : BitVec 3
  d : BitVec 5
  op : BitVec 7
  deriving DecidableEq, Repr

/-- The fields of a word (R71). -/
def unpack (w : BitVec 32) : WordFields :=
  ⟨w.extractLsb' 25 7, w.extractLsb' 20 5, w.extractLsb' 15 5, w.extractLsb' 12 3, w.extractLsb' 7 5, w.extractLsb' 0 7⟩

/-- The word of its fields (R71). -/
def pack (f : WordFields) : BitVec 32 := f.f7 ++ f.b ++ f.a ++ f.f3 ++ f.d ++ f.op

/-- The operand fields of an OVIS control instruction (R71): me, mk (as `mr`), b, a and d. -/
structure OvisFields where
  me : Bool
  mr : BitVec 3
  b : BitVec 5
  a : BitVec 5
  d : BitVec 5
  deriving DecidableEq, Repr

/-! ## Field classes (R72, R77, R78) -/

/-- An unused field must be 0 (R72). -/
def unused (x : BitVec 5) : Option Unit := if x = 0#5 then some () else none

/-- A scale register, or a block constant: field[4] must be 0 (R72, R78). -/
def reg4 (x : BitVec 5) : Option (Fin 16) := if h : x.toNat < 16 then some ⟨x.toNat, h⟩ else none

/-- A mask register, or a 3-bit code: field[4:3] must be 0 (R72). -/
def reg3 (x : BitVec 5) : Option (Fin 8) := if h : x.toNat < 8 then some ⟨x.toNat, h⟩ else none

/-- An accumulator tile or a binding slot: field[4:2] must be 0 (R72, R74). -/
def reg2 (x : BitVec 5) : Option (Fin 4) := if h : x.toNat < 4 then some ⟨x.toNat, h⟩ else none

/-- The field of a 4-bit number. -/
def ofReg4 (n : Fin 16) : BitVec 5 := BitVec.ofNat 5 n.val
/-- The field of a 3-bit number. -/
def ofReg3 (n : Fin 8) : BitVec 5 := BitVec.ofNat 5 n.val
/-- The field of a 2-bit number. -/
def ofReg2 (n : Fin 4) : BitVec 5 := BitVec.ofNat 5 n.val

/-- An optional mask (R72): with me = 0, mk must be 0. -/
def maskField (me : Bool) (mk : BitVec 3) : Option (Option MName) :=
  if me then some (some mk.toFin) else if mk = 0#3 then some none else none

/-- The mk field of an optional mask. -/
def ofMask (m : Option MName) : BitVec 3 := match m with
  | none => 0#3
  | some n => BitVec.ofFin n

/-- mk and me are unused (R72). -/
def noMask (me : Bool) (mk : BitVec 3) : Option Unit := if me = false ∧ mk = 0#3 then some () else none

/-- A selector (R72): me must be 1. -/
def selector (me : Bool) (mk : BitVec 3) : Option MName := if me then some mk.toFin else none

/-- A count register number (R72): me must be 0; the count goes to x(8 + mk). -/
def countReg (me : Bool) (mk : BitVec 3) : Option (Fin 8) := if me then none else some mk.toFin

/-- A modifier in me, with mk 0 (R78, R79). -/
def modifier (me : Bool) (mk : BitVec 3) : Option Bool := if mk = 0#3 then some me else none

/-- A one-bit modifier field: its other bits must be 0. -/
def flag (x : BitVec 5) : Option Bool := if x.toNat < 2 then some (x == 1#5) else none

/-- The field of a one-bit modifier. -/
def ofFlag (v : Bool) : BitVec 5 := if v then 1#5 else 0#5

/-- A full-empty qualifier code (R74). -/
def FeLoad.ofCode : Nat → Option FeLoad
  | 0 => some .plain
  | 1 => some .fe
  | 2 => some .fec
  | _ => none

/-- The code of a full-empty qualifier (R74). -/
def FeLoad.code : FeLoad → Nat
  | .plain => 0
  | .fe => 1
  | .fec => 2

/-- The modifiers of VLE (R74): b[0] `.ff`, b[2:1] the qualifier, b[3] `.nt`, b[4] must be 0. -/
def loadMods (x : BitVec 5) : Option (Bool × FeLoad × Bool) :=
  if x.getLsbD 4 then none
  else (FeLoad.ofCode (x.toNat / 2 % 4)).map fun q => (x.getLsbD 0, q, x.getLsbD 3)

/-- The b field of VLE's modifiers. -/
def ofLoadMods (ff : Bool) (q : FeLoad) (nt : Bool) : BitVec 5 :=
  BitVec.ofNat 5 (ff.toNat + 2 * q.code + 8 * nt.toNat)

/-- The modifiers of VSE (R74): b[0] `.fes`, b[3] `.nt`, the others 0. -/
def storeMods (x : BitVec 5) : Option (Bool × Bool) :=
  if x.getLsbD 1 || x.getLsbD 2 || x.getLsbD 4 then none else some (x.getLsbD 0, x.getLsbD 3)

/-- The b field of VSE's modifiers. -/
def ofStoreMods (fes nt : Bool) : BitVec 5 := BitVec.ofNat 5 (fes.toNat + 8 * nt.toNat)

/-- The kind of a copy (R74): 3 to 7 are illegal. -/
def copyKind (mk : BitVec 3) : Option CopyKind :=
  match mk.toNat with
  | 0 => some .onDevice
  | 1 => some .put
  | 2 => some .get
  | _ => none

/-- The mk field of a copy kind. -/
def ofCopyKind : CopyKind → BitVec 3
  | .onDevice => 0#3
  | .put => 1#3
  | .get => 2#3

/-- A reduction or scan code (R77): 7 is illegal. -/
def RedOp.ofCode : Nat → Option RedOp
  | 0 => some .sum | 1 => some .min | 2 => some .max | 3 => some .and | 4 => some .or | 5 => some .xor | 6 => some .ssum
  | _ => none

/-- The code of a reduction or scan (R77). -/
def RedOp.code : RedOp → Nat
  | .sum => 0 | .min => 1 | .max => 2 | .and => 3 | .or => 4 | .xor => 5 | .ssum => 6

/-- The b field of a reduction (R76). -/
def redOp (x : BitVec 5) : Option RedOp := if x.toNat < 8 then RedOp.ofCode x.toNat else none

/-- The field of a reduction code. -/
def ofRedOp (op : RedOp) : BitVec 5 := BitVec.ofNat 5 op.code

/-- The b field of VSCAN (R76): b[2:0] the operation, b[3] `.ex`, b[4] must be 0. -/
def scanOp (x : BitVec 5) : Option (RedOp × Bool) :=
  if x.getLsbD 4 then none else (RedOp.ofCode (x.toNat % 8)).map fun op => (op, x.getLsbD 3)

/-- The field of a scan's modifiers. -/
def ofScanOp (op : RedOp) (ex : Bool) : BitVec 5 := BitVec.ofNat 5 (op.code + 8 * ex.toNat)

/-- Run modifiers (R77): me is `.p`, mk[1:0] is PW, mk[2] is `.dn`; without `.p`, PW must be 0. -/
def runMods (me : Bool) (mk : BitVec 3) : Option RunMods :=
  if me = false ∧ mk.toNat % 4 ≠ 0 then none
  else some ⟨me, Fin.ofNat 4 mk.toNat, mk.getLsbD 2⟩

/-- The mk field of run modifiers. -/
def ofRunMods (r : RunMods) : BitVec 3 := BitVec.ofNat 3 (r.pw.val + 4 * r.descending.toNat)

/-- The operation of VIXACC in mk:me (R76): 6 to 15 are illegal. -/
def ixOp (me : Bool) (mk : BitVec 3) : Option IxOp :=
  match mk.toNat * 2 + me.toNat with
  | 0 => some .addFp64 | 1 => some .addFp32 | 2 => some .addI64 | 3 => some .min | 4 => some .max | 5 => some .or
  | _ => none

/-- The mk field of an operation of VIXACC. -/
def ofIxOp : IxOp → BitVec 3
  | .addFp64 | .addFp32 => 0#3
  | .addI64 | .min => 1#3
  | .max | .or => 2#3

/-- The me bit of an operation of VIXACC. -/
def ofIxOpLow : IxOp → Bool
  | .addFp32 | .min | .or => true
  | _ => false

/-- A rounding-mode field (R29, R78): 6 is illegal. -/
def rmField (x : BitVec 3) : Option Rm :=
  match x.toNat with
  | 0 => some .rne | 1 => some .rtz | 2 => some .rdn | 3 => some .rup | 4 => some .rmm | 5 => some .sr | 7 => some .dyn
  | _ => none

/-- The field of a rounding mode. -/
def ofRm : Rm → BitVec 3
  | .rne => 0#3 | .rtz => 1#3 | .rdn => 2#3 | .rup => 3#3 | .rmm => 4#3 | .sr => 5#3 | .dyn => 7#3

/-- The scale register that MRDQ holds in mk:me (R78). -/
def kPair (me : Bool) (mk : BitVec 3) : KName := Fin.ofNat 16 (mk.toNat * 2 + me.toNat)

/-- The me bit of MRDQ's scale register. -/
def kLow (k : KName) : Bool := k.val % 2 == 1

/-- The mk field of MRDQ's scale register. -/
def kHigh (k : KName) : BitVec 3 := BitVec.ofNat 3 (k.val / 2)

/-- The update operation of a code (R78). -/
def updOp (mk : BitVec 3) : UpdOp :=
  match mk.toNat with
  | 0 => .add | 1 => .min | 2 => .max | 3 => .and | 4 => .or | 5 => .xor | 6 => .swap | _ => .fadd

/-- The code of an update operation. -/
def ofUpdOp : UpdOp → BitVec 3
  | .add => 0#3 | .min => 1#3 | .max => 2#3 | .and => 3#3 | .or => 4#3 | .xor => 5#3 | .swap => 6#3 | .fadd => 7#3

/-- The scope of a code (R78): 6 and 7 are illegal. -/
def Scope.ofCode : Nat → Option Scope
  | 0 => some .hart | 1 => some .core | 2 => some .cluster | 3 => some .die | 4 => some .device | 5 => some .system
  | _ => none

/-- The code of a scope (R78). -/
def Scope.code : Scope → Nat
  | .hart => 0 | .core => 1 | .cluster => 2 | .die => 3 | .device => 4 | .system => 5

/-- The b field of BARRIVE (R79). -/
def scopeField (x : BitVec 5) : Option Scope := Scope.ofCode x.toNat

/-- The field of a scope. -/
def ofScope (s : Scope) : BitVec 5 := BitVec.ofNat 5 s.code

/-- The b field of VDRAIN (R78): b[2:0] the scope, b[3] `.m`, b[4] must be 0. -/
def drainMods (x : BitVec 5) : Option (Scope × Bool) :=
  if x.getLsbD 4 then none else (Scope.ofCode (x.toNat % 8)).map fun s => (s, x.getLsbD 3)

/-- The field of VDRAIN's modifiers. -/
def ofDrainMods (s : Scope) (m : Bool) : BitVec 5 := BitVec.ofNat 5 (s.code + 8 * m.toNat)

/-- The b field of VRESUME (R78): b[2:0] the group, b[3] `.all`, which requires group 0; b[4] must be 0. -/
def resumeMods (x : BitVec 5) : Option (Fin 8 × Bool) :=
  if x.getLsbD 4 then none else some (Fin.ofNat 8 x.toNat, x.getLsbD 3)

/-- The field of VRESUME's modifiers. -/
def ofResumeMods (g : Fin 8) (all : Bool) : BitVec 5 := BitVec.ofNat 5 (g.val + 8 * all.toNat)

/-! ## OVIS control instructions (R73 to R79) -/

/-- The custom-0 instruction of a funct6 and its fields (R73, R74). -/
def decodeCustom0 (funct6 : Nat) (o : OvisFields) : Option Instr :=
  match funct6 with
  | 0 => (loadMods o.b).bind fun (ff, full, nt) => (maskField o.me o.mr).bind fun m => some (.vle (o.d.toFin) (o.a.toFin) ff full nt m)
  | 1 => (storeMods o.b).bind fun (fes, nt) => (maskField o.me o.mr).bind fun m => some (.vse (o.d.toFin) (o.a.toFin) fes nt m)
  | 2 => (maskField o.me o.mr).bind fun m => some (.vlse (o.d.toFin) (o.a.toFin) (o.b.toFin) m)
  | 3 => (maskField o.me o.mr).bind fun m => some (.vsse (o.d.toFin) (o.a.toFin) (o.b.toFin) m)
  | 4 => (maskField o.me o.mr).bind fun m => some (.vlxe (o.d.toFin) (o.a.toFin) (o.b.toFin) m)
  | 5 => (maskField o.me o.mr).bind fun m => some (.vsxe (o.d.toFin) (o.a.toFin) (o.b.toFin) m)
  | 6 => (reg3 o.b).bind fun n => (maskField o.me o.mr).bind fun m => some (.vlseg (o.d.toFin) (o.a.toFin) n m)
  | 7 => (reg3 o.b).bind fun n => (maskField o.me o.mr).bind fun m => some (.vsseg (o.d.toFin) (o.a.toFin) n m)
  | 8 => (reg4 o.b).bind fun k => (maskField o.me o.mr).bind fun m => some (.vssegx (o.d.toFin) (o.a.toFin) k m)
  | 9 => (reg4 o.d).bind fun d => (noMask o.me o.mr).bind fun _ => some (.vlsc d (o.a.toFin) (o.b.toFin))
  | 10 => (reg4 o.d).bind fun d => (noMask o.me o.mr).bind fun _ => some (.vssc d (o.a.toFin) (o.b.toFin))
  | 11 => (maskField o.me o.mr).bind fun m => some (.vstc (o.d.toFin) (o.a.toFin) (o.b.toFin) m)
  | 12 => (unused o.b).bind fun _ => (maskField o.me o.mr).bind fun m => some (.vldx (o.d.toFin) (o.a.toFin) m)
  | 13 => (reg2 o.b).bind fun s => (noMask o.me o.mr).bind fun _ => some (.vsbind (o.d.toFin) (o.a.toFin) s)
  | 14 => (unused o.d).bind fun _ => (unused o.a).bind fun _ => (reg2 o.b).bind fun s => (noMask o.me o.mr).bind fun _ => some (.vsunbind s)
  | 15 => (copyKind o.mr).bind fun kind => some (.vcopy (o.d.toFin) (o.a.toFin) (o.b.toFin) kind (o.me))
  | 16 => (unused o.d).bind fun _ => (noMask o.me o.mr).bind fun _ => some (.vfeset (o.a.toFin) (o.b.toFin))
  | 17 => (unused o.d).bind fun _ => (noMask o.me o.mr).bind fun _ => some (.vfeclr (o.a.toFin) (o.b.toFin))
  | 18 => (unused o.d).bind fun _ => (noMask o.me o.mr).bind fun _ => some (.vpref (o.a.toFin) (o.b.toFin))
  | _ => none

/-- The custom-1 instruction of a funct6 and its fields (R73, R76). -/
def decodeCustom1 (funct6 : Nat) (o : OvisFields) : Option Instr :=
  match funct6 with
  | 0 => (unused o.b).bind fun _ => (maskField o.me o.mr).bind fun m => some (.vmv (o.d.toFin) (o.a.toFin) m)
  | 1 => (unused o.b).bind fun _ => (maskField o.me o.mr).bind fun m => some (.vbcst (o.d.toFin) (o.a.toFin) m)
  | 2 => (maskField o.me o.mr).bind fun m => some (.vperm (o.d.toFin) (o.a.toFin) (o.b.toFin) m)
  | 3 => (maskField o.me o.mr).bind fun m => some (.vslideup (o.d.toFin) (o.a.toFin) (o.b.toFin) m)
  | 4 => (maskField o.me o.mr).bind fun m => some (.vslidedn (o.d.toFin) (o.a.toFin) (o.b.toFin) m)
  | 5 => (unused o.b).bind fun _ => (selector o.me o.mr).bind fun m => some (.vcompress (o.d.toFin) (o.a.toFin) m)
  | 6 => (unused o.b).bind fun _ => (selector o.me o.mr).bind fun m => some (.vexpand (o.d.toFin) (o.a.toFin) m)
  | 7 => (unused o.a).bind fun _ => (unused o.b).bind fun _ => (selector o.me o.mr).bind fun m => some (.viota (o.d.toFin) m)
  | 8 => (redOp o.b).bind fun op => (maskField o.me o.mr).bind fun m => some (.vredt (o.d.toFin) (o.a.toFin) op m)
  | 9 => (redOp o.b).bind fun op => (maskField o.me o.mr).bind fun m => some (.vredo (o.d.toFin) (o.a.toFin) op m)
  | 10 => (scanOp o.b).bind fun (op, ex) => (maskField o.me o.mr).bind fun m => some (.vscan (o.d.toFin) (o.a.toFin) op ex m)
  | 11 => (reg3 o.a).bind fun a => (unused o.b).bind fun _ => (maskField o.me o.mr).bind fun m => some (.vpopc (o.d.toFin) a m)
  | 12 => (reg3 o.a).bind fun a => (unused o.b).bind fun _ => (maskField o.me o.mr).bind fun m => some (.vmfirst (o.d.toFin) a m)
  | 13 => (reg3 o.d).bind fun d => (reg3 o.a).bind fun a => (noMask o.me o.mr).bind fun _ => some (.vmkeepn d a (o.b.toFin))
  | 14 => (reg3 o.d).bind fun d => (reg3 o.a).bind fun a => (reg3 o.b).bind fun b => (some (o.mr ++ BitVec.ofBool o.me)).bind fun t => some (.vmlogic d a b t)
  | 15 => (noMask o.me o.mr).bind fun _ => some (.vmovx (o.d.toFin) (o.a.toFin) (o.b.toFin))
  | 16 => (noMask o.me o.mr).bind fun _ => some (.vxmov (o.d.toFin) (o.a.toFin) (o.b.toFin))
  | 17 => (unused o.b).bind fun _ => (maskField o.me o.mr).bind fun m => some (.vordkey (o.d.toFin) (o.a.toFin) m)
  | 18 => (noMask o.me o.mr).bind fun _ => some (.vzip (o.d.toFin) (o.a.toFin) (o.b.toFin))
  | 19 => (flag o.b).bind fun odd => (noMask o.me o.mr).bind fun _ => some (.vunzip (o.d.toFin) (o.a.toFin) odd)
  | 20 => (reg3 o.b).bind fun g => (runMods o.me o.mr).bind fun mods => some (.vsortg (o.d.toFin) (o.a.toFin) g mods)
  | 21 => (flag o.a).bind fun uq => (runMods o.me o.mr).bind fun mods => some (.vassert (o.d.toFin) uq (o.b.toFin) mods)
  | 22 => (unused o.b).bind fun _ => (noMask o.me o.mr).bind fun _ => some (.vmergeg (o.d.toFin) (o.a.toFin))
  | 23 => (noMask o.me o.mr).bind fun _ => some (.vmerge2 (o.d.toFin) (o.a.toFin) (o.b.toFin))
  | 24 => (countReg o.me o.mr).bind fun cnt => some (.vmergeh (o.d.toFin) (o.a.toFin) (o.b.toFin) cnt)
  | 25 => (countReg o.me o.mr).bind fun cnt => some (.visect (o.d.toFin) (o.a.toFin) (o.b.toFin) cnt)
  | 26 => (countReg o.me o.mr).bind fun cnt => some (.vdiffk (o.d.toFin) (o.a.toFin) (o.b.toFin) cnt)
  | 27 => (unused o.b).bind fun _ => (countReg o.me o.mr).bind fun cnt => some (.vuniq (o.d.toFin) (o.a.toFin) cnt)
  | 28 => (modifier o.me o.mr).bind fun le => some (.vrank (o.d.toFin) (o.a.toFin) (o.b.toFin) le)
  | 29 => (noMask o.me o.mr).bind fun _ => some (.vpart (o.d.toFin) (o.a.toFin) (o.b.toFin))
  | 30 => (noMask o.me o.mr).bind fun _ => some (.vlocate (o.d.toFin) (o.a.toFin) (o.b.toFin))
  | 31 => (unused o.a).bind fun _ => (unused o.b).bind fun _ => (noMask o.me o.mr).bind fun _ => some (.vrtagc (o.d.toFin))
  | 32 => (reg3 o.d).bind fun d => (maskField o.me o.mr).bind fun m => some (.vixins d (o.a.toFin) (o.b.toFin) m)
  | 33 => (reg3 o.b).bind fun b => (maskField o.me o.mr).bind fun m => some (.vixlkp (o.d.toFin) (o.a.toFin) b m)
  | 34 => (reg3 o.d).bind fun d => (ixOp o.me o.mr).bind fun op => some (.vixacc d (o.a.toFin) (o.b.toFin) op)
  | 35 => (unused o.b).bind fun _ => (countReg o.me o.mr).bind fun cnt => some (.vixdump (o.d.toFin) (o.a.toFin) cnt)
  | 36 => (unused o.d).bind fun _ => (unused o.a).bind fun _ => (unused o.b).bind fun _ => (noMask o.me o.mr).bind fun _ => some (.vixclr)
  | _ => none

/-- The custom-2 instruction of a funct6 and its fields (R73, R78). -/
def decodeCustom2 (funct6 : Nat) (o : OvisFields) : Option Instr :=
  match funct6 with
  | 0 => (unused o.d).bind fun _ => (unused o.a).bind fun _ => (noMask o.me o.mr).bind fun _ => some (.matt (o.b.toFin))
  | 1 => (unused o.d).bind fun _ => (unused o.a).bind fun _ => (unused o.b).bind fun _ => (noMask o.me o.mr).bind fun _ => some (.mdet)
  | 2 => (unused o.d).bind fun _ => (unused o.b).bind fun _ => (noMask o.me o.mr).bind fun _ => some (.mshape (o.a.toFin))
  | 3 => (reg4 o.d).bind fun d => (modifier o.me o.mr).bind fun t => some (.mlds d (o.a.toFin) (o.b.toFin) t)
  | 4 => (reg4 o.d).bind fun d => (unused o.b).bind fun _ => (modifier o.me o.mr).bind fun t => some (.mldsv d (o.a.toFin) t)
  | 5 => (unused o.d).bind fun _ => (unused o.a).bind fun _ => (unused o.b).bind fun _ => (noMask o.me o.mr).bind fun _ => some (.mswap)
  | 6 => (reg2 o.d).bind fun d => (reg4 o.b).bind fun b => (noMask o.me o.mr).bind fun _ => some (.mmul d (o.a.toFin) b)
  | 7 => (reg2 o.d).bind fun d => (reg4 o.b).bind fun b => (noMask o.me o.mr).bind fun _ => some (.mmuls d (o.a.toFin) b)
  | 8 => (reg2 o.a).bind fun a => (rmField o.mr).bind fun rm => some (.mrd (o.d.toFin) a (o.b.toFin) rm (o.me))
  | 9 => (reg2 o.a).bind fun a => (some (kPair o.me o.mr)).bind fun k => some (.mrdq (o.d.toFin) a (o.b.toFin) k)
  | 10 => (reg2 o.d).bind fun d => (unused o.a).bind fun _ => (unused o.b).bind fun _ => (noMask o.me o.mr).bind fun _ => some (.mzero d)
  | 11 => (unused o.d).bind fun _ => (unused o.a).bind fun _ => (unused o.b).bind fun _ => (noMask o.me o.mr).bind fun _ => some (.mwait)
  | 12 => (unused o.d).bind fun _ => (unused o.b).bind fun _ => (noMask o.me o.mr).bind fun _ => some (.vfb (o.a.toFin))
  | 13 => (unused o.d).bind fun _ => (unused o.b).bind fun _ => (selector o.me o.mr).bind fun m => some (.vfbm (o.a.toFin) m)
  | 14 => (reg4 o.d).bind fun d => (unused o.b).bind fun _ => (noMask o.me o.mr).bind fun _ => some (.vbconst d (o.a.toFin))
  | 15 => (unused o.d).bind fun _ => (unused o.a).bind fun _ => (drainMods o.b).bind fun (scope, micro) => (noMask o.me o.mr).bind fun _ => some (.vdrain scope micro)
  | 16 => (unused o.d).bind fun _ => (unused o.a).bind fun _ => (resumeMods o.b).bind fun (g, all) => (noMask o.me o.mr).bind fun _ => some (.vresume g all)
  | 17 => (unused o.d).bind fun _ => (unused o.a).bind fun _ => (unused o.b).bind fun _ => (noMask o.me o.mr).bind fun _ => some (.vkill)
  | 18 => (some (updOp o.mr)).bind fun op => some (.vupd (o.d.toFin) (o.a.toFin) (o.b.toFin) op (o.me))
  | 19 => (some (updOp o.mr)).bind fun op => some (.vamo (o.d.toFin) (o.a.toFin) (o.b.toFin) op (o.me))
  | _ => none

/-- The custom-3 instruction of a funct6 and its fields (R73, R79). -/
def decodeCustom3 (funct6 : Nat) (o : OvisFields) : Option Instr :=
  match funct6 with
  | 0 => (noMask o.me o.mr).bind fun _ => some (.vsetl (o.d.toFin) (o.a.toFin) (o.b.toFin))
  | 1 => some (.vsetli (o.d.toFin) (o.a.toFin) (o.b ++ o.mr ++ BitVec.ofBool o.me))
  | 2 => (noMask o.me o.mr).bind fun _ => some (.vsetsh (o.d.toFin) (o.a.toFin) (o.b.toFin))
  | 3 => (noMask o.me o.mr).bind fun _ => some (.vsetlq (o.d.toFin) (o.a.toFin) (o.b.toFin))
  | 4 => (unused o.b).bind fun _ => (noMask o.me o.mr).bind fun _ => some (.sqdecl (o.d.toFin) (o.a.toFin))
  | 5 => (unused o.d).bind fun _ => (unused o.b).bind fun _ => (noMask o.me o.mr).bind fun _ => some (.sqend (o.a.toFin))
  | 6 => (unused o.d).bind fun _ => (noMask o.me o.mr).bind fun _ => some (.barinit (o.a.toFin) (o.b.toFin))
  | 7 => (unused o.d).bind fun _ => (scopeField o.b).bind fun scope => (noMask o.me o.mr).bind fun _ => some (.barrive (o.a.toFin) scope)
  | 8 => (unused o.d).bind fun _ => (unused o.b).bind fun _ => (noMask o.me o.mr).bind fun _ => some (.barwait (o.a.toFin))
  | 9 => (unused o.b).bind fun _ => (noMask o.me o.mr).bind fun _ => some (.bartest (o.d.toFin) (o.a.toFin))
  | 10 => (unused o.b).bind fun _ => (modifier o.me o.mr).bind fun c => some (.ldfe (o.d.toFin) (o.a.toFin) c)
  | 11 => (unused o.d).bind fun _ => (noMask o.me o.mr).bind fun _ => some (.stfe (o.a.toFin) (o.b.toFin))
  | 12 => (noMask o.me o.mr).bind fun _ => some (.launch (o.d.toFin) (o.a.toFin) (o.b.toFin))
  | 13 => (unused o.b).bind fun _ => (noMask o.me o.mr).bind fun _ => some (.lstat (o.d.toFin) (o.a.toFin))
  | 14 => (unused o.d).bind fun _ => (unused o.b).bind fun _ => (noMask o.me o.mr).bind fun _ => some (.svcall (o.a.toFin))
  | 15 => (unused o.d).bind fun _ => (noMask o.me o.mr).bind fun _ => some (.tcinv (o.a.toFin) (o.b.toFin))
  | 16 => (unused o.d).bind fun _ => (unused o.b).bind fun _ => (modifier o.me o.mr).bind fun port => some (.vctxsave (o.a.toFin) port)
  | 17 => (unused o.d).bind fun _ => (unused o.b).bind fun _ => (modifier o.me o.mr).bind fun port => some (.vctxrst (o.a.toFin) port)
  | 18 => (unused o.d).bind fun _ => (unused o.b).bind fun _ => (noMask o.me o.mr).bind fun _ => some (.lanepart (o.a.toFin))
  | 19 => (unused o.d).bind fun _ => (unused o.a).bind fun _ => (unused o.b).bind fun _ => (noMask o.me o.mr).bind fun _ => some (.hexit)
  | 20 => (unused o.d).bind fun _ => (unused o.a).bind fun _ => (unused o.b).bind fun _ => (noMask o.me o.mr).bind fun _ => some (.hyield)
  | _ => none

/-- The major opcode number, the funct6 and the fields of an OVIS control instruction (R71 to R79); none for every other
instruction. -/
def encodeOvis : Instr → Option (Nat × Nat × OvisFields)
  | .vle d a ff full nt m => some (0, 0, ⟨m.isSome, ofMask m, ofLoadMods ff full nt, BitVec.ofFin a, BitVec.ofFin d⟩)
  | .vse d a fes nt m => some (0, 1, ⟨m.isSome, ofMask m, ofStoreMods fes nt, BitVec.ofFin a, BitVec.ofFin d⟩)
  | .vlse d a b m => some (0, 2, ⟨m.isSome, ofMask m, BitVec.ofFin b, BitVec.ofFin a, BitVec.ofFin d⟩)
  | .vsse d a b m => some (0, 3, ⟨m.isSome, ofMask m, BitVec.ofFin b, BitVec.ofFin a, BitVec.ofFin d⟩)
  | .vlxe d a b m => some (0, 4, ⟨m.isSome, ofMask m, BitVec.ofFin b, BitVec.ofFin a, BitVec.ofFin d⟩)
  | .vsxe d a b m => some (0, 5, ⟨m.isSome, ofMask m, BitVec.ofFin b, BitVec.ofFin a, BitVec.ofFin d⟩)
  | .vlseg d a n m => some (0, 6, ⟨m.isSome, ofMask m, ofReg3 n, BitVec.ofFin a, BitVec.ofFin d⟩)
  | .vsseg d a n m => some (0, 7, ⟨m.isSome, ofMask m, ofReg3 n, BitVec.ofFin a, BitVec.ofFin d⟩)
  | .vssegx d a k m => some (0, 8, ⟨m.isSome, ofMask m, ofReg4 k, BitVec.ofFin a, BitVec.ofFin d⟩)
  | .vlsc d a b => some (0, 9, ⟨false, 0#3, BitVec.ofFin b, BitVec.ofFin a, ofReg4 d⟩)
  | .vssc d a b => some (0, 10, ⟨false, 0#3, BitVec.ofFin b, BitVec.ofFin a, ofReg4 d⟩)
  | .vstc d a b m => some (0, 11, ⟨m.isSome, ofMask m, BitVec.ofFin b, BitVec.ofFin a, BitVec.ofFin d⟩)
  | .vldx d a m => some (0, 12, ⟨m.isSome, ofMask m, 0#5, BitVec.ofFin a, BitVec.ofFin d⟩)
  | .vsbind d a s => some (0, 13, ⟨false, 0#3, ofReg2 s, BitVec.ofFin a, BitVec.ofFin d⟩)
  | .vsunbind s => some (0, 14, ⟨false, 0#3, ofReg2 s, 0#5, 0#5⟩)
  | .vcopy d a b kind bar => some (0, 15, ⟨bar, ofCopyKind kind, BitVec.ofFin b, BitVec.ofFin a, BitVec.ofFin d⟩)
  | .vfeset a b => some (0, 16, ⟨false, 0#3, BitVec.ofFin b, BitVec.ofFin a, 0#5⟩)
  | .vfeclr a b => some (0, 17, ⟨false, 0#3, BitVec.ofFin b, BitVec.ofFin a, 0#5⟩)
  | .vpref a b => some (0, 18, ⟨false, 0#3, BitVec.ofFin b, BitVec.ofFin a, 0#5⟩)
  | .vmv d a m => some (1, 0, ⟨m.isSome, ofMask m, 0#5, BitVec.ofFin a, BitVec.ofFin d⟩)
  | .vbcst d a m => some (1, 1, ⟨m.isSome, ofMask m, 0#5, BitVec.ofFin a, BitVec.ofFin d⟩)
  | .vperm d a b m => some (1, 2, ⟨m.isSome, ofMask m, BitVec.ofFin b, BitVec.ofFin a, BitVec.ofFin d⟩)
  | .vslideup d a b m => some (1, 3, ⟨m.isSome, ofMask m, BitVec.ofFin b, BitVec.ofFin a, BitVec.ofFin d⟩)
  | .vslidedn d a b m => some (1, 4, ⟨m.isSome, ofMask m, BitVec.ofFin b, BitVec.ofFin a, BitVec.ofFin d⟩)
  | .vcompress d a m => some (1, 5, ⟨true, BitVec.ofFin m, 0#5, BitVec.ofFin a, BitVec.ofFin d⟩)
  | .vexpand d a m => some (1, 6, ⟨true, BitVec.ofFin m, 0#5, BitVec.ofFin a, BitVec.ofFin d⟩)
  | .viota d m => some (1, 7, ⟨true, BitVec.ofFin m, 0#5, 0#5, BitVec.ofFin d⟩)
  | .vredt d a op m => some (1, 8, ⟨m.isSome, ofMask m, ofRedOp op, BitVec.ofFin a, BitVec.ofFin d⟩)
  | .vredo d a op m => some (1, 9, ⟨m.isSome, ofMask m, ofRedOp op, BitVec.ofFin a, BitVec.ofFin d⟩)
  | .vscan d a op ex m => some (1, 10, ⟨m.isSome, ofMask m, ofScanOp op ex, BitVec.ofFin a, BitVec.ofFin d⟩)
  | .vpopc d a m => some (1, 11, ⟨m.isSome, ofMask m, 0#5, ofReg3 a, BitVec.ofFin d⟩)
  | .vmfirst d a m => some (1, 12, ⟨m.isSome, ofMask m, 0#5, ofReg3 a, BitVec.ofFin d⟩)
  | .vmkeepn d a b => some (1, 13, ⟨false, 0#3, BitVec.ofFin b, ofReg3 a, ofReg3 d⟩)
  | .vmlogic d a b t => some (1, 14, ⟨t.getLsbD 0, t.extractLsb' 1 3, ofReg3 b, ofReg3 a, ofReg3 d⟩)
  | .vmovx d a b => some (1, 15, ⟨false, 0#3, BitVec.ofFin b, BitVec.ofFin a, BitVec.ofFin d⟩)
  | .vxmov d a b => some (1, 16, ⟨false, 0#3, BitVec.ofFin b, BitVec.ofFin a, BitVec.ofFin d⟩)
  | .vordkey d a m => some (1, 17, ⟨m.isSome, ofMask m, 0#5, BitVec.ofFin a, BitVec.ofFin d⟩)
  | .vzip d a b => some (1, 18, ⟨false, 0#3, BitVec.ofFin b, BitVec.ofFin a, BitVec.ofFin d⟩)
  | .vunzip d a odd => some (1, 19, ⟨false, 0#3, ofFlag odd, BitVec.ofFin a, BitVec.ofFin d⟩)
  | .vsortg d a g mods => some (1, 20, ⟨mods.payload, ofRunMods mods, ofReg3 g, BitVec.ofFin a, BitVec.ofFin d⟩)
  | .vassert d uq gr mods => some (1, 21, ⟨mods.payload, ofRunMods mods, BitVec.ofFin gr, ofFlag uq, BitVec.ofFin d⟩)
  | .vmergeg d a => some (1, 22, ⟨false, 0#3, 0#5, BitVec.ofFin a, BitVec.ofFin d⟩)
  | .vmerge2 d a b => some (1, 23, ⟨false, 0#3, BitVec.ofFin b, BitVec.ofFin a, BitVec.ofFin d⟩)
  | .vmergeh d a b cnt => some (1, 24, ⟨false, BitVec.ofFin cnt, BitVec.ofFin b, BitVec.ofFin a, BitVec.ofFin d⟩)
  | .visect d a b cnt => some (1, 25, ⟨false, BitVec.ofFin cnt, BitVec.ofFin b, BitVec.ofFin a, BitVec.ofFin d⟩)
  | .vdiffk d a b cnt => some (1, 26, ⟨false, BitVec.ofFin cnt, BitVec.ofFin b, BitVec.ofFin a, BitVec.ofFin d⟩)
  | .vuniq d a cnt => some (1, 27, ⟨false, BitVec.ofFin cnt, 0#5, BitVec.ofFin a, BitVec.ofFin d⟩)
  | .vrank d a b le => some (1, 28, ⟨le, 0#3, BitVec.ofFin b, BitVec.ofFin a, BitVec.ofFin d⟩)
  | .vpart d a b => some (1, 29, ⟨false, 0#3, BitVec.ofFin b, BitVec.ofFin a, BitVec.ofFin d⟩)
  | .vlocate d a b => some (1, 30, ⟨false, 0#3, BitVec.ofFin b, BitVec.ofFin a, BitVec.ofFin d⟩)
  | .vrtagc d => some (1, 31, ⟨false, 0#3, 0#5, 0#5, BitVec.ofFin d⟩)
  | .vixins d a b m => some (1, 32, ⟨m.isSome, ofMask m, BitVec.ofFin b, BitVec.ofFin a, ofReg3 d⟩)
  | .vixlkp d a b m => some (1, 33, ⟨m.isSome, ofMask m, ofReg3 b, BitVec.ofFin a, BitVec.ofFin d⟩)
  | .vixacc d a b op => some (1, 34, ⟨ofIxOpLow op, ofIxOp op, BitVec.ofFin b, BitVec.ofFin a, ofReg3 d⟩)
  | .vixdump d a cnt => some (1, 35, ⟨false, BitVec.ofFin cnt, 0#5, BitVec.ofFin a, BitVec.ofFin d⟩)
  | .vixclr => some (1, 36, ⟨false, 0#3, 0#5, 0#5, 0#5⟩)
  | .matt rows => some (2, 0, ⟨false, 0#3, BitVec.ofFin rows, 0#5, 0#5⟩)
  | .mdet => some (2, 1, ⟨false, 0#3, 0#5, 0#5, 0#5⟩)
  | .mshape a => some (2, 2, ⟨false, 0#3, 0#5, BitVec.ofFin a, 0#5⟩)
  | .mlds d a b t => some (2, 3, ⟨t, 0#3, BitVec.ofFin b, BitVec.ofFin a, ofReg4 d⟩)
  | .mldsv d a t => some (2, 4, ⟨t, 0#3, 0#5, BitVec.ofFin a, ofReg4 d⟩)
  | .mswap => some (2, 5, ⟨false, 0#3, 0#5, 0#5, 0#5⟩)
  | .mmul d a b => some (2, 6, ⟨false, 0#3, ofReg4 b, BitVec.ofFin a, ofReg2 d⟩)
  | .mmuls d a b => some (2, 7, ⟨false, 0#3, ofReg4 b, BitVec.ofFin a, ofReg2 d⟩)
  | .mrd d a b rm sat => some (2, 8, ⟨sat, ofRm rm, BitVec.ofFin b, ofReg2 a, BitVec.ofFin d⟩)
  | .mrdq d a b k => some (2, 9, ⟨kLow k, kHigh k, BitVec.ofFin b, ofReg2 a, BitVec.ofFin d⟩)
  | .mzero d => some (2, 10, ⟨false, 0#3, 0#5, 0#5, ofReg2 d⟩)
  | .mwait => some (2, 11, ⟨false, 0#3, 0#5, 0#5, 0#5⟩)
  | .vfb a => some (2, 12, ⟨false, 0#3, 0#5, BitVec.ofFin a, 0#5⟩)
  | .vfbm a m => some (2, 13, ⟨true, BitVec.ofFin m, 0#5, BitVec.ofFin a, 0#5⟩)
  | .vbconst d a => some (2, 14, ⟨false, 0#3, 0#5, BitVec.ofFin a, ofReg4 d⟩)
  | .vdrain scope micro => some (2, 15, ⟨false, 0#3, ofDrainMods scope micro, 0#5, 0#5⟩)
  | .vresume g all => some (2, 16, ⟨false, 0#3, ofResumeMods g all, 0#5, 0#5⟩)
  | .vkill => some (2, 17, ⟨false, 0#3, 0#5, 0#5, 0#5⟩)
  | .vupd d a b op masked => some (2, 18, ⟨masked, ofUpdOp op, BitVec.ofFin b, BitVec.ofFin a, BitVec.ofFin d⟩)
  | .vamo d a b op remote => some (2, 19, ⟨remote, ofUpdOp op, BitVec.ofFin b, BitVec.ofFin a, BitVec.ofFin d⟩)
  | .vsetl d a b => some (3, 0, ⟨false, 0#3, BitVec.ofFin b, BitVec.ofFin a, BitVec.ofFin d⟩)
  | .vsetli d a imm => some (3, 1, ⟨imm.getLsbD 0, imm.extractLsb' 1 3, imm.extractLsb' 4 5, BitVec.ofFin a, BitVec.ofFin d⟩)
  | .vsetsh d a b => some (3, 2, ⟨false, 0#3, BitVec.ofFin b, BitVec.ofFin a, BitVec.ofFin d⟩)
  | .vsetlq d a b => some (3, 3, ⟨false, 0#3, BitVec.ofFin b, BitVec.ofFin a, BitVec.ofFin d⟩)
  | .sqdecl d a => some (3, 4, ⟨false, 0#3, 0#5, BitVec.ofFin a, BitVec.ofFin d⟩)
  | .sqend a => some (3, 5, ⟨false, 0#3, 0#5, BitVec.ofFin a, 0#5⟩)
  | .barinit a b => some (3, 6, ⟨false, 0#3, BitVec.ofFin b, BitVec.ofFin a, 0#5⟩)
  | .barrive a scope => some (3, 7, ⟨false, 0#3, ofScope scope, BitVec.ofFin a, 0#5⟩)
  | .barwait a => some (3, 8, ⟨false, 0#3, 0#5, BitVec.ofFin a, 0#5⟩)
  | .bartest d a => some (3, 9, ⟨false, 0#3, 0#5, BitVec.ofFin a, BitVec.ofFin d⟩)
  | .ldfe d a c => some (3, 10, ⟨c, 0#3, 0#5, BitVec.ofFin a, BitVec.ofFin d⟩)
  | .stfe a b => some (3, 11, ⟨false, 0#3, BitVec.ofFin b, BitVec.ofFin a, 0#5⟩)
  | .launch d a b => some (3, 12, ⟨false, 0#3, BitVec.ofFin b, BitVec.ofFin a, BitVec.ofFin d⟩)
  | .lstat d a => some (3, 13, ⟨false, 0#3, 0#5, BitVec.ofFin a, BitVec.ofFin d⟩)
  | .svcall a => some (3, 14, ⟨false, 0#3, 0#5, BitVec.ofFin a, 0#5⟩)
  | .tcinv a b => some (3, 15, ⟨false, 0#3, BitVec.ofFin b, BitVec.ofFin a, 0#5⟩)
  | .vctxsave a port => some (3, 16, ⟨port, 0#3, 0#5, BitVec.ofFin a, 0#5⟩)
  | .vctxrst a port => some (3, 17, ⟨port, 0#3, 0#5, BitVec.ofFin a, 0#5⟩)
  | .lanepart a => some (3, 18, ⟨false, 0#3, 0#5, BitVec.ofFin a, 0#5⟩)
  | .hexit => some (3, 19, ⟨false, 0#3, 0#5, 0#5, 0#5⟩)
  | .hyield => some (3, 20, ⟨false, 0#3, 0#5, 0#5, 0#5⟩)
  | _ => none

/-- The major opcodes of the four custom spaces (R71). -/
def customOpcode : Nat → BitVec 7
  | 0 => 0b0001011#7
  | 1 => 0b0101011#7
  | 2 => 0b1011011#7
  | _ => 0b1111011#7

/-- The OVIS instruction of a major opcode number, a funct6 and the fields (R73). -/
def decodeOvis (major funct6 : Nat) (o : OvisFields) : Option Instr :=
  match major with
  | 0 => decodeCustom0 funct6 o
  | 1 => decodeCustom1 funct6 o
  | 2 => decodeCustom2 funct6 o
  | _ => decodeCustom3 funct6 o

/-- The OVIS fields of a word's fields (R71). -/
def WordFields.ovis (f : WordFields) : OvisFields := ⟨f.f7.getLsbD 3, f.f7.extractLsb' 0 3, f.b, f.a, f.d⟩

/-- funct6 of a word's fields: f3hi:f3lo (R71). -/
def WordFields.funct6 (f : WordFields) : Nat := f.f7.toNat / 16 * 8 + f.f3.toNat

/-- The fields of an OVIS word (R71). -/
def ovisWord (major funct6 : Nat) (o : OvisFields) : WordFields :=
  ⟨BitVec.ofNat 3 (funct6 / 8) ++ BitVec.ofBool o.me ++ o.mr, o.b, o.a, BitVec.ofNat 3 funct6, o.d, customOpcode major⟩

/-! ## CSR instructions (R60, R61) -/

/-- The CSR operation of a funct3. -/
def csrOp (f3 : Nat) : Option (CsrOp × Bool) :=
  match f3 with
  | 1 => some (.rw, false) | 2 => some (.rs, false) | 3 => some (.rc, false)
  | 5 => some (.rw, true) | 6 => some (.rs, true) | 7 => some (.rc, true)
  | _ => none

/-- The funct3 of a CSR instruction. -/
def CsrArgs.funct3 (a : CsrArgs) : BitVec 3 :=
  match a.op, a.src with
  | .rw, .reg _ => 1#3 | .rs, .reg _ => 2#3 | .rc, .reg _ => 3#3
  | .rw, .imm _ => 5#3 | .rs, .imm _ => 6#3 | .rc, .imm _ => 7#3

/-- The fields of a CSR instruction. -/
def CsrArgs.fields (a : CsrArgs) : WordFields :=
  ⟨a.addr.extractLsb' 5 7, a.addr.extractLsb' 0 5,
    match a.src with | .reg r => BitVec.ofFin r | .imm z => z, a.funct3, BitVec.ofFin a.rd, 0b1110011#7⟩

/-! ## The standard instructions (R68) -/

/-- A 12-bit immediate split over f7 and b. -/
def WordFields.immI (f : WordFields) : BitVec 12 := f.f7 ++ f.b
/-- A 12-bit immediate split over f7 and d. -/
def WordFields.immS (f : WordFields) : BitVec 12 := f.f7 ++ f.d
/-- A branch offset in units of 2 bytes: bits 12, 11, 10:5 and 4:1 of the offset. -/
def WordFields.immB (f : WordFields) : BitVec 12 :=
  BitVec.ofBool (f.f7.getLsbD 6) ++ BitVec.ofBool (f.d.getLsbD 0) ++ f.f7.extractLsb' 0 6 ++ f.d.extractLsb' 1 4
/-- A 20-bit upper immediate. -/
def WordFields.immU (f : WordFields) : BitVec 20 := f.f7 ++ f.b ++ f.a ++ f.f3
/-- A jump offset in units of 2 bytes: bits 20, 19:12, 11 and 10:1 of the offset. -/
def WordFields.immJ (f : WordFields) : BitVec 20 :=
  let u := f.immU
  BitVec.ofBool (u.getLsbD 19) ++ u.extractLsb' 0 8 ++ BitVec.ofBool (u.getLsbD 8) ++ u.extractLsb' 9 10

/-- The upper-immediate layout of a jump offset. -/
def jumpImm (off : BitVec 20) : BitVec 20 :=
  BitVec.ofBool (off.getLsbD 19) ++ off.extractLsb' 0 10 ++ BitVec.ofBool (off.getLsbD 10) ++ off.extractLsb' 11 8

/-- The fields of an instruction with an upper immediate. -/
def fieldsU (imm : BitVec 20) (d : XReg) (op : BitVec 7) : WordFields :=
  ⟨imm.extractLsb' 13 7, imm.extractLsb' 8 5, imm.extractLsb' 3 5, imm.extractLsb' 0 3, BitVec.ofFin d, op⟩

/-- The fields of an instruction with a 12-bit immediate. -/
def fieldsI (imm : BitVec 12) (a : XReg) (f3 : BitVec 3) (d : XReg) (op : BitVec 7) : WordFields :=
  ⟨imm.extractLsb' 5 7, imm.extractLsb' 0 5, BitVec.ofFin a, f3, BitVec.ofFin d, op⟩

/-- The branch condition of a funct3. -/
def BrCond.ofCode : Nat → Option BrCond
  | 0 => some .eq | 1 => some .ne | 4 => some .lt | 5 => some .ge | 6 => some .ltu | 7 => some .geu
  | _ => none
/-- The funct3 of a branch condition. -/
def BrCond.code : BrCond → BitVec 3
  | .eq => 0#3 | .ne => 1#3 | .lt => 4#3 | .ge => 5#3 | .ltu => 6#3 | .geu => 7#3
/-- The load width of a funct3. -/
def LoadW.ofCode : Nat → Option LoadW
  | 0 => some .b | 1 => some .h | 2 => some .w | 3 => some .d | 4 => some .bu | 5 => some .hu | 6 => some .wu
  | _ => none
/-- The funct3 of a load width. -/
def LoadW.code : LoadW → BitVec 3
  | .b => 0#3 | .h => 1#3 | .w => 2#3 | .d => 3#3 | .bu => 4#3 | .hu => 5#3 | .wu => 6#3
/-- The store width of a funct3. -/
def StoreW.ofCode : Nat → Option StoreW
  | 0 => some .b | 1 => some .h | 2 => some .w | 3 => some .d
  | _ => none
/-- The funct3 of a store width. -/
def StoreW.code : StoreW → BitVec 3
  | .b => 0#3 | .h => 1#3 | .w => 2#3 | .d => 3#3

/-- The 64-bit register operation of funct7 and funct3. -/
def AluOp.ofCode : Nat → Nat → Option AluOp
  | 0, 0 => some .add | 32, 0 => some .sub | 0, 1 => some .sll | 0, 2 => some .slt | 0, 3 => some .sltu
  | 0, 4 => some .xor | 0, 5 => some .srl | 32, 5 => some .sra | 0, 6 => some .or | 0, 7 => some .and
  | 1, 0 => some .mul | 1, 1 => some .mulh | 1, 2 => some .mulhsu | 1, 3 => some .mulhu
  | 1, 4 => some .div | 1, 5 => some .divu | 1, 6 => some .rem | 1, 7 => some .remu
  | 7, 5 => some .czeroEqz | 7, 7 => some .czeroNez
  | _, _ => none
/-- The 32-bit register operation of funct7 and funct3. -/
def AluOp.ofCodeW : Nat → Nat → Option AluOp
  | 0, 0 => some .addw | 32, 0 => some .subw | 0, 1 => some .sllw | 0, 5 => some .srlw | 32, 5 => some .sraw
  | 1, 0 => some .mulw | 1, 4 => some .divw | 1, 5 => some .divuw | 1, 6 => some .remw | 1, 7 => some .remuw
  | _, _ => none
/-- funct7, funct3 and opcode of a register operation. -/
def AluOp.code : AluOp → BitVec 7 × BitVec 3 × BitVec 7
  | .add => (0#7, 0#3, 0x33#7) | .sub => (32#7, 0#3, 0x33#7) | .sll => (0#7, 1#3, 0x33#7) | .slt => (0#7, 2#3, 0x33#7)
  | .sltu => (0#7, 3#3, 0x33#7) | .xor => (0#7, 4#3, 0x33#7) | .srl => (0#7, 5#3, 0x33#7) | .sra => (32#7, 5#3, 0x33#7)
  | .or => (0#7, 6#3, 0x33#7) | .and => (0#7, 7#3, 0x33#7)
  | .mul => (1#7, 0#3, 0x33#7) | .mulh => (1#7, 1#3, 0x33#7) | .mulhsu => (1#7, 2#3, 0x33#7)
  | .mulhu => (1#7, 3#3, 0x33#7) | .div => (1#7, 4#3, 0x33#7) | .divu => (1#7, 5#3, 0x33#7)
  | .rem => (1#7, 6#3, 0x33#7) | .remu => (1#7, 7#3, 0x33#7)
  | .czeroEqz => (7#7, 5#3, 0x33#7) | .czeroNez => (7#7, 7#3, 0x33#7)
  | .addw => (0#7, 0#3, 0x3B#7) | .subw => (32#7, 0#3, 0x3B#7) | .sllw => (0#7, 1#3, 0x3B#7)
  | .srlw => (0#7, 5#3, 0x3B#7) | .sraw => (32#7, 5#3, 0x3B#7) | .mulw => (1#7, 0#3, 0x3B#7)
  | .divw => (1#7, 4#3, 0x3B#7) | .divuw => (1#7, 5#3, 0x3B#7) | .remw => (1#7, 6#3, 0x3B#7)
  | .remuw => (1#7, 7#3, 0x3B#7)

/-- The AMO operation of a funct5. -/
def AmoOp.ofCode : Nat → Option AmoOp
  | 0 => some .add | 1 => some .swap | 4 => some .xor | 8 => some .or | 12 => some .and
  | 16 => some .min | 20 => some .max | 24 => some .minu | 28 => some .maxu
  | _ => none
/-- The funct5 of an AMO operation. -/
def AmoOp.code : AmoOp → BitVec 5
  | .add => 0#5 | .swap => 1#5 | .xor => 4#5 | .or => 8#5 | .and => 12#5
  | .min => 16#5 | .max => 20#5 | .minu => 24#5 | .maxu => 28#5

/-- The instructions of the opcodes OP-IMM and OP-IMM-32. -/
def decodeImm (f : WordFields) : Option Instr :=
  let d := f.d.toFin
  let a := f.a.toFin
  if f.op = 0x13#7 then
    match f.f3.toNat with
    | 0 => some (.rv64 (.aluImm .addi d a f.immI))
    | 2 => some (.rv64 (.aluImm .slti d a f.immI))
    | 3 => some (.rv64 (.aluImm .sltiu d a f.immI))
    | 4 => some (.rv64 (.aluImm .xori d a f.immI))
    | 6 => some (.rv64 (.aluImm .ori d a f.immI))
    | 7 => some (.rv64 (.aluImm .andi d a f.immI))
    | 1 => if f.f7.extractLsb' 1 6 = 0#6 then some (.rv64 (.shift .slli d a (f.f7.extractLsb' 0 1 ++ f.b))) else none
    | _ => if f.f7.extractLsb' 1 6 = 0#6 then some (.rv64 (.shift .srli d a (f.f7.extractLsb' 0 1 ++ f.b)))
           else if f.f7.extractLsb' 1 6 = 16#6 then some (.rv64 (.shift .srai d a (f.f7.extractLsb' 0 1 ++ f.b))) else none
  else
    match f.f3.toNat with
    | 0 => some (.rv64 (.aluImm .addiw d a f.immI))
    | 1 => if f.f7 = 0#7 then some (.rv64 (.shiftw .slli d a f.b)) else none
    | 5 => if f.f7 = 0#7 then some (.rv64 (.shiftw .srli d a f.b))
           else if f.f7 = 32#7 then some (.rv64 (.shiftw .srai d a f.b)) else none
    | _ => none

/-- The instructions of the opcode AMO (R68, the A extension). -/
def decodeAmo (f : WordFields) : Option Instr :=
  if f.f3 = 2#3 ∨ f.f3 = 3#3 then
    let dbl := f.f3 == 3#3
    let aq := f.f7.getLsbD 1
    let rl := f.f7.getLsbD 0
    let f5 := f.f7.toNat / 4
    if f5 = 2 then if f.b = 0#5 then some (.rv64 (.lr dbl aq rl f.d.toFin f.a.toFin)) else none
    else if f5 = 3 then some (.rv64 (.sc dbl aq rl f.d.toFin f.a.toFin f.b.toFin))
    else (AmoOp.ofCode f5).map fun op => .rv64 (.amo op dbl aq rl f.d.toFin f.a.toFin f.b.toFin)
  else none

/-- The instructions of the opcode SYSTEM: the privileged ones, and Zicsr. -/
def decodeSystem (f : WordFields) : Option Instr :=
  if f.f3 = 0#3 then
    if f.f7 = 9#7 ∧ f.d = 0#5 then some (.sfenceVma f.a.toFin f.b.toFin)
    else if f.d = 0#5 ∧ f.a = 0#5 then
      match f.immI.toNat with
      | 0x000 => some (.rv64 .ecall)
      | 0x001 => some (.rv64 .ebreak)
      | 0x102 => some .sret
      | 0x302 => some (.rv64 .mret)
      | 0x105 => some (.rv64 .wfi)
      | _ => none
    else none
  else
    (csrOp f.f3.toNat).map fun p =>
      Instr.ofCsr ⟨p.1, f.d.toFin, if p.2 then .imm f.a else .reg f.a.toFin, f.immI⟩

/-- The instruction of a word's fields that belongs to no custom space: RV64I, M, A, Zicsr, Zifencei and Zicond, with the
privileged instructions; every other encoding is refused (R68, R69). -/
def decodeStandard (f : WordFields) : Option Instr :=
  match f.op.toNat with
  | 0x37 => some (.rv64 (.lui f.d.toFin f.immU))
  | 0x17 => some (.rv64 (.auipc f.d.toFin f.immU))
  | 0x6F => some (.rv64 (.jal f.d.toFin f.immJ))
  | 0x67 => if f.f3 = 0#3 then some (.rv64 (.jalr f.d.toFin f.a.toFin f.immI)) else none
  | 0x63 => (BrCond.ofCode f.f3.toNat).map fun c => .rv64 (.branch c f.a.toFin f.b.toFin f.immB)
  | 0x03 => (LoadW.ofCode f.f3.toNat).map fun width => .rv64 (.load width f.d.toFin f.a.toFin f.immI)
  | 0x23 => (StoreW.ofCode f.f3.toNat).map fun width => .rv64 (.store width f.a.toFin f.b.toFin f.immS)
  | 0x13 => decodeImm f
  | 0x1B => decodeImm f
  | 0x33 => (AluOp.ofCode f.f7.toNat f.f3.toNat).map fun op => .rv64 (.alu op f.d.toFin f.a.toFin f.b.toFin)
  | 0x3B => (AluOp.ofCodeW f.f7.toNat f.f3.toNat).map fun op => .rv64 (.alu op f.d.toFin f.a.toFin f.b.toFin)
  | 0x0F =>
    match f.f3.toNat with
    | 0 => some (.fence (f.f7.extractLsb' 3 4) (f.f7.extractLsb' 0 3 ++ f.b.extractLsb' 4 1) (f.b.extractLsb' 0 4)
              f.d.toFin f.a.toFin)
    | 1 => some (.fenceI f.immI f.d.toFin f.a.toFin)
    | _ => none
  | 0x2F => decodeAmo f
  | 0x73 => decodeSystem f
  | _ => none

/-- The fields of a standard instruction (R68). -/
def Rv.fields : Rv → WordFields
  | .lui d imm => fieldsU imm d 0x37#7
  | .auipc d imm => fieldsU imm d 0x17#7
  | .jal d off => fieldsU (jumpImm off) d 0x6F#7
  | .jalr d a imm => fieldsI imm a 0#3 d 0x67#7
  | .branch c a b off =>
      ⟨off.extractLsb' 11 1 ++ off.extractLsb' 4 6, BitVec.ofFin b, BitVec.ofFin a, c.code,
        off.extractLsb' 0 4 ++ off.extractLsb' 10 1, 0x63#7⟩
  | .load width d a imm => fieldsI imm a width.code d 0x03#7
  | .store width a b imm => ⟨imm.extractLsb' 5 7, BitVec.ofFin b, BitVec.ofFin a, width.code, imm.extractLsb' 0 5, 0x23#7⟩
  | .aluImm op d a imm =>
      let f3 : BitVec 3 := match op with
        | .addi | .addiw => 0#3 | .slti => 2#3 | .sltiu => 3#3 | .xori => 4#3 | .ori => 6#3 | .andi => 7#3
      fieldsI imm a f3 d (match op with | .addiw => 0x1B#7 | _ => 0x13#7)
  | .shift op d a sh =>
      ⟨(match op with | .srai => 16#6 | _ => 0#6) ++ sh.extractLsb' 5 1, sh.extractLsb' 0 5, BitVec.ofFin a,
        (match op with | .slli => 1#3 | _ => 5#3), BitVec.ofFin d, 0x13#7⟩
  | .shiftw op d a sh =>
      ⟨(match op with | .srai => 32#7 | _ => 0#7), sh, BitVec.ofFin a,
        (match op with | .slli => 1#3 | _ => 5#3), BitVec.ofFin d, 0x1B#7⟩
  | .alu op d a b => ⟨op.code.1, BitVec.ofFin b, BitVec.ofFin a, op.code.2.1, BitVec.ofFin d, op.code.2.2⟩
  | .lr dbl aq rl d a =>
      ⟨2#5 ++ BitVec.ofBool aq ++ BitVec.ofBool rl, 0#5, BitVec.ofFin a, if dbl then 3#3 else 2#3, BitVec.ofFin d, 0x2F#7⟩
  | .sc dbl aq rl d a b =>
      ⟨3#5 ++ BitVec.ofBool aq ++ BitVec.ofBool rl, BitVec.ofFin b, BitVec.ofFin a, if dbl then 3#3 else 2#3,
        BitVec.ofFin d, 0x2F#7⟩
  | .amo op dbl aq rl d a b =>
      ⟨op.code ++ BitVec.ofBool aq ++ BitVec.ofBool rl, BitVec.ofFin b, BitVec.ofFin a, if dbl then 3#3 else 2#3,
        BitVec.ofFin d, 0x2F#7⟩
  | .csr a => a.fields
  | .ecall => ⟨0#7, 0#5, 0#5, 0#3, 0#5, 0x73#7⟩
  | .ebreak => ⟨0#7, 1#5, 0#5, 0#3, 0#5, 0x73#7⟩
  | .mret => ⟨0x18#7, 2#5, 0#5, 0#3, 0#5, 0x73#7⟩
  | .wfi => ⟨8#7, 5#5, 0#5, 0#3, 0#5, 0x73#7⟩

/-! ## A control-stream word -/

/-- The instruction of a word's fields, before the checks of `Instr.wf` (R69, R73). -/
def decodeFields (f : WordFields) : Option Instr :=
  match f.op.toNat with
  | 0x0B => decodeCustom0 f.funct6 f.ovis
  | 0x2B => decodeCustom1 f.funct6 f.ovis
  | 0x5B => decodeCustom2 f.funct6 f.ovis
  | 0x7B => decodeCustom3 f.funct6 f.ovis
  | _ => decodeStandard f

/-- Decoding of a control-stream word: none is the illegal-instruction exception (R69, R72, R73). -/
def decodeControl (w : BitVec 32) : Option Instr :=
  (decodeFields (unpack w)).bind fun i => if i.wf then some i else none

/-- The fields of a control-stream instruction; none for block instructions and events. -/
def controlFields (i : Instr) : Option WordFields :=
  match i with
  | .rv64 r => some r.fields
  | .fence fm p s d a => some ⟨fm ++ p.extractLsb' 1 3, p.extractLsb' 0 1 ++ s, BitVec.ofFin a, 0#3, BitVec.ofFin d, 0x0F#7⟩
  | .fenceI imm d a => some (fieldsI imm a 1#3 d 0x0F#7)
  | .sfenceVma a b => some ⟨9#7, BitVec.ofFin b, BitVec.ofFin a, 0#3, 0#5, 0x73#7⟩
  | .sret => some ⟨8#7, 2#5, 0#5, 0#3, 0#5, 0x73#7⟩
  | .vectorCsrAccess a => some a.fields
  | .vseedWrite a => some a.fields
  | .mshapeMirrorWrite a => some a.fields
  | .registerWrite a => some a.fields
  | i => (encodeOvis i).map fun p => ovisWord p.1 p.2.1 p.2.2

/-- The control-stream word of an instruction (R71); none for block instructions and events. -/
def encodeControl (i : Instr) : Option (BitVec 32) := (controlFields i).map pack

/-! ## Block words (R82 to R88) -/

/-- What decoding finds at the head of a list of block words: an instruction and the number of words it takes with its
prefixes, or the index of the lowest faulty word (R87, R89). -/
inductive BlockDecoding where
  | ok (i : Instr) (words : Nat)
  | faulty (index : Nat)
  deriving DecidableEq, Repr

/-- The operation field of a block word (R82). -/
def blockOpField (w : Word) : Nat := (w.extractLsb' 0 8).toNat

/-- The source of a 6-bit specifier (R83); none for the reserved values. -/
def Src.ofCode (x : BitVec 6) : Option Src :=
  if h : x.toNat < 32 then some (.e ⟨x.toNat, h⟩)
  else if h : x.toNat < 48 then some (.b ⟨x.toNat - 32, by omega⟩)
  else match x.toNat with
    | 48 => some .eid
    | 49 => some .vl
    | 50 => some .zero
    | _ => none

/-- The 6-bit specifier of a source (R83). -/
def Src.code : Src → BitVec 6
  | .e n => BitVec.ofNat 6 n.val
  | .b n => BitVec.ofNat 6 (32 + n.val)
  | .eid => 48#6
  | .vl => 49#6
  | .zero => 50#6

/-- The prefix word XPF (R86): must-be-zero bits, a valid bit of c, and a format field without its valid bit are faulty. -/
def decodeXpf (w : Word) : Option Xpf :=
  let field (valid : Bool) (code : BitVec 6) : Option (Option Fmt) :=
    if valid then (Fmt.ofCode code.toNat).map some else if code = 0#6 then some none else none
  if w.extractLsb' 28 36 = 0#36 ∧ w.extractLsb' 20 6 = 0#6 then
    (field (w.getLsbD 26) (w.extractLsb' 8 6)).bind fun a =>
      (field (w.getLsbD 27) (w.extractLsb' 14 6)).bind fun b => some ⟨a, b⟩
  else none

/-- The word of an XPF prefix (R86). -/
def encodeXpf (p : Xpf) : Word :=
  let code (f : Option Fmt) : BitVec 6 := BitVec.ofNat 6 ((f.map Fmt.code).getD 0)
  0#36 ++ BitVec.ofBool p.bf.isSome ++ BitVec.ofBool p.af.isSome ++ 0#6 ++ code p.bf ++ code p.af ++ 0xFE#8

/-- The prefix word XPI (R86): its upper immediate; bits [63:56] must be 0. -/
def decodeXpi (w : Word) : Option (BitVec 48) := if w.extractLsb' 56 8 = 0#8 then some (w.extractLsb' 8 48) else none

/-- The word of an XPI prefix (R86). -/
def encodeXpi (p : BitVec 48) : Word := 0#8 ++ p ++ 0xFF#8

/-- The fields of one block word with the prefixes before it (R82, R84): a reserved format code, a reserved or illegal
specifier, rm = 6, and qp, qn or xq without their enable bits are faulty. -/
def decodeBlockArgs (w : Word) (xpf : Option Xpf) (xpi : Option (BitVec 48)) : Option BlockArgs :=
  (reg5 (w.extractLsb' 8 6)).bind fun d =>
  (Src.ofCode (w.extractLsb' 14 6)).bind fun a =>
  (Src.ofCode (w.extractLsb' 20 6)).bind fun b =>
  (Src.ofCode (w.extractLsb' 26 6)).bind fun c =>
  (predField (w.getLsbD 36) (w.getLsbD 35) (w.extractLsb' 32 3)).bind fun pred =>
  (Fmt.ofCode (w.extractLsb' 37 6).toNat).bind fun fmt =>
  (rmField (w.extractLsb' 43 3)).bind fun rm =>
  (maskField (w.getLsbD 47) (w.extractLsb' 48 3)).bind fun x =>
  some ⟨d, a, b, c, fmt, rm, w.getLsbD 46, x, pred, w.extractLsb' 51 13, xpf, xpi⟩
where
  /-- A destination specifier (R83): it must be 0 to 31. -/
  reg5 (x : BitVec 6) : Option (Fin 32) := if h : x.toNat < 32 then some ⟨x.toNat, h⟩ else none
  /-- Predication (R84): with qe = 0, qp and qn must be 0. -/
  predField (qe qn : Bool) (qp : BitVec 3) : Option (Option (Bool × MName)) :=
    if qe then some (some (qn, qp.toFin)) else if qn = false ∧ qp = 0#3 then some none else none

/-- The word of an instruction's own fields (R82). -/
def encodeBlockWord (op : BlockOp) (f : BlockArgs) : Word :=
  f.fn13 ++ ofMask f.x ++ BitVec.ofBool f.x.isSome ++ BitVec.ofBool f.sat ++ ofRm f.rm ++ BitVec.ofNat 6 f.fmt.code ++
  BitVec.ofBool f.pred.isSome ++ BitVec.ofBool ((f.pred.map Prod.fst).getD false) ++ ofMask (f.pred.map Prod.snd) ++
  f.c.code ++ f.b.code ++ f.a.code ++ BitVec.ofNat 6 f.d.val ++ BitVec.ofNat 8 op.code

/-- The instruction of one word after its prefixes, `before` words of them (R87): a reserved operation, an operation that may
not take its prefixes and a prefix format that is not accepted are faulty at the first prefix; a fault of the
instruction's own fields at its own word. -/
def decodeBlockOp (w : Word) (xpf : Option Xpf) (xpi : Option (BitVec 48)) (before : Nat) : BlockDecoding :=
  match BlockOp.ofCode (blockOpField w) with
  | none => .faulty 0
  | some op =>
    if (xpf.isSome && !op.takesXpf) || (xpi.isSome && !op.takesXpi) then .faulty 0
    else if !overridesOk op w xpf then .faulty 0
    else match decodeBlockArgs w xpf xpi with
      | none => .faulty before
      | some f => if f.formOk op then .ok (Instr.ofBlock op f) (before + 1) else .faulty before
where
  /-- The override formats are ones the operation accepts beside the format its word names; where that is reserved, which is a fault of
  the instruction's own word, beside some format. -/
  overridesOk (op : BlockOp) (w : Word) (xpf : Option Xpf) : Bool :=
    match xpf with
    | none => true
    | some p =>
      let accepts (f : Fmt) : Bool := p.af.all (op.overrideA f ·) && p.bf.all (op.overrideB f ·)
      match Fmt.ofCode (w.extractLsb' 37 6).toNat with
      | none => (List.range 64).any fun c => ((Fmt.ofCode c).map accepts).getD false
      | some f => accepts f

/-- The instruction at the head of a list of block words, with its prefixes (R86 to R88). No word left is the missing
terminator. -/
def decodeBlock (words : List Word) : BlockDecoding :=
  match words with
  | [] => .faulty 0
  | w :: rest =>
    if blockOpField w = 0xFE then
      match decodeXpf w, rest with
      | none, _ => .faulty 0
      | some _, [] => .faulty 0
      | some p, w' :: _ => decodeBlockOp w' (some p) none 1
    else if blockOpField w = 0xFF then
      match decodeXpi w, rest with
      | none, _ => .faulty 0
      | some _, [] => .faulty 0
      | some p, w' :: _ => decodeBlockOp w' none (some p) 1
    else decodeBlockOp w none none 0

/-- The words of a block instruction with its prefixes (R82, R86); none for every other instruction. -/
def encodeBlock (i : Instr) : Option (List Word) :=
  i.block?.map fun p =>
    (p.2.xpf.toList.map encodeXpf) ++ (p.2.xpi.toList.map encodeXpi) ++ [encodeBlockWord p.1 p.2]

/-! ## Bytes -/

/-- The low bytes of a number, least significant first: control words, block words and data are little-endian. -/
def bytesOf : Nat → Nat → List Byte
  | 0, _ => []
  | n + 1, v => BitVec.ofNat 8 v :: bytesOf n (v / 256)

/-- The number of a list of bytes, least significant first. -/
def numOf : List Byte → Nat
  | [] => 0
  | b :: bs => b.toNat + 256 * numOf bs

/-- The bytes of an instruction as memory holds them; no bytes for an event. -/
def encode (i : Instr) : List Byte :=
  match encodeControl i with
  | some w => bytesOf 4 w.toNat
  | none => match encodeBlock i with
    | some ws => ws.flatMap fun w => bytesOf 8 w.toNat
    | none => []

/-- Decoding of the bytes at a control-thread program counter: the first four of them. -/
def decode (bytes : List Byte) : Option Instr :=
  if bytes.length < 4 then none else decodeControl (BitVec.ofNat 32 (numOf (bytes.take 4)))

/-- The 64-bit words of a number, lowest first. -/
def wordsOf : Nat → Nat → List Word
  | 0, _ => []
  | n + 1, v => BitVec.ofNat 64 v :: wordsOf n (v / 18446744073709551616)

/-- The instruction whose bits are `w` as the opcode table numbers them: a control word of up to 32 bits, or the words of a
block instruction. -/
def decodeTableWord (nbits w : Nat) : Option Instr :=
  if nbits ≤ 32 then decode (bytesOf 4 (w % 2 ^ nbits))
  else
    let words := wordsOf ((nbits + 63) / 64) (w % 2 ^ nbits)
    match decodeBlock words with
    | .ok i n => if n = words.length then some i else none
    | .faulty _ => none

end Sys2Proof
end

