-- ==== Sys2Proof/Config.lean ====
section
/-!
DEFINITION. What the spec leaves open: free values, constants without a body, so that nothing can be proved of what they are.
-/

namespace Sys2Proof

/-- The 16-bit integers that the lane generators supply for stochastic rounding (R30), by the number of the draw: the spec
leaves the sequence open (notes/assumptions/9.md). -/
opaque Config.srDraw : Nat → BitVec 16

/-- A choice that the spec leaves open, by the number of the choice: whether an element at or above a trim or a fault was
performed (R131, R150), whether a discarded response's write took effect (R380) (notes/assumptions/10.md). -/
opaque Config.freeChoice : Nat → Bool

/-- A byte that the spec leaves undefined, by the number of the draw: the bytes of an overlap through two mappings (R145;
notes/assumptions/10.md). -/
opaque Config.freeByte : Nat → Byte

/-- The queue field of the ticket that a remote LAUNCH returns, by the number of the draw (R372 says only that the ticket is not 0
and reads STATE 0; notes/assumptions/17.md). -/
opaque Config.remoteTicket : Nat → Fin 63

/-- SHA3-512 (FIPS 202), which R389 and R390 name and the spec does not define (notes/assumptions/18.md). -/
opaque Config.sha3 : List Byte → BitVec 512

/-- Verification of an ML-DSA-87 signature over a digest with the fused Caerron key (R389, FIPS 204). -/
opaque Config.mldsaVerify : BitVec 512 → Nat → Bool

/-- An ML-DSA-87 signature by the package's identity key over a digest (R390): 4,627 bytes. -/
opaque Config.mldsaSign : BitVec 512 → Vector Byte 4627

/-- The security version number fused for a firmware image's type (R389). -/
opaque Config.fusedVersion : Function → Nat

/-- Where the IOMMU sends an access of an endpoint, by its address and by main memory, which holds the tables (R365 names the RISC-V IOMMU specification and states nothing of it; notes/assumptions/44.md). -/
opaque Config.iommu : Endpoint → Nat → List (Nat × Byte) → DmaTarget

/-- The LPDDR row that holds a physical address (R385 counts errors per row and no rule places the rows; notes/assumptions/43.md). -/
opaque Config.rowOf : Nat → Nat

/-- The bank that holds a physical address within a TCM, a die SRAM or an LPDDR channel (R386 counts errors per bank, and only the banks of a
scratchpad are placed, by R275; notes/assumptions/43.md). -/
opaque Config.bankOf : Nat → Fin 256

/-- The seconds that the dies and rails have spent in bins of the histograms since the lifetime records were last written, by the number
of the draw: sensors outside the model measure them (R386, notes/assumptions/43.md). -/
opaque Config.binSeconds : Nat → List (Bin × Nat)

/-- The address at which an application core begins (no rule states it; notes/assumptions/20.md). -/
opaque Config.appBoot : Fin 16 → BitVec 64

end Sys2Proof
end

