-- ==== Sys2Proof/Machine/State.lean ====
section
/-!
DEFINITION. The state of the package (INVENTORY.md, State): every piece of state the spec gives the machine, as plain data, the
reasons a step can stop, and the state after reset.
-/

namespace Sys2Proof.Machine

/-! ## Reasons to stop -/

/-- Why the machine stops with a fault. -/
inductive Fault where
  /-- A block instruction is executed where no micro-thread stands at one: `exec` of a block operation raises it when the
  step has put no micro-thread at the cursor `mt`. The step never does that, so no run reaches it. Safe: the model stops. -/
  | noMicroThread
  deriving DecidableEq, Repr

/-- Why the machine refuses to go on. -/
inductive Refusal where
  /-- An instruction that has no meaning in this model yet, by its mnemonic; `exec` raises it. Safe: the model stops. -/
  | notModelled (mnemonic : String)
  /-- An access to the configuration space or the memory window of a PCIe root port (R364): the spec does not say what the
  device behind it does. Raised by scalar, vector, element and copy accesses. Safe: the model stops. -/
  | pcieDevice (address : Nat)
  /-- An instruction of RVA23 outside RV64IMA, Zicsr, Zifencei and Zicond, on an application core (R70): the spec does not
  define it. Raised by the step. Safe: the model stops. -/
  | applicationCore (word : BitVec 32)
  deriving DecidableEq, Repr

/-! ## The control thread -/

/-- The privilege modes (R68). -/
inductive Mode where
  | u | s | m
  deriving DecidableEq, Repr

/-- The standard control and status registers of a hart (R43, R68), and the B7's supervisor CSRs that hold state (R65, R335,
R336). `slanepart` and `spowerbudget` belong to the core. -/
structure Csrs where
  mstatus : Word
  medeleg : Word
  mideleg : Word
  mie : Word
  mip : Word
  mtvec : Word
  mscratch : Word
  mepc : Word
  mcause : Word
  mtval : Word
  mcounteren : Word
  mcountinhibit : Word
  menvcfg : Word
  mcycle : Word
  minstret : Word
  stvec : Word
  sscratch : Word
  sepc : Word
  scause : Word
  stval : Word
  satp : Word
  scounteren : Word
  senvcfg : Word
  svtrap0 : Word
  svtrap1 : Word
  svtrap2 : Word
  svtrap3 : Word
  sctxbase : Word
  swindow : BitVec 5
  deriving DecidableEq, Repr

/-- A control region that Isobar has read (R317): the program counter of its next word, and the words not yet executed. A
poisoned line shows as a missing word (R322). -/
structure Region where
  pc : Word
  words : List (Option (BitVec 32))
  deriving DecidableEq, Repr

/-- What a hart keeps of the start record that launched it (R244, R245, R309, R313). -/
structure LaunchFacts where
  launch : Option Nat
  asid : BitVec 16
  ceil : Nat
  lgmin : Nat
  lgpref : Nat
  prio : Nat
  deriving DecidableEq, Repr

/-- What the control thread waits for, where the wait has state of its own: BARWAIT's object and whether it has been released
since the wait began (R242), the request an SVCALL is parked on (R247), and the cycle at which an LDFE's wait
began, its granule, and whether the granule's reservation has been freed (R344). -/
inductive Waiting where
  | nothing
  | barrier (object : Nat) (released : Bool)
  | service (seq : Word)
  | ldfe (since granule : Nat) (freed : Bool)
  deriving DecidableEq, Repr

/-! ## The vector state -/

/-- A vector type (R55): the fields of `vtype` while VILL = 0. `blm3` is BL − 3, `lmul` log2 LMUL. -/
structure VType where
  fmt : Fmt
  lmul : Fin 4
  blm3 : Fin 4
  tp : Bool
  mp : Bool
  sh : Bool
  rlog : Fin 32
  deriving DecidableEq, Repr

/-- A run tag with ORD ≠ 0 (R50): `gr` is log2 of the run grain, 31 for one run over LEN; `payload` is PW where PAY = 1. -/
structure RunTag where
  descending : Bool
  kf : Fmt
  payload : Option (Fin 4)
  gr : Fin 32
  len : Nat
  uniq : Bool
  deriving DecidableEq, Repr

/-- One entry of a queue, with the fields of its image (R341). `start` is its vstart, `strip` its strip interval, `seq`
its place in program order and `mode` the privilege its accesses have; `finished` marks an entry that has completed before
an older one, whose slot is not free yet (R254); `base` is its vstart as it was issued, from which an instruction begins once the strips
that it reads have been popped (R140, R152); `tags` are the tags that a run instruction found on its tagged sources when it began, none
before (R174, R175). These six are the model's own. -/
structure QEntry where
  pc : Word
  word : BitVec 32
  held : Bool
  popped : Bool
  finished : Bool
  start : Nat
  base : Nat
  xd : Word
  xd1 : Word
  xa : Word
  xa1 : Word
  xb : Word
  xb1 : Word
  vtype : Option VType
  vl : Nat
  log2vlen : Nat
  strip : Nat
  seq : Nat
  mode : Mode
  tags : List (Option RunTag)
  deriving DecidableEq, Repr

/-- What a vector, matrix, micro-thread or stream fault reports (R334 to R338): its cause and kind, the access, the faulting
address, the virtual PC or block address, the element and its lane group, the word of a block and the operand; `line` is the
physical address that a data error of memory lies at, which the error log shows (R383), and `slice` the lane group that holds the
uncorrectable error of a register that the fault is a read of (R379, R385). -/
structure VecFault where
  cause : Nat
  kind : Nat
  acc : Nat
  tval : Word
  vpc : Word
  elem : Nat
  lg : Nat
  bidx : Option Nat
  operand : Option (Nat × Nat)
  line : Option Nat
  slice : Option Nat
  deriving DecidableEq, Repr

/-- What a micro-thread did at the terminator of its block (R120). -/
inductive Ended where
  | running
  | fetched (target : Word)
  deriving DecidableEq, Repr

/-- Where a micro-thread of a round stands (R256, R258, R345): in the fetch group of a number, in a slot or parked; waiting
at a target it has not begun; or set aside, with its fault if it has one (R345). -/
inductive Place where
  | group (id : Nat)
  | waiting
  | aside (fault : Option VecFault)
  deriving DecidableEq, Repr

/-- One micro-thread of a round that has not stopped: its element, its block, the word at which it stands, and the cycle at which its
full-empty wait began, with its granule, while it is in one (R344); `first` says that it is still in the block in which its queue entry
started it, `begun` that its block has been fetched for it; `via` is the specifier of the terminator that fetched its block;
`poison` is the lane group in which an uncorrectable error has struck its resume element state (R377). -/
structure Micro where
  elem : Nat
  first : Bool
  begun : Bool
  via : Nat
  block : Word
  idx : Nat
  ended : Ended
  place : Place
  waited : Option (Nat × Nat)
  poison : Option Nat
  deriving DecidableEq, Repr

/-- A fetch group (R256): the block it executes, as the instructions at their word indices (none read yet where it
continues a restored group), whether it is parked, the cycle at which one of its elements last advanced (R258), and the elements of it that
have faulted, each with the word at which the elements above it are suppressed (R345). -/
structure FetchGroup where
  id : Nat
  block : Word
  code : List (Nat × Instr)
  parked : Bool
  moved : Nat
  limits : List (Nat × Nat)
  deriving DecidableEq, Repr

/-- How far the holding of a round has come (R346): not begun, its groups running to their terminators, or every group at a stop. -/
inductive Holding where
  | no | stopping | stopped
  deriving DecidableEq, Repr

/-- A round (R256): its place in program order, its strip interval (0, which is before any, where it continues held micro-threads), the
vl, VLEN and vector type of it, its micro-threads that have not stopped in
element order, and its fetch groups, with the parked ones in the order they were parked; the code of blocks whose groups have gone while
micro-threads set aside stand in them (R232); whether its queue entry has not completed (R229), how far its holding has come, and the
group overflow that holding it raised (R346). -/
structure Round where
  seq : Nat
  strip : Nat
  vl : Nat
  log2vlen : Nat
  vtype : VType
  opened : Bool
  holding : Holding
  overflow : Option VecFault
  mode : Mode
  micros : List Micro
  groups : List FetchGroup
  codes : List (Word × List (Nat × Instr))
  nextId : Nat
  deriving DecidableEq, Repr

/-- The link state of a round (R116, R117): the elements that the broadcast made active, the held value L_e of each (0 when
not listed), and the values queued toward an element, oldest first. -/
structure Links where
  active : VecBits
  held : List (Nat × Word)
  queued : List (Nat × List Word)
  deriving DecidableEq, Repr

/-- A resume group (R347): its number, its block, the vl of the round it continues, its code as read when it was first
fetched (none after a context restore, R232), its members, and after a context restore the kind and the faulting address that its record
holds; `overflow` is a fault of kind 7 of its round that is still to be reported (R346). -/
structure ResumeGroup where
  num : Nat
  block : Word
  vl : Nat
  log2vlen : Nat
  vtype : VType
  mode : Mode
  code : Option (List (Nat × Instr))
  micros : List Micro
  fault : Option (Nat × Word)
  overflow : Option VecFault
  deriving DecidableEq, Repr

/-- A bound stream (R138 to R143): its control block, the registers of its group and its position; `row` is the row index entry that
was read last, with its place in the list, so that each is read once. -/
structure Stream where
  index : Word
  base : Word
  rowStride : Word
  count : Nat
  rowLen : Nat
  ifmt : Fin 4
  sfmt : Fmt
  group : Nat
  regs : Nat
  pos : Nat
  row : Option (Nat × Word)
  deriving DecidableEq, Repr

/-- An entry of the index table (R188). -/
structure IxEntry where
  key : Word
  value : Word
  deriving DecidableEq, Repr

/-- The accumulator kinds (R204). -/
inductive AccKind where
  | fp32 | i32 | fp64
  deriving DecidableEq, Repr

/-- A weight plane (R197, R403): its recorded format and scale block, its elements at 128 × row + column as raw patterns
(0 when not listed), and the scale byte of each element at the same place (127 when not listed). -/
structure Plane where
  wf : Fmt
  wblm3 : Fin 4
  cells : List (Nat × Word)
  scales : List (Nat × Byte)
  deriving DecidableEq, Repr

/-- An accumulator tile (R47, R204, R403): its recorded kind, and its cells at 128 × row + column as raw patterns. -/
structure Tile where
  kind : Option AccKind
  cells : List (Nat × Word)
  deriving DecidableEq, Repr

/-- A matrix attachment (R197). -/
structure Attachment where
  rows : Nat
  lost : Bool
  active : Plane
  shadow : Plane
  tiles : Vector Tile 4
  deriving DecidableEq, Repr

/-- The registers of the vector side that hold bits (R44 to R50, R58, R379): the progress index of each register, and the
registers, tags and IXT entries that an uncorrectable error has poisoned, and by the key of `poisonKey` the lane group in which it lies. -/
structure VecFile where
  v : Vector VecBits 32
  m : Vector VecBits 8
  k : Vector ScaleBits 16
  b : Vector Word 16
  tag : Vector (Option RunTag) 32
  progress : Vector Nat 32
  poisonV : BitVec 32
  poisonM : BitVec 8
  poisonK : BitVec 16
  poisonTag : BitVec 32
  poisonIxt : List (Nat × Bool)
  poisonLane : List (Nat × Nat)
  deriving DecidableEq, Repr

/-- The vector CSRs of a hart (R55, R59 to R63), with the vector instructions completed and the strip interval number. -/
structure VecCsrs where
  vstart : Nat
  vxflags : BitVec 5
  vrm : Fin 6
  vseed : Word
  vlinkin : Word
  vlinkout : Word
  vstrip : Word
  vtype : Option VType
  vl : Nat
  vlmax : Nat
  shrunk : Bool
  pwr : Bool
  ceil : Bool
  seqDone : BitVec 32
  strip : Nat
  deriving DecidableEq, Repr

/-- A lane change of a hart that takes effect when the work before a place in program order has completed (R269): the lane groups
before and after it, and the physical groups that it gives up. -/
structure Resize where
  place : Nat
  old : Nat
  new : Nat
  groups : List Nat
  deriving DecidableEq, Repr

/-- The lane groups of a hart (R44, R62, R269, R270): the physical groups held, in ascending order; those it gives up, and those
it receives, at its next grant; and the changes that older work holds up. -/
structure Lanes where
  held : List Nat
  lose : List Nat
  receive : List Nat
  resizes : List Resize
  deriving DecidableEq, Repr

/-- Everything one hart holds. `live`: it runs; `app`: it is an application core (R70). `headWait` is the cycle at which the full-empty wait
of the head of the vector queue began, and its granule (R344); `reported` says whose queue's head the last fault taken belongs to, the
matrix queue's (`some true`), the vector queue's or neither's (R342); `sread` keeps the results of a synchronising read that completed in
the queue for its instruction at a PC (R255, notes/assumptions/14.md); `copyTrap` is the copy whose fault the last trap delivered, which
goes on at the SRET of that trap (R147); `seq` numbers the entries; `replay` is the queue entry being performed, `pause` the element at
which that performance stops midway (R175, R349), `mt` the micro-thread being performed: the model's own. -/
structure Hart where
  live : Bool
  app : Bool
  x : Vector Word 32
  pc : Word
  mode : Mode
  csr : Csrs
  region : Option Region
  facts : LaunchFacts
  waiting : Waiting
  frozen : Bool
  freezeReq : Bool
  freezeMax : BitVec 4
  vec : VecFile
  vc : VecCsrs
  lanes : Lanes
  vq : List QEntry
  mq : List QEntry
  vfault : Option VecFault
  mfault : Option VecFault
  vheld : Bool
  mheld : Bool
  reported : Option Bool
  sread : Option (Word × List (XReg × Word))
  copyTrap : Option Nat
  headWait : Option (Nat × Nat)
  seq : Nat
  round : Option Round
  resume : List ResumeGroup
  links : Links
  streams : Vector (Option Stream) 4
  ixt : List (Nat × Option IxEntry)
  arrival : Option (Word × Bool)
  mshape : Word
  attachment : Option Attachment
  chains : List (Nat × Nat)
  replay : Option QEntry
  pause : Option Nat
  mt : Option Micro
  deriving DecidableEq, Repr

/-! ## Cores, clusters and copies -/

/-- How addresses are translated for an access made on behalf of a hart after its instruction left it (R144): the address
space, the mode, the windows and the core. -/
structure Space where
  satp : Word
  mode : Mode
  sum : Bool
  mxr : Bool
  swindow : BitVec 5
  core : Nat
  deriving DecidableEq, Repr

/-- A copy that a copy engine has accepted (R144 to R147): its owner, its space, the PC of the VCOPY, its operands and the x
registers of its source and destination, the bytes complete in its direction, the barrier object it is tagged with (virtual and
physical address) and how many of its bytes that object's PENDING still counts, whether all its bytes are written, and the fault that holds it. A
remote side keeps the device and the key (R75). -/
structure Copy where
  id : Nat
  hart : Nat
  space : Space
  pc : Word
  kind : CopyKind
  src : Word
  dst : Word
  count : Nat
  done : Nat
  dev : BitVec 21
  key : BitVec 32
  regs : Nat × Nat
  bar : Option (Word × Nat)
  pending : Nat
  written : Bool
  held : Option VecFault
  deriving DecidableEq, Repr

/-- A squall (R225 to R228). -/
structure Squall where
  first : Word
  count : Nat
  stripMax : Nat
  taken : Nat
  asid : BitVec 16
  launch : Option Nat
  deriving DecidableEq, Repr

/-- An entry of a cluster's squall table: its generation, and the squall it holds. -/
structure SquallSlot where
  gen : BitVec 32
  squall : Option Squall
  deriving DecidableEq, Repr

/-- A translation that a core's cache holds (R317, R319): the virtual address and address space it is keyed by (65,536 where
code is not translated), whether it is a block, the physical address it was read from, and the words as read; a word of a
poisoned line is missing (R322). -/
structure Translation where
  va : Nat
  space : Nat
  block : Bool
  pa : Nat
  words : List (Option Word)
  deriving DecidableEq, Repr

/-- Lane groups reclaimed on a core for the head record of a queue (R315): those that their harts have still to give up, and those
that have passed and are reserved. -/
structure Reclaim where
  queue : Nat
  due : List Nat
  groups : List Nat
  deriving DecidableEq, Repr

/-- The state of a core that is not its harts' (R65, R251, R315, R319, R385): its power budget, its disabled lane groups, the lane
groups that a lane partition gives to a hart and another still uses (group and hart number), those reclaimed for the head
records of queues, and its translation cache. -/
structure CoreState where
  budget : Nat
  limited : Bool
  disabled : List Nat
  promised : List (Nat × Nat)
  reclaims : List Reclaim
  tc : List Translation
  deriving DecidableEq, Repr

/-! ## Launches -/

/-- A record in a launch queue (R304, R374): its sequence number, its eight words, and for a record from another package the
sender's device and ASID, to which a permit returns unless the sender rebooted (R375). -/
structure LqRecord where
  seq : Nat
  words : Vector Word 8
  sender : Option (BitVec 21 × BitVec 16)
  deriving DecidableEq, Repr

/-- What LSTAT reports of a ticket (R246): a queue keeps the most recent 4,096. -/
structure Ticket where
  seq : Nat
  state : Nat
  started : Nat
  exited : Nat
  deriving DecidableEq, Repr

/-- A launch queue (R304 to R309). `flush` holds, while a FLUSH is not done, how many of the records at its head it discards. -/
structure LaunchQueue where
  flush : Option Nat
  remote : Bool
  umode : Bool
  appc : Bool
  prio : Fin 4
  enable : Bool
  cores : BitVec 32
  clmask : BitVec 4
  diemask : BitVec 4
  nextSeq : Nat
  records : List LqRecord
  tickets : List Ticket
  deriving DecidableEq, Repr

/-- A launch in progress (R313, R316): where it runs, its harts that have not exited, its reservations as offset and size,
its squall handle and its completion barrier. -/
structure Launch where
  id : Nat
  queue : Nat
  seq : Nat
  core : Nat
  harts : List Nat
  tcm : Nat × Nat
  scratch : Nat × Nat
  squall : Option Word
  bar : Word
  space : Space
  deriving DecidableEq, Repr

/-! ## Services, migration and other packages -/

/-- A posted service request (R352). -/
structure Request where
  req : Word
  seq : Word
  place : Word
  asid : Word
  pc : Word
  hart : Nat
  deriving DecidableEq, Repr

/-- The service queue of a die (R352): the requests not yet popped, those popped, SVANS, SVACK and the next SEQ; `current` is
the record whose words a pop is reading. -/
structure ServiceQueue where
  records : List Request
  current : Option Request
  answer : Word
  ack : Bool
  nextSeq : Word
  deriving DecidableEq, Repr

/-- The migration block of a die (R355). -/
structure Migration where
  src : Word
  dst : Word
  size : Fin 4
  done : Bool
  busy : Bool
  deriving DecidableEq, Repr

/-- What a request to another package does (R368): bytes of a copy, or one atomic element. -/
inductive RemoteKind where
  | put (copy offset len : Nat)
  | get (copy offset len : Nat)
  | atomic (hart elem : Nat)
  deriving DecidableEq, Repr

/-- A request sent (R369 to R371): its number, its target, what it does, the cycle it was sent, and, once it has been answered,
the old value of an atomic or the kind of fault it ends in. -/
structure RemoteRequest where
  req : Nat
  dev : BitVec 21
  kind : RemoteKind
  sent : Nat
  answer : Option (Option Nat × Word)
  deriving DecidableEq, Repr

/-- A message sent to another package (R368 to R374): the record of what leaves the package. -/
inductive Message where
  | write (req : Nat) (dev : BitVec 21) (addr : Nat) (key : BitVec 32) (data : List Byte)
  | read (req : Nat) (dev : BitVec 21) (addr : Nat) (key : BitVec 32) (len : Nat)
  | atomic (req : Nat) (dev : BitVec 21) (addr : Nat) (key : BitVec 32) (op : UpdOp) (fmt : Fmt) (value : Word)
  | launch (req : Nat) (dev : BitVec 21) (queue : Nat) (asid : BitVec 16) (record : Vector Word 8)
  | ack (req : Nat) (dev : BitVec 21) (refused : Option Nat) (value : Word)
  | readData (req : Nat) (dev : BitVec 21) (data : List Byte)
  | resultAck (req : Nat) (dev : BitVec 21)
  | grant (req : Nat) (dev : BitVec 21) (queue : Nat) (asid : BitVec 16) (count : Nat)
  | grantAck (req : Nat) (dev : BitVec 21) (accepted : Bool)
  | permitBack (req : Nat) (dev : BitVec 21) (queue : Nat) (asid : BitVec 16)
  deriving DecidableEq, Repr

/-- The way to a device that the route table gives (R366): the root port of the network card and the queue pair. -/
structure NetRoute where
  port : Fin 8
  qpn : BitVec 24
  deriving DecidableEq, Repr

/-- A message as it leaves (R366, R370, R375): its way, where the route table has one; the DEVNUM and the BOOTGEN of the sender; and what
it says. -/
structure Sent where
  route : Option NetRoute
  source : BitVec 21
  bootgen : BitVec 32
  message : Message
  deriving DecidableEq, Repr

/-- A remote window (R367). -/
structure RemoteWindow where
  base : Word
  len : Word
  ctl : Word
  deriving DecidableEq, Repr

/-- A permit table entry (R373): its first word and its count. -/
structure Permit where
  head : Word
  count : BitVec 16
  deriving DecidableEq, Repr

/-- Launch-queue slots reserved for a sender (R374). -/
structure Reserved where
  dev : BitVec 21
  queue : Nat
  asid : BitVec 16
  count : Nat
  deriving DecidableEq, Repr

/-- The remote block and the remote agent (R366 to R375): `seen` holds the BOOTGEN last seen in the requests of a device, `peers`
that in its answers; `cached` holds the result of an atomic request for its sender: its old value, or the kind of fault of one that may have
been applied (R370, R380); `lost` is the flit of the agent's next access that has failed its parity (R380); `waiting` are the messages that
wait for the entry of the route table that names their way (R356, R363), oldest first. -/
structure Remote where
  bootgen : BitVec 32
  devnum : BitVec 21
  rtbase : Word
  windows : List (Nat × RemoteWindow)
  permits : List (Nat × Permit)
  pgrant : Nat
  reserved : List Reserved
  transit : List Reserved
  seen : List (BitVec 21 × BitVec 32)
  peers : List (BitVec 21 × BitVec 32)
  cached : List ((BitVec 21 × Nat) × (Option Nat × Word))
  outstanding : List RemoteRequest
  nextReq : Nat
  outbox : List Sent
  lost : Option FlitKind
  waiting : List Message
  deriving DecidableEq, Repr

/-! ## Links, integrity and power -/

/-- A die-to-die link (R362, R363): up, retraining, the flit replayed last with its consecutive replays, and the retrains that
failed. -/
structure Link where
  up : Bool
  retraining : Bool
  flit : Nat
  replays : Nat
  failed : Nat
  deriving DecidableEq, Repr

/-- An entry of the error log (R383). -/
structure LogEntry where
  cls : Fin 4
  unit : Fin 32
  place : BitVec 15
  addr : Word
  cycle : Word
  count : Nat
  deriving DecidableEq, Repr

/-- The error log (R383): the ring as the entries from HEAD on that are valid, by their index; `newest` is the index written last. -/
structure ErrorLog where
  ovf : Bool
  ien : Bool
  head : BitVec 8
  tail : BitVec 8
  newest : BitVec 8
  entries : List (Nat × Option LogEntry)
  deriving DecidableEq, Repr

/-- Power and bring-up (R385, R387, R389, R391): on, the module limit in watts, the functions whose firmware image was verified and
those whose image was refused; the LPDDR rows and the scratchpad banks that the last boot repaired, and the clusters and cores that
repairs have found never to be ready. -/
structure Power where
  on : Bool
  pwrcap : Nat
  verified : List Function
  refused : List Function
  rows : List Nat
  banks : List Nat
  deadClusters : List Nat
  deadCores : List Nat
  deriving DecidableEq, Repr

/-- What the management service has returned (R386, R390). -/
inductive Report where
  | lifetime (counters : List (Nat × Nat)) (signature : List Byte)
  | attestation (bytes : List Byte)
  deriving DecidableEq, Repr

/-! ## Who moves -/

/-- What the agenda names next (notes/assumptions/1.md): an event, the hart that becomes the selected one, or the side of the
selected hart that moves; `part` is a move of the vector side that stops midway, at an element (R175, R349). -/
inductive Turn where
  | event (i : Instr)
  | hart (id : Nat)
  | control
  | vector
  | part (elem : Nat)
  deriving DecidableEq, Repr

/-- The state of the package. `hart` is the selected hart, whose number is `hartId`; `others` holds every other hart that
differs from one never started; `reservations` the LR reservations, each a hart, an address and a width (R68). `memory`, `fullEmpty`,
`poison` and the tables are lists in canonical form: keys strictly rising, no entry equal to what an unlisted key reads as. `lastQueue`
holds, for each die, the queue its dispatcher served last (R311); `interruptFiles` the interrupts pending in the files of the application
cores (R365), by core and identity. -/
structure State where
  hart : Hart
  hartId : Nat
  others : List (Nat × Hart)
  agenda : List Turn
  cycle : Nat
  free : Nat
  memory : List Host.Cell
  reservations : List (Nat × Nat × Nat)
  fullEmpty : List (Nat × Bool)
  poison : List (Nat × Bool)
  bigMemory : Bool
  cores : List (Nat × CoreState)
  squalls : List (Nat × SquallSlot)
  copies : List Copy
  nextCopy : Nat
  queues : List (Nat × LaunchQueue)
  lastQueue : List (Nat × Nat)
  launches : List Launch
  nextLaunch : Nat
  astbase : Word
  services : List (Nat × ServiceQueue)
  migrations : List (Nat × Migration)
  remote : Remote
  links : List (Nat × Link)
  log : ErrorLog
  ready : List (Nat × Word)
  lifeRam : List (Nat × Nat)
  lifeFlash : List (Nat × Nat)
  measurements : List (BitVec 512)
  power : Power
  reports : List Report
  appInterrupts : Nat
  interruptFiles : List (Nat × Bool)
  deriving DecidableEq, Repr

/-! ## Reset -/

/-- The CSRs after reset. The B7's own are those of R61; the standard ones are the values the privileged architecture's
layout gives them (notes/assumptions/5.md, PRESUMED): UXL and SXL 2 (64-bit), every enable 0; `medeleg` and `mideleg` as
boot firmware leaves them (R333, notes/assumptions/6.md). -/
def Csrs.reset : Csrs where
  mstatus := 0x0000000A00000000#64
  medeleg := 0x000000007F00B1FF#64
  mideleg := 0x0000000000010222#64
  mie := 0#64
  mip := 0#64
  mtvec := 0#64
  mscratch := 0#64
  mepc := 0#64
  mcause := 0#64
  mtval := 0#64
  mcounteren := 0#64
  mcountinhibit := 0#64
  menvcfg := 0#64
  mcycle := 0#64
  minstret := 0#64
  stvec := 0#64
  sscratch := 0#64
  sepc := 0#64
  scause := 0#64
  stval := 0#64
  satp := 0#64
  scounteren := 0#64
  senvcfg := 0#64
  svtrap0 := 0#64
  svtrap1 := 0#64
  svtrap2 := 0#64
  svtrap3 := 0#64
  sctxbase := 0#64
  swindow := 0#5

/-- The vector registers of lane groups just received by a starting hart (R66). -/
def VecFile.reset : VecFile where
  v := Vector.replicate 32 0#maxVlen
  m := Vector.replicate 8 0#maxVlen
  k := Vector.replicate 16 0#groupBits
  b := Vector.replicate 16 0#64
  tag := Vector.replicate 32 none
  progress := Vector.replicate 32 0
  poisonV := 0#32
  poisonM := 0#8
  poisonK := 0#16
  poisonTag := 0#32
  poisonIxt := []
  poisonLane := []

/-- The vector CSRs at their reset values (R61). -/
def VecCsrs.reset : VecCsrs where
  vstart := 0
  vxflags := 0#5
  vrm := 0
  vseed := 0#64
  vlinkin := 0#64
  vlinkout := 0#64
  vstrip := 0#64
  vtype := none
  vl := 0
  vlmax := 0
  shrunk := false
  pwr := false
  ceil := false
  seqDone := 0#32
  strip := 0

/-- Links with nothing passed (R116). -/
def Links.reset : Links := ⟨0#maxVlen, [], []⟩

/-- A hart that has not been started: every register at its reset value (notes/assumptions/4.md and 5.md). -/
def Hart.reset : Hart where
  live := false
  app := false
  x := Vector.replicate 32 0#64
  pc := 0#64
  mode := .m
  csr := Csrs.reset
  region := none
  facts := ⟨none, 0#16, 0, 0, 0, 0⟩
  waiting := .nothing
  frozen := false
  freezeReq := false
  freezeMax := 0#4
  vec := VecFile.reset
  vc := VecCsrs.reset
  lanes := ⟨[], [], [], []⟩
  vq := []
  mq := []
  vfault := none
  mfault := none
  vheld := false
  mheld := false
  reported := none
  sread := none
  copyTrap := none
  headWait := none
  seq := 0
  round := none
  resume := []
  links := Links.reset
  streams := Vector.replicate 4 none
  ixt := []
  arrival := none
  mshape := 0#64
  attachment := none
  chains := []
  replay := none
  pause := none
  mt := none

/-- A core after reset (R61, R65): budget 8, nothing disabled or reserved. -/
def CoreState.reset : CoreState := ⟨8, false, [], [], [], []⟩

/-- A launch queue after reset (R305 to R308). -/
def LaunchQueue.reset : LaunchQueue :=
  ⟨none, false, false, false, 0, false, 0#32, 0#4, 0#4, 1, [], []⟩

/-- A squall table entry after reset (notes/assumptions/4.md: generation 0). -/
def SquallSlot.reset : SquallSlot := ⟨0#32, none⟩

/-- A service queue after reset (R352; notes/assumptions/4.md: the first SEQ is 1). -/
def ServiceQueue.reset : ServiceQueue := ⟨[], none, 0#64, false, 1#64⟩

/-- A migration block after reset (R355; notes/assumptions/4.md: addresses 0). -/
def Migration.reset : Migration := ⟨0#64, 0#64, 0, false, false⟩

/-- A remote window after reset (R367). -/
def RemoteWindow.reset : RemoteWindow := ⟨0#64, 0#64, 0#64⟩

/-- A permit entry after reset (R373). -/
def Permit.reset : Permit := ⟨0#64, 0#16⟩

/-- The remote block after reset (R366; notes/assumptions/4.md). -/
def Remote.reset : Remote := ⟨0#32, 0#21, 0#64, [], [], 0, [], [], [], [], [], [], 1, [], none, []⟩

/-- A link after reset (notes/assumptions/4.md): up. -/
def Link.reset : Link := ⟨true, false, 0, 0, 0⟩

/-- The error log after reset (R383). -/
def ErrorLog.reset : ErrorLog := ⟨false, false, 0#8, 0#8, 255#8, []⟩

/-- The package right after reset (R387, R388): power on, nothing ready, no hart started, nothing on the agenda, memory with
nothing listed (notes/assumptions/3.md). -/
def State.reset : State where
  hart := Hart.reset
  hartId := 0
  others := []
  agenda := []
  cycle := 0
  free := 0
  memory := []
  reservations := []
  fullEmpty := []
  poison := []
  bigMemory := true
  cores := []
  squalls := []
  copies := []
  nextCopy := 0
  queues := []
  lastQueue := []
  launches := []
  nextLaunch := 0
  astbase := 0#64
  services := []
  migrations := []
  remote := Remote.reset
  links := []
  log := ErrorLog.reset
  ready := []
  lifeRam := []
  lifeFlash := []
  measurements := []
  power := ⟨true, 2800, [], [], [], [], [], []⟩
  reports := []
  appInterrupts := 0
  interruptFiles := []

end Sys2Proof.Machine
end

