-- ==== Sys2Proof/Machine/Store.lean ====
section
/-!
DEFINITION. Sparse tables in canonical form (a list of key and value pairs, keys strictly rising, no value equal to what an
unlisted key reads as), memory and full-empty bits kept in them, and the slots of vector registers.
-/

namespace Sys2Proof.Machine

/-! ## Tables -/

/-- The value of a key: `dflt` where it is not listed. -/
def Store.get {α : Type} (dflt : α) : List (Nat × α) → Nat → α
  | [], _ => dflt
  | (k, v) :: rest, key => if k = key then v else Store.get dflt rest key

/-- The table with a key at a value; an entry equal to the default is removed. -/
def Store.put {α : Type} [DecidableEq α] (dflt : α) : List (Nat × α) → Nat → α → List (Nat × α)
  | [], key, v => if v = dflt then [] else [(key, v)]
  | (k, w) :: rest, key, v =>
    if key < k then (if v = dflt then (k, w) :: rest else (key, v) :: (k, w) :: rest)
    else if key = k then (if v = dflt then rest else (k, v) :: rest)
    else (k, w) :: Store.put dflt rest key v

/-- The table with each value changed by a function that keeps the default; an entry that comes to the default is removed. -/
def Store.map {α : Type} [DecidableEq α] (dflt : α) (f : α → α) : List (Nat × α) → List (Nat × α)
  | [] => []
  | (k, v) :: rest =>
    let others := (Store.map dflt f rest).filter fun p => p.1 != k
    if f v = dflt then others else (k, f v) :: others

/-- The keys rise strictly from a bound on, and no value is the default. -/
def Store.wfFrom {α : Type} [DecidableEq α] (dflt : α) : Nat → List (Nat × α) → Bool
  | _, [] => true
  | lo, (k, v) :: rest => decide (lo ≤ k) && decide (v ≠ dflt) && Store.wfFrom dflt (k + 1) rest

/-- The canonical form of a table. -/
def Store.wf {α : Type} [DecidableEq α] (dflt : α) (m : List (Nat × α)) : Bool := Store.wfFrom dflt 0 m

/-! ## Memory (R272, notes/assumptions/3.md) -/

/-- What a byte of memory that nothing has written reads as (notes/assumptions/3.md). -/
def Memory.unlisted : Byte := 0#8

/-- The canonical form of memory. -/
abbrev Memory.wf (m : List Host.Cell) : Bool := Store.wf Memory.unlisted m

/-- The byte at a physical address. -/
def Memory.readByte (m : List Host.Cell) (pa : Nat) : Byte := Store.get Memory.unlisted m pa

/-- Memory with a byte written. -/
def Memory.writeByte (m : List Host.Cell) (pa : Nat) (b : Byte) : List Host.Cell := Store.put Memory.unlisted m pa b

/-- The bytes from a physical address on, lowest first. -/
def Memory.readBytes (m : List Host.Cell) (pa : Nat) : Nat → List Byte
  | 0 => []
  | n + 1 => Memory.readByte m pa :: Memory.readBytes m (pa + 1) n

/-- Memory with bytes written from a physical address on. -/
def Memory.writeBytes (m : List Host.Cell) (pa : Nat) : List Byte → List Host.Cell
  | [] => m
  | b :: bs => Memory.writeBytes (Memory.writeByte m pa b) (pa + 1) bs

/-- The little-endian number of `n` bytes at a physical address. -/
def Memory.readNum (m : List Host.Cell) (pa n : Nat) : Nat := numBytes (Memory.readBytes m pa n)
where
  /-- The number of a list of bytes, least significant first. -/
  numBytes : List Byte → Nat
    | [] => 0
    | b :: bs => b.toNat + 256 * numBytes bs

/-- The low `n` bytes of a number, least significant first. -/
def byteList : Nat → Nat → List Byte
  | 0, _ => []
  | n + 1, v => BitVec.ofNat 8 v :: byteList n (v / 256)

/-- Memory with the low `n` bytes of a number written at a physical address. -/
def Memory.writeNum (m : List Host.Cell) (pa n v : Nat) : List Host.Cell := Memory.writeBytes m pa (byteList n v)

/-! ## Slots of registers (R17, R44, R48) -/

/-- Slot `i` at width `w` of a register's bits. -/
def getSlot (v : VecBits) (w i : Nat) : Nat := (v.extractLsb' (w * i) w).toNat

/-- A register's bits with slot `i` at width `w` holding the low `w` bits of a value. -/
def setSlot (v : VecBits) (w i x : Nat) : VecBits :=
  let field := BitVec.ofNat maxVlen (x % 2 ^ w) <<< (w * i)
  let hole := BitVec.ofNat maxVlen (2 ^ w - 1) <<< (w * i)
  (v &&& ~~~hole) ||| field

/-- Element `e` at width `w` of the group that begins at register `n`, with registers of `vlen` bits (R44). -/
def VecFile.elem (f : VecFile) (vlen n w e : Nat) : Nat :=
  let per := vlen / w
  match f.v[n + e / per]? with
  | some v => getSlot v w (e % per)
  | none => 0

/-- The vector file with element `e` of a group written (R44); the progress index of its register advances to it (R7, R58). -/
def VecFile.setElem (f : VecFile) (vlen n w e x : Nat) : VecFile :=
  let per := vlen / w
  match f.v[n + e / per]? with
  | some v =>
    { f with
      v := f.v.setIfInBounds (n + e / per) (setSlot v w (e % per) x)
      progress := f.progress.setIfInBounds (n + e / per) (e + 1) }
  | none => f

/-- The vector file with the progress index of registers at a number of elements (R58). -/
def VecFile.progressTo (f : VecFile) (set : BitVec 32) (n : Nat) : VecFile :=
  { f with progress := f.progress.mapFinIdx fun i p _ => if set.getLsbD i then n else p }

/-- Bit `e` of a mask register (R7, R45). -/
def VecFile.maskBit (f : VecFile) (m : MName) (e : Nat) : Bool := (f.m[m]).getLsbD e

/-- The vector file with bit `e` of a mask register written. -/
def VecFile.setMaskBit (f : VecFile) (m : MName) (e : Nat) (b : Bool) : VecFile :=
  { f with m := f.m.set m (setSlot f.m[m] 1 e b.toNat) }

/-- Byte `j` of a scale register (R46). -/
def VecFile.scaleByte (f : VecFile) (k : KName) (j : Nat) : Byte := (f.k[k]).extractLsb' (8 * j) 8

/-- The vector file with byte `j` of a scale register written. -/
def VecFile.setScaleByte (f : VecFile) (k : KName) (j : Nat) (b : Byte) : VecFile :=
  let hole := (BitVec.ofNat groupBits 255) <<< (8 * j)
  { f with k := f.k.set k ((f.k[k] &&& ~~~hole) ||| (b.setWidth groupBits <<< (8 * j))) }

end Sys2Proof.Machine
end

