-- ==== Sys2Proof/Machine/Ops.lean ====
section
/-!
DEFINITION. The named operations over harts and registers, taking an exception and returning from one.
-/

namespace Sys2Proof.Machine

/-- What an instruction or a step answers. -/
abbrev Result := Host.Outcome State Fault Refusal

/-! ## Where a hart is (R272, R335) -/

/-- The number from which application cores are numbered; the harts of core c are 8 × c to 8 × c + 7. -/
def firstAppCore : Nat := 4096

/-- The global core number of a hart. -/
def coreOf (id : Nat) : Nat := id / 8
/-- The global cluster number of a hart. -/
def clusterOf (id : Nat) : Nat := id / 256
/-- The die of a hart. -/
def dieOf (id : Nat) : Nat := id / 1024

/-- The die, cluster, core and hart of a hart in the places of `svtrap0` bits [29:15] (R335), with a lane group. -/
def placeBits (id lg : Nat) : Nat :=
  id / 1024 % 4 * 2 ^ 28 + id / 256 % 4 * 2 ^ 26 + id / 8 % 32 * 2 ^ 21 + id % 8 * 2 ^ 18 + lg % 8 * 2 ^ 15

/-! ## Registers (R43) -/

/-- The value of an x register: x0 is hard-wired to zero. -/
def Hart.getX (h : Hart) (r : XReg) : Word := if r = 0 then 0#64 else h.x[r]

/-- A hart with an x register written: writes of x0 are discarded. -/
def Hart.setX (h : Hart) (r : XReg) (v : Word) : Hart := if r = 0 then h else { h with x := h.x.set r v }

/-- The register after a register: the second of a pair (R72). -/
def pairOf (r : XReg) : XReg := r + 1

/-- The register a count is returned in (R72): x(8 + mk). -/
def countX (n : Fin 8) : XReg := ⟨8 + n.val, by omega⟩

/-- The value of an x register of the selected hart. -/
def State.x (s : State) (r : XReg) : Word := s.hart.getX r

/-- The state with an x register of the selected hart written. -/
def State.setX (s : State) (r : XReg) (v : Word) : State := { s with hart := s.hart.setX r v }

/-! ## Harts -/

/-- A hart by its number. -/
def State.getHart (s : State) (id : Nat) : Hart :=
  if id = s.hartId then s.hart else Store.get Hart.reset s.others id

/-- The state with a hart at a value. -/
def State.setHart (s : State) (id : Nat) (h : Hart) : State :=
  if id = s.hartId then { s with hart := h } else { s with others := Store.put Hart.reset s.others id h }

/-- The state with another hart selected: the one selected before goes among the others. -/
def State.select (s : State) (id : Nat) : State :=
  if id = s.hartId then s
  else
    let h := Store.get Hart.reset s.others id
    { s with hart := h, hartId := id,
             others := Store.put Hart.reset (Store.put Hart.reset s.others s.hartId s.hart) id Hart.reset }

/-- Every hart that is not as after reset, by number, the selected one among them. -/
def State.allHarts (s : State) : List (Nat × Hart) := Store.put Hart.reset s.others s.hartId s.hart

/-- The harts of a core that run. -/
def State.coreHarts (s : State) (core : Nat) : List (Nat × Hart) :=
  s.allHarts.filter fun p => p.2.live && !p.2.app && coreOf p.1 == core

/-- The state of a core. -/
def State.core (s : State) (c : Nat) : CoreState := Store.get CoreState.reset s.cores c

/-- The state with a core at a value. -/
def State.setCore (s : State) (c : Nat) (v : CoreState) : State := { s with cores := Store.put CoreState.reset s.cores c v }

/-! ## Free values (notes/assumptions/9.md, 10.md) -/

/-- A free choice and the state with the counter advanced. -/
def State.drawBit (s : State) : Bool × State := (Config.freeChoice s.free, { s with free := s.free + 1 })

/-- A free byte and the state with the counter advanced. -/
def State.drawByte (s : State) : Byte × State := (Config.freeByte s.free, { s with free := s.free + 1 })

/-! ## The status register (R68, the privileged architecture; notes/assumptions/5.md) -/

/-- A word with the bits of a field at a value: `n` bits from bit `lo`. -/
def putField (w : Word) (lo n v : Nat) : Word :=
  let hole := BitVec.ofNat 64 (2 ^ n - 1) <<< lo
  (w &&& ~~~hole) ||| (BitVec.ofNat 64 (v % 2 ^ n) <<< lo)

/-- A field of a word: `n` bits from bit `lo`. -/
def getField (w : Word) (lo n : Nat) : Nat := w.toNat / 2 ^ lo % 2 ^ n

/-- The 2-bit code of a mode. -/
def Mode.code : Mode → Nat
  | .u => 0
  | .s => 1
  | .m => 3

/-- The mode of a 2-bit code; the reserved code 2 reads as U. -/
def Mode.ofCode (n : Nat) : Mode := if n = 3 then .m else if n = 1 then .s else .u

/-- MSTATUS.SIE. -/
def Csrs.sie (c : Csrs) : Bool := c.mstatus.getLsbD 1
/-- MSTATUS.MIE. -/
def Csrs.mieBit (c : Csrs) : Bool := c.mstatus.getLsbD 3
/-- MSTATUS.MPRV. -/
def Csrs.mprv (c : Csrs) : Bool := c.mstatus.getLsbD 17
/-- MSTATUS.SUM. -/
def Csrs.sum (c : Csrs) : Bool := c.mstatus.getLsbD 18
/-- MSTATUS.MXR. -/
def Csrs.mxr (c : Csrs) : Bool := c.mstatus.getLsbD 19
/-- MSTATUS.TVM. -/
def Csrs.tvm (c : Csrs) : Bool := c.mstatus.getLsbD 20
/-- MSTATUS.TW. -/
def Csrs.tw (c : Csrs) : Bool := c.mstatus.getLsbD 21
/-- MSTATUS.TSR. -/
def Csrs.tsr (c : Csrs) : Bool := c.mstatus.getLsbD 22
/-- MSTATUS.MPP. -/
def Csrs.mpp (c : Csrs) : Mode := Mode.ofCode (getField c.mstatus 11 2)
/-- MSTATUS.SPP. -/
def Csrs.spp (c : Csrs) : Mode := if c.mstatus.getLsbD 8 then .s else .u

/-- The privilege that the hart's data accesses have: MPP while MPRV is set. -/
def Hart.dataMode (h : Hart) : Mode := if h.mode = .m && h.csr.mprv then h.csr.mpp else h.mode

/-! ## Taking an exception or an interrupt (R68, R333, R335; notes/assumptions/5.md) -/

/-- Where a trap goes: the vector base, and for an interrupt in vectored mode four bytes for each cause. -/
def trapTarget (tvec : Word) (interrupt : Bool) (cause : Nat) : Word :=
  let base := (tvec >>> 2) <<< 2
  if interrupt && tvec.getLsbD 0 then base + BitVec.ofNat 64 (4 * cause) else base

/-- The trap is delegated to S-mode: it comes from U or S mode and its delegation bit is set (R333). -/
def Hart.delegated (h : Hart) (interrupt : Bool) (cause : Nat) : Bool :=
  h.mode != .m && (if interrupt then h.csr.mideleg.getLsbD cause else h.csr.medeleg.getLsbD cause)

/-- The cause register's value. -/
def causeWord (interrupt : Bool) (cause : Nat) : Word := putField (BitVec.ofNat 64 cause) 63 1 interrupt.toNat

/-- TAKING A TRAP. The saved pc is the pc of the control thread; the saved status holds the mode and the interrupt enable; the
mode becomes S when the trap is delegated and M otherwise; the interrupt enable of that mode is cleared; the pc goes to
that mode's vector. `svtrap0`.VALID becomes 0 (R335): a trap of causes 24 to 30 writes the trap CSRs after this. The wait
of the control thread and its current region end. -/
def Hart.takeTrap (h : Hart) (interrupt : Bool) (cause : Nat) (tval : Word) : Hart :=
  let c := h.csr
  let c := { c with svtrap0 := putField c.svtrap0 63 1 0 }
  let h := { h with region := none, waiting := .nothing, replay := none, mt := none }
  if h.delegated interrupt cause then
    let st := putField (putField (putField c.mstatus 8 1 (if h.mode = .s then 1 else 0)) 5 1 c.sie.toNat) 1 1 0
    { h with
      csr := { c with mstatus := st, sepc := h.pc, scause := causeWord interrupt cause, stval := tval }
      mode := .s
      pc := trapTarget c.stvec interrupt cause }
  else
    let st := putField (putField (putField c.mstatus 11 2 h.mode.code) 7 1 c.mieBit.toNat) 3 1 0
    { h with
      csr := { c with mstatus := st, mepc := h.pc, mcause := causeWord interrupt cause, mtval := tval }
      mode := .m
      pc := trapTarget c.mtvec interrupt cause }

/-- The state in which the selected hart takes an exception. -/
def State.takeTrap (s : State) (cause : Nat) (tval : Word) : State :=
  { s with hart := s.hart.takeTrap false cause tval }

/-- The return from a trap taken in S-mode: the mode and the interrupt enable come back from the status, the pc from `sepc`,
and MPRV is cleared where the mode becomes less than M. -/
def Hart.returnS (h : Hart) : Hart :=
  let c := h.csr
  let st := putField (putField (putField (putField c.mstatus 1 1 (c.mstatus.getLsbD 5).toNat) 5 1 1) 8 1 0) 17 1 0
  { h with csr := { c with mstatus := st }, mode := c.spp, pc := c.sepc, region := none }

/-- The return from a trap taken in M-mode. -/
def Hart.returnM (h : Hart) : Hart :=
  let c := h.csr
  let st := putField (putField (putField c.mstatus 3 1 (c.mstatus.getLsbD 7).toNat) 7 1 1) 11 2 0
  let st := if c.mpp = .m then st else putField st 17 1 0
  { h with csr := { c with mstatus := st }, mode := c.mpp, pc := c.mepc, region := none }

/-! ## Completing an instruction of the control thread -/

/-- The region after its first word has been executed: it stays while the control thread goes on to its next word (R317). -/
def Region.pass (r : Option Region) (pc : Word) : Option Region :=
  match r with
  | some ⟨_, _ :: w :: ws⟩ => some ⟨pc, w :: ws⟩
  | _ => none

/-- A hart that has completed an instruction and goes on at a pc. -/
def Hart.goTo (h : Hart) (pc : Word) : Hart :=
  let c := h.csr
  { h with
    pc := pc
    waiting := .nothing
    region := if pc = h.pc + 4#64 then Region.pass h.region pc else none
    csr := if c.mcountinhibit.getLsbD 2 then c else { c with minstret := c.minstret + 1#64 } }

/-- The state in which the selected hart has completed its instruction: the pc moves past it. -/
def State.advance (s : State) : State := { s with hart := s.hart.goTo (s.hart.pc + 4#64) }

/-- The standard causes of exceptions. -/
def causeFetchMisaligned : Nat := 0
/-- Instruction access fault. -/
def causeFetchAccess : Nat := 1
/-- Illegal instruction. -/
def causeIllegal : Nat := 2
/-- Breakpoint. -/
def causeBreakpoint : Nat := 3
/-- Load address misaligned. -/
def causeLoadMisaligned : Nat := 4
/-- Load access fault. -/
def causeLoadAccess : Nat := 5
/-- Store or AMO address misaligned. -/
def causeStoreMisaligned : Nat := 6
/-- Store or AMO access fault. -/
def causeStoreAccess : Nat := 7
/-- Instruction page fault. -/
def causeFetchPage : Nat := 12
/-- Load page fault. -/
def causeLoadPage : Nat := 13
/-- Store or AMO page fault. -/
def causeStorePage : Nat := 15

/-- The kinds of element faults (R338). -/
def kindPage : Nat := 0
/-- Access. -/
def kindAccess : Nat := 1
/-- Misaligned. -/
def kindMisaligned : Nat := 2
/-- Full-empty qualifier. -/
def kindFullEmpty : Nat := 3
/-- Idempotence. -/
def kindIdempotence : Nat := 4
/-- Copy length. -/
def kindLength : Nat := 5
/-- Data error. -/
def kindDataError : Nat := 6

/-- The kind of an access fault, which is a data error where it names a physical address. -/
def kindReach (line : Option Nat) : Nat := if line.isSome then kindDataError else kindAccess

end Sys2Proof.Machine
end

