-- ==== Sys2Proof/Machine/Space.lean ====
section
/-!
DEFINITION. The physical address map, who reaches what, what is ready, the windows, and translation (R272 to R277, R353, R388).
-/

namespace Sys2Proof.Machine

/-! ## The physical map (R272) -/

/-- What lies at a physical address. -/
inductive Phys where
  | main (die : Nat) | sram (die : Nat) | scratch (g : Nat) | tcm (c : Nat) | device | absent
  deriving DecidableEq, Repr

/-- The bytes of main memory that each die holds: 192 GiB or 96 GiB (R272). -/
def mainPerDie (big : Bool) : Nat := if big then 0x3000000000 else 0x1800000000

/-- The base of the die SRAMs. -/
def sramBase : Nat := 0xE000000000000
/-- The base of the scratchpads. -/
def scratchBase : Nat := 0xE000100000000
/-- The base of the TCMs. -/
def tcmBase : Nat := 0xE000200000000
/-- The base of the device range. -/
def deviceBase : Nat := 0xF000000000000
/-- The end of the physical address space. -/
def physEnd : Nat := 0x10000000000000

/-- What lies at a physical address (R272). -/
def physAt (big : Bool) (pa : Nat) : Phys :=
  if pa < 4 * mainPerDie big then .main (pa / mainPerDie big)
  else if sramBase ≤ pa ∧ pa < sramBase + 4 * 0x4000000 then .sram ((pa - sramBase) / 0x4000000)
  else if scratchBase ≤ pa ∧ pa < scratchBase + 16 * 0x1000000 then .scratch ((pa - scratchBase) / 0x1000000)
  else if tcmBase ≤ pa ∧ pa < tcmBase + 512 * 0x40000 then .tcm ((pa - tcmBase) / 0x40000)
  else if deviceBase ≤ pa ∧ pa < physEnd then .device
  else .absent

/-- TCM or scratchpad: the memory that has full-empty bits (R278). -/
def hasFullEmpty (big : Bool) (pa : Nat) : Bool :=
  match physAt big pa with
  | .scratch _ | .tcm _ => true
  | _ => false

/-! ## Readiness (R388) -/

/-- The readiness word of a cluster, 0 to 15. -/
def State.clusterWord (s : State) (g : Nat) : Word := Store.get 0#64 s.ready g
/-- The readiness word of a die, 0 to 3. -/
def State.dieWord (s : State) (d : Nat) : Word := Store.get 0#64 s.ready (16 + d)
/-- The readiness word of the application die. -/
def State.appWord (s : State) : Word := Store.get 0#64 s.ready 20

/-- A core is ready: its own bit and its cluster's verified Isobar tables (R326, R388). -/
def State.coreReady (s : State) (c : Nat) : Bool :=
  (s.clusterWord (c / 32)).getLsbD (c % 32) && (s.clusterWord (c / 32)).getLsbD 33

/-- The memory at an address is ready to be used: before its bit is set any access to it is an access fault (R388). -/
def State.memoryReady (s : State) (pa : Nat) : Bool :=
  match physAt s.bigMemory pa with
  | .main d => (s.dieWord d).getLsbD 48
  | .sram d => (s.dieWord d).getLsbD 49
  | .scratch g => (s.clusterWord g).getLsbD 32
  | .tcm c => (s.clusterWord (c / 32)).getLsbD (c % 32)
  | .device => true
  | .absent => false

/-! ## Who reaches what (R274) -/

/-- The agents that access memory. -/
inductive Agent where
  | hart (id : Nat) | engine (g : Nat) | dispatcher (die : Nat) | remote | endpoint
  deriving DecidableEq, Repr

/-- The agent reaches the memory at an address (R274). The dispatcher reads tables and descriptors, and the remote agent
performs accesses of the package: neither reaches a TCM. Harts and application cores alone reach the device registers (R402). -/
def reaches (a : Agent) (p : Phys) : Bool :=
  match p, a with
  | .absent, _ => false
  | .main _, _ => true
  | _, .endpoint => false
  | .tcm c, .hart id => id < firstAppCore && coreOf id == c
  | .tcm c, .engine g => c / 32 == g
  | .tcm _, _ => false
  | .device, .hart _ => true
  | .device, _ => false
  | _, _ => true

/-! ## Routes between dies (R362, R363) -/

/-- The two dies of a link: the ring links CD0–CD1, CD1–CD3, CD3–CD2 and CD2–CD0 in order, then the links of the compute dies to the
application die, which is 4. -/
def linkEnds (l : Nat) : Nat × Nat :=
  match l with
  | 0 => (0, 1)
  | 1 => (1, 3)
  | 2 => (3, 2)
  | 3 => (2, 0)
  | l => (l - 4, 4)

/-- The links of the package. -/
def linkCount : Nat := 8

/-- A link by its number. -/
def State.link (s : State) (l : Nat) : Link := Store.get Link.reset s.links l

/-- The READY bit of a link in the word of a die (R388): the link to the application die, then the ring links in order. -/
def linkBit (l : Nat) : Nat := if l < 4 then 52 + l else 51

/-- A link carries traffic: it is up, and its READY bit is set in the words of the compute dies at its ends. -/
def State.linkOpen (s : State) (l : Nat) : Bool :=
  let ready (d : Nat) : Bool := d == 4 || (s.dieWord d).getLsbD (linkBit l)
  (s.link l).up && ready (linkEnds l).1 && ready (linkEnds l).2

/-- What an access meets on its way: links that carry it; a link that is retraining, for which it waits; no route (R363). -/
inductive Route where
  | open' | waits | none
  deriving DecidableEq, Repr

/-- The way over the one link between two dies. -/
def State.crossing (s : State) (a b : Nat) : Route :=
  match (List.range linkCount).find? fun l => linkEnds l == (a, b) || linkEnds l == (b, a) with
  | none => .none
  | some l => if !s.linkOpen l then .none else if (s.link l).retraining then .waits else .open'

/-- The route between two dies (R362; notes/assumptions/32.md): over the link between them; between opposite dies of the ring over the
lower-numbered die whose two links are up. -/
def State.route (s : State) (a b : Nat) : Route :=
  if a = b then .open'
  else if (a = 0 ∧ b = 3) ∨ (a = 3 ∧ b = 0) ∨ (a = 1 ∧ b = 2) ∨ (a = 2 ∧ b = 1) then
    match [0, 1, 2, 3].find? fun d => s.crossing a d != .none && s.crossing d b != .none with
    | none => .none
    | some d => if s.crossing a d = .open' ∧ s.crossing d b = .open' then .open' else .waits
  else s.crossing a b

/-- The die of an agent: a hart's, a copy engine's or a dispatcher's own, the application die for the others. -/
def agentDie : Agent → Nat
  | .hart id => if id < firstAppCore then dieOf id else 4
  | .engine g => g / 4
  | .dispatcher d => d
  | _ => 4

/-- The die of memory; the device registers lie on the application die (notes/assumptions/32.md). -/
def memoryDie : Phys → Nat
  | .main d => d
  | .sram d => d
  | .scratch g => g / 4
  | .tcm c => c / 128
  | _ => 4

/-- The route from an agent to memory. -/
def State.routeTo (s : State) (a : Agent) (p : Phys) : Route := s.route (agentDie a) (memoryDie p)

/-! ## Migrating pages (R355, R356) -/

/-- The bytes of a migration size code. -/
def migrationBytes (size : Fin 4) : Nat := if size = 0 then 4096 else if size = 1 then 65536 else 2097152

/-- The home die of the page is moving it, or has moved it and still refuses: a request to the source is answered "moved". -/
def State.refusesMoved (s : State) (pa : Nat) : Bool :=
  s.migrations.any fun p =>
    (p.2.busy || p.2.done) && decide (p.2.src.toNat ≤ pa) && decide (pa < p.2.src.toNat + migrationBytes p.2.size)

/-! ## Poisoned lines (R378) -/

/-- The 64-byte line of an address is poisoned. -/
def State.poisoned (s : State) (pa : Nat) : Bool := Store.get false s.poison (pa / 64)

/-! ## Translation (R68, R276, R277, R353) -/

/-- The kinds of access; `probe` asks for the mapping alone, whatever a leaf permits (R248). -/
inductive Access where
  | fetch | load | store | probe
  deriving DecidableEq, Repr

/-- What translation answers: a physical address with its class (IO or idempotent, R277); a page fault; an access fault; or that the
access is to be tried again: the page's "moved" (R356), or a link that is retraining (R363). An access fault names a physical address
where it is a data error: a page table entry in a poisoned line (R378), or memory that no route reaches (R363). -/
inductive Xlate where
  | ok (pa : Nat) (io : Bool)
  | page
  | access (line : Option Nat)
  | moved
  deriving DecidableEq, Repr

/-- The physical address of a virtual address inside a fixed window that is enabled, and accessible from the mode (R65,
R276). -/
def windowOf (sp : Space) (va : Nat) : Option Nat :=
  let w := sp.swindow
  if sp.mode = .u ∧ w.getLsbD 4 = false then none
  else if w.getLsbD 0 ∧ 0x7F0000000000 ≤ va ∧ va < 0x7F0000040000 then some (tcmBase + sp.core * 0x40000 + (va - 0x7F0000000000))
  else if w.getLsbD 1 ∧ 0x7F0100000000 ≤ va ∧ va < 0x7F0101000000 then
    some (scratchBase + sp.core / 32 * 0x1000000 + (va - 0x7F0100000000))
  else if w.getLsbD 2 ∧ 0x7F0200000000 ≤ va ∧ va < 0x7F0204000000 then
    some (sramBase + sp.core / 128 * 0x4000000 + (va - 0x7F0200000000))
  else if w.getLsbD 3 ∧ 0x7F1000000000 ≤ va ∧ va < 0x7F1010000000 then some (scratchBase + (va - 0x7F1000000000))
  else none

/-- The leaf conditions of a page table entry for an access (Sv48, Svade, R353): permissions by mode, SUM and MXR, A set, and
D set for a store. -/
def leafAllows (sp : Space) (acc : Access) (pte : Word) : Bool :=
  let r := pte.getLsbD 1
  let w := pte.getLsbD 2
  let x := pte.getLsbD 3
  let user := pte.getLsbD 4
  let modeOk := match sp.mode with
    | .u => user
    | _ => !user || (sp.sum && acc != .fetch)
  let permOk := match acc with
    | .fetch => x
    | .store => w
    | _ => r || (sp.mxr && x)
  acc == .probe || (modeOk && permOk && pte.getLsbD 6 && (acc != .store || pte.getLsbD 7))

/-- The physical address and page-based memory type that a leaf at a level gives, or none where the entry is reserved: a
misaligned superpage, a PBMT of 3 (R277), or an N bit that names no 64 KiB range (Svnapot). -/
def leafTarget (level va : Nat) (pte : Word) : Option (Nat × Nat) :=
  let ppn := getField pte 10 44
  let span := 2 ^ (12 + 9 * level)
  let pbmt := getField pte 61 2
  if pbmt = 3 then none
  else if pte.getLsbD 63 then
    if level = 0 ∧ ppn % 16 = 8 then some (ppn / 16 * 65536 + va % 65536, pbmt) else none
  else if ppn * 4096 % span = 0 then some (ppn * 4096 + va % span, pbmt) else none

/-- The walk of a page table from a level down: the physical address and memory type, or the fault. An entry that cannot
be read is an access fault. -/
def walk (s : State) (agent : Agent) (sp : Space) (acc : Access) (va : Nat) : Nat → Nat → Xlate × Nat
  | 0, _ => (.page, 0)
  | level + 1, table =>
    let pa := table + va / 2 ^ (12 + 9 * level) % 512 * 8
    if !(reaches agent (physAt s.bigMemory pa) && s.memoryReady pa) || physAt s.bigMemory pa == .device then (.access none, 0)
    else if s.poisoned pa || s.routeTo agent (physAt s.bigMemory pa) == .none then (.access (some pa), 0)
    else if s.routeTo agent (physAt s.bigMemory pa) == .waits then (.moved, 0)
    else
      let pte : Word := BitVec.ofNat 64 (Memory.readNum s.memory pa 8)
      if !pte.getLsbD 0 || (!pte.getLsbD 1 && pte.getLsbD 2) || getField pte 54 7 != 0 then (.page, 0)
      else if pte.getLsbD 1 || pte.getLsbD 3 then
        match leafTarget level va pte with
        | none => (.page, 0)
        | some (pa, pbmt) => if leafAllows sp acc pte then (.ok pa false, pbmt) else (.page, 0)
      else if getField pte 61 3 != 0 || getField pte 4 1 != 0 || getField pte 6 2 != 0 then (.page, 0)
      else walk s agent sp acc va level (getField pte 10 44 * 4096)

/-- The levels of the page tables of a `satp` (R68): 4 for Sv48, and 3 for Sv39, which every hart with Sv48 supports. -/
def satpLevels (satp : Word) : Nat := if getField satp 60 4 = 8 then 3 else 4

/-- The physical address of a virtual address by the page tables alone, with its memory type: untranslated in M-mode and
while `satp` selects Bare. The address bits from the highest that is translated up are alike. -/
def pageTables (s : State) (agent : Agent) (sp : Space) (acc : Access) (va : Word) : Xlate × Nat :=
  if sp.mode = .m ∨ getField sp.satp 60 4 = 0 then (.ok va.toNat false, 0)
  else
    let levels := satpLevels sp.satp
    let top := va.toNat / 2 ^ (11 + 9 * levels)
    if top = 0 ∨ top = 2 ^ (53 - 9 * levels) - 1 then walk s agent sp acc va.toNat levels (getField sp.satp 0 44 * 4096)
    else (.page, 0)

/-- TRANSLATION of one address for an access: the window if there is one (data alone), else the page tables; then the
physical checks of R272, R274 and R388, and the class of R277. A fetch from the device range is an access fault. -/
def translate (s : State) (agent : Agent) (sp : Space) (acc : Access) (va : Word) : Xlate :=
  let r : Xlate × Nat := match (if acc = .fetch then none else windowOf sp va.toNat) with
    | some pa => (.ok pa false, 0)
    | none => pageTables s agent sp acc va
  match r with
  | (.ok pa _, pbmt) =>
    let p := physAt s.bigMemory pa
    if !(reaches agent p && s.memoryReady pa) then .access none
    else if p == .device && acc == .fetch then .access none
    else if s.routeTo agent p == .none then .access (some pa)
    else if s.routeTo agent p == .waits || s.refusesMoved pa then .moved
    else .ok pa (p == .device || pbmt == 2)
  | (other, _) => other

/-- The physical address that a virtual address is mapped to, permitted or not: no fault but a page fault where there is no valid
mapping, and `moved` where the tables cannot be read yet. -/
def mapping (s : State) (agent : Agent) (sp : Space) (va : Word) : Xlate :=
  match windowOf sp va.toNat with
  | some pa => .ok pa false
  | none => (pageTables s agent sp .probe va).1

/-- The space of the selected hart's own data accesses. -/
def State.dataSpace (s : State) : Space :=
  ⟨s.hart.csr.satp, s.hart.dataMode, s.hart.csr.sum, s.hart.csr.mxr, s.hart.csr.swindow, coreOf s.hartId⟩

/-- The space of the selected hart's fetches: its own mode, no window. -/
def State.fetchSpace (s : State) : Space :=
  ⟨s.hart.csr.satp, s.hart.mode, s.hart.csr.sum, s.hart.csr.mxr, 0#5, coreOf s.hartId⟩

/-- The selected hart as an agent. -/
def State.agent (s : State) : Agent := .hart s.hartId

end Sys2Proof.Machine
end

