-- ==== Sys2Proof/Machine/Devices.lean ====
section
/-!
DEFINITION. The error log and lifetime counters (R382, R383, R386), and the registers of the B7's own blocks in the device
range (R304 to R314, R352, R355, R357, R366, R367, R373, R374, R383, R388, R401, R402).
-/

namespace Sys2Proof.Machine

/-! ## Lifetime counters and the error log -/

/-- The key of a lifetime counter (R386): the record and an index within it. -/
def lifeKey (record index : Nat) : Nat := record * 2 ^ 56 + index

/-- The state with a lifetime counter advanced; counters saturate at 2^64 − 1 (R386). -/
def State.countLife (s : State) (record index : Nat) : State :=
  let k := lifeKey record index
  { s with lifeRam := Store.put 0 s.lifeRam k (min (Store.get 0 s.lifeRam k + 1) (2 ^ 64 - 1)) }

/-- The bank that record 1 counts an error of a line under (R386): of a channel of main memory, of a die SRAM, of a slice of a scratchpad
(R275), of a TCM. -/
def bankOf (big : Bool) (pa : Nat) : Nat :=
  match physAt big pa with
  | .main d => 2 ^ 22 + (d * 64 + (pa - d * mainPerDie big) / 256 % 48) * 256 + (Config.bankOf pa).val
  | .sram d => 2 ^ 23 + d * 256 + (Config.bankOf pa).val
  | .scratch g => 2 ^ 17 + g * 512 + pa % 0x1000000 / 0x80000 * 16 + pa / 8 % 16
  | .tcm c => 2 ^ 24 + c * 256 + (Config.bankOf pa).val
  | _ => 2 ^ 19

/-- The error log unit of a line (R383). -/
def unitOf (big : Bool) (pa : Nat) : Fin 32 :=
  match physAt big pa with
  | .main _ => 4
  | .sram _ => 3
  | .scratch _ => 2
  | .tcm _ => 1
  | _ => 7

/-- The index of a lane group in lifetime record 1. -/
def laneIndex (core g : Nat) : Nat := 2 ^ 20 + 8 * core + g

/-- The index that record 1 counts the errors of an LPDDR row under, for its repair (R385). -/
def rowIndex (pa : Nat) : Nat := 2 ^ 30 + Config.rowOf pa

/-- Stop every hart of a die and clear the die's READY bits, as an uncontained error does (R382). -/
def State.stopDie (s : State) (die : Nat) : State :=
  let stop (p : Nat × Hart) : Nat × Hart := if dieOf p.1 = die ∧ p.1 < firstAppCore then (p.1, { p.2 with live := false }) else p
  let others := (s.others.map stop)
  let others := others.foldl (fun m p => Store.put Hart.reset m p.1 p.2) []
  { s with
    hart := (stop (s.hartId, s.hart)).2
    others := others
    ready := [4 * die, 4 * die + 1, 4 * die + 2, 4 * die + 3, 16 + die].foldl (fun m k => Store.put 0#64 m k 0#64) s.ready }

/-- An entry of the ring. -/
def ErrorLog.entry (l : ErrorLog) (i : Nat) : Option LogEntry := Store.get none l.entries i

/-- The number of valid entries of the ring. -/
def ErrorLog.valid (l : ErrorLog) : Nat := l.entries.length

/-- The index of the oldest corrected entry, from HEAD on. -/
def ErrorLog.oldestCorrected (l : ErrorLog) : Option Nat :=
  (List.range 256).map (fun i => (l.head.toNat + i) % 256) |>.find? fun i =>
    match l.entry i with
    | some e => e.cls == 0
    | none => false

/-- The ring with an entry written at an index, the newest from then on. -/
def ErrorLog.write (l : ErrorLog) (i : Nat) (e : LogEntry) : ErrorLog :=
  { l with entries := Store.put none l.entries i (some e), newest := BitVec.ofNat 8 i }

/-- The log with an error in it, and whether an entry was written for it (R383): a corrected error of the unit and address of the newest
entry counts there; in a full ring a corrected error is dropped, and any other overwrites the oldest corrected entry, or is lost with OVF
set. -/
def ErrorLog.add (l : ErrorLog) (e : LogEntry) : ErrorLog × Bool :=
  let same := match l.entry l.newest.toNat with
    | some o => e.cls == 0 && o.unit == e.unit && o.addr == e.addr
    | none => false
  if same then
    ({ l with entries := Store.put none l.entries l.newest.toNat ((l.entry l.newest.toNat).map fun o => { o with count := o.count + 1 }) },
      false)
  else if l.valid < 256 then ({ l.write l.tail.toNat e with tail := l.tail + 1#8 }, true)
  else if e.cls = 0 then (l, false)
  else match l.oldestCorrected with
    | some i => (l.write i e, true)
    | none => ({ l with ovf := true }, false)

/-- Where an error was found: its unit and address in the log (R383), its place as `svtrap0` bits [29:15] are, and the index that
lifetime record 1 counts it under (R386). -/
structure ErrorSite where
  unit : Fin 32
  place : Nat
  addr : Nat
  index : Nat
  deriving DecidableEq, Repr

/-- An error in the line of a physical address. -/
def State.lineSite (s : State) (place pa : Nat) : ErrorSite := ⟨unitOf s.bigMemory pa, place, pa, bankOf s.bigMemory pa⟩

/-- An error in a register file of a hart, in a lane group. -/
def laneSite (id g : Nat) : ErrorSite := ⟨0, placeBits id g, 0, laneIndex (coreOf id) g⟩

/-- An error of a UCIe link, a root port or the on-chip network, which no bank holds. -/
def outsideSite (unit : Fin 32) (place addr : Nat) : ErrorSite := ⟨unit, place, addr, 2 ^ 40 - 32 + unit.val⟩

/-- A data error that an access to a physical address met: in a poisoned line, or on the way (R363). -/
def State.dataSite (s : State) (place pa : Nat) : ErrorSite := if s.poisoned pa then s.lineSite place pa else outsideSite 5 place pa

/-- The state with a detected error logged (R382, R383, R386): its entry; the count of its bank, and for main memory of its row; the
interrupt to the application cores for a contained or uncontained entry while IEN is set; and for an uncontained error the harts of the
die stopped. -/
def State.logError (s : State) (cls : Fin 4) (site : ErrorSite) : State :=
  let e : LogEntry :=
    ⟨cls, site.unit, BitVec.ofNat 15 (site.place / 2 ^ 15), BitVec.ofNat 64 (site.addr / 64 * 64), BitVec.ofNat 64 s.cycle, 1⟩
  let r := s.log.add e
  let s := { s with log := r.1 }
  let bad := if cls = 0 then 0 else 2 ^ 40
  let s := s.countLife 1 (bad + site.index)
  let s := if site.unit = 4 then s.countLife 1 (bad + rowIndex site.addr) else s
  let s := if r.2 && s.log.ien && cls != 0 then { s with appInterrupts := s.appInterrupts + 1 } else s
  if cls = 2 then s.stopDie (site.place / 2 ^ 28 % 4) else s

/-- The place, as `svtrap0` bits [29:15] show it, of a memory. -/
def memoryPlace : Phys → Nat
  | .main d => d % 4 * 2 ^ 28
  | .sram d => d % 4 * 2 ^ 28
  | .scratch g => g % 16 * 2 ^ 26
  | .tcm c => c % 512 * 2 ^ 21
  | _ => 0

/-- The state with a data error logged as contained that an agent met at an address, with the agent's place (R382). -/
def State.noteData (s : State) (place pa : Nat) : State := s.logError 1 (s.dataSite place pa)

/-- The state with a data error logged as contained that an agent at a place met on its way to the remote agent, which no route reaches
(R363, R382). -/
def State.noteNoRoute (s : State) (place : Nat) : State := s.logError 1 (outsideSite 5 place 0)

/-- The state with such an error logged where the line is poisoned. -/
def State.noteLine (s : State) (place pa : Nat) : State := if s.poisoned pa then s.noteData place pa else s

/-! ## Launch queues (R304 to R309) -/

/-- A launch queue by its number. -/
def State.queue (s : State) (q : Nat) : LaunchQueue := Store.get LaunchQueue.reset s.queues q

/-- The state with a launch queue at a value. -/
def State.setQueue (s : State) (q : Nat) (v : LaunchQueue) : State :=
  { s with queues := Store.put LaunchQueue.reset s.queues q v }

/-- The core belongs to the queue's dispatch set (R306). -/
def LaunchQueue.serves (q : LaunchQueue) (core : Nat) : Bool :=
  q.diemask.getLsbD (core / 128) && q.clmask.getLsbD (core / 32 % 4) && q.cores.getLsbD (core % 32)

/-- The cores of a queue's dispatch set, in ascending number (R306). -/
def LaunchQueue.dispatchSet (q : LaunchQueue) : List Nat := (List.range 512).filter q.serves

/-- The queue's dispatcher and at least one core of its set are ready (R307): the dispatcher of a core is its die's. -/
def State.queueReady (s : State) (q : LaunchQueue) : Bool :=
  q.dispatchSet.any fun c => s.coreReady c && (s.dieWord (c / 128)).getLsbD 50

/-- LQCTL (R305). -/
def LaunchQueue.ctl (q : LaunchQueue) : Word :=
  BitVec.ofNat 64 (q.flush.isSome.toNat * 128 + q.remote.toNat * 64 + q.umode.toNat * 32 + q.appc.toNat * 16
    + q.prio.val * 2 + q.enable.toNat)

/-- A write of LQCTL (R305, R309): FLUSH begins a discard of the records held at that moment. -/
def LaunchQueue.writeCtl (q : LaunchQueue) (w : Word) : LaunchQueue :=
  { q with
    flush := if w.getLsbD 7 then some q.records.length else q.flush
    remote := w.getLsbD 6
    umode := w.getLsbD 5
    appc := w.getLsbD 4
    prio := Fin.ofNat 4 (getField w 1 2)
    enable := w.getLsbD 0 }

/-- LQSET (R306). -/
def LaunchQueue.set (q : LaunchQueue) : Word :=
  BitVec.ofNat 64 (q.cores.toNat * 2 ^ 32 + q.clmask.toNat * 16 + q.diemask.toNat)

/-- A write of LQSET (R306). -/
def LaunchQueue.writeSet (q : LaunchQueue) (w : Word) : LaunchQueue :=
  { q with cores := w.extractLsb' 32 32, clmask := w.extractLsb' 4 4, diemask := w.extractLsb' 0 4 }

/-- LQSTAT (R307). -/
def State.lqStat (s : State) (q : LaunchQueue) : Word :=
  BitVec.ofNat 64 (q.nextSeq * 2 ^ 14 + (s.queueReady q).toNat * 2 ^ 11 + q.records.length)

/-! ## The slot report (R314) -/

/-- The launch that a hart runs. -/
def State.launchOf (s : State) (id : Nat) : Option Launch := s.launches.find? fun l => l.harts.contains id

/-- A register of a slot report (R314). -/
def State.slotReport (s : State) (id : Nat) : Word :=
  match s.launchOf id with
  | none => 0#64
  | some l =>
    BitVec.ofNat 64 (2 ^ 63 + (if l.scratch.2 = 0 then 0 else l.scratch.1) * 2 ^ 32 + (if l.tcm.2 = 0 then 0 else l.tcm.1))

/-! ## Service queues (R352) -/

/-- The service queue of a die. -/
def State.service (s : State) (d : Nat) : ServiceQueue := Store.get ServiceQueue.reset s.services d

/-- The state with a service queue at a value. -/
def State.setService (s : State) (d : Nat) (q : ServiceQueue) : State :=
  { s with services := Store.put ServiceQueue.reset s.services d q }

/-- A read of SVQ at offset 0 pops one record: its words stay readable at offsets 0x00 to 0x18 until the next pop. -/
def State.popService (s : State) (d : Nat) : State :=
  let q := s.service d
  s.setService d { q with current := q.records.head?, records := q.records.tail }

/-- The words of the record being read; all 0 when there is none, so that SEQ = 0 means empty. ASID stands in [63:48] and the
PC in [47:0] of the fourth (notes/assumptions/27.md). -/
def ServiceQueue.word (q : ServiceQueue) (i : Nat) : Word :=
  match q.current with
  | none => 0#64
  | some r =>
    match i with
    | 0 => r.req
    | 1 => r.seq
    | 2 => r.place
    | _ => putField r.pc 48 16 r.asid.toNat

/-- A write of SVTO delivers SVANS to the hart parked on a SEQ, which continues after its SVCALL with a0 holding the answer
(R247, R352); SVACK says whether it was delivered. -/
def State.deliver (s : State) (d : Nat) (seq : Word) : State :=
  let q := s.service d
  match s.allHarts.find? fun p => p.2.live && p.2.waiting == .service seq && dieOf p.1 == d with
  | none => s.setService d { q with ack := false }
  | some (id, h) =>
    let h := (h.setX 10 q.answer)
    (s.setHart id (h.goTo (h.pc + 4#64))).setService d { q with ack := true, records := q.records.filter (·.seq != seq) }

/-! ## Migration (R355) -/

/-- The migration block of a die. -/
def State.migration (s : State) (d : Nat) : Migration := Store.get Migration.reset s.migrations d

/-- The state with a migration block at a value. -/
def State.setMigration (s : State) (d : Nat) (m : Migration) : State :=
  { s with migrations := Store.put Migration.reset s.migrations d m }

/-- START begins a move; it is ignored while BUSY or DONE, and for operands the block does not define: the reserved size, or an
address not aligned to the size, or a page that is not in memory, the source in that of the die (notes/assumptions/28.md). The quiesce
of step 1 is whole: every access of the model has been applied when the move begins. -/
def State.startMigration (s : State) (d : Nat) : State :=
  let m := s.migration d
  let n := migrationBytes m.size
  let memory (pa : Nat) : Bool := physAt s.bigMemory pa != .device && physAt s.bigMemory pa != .absent
  let inDie := memory m.src.toNat && memoryDie (physAt s.bigMemory m.src.toNat) == d && memory m.dst.toNat
  if m.busy || m.done || m.size == 3 || m.src.toNat % n != 0 || m.dst.toNat % n != 0 || !inDie then s
  else s.setMigration d { m with busy := true }

/-- A wait on a barrier object in a page that has moved follows the object (R241, R242). -/
def Hart.follow (src dst n : Nat) (h : Hart) : Hart :=
  match h.waiting with
  | .barrier o released => if src ≤ o ∧ o < src + n then { h with waiting := .barrier (o - src + dst) released } else h
  | _ => h

/-- The route from the page of a move to the place it moves to carries traffic (R363): a move does not go on without one. -/
def State.migrationRoute (s : State) (d : Nat) : Bool :=
  let die (w : Word) : Nat := memoryDie (physAt s.bigMemory w.toNat)
  s.route (die (s.migration d).src) (die (s.migration d).dst) == .open'

/-- The copy of a move (R355): the bytes, the full-empty bits of the granules, and the poison of the lines (R378), then DONE. A write of
MIGSRC, MIGDST or SIZE while the page is moved changes the move (notes/assumptions/28.md). -/
def State.finishMigrationCopy (s : State) (d : Nat) : State :=
  let m := s.migration d
  if !m.busy || !s.migrationRoute d then s
  else
    let n := migrationBytes m.size
    let bytes := Memory.readBytes s.memory m.src.toNat n
    let bits := (List.range (n / 16)).map fun i => Store.get false s.fullEmpty (m.src.toNat / 16 + i)
    let full := (List.range (n / 16)).foldl
      (fun t i => if hasFullEmpty s.bigMemory (m.dst.toNat + 16 * i) then
        Store.put false t (m.dst.toNat / 16 + i) (bits.getD i false) else t) s.fullEmpty
    let poison := (List.range (n / 64)).foldl
      (fun t i => Store.put false t (m.dst.toNat / 64 + i) (s.poisoned (m.src.toNat + 64 * i))) s.poison
    let follow := Hart.follow m.src.toNat m.dst.toNat n
    { s with
      memory := Memory.writeBytes s.memory m.dst.toNat bytes
      fullEmpty := full
      poison := poison
      hart := follow s.hart
      others := s.others.map fun (p : Nat × Hart) => (p.1, follow p.2) }.setMigration d { m with busy := false, done := true }

/-- RELEASE ends the refusal at the source. -/
def State.releaseMigration (s : State) (d : Nat) : State := s.setMigration d { s.migration d with done := false }

/-- MIGCTL (R355). START reads 0 (notes/assumptions/28.md). -/
def Migration.ctl (m : Migration) : Word :=
  BitVec.ofNat 64 (m.size.val * 16 + m.done.toNat * 4 + m.busy.toNat * 2)

/-- A write of MIGCTL (R355). -/
def State.writeMigctl (s : State) (d : Nat) (w : Word) : State :=
  let s := s.setMigration d { s.migration d with size := Fin.ofNat 4 (getField w 4 2) }
  let s := if w.getLsbD 3 then s.releaseMigration d else s
  if w.getLsbD 0 then s.startMigration d else s

/-! ## The freeze block (R357) -/

/-- A register of a freeze block. -/
def Hart.freezeWord (h : Hart) : Word :=
  BitVec.ofNat 64 (h.frozen.toNat * 32 + h.freezeReq.toNat * 16 + h.freezeMax.toNat)

/-- A write of a freeze register: REQ and MAXLG; FROZEN and interrupt 16 end with the request (notes/assumptions/29.md). -/
def Hart.writeFreeze (h : Hart) (w : Word) : Hart :=
  let frozen := h.frozen && w.getLsbD 4
  { h with
    freezeReq := w.getLsbD 4, freezeMax := w.extractLsb' 0 4, frozen := frozen
    csr := if h.frozen && !frozen then { h.csr with mip := putField h.csr.mip 16 1 0 } else h.csr }

/-! ## Messages (R366, R370, R375) -/

/-- The device that a message goes to. -/
def Message.dev : Message → BitVec 21
  | .write _ d _ _ _ => d
  | .read _ d _ _ _ => d
  | .atomic _ d _ _ _ _ _ => d
  | .launch _ d _ _ _ => d
  | .ack _ d _ _ => d
  | .readData _ d _ => d
  | .resultAck _ d => d
  | .grant _ d _ _ _ => d
  | .grantAck _ d _ => d
  | .permitBack _ d _ _ => d

/-- What the remote agent finds in the route table for a device (R366): a way; a page that is being moved or a link that is retraining,
for which it waits; or a kind of fault. -/
inductive RouteEntry where
  | way (r : NetRoute)
  | waits
  | missing (kind : Nat)
  deriving DecidableEq, Repr

/-- The address of the entry of a device in the route table. -/
def State.routePlace (s : State) (dev : BitVec 21) : Nat := s.remote.rtbase.toNat + 8 * dev.toNat

/-- The entry of a device. An entry that is not VALID, one that cannot be reached and one whose root port is not up give no way; a
poisoned line, and memory that no route reaches, are a data error (notes/assumptions/17.md). -/
def State.routeEntry (s : State) (dev : BitVec 21) : RouteEntry :=
  let pa := s.routePlace dev
  let p := physAt s.bigMemory pa
  let w : Word := BitVec.ofNat 64 (Memory.readNum s.memory pa 8)
  let port : Fin 8 := Fin.ofNat 8 (getField w 60 3)
  if !(reaches .remote p && s.memoryReady pa) then .missing kindAccess
  else if s.poisoned pa || s.routeTo .remote p == .none then .missing kindDataError
  else if s.routeTo .remote p == .waits || s.refusesMoved pa then .waits
  else if w.getLsbD 63 && s.appWord.getLsbD port.val then .way ⟨port, w.extractLsb' 0 24⟩
  else .missing kindAccess

/-- The state with the data error that the read of the route table for a device meets logged, where it meets one (R382). -/
def State.noteRoute (s : State) (dev : BitVec 21) : State :=
  if s.routeEntry dev = .missing kindDataError then s.noteData (memoryPlace (physAt s.bigMemory (s.routePlace dev))) (s.routePlace dev) else s

/-- The way to a device, where there is one. -/
def State.netRoute (s : State) (dev : BitVec 21) : Option NetRoute :=
  match s.routeEntry dev with
  | .way r => some r
  | _ => none

/-- A message as it leaves: with its way, and the DEVNUM and BOOTGEN of this package. -/
def State.envelope (s : State) (m : Message) : Sent := ⟨s.netRoute m.dev, s.remote.devnum, s.remote.bootgen, m⟩

/-- A message leaves the package, or waits where the entry of its way cannot be read yet (R356, R363). -/
def State.send (s : State) (m : Message) : State :=
  if s.routeEntry m.dev = .waits then { s with remote := { s.remote with waiting := s.remote.waiting ++ [m] } }
  else
    let s := s.noteRoute m.dev
    { s with remote := { s.remote with outbox := s.remote.outbox ++ [s.envelope m] } }

/-- The state after what a message may have waited for has changed: those that wait leave in their order, or go on waiting. -/
def State.sendWaiting (s : State) : State :=
  s.remote.waiting.foldl State.send { s with remote := { s.remote with waiting := [] } }

/-! ## Permits and grants (R373, R374) -/

/-- The slots of a queue that are reserved for senders (R374). -/
def State.reservedSlots (s : State) (queue : Nat) : Nat :=
  (s.remote.reserved.filter (·.queue == queue)).foldl (fun n r => n + r.count) 0

/-- The free slots of a queue: a remote record occupies a slot reserved for its sender (R374). -/
def State.freeSlots (s : State) (queue : Nat) : Nat :=
  1024 - (((s.queue queue).records.filter fun r => r.sender.isNone).length + s.reservedSlots queue)

/-- A write of PGRANT reserves up to COUNT free slots of the queue for the sender and sends a grant for the number reserved. -/
def State.writePgrant (s : State) (w : Word) : State :=
  let dev := w.extractLsb' 0 21
  let queue := getField w 21 6
  let asid := w.extractLsb' 27 16
  let count := getField w 43 11
  let n := min count (s.freeSlots queue)
  let r := s.remote
  let msg := Message.grant r.nextReq dev queue asid n
  let reserved := if n = 0 then r.reserved else r.reserved ++ [⟨dev, queue, asid, n⟩]
  let transit := if n = 0 then r.transit else r.transit ++ [⟨dev, queue, asid, n⟩]
  { s with remote := { r with pgrant := n, reserved := reserved, transit := transit, nextReq := r.nextReq + 1 } }.send msg

/-- A remote window by its number. -/
def State.window (s : State) (w : Nat) : RemoteWindow := Store.get RemoteWindow.reset s.remote.windows w

/-- A permit entry by its number. -/
def State.permit (s : State) (i : Nat) : Permit := Store.get Permit.reset s.remote.permits i

/-! ## The ring of the error log (R383) -/

/-- A word of a ring entry. -/
def ErrorLog.word (l : ErrorLog) (i word : Nat) : Word :=
  match l.entry i with
  | none => 0#64
  | some e =>
    match word with
    | 0 => BitVec.ofNat 64 (2 ^ 63 + e.cls.val * 2 ^ 61 + e.unit.val * 2 ^ 56 + e.place.toNat * 2 ^ 15)
    | 1 => e.addr
    | 2 => e.cycle
    | _ => BitVec.ofNat 64 (min e.count (2 ^ 32 - 1))

/-- A write of ERRHEAD: the entries that software has passed hold no error any more (notes/assumptions/30.md). -/
def ErrorLog.writeHead (l : ErrorLog) (w : Word) : ErrorLog :=
  let head := w.extractLsb' 0 8
  let passed := (head - l.head).toNat
  let entries := (List.range passed).foldl (fun m i => Store.put none m ((l.head.toNat + i) % 256) none) l.entries
  { l with head := head, entries := entries }

/-! ## Registers by offset in the device range -/

/-- The registers of the B7's own blocks (R402). -/
inductive Reg where
  | lqctl (q : Nat) | lqset (q : Nat) | lqstat (q : Nat) | lqReserved
  | astbase
  | slot (id : Nat)
  | migsrc (d : Nat) | migdst (d : Nat) | migctl (d : Nat)
  | svq (d i : Nat) | svans (d : Nat) | svto (d : Nat) | svack (d : Nat)
  | freeze (id : Nat)
  | devid | rtbase | pgrant
  | rwbase (w : Nat) | rwlen (w : Nat) | rwctl (w : Nat)
  | permitHead (i : Nat) | permitCount (i : Nat)
  | errctl | errhead | errtail | ring (i word : Nat)
  | ready (k : Nat)
  deriving DecidableEq, Repr

/-- The register at an offset of the device range, a multiple of 8; none where no register lies. -/
def regAt (off : Nat) : Option Reg :=
  if off % 8 ≠ 0 then none
  else if 0x10000 ≤ off ∧ off < 0x11000 then
    let q := (off - 0x10000) / 0x40
    match off % 0x40 with
    | 0 => some (.lqctl q)
    | 8 => some (.lqset q)
    | 24 => some (.lqstat q)
    | _ => some .lqReserved
  else if off = 0x11000 then some .astbase
  else if 0x20000 ≤ off ∧ off < 0x28000 then some (.slot ((off - 0x20000) / 8))
  else if 0x30000 ≤ off ∧ off < 0x30100 then
    match off % 0x40 with
    | 0 => some (.migsrc ((off - 0x30000) / 0x40))
    | 8 => some (.migdst ((off - 0x30000) / 0x40))
    | 16 => some (.migctl ((off - 0x30000) / 0x40))
    | _ => none
  else if 0x40000 ≤ off ∧ off < 0x40400 then
    let d := (off - 0x40000) / 0x100
    let o := off % 0x100
    if o < 0x20 then some (.svq d (o / 8))
    else if o = 0x40 then some (.svans d)
    else if o = 0x48 then some (.svto d)
    else if o = 0x50 then some (.svack d)
    else none
  else if 0x50000 ≤ off ∧ off < 0x58000 then some (.freeze ((off - 0x50000) / 8))
  else if off = 0x60000 then some .devid
  else if off = 0x60008 then some .rtbase
  else if off = 0x60010 then some .pgrant
  else if 0x61000 ≤ off ∧ off < 0x63000 then
    match off % 0x20 with
    | 0 => some (.rwbase ((off - 0x61000) / 0x20))
    | 8 => some (.rwlen ((off - 0x61000) / 0x20))
    | 16 => some (.rwctl ((off - 0x61000) / 0x20))
    | _ => none
  else if 0x64000 ≤ off ∧ off < 0x68000 then
    if off % 16 = 0 then some (.permitHead ((off - 0x64000) / 16)) else some (.permitCount ((off - 0x64000) / 16))
  else if off = 0x70000 then some .errctl
  else if off = 0x70008 then some .errhead
  else if off = 0x70010 then some .errtail
  else if 0x70100 ≤ off ∧ off < 0x72100 then some (.ring ((off - 0x70100) / 32) (off / 8 % 4))
  else if 0x80000 ≤ off ∧ off < 0x80080 then some (.ready ((off - 0x80000) / 8))
  else if 0x80100 ≤ off ∧ off < 0x80120 then some (.ready (16 + (off - 0x80100) / 8))
  else if off = 0x80200 then some (.ready 20)
  else none

/-- The registers that only M and S modes reach (R304, R355, R366, R382, R401). -/
def Reg.privileged : Reg → Bool
  | .slot _ | .svq _ _ | .svans _ | .svto _ | .svack _ | .freeze _ | .ready _ => false
  | _ => true

/-- Word 0 bits of a permit entry that are kept (R373). -/
def permitMask : Word := 0x800007FFFFFFFFFF#64

/-- RWCTL bits that are kept (R367). -/
def rwctlMask : Word := 0x81FFFFFFFFFFFFFF#64

/-- A read of a register: the value, and the state with the read's side effect. -/
def readReg (s : State) : Reg → Word × State
  | .lqctl q => ((s.queue q).ctl, s)
  | .lqset q => ((s.queue q).set, s)
  | .lqstat q => (s.lqStat (s.queue q), s)
  | .lqReserved => (0#64, s)
  | .astbase => (s.astbase, s)
  | .slot id => (s.slotReport id, s)
  | .migsrc d => ((s.migration d).src, s)
  | .migdst d => ((s.migration d).dst, s)
  | .migctl d => ((s.migration d).ctl, s)
  | .svq d i =>
    let s := if i = 0 then s.popService d else s
    ((s.service d).word i, s)
  | .svans d => ((s.service d).answer, s)
  | .svto _ => (0#64, s)
  | .svack d => (BitVec.ofNat 64 (s.service d).ack.toNat, s)
  | .freeze id => ((s.getHart id).freezeWord, s)
  | .devid => (BitVec.ofNat 64 (s.remote.bootgen.toNat * 2 ^ 32 + s.remote.devnum.toNat), s)
  | .rtbase => (s.remote.rtbase, s)
  | .pgrant => (BitVec.ofNat 64 s.remote.pgrant, s)
  | .rwbase w => ((s.window w).base, s)
  | .rwlen w => ((s.window w).len, s)
  | .rwctl w => ((s.window w).ctl, s)
  | .permitHead i => ((s.permit i).head, s)
  | .permitCount i => ((s.permit i).count.setWidth 64, s)
  | .errctl => (BitVec.ofNat 64 (s.log.ovf.toNat * 2 + s.log.ien.toNat), s)
  | .errhead => (s.log.head.setWidth 64, s)
  | .errtail => (s.log.tail.setWidth 64, s)
  | .ring i w => (s.log.word i w, s)
  | .ready k => (Store.get 0#64 s.ready k, s)

/-- The state with the windows of the remote agent changed. -/
def State.setWindow (s : State) (w : Nat) (v : RemoteWindow) : State :=
  { s with remote := { s.remote with windows := Store.put RemoteWindow.reset s.remote.windows w v } }

/-- The state with a permit entry changed. -/
def State.setPermit (s : State) (i : Nat) (v : Permit) : State :=
  { s with remote := { s.remote with permits := Store.put Permit.reset s.remote.permits i v } }

/-- A write of a register: read-only registers and fields ignore it. -/
def writeReg (s : State) (r : Reg) (w : Word) : State :=
  match r with
  | .lqctl q => s.setQueue q ((s.queue q).writeCtl w)
  | .lqset q => s.setQueue q ((s.queue q).writeSet w)
  | .astbase => { s with astbase := w &&& 0x000FFFFFFFE00000#64 }
  | .migsrc d => (s.setMigration d { s.migration d with src := w }).sendWaiting
  | .migdst d => s.setMigration d { s.migration d with dst := w }
  | .migctl d => (s.writeMigctl d w).sendWaiting
  | .svans d => s.setService d { s.service d with answer := w }
  | .svto d => s.deliver d w
  | .freeze id => s.setHart id ((s.getHart id).writeFreeze w)
  | .devid => { s with remote := { s.remote with devnum := w.extractLsb' 0 21 } }
  | .rtbase => ({ s with remote := { s.remote with rtbase := w &&& 0x000FFFFFFF000000#64 } } : State).sendWaiting
  | .pgrant => s.writePgrant w
  | .rwbase i => s.setWindow i { s.window i with base := w &&& 0x000FFFFFFFFFF000#64 }
  | .rwlen i => s.setWindow i { s.window i with len := (w >>> 12) <<< 12 }
  | .rwctl i => s.setWindow i { s.window i with ctl := w &&& rwctlMask }
  | .permitHead i => s.setPermit i { s.permit i with head := w &&& permitMask }
  | .errctl => { s with log := { s.log with ovf := s.log.ovf && !w.getLsbD 1, ien := w.getLsbD 0 } }
  | .errhead => { s with log := s.log.writeHead w }
  | .lqstat _ | .lqReserved | .slot _ | .svq _ _ | .svack _ | .permitCount _ | .errtail | .ring _ _ | .ready _ => s

/-- What an access to the device range meets: a register of the B7; an access fault; or a PCIe window, whose device the spec
does not describe (R364). -/
inductive DeviceAt where
  | reg (r : Reg)
  | fault
  | pcie
  deriving DecidableEq, Repr

/-- The end of the registers of the B7's own blocks in the device range (R402). -/
def registersEnd : Nat := deviceBase + 0x100000000

/-- The device at a physical address for an access of `n` bytes in a mode (R402): the B7's registers answer single aligned
8-byte accesses alone, the privileged ones M and S modes alone; the windows of a root port answer once the port is up
(R364, R388); every other address is an access fault. -/
def deviceAt (s : State) (mode : Mode) (pa n : Nat) : DeviceAt :=
  if pa < registersEnd then
    if n ≠ 8 then .fault
    else match regAt (pa - deviceBase) with
      | none => .fault
      | some r => if r.privileged && mode == .u then .fault else .reg r
  else
    let port :=
      if 0xF100000000000 ≤ pa ∧ pa < 0xF100000000000 + 8 * 0x10000000 then some ((pa - 0xF100000000000) / 0x10000000)
      else if 0xF800000000000 ≤ pa ∧ pa < 0xF800000000000 + 8 * 0x10000000000 then
        some ((pa - 0xF800000000000) / 0x10000000000)
      else none
    match port with
    | none => .fault
    | some p => if s.appWord.getLsbD p then .pcie else .fault

end Sys2Proof.Machine
end

