-- ==== Sys2Proof/Machine/Access.lean ====
section
/-!
DEFINITION. Accesses: bytes at physical addresses, scalar loads and stores, element accesses of the vector side, full-empty
bits, and the fetch of control words through Isobar regions (R317 to R322).
-/

namespace Sys2Proof.Machine

/-! ## Writes -/

/-- A reservation overlaps a range of bytes. -/
def overlaps (r : Nat × Nat × Nat) (pa n : Nat) : Bool := decide (r.2.1 < pa + n) && decide (pa < r.2.1 + r.2.2)

/-- The state with bytes written at a physical address by an agent: a hart's write ends the reservations of other harts on
those bytes, any other agent's write those of every hart (R68). -/
def State.writeBytes (s : State) (owner : Option Nat) (pa : Nat) (bytes : List Byte) : State :=
  { s with
    memory := Memory.writeBytes s.memory pa bytes
    reservations := s.reservations.filter fun r => owner == some r.1 || !overlaps r pa bytes.length }

/-- The state with the full-empty bit of an address's granule at a value (R278). -/
def State.setFull (s : State) (pa : Nat) (v : Bool) : State :=
  { s with fullEmpty := Store.put false s.fullEmpty (pa / 16) v }

/-- The full-empty bit of an address's granule. -/
def State.full (s : State) (pa : Nat) : Bool := Store.get false s.fullEmpty (pa / 16)

/-- The state with the poison of every line cleared that a write has covered whole (R322, R378): `covers` names the bytes written. -/
def State.clearCovered (s : State) (covers : Nat → Bool) : State :=
  { s with poison := s.poison.filter fun p => !((List.range 64).all fun i => covers (p.1 * 64 + i)) }

/-- The bytes of a range that begins at an address. -/
def inRange (pa n a : Nat) : Bool := decide (pa ≤ a) && decide (a < pa + n)

/-! ## Scalar accesses -/

/-- What a scalar access answers: a value and the state after it; a precise exception; a page that is being moved, for which
the access waits (R356); or a device that the spec does not describe. -/
inductive Got where
  | ok (v : Nat) (s : State)
  | trap (cause : Nat)
  | wait
  | pcie (pa : Nat)
  deriving DecidableEq, Repr

/-- An address lies in the range of the B7's own device registers, where every access that is not one aligned access of 8 bytes is an
access fault (R402); the windows of the root ports lie above it (R364). -/
def inDevices (s : State) (agent : Agent) (sp : Space) (acc : Access) (va : Word) : Bool :=
  match translate s agent sp acc va with
  | .ok pa _ => physAt s.bigMemory pa == .device && decide (pa < registersEnd)
  | _ => false

/-- The cause of a misaligned scalar access: its address-misaligned exception, or an access fault among the device registers (R402). -/
def misalignedCause (s : State) (va : Word) (acc : Access) : Nat :=
  if inDevices s s.agent s.dataSpace acc va then (if acc = .store then causeStoreAccess else causeLoadAccess)
  else if acc = .store then causeStoreMisaligned else causeLoadMisaligned

/-- A scalar load of `n` bytes (R68, R276, R402): misaligned addresses trap (notes/assumptions/5.md); a poisoned line is an
access fault (R378). -/
def scalarLoad (s : State) (va : Word) (n : Nat) : Got :=
  if va.toNat % n ≠ 0 then .trap (misalignedCause s va .load)
  else match translate s s.agent s.dataSpace .load va with
    | .page => .trap causeLoadPage
    | .access _ => .trap causeLoadAccess
    | .moved => .wait
    | .ok pa _ =>
      if physAt s.bigMemory pa = .device then
        match deviceAt s s.hart.dataMode pa n with
        | .fault => .trap causeLoadAccess
        | .pcie => .pcie pa
        | .reg r => .ok (readReg s r).1.toNat (readReg s r).2
      else if s.poisoned pa then .trap causeLoadAccess
      else .ok (Memory.readNum s.memory pa n) s

/-- A scalar store of the low `n` bytes of a value. -/
def scalarStore (s : State) (va : Word) (n v : Nat) : Got :=
  if va.toNat % n ≠ 0 then .trap (misalignedCause s va .store)
  else match translate s s.agent s.dataSpace .store va with
    | .page => .trap causeStorePage
    | .access _ => .trap causeStoreAccess
    | .moved => .wait
    | .ok pa _ =>
      if physAt s.bigMemory pa = .device then
        match deviceAt s s.hart.dataMode pa n with
        | .fault => .trap causeStoreAccess
        | .pcie => .pcie pa
        | .reg r => .ok 0 (writeReg s r (BitVec.ofNat 64 v))
      else .ok 0 (s.writeBytes (some s.hartId) pa (byteList n v))

/-- The physical address of a scalar access to plain memory, of `n` aligned bytes: AMOs, reservations, control blocks and
barrier objects. The device range is an access fault (R402). -/
inductive Where where
  | ok (pa : Nat) (io : Bool)
  | trap (cause : Nat)
  | wait
  deriving DecidableEq, Repr

/-- The place of an aligned scalar access for a load or a store; `reads` says that it reads the bytes, which a poisoned line fails
(R378). -/
def scalarPlace (s : State) (va : Word) (n : Nat) (acc : Access) (reads : Bool) : Where :=
  let store := acc == .store
  if va.toNat % n ≠ 0 then .trap (misalignedCause s va acc)
  else match translate s s.agent s.dataSpace acc va with
    | .page => .trap (if store then causeStorePage else causeLoadPage)
    | .access _ => .trap (if store then causeStoreAccess else causeLoadAccess)
    | .moved => .wait
    | .ok pa io =>
      if physAt s.bigMemory pa = .device ∨ (reads ∧ s.poisoned pa) then .trap (if store then causeStoreAccess else causeLoadAccess)
      else .ok pa io

/-- The state in which a scalar access of the selected hart takes its exception at an address; a data error behind an access fault is
logged as contained (R378, R382). -/
def State.accessTrap (s : State) (cause : Nat) (va : Word) : State :=
  let line := match translate s s.agent s.dataSpace .load va with
    | .ok pa _ => if s.poisoned pa then some pa else none
    | .access line => line
    | _ => none
  let s := match line with
    | some pa =>
      if cause = causeLoadAccess ∨ cause = causeStoreAccess then s.logError 1 (s.dataSite (placeBits s.hartId 0) pa) else s
    | none => s
  s.takeTrap cause va

/-! ## Element accesses (R127, R378, R402) -/

/-- What an element access answers: a value and the state after it; a fault of a cause and a kind (R338); a wait, for the
full-empty bit of a granule (R132) or for a page that is being moved (R356); or a device that the spec does not describe. A data error names
the physical address where it lies. -/
inductive Elem where
  | ok (v : Nat) (s : State)
  | fault (cause kind : Nat) (line : Option Nat)
  | wait (granule : Option Nat)
  | pcie (pa : Nat)
  deriving DecidableEq, Repr

/-- The kind of a misaligned element access: misaligned, or access among the device registers (R402). -/
def kindUnaligned (s : State) (agent : Agent) (sp : Space) (acc : Access) (va : Word) : Nat :=
  if inDevices s agent sp acc va then kindAccess else kindMisaligned

/-- An element load of `n` bytes aligned to `align` in a space. `idem` demands idempotent memory. A full-empty qualifier waits
while the granule is empty, and `.fec` clears its bit. -/
def elemLoad (s : State) (agent : Agent) (sp : Space) (va : Word) (n align : Nat) (idem : Bool) (q : FeLoad) : Elem :=
  if va.toNat % align ≠ 0 then .fault 24 (kindUnaligned s agent sp .load va) none
  else match translate s agent sp .load va with
    | .page => .fault 24 kindPage none
    | .access line => .fault 24 (kindReach line) line
    | .moved => .wait none
    | .ok pa io =>
      if io && idem then .fault 24 kindIdempotence none
      else if q ≠ .plain ∧ hasFullEmpty s.bigMemory pa = false then .fault 24 kindFullEmpty none
      else if physAt s.bigMemory pa = .device then
        match deviceAt s sp.mode pa n with
        | .fault => .fault 24 kindAccess none
        | .pcie => .pcie pa
        | .reg r => .ok (readReg s r).1.toNat (readReg s r).2
      else if q ≠ .plain ∧ s.full pa = false then (if s.poisoned pa then .fault 30 2 (some pa) else .wait (some (pa / 16)))
      else if s.poisoned pa then .fault 24 kindDataError (some pa)
      else .ok (Memory.readNum s.memory pa n) (if q = .fec then s.setFull pa false else s)

/-- The agent whose reservations a write leaves: a hart's own (R68). -/
def Agent.owner : Agent → Option Nat
  | .hart id => some id
  | _ => none

/-- An element store of the low `n` bytes of a value: it answers the physical address. `fes` demands memory with full-empty bits; the
instruction sets the granule's bit with the last of its elements there (R132). -/
def elemStore (s : State) (agent : Agent) (sp : Space) (va : Word) (n align v : Nat) (idem fes : Bool) : Elem :=
  if va.toNat % align ≠ 0 then .fault 24 (kindUnaligned s agent sp .store va) none
  else match translate s agent sp .store va with
    | .page => .fault 24 kindPage none
    | .access line => .fault 24 (kindReach line) line
    | .moved => .wait none
    | .ok pa io =>
      if io && idem then .fault 24 kindIdempotence none
      else if fes ∧ hasFullEmpty s.bigMemory pa = false then .fault 24 kindFullEmpty none
      else if physAt s.bigMemory pa = .device then
        match deviceAt s sp.mode pa n with
        | .fault => .fault 24 kindAccess none
        | .pcie => .pcie pa
        | .reg r => .ok pa (writeReg s r (BitVec.ofNat 64 v))
      else .ok pa (s.writeBytes agent.owner pa (byteList n v))

/-- The indivisible read-modify-write of a memory byte by an element narrower than a byte (R129): the bits of the hole are
replaced. It covers a part of its line, and is performed in a poisoned one too (R378). `idem` and `fes` are as for `elemStore`. -/
def elemMerge (s : State) (agent : Agent) (sp : Space) (va : Word) (hole bits : Nat) (idem fes : Bool) : Elem :=
  match translate s agent sp .store va with
  | .page => .fault 24 kindPage none
  | .access line => .fault 24 (kindReach line) line
  | .moved => .wait none
  | .ok pa io =>
    if io && idem then .fault 24 kindIdempotence none
    else if fes ∧ hasFullEmpty s.bigMemory pa = false then .fault 24 kindFullEmpty none
    else if physAt s.bigMemory pa = .device then
      match deviceAt s sp.mode pa 1 with
      | .pcie => .pcie pa
      | _ => .fault 24 kindAccess none
    else
      let old := (Memory.readByte s.memory pa).toNat
      .ok pa (s.writeBytes agent.owner pa [BitVec.ofNat 8 (old &&& (255 ^^^ hole) ||| (bits &&& hole))])

/-! ## Fetching control words (R317 to R322) -/

/-- The address space that a translation of code is keyed by (R319): the ASID, or 65,536 where fetches are not translated. -/
def codeSpace (sp : Space) : Nat :=
  if sp.mode = .m ∨ getField sp.satp 60 4 = 0 then 65536 else getField sp.satp 44 16

/-- An instruction that ends a control region (R317). -/
def endsRegion : Option Instr → Bool
  | some (.rv64 r) => match r with
    | .branch _ _ _ _ | .jal _ _ | .jalr _ _ _ | .ecall | .ebreak | .mret | .wfi => true
    | _ => false
  | some .sret => true
  | some (.fenceI _ _ _) => true
  | some (.sfenceVma _ _) => true
  | _ => false

/-- The word at a physical address; none in a poisoned line (R322). -/
def codeWord (s : State) (pa n : Nat) : Option Word :=
  if s.poisoned pa then none else some (BitVec.ofNat 64 (Memory.readNum s.memory pa n))

/-- The words of a region from a physical address: to the first instruction that ends it, its 32nd instruction, or the last
word of the 4 KiB page. -/
def regionWords (s : State) : Nat → Nat → List (Option Word)
  | 0, _ => []
  | n + 1, pa =>
    let w := codeWord s pa 4
    let last := match w with
      | some w => endsRegion (decodeControl (w.setWidth 32))
      | none => false
    if last || (pa + 4) % 4096 == 0 then [w] else w :: regionWords s n (pa + 4)

/-- A translation that the core's cache holds (R319). -/
def State.cached (s : State) (va space : Nat) (block : Bool) : Option Translation :=
  (s.core (coreOf s.hartId)).tc.find? fun t => t.va == va && t.space == space && t.block == block

/-- The state with a translation put into the core's cache, which holds up to 4,096: the oldest leaves (R319). -/
def State.cache (s : State) (t : Translation) : State :=
  let c := s.core (coreOf s.hartId)
  s.setCore (coreOf s.hartId) { c with tc := (t :: c.tc).take 4096 }

/-- What the fetch of the word at the pc answers. -/
inductive Fetched where
  | word (w : BitVec 32) (s : State)
  | trap (cause : Nat)
  | wait
  deriving DecidableEq, Repr

/-- The fetch of the control thread's next word: the next word of the region it is in; otherwise a region begins at the pc,
from the cache or by reading memory. The state answered stands in the region at the word. A poisoned line is an
instruction access fault at the first word in it (R322). -/
def fetchWord (s : State) : Fetched :=
  match s.hart.region with
  | some ⟨rpc, some w :: _⟩ => if rpc = s.hart.pc then .word w s else enter s
  | some ⟨rpc, none :: _⟩ => if rpc = s.hart.pc then .trap causeFetchAccess else enter s
  | _ => enter s
where
  /-- The first word of a region, with the region entered. -/
  take (s : State) (ws : List (Option Word)) : Fetched :=
    match ws with
    | some w :: _ =>
      .word (w.setWidth 32)
        { s with hart := { s.hart with region := some ⟨s.hart.pc, ws.map (·.map (·.setWidth 32))⟩ } }
    | _ => .trap causeFetchAccess
  /-- A region begins at the pc. -/
  enter (s : State) : Fetched :=
    match translate s s.agent s.fetchSpace .fetch s.hart.pc with
    | .page => .trap causeFetchPage
    | .access _ => .trap causeFetchAccess
    | .moved => .wait
    | .ok pa _ =>
      let space := codeSpace s.fetchSpace
      match s.cached s.hart.pc.toNat space false with
      | some t => take s t.words
      | none => take (s.cache ⟨s.hart.pc.toNat, space, false, pa, regionWords s 32 pa⟩) (regionWords s 32 pa)

/-- The state in which the fetch of the control thread takes its exception (R322): a data error behind an access fault is logged as
contained, and a poisoned code line is counted (R382, R386). -/
def State.fetchTrap (s : State) (cause : Nat) : State :=
  let line := match translate s s.agent s.fetchSpace .fetch s.hart.pc with
    | .ok pa _ => if s.poisoned pa then some pa else none
    | .access line => line
    | _ => none
  let s := match line with
    | some pa =>
      if cause = causeFetchAccess then
        let s := s.logError 1 (s.dataSite (placeBits s.hartId 0) pa)
        if s.poisoned pa then s.countLife 5 (2 ^ 16) else s
      else s
    | none => s
  s.takeTrap cause s.hart.pc

end Sys2Proof.Machine
end

