-- ==== Sys2Proof/Machine/Float.lean ====
section
/-!
DEFINITION. Number values, rounding and arithmetic (R18 to R37, R105 to R111): exact values, their decoding from patterns, one
rounding to a format with its flags, and the operations on them.
-/

namespace Sys2Proof

/-! ## Flags (R37) -/

/-- The five exception flags: NV DZ OF UF NX from bit 4 down, as in `vxflags`. -/
abbrev Flags := BitVec 5

/-- Inexact. -/
def flagNX : Flags := 1#5
/-- Underflow. -/
def flagUF : Flags := 2#5
/-- Overflow. -/
def flagOF : Flags := 4#5
/-- Divide by zero. -/
def flagDZ : Flags := 8#5
/-- Invalid operation. -/
def flagNV : Flags := 16#5

/-- A flag, where a condition holds. -/
def flagIf (c : Bool) (f : Flags) : Flags := if c then f else 0#5

/-- NV, DZ or OF is among the flags: the bit that `.x` writes (R39). -/
def Flags.severe (f : Flags) : Bool := f &&& (flagNV ||| flagDZ ||| flagOF) != 0#5

/-! ## Values -/

/-- A number: NaN (signalling or not), an infinity, or the exact value (−1)^neg × m × 2^e. -/
inductive Num where
  | nan (signalling : Bool)
  | inf (neg : Bool)
  | fin (neg : Bool) (m : Nat) (e : Int)
  deriving DecidableEq, Repr

/-- A zero of a sign. -/
def Num.zero (neg : Bool) : Num := .fin neg 0 0

/-- The number of an integer. -/
def Num.ofInt (i : Int) : Num := .fin (decide (i < 0)) i.natAbs 0

/-- A zero. -/
def Num.isZero : Num → Bool
  | .fin _ 0 _ => true
  | _ => false

/-- NaN. -/
def Num.isNaN : Num → Bool
  | .nan _ => true
  | _ => false

/-- A signalling NaN. -/
def Num.isSignalling : Num → Bool
  | .nan s => s
  | _ => false

/-- The value with its sign inverted; a NaN stays. -/
def Num.neg : Num → Num
  | .nan s => .nan s
  | .inf n => .inf (!n)
  | .fin n m e => .fin (!n) m e

/-- The value times a power of two. -/
def Num.scale (x : Num) (k : Int) : Num :=
  match x with
  | .fin n m e => .fin n m (e + k)
  | x => x

/-- The signed integer of a mantissa at an exponent not above its own. -/
def signedAt (neg : Bool) (m : Nat) (e low : Int) : Int :=
  let v : Int := ((m <<< (e - low).toNat : Nat) : Int)
  if neg then -v else v

/-! ## Layouts of the floating-point formats (R18) -/

/-- Which special encodings a floating-point format has. -/
inductive Specials where
  | ieee | nanOnly | none
  deriving DecidableEq, Repr

/-- The layout of a floating-point format: exponent and mantissa bits, ignored low bits, and special encodings. -/
structure FloatLayout where
  ebits : Nat
  mbits : Nat
  low : Nat
  specials : Specials
  deriving DecidableEq, Repr

/-- The layout of a format of the set FS; fp64's for any other. -/
def Fmt.layout : Fmt → FloatLayout
  | .fp32 => ⟨8, 23, 0, .ieee⟩
  | .e8m10 => ⟨8, 10, 13, .ieee⟩
  | .fp16 => ⟨5, 10, 0, .ieee⟩
  | .e8m7 => ⟨8, 7, 0, .ieee⟩
  | .e5m2 => ⟨5, 2, 0, .ieee⟩
  | .e4m3 => ⟨4, 3, 0, .nanOnly⟩
  | .e3m2 => ⟨3, 2, 0, .none⟩
  | .e2m3 => ⟨2, 3, 0, .none⟩
  | .e2m1 => ⟨2, 1, 0, .none⟩
  | _ => ⟨11, 52, 0, .ieee⟩

/-- The exponent bias. -/
def FloatLayout.bias (l : FloatLayout) : Int := 2 ^ (l.ebits - 1) - 1

/-- The exponent of the smallest normal number. -/
def FloatLayout.emin (l : FloatLayout) : Int := 1 - l.bias

/-- The exponent of the last mantissa bit of a subnormal. -/
def FloatLayout.qmin (l : FloatLayout) : Int := l.emin - l.mbits

/-- The code of the largest finite magnitude: the exponent and mantissa fields together. -/
def FloatLayout.maxCode (l : FloatLayout) : Nat :=
  match l.specials with
  | .ieee => (2 ^ l.ebits - 1) * 2 ^ l.mbits - 1
  | .nanOnly => 2 ^ (l.ebits + l.mbits) - 2
  | .none => 2 ^ (l.ebits + l.mbits) - 1

/-- A pattern of the format from its sign and the exponent and mantissa fields together. -/
def FloatLayout.pattern (l : FloatLayout) (neg : Bool) (code : Nat) : Nat :=
  (neg.toNat * 2 ^ (l.ebits + l.mbits) + code) * 2 ^ l.low

/-- The pattern of infinity, where the format has one. -/
def FloatLayout.infinity (l : FloatLayout) (neg : Bool) : Nat := l.pattern neg ((2 ^ l.ebits - 1) * 2 ^ l.mbits)

/-- The pattern of the largest finite magnitude of a sign. -/
def FloatLayout.maxFinite (l : FloatLayout) (neg : Bool) : Nat := l.pattern neg l.maxCode

/-- The canonical NaN (R18); for a format without NaN what R33 gives for one, the positive maximum. -/
def FloatLayout.canonicalNaN (l : FloatLayout) : Nat :=
  match l.specials with
  | .ieee => l.pattern false ((2 ^ l.ebits - 1) * 2 ^ l.mbits + 2 ^ (l.mbits - 1))
  | .nanOnly => l.pattern false (2 ^ (l.ebits + l.mbits) - 1)
  | .none => l.maxFinite false

/-- The value of a pattern (R18, R19). -/
def FloatLayout.decode (l : FloatLayout) (bits : Nat) : Num :=
  let b := bits / 2 ^ l.low
  let neg := b / 2 ^ (l.ebits + l.mbits) % 2 == 1
  let ef := b / 2 ^ l.mbits % 2 ^ l.ebits
  let mf := b % 2 ^ l.mbits
  let special := match l.specials with
    | .ieee => ef == 2 ^ l.ebits - 1
    | .nanOnly => ef == 2 ^ l.ebits - 1 && mf == 2 ^ l.mbits - 1
    | .none => false
  if special then
    (match l.specials with
      | .ieee => if mf == 0 then .inf neg else .nan (mf / 2 ^ (l.mbits - 1) % 2 == 0)
      | _ => .nan false)
  else if ef == 0 then .fin neg mf l.qmin
  else .fin neg (mf + 2 ^ l.mbits) (l.qmin + (ef - 1 : Nat))

/-- A pattern with the ignored bits of its slot written as zero (R17, R18). -/
def Fmt.clean (f : Fmt) (bits : Nat) : Nat :=
  let l := f.layout
  if f.isFS then bits / 2 ^ l.low % 2 ^ (1 + l.ebits + l.mbits) * 2 ^ l.low else bits

/-- The position of the sign bit (R18). -/
def Fmt.signPos (f : Fmt) : Nat := f.layout.ebits + f.layout.mbits + f.layout.low

/-! ## Rounding (R29, R30) -/

/-- A rounding mode in force: `vrm` has supplied DYN's. -/
inductive Rounding where
  | rne | rtz | rdn | rup | rmm | sr
  deriving DecidableEq, Repr

/-- The mode that `vrm` holds (R31). -/
def Rounding.ofVrm (v : Fin 6) : Rounding :=
  match v with
  | 0 => .rne
  | 1 => .rtz
  | 2 => .rdn
  | 3 => .rup
  | 4 => .rmm
  | 5 => .sr

/-- The mode of an `rm` field, DYN's from `vrm`. -/
def Rm.resolve (r : Rm) (vrm : Fin 6) : Rounding :=
  match r with
  | .rne => .rne
  | .rtz => .rtz
  | .rdn => .rdn
  | .rup => .rup
  | .rmm => .rmm
  | .sr => .sr
  | .dyn => .ofVrm vrm

/-- How an operation rounds: the mode, the 16-bit integer for SR, and saturation. -/
structure RoundCtx where
  mode : Rounding
  draw : BitVec 16
  sat : Bool
  deriving DecidableEq, Repr

/-- Nearest, ties to even, without saturation: what needs no draw. -/
def RoundCtx.nearest : RoundCtx := ⟨.rne, 0#16, false⟩

/-- A magnitude m × 2^e as a whole number of steps 2^q, rounded, and whether that was inexact. -/
def roundSteps (mode : Rounding) (draw : BitVec 16) (neg : Bool) (m : Nat) (e q : Int) : Nat × Bool :=
  if q ≤ e then (m <<< (e - q).toNat, false)
  else
    let k := (q - e).toNat
    let lo := m >>> k
    let rem := m % 2 ^ k
    let up := match mode with
      | .rne => decide (2 ^ k < 2 * rem) || (2 * rem == 2 ^ k && lo % 2 == 1)
      | .rtz => false
      | .rdn => neg && rem != 0
      | .rup => !neg && rem != 0
      | .rmm => decide (2 ^ k ≤ 2 * rem)
      | .sr => rem != 0 && decide (65536 ≤ rem * 65536 / 2 ^ k + draw.toNat)
    (lo + up.toNat, rem != 0)

/-- The exponent of the leading bit of a nonzero magnitude. -/
def leadExp (m : Nat) (e : Int) : Int := e + Nat.log2 m

/-- Comparison of two magnitudes. -/
def magLt (m : Nat) (e : Int) (m' : Nat) (e' : Int) : Bool :=
  let lo := min e e'
  decide (m <<< (e - lo).toNat < m' <<< (e' - lo).toNat)

/-- IEEE 754 gives an infinity on overflow under the mode. -/
def overflowsToInf (mode : Rounding) (neg : Bool) : Bool :=
  match mode with
  | .rne | .rmm | .sr => true
  | .rtz => false
  | .rdn => neg
  | .rup => !neg

/-- ROUND: a value delivered in a floating-point format with its flags (R19, R29 to R34). -/
def FloatLayout.round (l : FloatLayout) (c : RoundCtx) (x : Num) : Nat × Flags :=
  match x with
  | .nan s =>
    match l.specials with
    | .none => (l.maxFinite false, flagNV)
    | _ => (l.canonicalNaN, flagIf s flagNV)
  | .inf neg =>
    match l.specials with
    | .ieee => (l.infinity neg, 0#5)
    | .nanOnly => if c.sat then (l.maxFinite neg, flagOF ||| flagNX) else (l.canonicalNaN, flagOF ||| flagNX)
    | .none => (l.maxFinite neg, flagOF ||| flagNX)
  | .fin neg m e =>
    if m = 0 then (l.pattern neg 0, 0#5)
    else
      let maxM := l.maxCode % 2 ^ l.mbits + 2 ^ l.mbits
      let maxE : Int := l.qmin + (l.maxCode / 2 ^ l.mbits - 1 : Nat)
      let mode := if c.mode = .sr ∧ magLt maxM maxE m e then .rne else c.mode
      let free := leadExp m e - l.mbits
      let q := max free l.qmin
      let (r, inexact) := roundSteps mode c.draw neg m e q
      if magLt maxM maxE r q then
        let special := overflowsToInf mode neg && !c.sat
        let bits := match l.specials with
          | .ieee => if special then l.infinity neg else l.maxFinite neg
          | .nanOnly => if special then l.canonicalNaN else l.maxFinite neg
          | .none => l.maxFinite neg
        (bits, flagOF ||| flagNX)
      else
        let tiny :=
          if mode = .sr then r != 0 && decide (q = l.qmin) && decide (r < 2 ^ l.mbits)
          else
            let (r', _) := roundSteps mode c.draw neg m e free
            magLt r' free (2 ^ l.mbits) l.qmin
        let code := (q - l.qmin).toNat * 2 ^ l.mbits + r
        (l.pattern neg code, flagIf inexact flagNX ||| flagIf (inexact && tiny) flagUF)

/-- A finite value rounded to an integer, and whether that was inexact (R33, R102). -/
def roundInt (c : RoundCtx) (neg : Bool) (m : Nat) (e : Int) : Int × Bool :=
  let (r, inexact) := roundSteps c.mode c.draw neg m e 0
  (if neg then -(r : Int) else r, inexact)

/-! ## Integers (R20, R36) -/

/-- The least value of an integer format. -/
def Fmt.intMin (f : Fmt) : Int := if f.signed then -(2 ^ (f.slot - 1)) else 0

/-- The greatest value of an integer format. -/
def Fmt.intMax (f : Fmt) : Int := if f.signed then 2 ^ (f.slot - 1) - 1 else 2 ^ f.slot - 1

/-- The integer of a pattern. -/
def Fmt.toInt (f : Fmt) (bits : Nat) : Int :=
  let b := bits % 2 ^ f.slot
  if f.signed && decide (2 ^ (f.slot - 1) ≤ b) then (b : Int) - 2 ^ f.slot else b

/-- The pattern of an integer modulo 2^w. -/
def wrapInt (w : Nat) (v : Int) : Nat := (v % (2 ^ w : Int)).toNat

/-- An integer clamped to a range. -/
def clampInt (lo hi v : Int) : Int := max lo (min hi v)

/-- An integer result: wrapped, or clamped under `.sat` (R36). -/
def Fmt.putInt (f : Fmt) (sat : Bool) (v : Int) : Nat :=
  wrapInt f.slot (if sat then clampInt f.intMin f.intMax v else v)

/-! ## Decoding and delivering any format (R20, R21, R33) -/

/-- The exponent of an e8m0 scale byte; none for NaN (R20). -/
def scaleExp (s : Byte) : Option Int := if s = 255#8 then none else some ((s.toNat : Int) - 127)

/-- The value of a pattern: a floating-point format, an integer format, or a scaled format under its scale byte (R18, R20, R21). An element
that a scale of 0xFF makes NaN, a signalling NaN among them, is a quiet NaN and raises no NV (notes/assumptions/40.md). -/
def Fmt.value (f : Fmt) (bits : Nat) (s : Byte) : Num :=
  if f.scaled then
    match scaleExp s with
    | none => .nan false
    | some k =>
      let x := match f with
        | .mxi8 => (Num.ofInt (Fmt.i8.toInt bits)).scale (-6)
        | .bxi4 | .bxi2 => Num.ofInt (f.element.toInt bits)
        | _ => f.element.layout.decode bits
      x.scale k
  else if f.isInt then Num.ofInt (f.toInt bits)
  else f.layout.decode bits

/-- A value converted to an integer element of a scaled format, in steps of 2^step and a range (R33). The largest finite magnitude of SR
(R30) is the end of the range on the value's own side: −8 against 7 (notes/assumptions/40.md). -/
def roundElement (c : RoundCtx) (w : Nat) (step : Int) (lo hi : Int) (x : Num) : Nat × Flags :=
  match x with
  | .nan _ => (wrapInt w hi, flagNV)
  | .inf neg => (wrapInt w (if neg then lo else hi), flagOF ||| flagNX)
  | .fin neg m e =>
    let e := e - step
    let bound : Nat := if neg then (-lo).toNat else hi.toNat
    let c := if c.mode = .sr ∧ magLt bound 0 m e then { c with mode := .rne } else c
    let (v, inexact) := roundInt c neg m e
    if v < lo ∨ hi < v then (wrapInt w (clampInt lo hi v), flagOF ||| flagNX)
    else (wrapInt w v, flagIf inexact flagNX ||| flagIf (inexact && magLt m e 1 0) flagUF)

/-- A value converted into a format of FS or SC, under a scale byte where the format is scaled (R21, R32, R33, R109). -/
def Fmt.deliver (f : Fmt) (c : RoundCtx) (s : Byte) (x : Num) : Nat × Flags :=
  let x := if f.scaled then (match scaleExp s with | none => .nan false | some k => x.scale (-k)) else x
  match f with
  | .mxi8 => roundElement c 8 (-6) (-127) 127 x
  | .bxi4 => roundElement c 4 0 (-8) 7 x
  | .bxi2 => roundElement c 2 0 (-2) 1 x
  | f => f.element.layout.round c x

/-- A value converted to an integer format (R33, fcvti); beyond its range SR rounds as RNE (R30). -/
def Fmt.deliverInt (f : Fmt) (c : RoundCtx) (x : Num) : Nat × Flags :=
  match x with
  | .nan _ => (wrapInt f.slot f.intMax, flagNV)
  | .inf neg => (wrapInt f.slot (if neg then f.intMin else f.intMax), flagNV)
  | .fin neg m e =>
    let bound : Nat := if neg then (-f.intMin).toNat else f.intMax.toNat
    let c := if c.mode = .sr ∧ magLt bound 0 m e then { c with mode := .rne } else c
    let (v, inexact) := roundInt c neg m e
    if v < f.intMin ∨ f.intMax < v then (wrapInt f.slot (clampInt f.intMin f.intMax v), flagNV)
    else (wrapInt f.slot v, flagIf inexact flagNX)

/-! ## Exact operations (R105) -/

/-- The exact sum, and NV for ∞ − ∞; an exact zero of opposite addends is −0 under RDN alone. -/
def Num.add (mode : Rounding) (x y : Num) : Num × Flags :=
  match x, y with
  | .nan _, _ | _, .nan _ => (.nan false, 0#5)
  | .inf a, .inf b => if a = b then (.inf a, 0#5) else (.nan false, flagNV)
  | .inf a, _ => (.inf a, 0#5)
  | _, .inf b => (.inf b, 0#5)
  | .fin a m e, .fin b n f =>
    let lo := min e f
    let t := signedAt a m e lo + signedAt b n f lo
    if t ≠ 0 then (.fin (decide (t < 0)) t.natAbs lo, 0#5)
    else if m = 0 ∧ n = 0 ∧ a = b then (Num.zero a, 0#5)
    else (Num.zero (mode == .rdn), 0#5)

/-- The exact product, and NV for 0 × ∞. -/
def Num.mul (x y : Num) : Num × Flags :=
  match x, y with
  | .nan _, _ | _, .nan _ => (.nan false, 0#5)
  | .inf a, .inf b => (.inf (a != b), 0#5)
  | .inf a, .fin b n _ => if n = 0 then (.nan false, flagNV) else (.inf (a != b), 0#5)
  | .fin a m _, .inf b => if m = 0 then (.nan false, flagNV) else (.inf (a != b), 0#5)
  | .fin a m e, .fin b n f => (.fin (a != b) (m * n) (e + f), 0#5)

/-- The quotient with its last bit standing for everything below it, far below any format's precision; NV for 0 ÷ 0 and
∞ ÷ ∞, DZ for a finite nonzero value by zero. -/
def Num.div (x y : Num) : Num × Flags :=
  match x, y with
  | .nan _, _ | _, .nan _ => (.nan false, 0#5)
  | .inf _, .inf _ => (.nan false, flagNV)
  | .inf a, .fin b _ _ => (.inf (a != b), 0#5)
  | .fin a _ _, .inf b => (Num.zero (a != b), 0#5)
  | .fin a m e, .fin b n f =>
    if n = 0 then (if m = 0 then (.nan false, flagNV) else (.inf (a != b), flagDZ))
    else
      let k := 128 + Nat.log2 n
      let big := m <<< k
      (.fin (a != b) (2 * (big / n) + (if big % n = 0 then 0 else 1)) (e - f - (k + 1 : Nat)), 0#5)

/-- The integer square root of a number below 4^n, bit by bit. -/
def isqrt (m : Nat) : Nat → Nat → Nat
  | 0, r => r
  | i + 1, r => isqrt m i (if (r + 2 ^ i) * (r + 2 ^ i) ≤ m then r + 2 ^ i else r)

/-- The square root with its last bit standing for everything below it; NV below −0. -/
def Num.sqrt (x : Num) : Num × Flags :=
  match x with
  | .nan _ => (.nan false, 0#5)
  | .inf neg => if neg then (.nan false, flagNV) else (.inf false, 0#5)
  | .fin neg m e =>
    if m = 0 then (x, 0#5)
    else if neg then (.nan false, flagNV)
    else
      let k := 160 + (e % 2).toNat
      let big := m <<< k
      let r := isqrt big 110 0
      (.fin false (2 * r + (if r * r = big then 0 else 1)) ((e - k) / 2 - 1), 0#5)

/-- A × B + C with NV for 0 × ∞ whatever C is. -/
def Num.fma (mode : Rounding) (a b c : Num) : Num × Flags :=
  let p := a.mul b
  let s := p.1.add mode c
  (s.1, p.2 ||| s.2)

/-- NV where an operand is a signalling NaN (R19). -/
def signalling (xs : List Num) : Flags := flagIf (xs.any Num.isSignalling) flagNV

/-- The order of two values that are not NaN, −0 equal to +0. -/
def Num.cmp (x y : Num) : Ordering :=
  match x, y with
  | .inf a, .inf b => if a = b then .eq else if a then .lt else .gt
  | .inf a, _ => if a then .lt else .gt
  | _, .inf b => if b then .gt else .lt
  | .fin a m e, .fin b n f => compare (signedAt a m e (min e f)) (signedAt b n f (min e f))
  | _, _ => .eq

/-- The sign bit of a value. -/
def Num.isNeg : Num → Bool
  | .nan _ => false
  | .inf n => n
  | .fin n _ _ => n

/-- The order with −0 below +0 (R106). -/
def Num.cmpSigned (x y : Num) : Ordering :=
  match x.cmp y with
  | .eq => if x.isZero && y.isZero then compare y.isNeg.toNat x.isNeg.toNat else .eq
  | o => o

/-! ## Floating-point instructions on patterns (R35, R105 to R108, R111) -/

/-- An operation's exact result rounded into a format, with its flags. -/
def Fmt.finish (f : Fmt) (c : RoundCtx) (xs : List Num) (r : Num × Flags) : Nat × Flags :=
  let d := f.layout.round c r.1
  (d.1, signalling xs ||| r.2 ||| d.2)

/-- FADD. -/
def Fmt.fadd (f : Fmt) (c : RoundCtx) (a b : Nat) : Nat × Flags :=
  let x := f.layout.decode a
  let y := f.layout.decode b
  f.finish c [x, y] (x.add c.mode y)

/-- FSUB. -/
def Fmt.fsub (f : Fmt) (c : RoundCtx) (a b : Nat) : Nat × Flags :=
  let x := f.layout.decode a
  let y := f.layout.decode b
  f.finish c [x, y] (x.add c.mode y.neg)

/-- FMUL. -/
def Fmt.fmul (f : Fmt) (c : RoundCtx) (a b : Nat) : Nat × Flags :=
  let x := f.layout.decode a
  let y := f.layout.decode b
  f.finish c [x, y] (x.mul y)

/-- FMULZ (R35). -/
def Fmt.fmulz (f : Fmt) (c : RoundCtx) (a b : Nat) : Nat × Flags :=
  let x := f.layout.decode a
  let y := f.layout.decode b
  if x.isZero || y.isZero then
    (f.layout.pattern (!x.isNaN && !y.isNaN && (x.isNeg != y.isNeg)) 0, 0#5)
  else f.fmul c a b

/-- FDIV. -/
def Fmt.fdiv (f : Fmt) (c : RoundCtx) (a b : Nat) : Nat × Flags :=
  let x := f.layout.decode a
  let y := f.layout.decode b
  f.finish c [x, y] (x.div y)

/-- FSQRT. -/
def Fmt.fsqrt (f : Fmt) (c : RoundCtx) (a : Nat) : Nat × Flags :=
  let x := f.layout.decode a
  f.finish c [x] x.sqrt

/-- FMIN and FMAX (R106). -/
def Fmt.fminmax (f : Fmt) (greater : Bool) (a b : Nat) : Nat × Flags :=
  let x := f.layout.decode a
  let y := f.layout.decode b
  let fl := signalling [x, y]
  if x.isNaN && y.isNaN then (f.layout.canonicalNaN, fl)
  else if x.isNaN then (f.clean b, fl)
  else if y.isNaN then (f.clean a, fl)
  else if x.cmpSigned y = (if greater then .lt else .gt) then (f.clean b, fl)
  else (f.clean a, fl)

/-- FCLASS (R107). -/
def Fmt.fclass (f : Fmt) (a : Nat) : Nat :=
  match f.layout.decode a with
  | .nan s => if s then 256 else 512
  | .inf neg => if neg then 1 else 128
  | .fin neg m _ =>
    let bit := if m = 0 then 3 else if m < 2 ^ f.layout.mbits then 2 else 1
    2 ^ (if neg then bit else 7 - bit)

/-- FSGNJ (R108): form 0 takes the sign of B, 1 its inverse, 2 the XOR of both signs. -/
def Fmt.fsgnj (f : Fmt) (form a b : Nat) : Nat :=
  let p := f.signPos
  let sa := a.testBit p
  let sb := b.testBit p
  let s := if form = 0 then sb else if form = 1 then !sb else sa != sb
  f.clean (if s then a ||| 2 ^ p else a &&& (2 ^ 64 - 1 - 2 ^ p))

/-- FCMP (R111): 0 equal, 1 less, 2 less or equal, 3 unordered. -/
def Fmt.fcmp (f : Fmt) (cc a b : Nat) : Bool × Flags :=
  let x := f.layout.decode a
  let y := f.layout.decode b
  if x.isNaN || y.isNaN then
    (cc == 3, if cc == 1 || cc == 2 then flagNV else signalling [x, y])
  else
    let o := x.cmp y
    (match cc with
      | 0 => o == .eq
      | 1 => o == .lt
      | 2 => o != .gt
      | _ => false, 0#5)

/-- FCVT (R109): from a format to a format, the scaled side under its scale byte; with both formats the same, only NaNs change. -/
def fcvtTo (dst fr : Fmt) (c : RoundCtx) (s : Byte) (a : Nat) : Nat × Flags :=
  let x := fr.value a s
  if dst = fr then
    (match x with
      | .nan sig => if dst.layout.specials = .none then (dst.clean a, 0#5) else (dst.layout.canonicalNaN, flagIf sig flagNV)
      | _ => (dst.clean a, 0#5))
  else
    let d := dst.deliver c s x
    (d.1, signalling [x] ||| d.2)

/-! ## The L6 format (R24 to R28) -/

/-- LMUL (R25). -/
def l6Mul (a b : Nat) : Nat × Flags :=
  let ca := a % 32
  let cb := b % 32
  let s := if a.testBit 5 != b.testBit 5 then 32 else 0
  if ca = 0 ∨ cb = 0 then (s, 0#5)
  else if 47 < ca + cb then (s + 31, flagOF ||| flagNX)
  else if ca + cb < 17 then (s, flagUF ||| flagNX)
  else (s + (ca + cb - 16), 0#5)

/-- The table T of R26. -/
def l6Table (j : Nat) : Nat := if j = 0 then 32768 else if j = 1 then 38968 else if j = 2 then 46341 else 55109

/-- The contribution of two l6 codes in units of 2^−23 (R26). -/
def l6Product (a b : Nat) : Int :=
  let ca := a % 32
  let cb := b % 32
  if ca = 0 ∨ cb = 0 then 0
  else
    let mag : Int := ((l6Table ((ca + cb) % 4) <<< ((ca + cb) / 4) : Nat) : Int)
    if a.testBit 5 != b.testBit 5 then -mag else mag

/-- LACC (R26). -/
def l6Acc (acc a b : Nat) : Nat × Flags :=
  let t := Fmt.i64.toInt acc + l6Product a b
  let c := clampInt Fmt.i64.intMin Fmt.i64.intMax t
  (wrapInt 64 c, flagIf (c != t) flagOF)

/-- LCVTF (R27). -/
def l6ToFp32 (acc : Nat) : Nat × Flags :=
  Fmt.fp32.layout.round RoundCtx.nearest ((Num.ofInt (Fmt.i64.toInt acc)).scale (-23))

/-- The thresholds of R28, as fp32 significands: 2^(1/8), 2^(3/8), 2^(5/8), 2^(7/8). -/
def l6Thresholds : List Nat := [0x8B95C2, 0xA5FED7, 0xC5672A, 0xEAC0C7]

/-- FCVTL (R28) of a value that fp32 represents. -/
def l6Of (x : Num) : Nat × Flags :=
  match x with
  | .nan _ => (31, flagNV)
  | .inf neg => ((if neg then 32 else 0) + 31, flagOF ||| flagNX)
  | .fin neg m e =>
    let s := if neg then 32 else 0
    if m = 0 then (s, 0#5)
    else
      let top := Nat.log2 m
      let sig := m * 2 ^ 23
      let d := (l6Thresholds.filter fun t => t * 2 ^ top < sig).length
      let tie := l6Thresholds.any fun t => t * 2 ^ top == sig
      let c : Int := 4 * (e + top) + 16 + d
      let c := if tie && c % 2 != 0 then c + 1 else c
      if 31 < c then (s + 31, flagOF ||| flagNX)
      else if c < 1 then (s, flagUF ||| flagNX)
      else (s + c.toNat, flagIf (!(sig == 2 ^ top * 2 ^ 23 && c % 4 == 0)) flagNX)

end Sys2Proof
end

