-- ==== Sys2Proof/Machine/Operands.lean ====
section
/-!
DEFINITION. Operand forms: register groups (R44, R92), what a block instruction reads and writes (R48, R49, R92, R93), run tags
and their clearing (R50, R51), scales (R7, R22), the elements of control-stream operands (R17, R57), and the validation of a
block (R88, R89, R322).
-/

namespace Sys2Proof.Machine

/-! ## Vector types (R44, R55, R56) -/

/-- SEW. -/
def VType.sew (t : VType) : Nat := t.fmt.slot
/-- LMUL. -/
def VType.mul (t : VType) : Nat := 2 ^ t.lmul.val
/-- BL. -/
def VType.bl (t : VType) : Nat := t.blm3.val + 3

/-- `vtype` (R55): VILL while there is no type. -/
def vtypeWord (t : Option VType) : Word :=
  match t with
  | none => putField 0#64 63 1 1
  | some t =>
    BitVec.ofNat 64 (t.rlog.val * 2 ^ 13 + t.sh.toNat * 2 ^ 12 + t.mp.toNat * 2 ^ 11 + t.tp.toNat * 2 ^ 10
      + t.blm3.val * 2 ^ 8 + t.lmul.val * 2 ^ 6 + t.fmt.code)

/-- A type that a grant may set (R56): LMUL not above SEW, and the blocks of a scaled format within one scale register. -/
def VType.legal (t : VType) : Bool :=
  decide (t.mul ≤ t.sew) && (!t.fmt.scaled || decide (t.mul * 64 ≤ t.sew * 2 ^ t.bl))

/-- The vector type of a `vtype` word's low 18 bits, or none where R56 makes it illegal. -/
def VType.ofWord (w : Word) : Option VType :=
  if w.getLsbD 63 then none
  else (Fmt.ofCode (getField w 0 6)).bind fun f =>
    let t : VType := ⟨f, Fin.ofNat 4 (getField w 6 2), Fin.ofNat 4 (getField w 8 2), w.getLsbD 10, w.getLsbD 11, w.getLsbD 12,
      Fin.ofNat 32 (getField w 13 5)⟩
    if t.legal then some t else none

/-! ## VLEN and lane groups (R44, R404) -/

/-- The largest power of two not above a number. -/
def floorPow2 (n : Nat) : Nat := if n = 0 then 0 else 2 ^ Nat.log2 n

/-- The lane groups that a hart holds: a power of two, at most the eight of its core, whatever exchange of groups is under way
(R251). -/
def Hart.nlg (h : Hart) : Nat := floorPow2 (min 8 h.lanes.held.length)

/-- The physical groups in which a hart's registers lie, those that older work still uses among them. -/
def Hart.groupsInUse (h : Hart) : List Nat := h.lanes.held ++ h.lanes.resizes.flatMap (·.groups)

/-- Those groups by rank: in ascending order of their physical numbers (R404). -/
def Hart.byRank (h : Hart) : List Nat := (List.range 8).filter h.groupsInUse.contains

/-- VLEN: 32,768 bits for each lane group held. -/
def Hart.vlen (h : Hart) : Nat := groupBits * h.nlg

/-- log2 of VLEN. -/
def Hart.log2vlen (h : Hart) : Nat := Nat.log2 h.vlen

/-- The physical lane group that holds element `e` at width `w` (R404). -/
def Hart.laneOf (h : Hart) (vlen w e : Nat) : Nat := h.byRank.getD (e % (vlen / w) * w / groupBits) 0

/-- The physical lane group that holds scale byte `j` (R404). -/
def Hart.laneOfScale (h : Hart) (j : Nat) : Nat := h.byRank.getD (j / 512) 0

/-! ## Register groups (R44, R92) -/

/-- The registers of a group at width `w`. -/
def VType.group (t : VType) (w : Nat) : Nat := max 1 (t.mul * w / t.sew)

/-- A group begins at a multiple of its size and ends at or below v31. -/
def groupOk (g n : Nat) : Bool := decide (n % g = 0 ∧ n + g ≤ 32)

/-- The registers of a group as a set. -/
def groupSet (g n : Nat) : BitVec 32 := BitVec.ofNat 32 ((2 ^ g - 1) * 2 ^ n)

/-- Two groups overlap. -/
def groupsMeet (g n g' n' : Nat) : Bool := decide (n < n' + g' ∧ n' < n + g)

/-- Registers that an instruction reads and writes, vector, mask and scale registers, and vector registers that it may touch where a
tag says so (a payload): the scoreboard of R216 and the poison of R379 go by them. -/
structure RegUse where
  rv : BitVec 32
  wv : BitVec 32
  pv : BitVec 32
  rm : BitVec 8
  wm : BitVec 8
  rk : BitVec 16
  wk : BitVec 16
  deriving DecidableEq, Repr

/-- No register. -/
def RegUse.none : RegUse := ⟨0#32, 0#32, 0#32, 0#8, 0#8, 0#16, 0#16⟩

/-- The registers of two uses together. -/
def RegUse.or (a b : RegUse) : RegUse :=
  ⟨a.rv ||| b.rv, a.wv ||| b.wv, a.pv ||| b.pv, a.rm ||| b.rm, a.wm ||| b.wm, a.rk ||| b.rk, a.wk ||| b.wk⟩

/-- One of two uses writes what the other reads or writes: they keep program order (R216). -/
def RegUse.conflicts (a b : RegUse) : Bool :=
  (a.wv ||| a.pv) &&& (b.rv ||| b.wv ||| b.pv) != 0#32 || (b.wv ||| b.pv) &&& a.rv != 0#32 ||
  a.wm &&& (b.rm ||| b.wm) != 0#8 || b.wm &&& a.rm != 0#8 ||
  a.wk &&& (b.rk ||| b.wk) != 0#16 || b.wk &&& a.rk != 0#16

/-- A set of one mask register. -/
def maskSet (m : MName) : BitVec 8 := 1#8 <<< m.val
/-- A set of one scale register. -/
def scaleSet (k : KName) : BitVec 16 := 1#16 <<< k.val

/-- The key under which the lane group of a poisoned register, tag or IXT entry stands. -/
def poisonKey (file : RegFile) (i : Nat) : Nat :=
  match file with
  | .v => i
  | .m => 32 + i
  | .k => 64 + i
  | .tag => 96 + i
  | .ixt => 128 + i

/-- The lane group in which the error of a poisoned register, tag or IXT entry lies. -/
def VecFile.laneAt (f : VecFile) (file : RegFile) (i : Nat) : Nat := Store.get 0 f.poisonLane (poisonKey file i)

/-- The lane group in which the error of an operand lies that is poisoned itself, or whose tag is (R379, R385). -/
def VecFile.sliceOf (f : VecFile) (o : Nat × Nat) : Nat :=
  match o with
  | (0, i) => if f.poisonV.getLsbD i then f.laneAt .v i else f.laneAt .tag i
  | (1, i) => f.laneAt .m i
  | (_, i) => f.laneAt .k i

/-- The first poisoned register that a use reads, as the operand of a fault (R336, R379). -/
def VecFile.poisonedRead (f : VecFile) (u : RegUse) : Option (Nat × Nat) :=
  let first (b : Nat) (n : Nat) : Option Nat := (List.range n).find? fun i => b.testBit i
  match first (f.poisonV &&& u.rv).toNat 32, first (f.poisonM &&& u.rm).toNat 8, first (f.poisonK &&& u.rk).toNat 16 with
  | some i, _, _ => some (0, i)
  | none, some i, _ => some (1, i)
  | none, none, some i => some (2, i)
  | none, none, none => none

/-- The registers of a set of groups of `mul` registers that are written whole: of which `p` holds at every element, with `per` elements in each
register. -/
def wholeRegs (set : BitVec 32) (mul per : Nat) (p : Nat → Bool) : BitVec 32 :=
  let first := ((List.range 32).find? set.getLsbD).getD 0
  (List.range 32).foldl (fun w r =>
    if set.getLsbD r && (List.range per).all fun j => p ((r - first) % mul * per + j) then w ||| groupSet 1 r else w) 0#32

/-- The vector file after a write of elements of registers: a register that is written whole at VLEN is no longer poisoned (R379). -/
def VecFile.cleanse (f : VecFile) (set : BitVec 32) (mul per : Nat) (p : Nat → Bool) : VecFile :=
  if f.poisonV &&& set = 0#32 then f else { f with poisonV := f.poisonV &&& ~~~wholeRegs set mul per p }

/-! ## Run tags (R50, R51, R54) -/

/-- The registers of the span of a tag that begins at register `n` (R50). -/
def RunTag.span (t : RunTag) (vlen : Nat) : Nat :=
  max 1 (((if t.len = 0 then 262144 else t.len) * t.kf.slot + vlen - 1) / vlen)

/-- The registers of the payload span of a tag (R51, R53): those that hold its payloads, each of 8 × 2^PW bits. -/
def RunTag.paySpan (t : RunTag) (vlen : Nat) (pw : Fin 4) : Nat :=
  max 1 (((if t.len = 0 then 262144 else t.len) * (8 * 2 ^ pw.val) + vlen - 1) / vlen)

/-- The registers a write to which clears the tag of register `n` (R51): its key span and its payload span. -/
def RunTag.covers (t : RunTag) (vlen n : Nat) : BitVec 32 :=
  groupSet (t.span vlen) n ||| (match t.payload with
    | some pw => groupSet (t.paySpan vlen pw) (n + 16)
    | none => 0#32)

/-- The vector file after writes to a set of registers: every tag whose spans they meet is cleared (R51), with the tag of a
register written itself, whose poison ends (R379). -/
def VecFile.clearTags (f : VecFile) (vlen : Nat) (written : BitVec 32) : VecFile :=
  { f with poisonTag := f.poisonTag &&& ~~~written, tag := f.tag.mapFinIdx fun n t _ =>
      t.bind fun r => if (r.covers vlen n ||| groupSet 1 n) &&& written != 0#32 then none else some r }

/-- A tag word (R50). -/
def tagWord (t : Option RunTag) : Word :=
  match t with
  | none => 0#64
  | some t =>
    BitVec.ofNat 64 (t.uniq.toNat * 2 ^ 34 + t.len % 2 ^ 18 * 2 ^ 16 + t.gr.val * 2 ^ 11
      + (t.payload.map Fin.val).getD 0 * 2 ^ 9 + t.payload.isSome.toNat * 2 ^ 8 + t.kf.code * 4
      + (if t.descending then 2 else 1))

/-- The tag of a tag word; ORD 0, and a reserved ORD, GR or KF, give none (R52). -/
def RunTag.ofWord (w : Word) : Option RunTag :=
  let ord := getField w 0 2
  let gr := getField w 11 5
  if ord = 0 ∨ ord = 3 ∨ (18 < gr ∧ gr ≠ 31) then none
  else (Fmt.ofCode (getField w 2 6)).map fun f =>
    ⟨ord == 2, f, if w.getLsbD 8 then some (Fin.ofNat 4 (getField w 9 2)) else none, Fin.ofNat 32 gr,
      if getField w 16 18 = 0 then 262144 else getField w 16 18, w.getLsbD 34⟩

/-- A tag after a shrink of VLEN (R54). -/
def RunTag.shrink (t : RunTag) (old new : Nat) : Option RunTag :=
  if 1 < t.span old then none
  else if t.len * t.kf.slot ≤ new then some t
  else
    let n := new / t.kf.slot
    if t.gr = 31 ∨ n % 2 ^ t.gr.val = 0 then some { t with len := n } else some { t with len := n, gr := 31 }

/-! ## Scales (R7, R22) -/

/-- ScaleOf: the byte of a scale register that goes with element `e`. -/
def VecFile.scaleOf (f : VecFile) (k : KName) (bl e : Nat) : Byte := f.scaleByte k (e / 2 ^ bl)

end Sys2Proof.Machine

namespace Sys2Proof

/-! ## Block operands (R48, R49, R92) -/

/-- The slot width of the destination of a block instruction; 0 where it writes no element. -/
def BlockArgs.widthD (op : BlockOp) (f : BlockArgs) : Nat :=
  match op with
  | .wadd | .wmul | .wmac => 2 * f.fmt.slot
  | .lacc => 64
  | op => if op.usesD && !op.predicateDest then f.fmt.slot else 0

/-- The slot width of source a; 0 where it is no element. -/
def BlockArgs.widthA (op : BlockOp) (f : BlockArgs) : Nat :=
  match op with
  | .nclip => 2 * f.fmt.slot
  | .lcvtf | .fetch | .fetchc => 64
  | .plog => 0
  | op => if op.usesA then f.fmtA.slot else 0

/-- The slot width of source b. -/
def BlockArgs.widthB (op : BlockOp) (f : BlockArgs) : Nat :=
  match op with
  | .plog => 0
  | op => if op.usesB then f.fmtB.slot else 0

/-- The slot width of source c. -/
def BlockArgs.widthC (op : BlockOp) (f : BlockArgs) : Nat :=
  match op with
  | .fetchc => 0
  | op => if op.usesC then f.fmt.slot else 0

/-- The register of a source specifier that names one. -/
def Src.reg? : Src → Option Nat
  | .e n => some n.val
  | _ => none

/-- The groups that an instruction reads: first register and width. -/
def BlockArgs.sources (op : BlockOp) (f : BlockArgs) : List (Nat × Nat) :=
  let src (x : Src) (w : Nat) : List (Nat × Nat) := if w = 0 then [] else (x.reg?.map fun n => (n, w)).toList
  src f.a (f.widthA op) ++ src f.b (f.widthB op) ++ src f.c (f.widthC op)

/-- The group that an instruction writes, if it writes elements. -/
def BlockArgs.dest (op : BlockOp) (f : BlockArgs) : List (Nat × Nat) :=
  if f.widthD op = 0 then [] else [(f.d.val, f.widthD op)]

end Sys2Proof

namespace Sys2Proof.Machine

/-! ## Groups of block instructions (R48, R92, R93) -/

/-- The groups of an instruction are legal for a vector type (R48, R92), and no destination overlaps a source of another width
(R93). -/
def blockGroupsOk (op : BlockOp) (f : BlockArgs) (t : VType) : Bool :=
  (f.sources op ++ f.dest op).all (fun p => groupOk (t.group p.2) p.1) &&
  (f.dest op).all fun d => (f.sources op).all fun p =>
    p.2 == d.2 || !groupsMeet (t.group d.2) d.1 (t.group p.2) p.1

/-- The registers that a block instruction reads and writes. -/
def blockUses (op : BlockOp) (f : BlockArgs) (t : VType) : RegUse :=
  let set (ps : List (Nat × Nat)) : BitVec 32 := ps.foldl (fun s p => s ||| groupSet (t.group p.2) p.1) 0#32
  let reads := f.sources op ++ (match op with | .wmac | .lacc => f.dest op | _ => [])
  let n := f.fn13.toNat
  let preds : BitVec 8 := match op, f.a, f.b, f.c with
    | .plog, .e a, .e b, _ => 1#8 <<< a.val ||| 1#8 <<< b.val
    | .sel, _, _, _ => 1#8 <<< (n % 8)
    | .fetchc, _, _, .e c => 1#8 <<< (c.val % 8)
    | _, _, _, _ => 0#8
  let scales : BitVec 16 := match op with
    | .sget => 1#16 <<< (n % 16)
    | .fcvt => if f.fmt.isSC || f.fmtA.isSC then 1#16 <<< (n % 16) else 0#16
    | _ => 0#16
  ⟨set reads, set (f.dest op), 0#32, preds ||| ((f.pred.map fun p => maskSet p.2).getD 0#8),
    (if op.predicateDest then 1#8 <<< f.d.val else 0#8) ||| ((f.x.map maskSet).getD 0#8), scales, 0#16⟩

/-- The pattern that a source supplies at width `w` to micro-thread `e` (R48, R49). -/
def VecFile.source (f : VecFile) (vlen vl e w : Nat) (x : Src) : Nat :=
  match x with
  | .e n => f.elem vlen n.val w e
  | .b n => f.b[n].toNat % 2 ^ w
  | .eid => e % 2 ^ w
  | .vl => vl % 2 ^ w
  | .zero => 0

/-! ## Blocks (R88, R89, R322) -/

/-- What the validation of a block answers: its instructions by word index, or the kind of block translation fault and the
lowest faulty word index. -/
inductive BlockCheck where
  | ok (code : List (Nat × Instr))
  | faulty (kind index : Nat)
  deriving DecidableEq, Repr

/-- Validation from word `i` on, over words that a poisoned line may have taken away: `n` bounds the instructions left. -/
def checkBlock (t : VType) : Nat → Nat → List (Option Word) → BlockCheck
  | 0, _, _ => .faulty 0 15
  | _ + 1, _, [] => .faulty 0 15
  | _ + 1, i, none :: _ => .faulty 1 i
  | n + 1, i, some w :: rest =>
    let prefixed := blockOpField w == 0xFE && (decodeXpf w).isSome || blockOpField w == 0xFF && (decodeXpi w).isSome
    if prefixed && rest.head? == some none then .faulty 1 (i + 1)
    else match decodeBlock (w :: (rest.takeWhile Option.isSome).filterMap id) with
      | .faulty k => .faulty 0 (i + k)
      | .ok instr k =>
        match instr.block? with
        | none => .faulty 0 i
        | some (op, f) =>
          if !blockGroupsOk op f t then .faulty 0 (i + k - 1)
          else if op.terminator then .ok [(i + k - 1, instr)]
          else match checkBlock t n (i + k) ((some w :: rest).drop k) with
            | .ok code => .ok ((i + k - 1, instr) :: code)
            | bad => bad

/-- The registers that the instructions of a block read and write. -/
def codeUses (t : VType) (code : List (Nat × Instr)) : RegUse :=
  code.foldl (fun u p => match p.2.block? with
    | some (op, f) => u.or (blockUses op f t)
    | none => u) RegUse.none

end Sys2Proof.Machine
end

