-- ==== Sys2Proof/Machine/Flags.lean ====
section
/-!
DEFINITION. Accrual of the exception flags (R37, R38), the mask bit of `.x` (R39), the draws of stochastic rounding (R30), and the count
of a full-empty wait (R344).
-/

namespace Sys2Proof.Machine

/-- The hart with flags accrued: an OR into `vxflags` (R38). -/
def Hart.accrue (h : Hart) (f : Flags) : Hart := { h with vc := { h.vc with vxflags := h.vc.vxflags ||| f } }

/-- The state with flags accrued by the selected hart. -/
def State.accrue (s : State) (f : Flags) : State := { s with hart := s.hart.accrue f }

/-- The rounding of an operation under a mode: SR takes the next draw of the lane generator (notes/assumptions/9.md). -/
def State.roundCtx (s : State) (mode : Rounding) (sat : Bool) : RoundCtx := ⟨mode, Config.srDraw s.free, sat⟩

/-- The state after an operation that rounded under a mode: SR has used a draw. -/
def State.drawn (s : State) (mode : Rounding) : State := if mode = .sr then { s with free := s.free + 1 } else s

/-- The bit that `.x` writes for an element that executed (R39). -/
def VecFile.writeX (f : VecFile) (x : Option MName) (e : Nat) (fl : Flags) : VecFile :=
  match x with
  | none => f
  | some m => f.setMaskBit m e fl.severe

/-- The state with what a fault records (R382, R383, R386): a data error of memory, or of a poisoned register, is logged, as contained,
for the hart whose access found it, a register's for the lane group that holds the error (R385); a translation fault counts in lifetime record 5, and a poisoned code line there too. -/
def State.noteFault (s : State) (id : Nat) (f : VecFault) : State :=
  let s := match f.line, f.slice with
    | some pa, _ => s.logError 1 (s.dataSite (placeBits id f.lg) pa)
    | none, some g => s.logError 1 (laneSite id g)
    | none, none => s
  let s := if f.cause = 26 then s.countLife 5 f.kind else if f.cause = 27 ∧ f.kind = 5 then s.countLife 5 (2 ^ 8 + f.kind) else s
  if (f.cause = 26 ∧ f.kind = 1) ∨ (f.cause = 27 ∧ f.kind = 5 ∧ f.line.isSome) then s.countLife 5 (2 ^ 16) else s

/-- The cycle at which a full-empty wait on a granule began (R344). -/
def waitSince (w : Option (Nat × Nat)) (g cycle : Nat) : Nat :=
  match w with
  | some (since, g') => if g' = g then since else cycle
  | none => cycle

end Sys2Proof.Machine
end

