-- ==== Sys2Proof/Machine/Micro.lean ====
section
/-!
DEFINITION. One micro-thread's instruction: the cursor, predication (R96), links (R116, R117), faults (R122, R345), terminators
(R120) and the completion of an instruction. `mt` holds the micro-thread being performed, with `idx` at the word of the
instruction.
-/

namespace Sys2Proof.Machine

/-! ## Rounds and their micro-threads -/

/-- VLEN of a round's strip interval. -/
def Round.vlen (r : Round) : Nat := 2 ^ r.log2vlen

/-- A round with one micro-thread replaced. -/
def Round.put (r : Round) (m : Micro) : Round :=
  { r with micros := r.micros.map fun o => if o.elem = m.elem then m else o }

/-- A round without a micro-thread that has stopped. -/
def Round.remove (r : Round) (e : Nat) : Round := { r with micros := r.micros.filter fun o => o.elem != e }

/-- The fetch group of a number. -/
def Round.group? (r : Round) (id : Nat) : Option FetchGroup := r.groups.find? fun g => g.id == id

/-- A round with the fetch group of a number changed. -/
def Round.modifyGroup (r : Round) (id : Nat) (f : FetchGroup → FetchGroup) : Round :=
  { r with groups := r.groups.map fun g => if g.id = id then f g else g }

/-- The state with the selected hart's round at a value, and no micro-thread at the cursor. -/
def State.putRound (s : State) (r : Round) : State := { s with hart := { s.hart with round := some r, mt := none } }

/-- What a micro-thread's instruction does: it writes a state and goes on at the next word; it waits, at a link or, from the
cycle on, for a full-empty bit; it faults; it stops; it ends its block with a fetch of a target; or it meets a device that
the spec does not describe. -/
inductive MicroRes where
  | next (s : State)
  | wait (granule : Option Nat)
  | fault (f : VecFault)
  | stop
  | goto (target : Word) (via : Nat)
  | pcie (pa : Nat)
  deriving DecidableEq, Repr

/-! ## Links (R116, R117) -/

/-- The nearest active element below `n`. -/
def activeBelow (a : VecBits) : Nat → Option Nat
  | 0 => none
  | n + 1 => if a.getLsbD n then some n else activeBelow a n

/-- The nearest active element from `e` on, among `n`. -/
def activeFrom (a : VecBits) : Nat → Nat → Option Nat
  | _, 0 => none
  | e, n + 1 => if a.getLsbD e then some e else activeFrom a (e + 1) n

/-- The active element above `e`, below vl. -/
def Links.above (l : Links) (vl e : Nat) : Option Nat := activeFrom l.active (e + 1) (vl - (e + 1))

/-- The held value of an element. -/
def Links.heldOf (l : Links) (e : Nat) : Word := Store.get 0#64 l.held e

/-- The values queued toward an element. -/
def Links.queue (l : Links) (e : Nat) : List Word := Store.get [] l.queued e

/-- Links with a held value written. -/
def Links.hold (l : Links) (e : Nat) (v : Word) : Links := { l with held := Store.put 0#64 l.held e v }

/-- Links with the queue toward an element replaced. -/
def Links.setQueue (l : Links) (e : Nat) (q : List Word) : Links := { l with queued := Store.put [] l.queued e q }

/-- What an LGET of an element receives, with the links after it: a queued value, the held value of its stopped predecessor,
`vlinkin` where it has none; nothing while it must wait. -/
def takeLink (h : Hart) (r : Round) (e : Nat) : Option (Word × Links) :=
  match h.links.queue e with
  | v :: q => some (v, (h.links.setQueue e q).hold e v)
  | [] =>
    match activeBelow h.links.active e with
    | none => some (h.vc.vlinkin, h.links.hold e h.vc.vlinkin)
    | some p =>
      if r.micros.any fun o => o.elem == p then none
      else some (h.links.heldOf p, h.links.hold e (h.links.heldOf p))

/-- The links after an LPUT of an element: queued toward the receiver, which may be none; nothing while the link is full
(R348: two values). -/
def putLink (h : Hart) (r : Round) (e : Nat) (v : Word) : Option Links :=
  match h.links.above r.vl e with
  | none => some (h.links.hold e v)
  | some p =>
    if r.micros.any fun o => o.elem == p then
      if (h.links.queue p).length < 2 then some ((h.links.setQueue p (h.links.queue p ++ [v])).hold e v) else none
    else some (h.links.hold e v)

/-- The hart after an element has stopped: values still queued toward it are dropped, and the highest active element writes
`vlinkout` (R116). -/
def Hart.stopLinks (h : Hart) (vl e : Nat) : Hart :=
  let l := h.links.setQueue e []
  let vc := if (l.above vl e).isNone then { h.vc with vlinkout := l.heldOf e } else h.vc
  { h with links := l, vc := vc }

/-- The hart after micro-threads of its round have stopped without finishing (R233, R346). -/
def Hart.stopAll (h : Hart) (vl : Nat) (ms : List Micro) : Hart := ms.foldl (fun h m => h.stopLinks vl m.elem) h

/-! ## Completing, waiting and faulting -/

/-- The micro-thread has completed the instruction at its word. -/
def Micro.step (m : Micro) : Micro := { m with idx := m.idx + 1, waited := none }

/-- What a micro-thread fault reports (R334 to R338): its kind, the access, the address where the kind has one, and the
operand. -/
def microFault (s : State) (r : Round) (m : Micro) (cause kind acc : Nat) (tval : Word) (operand : Option (Nat × Nat)) :
    VecFault :=
  ⟨cause, kind, acc, tval, m.block, m.elem, s.hart.laneOf r.vlen r.vtype.sew m.elem, some m.idx, operand, none, none⟩

/-- The round after a micro-thread has faulted: it is set aside with its fault, and the elements above it in its group are suppressed at
that word (R345). -/
def Round.setAside (r : Round) (m : Micro) (f : VecFault) : Round :=
  let r := match m.place with
    | .group id => r.modifyGroup id fun g => { g with limits := (m.elem, m.idx) :: g.limits }
    | _ => r
  r.put { m with place := .aside (some f), waited := none }

/-- An element of a group is suppressed at a word: a lower one has faulted there (R345). -/
def FetchGroup.suppressed (g : FetchGroup) (e k : Nat) : Bool := g.limits.any fun p => decide (p.1 < e) && p.2 == k

/-- The instruction at which a micro-thread of a group stands, with its word. -/
def FetchGroup.at (g : FetchGroup) (idx : Nat) : Option (Nat × Instr) := g.code.find? fun p => decide (idx ≤ p.1)

/-- The code of a source specifier, as `svtrap3` names it (R336). -/
def blockOperand (x : Src) : Option (Nat × Nat) := some (5, x.code.toNat)

/-- The base specifier of the element load at which a micro-thread stands: the operand that an abandoned wait names (R336). -/
def Round.loadOperand (r : Round) (m : Micro) : Option (Nat × Nat) :=
  match m.place with
  | .group id =>
    match (r.group? id).bind fun g => g.at m.idx with
    | some (_, .ld f) => blockOperand f.a
    | _ => none
  | _ => none

/-- The element's group has advanced in this cycle (R258). -/
def Round.moved (r : Round) (m : Micro) (cycle : Nat) : Round :=
  match m.place with
  | .group id => r.modifyGroup id fun g => { g with moved := cycle }
  | _ => r

/-- The answer of a micro-thread's instruction. A full-empty wait of 2^30 cycles is abandoned (R344). -/
def settleMicro (s : State) (m : Micro) (r : Round) (res : MicroRes) : Result :=
  match res with
  | .next s => .next (s.putRound ((r.moved m s.cycle).put m.step))
  | .wait none => .next (s.putRound (r.put { m with waited := none }))
  | .wait (some g) =>
    let since := waitSince m.waited g s.cycle
    if since + 2 ^ 30 ≤ s.cycle then
      .next (s.putRound (r.setAside m (microFault s r m 30 0 0 0#64 (r.loadOperand m))))
    else .next (s.putRound (r.put { m with waited := some (since, g) }))
  | .fault f => .next ((s.putRound (r.setAside m f)).noteFault s.hartId f)
  | .stop => .next ({ s with hart := s.hart.stopLinks r.vl m.elem }.putRound ((r.moved m s.cycle).remove m.elem))
  | .goto t via => .next (s.putRound ((r.moved m s.cycle).put { m with ended := .fetched t, via := via, waited := none }))
  | .pcie pa => .refused (.pcieDevice pa)

/-- The micro-thread executes the instruction: its predicate allows it (R96). -/
def executes (v : VecFile) (e : Nat) (pred : Option (Bool × MName)) : Bool :=
  match pred with
  | none => true
  | some (inv, q) => v.maskBit q e != inv

/-- A block instruction of the micro-thread at the cursor: a micro-thread whose resume element state is poisoned faults as it continues
(R377, R379; notes/assumptions/43.md); predicated off, the instruction only goes on (R96); a poisoned register that it reads is a
micro-thread fault (R379), but for PF, which never faults (R114); otherwise it acts. -/
def runBlock (s : State) (op : BlockOp) (f : BlockArgs) (act : State → Micro → Round → MicroRes) : Result :=
  match s.hart.mt, s.hart.round with
  | some m, some r =>
    if m.poison.isSome then settleMicro s m r (.fault { microFault s r m 27 6 0 0#64 none with slice := m.poison })
    else if executes s.hart.vec m.elem f.pred then
      match if op = .pf then none else s.hart.vec.poisonedRead (blockUses op f r.vtype) with
      | some o =>
        settleMicro s m r (.fault { microFault s r m 27 6 0 0#64 (some o) with slice := some (s.hart.vec.sliceOf o) })
      | none => settleMicro s m r (act s m r)
    else settleMicro s m r (.next s)
  | _, _ => .fault .noMicroThread

/-- The operands of an arithmetic block instruction: the patterns of its sources, the old destination, the scale register named
by fn13, and the rounding. -/
structure BlockIn where
  a : Nat
  b : Nat
  c : Nat
  d : Nat
  scale : Byte
  ctx : RoundCtx
  deriving DecidableEq, Repr

/-- The operands of an instruction as micro-thread `e` reads them. -/
def blockIn (s : State) (op : BlockOp) (f : BlockArgs) (r : Round) (e : Nat) : BlockIn :=
  let v := s.hart.vec
  let src (x : Src) (w : Nat) : Nat := v.source r.vlen r.vl e w x
  { a := src f.a (f.widthA op)
    b := src f.b (f.widthB op)
    c := src f.c (f.widthC op)
    d := v.elem r.vlen f.d.val (f.widthD op) e
    scale := v.scaleOf (Fin.ofNat 16 (f.fn13.toNat % 16)) r.vtype.bl e
    ctx := s.roundCtx (f.rm.resolve s.hart.vc.vrm) f.sat }

/-- The hart after a write to a set of registers that is no pop: the bindings of streams to them end (R142). -/
def Hart.unbind (h : Hart) (set : BitVec 32) : Hart :=
  { h with streams := h.streams.map fun st => st.bind fun b => if groupSet b.regs b.group &&& set != 0#32 then none else some b }

/-- The state in which an element's result is written, its flags accrue and its `.x` bit is written (R38, R39). -/
def writeBlock (s : State) (op : BlockOp) (f : BlockArgs) (r : Round) (e v : Nat) (fl : Flags) : State :=
  let vec := (s.hart.vec.setElem r.vlen f.d.val (f.widthD op) e v).writeX f.x e fl
  let h := s.hart.unbind (groupSet 1 (f.d.val + e / (r.vlen / f.widthD op)))
  ({ s with hart := { h with vec := vec } }.accrue fl).drawn (f.rm.resolve s.hart.vc.vrm)

/-- A block instruction that computes its destination element and flags from its operands. -/
def blockValue (s : State) (op : BlockOp) (f : BlockArgs) (val : BlockIn → Nat × Flags) : Result :=
  runBlock s op f fun s m r =>
    let v := val (blockIn s op f r m.elem)
    .next (writeBlock s op f r m.elem v.1 v.2)

/-- A block instruction that writes its predicate destination (R111). -/
def blockPredicate (s : State) (op : BlockOp) (f : BlockArgs) (val : State → Micro → BlockIn → Bool × Flags) : Result :=
  runBlock s op f fun s m r =>
    let v := val s m (blockIn s op f r m.elem)
    let vec := s.hart.vec.setMaskBit (Fin.ofNat 8 f.d.val) m.elem v.1
    .next ({ s with hart := { s.hart with vec := vec } }.accrue v.2)

end Sys2Proof.Machine
end

