-- ==== Sys2Proof/Machine/Uses.lean ====
section
/-!
DEFINITION. The registers that each OVIS instruction reads and writes (R216, R259, R379), and the groups at which it pops bound
streams (R140).
-/

namespace Sys2Proof.Machine

/-- Vector registers read and written. -/
def vecUses (rv wv : BitVec 32) : RegUse := ⟨rv, wv, 0#32, 0#8, 0#8, 0#16, 0#16⟩

/-- Mask registers read and written. -/
def maskUses (rm wm : BitVec 8) : RegUse := ⟨0#32, 0#32, 0#32, rm, wm, 0#16, 0#16⟩

/-- Scale registers read and written. -/
def scaleUses (rk wk : BitVec 16) : RegUse := ⟨0#32, 0#32, 0#32, 0#8, 0#8, rk, wk⟩

/-- The optional mask of an instruction. -/
def maskRead (m : Option MName) : RegUse := maskUses ((m.map maskSet).getD 0#8) 0#8

/-- The registers that a run instruction reads or writes at a key register, `n` of them, and the payload registers that go with
them where a tag says so. -/
def runUses (n : Nat) (reads : Bool) (v : VName) : RegUse :=
  let keys := groupSet n v.val
  let payload := if v.val < 16 then groupSet (8 * n) (v.val + 16) else 0#32
  if reads then { vecUses keys 0#32 with pv := payload } else { vecUses 0#32 keys with pv := payload }

/-- Every register that a block may write: a broadcast keeps program order with everything. -/
def everyWrite : RegUse := ⟨0#32, BitVec.allOnes 32, 0#32, 0#8, BitVec.allOnes 8, 0#16, BitVec.allOnes 16⟩

/-- The registers that an instruction reads and writes, with groups of `n` registers. -/
def groupUses (n : Nat) (i : Instr) : RegUse :=
  let g (v : VName) : BitVec 32 := groupSet n v.val
  let r (v : VName) : RegUse := vecUses (g v) 0#32
  let w (v : VName) : RegUse := vecUses 0#32 (g v)
  match i with
  | .vle d _ _ _ _ m | .vlse d _ _ m | .vldx d _ m | .vbcst d _ m => (w d).or (maskRead m)
  | .vse d _ _ _ m | .vsse d _ _ m => (r d).or (maskRead m)
  | .vlxe d _ b m => ((w d).or (r b)).or (maskRead m)
  | .vsxe d _ b m => ((r d).or (r b)).or (maskRead m)
  | .vlseg d _ f m => (vecUses 0#32 (groupSet (n * (f.val + 1)) d.val)).or (maskRead m)
  | .vsseg d _ f m => (vecUses (groupSet (n * (f.val + 1)) d.val) 0#32).or (maskRead m)
  | .vssegx d _ k m => ((r d).or (scaleUses (scaleSet k) 0#16)).or (maskRead m)
  | .vlsc d _ _ => scaleUses 0#16 (scaleSet d)
  | .vssc d _ _ => scaleUses (scaleSet d) 0#16
  | .vstc _ _ b m => (r b).or (maskRead m)
  | .vmv d a m | .vslideup d a _ m | .vslidedn d a _ m | .vscan d a _ _ m | .vordkey d a m =>
    ((w d).or (r a)).or (maskRead m)
  | .vredt d a _ m | .vredo d a _ m => ((vecUses (groupSet 1 d.val) (groupSet 1 d.val)).or (r a)).or (maskRead m)
  | .vperm d a b m => (((w d).or (r a)).or (r b)).or (maskRead m)
  | .vcompress d a m | .vexpand d a m => ((w d).or (r a)).or (maskRead (some m))
  | .viota d m => (w d).or (maskRead (some m))
  | .vpopc _ a m | .vmfirst _ a m => (maskUses (maskSet a) 0#8).or (maskRead m)
  | .vmkeepn d a _ => maskUses (maskSet a) (maskSet d)
  | .vmlogic d a b _ => maskUses (maskSet a ||| maskSet b) (maskSet d)
  | .vmovx _ a _ => r a
  | .vxmov d _ _ => w d
  | .vzip d a b => ((vecUses 0#32 (groupSet (2 * n) d.val)).or (r a)).or (r b)
  | .vunzip d a _ => (w d).or (vecUses (groupSet (2 * n) a.val) 0#32)
  | .vsortg d a _ _ | .vmergeg d a | .vuniq d a _ => (runUses n false d).or (runUses n true a)
  | .vassert d _ _ _ => runUses n true d
  | .vmerge2 d a b => ((runUses (2 * n) false d).or (runUses n true a)).or (runUses n true b)
  | .vmergeh d a b _ | .visect d a b _ | .vdiffk d a b _ | .vrank d a b _ =>
    ((runUses n false d).or (runUses n true a)).or (runUses n true b)
  | .vpart d a b => ((runUses 1 false d).or (runUses n true a)).or (runUses n true b)
  | .vlocate _ a _ => runUses n true a
  | .vixins d a b m => (((r a).or (r b)).or (maskUses 0#8 (maskSet d))).or (maskRead m)
  | .vixlkp d a b m => (((w d).or (r a)).or (maskUses 0#8 (maskSet b))).or (maskRead m)
  | .vixacc d a b _ => ((r a).or (r b)).or (maskUses 0#8 (maskSet d))
  | .vixdump d _ _ => runUses n false d
  | .mlds d _ _ _ => scaleUses (scaleSet d) 0#16
  | .mldsv d a _ => (r a).or (scaleUses (scaleSet d) 0#16)
  | .mmul _ a b | .mmuls _ a b => (r a).or (scaleUses (scaleSet b) 0#16)
  | .mrd d _ _ _ _ => w d
  | .mrdq d _ _ k => (w d).or (scaleUses 0#16 (scaleSet k))
  | .vfb _ | .vresume _ _ => everyWrite
  | .vfbm _ m => everyWrite.or (maskRead (some m))
  | .vupd d _ b _ masked => ((r d).or (r b)).or (maskRead (if masked then some 0 else none))
  | .vamo d _ b _ _ => ((w d).or (r d)).or (r b)
  | _ => RegUse.none

/-- The registers that an instruction reads and writes under a vector type. -/
def instrUses (t : Option VType) (i : Instr) : RegUse := groupUses ((t.map VType.mul).getD 1) i

/-- The sources of which an instruction reads the run tags, in operand order (R172). -/
def tagSources : Instr → List VName
  | .vmergeg _ a | .vuniq _ a _ | .vrank _ a _ _ | .vlocate _ a _ => [a]
  | .vmerge2 _ a b | .vmergeh _ a b _ | .visect _ a b _ | .vdiffk _ a b _ | .vpart _ a b => [a, b]
  | _ => []

/-- A run instruction: it begins by clearing the tag of its destination, and checks its sources then (R172 to R174). -/
def isRun : Instr → Bool
  | .vsortg .. | .vassert .. | .vmergeg .. | .vmerge2 .. | .vmergeh .. | .visect .. | .vdiffk .. | .vuniq .. | .vrank .. | .vpart .. => true
  | _ => false

/-- The instruction performs its elements as a whole, so that `vstart` keeps it neither from popping nor from writing (R152, R175). -/
def wholeForm : Instr → Bool
  | .vcompress .. | .vexpand .. | .viota .. | .vredt .. | .vredo .. | .vscan .. | .vzip .. | .vunzip .. | .vixins .. | .vixlkp ..
  | .vixacc .. | .vpart .. | .vsortg .. | .vmergeg .. | .vmerge2 .. | .vmergeh .. | .visect .. | .vdiffk .. | .vuniq .. | .vlocate ..
  | .vmovx .. => true
  | _ => false

/-- The two groups of a wide source, as VUNZIP reads it. -/
def wideSource (mul : Nat) (a : VName) : List VName := [a, Fin.ofNat 32 (a.val + mul)]

/-- The source groups at which an instruction pops the streams bound to them (R140): those that its operands name. A payload group is no
source that is popped, though a stream may be bound to it (DESIGN CHOICE, notes/assumptions/45.md: R171 calls it a source payload group, and
R140 speaks of a bound group that is read as a source). -/
def popSources (mul : Nat) : Instr → List VName
  | .vse d _ _ _ _ | .vsse d _ _ _ | .vssegx d _ _ _ => [d]
  | .vlxe _ _ b _ | .vstc _ _ b _ => [b]
  | .vsxe d _ b _ | .vupd d _ b _ _ | .vamo d _ b _ _ => [d, b]
  | .vsseg d _ f _ => (List.range (f.val + 1)).map fun j => Fin.ofNat 32 (d.val + j * mul)
  | .vmv _ a _ | .vslideup _ a _ _ | .vslidedn _ a _ _ | .vordkey _ a _ | .vmovx _ a _ | .vcompress _ a _ | .vexpand _ a _
  | .vredt _ a _ _ | .vredo _ a _ _ | .vscan _ a _ _ _ | .vixlkp _ a _ _ | .vsortg _ a _ _ | .vmergeg _ a
  | .vuniq _ a _ | .vlocate _ a _ => [a]
  | .vunzip _ a _ => wideSource mul a
  | .vperm _ a b _ | .vzip _ a b | .vixins _ a b _ | .vixacc _ a b _ | .vmerge2 _ a b | .vmergeh _ a b _ | .visect _ a b _
  | .vdiffk _ a b _ | .vrank _ a b _ | .vpart _ a b => [a, b]
  | _ => []

end Sys2Proof.Machine
end

