-- ==== Sys2Proof/Machine/Queue.lean ====
section
/-!
DEFINITION. The vector and the matrix queue (R254, R216): entries, what performing one answers, issue, completion, and the order
in which entries may be performed (R259).
-/

namespace Sys2Proof.Machine

/-! ## Entries (R341) -/

/-- The x registers that an instruction reads when it is queued, as the fields of its entry (R341). -/
structure Cap where
  d : Option XReg := none
  d1 : Option XReg := none
  a : Option XReg := none
  a1 : Option XReg := none
  b : Option XReg := none
  b1 : Option XReg := none
  deriving DecidableEq, Repr

/-- Which queue an instruction enters and when it may pass a round (R254, R259): the vector queue in order; the vector queue, past a
round in progress, as VFESET and VFECLR do, as VPREF does, and as VCOPY does; as a marker; the matrix queue, and MLDS in it. -/
inductive QClass where
  | vector | free | prefetch | copy | marker | matrix | rows
  deriving DecidableEq, Repr

/-- The instruction uses `vstart` (R59): VCOPY, markers and the matrix instructions other than MLDS do not (R210,
notes/assumptions/24.md). -/
def QClass.usesStart : QClass → Bool
  | .copy | .marker | .matrix => false
  | _ => true

/-- The instruction enters the matrix queue (R216). -/
def QClass.inMatrix : QClass → Bool
  | .matrix | .rows => true
  | _ => false

/-- The entry of an instruction issued now: its x operands and its strip interval. -/
def Hart.entry (h : Hart) (i : Instr) (c : Cap) (q : QClass) : QEntry :=
  let x (r : Option XReg) : Word := (r.map h.getX).getD 0#64
  { pc := h.pc
    word := (encodeControl i).getD 0#32
    held := false
    popped := false
    finished := false
    start := if q.usesStart then h.vc.vstart else 0
    base := if q.usesStart then h.vc.vstart else 0
    xd := x c.d
    xd1 := x c.d1
    xa := x c.a
    xa1 := x c.a1
    xb := x c.b
    xb1 := x c.b1
    vtype := h.vc.vtype
    vl := h.vc.vl
    log2vlen := h.log2vlen
    strip := h.vc.strip
    seq := h.seq
    mode := h.dataMode
    tags := [] }

/-- VLEN of an entry's strip interval. -/
def QEntry.vlen (e : QEntry) : Nat := 2 ^ e.log2vlen

/-- The registers an entry reads and writes. -/
def QEntry.uses (e : QEntry) : RegUse :=
  match decodeControl e.word with
  | some i => instrUses e.vtype i
  | none => RegUse.none

/-- The registers whose progress an entry moves (R58): those it writes itself, not those that a block writes. -/
def QEntry.dests (e : QEntry) : BitVec 32 :=
  match decodeControl e.word with
  | some (.vfb ..) | some (.vfbm ..) | some (.vresume ..) => 0#32
  | _ => e.uses.wv

/-- The payload registers that a run instruction reads with a source group, by the tag of the group (R53). -/
def VecFile.payloadOf (f : VecFile) (t : VType) (v : VName) : BitVec 32 :=
  match (f.tag[v]).bind (·.payload) with
  | some pw => groupSet (t.group (8 * 2 ^ pw.val)) (v.val + 16)
  | none => 0#32

/-- A vector file with the tags of sources as an entry keeps them, where the file has none any more (R174). -/
def VecFile.withTags (f : VecFile) (srcs : List VName) (tags : List (Option RunTag)) : VecFile :=
  (srcs.zip tags).foldl (fun f p => if f.tag[p.1].isNone then { f with tag := f.tag.set p.1 p.2 } else f) f

/-- The payload registers that an instruction reads, and the registers whose tags it reads (R172). -/
def VecFile.runReads (f : VecFile) (t : VType) : Instr → BitVec 32 × BitVec 32
  | .vsortg _ a _ mods => (if mods.payload then groupSet (t.group (8 * 2 ^ mods.pw.val)) (a.val + 16) else 0#32, 0#32)
  | .vmergeg _ a | .vuniq _ a _ => (f.payloadOf t a, groupSet 1 a.val)
  | .vmerge2 _ a b | .vmergeh _ a b _ | .visect _ a b _ | .vdiffk _ a b _ =>
    (f.payloadOf t a ||| f.payloadOf t b, groupSet 1 a.val ||| groupSet 1 b.val)
  | .vrank _ a _ _ | .vlocate _ a _ => (0#32, groupSet 1 a.val)
  | .vpart _ a b => (0#32, groupSet 1 a.val ||| groupSet 1 b.val)
  | _ => (0#32, 0#32)

/-- The payload registers that a run instruction writes: those of its `.p` modifier, or of its first source's tag (R170). -/
def VecFile.runWrites (f : VecFile) (t : VType) : Instr → BitVec 32
  | .vsortg d _ _ mods => if mods.payload then groupSet (t.group (8 * 2 ^ mods.pw.val)) (d.val + 16) else 0#32
  | .vixdump d _ _ => groupSet (t.group 64) (d.val + 16)
  | .vmergeg d a | .vuniq d a _ | .vmergeh d a _ _ | .visect d a _ _ | .vdiffk d a _ _ => with' d a 1
  | .vmerge2 d a _ => with' d a 2
  | _ => 0#32
where
  /-- The payload groups of a destination of so many key groups, by the tag of a source. -/
  with' (d a : VName) (times : Nat) : BitVec 32 :=
    match (f.tag[a]).bind (·.payload) with
    | some pw => groupSet (times * t.group (8 * 2 ^ pw.val)) (d.val + 16)
    | none => 0#32

/-- The registers whose progress an entry moves in a vector file: its destinations, with the payloads it writes (R58). -/
def VecFile.destsOf (f : VecFile) (e : QEntry) : BitVec 32 :=
  e.dests ||| (match decodeControl e.word, e.vtype with
    | some i, some t => (f.withTags (tagSources i) e.tags).runWrites t i
    | _, _ => 0#32)

/-- The class of a queued instruction. -/
def QEntry.cls (e : QEntry) : QClass :=
  match decodeControl e.word with
  | some (.vcopy ..) => .copy
  | some (.vfeset ..) | some (.vfeclr ..) => .free
  | some (.vpref ..) => .prefetch
  | some (.barrive ..) => .marker
  | some (.mlds ..) => .rows
  | some (.matt ..) | some .mdet | some (.mshape ..) | some (.mldsv ..) | some .mswap | some (.mmul ..)
  | some (.mmuls ..) | some (.mrd ..) | some (.mrdq ..) | some (.mzero ..) => .matrix
  | _ => .vector

/-- What performing an entry answers: completed, with the values that a synchronising read returns; stopped at a fault, with
the entry as the image holds it; waiting, for a full-empty bit or for something else; or a device that the spec does not
describe. -/
inductive VecRes where
  | done (s : State) (vals : List (XReg × Word))
  | fault (s : State) (e : QEntry) (f : VecFault)
  | wait (s : State) (e : QEntry) (granule : Option Nat)
  | pcie (pa : Nat)
  deriving DecidableEq, Repr

/-- The entry has completed, with no value to return. -/
abbrev VecRes.ok (s : State) : VecRes := .done s []

/-! ## The queues of a hart -/

/-- The entries of the vector queue that have not completed. -/
def Hart.vwork (h : Hart) : List QEntry := h.vq.filter fun e => !e.finished

/-- The oldest entry of the vector queue that has not completed. -/
def Hart.vhead (h : Hart) : Option QEntry := h.vq.find? fun e => !e.finished

/-- Entries with one replaced. -/
def replaceEntry (q : List QEntry) (e : QEntry) : List QEntry := q.map fun o => if o.seq = e.seq then e else o

/-- Entries after one has completed: the completed ones at the head have freed their slots (R254). -/
def retireEntry (q : List QEntry) (seq : Nat) : List QEntry :=
  (q.map fun o => if o.seq = seq then { o with finished := true } else o).dropWhile fun o => o.finished

/-- The hart with an entry replaced in its queue. -/
def Hart.replace (h : Hart) (matrix : Bool) (e : QEntry) : Hart :=
  if matrix then { h with mq := replaceEntry h.mq e } else { h with vq := replaceEntry h.vq e }

/-- The hart after an entry has completed: its slot, and for a vector instruction the count of `vqpos` (R63) and, where it uses
`vstart`, START 0 (R59, notes/assumptions/24.md). MLDS used `vstart` up when it was issued, and a write of it since then is younger. -/
def Hart.retire (h : Hart) (q : QClass) (e : QEntry) : Hart :=
  match q with
  | .matrix | .rows => { h with mq := retireEntry h.mq e.seq }
  | .marker => { h with vq := retireEntry h.vq e.seq }
  | _ =>
    { h with
      vq := retireEntry h.vq e.seq
      headWait := none
      vc := { h.vc with seqDone := h.vc.seqDone + 1#32, vstart := if q.usesStart then 0 else h.vc.vstart } }

/-- The hart with values written into x registers. -/
def Hart.setXs (h : Hart) (vals : List (XReg × Word)) : Hart := vals.foldl (fun h p => h.setX p.1 p.2) h

/-- The fault of an abandoned full-empty wait of an entry (R344): it stands at the lowest element not performed. -/
def Hart.abandoned (h : Hart) (e : QEntry) (kind : Nat) : VecFault :=
  let operand := match decodeControl e.word with
    | some (.vle _ a _ _ _ _) => some (4, a.val)
    | _ => none
  ⟨30, kind, 0, 0#64, e.pc, e.start, h.laneOf e.vlen ((e.vtype.map VType.sew).getD 64) e.start, none, operand, none, none⟩

/-- The hart whose vector queue entry has stopped at a fault: the progress index of its destination is its START (R58). -/
def Hart.stopVector (h : Hart) (e : QEntry) (f : VecFault) : Hart :=
  { h with vfault := some f, headWait := none, vec := h.vec.progressTo (h.vec.destsOf e) e.start }

/-- The answer of an entry that was performed. A fault stops its queue (R339, R340). A full-empty wait of 2^30 cycles is
abandoned (R344). -/
def settle (q : QClass) (e : QEntry) (res : VecRes) : Result :=
  let m := q.inMatrix
  match res with
  | .done s vals =>
    let h := { s.hart with replay := none }
    let h := if vals.isEmpty then h else { h with sread := some (e.pc, vals) }
    .next { s with hart := h.retire q e }
  | .fault s e' f =>
    let h := { s.hart.replace m e' with replay := none }
    let h := if m then { h with mfault := some f } else h.stopVector e' f
    .next ({ s with hart := h }.noteFault s.hartId f)
  | .wait s e' g =>
    let h := { s.hart.replace m e' with replay := none }
    match g with
    | none => .next { s with hart := if m then h else { h with headWait := none } }
    | some g =>
      let since := waitSince (if e'.start = e.start then s.hart.headWait else none) g s.cycle
      if since + 2 ^ 30 ≤ s.cycle then
        .next { s with hart := h.stopVector e' (h.abandoned e' 0) }
      else .next { s with hart := { h with headWait := some (since, g) } }
  | .pcie pa => .refused (.pcieDevice pa)

/-! ## Which entries may be performed now -/

/-- A shrink of VLEN stands before an entry (R269). -/
def Hart.resizeBefore (h : Hart) (seq : Nat) : Bool := h.lanes.resizes.any fun r => decide (r.place ≤ seq)

/-- A load or store of an element by a block. -/
def elementAccess : Instr → Bool
  | .ld _ | .st _ => true
  | _ => false

/-- A full-empty load of a block (R288). -/
def fullEmptyLoad : Instr → Bool
  | .ld f => decide (f.fn13.toNat / 4 ≠ 0)
  | _ => false

/-- No micro-thread of a round has an instruction of a kind still to execute: each runs to a STOP without one. One that may yet fetch a
block, or is set aside, may have one. -/
def Round.past (r : Round) (p : Instr → Bool) : Bool :=
  r.micros.all fun m => match m.place, m.ended with
    | .group id, .running =>
      match r.group? id with
      | none => false
      | some g =>
        let rest := (g.code.filter fun c => decide (m.idx ≤ c.1)).map (·.2)
        rest.all (fun i => !p i) && (match rest.getLast? with
          | some (.stop _) => true
          | _ => false)
    | _, _ => false

/-- A vector queue entry may be performed while a round is in progress (R259): VPREF; VFESET and VFECLR of the round's strip interval
(R286) with no full-empty load of a block before them (R288); VCOPY once the round's element accesses are performed (R289). -/
def QEntry.passes (e : QEntry) (r : Round) : Bool :=
  match e.cls with
  | .prefetch => true
  | .free => e.strip == r.strip && r.past fullEmptyLoad
  | .copy => r.past elementAccess
  | _ => false

/-- The registers an entry reads and writes here: a scale field that an unscaled format leaves unused is not read (R206, R210, R211). -/
def Hart.usesOf (h : Hart) (e : QEntry) : RegUse :=
  let scaled (place : Nat) : RegUse :=
    if ((Fmt.ofCode (getField h.mshape place 6)).map Fmt.scaled).getD false then e.uses else { e.uses with rk := 0#16 }
  match decodeControl e.word with
  | some (.mlds ..) | some (.mldsv ..) => scaled 32
  | some (.mmul ..) | some (.mmuls ..) => scaled 24
  | _ => e.uses

/-- The groups to which streams are bound, or to which an older entry will bind one, as first register and number of registers. -/
def Hart.boundGroups (h : Hart) (seq : Nat) : List (Nat × Nat) :=
  (h.streams.toList.filterMap fun b => b.map fun b => (b.group, b.regs)) ++
  h.vwork.filterMap fun o => if o.seq < seq then
      (match decodeControl o.word with
        | some (.vsbind d _ _) => some (d.val, (o.vtype.map VType.mul).getD 1)
        | _ => none)
    else none

/-- The registers whose order an entry keeps (R216): those it uses; every register from a tagged source on, a write of which may clear its
tag, which spans as many registers as its LEN takes (R50, R51); the groups into which it pops a strip (R140), with every register of
their bindings, a write of which would end them (R142); and, for VSBIND, the group that it binds and the bound groups that it compares it
with (R139). -/
def Hart.orders (h : Hart) (e : QEntry) : RegUse :=
  let mul := (e.vtype.map VType.mul).getD 1
  let bound := h.boundGroups e.seq
  let more : List (Nat × Nat) := match decodeControl e.word with
    | some (.vsbind d _ _) => (d.val, mul) :: bound
    | some i =>
      let srcs := (popSources mul i).map Fin.val
      let popped := bound.filter fun b => srcs.contains b.1
      popped ++ popped.map fun b => (b.1, mul)
    | none => []
  let tagged := ((decodeControl e.word).map tagSources).getD []
  let u := e.uses
  { u with
    rv := tagged.foldl (fun set v => set ||| groupSet (32 - v.val) v.val) u.rv
    pv := more.foldl (fun set g => set ||| groupSet g.2 g.1) u.pv }

/-- Two entries keep their program order by their registers. -/
def Hart.ordered (h : Hart) (a b : QEntry) : Bool := (h.orders a).conflicts (h.orders b)

/-- A full-empty load of the vector queue (R288). -/
def QEntry.fullEmpty (e : QEntry) : Bool :=
  match decodeControl e.word with
  | some (.vle _ _ _ full _ _) => full != .plain
  | _ => false

/-- A vector queue entry may be performed: its chain is not broken (R262), no older matrix entry needs or writes its registers (R216), no
shrink stands before it, and no round is in progress unless the entry may pass it (R259). -/
def Hart.vready (h : Hart) (e : QEntry) : Bool :=
  !h.vheld && h.vfault.isNone && !h.resizeBefore e.seq && ((h.round.map e.passes).getD true) && Store.get 0 h.chains e.seq == 0 &&
  h.mq.all fun m => decide (e.seq < m.seq) || !h.ordered e m

/-- VLE.FF, which may trim vl (R131). -/
def QEntry.trims (e : QEntry) : Bool :=
  match decodeControl e.word with
  | some (.vle _ _ ff _ _ _) => ff
  | _ => false

/-- Older vector work stands before a matrix entry: on its registers (R216, R259), as a load that may trim the vl it goes by (R131), or,
before MLDS, as a full-empty load (R288). Held micro-threads count as such work. -/
def Hart.vectorBefore (h : Hart) (m : QEntry) : Bool :=
  let rows := m.cls == .rows
  let works := h.usesOf m != RegUse.none
  (!h.resume.isEmpty && (rows || works)) ||
  (h.vwork.any fun e => decide (e.seq < m.seq) &&
    (h.ordered m e || (rows && e.fullEmpty) || (works && e.trims && e.strip == m.strip))) ||
  (match h.round with
    | none => false
    | some r => decide (r.seq < m.seq) && (works || (rows && !r.past fullEmptyLoad)))

/-- A matrix queue entry may be performed: no older vector work and no shrink stands before it. -/
def Hart.mready (h : Hart) (m : QEntry) : Bool :=
  !h.mheld && h.mfault.isNone && !h.resizeBefore m.seq && !h.vectorBefore m

/-- Nothing older stands before an entry issued now: it is performed at once (notes/assumptions/11.md). -/
def Hart.quiet (h : Hart) (q : QClass) (e : QEntry) : Bool :=
  if q.inMatrix then h.mq.isEmpty && h.mready e else h.vwork.isEmpty && h.vready e

/-! ## Issue (R254, R342) -/

/-- A queue image of either kind is held (R339, R340). -/
def Hart.held (h : Hart) : Bool := h.vheld || h.mheld

/-- The queue of a class is full: 32 entries, or 16 of the matrix queue (R254, R216). -/
def Hart.full (h : Hart) (q : QClass) : Bool :=
  if q.inMatrix then decide (16 ≤ h.mq.length) else decide (32 ≤ h.vq.length)

/-- The hart with an entry put into its queue: it has used `vstart` up (R59). -/
def Hart.push (h : Hart) (q : QClass) (e : QEntry) : Hart :=
  let vc := { h.vc with vstart := if q.usesStart then 0 else h.vc.vstart }
  let h := { h with seq := h.seq + 1, sread := none, vc := vc }
  if q.inMatrix then { h with mq := h.mq ++ [e] } else { h with vq := h.vq ++ [e] }

/-- The first poisoned register, or register with a poisoned tag, that an entry reads (R379). -/
def Hart.poisonedRead (h : Hart) (e : QEntry) : Option (Nat × Nat) :=
  let u := h.usesOf e
  let r := match decodeControl e.word, e.vtype with
    | some i, some t => (h.vec.withTags (tagSources i) e.tags).runReads t i
    | _, _ => (0#32, 0#32)
  (h.vec.poisonedRead { u with rv := u.rv ||| r.1 }).orElse fun _ =>
    ((List.range 32).find? (h.vec.poisonTag &&& r.2).getLsbD).map ((0, ·))

/-- An entry performs something (R59, R152): one that does not neither pops nor writes. -/
def QEntry.acts (e : QEntry) (i : Instr) : Bool := decide (0 < e.vl) && (wholeForm i || decide (e.start < e.vl))

/-- The bound streams whose group is one of the source groups, each once: those bound at the first register of a group as the instruction
reads it, under its own LMUL, whatever LMUL was when the stream was bound (R140; notes/assumptions/40.md). -/
def Hart.boundTo (h : Hart) (srcs : List VName) : List (Fin 4) :=
  (List.finRange 4).filter fun i => match h.streams[i] with
    | some b => srcs.any fun v => v.val == b.group
    | none => false

/-- The streams whose next strips an entry still has to pop (R140). -/
def Hart.pops (h : Hart) (e : QEntry) (i : Instr) : List (Fin 4) :=
  match e.vtype with
  | some t => if e.popped || !e.acts i then [] else h.boundTo (popSources t.mul i)
  | none => []

/-- The registers that the pop of a strip by an entry writes. -/
def QEntry.popSet (e : QEntry) (t : VType) (b : Stream) : BitVec 32 :=
  let per := e.vlen / t.sew
  groupSet ((e.vl - 1) / per + 1 - e.start / per) (b.group + e.start / per)

/-- An entry that reads its registers only once it has begun as a run instruction or has popped its strips, whose writes come first: what it
reads that is poisoned is found then (R174, R175, R379). -/
def Hart.readsLater (h : Hart) (e : QEntry) : Bool :=
  match decodeControl e.word with
  | some i => isRun i || !(h.pops e i).isEmpty
  | none => false

/-- The entry reads a poisoned register: it stops there (R379), at its START. -/
def poisonCheck (e : QEntry) (act : QEntry → State → VecRes) (s : State) : VecRes :=
  match s.hart.poisonedRead e with
  | some o =>
    .fault s e ⟨24, 6, 0, 0#64, e.pc, e.start, s.hart.laneOf e.vlen ((e.vtype.map VType.sew).getD 64) e.start, none, some o, none,
      some (s.hart.vec.sliceOf o)⟩
  | none => act e s

/-- An entry performed, with the check for poisoned registers before it where it reads them at once. -/
def perform (e : QEntry) (act : QEntry → State → VecRes) (s : State) : VecRes :=
  if s.hart.readsLater e then act e s else poisonCheck e act s

end Sys2Proof.Machine
end

