-- ==== Sys2Proof/Machine/Sync.lean ====
section
/-!
DEFINITION. Where the control thread meets its queues (R255): pending faults and their trap (R333 to R340), the holding of a
round (R346, R347), synchronising points, synchronising reads, and the resumption of held work (R343).
-/

namespace Sys2Proof.Machine

/-! ## The trap of a vector fault (R334 to R336) -/

/-- `svtrap0` (R335): the kind, the access, the queue position, the queue and the place. -/
def svtrap0Word (id : Nat) (f : VecFault) (qpos : Nat) (mq : Bool) : Word :=
  BitVec.ofNat 64 (2 ^ 63 + f.kind % 256 * 2 ^ 48 + f.acc % 4 * 2 ^ 46 + qpos % 64 * 2 ^ 40 + mq.toNat * 2 ^ 39
    + placeBits id f.lg)

/-- `svtrap2` (R336): the word of a block, the resume group, and the element. -/
def svtrap2Word (f : VecFault) (group : Option Nat) : Word :=
  BitVec.ofNat 64 (f.bidx.isSome.toNat * 2 ^ 63 + group.getD 0 % 8 * 2 ^ 60 + f.bidx.getD 0 % 16 * 2 ^ 56
    + group.isSome.toNat * 2 ^ 55 + f.elem % 2 ^ 36)

/-- `svtrap3` (R336): the named operand. -/
def svtrap3Word (f : VecFault) : Word :=
  match f.operand with
  | none => 0#64
  | some (cls, reg) => BitVec.ofNat 64 (2 ^ 15 + cls % 8 * 2 ^ 12 + reg % 64)

/-- The trap of a fault of causes 24 to 30: the exception is taken at the instruction of the control thread, and the trap CSRs
describe the fault (R334 to R336). -/
def Hart.takeVectorTrap (h : Hart) (id : Nat) (f : VecFault) (qpos : Nat) (mq : Bool) (group : Option Nat) : Hart :=
  let h := h.takeTrap false f.cause f.tval
  { h with csr := { h.csr with
      svtrap0 := svtrap0Word id f qpos mq
      svtrap1 := f.vpc
      svtrap2 := svtrap2Word f group
      svtrap3 := svtrap3Word f } }

/-- The precise trap of an instruction of the control thread that reads a poisoned register: its operand where it has one, and the lane
group of the error (R379). -/
def State.poisonTrap (s : State) (operand : Option (Nat × Nat)) (slice : Nat) : State :=
  let f : VecFault := ⟨24, kindDataError, 0, 0#64, s.hart.pc, 0, 0, none, operand, none, some slice⟩
  { s with hart := s.hart.takeVectorTrap s.hartId f 0 false none }.noteFault s.hartId f

/-! ## Holding a round (R346, R347) -/

/-- The faults of a round's micro-threads, in element order. -/
def Round.faults (r : Round) : List (Micro × VecFault) :=
  r.micros.filterMap fun m => match m.place with
    | .aside (some f) => some (m, f)
    | _ => none

/-- The fault that a round reports: that of its lowest faulting element (R334). -/
def Round.fault? (r : Round) : Option VecFault :=
  match r.faults.head?, r.overflow with
  | some p, some o => if p.1.elem < o.elem then some p.2 else some o
  | some p, none => some p.2
  | none, o => o

/-- A micro-thread as it is held: one that has ended its block stands at word 0 of a target it has not begun. -/
def Micro.held (m : Micro) : Micro :=
  match m.ended, m.place with
  | .fetched t, .aside f => { m with block := t, idx := 0, ended := .running, place := .aside f, waited := none, begun := false }
  | .fetched t, _ => { m with block := t, idx := 0, ended := .running, place := .waiting, waited := none, begun := false }
  | .running, _ => { m with waited := none }

/-- The block addresses of micro-threads, rising, each once. -/
def blockAddresses (ms : List Micro) : List Nat :=
  (ms.map fun m => m.held.block.toNat).foldl (fun l a => insertUnique l a) []
where
  /-- A rising list with a number in it. -/
  insertUnique : List Nat → Nat → List Nat
    | [], a => [a]
    | b :: l, a => if a < b then a :: b :: l else if a = b then b :: l else b :: insertUnique l a

/-- The code that a round's fetch groups have read at a block address, those that have gone among them. -/
def Round.codeAt (r : Round) (block : Word) : Option (List (Nat × Instr)) :=
  ((r.groups.find? fun g => g.block == block).map (·.code)).orElse fun _ => (r.codes.find? fun c => c.1 == block).map (·.2)

/-- The resume groups of a round (R346): held micro-threads that share a block address, numbered in ascending order of it. An overflow
that is not the fault reported stays pending with the first, which has no members where no micro-thread is left. -/
def Round.resumeGroups (r : Round) (reported : Option VecFault) : List ResumeGroup :=
  let pending := if r.overflow = reported then none else r.overflow
  let blocks := if r.micros.isEmpty then (pending.map (·.vpc.toNat)).toList else blockAddresses r.micros
  blocks.zipIdx.map fun p =>
    { num := p.2
      block := BitVec.ofNat 64 p.1
      vl := r.vl
      log2vlen := r.log2vlen
      vtype := r.vtype
      mode := r.mode
      code := r.codeAt (BitVec.ofNat 64 p.1)
      micros := (r.micros.map Micro.held).filter fun m => m.block.toNat == p.1
      fault := none
      overflow := if p.2 = 0 then pending else none }

/-- The resume group that holds an element. -/
def groupOf (gs : List ResumeGroup) (e : Nat) : Option Nat :=
  (gs.find? fun g => g.micros.any fun m => m.elem == e).map (·.num)

/-- The hart with its round held, as a fault is reported or none: its resume groups, with HELD on the queue entry that has not completed
(R341). -/
def Hart.holdRound (h : Hart) (reported : Option VecFault) : Hart :=
  match h.round with
  | none => h
  | some r =>
    { h with
      round := none
      mt := none
      resume := r.resumeGroups reported
      vq := if r.opened then h.vq.map fun e => if e.seq = r.seq then { e with held := true } else e else h.vq }

/-- The hart with its vector queue held as the queue image (R339): the entries that have not completed. -/
def Hart.holdQueue (h : Hart) : Hart := { h with vq := h.vwork, vheld := true, headWait := none, chains := [] }

/-! ## Pending faults (R334, R340) -/

/-- The entry of the vector queue whose round is in progress. -/
def Hart.roundEntry (h : Hart) (e : QEntry) : Bool :=
  match h.round with
  | some r => r.opened && r.seq == e.seq
  | none => false

/-- The entry of the vector queue that a fault of it stopped, with its position in the image: the oldest but the one whose round
is in progress. -/
def Hart.faultEntry (h : Hart) : Option (QEntry × Nat) := h.vwork.zipIdx.find? fun p => !h.roundEntry p.1

/-- The vector queue entry to perform now: the oldest that has not completed, past the one whose round is in progress. -/
def Hart.vnext (h : Hart) : Option QEntry := (h.vwork.find? fun e => !h.roundEntry e).filter h.vready

/-- The matrix queue entry to perform now. -/
def Hart.mnext (h : Hart) : Option QEntry := h.mq.head?.filter h.mready

/-- The place in program order of each pending fault: of the vector queue, the matrix queue and the round. A fault of the vector
queue also waits for a round that an older entry has opened (R339). -/
def Hart.faultOrder (h : Hart) : Option Nat × Option Nat × Option Nat :=
  (h.vfault.bind fun _ => h.faultEntry.map (·.1.seq), h.mfault.bind fun _ => h.mq.head?.map (·.seq),
    h.round.bind fun r => if r.fault?.isSome || (r.opened && h.vfault.isSome) then some r.seq else none)

/-- The first of a place is not after the second; an absent one is after every place. -/
def notAfter (a b : Option Nat) : Bool :=
  match a, b with
  | some a, some b => decide (a ≤ b)
  | _, none => true
  | none, some _ => false

/-- The state in which a pending fault of the vector queue is taken. -/
def State.takeQueueFault (s : State) (f : VecFault) : State :=
  let qpos := (s.hart.faultEntry.map (·.2)).getD 0
  { s with hart := { (s.hart.takeVectorTrap s.hartId f qpos false none).holdQueue with reported := some false } }

/-- The state in which a pending fault of the matrix queue is taken. -/
def State.takeMatrixFault (s : State) (f : VecFault) : State :=
  { s with hart := { s.hart.takeVectorTrap s.hartId f 0 true none with mheld := true, reported := some true } }

/-- The state in which a pending micro-thread fault is taken: the round is held (R346). A round whose queue entry has completed
belongs to no entry. -/
def State.takeMicroFault (s : State) (r : Round) (f : VecFault) : State :=
  let groups := r.resumeGroups (some f)
  let h := s.hart.takeVectorTrap s.hartId f (if r.opened then 0 else 63) false (groupOf groups f.elem)
  { s with hart := { (h.holdRound (some f)).holdQueue with reported := if r.opened then some false else none } }

/-- The copy of the selected hart that a fault holds in the CE, with its fault (R147). -/
def State.copyFault? (s : State) : Option (Nat × VecFault) :=
  (s.copies.find? fun c => c.hart == s.hartId && c.held.isSome).bind fun c => c.held.map fun f => (c.id, f)

/-- The state in which the fault of a held copy is taken: QPOS 63, and the image holds what has not completed (R147). -/
def State.takeCopyFault (s : State) (c : Nat × VecFault) : State :=
  { s with hart :=
      { (s.hart.takeVectorTrap s.hartId c.2 63 false none).holdQueue with reported := none, copyTrap := some c.1 } }

/-- The state in which the control thread takes the oldest pending fault, or, for the fault of a round, waits until the round
can be held; none while no fault is pending. -/
def State.takePending (s : State) : Option State :=
  let o := s.hart.faultOrder
  match s.hart.vfault, s.hart.mfault, s.hart.round with
  | some f, m, r =>
    if notAfter o.1 o.2.1 && notAfter o.1 o.2.2 then some (s.takeQueueFault f)
    else match m, r with
      | some f, _ => if notAfter o.2.1 o.2.2 then some (s.takeMatrixFault f) else takeRound
      | none, _ => takeRound
  | none, some f, _ => if notAfter o.2.1 o.2.2 then some (s.takeMatrixFault f) else takeRound
  | none, none, _ => takeRound
where
  /-- The fault of the round: the round runs to where it can be held (R346). -/
  takeRound : Option State :=
    match s.hart.round with
    | none => none
    | some r =>
      match r.fault? with
      | none => if r.opened && s.hart.vfault.isSome then some s else none
      | some f =>
        if r.holding = .stopped then some (s.takeMicroFault r f)
        else if r.holding = .no then some { s with hart := { s.hart with round := some { r with holding := .stopping } } }
        else some s

/-! ## Synchronising points (R255, R342) -/

/-- Work of the vector queue that a synchronising point waits for: what is not held, nor stopped by a fault, nor ordered after a held
matrix entry. -/
def Hart.vbusy (h : Hart) : Bool :=
  !h.vheld && h.vfault.isNone && (h.round.bind Round.fault?).isNone && (match h.vhead with
    | none => false
    | some e => !(h.mheld && h.mq.any fun m => decide (m.seq < e.seq) && h.ordered e m))

/-- The oldest matrix entry is ordered after vector work that an image or a fault stops. -/
def Hart.mstuck (h : Hart) : Bool :=
  (h.vheld || h.vfault.isSome || (h.round.bind Round.fault?).isSome) && ((h.mq.head?.map h.vectorBefore).getD false)

/-- Work of the matrix queue that an instruction waits for (R215, R342): what is not held, nor stopped by a fault, nor ordered after
stopped vector work. -/
def Hart.mbusy (h : Hart) : Bool := !h.mheld && h.mfault.isNone && !h.mq.isEmpty && !h.mstuck

/-- Where older work must have completed: while an image is held this only waits for work that is not; otherwise the oldest pending
fault is taken, and then it waits while `busy`. None: there is no such work left. -/
def awaitOlder (s : State) (busy : Bool) : Option State :=
  if s.hart.held then (if busy then some s else none)
  else match s.takePending with
    | some s' => some s'
    | none => if busy then some s else none

/-- A SYNCHRONISING POINT: older work completes, and then the fault of a held copy is taken, once every older entry of either queue has
completed (R147). None: the instruction goes on. -/
def syncPoint (s : State) (busy : Bool) : Option State :=
  (awaitOlder s busy).orElse fun _ =>
    if s.hart.held then none
    else s.copyFault?.map fun c => if s.hart.vbusy || s.hart.mbusy then s else s.takeCopyFault c

/-! ## Illegal instructions (R81) -/

/-- An illegal-instruction exception with its trap value, once every older instruction has completed (R81, notes/assumptions/34.md). -/
def State.illegalWord (s : State) (w : Word) : State :=
  (awaitOlder s (s.hart.vbusy || s.hart.mbusy)).getD (s.takeTrap causeIllegal w)

/-- The illegal-instruction exception of an instruction (R81): the trap value is its encoding. -/
def State.illegal (s : State) (i : Instr) : State := s.illegalWord (((encodeControl i).getD 0#32).setWidth 64)

/-! ## Issue (R254, R342) -/

/-- ISSUE of a queued instruction. The entry that the vector side performs is settled. Otherwise the control thread has reached
the instruction: while an image is held it is illegal (R342); an encoding or operand its rule makes illegal is (R81); it
stalls at a full queue; else its entry is queued, and performed at once where nothing older stands before it. -/
def issue (s : State) (i : Instr) (legal : Bool) (q : QClass) (c : Cap) (act : QEntry → State → VecRes) : Result :=
  match s.hart.replay with
  | some e => settle q e (perform e act s)
  | none =>
    if s.hart.held || !legal then .next (s.illegal i)
    else if s.hart.full q then .next s
    else
      let e := s.hart.entry i c q
      let s' := { s with hart := (s.hart.push q e).goTo (s.hart.pc + 4#64) }
      if s.hart.quiet q e then settle q e (perform e act s') else .next s'

/-- A synchronising read (R255): its entry is performed when every older entry has completed, and its values are written when
it completes. One whose own entry stopped at a fault, or waits, is executed again and finds the values of that entry
(notes/assumptions/14.md). -/
def issueSync (s : State) (i : Instr) (legal : Bool) (c : Cap) (act : QEntry → State → VecRes) : Result :=
  match s.hart.replay with
  | some e => settle .vector e (perform e act s)
  | none =>
    if s.hart.held || !legal then .next (s.illegal i)
    else match s.hart.sread with
      | some (pc, vals) =>
        if pc = s.hart.pc then
          .next { s with hart := ({ s.hart with sread := none }.setXs vals).goTo (s.hart.pc + 4#64) }
        else fresh
      | none => fresh
where
  /-- The read begins. -/
  fresh : Result :=
    match syncPoint s s.hart.vbusy with
    | some s' => .next s'
    | none =>
      let e := s.hart.entry i c .vector
      let s' := { s with hart := s.hart.push .vector e }
      if s.hart.quiet .vector e then
        match perform e act s' with
        | .done t vals =>
          .next { t with hart := ((t.hart.retire .vector e).setXs vals).goTo (t.hart.pc + 4#64) }
        | res => settle .vector e res
      else .next s'

/-! ## Resumption at SRET (R343) -/

/-- The fetch groups in which held micro-threads continue: one for each resume group with members that have begun its block,
the fifth and later ones parked. -/
def resumedGroups (gs : List ResumeGroup) (cycle : Nat) : List FetchGroup :=
  (gs.filter fun g => g.micros.any (·.begun)).zipIdx.map fun p =>
    ⟨p.2, p.1.block, p.1.code.getD [], decide (4 ≤ p.2), cycle, []⟩

/-- A held micro-thread as it continues in a fetch group, or waits for its target. -/
def Micro.resumed (m : Micro) (groups : List FetchGroup) : Micro :=
  let m := { m with first := true, ended := .running, waited := none }
  if !m.begun then { m with place := .waiting, idx := 0 }
  else match groups.find? fun g => g.block == m.block with
    | some g => { m with place := .group g.id }
    | none => { m with place := .waiting }

/-- A micro-thread put into its place in element order. -/
def placeMicro (m : Micro) : List Micro → List Micro
  | [] => [m]
  | o :: ms => if m.elem ≤ o.elem then m :: o :: ms else o :: placeMicro m ms

/-- The micro-threads of resume groups in element order. -/
def resumedMicros (gs : List ResumeGroup) (groups : List FetchGroup) : List Micro :=
  ((gs.flatMap (·.micros)).map (·.resumed groups)).foldr placeMicro []

/-- The round that continues resume groups (R232): `seq` is the place in program order, `opened` says that a queue entry waits
for it. -/
def continueRound (gs : List ResumeGroup) (seq cycle : Nat) (opened : Bool) : Option Round :=
  match gs with
  | [] => none
  | g :: _ =>
    let groups := resumedGroups gs cycle
    some { seq := seq, strip := 0, vl := g.vl, log2vlen := g.log2vlen, vtype := g.vtype, opened := opened, holding := .no,
           overflow := gs.findSome? (·.overflow), mode := g.mode, micros := resumedMicros gs groups, groups := groups, codes := [],
           nextId := groups.length }

/-- The hart with its held work resumed (R343): the resume groups as if by `vresume.all`, then the images from their entries'
START; the faults that held them are gone. -/
def Hart.resumeHeld (h : Hart) (cycle : Nat) : Hart :=
  if h.held then
    let entry := h.vq.find? (·.held)
    { h with
      vheld := false
      mheld := false
      vfault := if h.vheld then none else h.vfault
      mfault := if h.mheld then none else h.mfault
      reported := none
      vq := h.vq.map fun e => { e with held := false }
      round := if h.resume.isEmpty then h.round
               else continueRound h.resume ((entry.map (·.seq)).getD 0) cycle entry.isSome
      resume := [] }
  else h

/-- The state in which the copy whose fault the trap delivered goes on (R147). -/
def State.resumeCopy (s : State) : State :=
  { s with
    hart := { s.hart with copyTrap := none }
    copies := s.copies.map fun c => if s.hart.copyTrap = some c.id then { c with held := none } else c }

end Sys2Proof.Machine
end

