-- ==== Sys2Proof/Machine/Barrier.lean ====
section
/-!
DEFINITION. Barriers (R238 to R242, R292, R303): the object, arrivals and decrements, and BARINIT, BARRIVE, BARWAIT, BARTEST.
-/

namespace Sys2Proof.Machine

/-! ## The object (R238, R239) -/

/-- A barrier object. -/
structure Barrier where
  expect : Nat
  arrived : Nat
  gen : Bool
  err : Bool
  pending : Nat
  deriving DecidableEq, Repr

/-- The barrier object at a physical address. -/
def State.barrier (s : State) (pa : Nat) : Barrier :=
  let w : Word := BitVec.ofNat 64 (Memory.readNum s.memory pa 8)
  let p : Word := BitVec.ofNat 64 (Memory.readNum s.memory (pa + 8) 8)
  ⟨getField w 0 16, getField w 16 16, w.getLsbD 32, w.getLsbD 33, getField p 0 36⟩

/-- The first 16 bytes of a barrier object. -/
def Barrier.bytes (b : Barrier) : List Byte :=
  byteList 8 (b.err.toNat * 2 ^ 33 + b.gen.toNat * 2 ^ 32 + b.arrived % 65536 * 65536 + b.expect % 65536) ++
    byteList 8 (b.pending % 2 ^ 36)

/-- The harts whose BARWAIT waits on an object have seen its release. -/
def Hart.sawRelease (object : Nat) (h : Hart) : Hart :=
  match h.waiting with
  | .barrier o _ => if o = object then { h with waiting := .barrier o true } else h
  | _ => h

/-- The state with a barrier object written by an operation on it: a release shows to the waits on it (R242, R292). -/
def State.setBarrier (s : State) (owner : Option Nat) (pa : Nat) (b : Barrier) : State :=
  let s' := s.writeBytes owner pa b.bytes
  if b.gen = (s.barrier pa).gen then s'
  else { s' with hart := s'.hart.sawRelease pa, others := s'.others.map fun p => (p.1, p.2.sawRelease pa) }

/-- The release test (R239). -/
def Barrier.test (b : Barrier) : Barrier :=
  if b.expect ≤ b.arrived ∧ b.pending = 0 then { b with arrived := 0, gen := !b.gen } else b

/-- One arrival, with the release test. -/
def Barrier.arrive (b : Barrier) : Barrier := { b with arrived := min 65535 (b.arrived + 1) }.test

/-- A decrement of PENDING, with the release test (R239). -/
def Barrier.decrement (b : Barrier) (n : Nat) : Barrier :=
  (if b.pending < n then { b with pending := 0, err := true } else { b with pending := b.pending - n }).test

/-- The arrival of the last hart of a launch, or of another agent, at an object (R245). -/
def State.arriveAt (s : State) (owner : Option Nat) (pa : Nat) : State := s.setBarrier owner pa (s.barrier pa).arrive

/-! ## BARINIT (R240) -/

/-- The place of a barrier object for a scalar instruction: IO memory is an access fault (R238). -/
def barrierPlace (s : State) (va : Word) : Where :=
  match scalarPlace s va 32 .load true with
  | .ok _ true => .trap causeLoadAccess
  | r => r

/-- BARINIT. -/
def execBarinit (a b : XReg) (s : State) : Result :=
  let va := s.x a
  if va.toNat % 32 ≠ 0 then .next (s.takeTrap (misalignedCause s va .store) va)
  else match translate s s.agent s.dataSpace .store va with
    | .page => .next (s.takeTrap causeStorePage va)
    | .access _ => .next (s.accessTrap causeStoreAccess va)
    | .moved => .next s
    | .ok pa io =>
      if io then .next (s.takeTrap causeStoreAccess va)
      else .next (s.writeBytes (some s.hartId) pa (byteList 32 ((s.x b).toNat % 65536))).advance

/-! ## BARRIVE (R241, R303) -/

/-- What a BARRIVE reports (R238): a fault of its one read-modify-write. -/
def barriveFault (e : QEntry) (a : XReg) (kind : Nat) : VecFault :=
  ⟨24, kind, 2, if kind < 3 then e.xa else 0#64, e.pc, 0, 0, none, some (4, a.val), none, none⟩

/-- The firing of a marker: its arrival, and the pair that the hart records. -/
def doBarrive (a : XReg) (e : QEntry) (s : State) : VecRes :=
  if s.hart.round.isSome || !s.hart.resume.isEmpty then .wait s e none
  else if e.xa.toNat % 32 ≠ 0 then .fault s e (barriveFault e a kindMisaligned)
  else match translate s s.agent { s.dataSpace with mode := e.mode } .store e.xa with
    | .page => .fault s e (barriveFault e a kindPage)
    | .access line => .fault s e { barriveFault e a (kindReach line) with line := line }
    | .moved => .wait s e none
    | .ok pa io =>
      if io then .fault s e (barriveFault e a kindIdempotence)
      else if s.poisoned pa then .fault s e { barriveFault e a kindDataError with line := some pa }
      else
        let s' := s.arriveAt (some s.hartId) pa
        .ok { s' with hart := { s'.hart with arrival := some (e.xa, (s.barrier pa).gen) } }

/-- BARRIVE: a marker in the vector queue. -/
def execBarrive (a : XReg) (scope : Scope) (s : State) : Result :=
  issue s (.barrive a scope) true .marker { a := some a } (doBarrive a)

/-! ## BARWAIT and BARTEST (R240, R242) -/

/-- A marker of the hart has not fired. -/
def Hart.unfired (h : Hart) : Bool := h.vwork.any fun e => e.cls == .marker

/-- The recorded GEN, where the recorded pair names the object at a physical address (R241). -/
def recordedGen (s : State) (pa : Nat) : Option Bool :=
  s.hart.arrival.bind fun p =>
    match translate s s.agent s.dataSpace .load p.1 with
    | .ok pa' _ => if pa' = pa then some p.2 else none
    | _ => none

/-- A BARWAIT on the object would proceed at once. -/
def proceeds (s : State) (pa : Nat) : Bool :=
  !s.hart.unfired && (match recordedGen s pa with
    | some g => g != (s.barrier pa).gen
    | none => false)

/-- BARWAIT. -/
def execBarwait (a : XReg) (s : State) : Result :=
  match barrierPlace s (s.x a) with
  | .trap cause => .next (s.accessTrap cause (s.x a))
  | .wait => .next s
  | .ok pa _ =>
    if s.hart.unfired then .next s
    else if proceeds s pa then .next s.advance
    else match s.hart.waiting with
      | .barrier _ true => .next s.advance
      | .barrier o false => if o = pa then .next s else .next { s with hart := { s.hart with waiting := .barrier pa false } }
      | _ => .next { s with hart := { s.hart with waiting := .barrier pa false } }

/-- BARTEST. -/
def execBartest (d a : XReg) (s : State) : Result :=
  match barrierPlace s (s.x a) with
  | .trap cause => .next (s.accessTrap cause (s.x a))
  | .wait => .next s
  | .ok pa _ => .next (s.setX d (if proceeds s pa then 1#64 else 0#64)).advance

/-! ## The events -/

/-- BARWAIT_RETURN: the wait of the selected hart, which runs (R382), returns, its object having been released (R242). -/
def execBarwaitReturn (s : State) : Result :=
  match s.hart.live, s.hart.waiting with
  | true, .barrier _ true => .next s.advance
  | _, _ => .next s

end Sys2Proof.Machine
end

