-- ==== Sys2Proof/Machine/Vector.lean ====
section
/-!
DEFINITION. What the vector instructions share: the elements performed (R124, R127, R150, R152), destinations with their
policies and tags (R51, R57, R125), and the strips that bound streams deliver (R138 to R143).
-/

namespace Sys2Proof.Machine

/-! ## Legality (R44, R56, R81) -/

/-- A condition on the current vector type, which must not be VILL. -/
def legalUnder (s : State) (p : VType → Bool) : Bool :=
  match s.hart.vc.vtype with
  | none => false
  | some t => p t

/-- A group of LMUL registers at a register. -/
def VType.groupAt (t : VType) (v : VName) : Bool := groupOk t.mul v.val

/-- Two groups of LMUL registers overlap. -/
def VType.meet (t : VType) (a b : VName) : Bool := groupsMeet t.mul a.val t.mul b.val

/-- What a vector instruction does under the type of its entry. -/
def QEntry.typed (e : QEntry) (s : State) (act : VType → VecRes) : VecRes :=
  match e.vtype with
  | none => .ok s
  | some t => act t

/-- VLMAX of an entry: LMUL × VLEN / SEW. -/
def QEntry.vlmax (e : QEntry) (t : VType) : Nat := t.mul * e.vlen / t.sew

/-- The space of an entry's accesses. -/
def State.entrySpace (s : State) (e : QEntry) : Space := { s.dataSpace with mode := e.mode }

/-! ## Destinations (R51, R57, R125, R142, R379) -/

/-- The state with the vector file of the selected hart at a value. -/
def State.setVec (s : State) (f : VecFile) : State := { s with hart := { s.hart with vec := f } }

/-- The hart with a write of registers noted: their tags are cleared, and the bindings of streams to them end. -/
def Hart.wrote (h : Hart) (vlen : Nat) (set : BitVec 32) : Hart :=
  { h.unbind set with vec := h.vec.clearTags vlen set }

/-- The state with a write of registers noted. -/
def State.wrote (s : State) (vlen : Nat) (set : BitVec 32) : State := { s with hart := s.hart.wrote vlen set }

/-- A register's bits with every slot of width `w` from `first` on zero. -/
def zeroSlots (v : VecBits) (w first : Nat) : VecBits := v &&& BitVec.ofNat maxVlen (2 ^ (w * first) - 1)

/-- The vector file with the elements of a group from `first` on zero, in `g` registers. -/
def VecFile.zeroFrom (f : VecFile) (vlen n w first : Nat) : Nat → VecFile
  | 0 => f
  | g + 1 =>
    let per := vlen / w
    let f := f.zeroFrom vlen n w first g
    { f with v := match f.v[n + g]? with
        | some v => f.v.setIfInBounds (n + g) (if first ≤ g * per then 0#maxVlen else zeroSlots v w (first - g * per))
        | none => f.v }

/-- The tail of a destination group from element `n` on, under TP (R57). -/
def State.tail (s : State) (e : QEntry) (t : VType) (d : VName) (n : Nat) : State :=
  if t.tp then s.setVec (s.hart.vec.zeroFrom e.vlen d.val t.sew n t.mul) else s

/-- The state after a write of elements of groups of `mul` registers: the poison of a register that is written whole at VLEN ends (R379). -/
def State.cleanse (s : State) (e : QEntry) (w : Nat) (set : BitVec 32) (mul : Nat) (p : Nat → Bool) : State :=
  s.setVec (s.hart.vec.cleanse set mul (e.vlen / w) p)

/-- The elements that an entry writes under a mask: those from the START it was issued with on, or from `first` on, that are active, or are
inactive under MP. -/
def QEntry.covers (e : QEntry) (t : VType) (f : VecFile) (m : Option MName) (first k : Nat) : Bool :=
  decide (max e.base first ≤ k) && (t.mp || (match m with
    | none => true
    | some m => f.maskBit m k))

/-- The progress index of registers at a number of elements (R58). -/
def State.progress (s : State) (set : BitVec 32) (n : Nat) : State := s.setVec (s.hart.vec.progressTo set n)

/-- A destination that an instruction leaves at element `k`, where it has stopped: what it wrote is noted, its progress index is there (R58),
and the poison of registers written whole ends. `set` are the registers of its destination groups, and `wrote` says which elements below `k`
it has written. -/
def State.stopDest (s : State) (e : QEntry) (t : VType) (set : BitVec 32) (k : Nat) (wrote : Nat → Bool) : State :=
  if e.start < k then ((s.wrote e.vlen set).progress set k).cleanse e t.sew set t.mul fun i => decide (i < k) && wrote i else s

/-- A destination group is complete: the write is noted, the elements from `n` on follow TP, its progress index is `n`, and the poison of
registers written whole ends. `wrote` says which elements below `n` were written. -/
def State.finishFrom (s : State) (e : QEntry) (t : VType) (d : VName) (n : Nat) (wrote : Nat → Bool) : State :=
  let set := groupSet t.mul d.val
  (((s.wrote e.vlen set).tail e t d n).progress set n).cleanse e t.sew set t.mul fun i => if i < n then wrote i else t.tp

/-- A destination group is complete up to vl. -/
def State.finishDest (s : State) (e : QEntry) (t : VType) (d : VName) (wrote : Nat → Bool) : State := s.finishFrom e t d e.vl wrote

/-- The state with element `k` of a destination group written at SEW. -/
def State.putElem (s : State) (e : QEntry) (t : VType) (d : VName) (k x : Nat) : State :=
  s.setVec (s.hart.vec.setElem e.vlen d.val t.sew k x)

/-- Element `k` of a group at SEW: its slot as it stands. -/
def State.elemOf (s : State) (e : QEntry) (t : VType) (v : VName) (k : Nat) : Nat := s.hart.vec.elem e.vlen v.val t.sew k

/-- Bits as an element is written: the ignored bits of a 6-bit slot and of an e8m10 container are zero (R17, R18, R154). -/
def VType.raw (t : VType) (x : Nat) : Nat :=
  if t.fmt = .e8m10 then x % 2 ^ 32 / 2 ^ 13 * 2 ^ 13 else x % 2 ^ t.fmt.packed

/-- Element `k` of a group at SEW, its ignored bits read as zero: what is written where the element is copied (R17, R18). -/
def State.valueOf (s : State) (e : QEntry) (t : VType) (v : VName) (k : Nat) : Nat := t.raw (s.elemOf e t v k)

/-- An element is active (R124). -/
def VecFile.active (f : VecFile) (m : Option MName) (k : Nat) : Bool :=
  match m with
  | none => true
  | some m => f.maskBit m k

/-- An inactive element of a destination follows MP (R57). -/
def State.inactive (s : State) (e : QEntry) (t : VType) (d : VName) (k : Nat) : State :=
  if t.mp then s.putElem e t d k 0 else s

/-! ## Elements one after another (R124, R127) -/

/-- What one element does, with what is carried from element to element. -/
inductive Did (α : Type) where
  | go (a : α) (s : State)
  | fault (f : VecFault)
  | wait (granule : Option Nat)
  | pcie (pa : Nat)

/-- How a walk over elements ended: all of them performed, or stopped at one. -/
inductive LoopEnd where
  | all
  | fault (f : VecFault)
  | wait (granule : Option Nat)
  | pcie (pa : Nat)
  deriving DecidableEq, Repr

/-- Elements `k` to `k + n − 1` in ascending order, to the first that cannot be performed: where the walk ended, what it carries,
and the state then. -/
def forElems {α : Type} (body : Nat → α → State → Did α) : Nat → Nat → α → State → Nat × α × State × LoopEnd
  | 0, k, a, s => (k, a, s, .all)
  | n + 1, k, a, s =>
    match body k a s with
    | .go a s => forElems body n (k + 1) a s
    | .fault f => (k, a, s, .fault f)
    | .wait fe => (k, a, s, .wait fe)
    | .pcie pa => (k, a, s, .pcie pa)

/-- The walk of an instruction that may be stopped midway: at the element where it is to pause, as at a pre-emption (R349), else where
`forElems` stops. -/
def walkElems {α : Type} (body : Nat → α → State → Did α) (n k : Nat) (a : α) (s : State) : Nat × α × State × LoopEnd :=
  match s.hart.pause with
  | none => forElems body n k a s
  | some p =>
    if k < p ∧ p < k + n then
      match forElems body (p - k) k a s with
      | (i, a, s, .all) => (i, a, s, .wait none)
      | r => r
    else forElems body n k a s

/-- Elements `k` to `k + n − 1` of which the spec leaves open whether they were performed: each that can be is or is not, by a
free choice (R131, R150; notes/assumptions/10.md). -/
def maybeElems {α : Type} (body : Nat → α → State → Did α) : Nat → Nat → α → State → α × State
  | 0, _, a, s => (a, s)
  | n + 1, k, a, s =>
    let (b, s) := s.drawBit
    match b, body k a s with
    | true, .go a s => maybeElems body n (k + 1) a s
    | _, _ => maybeElems body n (k + 1) a s

/-- The answer of an instruction whose walk ended: completed by `finish`, or stopped with START at the element. -/
def closeLoop (e : QEntry) (k : Nat) (s : State) (r : LoopEnd) (finish : State → VecRes) : VecRes :=
  match r with
  | .all => finish s
  | .fault f => .fault s { e with start := k } f
  | .wait fe => .wait s { e with start := k } fe
  | .pcie pa => .pcie pa

/-- What a vector fault reports (R334 to R338); the lane group is that of the element where the fault names one. -/
def vecFault (s : State) (e : QEntry) (t : VType) (cause kind acc k : Nat) (va : Word) (operand : Option (Nat × Nat)) :
    VecFault :=
  ⟨cause, kind, acc, if cause = 24 ∧ kind < 3 then va else 0#64, e.pc, k,
    if cause = 24 ∨ cause = 30 ∨ (cause = 25 ∧ kind = 4) then s.hart.laneOf e.vlen t.sew k else 0, none, operand, none, none⟩

/-- An element access as one element's doing. -/
def didElem {α : Type} (s : State) (e : QEntry) (t : VType) (acc k : Nat) (va : Word) (operand : Option (Nat × Nat))
    (r : Elem) (go : Nat → State → Did α) : Did α :=
  match r with
  | .ok v s => go v s
  | .fault cause kind line => .fault { vecFault s e t cause kind acc k va operand with line := line }
  | .wait g => .wait g
  | .pcie pa => .pcie pa

/-! ## Streams (R138 to R143) -/

/-- The elements of a stream. -/
def Stream.total (b : Stream) : Nat := b.count * b.rowLen

/-- The elements left. -/
def Stream.left (b : Stream) : Nat := b.total - b.pos

/-- The bytes of an index entry (R138). -/
def Stream.indexBytes (b : Stream) : Nat := 2 ^ (b.ifmt.val + 1)

/-- What an access answers as the end of a walk. -/
def Did.ending {α : Type} : Did α → LoopEnd
  | .go _ _ => .all
  | .fault f => .fault f
  | .wait fe => .wait fe
  | .pcie pa => .pcie pa

/-- The state with a stream of the selected hart at a value. -/
def State.setStream (s : State) (i : Fin 4) (b : Stream) : State :=
  { s with hart := { s.hart with streams := s.hart.streams.set i (some b) } }

/-- Row index entry `r` of a stream, for the pop of element `k`: read once, and kept while elements of its row are popped (R143). -/
def streamRow (s : State) (e : QEntry) (t : VType) (i : Fin 4) (b : Stream) (k r : Nat) : Did Word :=
  match b.row with
  | some (r', w) => if r' = r then .go w s else fetch
  | none => fetch
where
  /-- The entry is read, from idempotent memory. -/
  fetch : Did Word :=
    let ia := b.index + BitVec.ofNat 64 (r * b.indexBytes)
    didElem s e t 0 k ia (some (0, b.group)) (elemLoad s s.agent (s.entrySpace e) ia b.indexBytes b.indexBytes true .plain)
      fun w s => .go (BitVec.ofNat 64 w) (s.setStream i { b with row := some (r, BitVec.ofNat 64 w) })

/-- An element of the strip of stream `i` written into its group: a write like any other to the tags (R125) and to the bindings of the
other streams, though no end of its own (R142). -/
def State.popTo (s : State) (e : QEntry) (t : VType) (i : Fin 4) (b : Stream) (k x : Nat) : State :=
  let set := groupSet 1 (b.group + k / (e.vlen / t.sew))
  let h := s.hart.wrote e.vlen set
  { s with hart := { h with
      vec := h.vec.setElem e.vlen b.group t.sew k x
      streams := h.streams.set i s.hart.streams[i] } }

/-- Element `k` of the next strip of a stream: its row index entry and its data are read (R143: idempotent memory); past the end of
the stream it is 0. The position has not advanced. -/
def popElem (e : QEntry) (t : VType) (k : Nat) (i : Fin 4) (s : State) : State × LoopEnd :=
  match s.hart.streams[i] with
  | none => (s, .all)
  | some b =>
    let p := b.pos + k
    if b.total ≤ p then (s.popTo e t i b k 0, .all)
    else match streamRow s e t i b k (p / b.rowLen) with
      | .go row s =>
        let n := b.sfmt.packed / 8
        let va := b.base + row * b.rowStride + BitVec.ofNat 64 (p % b.rowLen * n)
        match didElem s e t 0 k va (some (0, b.group)) (elemLoad s s.agent (s.entrySpace e) va n n true .plain)
            fun x s => Did.go x s with
        | .go x s => (s.popTo e t i b k x, .all)
        | r => (s, r.ending)
      | r => (s, r.ending)

/-- Element `k` of the next strip of each stream in turn, to the first that cannot be read. -/
def popEach (e : QEntry) (t : VType) (k : Nat) : List (Fin 4) → State → State × LoopEnd
  | [], s => (s, .all)
  | i :: rest, s =>
    match popElem e t k i s with
    | (s, .all) => popEach e t k rest s
    | r => r

/-- Elements `k` to `k + n − 1` of the strips, in ascending order, to the first that cannot be read (R127, R354): every strip holds the
elements below it. -/
def popFrom (e : QEntry) (t : VType) (is : List (Fin 4)) : Nat → Nat → State → Nat × State × LoopEnd
  | 0, k, s => (k, s, .all)
  | n + 1, k, s =>
    match popEach e t k is s with
    | (s, .all) => popFrom e t is n (k + 1) s
    | (s, r) => (k, s, r)

/-- The stream fault of a pop (R140): a stream with no element left, or one of another format. -/
def streamFault (s : State) (e : QEntry) (t : VType) (i : Fin 4) : Option VecFault :=
  (s.hart.streams[i]).bind fun b =>
    if b.left = 0 then some (vecFault s e t 29 0 0 0 0#64 (some (0, b.group)))
    else if t.fmt ≠ b.sfmt then some (vecFault s e t 29 1 0 0 0#64 (some (0, b.group)))
    else none

/-- The pop of the next strips of streams from START on, before any position advances: where it stopped, or all of it. Where two streams
fail at once, that of the lower binding slot is reported (R140; notes/assumptions/40.md). -/
def popAll (e : QEntry) (t : VType) (is : List (Fin 4)) (s : State) : Nat × State × LoopEnd :=
  match is.filterMap (streamFault s e t) with
  | f :: _ => (e.start, s, .fault f)
  | [] => popFrom e t is (e.vl - e.start) e.start s

/-- The state with the positions of popped streams advanced. -/
def State.advanceStreams (s : State) (vl : Nat) (is : List (Fin 4)) : State :=
  is.foldl (fun s i => match s.hart.streams[i] with
    | some b => s.setStream i { b with pos := b.pos + min vl b.left }
    | none => s) s

/-- How an instruction that reads bound groups goes on once its strips are popped: from START, performing its elements below a stop of
the pop (the elements it reads are those it writes); from the START it was issued with, once every strip is complete (it may read
elements above the one it writes); or as a whole (R152, R175). The strips themselves are popped from START on, also before VMOVX and the
others that ignore `vstart` otherwise (R140, R152; notes/assumptions/40.md). -/
inductive Pops where
  | each | issued | whole
  deriving DecidableEq, Repr

/-- The element at which an instruction begins once its strips are popped. -/
def Pops.first (how : Pops) (e : QEntry) : Nat :=
  match how with
  | .each => e.start
  | .issued => e.base
  | .whole => 0

/-- An instruction that stops where its pop stopped: with START there, and its own answer where it stopped below. -/
def VecRes.stopAt (res : VecRes) (e : QEntry) (stop : State → VecRes) : VecRes :=
  match res with
  | .done s _ => stop s
  | .fault s e' f => .fault s { e with start := e'.start } f
  | .wait s e' fe => .wait s { e with start := e'.start } fe
  | .pcie pa => .pcie pa

/-- The state after elements of the strips of streams below `k` have been popped, from the START of the issue on: the poison of registers
written whole ends (R379). -/
def State.cleansePops (s : State) (e : QEntry) (t : VType) (k : Nat) (is : List (Fin 4)) : State :=
  is.foldl (fun s i => match s.hart.streams[i] with
    | some b => s.cleanse e t.sew (groupSet t.mul b.group) t.mul fun j => decide (e.base ≤ j ∧ j < k)
    | none => s) s

/-- An instruction that reads bound groups pops their next strips first (R140); `act` is what it does then, where nothing pops at once. -/
def popStrips (e : QEntry) (s : State) (srcs : List VName) (how : Pops) (act : QEntry → State → VecRes) : VecRes :=
  e.typed s fun t =>
    let is := s.hart.boundTo srcs
    if e.popped || is.isEmpty || e.vl = 0 || (how != .whole && decide (e.vl ≤ e.start)) then act e s
    else match popAll e t is s with
      | (k, s, .all) => act { e with popped := true, start := how.first e } ((s.cleansePops e t k is).advanceStreams e.vl is)
      | (k, s, r) =>
        let s := s.cleansePops e t k is
        let stop (s : State) : VecRes := closeLoop e k s r .ok
        if how = .each ∧ e.start < k then
          (act { e with vl := k, vtype := some { t with tp := false } } s).stopAt e stop
        else stop s

/-- The same, with the check for poisoned registers before it performs its elements: a pop may have written them whole (R379). -/
def popping (e : QEntry) (s : State) (srcs : List VName) (how : Pops) (act : QEntry → State → VecRes) : VecRes :=
  popStrips e s srcs how fun e s => poisonCheck e act s

end Sys2Proof.Machine
end

