-- ==== Sys2Proof/Machine/VecMem.lean ====
section
/-!
DEFINITION. The vector memory instructions of custom-0 (R123 to R143, R148 to R150), without the copy engine.
-/

namespace Sys2Proof.Machine

/-! ## Elements in memory (R17, R126, R129) -/

/-- The element width in bytes of a format whose packed width is whole bytes. -/
def VType.bytes (t : VType) : Nat := t.fmt.packed / 8

/-- The byte at which a packed element lies, counted from the base, with its first bit there (R17). -/
def packedAt (p k : Nat) : Nat × Nat := (k * p / 8, k * p % 8)

/-- A load of a packed element of 2, 4 or 6 bits: from one byte, or from two that it straddles. -/
def loadPacked (s : State) (e : QEntry) (t : VType) (operand : Option (Nat × Nat)) (base : Word) (k : Nat) (idem : Bool)
    (go : Nat → State → Did (Option Nat)) : Did (Option Nat) :=
  let p := t.fmt.packed
  let (byte, bit) := packedAt p k
  let va := base + BitVec.ofNat 64 byte
  let load (s : State) (va : Word) (go : Nat → State → Did (Option Nat)) : Did (Option Nat) :=
    didElem s e t 0 k va operand (elemLoad s s.agent (s.entrySpace e) va 1 1 idem .plain) go
  load s va fun lo s =>
    if bit + p ≤ 8 then go (lo / 2 ^ bit % 2 ^ p) s
    else load s (va + 1#64) fun hi s => go ((lo + 256 * hi) / 2 ^ bit % 2 ^ p) s

/-- One write of a store: its element, and the bits it covers, as the number of its first bit among those of physical memory and a count. -/
structure Wrote where
  elem : Nat
  bit : Nat
  count : Nat
  deriving DecidableEq, Repr

/-- What stores carry: their writes. -/
abbrev Written := List Wrote

/-- A bit of physical memory is among those written. -/
def Written.covers (w : Written) (bit : Nat) : Bool := w.any fun x => inRange x.bit x.count bit

/-- The state after a store: lines it has written whole are no longer poisoned (R378). -/
def State.afterStore (s : State) (w : Written) : State :=
  if s.poison.isEmpty then s else s.clearCovered fun a => (List.range 8).all fun i => w.covers (8 * a + i)

/-- A store of a packed element of 2, 4 or 6 bits: an indivisible update of each byte it lies in (R129). -/
def storePacked (s : State) (e : QEntry) (t : VType) (operand : Option (Nat × Nat)) (base : Word) (k x : Nat) (idem fes : Bool)
    (w : Written) : Did Written :=
  let p := t.fmt.packed
  let (byte, bit) := packedAt p k
  let va := base + BitVec.ofNat 64 byte
  let hole := (2 ^ p - 1) * 2 ^ bit
  let bits := x % 2 ^ p * 2 ^ bit
  let merge (s : State) (va : Word) (hole bits : Nat) (go : Nat → State → Did Written) : Did Written :=
    didElem s e t 1 k va operand (elemMerge s s.agent (s.entrySpace e) va hole bits idem fes) go
  merge s va (hole % 256) (bits % 256) fun pa s =>
    if bit + p ≤ 8 then .go (w ++ [⟨k, 8 * pa + bit, p⟩]) s
    else merge s (va + 1#64) (hole / 256) (bits / 256) fun pa' s =>
      .go (w ++ [⟨k, 8 * pa + bit, 8 - bit⟩, ⟨k, 8 * pa', bit + p - 8⟩]) s

/-- An element that may have been performed at or above a fault (R150): an active one writes its destination, which is noted as a write
of its registers (R51, R142); an inactive one is left as it is. -/
def mayLoad {α : Type} (e : QEntry) (set : BitVec 32) (m : Option MName) (load : Nat → α → State → Did α) (k : Nat) (a : α)
    (s : State) : Did α :=
  if s.hart.vec.active m k then
    match load k a s with
    | .go a s => .go a (s.wrote e.vlen set)
    | r => r
  else .go a s

/-- A load walks its elements into a destination group. `speculate` says that a stop at a fault leaves open which elements at
or above it were written (R150); `ff` that such a fault trims vl instead (R131). -/
def runLoad (e : QEntry) (s : State) (t : VType) (d : VName) (m : Option MName) (speculate : Bool)
    (addr : Bool → Nat → Option Nat → State → Did (Option Nat)) (trim : Nat → State → Option VecRes) : VecRes :=
  if e.vl ≤ e.start then .ok s
  else
    let body (k : Nat) (a : Option Nat) (s : State) : Did (Option Nat) :=
      if s.hart.vec.active m k then addr false k a s else .go a (s.inactive e t d k)
    let wrote := e.covers t s.hart.vec m 0
    let (k, a, s, r) := walkElems body (e.vl - e.start) e.start none s
    let s := match r with
      | .fault _ =>
        if speculate then (maybeElems (mayLoad e (groupSet t.mul d.val) m (addr true)) (e.vl - (k + 1)) (k + 1) a s).2 else s
      | _ => s
    match r with
    | .fault _ =>
      match trim k s with
      | some res => res
      | none => closeLoop e k (s.stopDest e t (groupSet t.mul d.val) k wrote) r .ok
    | r => closeLoop e k (s.stopDest e t (groupSet t.mul d.val) k wrote) r fun s => .ok (s.finishDest e t d wrote)

/-- A load of one element of whole bytes into its slot. -/
def loadTo (s : State) (e : QEntry) (t : VType) (d : VName) (operand : Option (Nat × Nat)) (k : Nat) (va : Word) (idem : Bool)
    (q : FeLoad) (a : Option Nat) : Did (Option Nat) :=
  didElem s e t 0 k va operand (elemLoad s s.agent (s.entrySpace e) va t.bytes t.bytes idem q) fun v s =>
    .go a (s.putElem e t d k v)

/-- vl trimmed to `k` by a load that completes (R131): of the hart, and of the later entries of the same strip interval. -/
def Hart.trim (h : Hart) (e : QEntry) (k : Nat) : Hart :=
  let later (o : QEntry) : QEntry := if o.strip = e.strip ∧ e.seq < o.seq then { o with vl := min o.vl k } else o
  { h with
    vc := if h.vc.strip = e.strip then { h.vc with vl := min h.vc.vl k } else h.vc
    vq := h.vq.map later
    mq := h.mq.map later }

/-- The granule of memory in which byte `n` of the array of an entry lies, where it can be accessed (R132). -/
def granuleAt (s : State) (e : QEntry) (acc : Access) (n : Nat) : Option Nat :=
  match translate s s.agent (s.entrySpace e) acc (e.xa + BitVec.ofNat 64 n) with
  | .ok pa _ => some (pa / 16)
  | _ => none

/-- The active elements of an entry from `lo` on, below `hi`, that lie in the granule of element `k`. -/
def granuleMates (s : State) (e : QEntry) (t : VType) (m : Option MName) (lo hi k : Nat) : List Nat :=
  match granuleAt s e .load (k * t.bytes) with
  | none => []
  | g => (List.range hi).filter fun i =>
      decide (lo ≤ i) && s.hart.vec.active m i && granuleAt s e .load (i * t.bytes) == g

/-- Element `k` has been read with the granule that an element before it has consumed (R132). -/
def consumedBefore (s : State) (e : QEntry) (t : VType) (m : Option MName) (k : Nat) : Bool :=
  s.hart.vec.active m k && !(granuleMates s e t m e.base k k).isEmpty

/-- The state in which a pause falls at the next element that has not been read: the elements of a granule are read together with its
bit (R132, R150). -/
def State.pauseGranule (s : State) (e : QEntry) (t : VType) (m : Option MName) : State :=
  let next (p : Nat) : Option Nat := (List.range e.vl).find? fun k => decide (p ≤ k) && !consumedBefore s e t m k
  { s with hart := { s.hart with pause := s.hart.pause.bind next } }

/-- The state after the later elements of a granule have been read with element `k`, which has consumed it. -/
def readMates (s : State) (e : QEntry) (t : VType) (d : VName) (m : Option MName) (k : Nat) : State :=
  (granuleMates s e t m (k + 1) e.vl k).foldl (fun s i =>
    match elemLoad s s.agent (s.entrySpace e) (e.xa + BitVec.ofNat 64 (i * t.bytes)) t.bytes t.bytes false .plain with
    | .ok v s => s.putElem e t d i v
    | _ => s) s

/-- VLE: unit stride. VLE.FEC reads all its elements in a granule together with the bit, which it consumes once, so that it stops at no element
of a granule that it has consumed (R129, R131, R132; notes/assumptions/16.md). -/
def doVle (d : VName) (a : XReg) (ff : Bool) (full : FeLoad) (m : Option MName) (e : QEntry) (s : State) : VecRes :=
  e.typed s fun t =>
    let s := if full = .fec then s.pauseGranule e t m else s
    let operand := some (4, a.val)
    let addr (idem : Bool) (k : Nat) (c : Option Nat) (s : State) : Did (Option Nat) :=
      if t.fmt.packed % 8 ≠ 0 then
        loadPacked s e t operand e.xa k idem fun v s => .go c (s.putElem e t d k v)
      else if full = .fec ∧ consumedBefore s e t m k then .go c s
      else
        let mates (s : State) : State := if full = .fec then readMates s e t d m k else s
        match loadTo s e t d operand k (e.xa + BitVec.ofNat 64 (k * t.bytes)) idem full c with
        | .go c s => .go c (mates s)
        | r => r
    let firstActive := (List.range e.vl).find? fun k => decide (e.start ≤ k) && s.hart.vec.active m k
    runLoad e s t d m (full == .plain) addr fun k s =>
      if ff && firstActive != some k then
        let s := ((s.wrote e.vlen (groupSet t.mul d.val)).tail e t d e.vl).progress (groupSet t.mul d.val) k
        some (.ok { s with hart := s.hart.trim e k })
      else none

/-- VLE. -/
def execVle (d : VName) (a : XReg) (ff : Bool) (full : FeLoad) (nt : Bool) (m : Option MName) (s : State) : Result :=
  issue s (.vle d a ff full nt m) (legalUnder s fun t => t.groupAt d && (full == .plain || t.fmt.isM8)) .vector
    { a := some a } (doVle d a ff full m)

/-- A store walks its elements; a stop at a fault leaves open which elements at or above it were written (R150). `finish` is what
follows its writes, from the element at which it ended. -/
def runStore (e : QEntry) (s : State) (m : Option MName) (body : Bool → Nat → Written → State → Did Written)
    (finish : Nat → Written → State → State) : VecRes :=
  if e.vl ≤ e.start then .ok s
  else
    let each (idem : Bool) (k : Nat) (w : Written) (s : State) : Did Written :=
      if s.hart.vec.active m k then body idem k w s else .go w s
    let (k, w, s, r) := walkElems (each false) (e.vl - e.start) e.start [] s
    let (w, s) := match r with
      | .fault _ => maybeElems (each true) (e.vl - (k + 1)) (k + 1) w s
      | _ => (w, s)
    closeLoop e k (finish k w (s.afterStore w)) r .ok

/-- The granules of memory of an element of VSE: those of its first and its last byte. -/
def granulesOf (s : State) (e : QEntry) (t : VType) (k : Nat) : List Nat :=
  let p := t.fmt.packed
  [k * p / 8, (k * p + p - 1) / 8].filterMap (granuleAt s e .store)

/-- The full-empty bits that VSE.FES sets (R132): of each granule whose active elements below vl have all been written, those below `k` and
those of the writes. -/
def setGranules (e : QEntry) (t : VType) (m : Option MName) (k : Nat) (w : Written) (s : State) : State :=
  let written (i : Nat) : Bool := decide (i < k) || w.any (·.elem == i)
  let whole (g : Nat) : Bool := (List.range e.vl).all fun i =>
    !s.hart.vec.active m i || written i || !(granulesOf s e t i).contains g
  w.foldl (fun s x => if whole (x.bit / 128) then s.setFull (x.bit / 8) true else s) s

/-- A store of one element of whole bytes from its slot. -/
def storeFrom (s : State) (e : QEntry) (t : VType) (d : VName) (operand : Option (Nat × Nat)) (k : Nat) (va : Word)
    (idem fes : Bool) (w : Written) : Did Written :=
  didElem s e t 1 k va operand
    (elemStore s s.agent (s.entrySpace e) va t.bytes t.bytes (s.elemOf e t d k) idem fes) fun pa s =>
    .go (w ++ [⟨k, 8 * pa, 8 * t.bytes⟩]) s

/-- VSE (R129, R130, R132). -/
def doVse (d : VName) (a : XReg) (fes : Bool) (m : Option MName) (e : QEntry) (s : State) : VecRes :=
  popping e s [d] .each fun e' s => e'.typed s fun t =>
    let all := { e' with vl := e.vl }
    let e := e'
    runStore e s m (fun idem k w s =>
      if t.fmt.packed % 8 ≠ 0 then storePacked s e t (some (4, a.val)) e.xa k (s.elemOf e t d k) idem fes w
      else storeFrom s e t d (some (4, a.val)) k (e.xa + BitVec.ofNat 64 (k * t.bytes)) idem fes w)
      fun k w s => if fes then setGranules all t m k w s else s

/-- VSE. -/
def execVse (d : VName) (a : XReg) (fes nt : Bool) (m : Option MName) (s : State) : Result :=
  issue s (.vse d a fes nt m) (legalUnder s fun t => t.groupAt d) .vector { a := some a } (doVse d a fes m)

/-- The address of element `k` at a signed byte stride (R126). -/
def strided (e : QEntry) (k : Nat) : Word := e.xa + BitVec.ofNat 64 k * e.xb

/-- VLSE (R129). -/
def doVlse (d : VName) (a : XReg) (m : Option MName) (e : QEntry) (s : State) : VecRes :=
  e.typed s fun t =>
    runLoad e s t d m true (fun idem k c s => loadTo s e t d (some (4, a.val)) k (strided e k) idem .plain c) fun _ _ => none

/-- VLSE. -/
def execVlse (d : VName) (a b : XReg) (m : Option MName) (s : State) : Result :=
  issue s (.vlse d a b m) (legalUnder s fun t => t.groupAt d && t.fmt.isM8) .vector { a := some a, b := some b }
    (doVlse d a m)

/-- VSSE (R129, R130). -/
def doVsse (d : VName) (a : XReg) (m : Option MName) (e : QEntry) (s : State) : VecRes :=
  popping e s [d] .each fun e s => e.typed s fun t =>
    runStore e s m (fun idem k w s => storeFrom s e t d (some (4, a.val)) k (strided e k) idem false w) fun _ _ s => s

/-- VSSE. -/
def execVsse (d : VName) (a b : XReg) (m : Option MName) (s : State) : Result :=
  issue s (.vsse d a b m) (legalUnder s fun t => t.groupAt d && t.fmt.isM8) .vector { a := some a, b := some b }
    (doVsse d a m)

/-- The address of element `k` by an index, an unsigned SEW-bit integer in elements (R126). -/
def indexed (s : State) (e : QEntry) (t : VType) (b : VName) (k : Nat) : Word :=
  e.xa + BitVec.ofNat 64 (s.elemOf e t b k * t.bytes)

/-- VLXE (R129). -/
def doVlxe (d b : VName) (m : Option MName) (e : QEntry) (s : State) : VecRes :=
  popping e s [b] .each fun e s => e.typed s fun t =>
    runLoad e s t d m true (fun idem k c s => loadTo s e t d (some (0, b.val)) k (indexed s e t b k) idem .plain c)
      fun _ _ => none

/-- VLXE: the destination must not overlap the index (R126). -/
def execVlxe (d : VName) (a : XReg) (b : VName) (m : Option MName) (s : State) : Result :=
  issue s (.vlxe d a b m) (legalUnder s fun t => t.groupAt d && t.groupAt b && !t.meet d b && t.fmt.isM8) .vector
    { a := some a } (doVlxe d b m)

/-- VSXE (R129, R130). -/
def doVsxe (d b : VName) (m : Option MName) (e : QEntry) (s : State) : VecRes :=
  popping e s [d, b] .each fun e s => e.typed s fun t =>
    runStore e s m (fun idem k w s => storeFrom s e t d (some (0, b.val)) k (indexed s e t b k) idem false w) fun _ _ s => s

/-- VSXE. -/
def execVsxe (d : VName) (a : XReg) (b : VName) (m : Option MName) (s : State) : Result :=
  issue s (.vsxe d a b m) (legalUnder s fun t => t.groupAt d && t.groupAt b && t.fmt.isM8) .vector { a := some a }
    (doVsxe d b m)

/-! ## Segments (R133, R134) -/

/-- The first register of field group `j`. -/
def fieldGroup (t : VType) (d : VName) (j : Nat) : VName := Fin.ofNat 32 (d.val + j * t.mul)

/-- The set of F groups is legal: it begins at a multiple of LMUL and ends at or below v31. -/
def fieldsOk (t : VType) (d : VName) (f : Nat) : Bool := decide (d.val % t.mul = 0 ∧ d.val + f * t.mul ≤ 32)

/-- The address of field `j` of segment `k`. -/
def fieldAddr (e : QEntry) (t : VType) (f k j : Nat) : Word := e.xa + BitVec.ofNat 64 ((k * f + j) * t.bytes)

/-- One segment by its fields: all of them, or none where one cannot be performed; in idempotent memory the spec leaves open
which fields of the segment were (R128, R133, R150). -/
def segment {α : Type} (f : Nat) (field : Bool → Nat → α → State → Did α) (idem : Bool) (a : α) (s : State) : Did α :=
  match forElems (field idem) f 0 a s with
  | (_, a, s, .all) => .go a s
  | (_, _, _, .fault f) => .fault f
  | (_, _, _, .wait fe) => .wait fe
  | (_, _, _, .pcie pa) => .pcie pa

/-- VLSEG (R133). -/
def doVlseg (d : VName) (a : XReg) (fields : Fin 8) (m : Option MName) (e : QEntry) (s : State) : VecRes :=
  e.typed s fun t =>
    let f := fields.val + 1
    if e.vl ≤ e.start then .ok s
    else
      let all := (List.range f).foldl (fun set j => set ||| groupSet t.mul (fieldGroup t d j).val) 0#32
      let load (idem : Bool) (k : Nat) (c : Option Nat) (s : State) : Did (Option Nat) :=
        segment f (fun idem j c s => loadTo s e t (fieldGroup t d j) (some (4, a.val)) k (fieldAddr e t f k j) idem .plain c)
          idem c s
      let body (k : Nat) (c : Option Nat) (s : State) : Did (Option Nat) :=
        if s.hart.vec.active m k then load false k c s
        else .go c ((List.range f).foldl (fun s j => s.inactive e t (fieldGroup t d j) k) s)
      let wrote := e.covers t s.hart.vec m 0
      let (k, c, s, r) := walkElems body (e.vl - e.start) e.start none s
      let s := match r with
        | .fault _ => (maybeElems (mayLoad e all m (load true)) (e.vl - (k + 1)) (k + 1) c s).2
        | _ => s
      closeLoop e k (s.stopDest e t all k wrote) r fun s =>
        .ok ((List.range f).foldl (fun s j => s.finishDest e t (fieldGroup t d j) wrote) s)

/-- VLSEG. -/
def execVlseg (d : VName) (a : XReg) (fields : Fin 8) (m : Option MName) (s : State) : Result :=
  issue s (.vlseg d a fields m) (legalUnder s fun t => fieldsOk t d (fields.val + 1) && t.fmt.isM8) .vector { a := some a }
    (doVlseg d a fields m)

/-- VSSEG (R133). -/
def doVsseg (d : VName) (a : XReg) (fields : Fin 8) (m : Option MName) (e : QEntry) (s : State) : VecRes :=
  let f := fields.val + 1
  let groups : List VName := match e.vtype with
    | none => []
    | some t => (List.range f).map (fieldGroup t d)
  popping e s groups .each fun e s => e.typed s fun t =>
    runStore e s m (fun idem k w s =>
      segment f (fun idem j w s =>
        storeFrom s e t (fieldGroup t d j) (some (4, a.val)) k (fieldAddr e t f k j) idem false w) idem w s) fun _ _ s => s

/-- VSSEG. -/
def execVsseg (d : VName) (a : XReg) (fields : Fin 8) (m : Option MName) (s : State) : Result :=
  issue s (.vsseg d a fields m) (legalUnder s fun t => fieldsOk t d (fields.val + 1) && t.fmt.isM8) .vector { a := some a }
    (doVsseg d a fields m)

/-- The segment size S of VSSEGX: the least power of two that holds the scale and the block (R134). -/
def segmentSize (t : VType) : Nat :=
  let payload := 1 + 2 ^ t.bl * t.fmt.packed / 8
  ([1, 2, 4, 8, 16, 32, 64].find? fun n => decide (payload ≤ n)).getD 128

/-- The bytes of segment `j` as one number over what memory holds: the scale byte, the elements written, and zero padding. -/
def segmentNum (s : State) (e : QEntry) (t : VType) (d : VName) (k : KName) (m : Option MName) (j old : Nat) : Nat :=
  let n := 2 ^ t.bl
  let p := t.fmt.packed
  let put (acc i : Nat) : Nat :=
    let x := j * n + i
    let field := if s.hart.vec.active m x && decide (e.start ≤ x) && decide (x < e.vl) then s.elemOf e t d x % 2 ^ p
      else old / 2 ^ (8 + i * p) % 2 ^ p
    acc + field * 2 ^ (8 + i * p)
  (List.range n).foldl put (s.hart.vec.scaleByte k j).toNat

/-- The bytes that memory holds at a virtual address, where it can be written. -/
def oldBytes (s : State) (e : QEntry) (va : Word) (n : Nat) : Nat :=
  match translate s s.agent (s.entrySpace e) .store va with
  | .ok pa _ => Memory.readNum s.memory pa n
  | _ => 0

/-- VSSEGX: one MX block for each segment, each written indivisibly (R134). -/
def doVssegx (d : VName) (a : XReg) (k : KName) (m : Option MName) (e : QEntry) (s : State) : VecRes :=
  popping e s [d] .issued fun e s => e.typed s fun t =>
    if e.vl ≤ e.start then .ok s
    else
      let n := 2 ^ t.bl
      let size := segmentSize t
      let body (j : Nat) (w : Written) (s : State) : Did Written :=
        let touched := (List.range n).any fun i =>
          let x := j * n + i
          s.hart.vec.active m x && decide (e.start ≤ x) && decide (x < e.vl)
        if !touched then .go w s
        else
          let va := e.xa + BitVec.ofNat 64 (j * size)
          didElem s e t 1 (j * n) va (some (4, a.val))
            (elemStore s s.agent (s.entrySpace e) va size size (segmentNum s e t d k m j (oldBytes s e va size)) true false)
            fun pa s => .go (w ++ [⟨j * n, 8 * pa, 8 * size⟩]) s
      let first := e.start / n
      let last := (e.vl + n - 1) / n
      let (j, w, s, r) := forElems body (last - first) first [] s
      let (w, s) := match r with
        | .fault _ => maybeElems body (last - (j + 1)) (j + 1) w s
        | _ => (w, s)
      closeLoop e (j * n) (s.afterStore w) r .ok

/-- VSSEGX: S above 64 and a base not aligned to S are illegal (R134). -/
def execVssegx (d : VName) (a : XReg) (k : KName) (m : Option MName) (s : State) : Result :=
  issue s (.vssegx d a k m) (legalUnder s fun t =>
      t.groupAt d && t.fmt.isSC && decide (segmentSize t ≤ 64) && (s.x a).toNat % segmentSize t == 0) .vector
    { a := some a } (doVssegx d a k m)

/-! ## Scale registers (R135) -/

/-- The scale bytes that go with vl elements. -/
def scaleCount (e : QEntry) (t : VType) : Nat := (e.vl + 2 ^ t.bl - 1) / 2 ^ t.bl

/-- The vector file with the bytes of a scale register from `c` on zero. -/
def VecFile.zeroScaleFrom (f : VecFile) (k : KName) (c : Nat) : VecFile :=
  { f with k := f.k.set k (f.k[k] &&& BitVec.ofNat groupBits (2 ^ (8 * c) - 1)) }

/-- The fault of a scale byte: its lane group is that of the byte (R404). -/
def scaleFault (s : State) (j : Nat) (f : VecFault) : VecFault := if f.cause = 24 then { f with lg := s.hart.laneOfScale j } else f

/-- An access to scale byte `j`, as an element's doing. -/
def didScale {α : Type} (s : State) (e : QEntry) (t : VType) (acc j : Nat) (a : XReg) (r : Elem) (go : Nat → State → Did α) :
    Did α :=
  match didElem s e t acc (j * 2 ^ t.bl) (strided e j) (some (4, a.val)) r go with
  | .fault f => .fault (scaleFault s j f)
  | d => d

/-- VLSC (R135): a scale register has VLEN / 64 bytes (R46), and bytes beyond them are read and not written
(notes/assumptions/40.md). -/
def doVlsc (d : KName) (a : XReg) (e : QEntry) (s : State) : VecRes :=
  e.typed s fun t =>
    if e.vl ≤ e.start then .ok s
    else
      let c := scaleCount e t
      let first := e.start / 2 ^ t.bl
      let body (idem : Bool) (j : Nat) (_ : Unit) (s : State) : Did Unit :=
        didScale s e t 0 j a (elemLoad s s.agent (s.entrySpace e) (strided e j) 1 1 idem .plain) fun v s =>
          .go () (if j < e.vlen / 64 then s.setVec (s.hart.vec.setScaleByte d j (BitVec.ofNat 8 v)) else s)
      let (j, _, s, r) := forElems (body false) (c - first) first () s
      let s := match r with
        | .fault _ => (maybeElems (body true) (c - (j + 1)) (j + 1) () s).2
        | _ => s
      closeLoop e (j * 2 ^ t.bl) s r fun s =>
        let s := if t.tp then s.setVec (s.hart.vec.zeroScaleFrom d c) else s
        .ok (if e.start = 0 ∧ (t.tp ∨ e.vlen / 64 ≤ c) then
          s.setVec { s.hart.vec with poisonK := s.hart.vec.poisonK &&& ~~~scaleSet d } else s)

/-- VLSC. -/
def execVlsc (d : KName) (a b : XReg) (s : State) : Result :=
  issue s (.vlsc d a b) (legalUnder s fun _ => true) .vector { a := some a, b := some b } (doVlsc d a)

/-- VSSC (R135). -/
def doVssc (d : KName) (a : XReg) (e : QEntry) (s : State) : VecRes :=
  e.typed s fun t =>
    if e.vl ≤ e.start then .ok s
    else
      let c := scaleCount e t
      let first := e.start / 2 ^ t.bl
      let body (idem : Bool) (j : Nat) (w : Written) (s : State) : Did Written :=
        didScale s e t 1 j a (elemStore s s.agent (s.entrySpace e) (strided e j) 1 1 (s.hart.vec.scaleByte d j).toNat idem false)
          fun pa s => .go (w ++ [⟨j, 8 * pa, 8⟩]) s
      let (j, w, s, r) := forElems (body false) (c - first) first [] s
      let (w, s) := match r with
        | .fault _ => maybeElems (body true) (c - (j + 1)) (j + 1) w s
        | _ => (w, s)
      closeLoop e (j * 2 ^ t.bl) (s.afterStore w) r .ok

/-- VSSC. -/
def execVssc (d : KName) (a b : XReg) (s : State) : Result :=
  issue s (.vssc d a b) (legalUnder s fun _ => true) .vector { a := some a, b := some b } (doVssc d a)

/-! ## Compress-on-store and expand-load (R136, R137) -/

/-- The presence bit of element `k` (R136). -/
def present (s : State) (e : QEntry) (t : VType) (b : VName) (m : Option MName) (k : Nat) : Bool :=
  s.hart.vec.active m k && s.elemOf e t b k != 0

/-- The number of present elements below `n`. -/
def presentBelow (s : State) (e : QEntry) (t : VType) (b : VName) (m : Option MName) (n : Nat) : Nat :=
  ((List.range n).filter (present s e t b m)).length

/-- Byte `i` of the presence bitmap: bits at and above vl are 0. -/
def bitmapByte (s : State) (e : QEntry) (t : VType) (b : VName) (m : Option MName) (i : Nat) : Nat :=
  ((List.range 8).map fun j =>
    if decide (8 * i + j < e.vl) && present s e t b m (8 * i + j) then 2 ^ j else 0).sum

/-- VSTC (R136): each bitmap byte is written at its first element performed, each present element at its place; the count of those below
vl is returned, where START is not below vl too (notes/assumptions/40.md). -/
def doVstc (d a : XReg) (b : VName) (m : Option MName) (e : QEntry) (s : State) : VecRes :=
  popping e s [b] .each fun e s => e.typed s fun t =>
    let body (idem : Bool) (k : Nat) (w : Written) (s : State) : Did Written :=
      let operand := some (4, a.val)
      let value (w : Written) (s : State) : Did Written :=
        if present s e t b m k then
          let va := e.xa + BitVec.ofNat 64 (presentBelow s e t b m k * t.bytes)
          didElem s e t 1 k va operand
            (elemStore s s.agent (s.entrySpace e) va t.bytes t.bytes (s.elemOf e t b k) idem false) fun pa s =>
            .go (w ++ [⟨k, 8 * pa, 8 * t.bytes⟩]) s
        else .go w s
      if k % 8 = 0 ∨ k = e.start then
        let va := e.xa1 + BitVec.ofNat 64 (k / 8)
        didElem s e t 1 k va operand
          (elemStore s s.agent (s.entrySpace e) va 1 1 (bitmapByte s e t b m (k / 8)) idem false) fun pa s =>
          value (w ++ [⟨k, 8 * pa, 8⟩]) s
      else value w s
    let (k, w, s, r) := walkElems (body true) (e.vl - e.start) e.start [] s
    let (w, s) := match r with
      | .fault _ => maybeElems (body true) (e.vl - (k + 1)) (k + 1) w s
      | _ => (w, s)
    closeLoop e k (s.afterStore w) r fun s =>
      .done s [(d, BitVec.ofNat 64 (presentBelow s e t b m e.vl))]

/-- VSTC: a synchronising read of the count. -/
def execVstc (d : XReg) (a : XReg) (b : VName) (m : Option MName) (s : State) : Result :=
  issueSync s (.vstc d a b m) (legalUnder s fun t => t.groupAt b && t.fmt.isM8) { a := some a, a1 := some (pairOf a) }
    (doVstc d a b m)

/-- The bytes of a bitmap from byte `i` on, `n` of them, with the number of bits set in those before the last one. -/
def readBitmap (e : QEntry) (t : VType) (k : Nat) (operand : Option (Nat × Nat)) (last : Nat)
    (go : Nat → Nat → State → Did (Nat × Nat × Nat)) : Nat → Nat → Nat → Nat → State → Did (Nat × Nat × Nat)
  | 0, _, count, byte, s => go count byte s
  | n + 1, i, count, _, s =>
    let va := e.xa1 + BitVec.ofNat 64 i
    didElem s e t 0 k va operand (elemLoad s s.agent (s.entrySpace e) va 1 1 true .plain) fun v s =>
      readBitmap e t k operand last go n (i + 1) (if i = last then count else count + bits v) v s
where
  /-- The bits set in a byte. -/
  bits (v : Nat) : Nat := ((List.range 8).filter v.testBit).length

/-- VLDX (R137). What is carried: the bitmap bytes read, the bits set in those before the last of them, and that byte. -/
def doVldx (d : VName) (a : XReg) (m : Option MName) (e : QEntry) (s : State) : VecRes :=
  e.typed s fun t =>
    if e.vl ≤ e.start then .ok s
    else
      let operand := some (4, a.val)
      let load (k : Nat) (c : Nat × Nat × Nat) (s : State) : Did (Nat × Nat × Nat) :=
        let i := k / 8
        let before := if c.1 = 0 then 0 else if c.1 ≤ i then c.2.1 + readBitmap.bits c.2.2 else c.2.1
        readBitmap e t k operand i (fun count byte s =>
          let c' := (i + 1, count, byte)
          if byte.testBit (k % 8) then
            let j := count + readBitmap.bits (byte % 2 ^ (k % 8))
            let va := e.xa + BitVec.ofNat 64 (j * t.bytes)
            didElem s e t 0 k va operand (elemLoad s s.agent (s.entrySpace e) va t.bytes t.bytes true .plain)
              fun v s => .go c' (s.putElem e t d k v)
          else .go c' (s.putElem e t d k 0)) (i + 1 - c.1) c.1 before c.2.2 s
      let body (k : Nat) (c : Nat × Nat × Nat) (s : State) : Did (Nat × Nat × Nat) :=
        if s.hart.vec.active m k then load k c s else .go c (s.inactive e t d k)
      let wrote := e.covers t s.hart.vec m 0
      let (k, c, s, r) := walkElems body (e.vl - e.start) e.start (0, 0, 0) s
      let s := match r with
        | .fault _ => (maybeElems (mayLoad e (groupSet t.mul d.val) m load) (e.vl - (k + 1)) (k + 1) c s).2
        | _ => s
      closeLoop e k (s.stopDest e t (groupSet t.mul d.val) k wrote) r fun s => .ok (s.finishDest e t d wrote)

/-- VLDX. -/
def execVldx (d : VName) (a : XReg) (m : Option MName) (s : State) : Result :=
  issue s (.vldx d a m) (legalUnder s fun t => t.groupAt d && t.fmt.isM8) .vector { a := some a, a1 := some (pairOf a) }
    (doVldx d a m)

/-! ## Streams (R138, R139, R142) -/

/-- The control block of a stream, of eight words; none where a reserved bit is set, SFMT is not in M8, IFMT is 3 or ROWLEN is 0
(R138, R139). -/
def scbOf (w : Nat → Word) (group regs : Nat) : Option Stream :=
  let c := w 4
  match Fmt.ofCode (getField c 0 6) with
  | none => none
  | some f =>
    if f.isM8 && getField c 6 2 == 0 && getField c 8 2 != 3 && getField c 10 18 != 0 && getField c 28 36 == 0 &&
        w 5 == 0#64 && w 6 == 0#64 && w 7 == 0#64 then
      some ⟨w 0, w 1, w 2, (w 3).toNat, getField c 10 18, Fin.ofNat 4 (getField c 8 2), f, group, regs, 0, none⟩
    else none

/-- A register of a group of `n` registers is bound in another slot than one (R139). -/
def boundElsewhere (st : Vector (Option Stream) 4) (slot : Fin 4) (n d : Nat) : Bool :=
  (List.finRange 4).any fun i => i != slot && (match st[i] with
    | some o => groupsMeet o.regs o.group n d
    | none => false)

/-- VSBIND (R139). Its control block may lie in IO memory: R143 and R277 keep only index entries and elements out of it
(notes/assumptions/40.md). -/
def doVsbind (d : VName) (a : XReg) (slot : Fin 4) (e : QEntry) (s : State) : VecRes :=
  e.typed s fun t =>
    let operand := some (4, a.val)
    let stream (kind : Nat) (op : Option (Nat × Nat)) : VecRes := .fault s e (vecFault s e t 29 kind 0 0 0#64 op)
    if e.xa.toNat % 64 ≠ 0 then stream 2 operand
    else match elemLoad s s.agent (s.entrySpace e) e.xa 64 64 false .plain with
      | .fault cause kind line => .fault s { e with start := 0 } { vecFault s e t cause kind 0 0 e.xa operand with line := line }
      | .wait g => .wait s e g
      | .pcie pa => .pcie pa
      | .ok v s' =>
        match scbOf (fun i => BitVec.ofNat 64 (v / 2 ^ (64 * i))) d.val t.mul with
        | none => stream 2 operand
        | some b =>
          if boundElsewhere s.hart.streams slot t.mul d.val then stream 3 (some (0, d.val))
          else .ok { s' with hart := { s'.hart with streams := s'.hart.streams.set slot (some b) } }

/-- VSBIND. -/
def execVsbind (d : VName) (a : XReg) (slot : Fin 4) (s : State) : Result :=
  issue s (.vsbind d a slot) (legalUnder s fun t => t.groupAt d) .vector { a := some a } (doVsbind d a slot)

/-- VSUNBIND (R142). -/
def doVsunbind (slot : Fin 4) (_ : QEntry) (s : State) : VecRes :=
  .ok { s with hart := { s.hart with streams := s.hart.streams.set slot none } }

/-- VSUNBIND. -/
def execVsunbind (slot : Fin 4) (s : State) : Result :=
  issue s (.vsunbind slot) (legalUnder s fun _ => true) .vector {} (doVsunbind slot)

/-! ## Full-empty ranges and prefetch (R148, R149) -/

/-- The granules that a byte range meets. -/
def granules (e : QEntry) : Nat := if e.xb = 0#64 then 0 else (e.xa.toNat % 16 + e.xb.toNat + 15) / 16

/-- VFESET and VFECLR: granules in ascending order from granule START (R148). TCM and scratchpad memory mapped as IO has its full-empty
bits like any other (notes/assumptions/40.md). A fault of kind copy length reports granule 0 and leaves `vstart` as it was, which may be another
granule (DESIGN CHOICE, notes/assumptions/45.md: R148 names no granule for it, beside R150). -/
def doVfe (a b : XReg) (value : Bool) (e : QEntry) (s : State) : VecRes :=
  e.typed s fun t =>
    let report (kind k : Nat) (va : Word) (operand : Nat × Nat) : VecFault :=
      { vecFault s e t 24 kind 1 k va (some operand) with lg := 0 }
    if 2 ^ 39 ≤ e.xb.toNat then .fault s e (report kindLength 0 0#64 (4, b.val))
    else
      let body (k : Nat) (_ : Unit) (s : State) : Did Unit :=
        let va := BitVec.ofNat 64 (e.xa.toNat / 16 * 16 + 16 * k)
        let va := if k = 0 then e.xa else va
        match translate s s.agent (s.entrySpace e) .store va with
        | .page => .fault (report kindPage k va (4, a.val))
        | .access line => .fault { report (kindReach line) k va (4, a.val) with line := line }
        | .moved => .wait none
        | .ok pa _ =>
          if hasFullEmpty s.bigMemory pa then .go () (s.setFull pa value) else .fault (report kindFullEmpty k va (4, a.val))
      let (k, _, s, r) := walkElems body (granules e - e.start) e.start () s
      closeLoop e k s r .ok

/-- VFESET. -/
def execVfeset (a b : XReg) (s : State) : Result :=
  issue s (.vfeset a b) (legalUnder s fun _ => true) .free { a := some a, b := some b } (doVfe a b true)

/-- VFECLR. -/
def execVfeclr (a b : XReg) (s : State) : Result :=
  issue s (.vfeclr a b) (legalUnder s fun _ => true) .free { a := some a, b := some b } (doVfe a b false)

/-- VPREF: it changes no architectural state (R149). -/
def execVpref (a b : XReg) (s : State) : Result :=
  issue s (.vpref a b) (legalUnder s fun _ => true) .prefetch { a := some a, b := some b } fun _ s => .ok s

end Sys2Proof.Machine
end

