-- ==== Sys2Proof/Machine/Update.lean ====
section
/-!
DEFINITION. Indexed updates (R234, R235, R237, R290): the read-modify-write of one element, and VUPD.
-/

namespace Sys2Proof.Machine

/-! ## The operations (R234) -/

/-- The formats that an update operation accepts; `.swap` is VAMO's alone. -/
def updAccepts (op : UpdOp) (f : Fmt) : Bool :=
  let ints := f == .i32 || f == .n32 || f == .i64 || f == .n64
  match op with
  | .swap => ints || f == .fp64 || f == .fp32 || f == .e8m10
  | .fadd => f == .fp32 || f == .fp64
  | _ => ints

/-- The update value Op(old, x), with the flags of `.fadd`. -/
def updValue (op : UpdOp) (f : Fmt) (old x : Nat) : Nat × Flags :=
  match op with
  | .add => ((old + x) % 2 ^ f.slot, 0#5)
  | .min => (if f.toInt old ≤ f.toInt x then old else x, 0#5)
  | .max => (if f.toInt x ≤ f.toInt old then old else x, 0#5)
  | .and => (old &&& x, 0#5)
  | .or => (old ||| x, 0#5)
  | .xor => (old ^^^ x, 0#5)
  | .swap => (x, 0#5)
  | .fadd => f.fadd RoundCtx.nearest old x

/-- The indivisible update of `n` bytes at a physical address: the old value, and the state after it (R290). -/
def State.update (s : State) (owner : Option Nat) (pa n : Nat) (op : UpdOp) (f : Fmt) (x : Nat) : Nat × Flags × State :=
  let old := Memory.readNum s.memory pa n
  let r := updValue op f old x
  (old, r.2, s.writeBytes owner pa (byteList n r.1))

/-- One element of an update in a space: the old value and the state with its flags accrued, or its fault. -/
def elemUpdate (s : State) (sp : Space) (va : Word) (op : UpdOp) (f : Fmt) (x : Nat) : Elem :=
  let n := f.packed / 8
  if va.toNat % n ≠ 0 then .fault 24 (kindUnaligned s s.agent sp .store va) none
  else match translate s s.agent sp .store va with
    | .page => .fault 24 kindPage none
    | .access line => .fault 24 (kindReach line) line
    | .moved => .wait none
    | .ok pa io =>
      if io then .fault 24 kindIdempotence none
      else if s.poisoned pa then .fault 24 kindDataError (some pa)
      else
        let r := s.update (some s.hartId) pa n op f x
        .ok r.1 (r.2.2.accrue r.2.1)

/-! ## VUPD (R235) -/

/-- VUPD: the elements from START in ascending order, with `m0` as the mask where it has one. -/
def doVupd (d b : VName) (op : UpdOp) (masked : Bool) (e : QEntry) (s : State) : VecRes :=
  popping e s [d, b] .each fun e s => e.typed s fun t =>
    let m : Option MName := if masked then some 0 else none
    let body (k : Nat) (_ : Unit) (s : State) : Did Unit :=
      if s.hart.vec.active m k then
        let va := indexed s e t b k
        didElem s e t 2 k va (some (0, b.val)) (elemUpdate s (s.entrySpace e) va op t.fmt (s.elemOf e t d k)) fun _ s =>
          .go () s
      else .go () s
    let (k, _, s, r) := walkElems body (e.vl - e.start) e.start () s
    closeLoop e k s r .ok

/-- VUPD: its index group must not overlap its data group (R234). -/
def execVupd (d : VName) (a : XReg) (b : VName) (op : UpdOp) (masked : Bool) (s : State) : Result :=
  issue s (.vupd d a b op masked)
    (legalUnder s fun t => t.groupAt d && t.groupAt b && !t.meet d b && updAccepts op t.fmt && op != .swap) .vector
    { a := some a } (doVupd d b op masked)

end Sys2Proof.Machine
end

