-- ==== Sys2Proof/Machine/Remote.lean ====
section
/-!
DEFINITION. The remote agent (R366 to R371, R375): the windows, what an admitted request does here, the boot generations of other
packages, and the sending of requests.
-/

namespace Sys2Proof.Machine

/-! ## Windows (R367) -/

/-- What a request asks for. -/
inductive Right where
  | get | put | atomic
  deriving DecidableEq, Repr

/-- A window admits a request of a device for `n` bytes at a physical address. -/
def RemoteWindow.admits (w : RemoteWindow) (dev : BitVec 21) (right : Right) (addr n : Nat) (key : BitVec 32) : Bool :=
  let allowed := match right with
    | .get => w.ctl.getLsbD 32
    | .put => w.ctl.getLsbD 33
    | .atomic => w.ctl.getLsbD 34
  w.ctl.getLsbD 63 && allowed && (w.ctl.getLsbD 35 || w.ctl.extractLsb' 36 21 == dev) && w.ctl.extractLsb' 0 32 == key &&
    decide (w.base.toNat ≤ addr) && decide (addr + n ≤ w.base.toNat + w.len.toNat)

/-- One window admits the request. -/
def State.admits (s : State) (dev : BitVec 21) (right : Right) (addr n : Nat) (key : BitVec 32) : Bool :=
  s.remote.windows.any fun p => p.2.admits dev right addr n key

/-! ## Requests performed here (R368, R370) -/

/-- What performing a request answers: a value, or the bytes read, with the state; a refusal of a kind (R371),
with the state in which its error is logged (R382); a data error after which it may or may not have been performed, with the state as it is (R380); or a page that is being moved, or a link that is retraining, for which the request
waits (R356, R363). -/
inductive Served where
  | done (value : Word) (data : List Byte) (s : State)
  | refused (kind : Nat) (s : State)
  | unknown (s : State)
  | moved
  deriving DecidableEq, Repr

/-- What a byte range meets as an access of the remote agent: nothing in its way; a kind of refusal, with the address of a
data error; a page that is being moved, or a link that is retraining. -/
inductive Meets where
  | clear
  | refused (kind : Nat) (line : Option Nat)
  | moved
  deriving DecidableEq, Repr

/-- The first and the last byte of a range as accesses of the remote agent. Where the memory cannot be reached or is not ready, or
`reads` a poisoned line, or no route leads there (R363), the request is refused (notes/assumptions/17.md). -/
def State.meets (s : State) (addr n : Nat) (reads : Bool) : Meets :=
  let last := addr + n - 1
  let ok (pa : Nat) : Bool := reaches .remote (physAt s.bigMemory pa) && s.memoryReady pa
  let route (pa : Nat) : Route := s.routeTo .remote (physAt s.bigMemory pa)
  if !ok addr || !ok last then .refused kindAccess none
  else if route addr = .none ∨ route last = .none then .refused kindDataError (some (if route addr = .none then addr else last))
  else if route addr = .waits ∨ route last = .waits ∨ s.refusesMoved addr ∨ s.refusesMoved last then .moved
  else match (List.range ((addr + n - 1) / 64 - addr / 64 + 1)).find? fun i => reads && s.poisoned (addr + 64 * i) with
    | some i => .refused kindDataError (some (addr + 64 * i))
    | none => .clear

/-- An access of the remote agent to a byte range: what it meets, with a data error logged (R382); where its flit has failed its parity,
data error, and where that was the response the access may have been performed (R380); else what `act` makes of the state. -/
def State.serve (s : State) (addr n : Nat) (reads : Bool) (act : State → Served) : Served :=
  match s.meets addr n reads with
  | .refused k line => .refused k ((line.map fun pa => s.noteData (memoryPlace (physAt s.bigMemory pa)) pa).getD s)
  | .moved => .moved
  | .clear =>
    match s.remote.lost with
    | none => act s
    | some kind =>
      let (took, s) := ({ s with remote := { s.remote with lost := none } } : State).drawBit
      match kind, took, act s with
      | .request, _, _ => .refused kindDataError s
      | .response, true, .done _ _ t => .unknown t
      | _, _, _ => .unknown s

/-- The state with bytes of a copy written: the full-empty bit of every granule of TCM or scratchpad whose last byte of the copy
this is, one that lies between two limits, is set (R146), and a line that the copy has then written whole is no longer poisoned (R322,
R378): `before` and `after` are the bytes below and above these that it has written already. -/
def State.copyWrite (s : State) (pa : Nat) (bytes : List Byte) (low high before after : Nat) : State :=
  let s := s.writeBytes none pa bytes
  let s := if s.poison.isEmpty then s else s.clearCovered (inRange (pa - before) (before + bytes.length + after))
  let granules := (List.range ((pa + bytes.length + 15) / 16 - pa / 16)).map (pa / 16 + ·)
  granules.foldl
    (fun s g =>
      if hasFullEmpty s.bigMemory (16 * g) && decide (low ≤ 16 * g) && decide (16 * g + 16 ≤ high) then s.setFull (16 * g) true
      else s) s

/-- A put performed here. -/
def State.servePut (s : State) (dev : BitVec 21) (addr : Nat) (key : BitVec 32) (data : List Byte) : Served :=
  if !s.admits dev .put addr data.length key then .refused kindAccess s
  else s.serve addr data.length false fun s => .done 0#64 [] (s.copyWrite addr data 0 physEnd 0 0)

/-- A get performed here. -/
def State.serveGet (s : State) (dev : BitVec 21) (addr : Nat) (key : BitVec 32) (len : Nat) : Served :=
  if !s.admits dev .get addr len key then .refused kindAccess s
  else s.serve addr len true fun s => .done 0#64 (Memory.readBytes s.memory addr len) s

/-- An atomic element performed here (R290): an encoding that R234 does not admit, and a misaligned address, are refused. -/
def State.serveAtomic (s : State) (dev : BitVec 21) (addr : Nat) (key : BitVec 32) (op : UpdOp) (f : Fmt) (x : Word) : Served :=
  let n := f.packed / 8
  if !updAccepts op f || addr % n != 0 || !s.admits dev .atomic addr n key then .refused kindAccess s
  else s.serve addr n true fun s =>
    let r := s.update none addr n op f x.toNat
    .done (BitVec.ofNat 64 r.1) [] r.2.2

/-! ## Boot generations (R375) -/

/-- A value of a device in a table. -/
def ofDevice {α : Type} (l : List (BitVec 21 × α)) (dev : BitVec 21) : Option α := (l.find? fun p => p.1 == dev).map (·.2)

/-- A table with a value of a device. -/
def putDevice {α : Type} (l : List (BitVec 21 × α)) (dev : BitVec 21) (v : α) : List (BitVec 21 × α) :=
  (l.filter fun p => p.1 != dev) ++ [(dev, v)]

/-- A record for which no permit returns any more, where a device sent it. -/
def LqRecord.disown (r : LqRecord) (dev : BitVec 21) : LqRecord :=
  match r.sender with
  | some (d, _) => if d = dev then { r with sender := none } else r
  | none => r

/-- The state after everything held for a device is given up: its reserved slots, its cached results and its permits in transit;
no permit returns for the records already accepted. -/
def State.forgetDevice (s : State) (dev : BitVec 21) : State :=
  let r := s.remote
  { s with
    remote := { r with
      reserved := r.reserved.filter (·.dev != dev)
      transit := r.transit.filter (·.dev != dev)
      cached := r.cached.filter (·.1.1 != dev) }
    queues := s.queues.map fun p => (p.1, { p.2 with records := p.2.records.map (·.disown dev) }) }

/-! ## Sending (R366, R368) -/

/-- A request recorded as sent, with its answer where it has one already; `m` is its message by its number. -/
def State.sendRequest (s : State) (dev : BitVec 21) (kind : RemoteKind) (answer : Option (Option Nat × Word))
    (m : Nat → Option Message) : State :=
  let r := s.remote
  let s := { s with remote := { r with
    outstanding := r.outstanding ++ [⟨r.nextReq, dev, kind, s.cycle, answer⟩]
    nextReq := r.nextReq + 1 } }
  match m r.nextReq with
  | some msg => s.send msg
  | none => s

/-- A request is outstanding that satisfies a condition. -/
def State.awaited? (s : State) (p : RemoteKind → Bool) : Option RemoteRequest := s.remote.outstanding.find? fun r => p r.kind

/-- The state without a request. -/
def State.dropRequest (s : State) (req : Nat) : State :=
  { s with remote := { s.remote with outstanding := s.remote.outstanding.filter fun r => r.req != req } }

/-- The state with a request answered. -/
def State.answerRequest (s : State) (req : Nat) (a : Option Nat × Word) : State :=
  { s with remote := { s.remote with outstanding := s.remote.outstanding.map fun r =>
      if r.req = req ∧ r.answer = none then { r with answer := some a } else r } }

/-! ## VAMO (R236) -/

/-- Elements of one VAMO with equal addresses are combined: those of the integer operations (R236). -/
def combines (op : UpdOp) : Bool := op != .swap && op != .fadd

/-- An element of a remote VAMO faults here whatever is sent: it is misaligned, or this package, which performs it, refuses it. -/
def refusedHere (s : State) (e : QEntry) (f : Fmt) (addr : Word) : Bool :=
  let n := f.packed / 8
  let dev : BitVec 21 := e.xa1.extractLsb' 0 21
  addr.toNat % n != 0 ||
    (dev == s.remote.devnum && (!s.admits dev .atomic addr.toNat n (e.xa1.extractLsb' 32 32) || match s.meets addr.toNat n true with
      | .refused _ _ => true
      | _ => false))

/-- The elements of a VAMO from `k` on that one request applies (R236, R368): the one at `k`, and for a combined operation every one of its
address below the first that is known to fault, which with those above it is not to be applied (R237; notes/assumptions/17.md). -/
def requestOf (s : State) (e : QEntry) (t : VType) (b : VName) (op : UpdOp) (k : Nat) : List Nat :=
  if combines op then
    ((List.range' k (e.vl - k)).takeWhile fun j => !refusedHere s e t.fmt (indexed s e t b j)).filter fun j =>
      indexed s e t b j == indexed s e t b k
  else [k]

/-- An element of a VAMO was applied with one below it, from the START that it was issued with on. -/
def combinedBefore (s : State) (e : QEntry) (t : VType) (b : VName) (op : UpdOp) (k : Nat) : Bool :=
  combines op && (List.range' e.base (k - e.base)).any fun j => indexed s e t b j == indexed s e t b k

/-- An element that this package performs meets a page that is being moved. -/
def waitsHere (s : State) (e : QEntry) (f : Fmt) (addr : Word) : Bool :=
  e.xa1.extractLsb' 0 21 == s.remote.devnum && s.meets addr.toNat (f.packed / 8) true == .moved

/-- The value of one request for elements: that of the first, combined in element order with those of the others (R236). -/
def reduced (s : State) (e : QEntry) (t : VType) (d : VName) (op : UpdOp) : List Nat → Nat
  | [] => 0
  | k :: ks => ks.foldl (fun x j => (updValue op t.fmt x (s.elemOf e t d j)).1) (s.elemOf e t d k)

/-- The old values of the elements of a request rebuilt from the value returned: each is the returned value combined with the
elements below it, in order (R236). -/
def rebuild (s : State) (e : QEntry) (t : VType) (d : VName) (op : UpdOp) : Nat → List Nat → List (Nat × Nat)
  | _, [] => []
  | v, k :: ks => (k, v) :: rebuild s e t d op (updValue op t.fmt v (s.elemOf e t d k)).1 ks

/-- The route from an agent to the remote agent, which stands on the application die (R363; notes/assumptions/32.md). -/
def State.routeToRemote (s : State) (a : Agent) : Route := s.route (agentDie a) (agentDie .remote)

/-- What the request of one element of a remote VAMO meets: its answer, or none while it has none, with the state in which it has been
sent or its answer taken, and a data error on its way logged (R382). -/
def remoteElem (s : State) (e : QEntry) (k : Nat) (addr : Word) (op : UpdOp) (f : Fmt) (x : Nat) : State × Option (Option Nat × Word) :=
  let dev : BitVec 21 := e.xa1.extractLsb' 0 21
  let key : BitVec 32 := e.xa1.extractLsb' 32 32
  if addr.toNat % (f.packed / 8) ≠ 0 then (s, some (some kindMisaligned, 0#64))
  else match s.awaited? (· == .atomic s.hartId k) with
  | some r =>
    match r.answer with
    | none => (s, none)
    | some a => (s.dropRequest r.req, some a)
  | none =>
    if s.routeToRemote s.agent = .none then
      (s.noteNoRoute (placeBits s.hartId (s.hart.laneOf e.vlen f.slot k)), some (some kindDataError, 0#64))
    else if s.routeToRemote s.agent = .waits then (s, none)
    else if dev = s.remote.devnum then
      match s.serveAtomic dev addr.toNat key op f (BitVec.ofNat 64 x) with
      | .done v _ s => (s, some (none, v))
      | .refused kind s => (s, some (some kind, 0#64))
      | .unknown s => (s, some (some kindDataError, 0#64))
      | .moved => (s, none)
    else match s.routeEntry dev with
      | .missing kind => (s.noteRoute dev, some (some kind, 0#64))
      | .waits => (s, none)
      | .way _ =>
        (s.sendRequest dev (.atomic s.hartId k) none fun req => some (.atomic req dev addr.toNat key op f (BitVec.ofNat 64 x)),
          none)

/-- A remote VAMO: its requests one after another, in the order of their first elements, each sent when the answer to the one before
has arrived; an answer writes the old values of all its elements (notes/assumptions/17.md). An entry that stops keeps the START that it was
issued with, by which an element above the stop that was applied with one below it is not applied again; none such stands above an element
that was known to fault. Where this package performs the requests and one meets a page that is being moved, none is applied (R356). -/
def doVamoRemote (d b : VName) (op : UpdOp) (e : QEntry) (s : State) : VecRes :=
  popping e s [d, b] .issued fun e s => e.typed s fun t =>
    if e.vl ≤ e.start then .ok s
    else
      let request (s : State) (k : Nat) : State × Option (Option Nat × Word) :=
        if k = e.start ∧ (List.range' k (e.vl - k)).any fun j => waitsHere s e t.fmt (indexed s e t b j) then (s, none)
        else remoteElem s e k (indexed s e t b k) op t.fmt (reduced s e t d op (requestOf s e t b op k))
      let body (k : Nat) (_ : Unit) (s : State) : Did Unit :=
        if combinedBefore s e t b op k then .go () s
        else match request s k with
          | (_, none) => .wait none
          | (_, some (some kind, _)) => .fault (vecFault s e t 24 kind 2 k (indexed s e t b k) (some (0, b.val)))
          | (s', some (none, v)) =>
            let old := rebuild s e t d op v.toNat (requestOf s e t b op k)
            let s' := old.foldl (fun s p => s.putElem e t d p.1 p.2) s'
            .go () (s'.accrue (updValue op t.fmt v.toNat (s.elemOf e t d k)).2)
      let (k, _, s, r) := forElems body (e.vl - e.start) e.start () s
      let e' := if refusedHere s e t.fmt (indexed s e t b k) then { e with base := k } else e
      let wrote := e.covers t s.hart.vec none 0
      let s := s.stopDest e t (groupSet t.mul d.val) k wrote
      let s := match r with
        | .all => s
        | _ => (request s k).1
      closeLoop e' k s r fun s => .ok (s.finishDest e t d wrote)

/-- A local VAMO: the elements in ascending order, each with its old value written into its slot. Where an element meets a page that is
being moved nothing is applied, and the instruction is tried again whole, so that combined elements are applied together (R356). -/
def doVamoLocal (d b : VName) (op : UpdOp) (e : QEntry) (s : State) : VecRes :=
  popping e s [d, b] .issued fun e s => e.typed s fun t =>
    if e.vl ≤ e.start then .ok s
    else
      let body (k : Nat) (_ : Unit) (s : State) : Did Unit :=
        let va := indexed s e t b k
        didElem s e t 2 k va (some (0, b.val)) (elemUpdate s (s.entrySpace e) va op t.fmt (s.elemOf e t d k)) fun v s =>
          .go () (s.putElem e t d k v)
      match forElems body (e.vl - e.start) e.start () s with
      | (_, _, _, .wait g) => .wait s e g
      | (k, _, s, r) =>
        let wrote := e.covers t s.hart.vec none 0
        closeLoop e k (s.stopDest e t (groupSet t.mul d.val) k wrote) r fun s => .ok (s.finishDest e t d wrote)

/-- VAMO. -/
def execVamo (d : VName) (a : XReg) (b : VName) (op : UpdOp) (remote : Bool) (s : State) : Result :=
  issue s (.vamo d a b op remote) (legalUnder s fun t => t.groupAt d && t.groupAt b && !t.meet d b && updAccepts op t.fmt)
    .vector { a := some a, a1 := if remote then some (pairOf a) else none }
    (if remote then doVamoRemote d b op else doVamoLocal d b op)

end Sys2Proof.Machine
end

