-- ==== Sys2Proof/Machine/Copy.lean ====
section
/-!
DEFINITION. The copy engines (R144 to R147, R289, R368): VCOPY, its hand-off, the bytes of a copy, its fault, its completion and
the decrement of PENDING.
-/

namespace Sys2Proof.Machine

/-! ## Bytes of a copy in local memory -/

/-- Why the copy engine stops at a byte: a fault of a kind at an address, for a read or a write; or a page that is being moved. -/
inductive CopyStop where
  | fault (kind acc : Nat) (va : Word) (line : Option Nat)
  | moved
  deriving DecidableEq, Repr

/-- The copy engine of a copy as an agent. -/
def Copy.engine (c : Copy) : Agent := .engine (clusterOf c.hart)

/-- Where a run of bytes lies, or why it cannot be reached. -/
def copyPlace (s : State) (c : Copy) (acc : Access) (va : Word) : Except CopyStop (Nat × Bool) :=
  let code := if acc = .store then 1 else 0
  match translate s c.engine c.space acc va with
  | .page => .error (.fault kindPage code va none)
  | .access line => .error (.fault (kindReach line) code va line)
  | .moved => .error .moved
  | .ok pa io => if acc != .store && s.poisoned pa then .error (.fault kindDataError code va (some pa)) else .ok (pa, io)

/-- How many of `n` bytes from an address on lie in one page, in one access of at most 8 bytes in IO memory (R146), and in one line
while a line is poisoned. -/
def runAbove (s : State) (io : Bool) (va n : Nat) : Nat :=
  let n := min n (4096 - va % 4096)
  let n := if io then min n (8 - va % 8) else n
  if s.poison.isEmpty then n else min n (64 - va % 64)

/-- The same for the `n` bytes below an address. -/
def runBelow (s : State) (io : Bool) (va n : Nat) : Nat :=
  let last := va - 1
  let n := min n (last % 4096 + 1)
  let n := if io then min n (last % 8 + 1) else n
  if s.poison.isEmpty then n else min n (last % 64 + 1)

/-! ## A local copy (R144, R145) -/

/-- The copy runs from its highest byte down. -/
def Copy.backward (c : Copy) : Bool := decide (c.src.toNat < c.dst.toNat ∧ c.dst.toNat < c.src.toNat + c.count)

/-- The physical runs of the source of a local copy, each with the distance between its physical and its virtual address. -/
def Copy.sourceRuns (c : Copy) (s : State) : Nat → Nat → List (Nat × Nat × Int)
  | 0, _ => []
  | n + 1, o =>
    if c.count ≤ o then []
    else
      let va := c.src + BitVec.ofNat 64 o
      let len := min (c.count - o) (4096 - va.toNat % 4096)
      let rest := c.sourceRuns s n (o + len)
      match translate s c.engine c.space .load va with
      | .ok pa _ => (pa, len, (pa : Int) - va.toNat) :: rest
      | _ => rest

/-- Bytes as they are written at a physical address: a byte that the copy also reads, through another mapping of its page, is
undefined (R145, notes/assumptions/10.md). -/
def blurOverlap (runs : List (Nat × Nat × Int)) (shift : Int) : Nat → List Byte → State → List Byte × State
  | _, [], s => ([], s)
  | pa, b :: bs, s =>
    let undefined := runs.any fun r => decide (r.1 ≤ pa ∧ pa < r.1 + r.2.1 ∧ r.2.2 ≠ shift)
    let (b, s) := if undefined then s.drawByte else (b, s)
    let (bs, s) := blurOverlap runs shift (pa + 1) bs s
    (b :: bs, s)

/-- The next run of bytes of a local copy: how many, and the state after them. -/
def localRun (s : State) (c : Copy) (runs : List (Nat × Nat × Int)) : Except CopyStop (Nat × State) := do
  let left := c.count - c.done
  -- the first byte of the run in the direction of the copy
  let at' (base : Word) : Word := base + BitVec.ofNat 64 (if c.backward then left - 1 else c.done)
  let sp ← copyPlace s c .load (at' c.src)
  let dp ← copyPlace s c .store (at' c.dst)
  let run (io : Bool) (va : Word) : Nat :=
    if c.backward then runBelow s io (va.toNat + 1) left else runAbove s io va.toNat left
  let n := min (run sp.2 (at' c.src)) (run dp.2 (at' c.dst))
  let back := if c.backward then n - 1 else 0
  let pa := dp.1 - back
  let (bytes, s) := blurOverlap runs ((dp.1 : Int) - (at' c.dst).toNat) pa (Memory.readBytes s.memory (sp.1 - back) n) s
  let ends := c.done + n = c.count
  let low := if c.backward && !ends then pa else 0
  let high := if c.backward || ends then physEnd else pa + n
  -- the bytes that the copy has written next to these, in the same page
  let place := (at' c.dst).toNat % 4096
  let before := if c.backward then 0 else min c.done place
  let after := if c.backward then min c.done (4095 - place) else 0
  return (n, s.copyWrite pa bytes low high before after)

/-- The runs of a local copy one after another: the bytes complete, the state, and why it stopped before the end. -/
def localRuns (runs : List (Nat × Nat × Int)) : Nat → State → Copy → Nat × State × Option CopyStop
  | 0, s, c => (c.done, s, none)
  | n + 1, s, c =>
    if c.count ≤ c.done then (c.done, s, none)
    else match localRun s c runs with
      | .error e => (c.done, s, some e)
      | .ok (k, s) => localRuns runs n s { c with done := c.done + k }

/-! ## Remote copies (R368) -/

/-- The bytes from a local address on, as many of `n` as can be read. -/
def readLocal (s : State) (c : Copy) : Nat → Word → Nat → List Byte × Option CopyStop
  | 0, _, _ => ([], none)
  | fuel + 1, va, n =>
    if n = 0 then ([], none)
    else match copyPlace s c .load va with
      | .error e => ([], some e)
      | .ok p =>
        let bytes := Memory.readBytes s.memory p.1 (runAbove s p.2 va.toNat n)
        let (more, e) := readLocal s c fuel (va + BitVec.ofNat 64 bytes.length) (n - bytes.length)
        (bytes ++ more, e)

/-- Bytes written from a local address on: how many, the state, and why it stopped. `last` says that they end the copy; `done` is how many
bytes of the copy have been written below them. -/
def writeLocal (c : Copy) (last : Bool) : Nat → State → Word → Nat → List Byte → Nat × State × Option CopyStop
  | 0, s, _, _, _ => (0, s, none)
  | fuel + 1, s, va, done, bytes =>
    if bytes.isEmpty then (0, s, none)
    else match copyPlace s c .store va with
      | .error e => (0, s, some e)
      | .ok p =>
        let n := runAbove s p.2 va.toNat bytes.length
        let high := if last && n == bytes.length then physEnd else p.1 + n
        let s := s.copyWrite p.1 (bytes.take n) 0 high (min done (va.toNat % 4096)) 0
        let (more, s, e) := writeLocal c last fuel s (va + BitVec.ofNat 64 n) (done + n) (bytes.drop n)
        (n + more, s, e)

/-- The bytes of the next request of a remote copy: at most 4 KiB, in one 4 KiB page of the remote address. -/
def Copy.chunk (c : Copy) : Nat :=
  let remote := (if c.kind = .put then c.dst else c.src) + BitVec.ofNat 64 c.done
  min (c.count - c.done) (4096 - remote.toNat % 4096)

/-! ## The table of copies -/

/-- A copy by its number. -/
def State.copy? (s : State) (id : Nat) : Option Copy := s.copies.find? fun c => c.id == id

/-- The state with a copy at a value. -/
def State.putCopy (s : State) (c : Copy) : State :=
  { s with copies := s.copies.map fun o => if o.id = c.id then c else o }

/-- The state without a copy. -/
def State.dropCopy (s : State) (id : Nat) : State := { s with copies := s.copies.filter fun c => c.id != id }

/-- The fault that a copy reports (R147): the PC of the VCOPY, the bytes complete as its element, and no queue entry. -/
def Copy.fault (c : Copy) (kind acc : Nat) (va : Word) : VecFault :=
  ⟨24, kind, acc, if kind < 3 then va else 0#64, c.pc, c.done, 0, none, some (4, if acc = 1 then c.regs.2 else c.regs.1), none, none⟩

/-- Where moving a copy along ends: the state, and whether a fault holds it now. -/
abbrev CopyMove := State × Bool

/-- A copy that has come to `n` bytes: all of them, held by its fault, or waiting for a page. -/
def settleCopy (s : State) (c : Copy) (n : Nat) (stop : Option CopyStop) : CopyMove :=
  let c := { c with done := n, written := n == c.count }
  match stop with
  | none => (s.putCopy c, false)
  | some .moved => (s.putCopy c, false)
  | some (.fault kind acc va line) =>
    let f := { c.fault kind acc va with line := line }
    ((s.putCopy { c with held := some f }).noteFault c.hart f, true)

/-- The bytes of a put request of which the source gave `n` before it stopped: none ends within a granule of the target, whose full-empty
bit is set with the copy's last byte there (R146). -/
def wholeGranules (remote : Word) (n : Nat) : Nat := n - (remote.toNat + n) % 16

/-- A put request of a copy: performed here when it names this package, otherwise sent (R368). -/
def movePut (s : State) (c : Copy) : CopyMove :=
  let remote := c.dst + BitVec.ofNat 64 c.done
  let (read, stop) := readLocal s c c.chunk (c.src + BitVec.ofNat 64 c.done) c.chunk
  let data := if stop.isSome then read.take (wholeGranules remote read.length) else read
  if data.isEmpty then settleCopy s c c.done stop
  else if s.routeToRemote c.engine = .none then
    settleCopy (s.noteNoRoute (placeBits c.hart 0)) c c.done (some (.fault kindDataError 1 remote none))
  else if s.routeToRemote c.engine = .waits then (s, false)
  else if c.dev = s.remote.devnum then
    match s.servePut c.dev remote.toNat c.key data with
    | .done _ _ s => settleCopy s c (c.done + data.length) none
    | .refused kind s => settleCopy s c c.done (some (.fault kind 1 remote none))
    | .unknown s => settleCopy s c c.done (some (.fault kindDataError 1 remote none))
    | .moved => (s, false)
  else match s.routeEntry c.dev with
    | .missing kind => settleCopy (s.noteRoute c.dev) c c.done (some (.fault kind 1 remote none))
    | .waits => (s, false)
    | .way _ =>
      (s.sendRequest c.dev (.put c.id c.done data.length) none fun req =>
        some (.write req c.dev remote.toNat c.key data), false)

/-- The bytes of a get that have arrived are written. -/
def arriveGet (s : State) (c : Copy) (data : List Byte) : CopyMove :=
  let last := c.done + data.length == c.count
  let (n, s, stop) := writeLocal c last data.length s (c.dst + BitVec.ofNat 64 c.done) c.done data
  settleCopy s c (c.done + n) stop

/-- A get request of a copy. -/
def moveGet (s : State) (c : Copy) : CopyMove :=
  let remote := c.src + BitVec.ofNat 64 c.done
  if s.routeToRemote c.engine = .none then
    settleCopy (s.noteNoRoute (placeBits c.hart 0)) c c.done (some (.fault kindDataError 0 remote none))
  else if s.routeToRemote c.engine = .waits then (s, false)
  else if c.dev = s.remote.devnum then
    match s.serveGet c.dev remote.toNat c.key c.chunk with
    | .done _ data s => arriveGet s c data
    | .refused kind s => settleCopy s c c.done (some (.fault kind 0 remote none))
    | .unknown s => settleCopy s c c.done (some (.fault kindDataError 0 remote none))
    | .moved => (s, false)
  else match s.routeEntry c.dev with
    | .missing kind => settleCopy (s.noteRoute c.dev) c c.done (some (.fault kind 0 remote none))
    | .waits => (s, false)
    | .way _ =>
      (s.sendRequest c.dev (.get c.id c.done c.chunk) none fun req => some (.read req c.dev remote.toNat c.key c.chunk), false)

/-- A request of a copy is outstanding. -/
def State.copyAwaits (s : State) (id : Nat) : Bool :=
  s.remote.outstanding.any fun r => match r.kind with
    | .put c _ _ => c == id
    | .get c _ _ => c == id
    | .atomic _ _ => false

/-- A copy moved along: a local one to its end or to its fault; a remote one by a request, while none is outstanding. -/
def moveCopy (s : State) (c : Copy) : CopyMove :=
  if c.held.isSome || c.written then (s, false)
  else match c.kind with
    | .onDevice =>
      let (n, s, stop) := localRuns (c.sourceRuns s c.count 0) c.count s c
      settleCopy s c n stop
    | .put => if s.copyAwaits c.id then (s, false) else movePut s c
    | .get => if s.copyAwaits c.id then (s, false) else moveGet s c

/-! ## The barrier of a copy (R145, R239) -/

/-- The physical place of a barrier object now: that of its virtual address, where that still has one, else the place that it had at the
hand-off; none while its page is being moved, or no route to it carries traffic (R356, R363). -/
def Copy.object (c : Copy) (s : State) (b : Word × Nat) : Option Nat :=
  match translate s c.engine c.space .store b.1 with
  | .ok pa _ => some pa
  | .moved => none
  | _ => if s.routeTo c.engine (physAt s.bigMemory b.2) = .open' ∧ !s.refusesMoved b.2 then some b.2 else none

/-- The state with bytes of a copy taken out of the PENDING of its barrier; none while its object cannot be reached. -/
def State.release (s : State) (c : Copy) (n : Nat) : Option State :=
  match c.bar with
  | none => some s
  | some b => (c.object s b).map fun pa => s.setBarrier none pa ((s.barrier pa).decrement n)

/-- The bytes that have been written, or for a put acknowledged, and that PENDING still counts (R145). -/
def Copy.owed (c : Copy) : Nat := c.pending - (c.count - c.done)

/-- The state in which a held copy is discarded: the bytes not performed leave PENDING (R147, R233), now or, where its object cannot be
reached, when it can: it has nothing else left to do until then. A granule of which it has written only a part keeps its full-empty bit as
it is (DESIGN CHOICE, notes/assumptions/16.md: R146 and R278 set the bit with the copy's last byte there, which is never written). -/
def State.discardCopy (s : State) (c : Copy) : State :=
  match s.release c c.pending with
  | some t => t.dropCopy c.id
  | none => s.putCopy { c with held := none, count := c.done, written := true }

/-- The state in which the held copies of a hart are discarded. -/
def State.discardHeldCopies (s : State) (id : Nat) : State :=
  (s.copies.filter fun c => c.hart == id && c.held.isSome).foldl State.discardCopy s

/-! ## VCOPY (R144, R145) -/

/-- The fault of a VCOPY before its hand-off (R127, R147, R238). -/
def vcopyFault (e : QEntry) (kind acc : Nat) (va : Word) (reg : XReg) : VecFault :=
  ⟨24, kind, acc, if kind < 3 then va else 0#64, e.pc, 0, 0, none, some (4, reg.val), none, none⟩

/-- The copy that an entry describes. -/
def QEntry.copy (e : QEntry) (s : State) (d a : XReg) (kind : CopyKind) (bar : Option (Word × Nat)) : Copy :=
  let pair := if kind = .put then e.xd1 else e.xa1
  { id := s.nextCopy, hart := s.hartId, space := s.entrySpace e, pc := e.pc, kind := kind, src := e.xa, dst := e.xd
    count := e.xb.toNat, done := 0, dev := pair.extractLsb' 0 21, key := pair.extractLsb' 32 32, regs := (a.val, d.val)
    bar := bar, pending := if bar.isSome then e.xb.toNat else 0, written := false, held := none }

/-- The state with a copy handed to the copy engine. -/
def State.accept (s : State) (c : Copy) : State := { s with copies := s.copies ++ [c], nextCopy := s.nextCopy + 1 }

/-- The copy engine and the squall table of a cluster are ready (R388). -/
def State.engineReady (s : State) (g : Nat) : Bool := (s.clusterWord g).getLsbD 32

/-- The hand-off of a VCOPY. A copy engine that is not ready is an access fault (R388; notes/assumptions/43.md). -/
def doVcopy (d a b : XReg) (kind : CopyKind) (bar : Bool) (e : QEntry) (s : State) : VecRes :=
  if !s.engineReady (clusterOf s.hartId) then .fault s e (vcopyFault e kindAccess 0 e.xa a)
  else if 2 ^ 36 ≤ e.xb.toNat then .fault s e (vcopyFault e kindLength 0 0#64 b)
  else if e.xb = 0#64 then .ok s
  else if !bar then .ok (s.accept (e.copy s d a kind none))
  else
    let va := e.xb1
    if va.toNat % 32 ≠ 0 then .fault s e (vcopyFault e kindMisaligned 2 va (pairOf b))
    else match translate s (.engine (clusterOf s.hartId)) (s.entrySpace e) .store va with
      | .page => .fault s e (vcopyFault e kindPage 2 va (pairOf b))
      | .access line => .fault s e { vcopyFault e (kindReach line) 2 va (pairOf b) with line := line }
      | .moved => .wait s e none
      | .ok pa io =>
        if io then .fault s e (vcopyFault e kindIdempotence 2 va (pairOf b))
        else if s.poisoned pa then .fault s e { vcopyFault e kindDataError 2 va (pairOf b) with line := some pa }
        else
          let o := s.barrier pa
          if 2 ^ 36 ≤ o.pending + e.xb.toNat then .wait s e none
          else .ok ((s.setBarrier none pa { o with pending := o.pending + e.xb.toNat }).accept (e.copy s d a kind (some (va, pa))))

/-- VCOPY. -/
def execVcopy (d a b : XReg) (kind : CopyKind) (bar : Bool) (s : State) : Result :=
  issue s (.vcopy d a b kind bar) (legalUnder s fun _ => true) .copy
    { d := some d, d1 := if kind = .put then some (pairOf d) else none, a := some a,
      a1 := if kind = .get then some (pairOf a) else none, b := some b, b1 := if bar then some (pairOf b) else none }
    (doVcopy d a b kind bar)

/-! ## The events -/

/-- COPY_COMPLETE: a copy is moved to its end (R145); one without a barrier has then left the copy engine. A copy that a byte
stops is left to COPY_FAULT. -/
def execCopyComplete (id : Nat) (s : State) : Result :=
  match (s.copy? id).map (moveCopy s) with
  | some (s', false) =>
    match s'.copy? id with
    | some c => .next (if c.written && c.bar.isNone then s'.dropCopy id else s')
    | none => .next s'
  | _ => .next s

/-- COPY_FAULT: a copy that a byte stops is held there (R147). -/
def execCopyFault (id : Nat) (s : State) : Result :=
  match (s.copy? id).map (moveCopy s) with
  | some (s', true) => .next s'
  | _ => .next s

/-- PENDING_DECREMENT: the bytes of a tagged copy that are visible, or acknowledged, leave the PENDING of its barrier; a copy whose
bytes have all left it has left the copy engine (R145, R239). -/
def execPendingDecrement (id : Nat) (s : State) : Result :=
  match s.copy? id with
  | none => .next s
  | some c =>
    match (if c.written && c.held.isSome then none else if c.owed = 0 then some s else s.release c c.owed) with
    | none => .next s
    | some s => .next (if c.written then s.dropCopy id else s.putCopy { c with pending := c.pending - c.owed })

end Sys2Proof.Machine
end

