-- ==== Sys2Proof/Machine/BlockMem.lean ====
section
/-!
DEFINITION. Element memory, links and terminators of a block (R112 to R120).
-/

namespace Sys2Proof.Machine

/-- The format of the index of LD, ST and PF: an override, or the i format of the data's width (R112). -/
def indexFmt (f : BlockArgs) : Fmt := (f.xpf.bind (·.bf)).getD (Fmt.intOf f.fmt.slot true)

/-- The address of an element access (R113). -/
def elemAddr (s : State) (op : BlockOp) (f : BlockArgs) (r : Round) (e : Nat) : Word :=
  let base := BitVec.ofNat 64 (s.hart.vec.source r.vlen r.vl e 64 f.a)
  let idx := (indexFmt f).toInt (blockIn s op f r e).b
  base + BitVec.ofInt 64 (idx * 2 ^ (f.fn13.toNat % 4))

/-- The space of a round's accesses: the hart's own, at the privilege at which the round was started. -/
def roundSpace (s : State) (r : Round) : Space := { s.dataSpace with mode := r.mode }

/-- The micro-thread fault of an element access (R122, R334). -/
def accessFault (s : State) (r : Round) (m : Micro) (f : BlockArgs) (cause kind acc : Nat) (va : Word)
    (line : Option Nat) : MicroRes :=
  .fault { microFault s r m (if cause = 24 then 27 else cause) kind acc (if kind < 3 ∧ cause = 24 then va else 0#64)
    (blockOperand f.a) with line := line }

/-- LD (R113). -/
def execLd (f : BlockArgs) (s : State) : Result :=
  runBlock s .ld f fun s m r =>
    let va := elemAddr s .ld f r m.elem
    let n := f.fmt.packed / 8
    let q : FeLoad := match f.fn13.toNat / 4 with
      | 0 => .plain
      | 1 => .fe
      | _ => .fec
    match elemLoad s s.agent (roundSpace s r) va n n false q with
    | .ok v s' => .next (writeBlock s' .ld f r m.elem v 0#5)
    | .fault cause kind line => accessFault s r m f cause kind 0 va line
    | .wait g => .wait g
    | .pcie pa => .pcie pa

/-- ST (R113). -/
def execSt (f : BlockArgs) (s : State) : Result :=
  runBlock s .st f fun s m r =>
    let va := elemAddr s .st f r m.elem
    let n := f.fmt.packed / 8
    let fes := f.fn13.toNat / 4 == 1
    match elemStore s s.agent (roundSpace s r) va n n (blockIn s .st f r m.elem).c false fes with
    | .ok pa s' => .next (if fes then s'.setFull pa true else s')
    | .fault cause kind line => accessFault s r m f cause kind 1 va line
    | .wait g => .wait g
    | .pcie pa => .pcie pa

/-- PF: it changes no architectural state and never faults (R114). -/
def execPf (f : BlockArgs) (s : State) : Result := runBlock s .pf f fun s _ _ => .next s

/-- LGET: the low bits of the value that it takes (R116), the ignored bits of a 6-bit slot and of an e8m10 container among them (DESIGN CHOICE,
notes/assumptions/45.md: R17 and R18 say that these are written as zero). -/
def execLget (f : BlockArgs) (s : State) : Result :=
  runBlock s .lget f fun s m r =>
    match takeLink s.hart r m.elem with
    | none => .wait none
    | some (v, l) => .next (writeBlock { s with hart := { s.hart with links := l } } .lget f r m.elem v.toNat 0#5)

/-- LPUT (R116). -/
def execLput (f : BlockArgs) (s : State) : Result :=
  runBlock s .lput f fun s m r =>
    match putLink s.hart r m.elem (BitVec.ofNat 64 (blockIn s .lput f r m.elem).a) with
    | none => .wait none
    | some l => .next { s with hart := { s.hart with links := l } }

/-- STOP (R120). -/
def execStop (f : BlockArgs) (s : State) : Result := runBlock s .stop f fun _ _ _ => .stop

/-- The target of a terminator (R120): a misaligned one is a micro-thread fault (R90). -/
def fetchTarget (s : State) (op : BlockOp) (f : BlockArgs) (m : Micro) (r : Round) : MicroRes :=
  let base : Word := if f.a = .zero then m.block else BitVec.ofNat 64 (blockIn s op f r m.elem).a
  let t := base + BitVec.ofInt 64 (f.fn13.toInt * 128)
  if t.toNat % 128 ≠ 0 then .fault (microFault s r m 27 4 3 t (blockOperand f.a)) else .goto t f.a.code.toNat

/-- FETCH (R120). -/
def execFetch (f : BlockArgs) (s : State) : Result := runBlock s .fetch f fun s m r => fetchTarget s .fetch f m r

/-- FETCHC: a fetch when its predicate holds, STOP otherwise (R120). -/
def execFetchc (f : BlockArgs) (s : State) : Result :=
  runBlock s .fetchc f fun s m r =>
    let c := match f.c with
      | .e n => n.val
      | _ => 0
    if s.hart.vec.maskBit (Fin.ofNat 8 (c % 8)) m.elem != c.testBit 3 then fetchTarget s .fetchc f m r else .stop

end Sys2Proof.Machine
end

