-- ==== Sys2Proof/Machine/Rounds.lean ====
section
/-!
DEFINITION. Rounds and fetch groups (R256 to R259, R345, R346): reading and validating a block, a broadcast, the formation and
parking of fetch groups, and one move of a round.
-/

namespace Sys2Proof.Machine

/-! ## Reading a block (R89, R317 to R322) -/

/-- What the fetch of a block answers: what was read of it; a kind of block translation fault with the word, and the address of the data
error behind it; or that the fetch is to be tried again. -/
inductive Fetch (α : Type) where
  | ok (code : α) (s : State)
  | faulty (kind index : Nat) (line : Option Nat)
  | wait
  deriving DecidableEq, Repr

/-- The fetch of a block, which answers its code. -/
abbrev BlockFetch := Fetch (List (Nat × Instr))

/-- The 16 words at a physical address. -/
def blockWords (s : State) (pa : Nat) : List (Option Word) := (List.range 16).map fun i => codeWord s (pa + 8 * i) 8

/-- The words of the block at an address, from the core's cache or by reading memory, with the place they come from. The kinds are those of
cause 26 (R338): 2 page, 3 access. -/
def fetchWords (s : State) (mode : Mode) (va : Word) : Fetch (List (Option Word) × Nat) :=
  let sp := { s.fetchSpace with mode := mode }
  match translate s s.agent sp .fetch va with
  | .page => .faulty 2 0 none
  | .access line => .faulty 3 0 line
  | .moved => .wait
  | .ok pa _ =>
    match s.cached va.toNat (codeSpace sp) true with
    | some c => .ok (c.words, pa) s
    | none => .ok (blockWords s pa, pa) (s.cache ⟨va.toNat, codeSpace sp, true, pa, blockWords s pa⟩)

/-- The block at an address, validated for a vector type (R89): kind 0 is validation, kind 1 poison. -/
def fetchBlock (s : State) (t : VType) (mode : Mode) (va : Word) : BlockFetch :=
  match fetchWords s mode va with
  | .faulty kind index line => .faulty kind index line
  | .wait => .wait
  | .ok (words, pa) s =>
    match checkBlock t 16 0 words with
    | .ok code => .ok code s
    | .faulty kind index => .faulty kind index (if kind = 1 then some (pa + 8 * index) else none)

/-- The instructions of a block that is not validated, from word `i` on: to its terminator, or to the first word that is poisoned or names
no instruction. -/
def uncheckedCode : Nat → Nat → List (Option Word) → List (Nat × Instr)
  | 0, _, _ => []
  | n + 1, i, ws =>
    match decodeBlock ((ws.takeWhile Option.isSome).filterMap id) with
    | .faulty _ => []
    | .ok instr k =>
      match instr.block? with
      | none => []
      | some (op, _) => (i + k - 1, instr) :: (if op.terminator then [] else uncheckedCode n (i + k) (ws.drop k))

/-- The state after the tags of a block's destination registers are cleared (R51). -/
def State.clearCodeTags (s : State) (vlen : Nat) (t : VType) (code : List (Nat × Instr)) : State :=
  { s with hart := { s.hart with vec := s.hart.vec.clearTags vlen (codeUses t code).wv } }

/-! ## Broadcast (R229) -/

/-- The active elements of a broadcast: those below vl, and under VFBM those whose selector bit is set. -/
def activeSet (f : VecFile) (vl : Nat) (m : Option MName) : VecBits :=
  let below := BitVec.ofNat maxVlen (2 ^ vl - 1)
  match m with
  | none => below
  | some m => below &&& f.m[m]

/-- A micro-thread at the start of a block. -/
def startMicro (block : Word) (e : Nat) : Micro := ⟨e, true, true, 0, block, 0, .running, .group 0, none, none⟩

/-- The hart with a round begun: its links are reset and its active micro-threads stand at word 0 of one fetch group. -/
def Hart.broadcast (h : Hart) (e : QEntry) (t : VType) (active : VecBits) (block : Word) (code : List (Nat × Instr))
    (cycle : Nat) : Hart :=
  { h with
    links := ⟨active, [], []⟩
    round := some
      { seq := e.seq, strip := e.strip, vl := e.vl, log2vlen := e.log2vlen, vtype := t, opened := true, holding := .no,
        overflow := none, mode := e.mode, micros := ((List.range e.vl).filter active.getLsbD).map (startMicro block),
        groups := [⟨0, block, code, false, cycle, []⟩], codes := [], nextId := 1 } }

/-- VFB and VFBM at their place in the queue (R229): a block that cannot be broadcast faults the entry; the entry completes when
the round has executed this block's terminator. -/
def doBroadcast (m : Option MName) (e : QEntry) (s : State) : VecRes :=
  let active := activeSet s.hart.vec e.vl m
  if s.hart.round.isSome || !s.hart.resume.isEmpty then .wait s e none
  else match e.vtype with
    | none => .ok s
    | some t =>
      if active = 0#maxVlen then .ok s
      else match fetchBlock s t e.mode e.xa with
        | .wait => .wait s e none
        | .faulty kind index line =>
          .fault s { e with start := 0 }
            ⟨26, kind, 3, if kind < 2 then 0#64 else e.xa, e.xa, 0, 0, if kind < 2 then some index else none, none, line, none⟩
        | .ok code s =>
          let s := s.clearCodeTags e.vlen t code
          .wait { s with hart := s.hart.broadcast e t active e.xa code s.cycle } e none

/-! ## Fetch groups (R256, R258) -/

/-- A slot is free: a hart holds at most 4 fetch groups that are not parked. -/
def Round.slotFree (r : Round) : Bool := decide ((r.groups.filter fun g => !g.parked).length < 4)

/-- The lowest waiting target. -/
def Round.lowestWaiting (r : Round) : Option Nat :=
  (blockAddresses (r.micros.filter fun m => m.place == .waiting)).head?

/-- A round with micro-threads waiting at a target placed anew. -/
def Round.placeWaiting (r : Round) (target : Word) (p : Micro → Micro) : Round :=
  { r with micros := r.micros.map fun m => if m.place = .waiting ∧ m.block = target then p m else m }

/-- The kind of the micro-thread fault of a fetch target that cannot be executed (R89, R338): page, access or validation. -/
def targetKind (kind : Nat) : Nat := if kind = 2 then 0 else if kind = 3 then 1 else 5

/-- A micro-thread set aside with the fault of its fetch target; one that had begun its block keeps its word (R348). -/
def targetFault (s : State) (r : Round) (kind : Nat) (m : Micro) : Micro :=
  { m with place := .aside (some (microFault s r { m with idx := 0 } 27 (targetKind kind) 3 m.block (some (5, m.via)))) }

/-- A fetch group is formed: of every micro-thread that waits at the lowest waiting target, or, where none waits, the group
parked first. None where no slot is free or nothing waits. -/
def formGroup (s : State) : Option State :=
  match s.hart.round with
  | none => none
  | some r =>
    if !r.slotFree then none
    else match r.lowestWaiting with
      | some t =>
        let target := BitVec.ofNat 64 t
        match fetchBlock s r.vtype r.mode target with
        | .wait => none
        | .faulty kind _ line =>
          let m := startMicro target 0
          some ((s.putRound (r.placeWaiting target (targetFault s r kind))).noteFault s.hartId
            { microFault s r m 27 (targetKind kind) 3 target none with line := line })
        | .ok code s =>
          let s := s.clearCodeTags r.vlen r.vtype code
          let r := r.placeWaiting target fun m => { m with place := .group r.nextId, idx := 0, begun := true }
          some (s.putRound { r with groups := r.groups ++ [⟨r.nextId, target, code, false, s.cycle, []⟩],
                                    nextId := r.nextId + 1 })
      | none =>
        (r.groups.find? (·.parked)).map fun g =>
          s.putRound (r.modifyGroup g.id fun g => { g with parked := false, moved := s.cycle })

/-- The members of a fetch group that still execute its block. -/
def Round.running (r : Round) (id : Nat) : List Micro :=
  r.micros.filter fun m => m.place == .group id && m.ended == .running

/-- The micro-thread waits at the link instruction at which it stands: at an LGET with no value to come yet, or at an LPUT into a full
link (R348); one that its predicate turns off does not wait (R96). -/
def Round.linkWait (h : Hart) (r : Round) (g : FetchGroup) (m : Micro) : Bool :=
  match g.at m.idx with
  | some (_, .lget f) => executes h.vec m.elem f.pred && (takeLink h r m.elem).isNone
  | some (_, .lput f) => executes h.vec m.elem f.pred && (putLink h r m.elem 0#64).isNone
  | _ => false

/-- The micro-thread waits at its instruction: at a link, or for a granule that is empty (R132, R258). -/
def Round.waits (s : State) (r : Round) (g : FetchGroup) (m : Micro) : Bool :=
  (match m.waited with
    | some (_, granule) => !Store.get false s.fullEmpty granule
    | none => false) || r.linkWait s.hart g m

/-- A lower element of the group stands at the micro-thread's word, and holds it back (R257). -/
def Round.heldBack (r : Round) (g : FetchGroup) (m : Micro) : Bool :=
  (r.running g.id).any fun o => decide (o.elem < m.elem) && (g.at o.idx).map (·.1) == (g.at m.idx).map (·.1)

/-- An element of a group waits at a link or for a full-empty bit (R258, R348). -/
def Round.mayPark (s : State) (r : Round) (g : FetchGroup) : Bool := (r.running g.id).any (r.waits s g)

/-- A group that may be parked (R258): none of its elements has advanced for 4,096 cycles, and one of them waits so. -/
def Round.parkable (s : State) (r : Round) (g : FetchGroup) : Bool :=
  !g.parked && decide (g.moved + 4096 ≤ s.cycle) && r.mayPark s g

/-- A group is parked: it goes behind every group that is parked already. -/
def parkGroup (s : State) (id : Nat) : Option State :=
  match s.hart.round with
  | none => none
  | some r =>
    match r.group? id with
    | none => none
    | some g =>
      if r.parkable s g then
        some (s.putRound { r with groups := (r.groups.filter fun o => o.id != id) ++ [{ g with parked := true }] })
      else none

/-! ## One move of a round -/

/-- A group whose members have all executed its terminator, or are set aside, frees its slot: the members that fetch wait at
their targets (R256). -/
def Round.freeGroup (r : Round) : Option Round :=
  (r.groups.find? fun g => (r.running g.id).isEmpty).map fun g =>
    { r with
      groups := r.groups.filter fun o => o.id != g.id
      codes := if r.micros.any fun m => m.begun && m.block == g.block && m.place != .group g.id then (g.block, g.code) :: r.codes
               else r.codes
      micros := r.micros.map fun m =>
        match m.place, m.ended with
        | .group id, .fetched t =>
          if id = g.id then { m with block := t, idx := 0, ended := .running, place := .waiting, first := false, begun := false }
          else m
        | _, _ => m }

/-- A begun micro-thread set aside because its block cannot be read again: it keeps its word (R348; notes/assumptions/39.md). -/
def loseMicro (s : State) (r : Round) (kind : Nat) (m : Micro) : Micro :=
  { m with place := .aside (some (microFault s r m 27 (targetKind kind) 3 m.block (some (5, m.via)))) }

/-- A group whose code has not been read, as after a context restore: its words are read again, with no validation, and no tag is cleared
(R232). Where they cannot be read, or a member stands at a word that names no instruction, it is set aside. -/
def readGroup (s : State) (r : Round) : Option State :=
  (r.groups.find? fun g => g.code.isEmpty && !g.parked).bind fun g =>
    let lose (s : State) (r : Round) (kind : Nat) (line : Option Nat) (p : Micro → Bool) : State :=
      match r.micros.find? fun m => m.place == .group g.id && p m with
      | none => s.putRound r
      | some m =>
        (s.putRound { r with micros := r.micros.map fun m => if m.place = Place.group g.id ∧ p m then loseMicro s r kind m else m }).noteFault
          s.hartId { microFault s r m 27 (targetKind kind) 3 m.block none with line := line }
    match fetchWords s r.mode g.block with
    | .wait => none
    | .faulty kind _ line => some (lose s r kind line fun _ => true)
    | .ok (words, pa) s =>
      let g' := { g with code := uncheckedCode 16 0 words }
      let lost := ((List.range 16).find? fun i => words[i]? == some none).map (pa + 8 * ·)
      some (lose s (r.modifyGroup g.id fun _ => g') 0 lost fun m => m.ended == .running && (g'.at m.idx).isNone)

/-- Every micro-thread that the queue entry started has executed the terminator of its block (R229, R232). -/
def Round.firstDone (r : Round) : Bool := r.micros.all fun m => !m.first || m.ended != .running

/-- The queue entry of the round completes. -/
def State.closeEntry (s : State) (r : Round) : State :=
  let h := match s.hart.vq.find? fun e => e.seq == r.seq with
    | some e => s.hart.retire .vector e
    | none => s.hart
  { s with hart := { h with round := some { r with opened := false }, mt := none } }

/-- A micro-thread tried at word `k` has not moved: it waits there as it did before. -/
def stood (s : State) (m : Micro) (k : Nat) : Bool :=
  match s.hart.round.bind fun r => r.micros.find? fun o => o.elem == m.elem with
  | some o => o.idx == k && o.ended == .running && o.place == m.place && o.waited == m.waited
  | none => false

/-- What trying micro-threads in element order answers: the answer of the first that moved. An element that waits holds back the
higher elements of its group at that word (R257): `held` lists those words. -/
def tryMicros (run : Instr → State → Result) (s : State) (r : Round) (held : List (Nat × Nat)) : List Micro → Option Result
  | [] => none
  | m :: ms =>
    match m.place, m.ended with
    | .group id, .running =>
      match r.group? id with
      | none => tryMicros run s r held ms
      | some g =>
        match g.at m.idx with
        | none => tryMicros run s r held ms
        | some (k, i) =>
          if g.parked || held.contains (id, k) then tryMicros run s r held ms
          else if g.suppressed m.elem k then some (.next (s.putRound (r.put { m with place := .aside none, idx := k })))
          else
            match run i { s with hart := { s.hart with mt := some { m with idx := k } } } with
            | .next s' =>
              if stood s' m k then tryMicros run s r (held ++ [(id, k)]) ms else some (.next s')
            | other => some other
    | _, _ => tryMicros run s r held ms

/-- The micro-thread waits at a link for one that is set aside (R345): it is at the instruction, held back by no lower element and not
parked. -/
def linkStuck (h : Hart) (r : Round) (m : Micro) : Bool :=
  let aside (e : Nat) : Bool := r.micros.any fun o => o.elem == e && (match o.place with | .aside _ => true | _ => false)
  match m.place, m.ended with
  | .group id, .running =>
    match r.group? id with
    | none => false
    | some g => !g.parked && !r.heldBack g m && r.linkWait h g m && (match g.at m.idx with
        | some (_, .lget _) => ((activeBelow h.links.active m.elem).map aside).getD false
        | _ => ((h.links.above r.vl m.elem).map aside).getD false)
  | _, _ => false

/-- The lowest micro-thread stuck at a link is set aside. -/
def setStuckAside (s : State) (r : Round) : Option State :=
  (r.micros.find? (linkStuck s.hart r)).map fun m => s.putRound (r.put { m with place := .aside none })

/-- A fetch group can advance: one of its elements does not wait, and no lower one waits at its word (R257). -/
def Round.advances (s : State) (r : Round) (g : FetchGroup) : Bool :=
  (r.running g.id).any fun m => !r.waits s g m && !r.heldBack g m

/-- A round that is being held and has no element that moves (R346). Each group in a slot runs to its terminator, or to where it is parked
(R258): until then it waits. While more than 8 block addresses remain it then forms further groups; where a target's page is being moved,
it goes on waiting. Once no target waits and no group can advance, the micro-threads above the eighth-lowest address are stopped, and the
round raises a fault of kind 7. -/
def stopHolding (s : State) (r : Round) : Option State :=
  let addresses := blockAddresses r.micros
  if r.groups.any fun g => !g.parked then none
  else if addresses.length ≤ 8 then some (s.putRound { r with holding := .stopped })
  else if r.lowestWaiting.isSome || r.groups.any (r.advances s) then formGroup s
  else
    let out (m : Micro) : Bool := !((addresses.take 8).contains m.held.block.toNat)
    let r' := { r with micros := r.micros.filter fun m => !out m, holding := .stopped }
    let s := { s with hart := s.hart.stopAll r.vl (r.micros.filter out) }
    match r.micros.find? out with
    | none => some (s.putRound r')
    | some m => some (s.putRound { r' with overflow := some (microFault s r m 27 7 0 0#64 none) })

/-- The first of some moves that there is. -/
def firstMove : List (Option State) → Option State
  | [] => none
  | some s :: _ => some s
  | none :: rest => firstMove rest

/-- The state after the last micro-thread of a round has stopped: the round ends, or waits for its overflow to be taken (R346). -/
def State.endRound (s : State) (r : Round) : State :=
  if r.overflow.isSome then s.putRound { r with holding := .stopped } else { s with hart := { s.hart with round := none, mt := none } }

/-- ONE MOVE of the round of the selected hart; none where nothing of it can move. -/
def roundMove (run : Instr → State → Result) (s : State) : Option Result :=
  match s.hart.round with
  | none => none
  | some r =>
    if r.opened && r.firstDone then some (.next (s.closeEntry r))
    else match r.freeGroup with
      | some r => some (.next (s.putRound r))
      | none =>
        if r.micros.isEmpty ∧ ¬ (r.overflow.isSome ∧ r.holding = .stopped) then some (.next (s.endRound r))
        else if r.holding = .stopped then none
        else
          let park := (r.groups.find? (r.parkable s)).bind (parkGroup s ·.id)
          match firstMove [readGroup s r, park, if r.holding = .no then formGroup s else none] with
          | some s => some (.next s)
          | none =>
            match tryMicros run s r [] r.micros with
            | some res => some res
            | none => (firstMove [setStuckAside s r, if r.holding = .stopping then stopHolding s r else none]).map .next

end Sys2Proof.Machine
end

