-- ==== Sys2Proof/Machine/BlockControl.lean ====
section
/-!
DEFINITION. Broadcasts and micro-thread control (R229 to R233).
-/

namespace Sys2Proof.Machine

/-! ## Broadcasts (R90, R229) -/

/-- A broadcast reached by the control thread: a block address that is not a multiple of 128 is a precise exception (R90). -/
def issueBroadcast (s : State) (i : Instr) (a : XReg) (m : Option MName) : Result :=
  if s.hart.replay.isNone && !s.hart.held && s.hart.vc.vtype.isSome && (s.x a).toNat % 128 != 0 then
    .next (s.takeTrap causeFetchMisaligned (s.x a))
  else issue s i (legalUnder s fun _ => true) .vector { a := some a } (doBroadcast m)

/-- VFB. -/
def execVfb (a : XReg) (s : State) : Result := issueBroadcast s (.vfb a) a none

/-- VFBM. -/
def execVfbm (a : XReg) (m : MName) (s : State) : Result := issueBroadcast s (.vfbm a m) a (some m)

/-- VBCONST: it waits as a broadcast does (R230). -/
def doVbconst (d : Fin 16) (e : QEntry) (s : State) : VecRes :=
  if s.hart.round.isSome || !s.hart.resume.isEmpty then .wait s e none
  else .ok (s.setVec { s.hart.vec with b := s.hart.vec.b.set d e.xa })

/-- VBCONST. -/
def execVbconst (d : Fin 16) (a : XReg) (s : State) : Result :=
  issue s (.vbconst d a) true .vector { a := some a } (doVbconst d)

/-! ## VDRAIN (R231) -/

/-- A copy of the hart that has bytes to write and is not held. -/
def State.copying (s : State) (id : Nat) : Bool := s.copies.any fun c => c.hart == id && !c.written && c.held.isNone

/-- The work that a VDRAIN waits for: the vector queue and its markers, the copies, and with `.m` every micro-thread. -/
def State.draining (s : State) (micro : Bool) : Bool :=
  s.hart.vbusy || s.copying s.hartId || (micro && s.hart.round.isSome)

/-- VDRAIN: the accesses it waits for are visible at every scope when they have been performed (notes/assumptions/2.md). -/
def execVdrain (_ : Scope) (micro : Bool) (s : State) : Result :=
  match syncPoint s (s.draining micro) with
  | some s => .next s
  | none => .next s.advance

/-! ## VRESUME (R232) -/

/-- VRESUME: its groups continue as a round, and it completes when they have executed the terminators of their blocks. -/
def doVresume (g : Fin 8) (all : Bool) (e : QEntry) (s : State) : VecRes :=
  if s.hart.round.isSome then .wait s e none
  else
    let (gs, rest) := s.hart.resume.partition fun r => all || r.num == g.val
    match continueRound gs e.seq s.cycle true with
    | none => .ok s
    | some r => .wait { s with hart := { s.hart with round := some r, resume := rest } } e none

/-- VRESUME. -/
def execVresume (g : Fin 8) (all : Bool) (s : State) : Result :=
  issue s (.vresume g all) (legalUnder s fun _ => true) .vector {} (doVresume g all)

/-! ## VKILL (R233, R340) -/

/-- The hart with the micro-threads of its round stopped, the highest of which writes `vlinkout` (R116), its resume groups and its vector
queue discarded, and a held matrix queue image discarded. The micro-threads of a resume group are discarded and do not stop, so that
`vlinkout` stays as it is, also where micro-thread vl − 1 is one of them (DESIGN CHOICE, notes/assumptions/45.md: R116 speaks of a stop, R233
of discarding). -/
def Hart.kill (h : Hart) : Hart :=
  let h := match h.round with
    | some r => h.stopAll r.vl r.micros
    | none => h
  { h with
    vq := []
    mq := if h.mheld then [] else h.mq
    vfault := none
    mfault := if h.mheld then none else h.mfault
    vheld := false
    mheld := false
    reported := none
    sread := none
    headWait := none
    chains := []
    round := none
    mt := none
    resume := []
    vc := { h.vc with vstart := 0 } }

/-- The state without the atomic requests of a hart that nothing waits for any more. -/
def State.dropAtomics (s : State) (id : Nat) : State :=
  { s with remote := { s.remote with outstanding := s.remote.outstanding.filter fun r =>
      match r.kind with
      | .atomic h _ => h != id
      | _ => true } }

/-- The state in which the selected hart's work is discarded, with the copies that faults hold. -/
def State.kill (s : State) : State :=
  ({ s with hart := s.hart.kill }.discardHeldCopies s.hartId).dropAtomics s.hartId

/-- VKILL: it acts at once. -/
def execVkill (s : State) : Result := .next s.kill.advance

end Sys2Proof.Machine
end

