-- ==== Sys2Proof/Machine/BlockFloat.lean ====
section
/-!
DEFINITION. The floating-point, conversion and logarithmic instructions of a block (R104 to R111).
-/

namespace Sys2Proof.Machine

/-- FADD (R105). -/
def execFadd (f : BlockArgs) (s : State) : Result := blockValue s .fadd f fun o => f.fmt.fadd o.ctx o.a o.b
/-- FSUB (R105). -/
def execFsub (f : BlockArgs) (s : State) : Result := blockValue s .fsub f fun o => f.fmt.fsub o.ctx o.a o.b
/-- FMUL (R105). -/
def execFmul (f : BlockArgs) (s : State) : Result := blockValue s .fmul f fun o => f.fmt.fmul o.ctx o.a o.b
/-- FMULZ (R35, R105). -/
def execFmulz (f : BlockArgs) (s : State) : Result := blockValue s .fmulz f fun o => f.fmt.fmulz o.ctx o.a o.b

/-- FMA: one rounding of A × B + C; A and B in their own formats (R105). -/
def execFma (f : BlockArgs) (s : State) : Result :=
  blockValue s .fma f fun o =>
    let a := f.fmtA.layout.decode o.a
    let b := f.fmtB.layout.decode o.b
    let c := f.fmt.layout.decode o.c
    f.fmt.finish o.ctx [a, b, c] (a.fma o.ctx.mode b c)

/-- FDIV (R105). -/
def execFdiv (f : BlockArgs) (s : State) : Result := blockValue s .fdiv f fun o => f.fmt.fdiv o.ctx o.a o.b
/-- FSQRT (R105). -/
def execFsqrt (f : BlockArgs) (s : State) : Result := blockValue s .fsqrt f fun o => f.fmt.fsqrt o.ctx o.a
/-- FMIN (R106). -/
def execFmin (f : BlockArgs) (s : State) : Result := blockValue s .fmin f fun o => f.fmt.fminmax false o.a o.b
/-- FMAX (R106). -/
def execFmax (f : BlockArgs) (s : State) : Result := blockValue s .fmax f fun o => f.fmt.fminmax true o.a o.b
/-- FCLASS (R107). -/
def execFclass (f : BlockArgs) (s : State) : Result := blockValue s .fclass f fun o => (f.fmt.fclass o.a, 0#5)
/-- FSGNJ (R108). -/
def execFsgnj (f : BlockArgs) (s : State) : Result :=
  blockValue s .fsgnj f fun o => (f.fmt.fsgnj f.fn13.toNat o.a o.b, 0#5)

/-- FCVT (R109): the scaled side under the scale byte of the named scale register. -/
def execFcvt (f : BlockArgs) (s : State) : Result :=
  blockValue s .fcvt f fun o => fcvtTo f.fmt f.fmtA o.ctx o.scale o.a
/-- FCVTI (R33, R109). -/
def execFcvti (f : BlockArgs) (s : State) : Result :=
  blockValue s .fcvti f fun o => f.fmt.deliverInt o.ctx (f.fmtA.layout.decode o.a)
/-- ICVTF (R33, R109). -/
def execIcvtf (f : BlockArgs) (s : State) : Result :=
  blockValue s .icvtf f fun o => f.fmt.layout.round o.ctx (Num.ofInt (f.fmtA.toInt o.a))

/-- LMUL (R25, R110). -/
def execLmul (f : BlockArgs) (s : State) : Result := blockValue s .lmul f fun o => l6Mul o.a o.b
/-- LACC (R26, R110). -/
def execLacc (f : BlockArgs) (s : State) : Result := blockValue s .lacc f fun o => l6Acc o.d o.a o.b
/-- LCVTF (R27, R110). -/
def execLcvtf (f : BlockArgs) (s : State) : Result := blockValue s .lcvtf f fun o => l6ToFp32 o.a
/-- FCVTL (R28, R110). -/
def execFcvtl (f : BlockArgs) (s : State) : Result := blockValue s .fcvtl f fun o => l6Of (f.fmtA.layout.decode o.a)

/-- FCMP (R111). -/
def execFcmp (f : BlockArgs) (s : State) : Result :=
  blockPredicate s .fcmp f fun _ _ o => f.fmt.fcmp f.fn13.toNat o.a o.b

end Sys2Proof.Machine
end

