-- ==== Sys2Proof/Machine/BlockInt.lean ====
section
/-!
DEFINITION. The integer, bit-field, compare, predicate, scale and move instructions of a block (R98 to R103, R111, R119).
-/

namespace Sys2Proof.Machine

/-- The immediate of ADDI and LI (R86, R99). -/
def blockImm (f : BlockArgs) : Int :=
  match f.xpi with
  | none => f.fn13.toInt
  | some p => (p ++ f.fn13).toInt

/-- An integer instruction of two operands, exact and then wrapped or clamped (R99). -/
def intBinary (s : State) (op : BlockOp) (f : BlockArgs) (v : Int → Int → Int) : Result :=
  blockValue s op f fun o => (f.fmt.putInt f.sat (v (f.fmt.toInt o.a) (f.fmt.toInt o.b)), 0#5)

/-- An instruction on the patterns of its operands at the format's width. -/
def bitBinary (s : State) (op : BlockOp) (f : BlockArgs) (v : Nat → Nat → Nat) : Result :=
  blockValue s op f fun o => (v o.a o.b % 2 ^ f.fmt.slot, 0#5)

/-- The shift amount of a pattern (R99). -/
def shiftOf (f : BlockArgs) (b : Nat) : Nat := b % f.fmt.slot

/-- ADD (R99). -/
def execAdd (f : BlockArgs) (s : State) : Result := intBinary s .add f fun a b => a + b
/-- SUB (R99). -/
def execSub (f : BlockArgs) (s : State) : Result := intBinary s .sub f fun a b => a - b
/-- MUL (R99). -/
def execMul (f : BlockArgs) (s : State) : Result := intBinary s .mul f fun a b => a * b
/-- MULH (R99). -/
def execMulh (f : BlockArgs) (s : State) : Result := intBinary s .mulh f fun a b => a * b / 2 ^ f.fmt.slot

/-- DIV: toward zero; a zero divisor gives all ones and DZ; signed overflow gives the dividend (R36, R99). -/
def execDiv (f : BlockArgs) (s : State) : Result :=
  blockValue s .div f fun o =>
    let a := f.fmt.toInt o.a
    let b := f.fmt.toInt o.b
    if b = 0 then (f.fmt.putInt false (-1), flagDZ) else (f.fmt.putInt false (a.tdiv b), 0#5)

/-- REM: with the sign of the dividend; a zero divisor gives the dividend and DZ (R36, R99). -/
def execRem (f : BlockArgs) (s : State) : Result :=
  blockValue s .rem f fun o =>
    let a := f.fmt.toInt o.a
    let b := f.fmt.toInt o.b
    if b = 0 then (f.fmt.putInt false a, flagDZ) else (f.fmt.putInt false (a.tmod b), 0#5)

/-- AND (R99). -/
def execAnd (f : BlockArgs) (s : State) : Result := bitBinary s .and f fun a b => a &&& b
/-- OR (R99). -/
def execOr (f : BlockArgs) (s : State) : Result := bitBinary s .or f fun a b => a ||| b
/-- XOR (R99). -/
def execXor (f : BlockArgs) (s : State) : Result := bitBinary s .xor f fun a b => a ^^^ b
/-- SLL (R99). -/
def execSll (f : BlockArgs) (s : State) : Result := bitBinary s .sll f fun a b => a <<< shiftOf f b
/-- SRL (R99). -/
def execSrl (f : BlockArgs) (s : State) : Result := bitBinary s .srl f fun a b => a >>> shiftOf f b

/-- SRA: fills with bit w − 1 whatever the signedness (R99). -/
def execSra (f : BlockArgs) (s : State) : Result :=
  blockValue s .sra f fun o =>
    let w := f.fmt.slot
    let a : Int := if o.a.testBit (w - 1) then (o.a : Int) - 2 ^ w else o.a
    (wrapInt w (a / 2 ^ shiftOf f o.b), 0#5)

/-- MIN (R99). -/
def execMin (f : BlockArgs) (s : State) : Result := intBinary s .min f fun a b => min a b
/-- MAX (R99). -/
def execMax (f : BlockArgs) (s : State) : Result := intBinary s .max f fun a b => max a b
/-- ABS (R99). -/
def execAbs (f : BlockArgs) (s : State) : Result := intBinary s .abs f fun a _ => (a.natAbs : Int)

/-- CLZ (R99). -/
def execClz (f : BlockArgs) (s : State) : Result :=
  bitBinary s .clz f fun a _ => f.fmt.slot - (if a = 0 then 0 else Nat.log2 a + 1)

/-- POPC (R99). -/
def execPopc (f : BlockArgs) (s : State) : Result :=
  bitBinary s .popc f fun a _ => ((List.range f.fmt.slot).filter a.testBit).length

/-- ADDI (R99). -/
def execAddi (f : BlockArgs) (s : State) : Result := intBinary s .addi f fun a _ => a + blockImm f

/-- LI: the low w bits of the immediate (R99). -/
def execLi (f : BlockArgs) (s : State) : Result := blockValue s .li f fun _ => (wrapInt f.fmt.slot (blockImm f), 0#5)

/-- SEL: raw bits of A or B by predicate N and its inversion (R100), the ignored bits of a 6-bit slot and of an e8m10 container among them
(DESIGN CHOICE, notes/assumptions/45.md: R17 and R18 say that these are written as zero). -/
def execSel (f : BlockArgs) (s : State) : Result :=
  runBlock s .sel f fun s m r =>
    let o := blockIn s .sel f r m.elem
    let n := f.fn13.toNat
    let bit := s.hart.vec.maskBit (Fin.ofNat 8 (n % 8)) m.elem != n.testBit 3
    .next (writeBlock s .sel f r m.elem (if bit then o.a else o.b) 0#5)

/-- The widened format of WADD, WMUL and WMAC: the i format for a pair of mixed signedness (R101). -/
def widenedOf (f : BlockArgs) : Fmt :=
  if f.fmt.isInt && f.fmtA.signed != f.fmtB.signed then Fmt.intOf (2 * f.fmt.slot) true
  else f.fmt.widened.getD f.fmt

/-- The widening instructions: an exact result of A, B and the old destination, delivered once at the widened format (R101). -/
def widening (s : State) (op : BlockOp) (f : BlockArgs) (int : Int → Int → Int → Int)
    (real : Rounding → Num → Num → Num → Num × Flags) : Result :=
  blockValue s op f fun o =>
    let w := widenedOf f
    if w.isInt then (w.putInt f.sat (int (f.fmtA.toInt o.a) (f.fmtB.toInt o.b) (w.toInt o.d)), 0#5)
    else
      let a := f.fmtA.layout.decode o.a
      let b := f.fmtB.layout.decode o.b
      let d := w.layout.decode o.d
      w.finish o.ctx (if op = .wmac then [a, b, d] else [a, b]) (real o.ctx.mode a b d)

/-- WADD (R101). -/
def execWadd (f : BlockArgs) (s : State) : Result :=
  widening s .wadd f (fun a b _ => a + b) fun mode a b _ => a.add mode b
/-- WMUL (R101). -/
def execWmul (f : BlockArgs) (s : State) : Result :=
  widening s .wmul f (fun a b _ => a * b) fun _ a b _ => a.mul b
/-- WMAC (R101). -/
def execWmac (f : BlockArgs) (s : State) : Result :=
  widening s .wmac f (fun a b d => d + a * b) fun mode a b d => a.fma mode b d

/-- NCLIP: A, at twice the width, divided by 2^s and rounded to an integer (R102). SR draws whatever y is: R30's bound on a result beyond
the largest finite magnitude is not applied, since y is rounded to an integer before it is narrowed (DESIGN CHOICE,
notes/assumptions/45.md). -/
def execNclip (f : BlockArgs) (s : State) : Result :=
  blockValue s .nclip f fun o =>
    let w := f.fmt.slot
    let wide := if f.xpf.isSome && f.fmtA != f.fmt then f.fmtA else Fmt.intOf (2 * w) f.fmt.signed
    let a := wide.toInt o.a
    let y := roundInt o.ctx (decide (a < 0)) a.natAbs (-((o.b % (2 * w) : Nat) : Int))
    (f.fmt.putInt f.sat y.1, 0#5)

/-- BEXT (R103). -/
def execBext (f : BlockArgs) (s : State) : Result :=
  blockValue s .bext f fun o =>
    let pos := f.fn13.toNat % 64
    let len := f.fn13.toNat / 64 + 1
    let v := o.a >>> pos % 2 ^ len
    let v : Int := if f.fmt.signed && v.testBit (len - 1) then (v : Int) - 2 ^ len else v
    (f.fmt.putInt false v, 0#5)

/-- BINS (R103). -/
def execBins (f : BlockArgs) (s : State) : Result :=
  blockValue s .bins f fun o =>
    let pos := f.fn13.toNat % 64
    let len := f.fn13.toNat / 64 + 1
    let hole := (2 ^ len - 1) <<< pos
    ((o.a ||| hole) ^^^ hole ||| (o.b % 2 ^ len) <<< pos, 0#5)

/-- CMP (R111). -/
def execCmp (f : BlockArgs) (s : State) : Result :=
  blockPredicate s .cmp f fun _ _ o =>
    let a := f.fmt.toInt o.a
    let b := f.fmt.toInt o.b
    (match f.fn13.toNat with
      | 0 => a == b
      | 1 => a != b
      | 2 => decide (a < b)
      | _ => decide (b ≤ a), 0#5)

/-- PLOG: the bit of the truth table that the two predicates select (R111). -/
def execPlog (f : BlockArgs) (s : State) : Result :=
  blockPredicate s .plog f fun s m _ =>
    let q (x : Src) : Nat := match x with
      | .e n => (s.hart.vec.maskBit (Fin.ofNat 8 n.val) m.elem).toNat
      | _ => 0
    (f.fn13.toNat.testBit (2 * q f.a + q f.b), 0#5)

/-- PSET: a bit of the raw pattern of A (R111). -/
def execPset (f : BlockArgs) (s : State) : Result :=
  blockPredicate s .pset f fun _ _ o => (o.a.testBit f.fn13.toNat, 0#5)

/-- SGET: the scale byte of the element (R119). -/
def execSget (f : BlockArgs) (s : State) : Result := blockValue s .sget f fun o => (o.scale.toNat % 2 ^ f.fmt.slot, 0#5)

/-- MOV: the raw pattern of A (R119), the ignored bits of a 6-bit slot and of an e8m10 container among them (DESIGN CHOICE,
notes/assumptions/45.md: R17 and R18 say that these are written as zero). -/
def execMov (f : BlockArgs) (s : State) : Result := blockValue s .mov f fun o => (o.a % 2 ^ f.fmt.slot, 0#5)

end Sys2Proof.Machine
end

