-- ==== Sys2Proof/Machine/Cross.lean ====
section
/-!
DEFINITION. The cross-element instructions of custom-1: moves, permutes, selector instructions, reductions, scans, masks, keys,
zip and unzip (R151 to R165).
-/

namespace Sys2Proof.Machine

/-! ## Element-wise instructions (class E of R152) -/

/-- An element-wise instruction: each active element from `vstart` on has its value written, if it has one; an inactive one
follows MP. Elements below `first` are not touched. -/
def elementwise (e : QEntry) (s : State) (t : VType) (d : VName) (m : Option MName) (first : Nat)
    (val : State → Nat → Nat) : VecRes :=
  if e.vl ≤ e.start then .ok s
  else
    let lo := max e.start first
    let one (s : State) (k : Nat) : State :=
      if s.hart.vec.active m k then s.putElem e t d k (val s k) else s.inactive e t d k
    let upTo (n : Nat) : State := (List.range' lo (n - lo)).foldl one s
    let wrote := e.covers t s.hart.vec m first
    match s.hart.pause with
    | none => .ok ((upTo e.vl).finishDest e t d wrote)
    | some p =>
      if e.start < p ∧ p < e.vl then .wait ((upTo p).stopDest e t (groupSet t.mul d.val) p wrote) { e with start := p } none
      else .ok ((upTo e.vl).finishDest e t d wrote)

/-- VMV (R154): the whole slot. -/
def doVmv (d a : VName) (m : Option MName) (e : QEntry) (s : State) : VecRes :=
  popping e s [a] (if d = a then .issued else .each) fun e s => e.typed s fun t => elementwise e s t d m 0 fun s k => s.elemOf e t a k

/-- VMV. -/
def execVmv (d a : VName) (m : Option MName) (s : State) : Result :=
  issue s (.vmv d a m) (legalUnder s fun t => t.groupAt d && t.groupAt a) .vector {} (doVmv d a m)

/-- VBCST (R154). -/
def doVbcst (d : VName) (m : Option MName) (e : QEntry) (s : State) : VecRes :=
  e.typed s fun t => elementwise e s t d m 0 fun _ _ => t.raw e.xa.toNat

/-- VBCST. -/
def execVbcst (d : VName) (a : XReg) (m : Option MName) (s : State) : Result :=
  issue s (.vbcst d a m) (legalUnder s fun t => t.groupAt d) .vector { a := some a } (doVbcst d m)

/-- VPERM (R155). The index is the whole slot, as an unsigned SEW-bit integer (notes/assumptions/40.md). -/
def doVperm (d a b : VName) (m : Option MName) (e : QEntry) (s : State) : VecRes :=
  popping e s [a, b] .issued fun e s => e.typed s fun t => elementwise e s t d m 0 fun s k =>
    let i := s.elemOf e t b k
    if i < e.vlmax t then s.valueOf e t a i else 0

/-- VPERM. -/
def execVperm (d a b : VName) (m : Option MName) (s : State) : Result :=
  issue s (.vperm d a b m)
    (legalUnder s fun t => t.groupAt d && t.groupAt a && t.groupAt b && !t.meet d a && !t.meet d b) .vector {}
    (doVperm d a b m)

/-- VSLIDEUP (R156). -/
def doVslideup (d a : VName) (m : Option MName) (e : QEntry) (s : State) : VecRes :=
  popping e s [a] .each fun e s => e.typed s fun t =>
    elementwise e s t d m e.xb.toNat fun s k => s.valueOf e t a (k - e.xb.toNat)

/-- VSLIDEUP. -/
def execVslideup (d a : VName) (b : XReg) (m : Option MName) (s : State) : Result :=
  issue s (.vslideup d a b m) (legalUnder s fun t => t.groupAt d && t.groupAt a && !t.meet d a) .vector { b := some b }
    (doVslideup d a m)

/-- VSLIDEDN (R156). -/
def doVslidedn (d a : VName) (m : Option MName) (e : QEntry) (s : State) : VecRes :=
  popping e s [a] .issued fun e s => e.typed s fun t => elementwise e s t d m 0 fun s k =>
    if k + e.xb.toNat < e.vlmax t then s.valueOf e t a (k + e.xb.toNat) else 0

/-- VSLIDEDN. -/
def execVslidedn (d a : VName) (b : XReg) (m : Option MName) (s : State) : Result :=
  issue s (.vslidedn d a b m) (legalUnder s fun t => t.groupAt d && t.groupAt a && !t.meet d a) .vector { b := some b }
    (doVslidedn d a m)

/-- The key of a pattern (R164). -/
def ordKey (f : Fmt) (x : Nat) : Nat :=
  let w := f.packed
  let x := f.clean x % 2 ^ w
  let t := 2 ^ (w - 1)
  if f.isFS then
    if (f.layout.decode x).isNaN then 2 ^ w - 1
    else if x < t then x + t else 2 ^ w - 1 - x
  else if f.signed then (if x < t then x + t else x - t)
  else x

/-- VORDKEY (R164). -/
def doVordkey (d a : VName) (m : Option MName) (e : QEntry) (s : State) : VecRes :=
  popping e s [a] (if d = a then .issued else .each) fun e s => e.typed s fun t => elementwise e s t d m 0 fun s k => ordKey t.fmt (s.elemOf e t a k)

/-- VORDKEY. -/
def execVordkey (d a : VName) (m : Option MName) (s : State) : Result :=
  issue s (.vordkey d a m) (legalUnder s fun t => t.groupAt d && t.groupAt a && (t.fmt.isFS || t.fmt.isInt)) .vector {}
    (doVordkey d a m)

/-! ## Scalar exchange (class S of R152) -/

/-- VMOVX: the element that X[b] names, whatever vl is (R154). -/
def doVmovx (d : XReg) (a : VName) (e : QEntry) (s : State) : VecRes :=
  popping e s [a] .whole fun e s => e.typed s fun t =>
    let x := s.elemOf e t a e.xb.toNat
    let v : Word := if e.vlmax t ≤ e.xb.toNat then 0#64
      else if t.fmt.signed then BitVec.ofInt 64 (t.fmt.toInt x) else BitVec.ofNat 64 x
    .done s [(d, v)]

/-- VMOVX. -/
def execVmovx (d : XReg) (a : VName) (b : XReg) (s : State) : Result :=
  issueSync s (.vmovx d a b) (legalUnder s fun t => t.groupAt a) { b := some b } (doVmovx d a)

/-- VXMOV (R154). -/
def doVxmov (d : VName) (e : QEntry) (s : State) : VecRes :=
  e.typed s fun t =>
    let k := e.xb.toNat
    if e.vlmax t ≤ k then .ok s
    else
      let set := groupSet 1 (d.val + k / (e.vlen / t.sew))
      .ok (((s.putElem e t d k (t.raw e.xa.toNat)).wrote e.vlen set).progress set 1)

/-- VXMOV. -/
def execVxmov (d : VName) (a b : XReg) (s : State) : Result :=
  issue s (.vxmov d a b) (legalUnder s fun t => t.groupAt d) .vector { a := some a, b := some b } (doVxmov d)

/-! ## Selector instructions (R157) -/

/-- A whole-vector instruction performs nothing at vl = 0 (R152). -/
def wholeVector (e : QEntry) (s : State) (act : VType → VecRes) : VecRes :=
  if e.vl = 0 then .ok s else e.typed s act

/-- The elements below vl that a selector names. -/
def selected (s : State) (e : QEntry) (m : MName) : List Nat := (List.range e.vl).filter (s.hart.vec.maskBit m)

/-- VCOMPRESS (R157). -/
def doVcompress (d a : VName) (m : MName) (e : QEntry) (s : State) : VecRes :=
  popping e s [a] .whole fun e s => wholeVector e s fun t =>
    let chosen := selected s e m
    let s := chosen.zipIdx.foldl (fun s p => s.putElem e t d p.2 (s.valueOf e t a p.1)) s
    .ok (s.finishFrom e t d chosen.length fun _ => true)

/-- VCOMPRESS. -/
def execVcompress (d a : VName) (m : MName) (s : State) : Result :=
  issue s (.vcompress d a m) (legalUnder s fun t => t.groupAt d && t.groupAt a && !t.meet d a) .vector {}
    (doVcompress d a m)

/-- VEXPAND (R157). -/
def doVexpand (d a : VName) (m : MName) (e : QEntry) (s : State) : VecRes :=
  popping e s [a] .whole fun e s => wholeVector e s fun t =>
    let one (c : Nat × State) (k : Nat) : Nat × State :=
      if c.2.hart.vec.maskBit m k then (c.1 + 1, c.2.putElem e t d k (c.2.valueOf e t a c.1)) else (c.1, c.2.inactive e t d k)
    let f := s.hart.vec
    let (_, s) := (List.range e.vl).foldl one (0, s)
    .ok (s.finishDest e t d fun k => t.mp || f.maskBit m k)

/-- VEXPAND. -/
def execVexpand (d a : VName) (m : MName) (s : State) : Result :=
  issue s (.vexpand d a m) (legalUnder s fun t => t.groupAt d && t.groupAt a && !t.meet d a) .vector {} (doVexpand d a m)

/-- VIOTA (R157). -/
def doViota (d : VName) (m : MName) (e : QEntry) (s : State) : VecRes :=
  wholeVector e s fun t =>
    let one (c : Nat × State) (k : Nat) : Nat × State :=
      (c.1 + (c.2.hart.vec.maskBit m k).toNat, c.2.putElem e t d k c.1)
    let (_, s) := (List.range e.vl).foldl one (0, s)
    .ok (s.finishDest e t d fun _ => true)

/-- VIOTA. -/
def execViota (d : VName) (m : MName) (s : State) : Result :=
  issue s (.viota d m) (legalUnder s fun t => t.groupAt d && t.fmt.isInt) .vector {} (doViota d m)

/-! ## Reductions and scans (R40, R158 to R160) -/

/-- A reduction operation accepts a format (R158). -/
def redAccepts (op : RedOp) (f : Fmt) : Bool :=
  match op with
  | .sum | .min | .max => f.isFA || f.isInt
  | _ => f.isInt

/-- Op(s, x) of R158, with its flags accrued. -/
def redOp (f : Fmt) (op : RedOp) (s : State) (x y : Nat) : Nat × State :=
  let mode := Rounding.ofVrm s.hart.vc.vrm
  let float (r : Nat × Flags) : Nat × State := (r.1, s.accrue r.2)
  match op with
  | .sum =>
    if f.isInt then (f.putInt false (f.toInt x + f.toInt y), s)
    else
      let r := f.fadd (s.roundCtx mode false) x y
      (r.1, (s.accrue r.2).drawn mode)
  | .min => if f.isInt then (if f.toInt y < f.toInt x then y else x, s) else float (f.fminmax false x y)
  | .max => if f.isInt then (if f.toInt x < f.toInt y then y else x, s) else float (f.fminmax true x y)
  | .and => (x &&& y, s)
  | .or => (x ||| y, s)
  | .xor => (x ^^^ y, s)
  | .ssum => (f.putInt true (f.toInt x + f.toInt y), s)

/-- One level of the tree of R40: neighbours are combined; an absent one contributes nothing. -/
def treeLevel (f : Fmt) (op : RedOp) (s : State) : List (Option Nat) → List (Option Nat) × State
  | some x :: some y :: rest =>
    let (z, s) := redOp f op s x y
    let (zs, s) := treeLevel f op s rest
    (some z :: zs, s)
  | x :: y :: rest =>
    let (zs, s) := treeLevel f op s rest
    (x.orElse (fun _ => y) :: zs, s)
  | xs => (xs, s)

/-- The tree of R40 over at most `n` levels. -/
def treeOf (f : Fmt) (op : RedOp) : Nat → State → List (Option Nat) → Option Nat × State
  | 0, s, xs => (xs.head?.join, s)
  | n + 1, s, xs =>
    let (ys, s) := treeLevel f op s xs
    treeOf f op n s ys

/-- The active elements below vl, absent where inactive. -/
def activeElems (s : State) (e : QEntry) (t : VType) (a : VName) (m : Option MName) : List (Option Nat) :=
  (List.range e.vl).map fun k => if s.hart.vec.active m k then some (s.elemOf e t a k) else none

/-- The combination in element order (R40). -/
def orderedOf (f : Fmt) (op : RedOp) (s : State) (start : Nat) : List (Option Nat) → Nat × State
  | [] => (start, s)
  | none :: rest => orderedOf f op s start rest
  | some x :: rest =>
    let (z, s) := redOp f op s start x
    orderedOf f op s z rest

/-- A reduction into element 0 of the register `d` (R159); the other elements are unchanged. -/
def reduction (d : VName) (a : VName) (m : Option MName) (e : QEntry) (s : State)
    (combine : VType → State → Nat → List (Option Nat) → Nat × State) : VecRes :=
  popping e s [a] .whole fun e s => wholeVector e s fun t =>
    let (z, s) := combine t s (s.elemOf e t d 0) (activeElems s e t a m)
    .ok (((s.putElem e t d 0 z).wrote e.vlen (groupSet 1 d.val)).progress (groupSet 1 d.val) 1)

/-- The conditions on the operands of a reduction (R151, R158). -/
def reductionOk (s : State) (d a : VName) (op : RedOp) : Bool :=
  legalUnder s fun t => t.groupAt a && !groupsMeet 1 d.val t.mul a.val && redAccepts op t.fmt

/-- VREDT: the start value is added last (R40). -/
def doVredt (d a : VName) (op : RedOp) (m : Option MName) (e : QEntry) (s : State) : VecRes :=
  reduction d a m e s fun t s start xs =>
    match treeOf t.fmt op 19 s xs with
    | (none, s) => (start, s)
    | (some x, s) => redOp t.fmt op s start x

/-- VREDT. -/
def execVredt (d a : VName) (op : RedOp) (m : Option MName) (s : State) : Result :=
  issue s (.vredt d a op m) (reductionOk s d a op) .vector {} (doVredt d a op m)

/-- VREDO. -/
def doVredo (d a : VName) (op : RedOp) (m : Option MName) (e : QEntry) (s : State) : VecRes :=
  reduction d a m e s fun t s start xs => orderedOf t.fmt op s start xs

/-- VREDO. -/
def execVredo (d a : VName) (op : RedOp) (m : Option MName) (s : State) : Result :=
  issue s (.vredo d a op m) (reductionOk s d a op) .vector {} (doVredo d a op m)

/-- First(x) of R160, with the ignored bits of e8m10 zero (R18). -/
def scanFirst (f : Fmt) (s : State) (x : Nat) : Nat × State :=
  if f.isFA && (f.layout.decode x).isSignalling then (f.layout.canonicalNaN, s.accrue flagNV) else (f.clean x, s)

/-- Identity(op) of R160. -/
def scanIdentity (f : Fmt) (op : RedOp) : Nat :=
  match op with
  | .and => 2 ^ f.slot - 1
  | .min => if f.isFA then f.layout.infinity false else wrapInt f.slot f.intMax
  | .max => if f.isFA then f.layout.infinity true else wrapInt f.slot f.intMin
  | _ => 0

/-- VSCAN (R160). -/
def doVscan (d a : VName) (op : RedOp) (ex : Bool) (m : Option MName) (e : QEntry) (s : State) : VecRes :=
  popping e s [a] .whole fun e s => wholeVector e s fun t =>
    let one (c : Option Nat × State) (k : Nat) : Option Nat × State :=
      let s := c.2
      if s.hart.vec.active m k then
        let x := s.elemOf e t a k
        let (new, s) := match c.1 with
          | some acc => redOp t.fmt op s acc x
          | none => scanFirst t.fmt s x
        (some new, s.putElem e t d k (if ex then c.1.getD (scanIdentity t.fmt op) else new))
      else (c.1, s.inactive e t d k)
    let f := s.hart.vec
    let (_, s) := (List.range e.vl).foldl one (none, s)
    .ok (s.finishDest e t d fun k => t.mp || f.active m k)

/-- VSCAN. -/
def execVscan (d a : VName) (op : RedOp) (ex : Bool) (m : Option MName) (s : State) : Result :=
  issue s (.vscan d a op ex m) (legalUnder s fun t => t.groupAt d && t.groupAt a && !t.meet d a && redAccepts op t.fmt)
    .vector {} (doVscan d a op ex m)

/-! ## Masks (R161 to R163) -/

/-- The elements below vl at which a mask is set and that are active under the optional mask. -/
def setBits (s : State) (e : QEntry) (a : MName) (m : Option MName) : List Nat :=
  (List.range e.vl).filter fun k => s.hart.vec.maskBit a k && s.hart.vec.active m k

/-- VPOPC (R161). -/
def doVpopc (d : XReg) (a : MName) (m : Option MName) (e : QEntry) (s : State) : VecRes :=
  .done s [(d, BitVec.ofNat 64 (setBits s e a m).length)]

/-- VPOPC. -/
def execVpopc (d : XReg) (a : MName) (m : Option MName) (s : State) : Result :=
  issueSync s (.vpopc d a m) (legalUnder s fun _ => true) {} (doVpopc d a m)

/-- VMFIRST (R161). -/
def doVmfirst (d : XReg) (a : MName) (m : Option MName) (e : QEntry) (s : State) : VecRes :=
  .done s [(d, match (setBits s e a m).head? with
    | some k => BitVec.ofNat 64 k
    | none => BitVec.allOnes 64)]

/-- VMFIRST. -/
def execVmfirst (d : XReg) (a : MName) (m : Option MName) (s : State) : Result :=
  issueSync s (.vmfirst d a m) (legalUnder s fun _ => true) {} (doVmfirst d a m)

/-- The state with a mask destination written: the bits below vl by a function of the element, those up to VLMAX under TP; a mask
written whole is no longer poisoned. -/
def State.writeMask (s : State) (e : QEntry) (t : VType) (d : MName) (bit : Nat → Bool) : State :=
  let n := e.vlmax t
  let vec := (List.range e.vl).foldl (fun f k => f.setMaskBit d k (bit k)) s.hart.vec
  let vec := if t.tp then (List.range' e.vl (n - e.vl)).foldl (fun f k => f.setMaskBit d k false) vec else vec
  let whole := decide (e.vlen ≤ n) && (t.tp || decide (n ≤ e.vl))
  s.setVec (if whole then { vec with poisonM := vec.poisonM &&& ~~~maskSet d } else vec)

/-- VMKEEPN (R162). -/
def doVmkeepn (d a : MName) (e : QEntry) (s : State) : VecRes :=
  wholeVector e s fun t =>
    let set := setBits s e a none
    let kept := set.take e.xb.toNat
    .ok (s.writeMask e t d kept.contains)

/-- VMKEEPN. -/
def execVmkeepn (d a : MName) (b : XReg) (s : State) : Result :=
  issue s (.vmkeepn d a b) (legalUnder s fun _ => true) .vector { b := some b } (doVmkeepn d a)

/-- VMLOGIC (R163). -/
def doVmlogic (d a b : MName) (t : BitVec 4) (e : QEntry) (s : State) : VecRes :=
  wholeVector e s fun ty =>
    let f := s.hart.vec
    .ok (s.writeMask e ty d fun k => t.getLsbD (2 * (f.maskBit a k).toNat + (f.maskBit b k).toNat))

/-- VMLOGIC. -/
def execVmlogic (d a b : MName) (t : BitVec 4) (s : State) : Result :=
  issue s (.vmlogic d a b t) (legalUnder s fun _ => true) .vector {} (doVmlogic d a b t)

/-! ## Zip and unzip (R165) -/

/-- The unit of interleaving. -/
def VType.zipUnit (t : VType) : Nat := if t.fmt.isSC then 2 ^ t.bl else 1

/-- The zipped position of element `i` of source `s`. -/
def zipAt (g i s : Nat) : Nat := (2 * (i / g) + s) * g + i % g

/-- A group of 2 × LMUL registers at a register; none at LMUL = 8. -/
def VType.wideAt (t : VType) (v : VName) : Bool := t.mul != 8 && groupOk (2 * t.mul) v.val

/-- VZIP. -/
def doVzip (d a b : VName) (e : QEntry) (s : State) : VecRes :=
  popping e s [a, b] .whole fun e s => wholeVector e s fun t =>
    let g := t.zipUnit
    let set := groupSet (2 * t.mul) d.val
    let s := if t.tp then s.setVec (s.hart.vec.zeroFrom e.vlen d.val t.sew 0 (2 * t.mul)) else s
    let s := (List.range e.vl).foldl (fun s i =>
      (s.putElem e t d (zipAt g i 0) (s.valueOf e t a i)).putElem e t d (zipAt g i 1) (s.valueOf e t b i)) s
    let s := (s.wrote e.vlen set).progress set (2 * e.vl)
    .ok (s.cleanse e t.sew set (2 * t.mul) fun k => t.tp || decide (k < 2 * e.vl))

/-- VZIP. -/
def execVzip (d a b : VName) (s : State) : Result :=
  issue s (.vzip d a b)
    (legalUnder s fun t => t.wideAt d && t.groupAt a && t.groupAt b &&
      !groupsMeet (2 * t.mul) d.val t.mul a.val && !groupsMeet (2 * t.mul) d.val t.mul b.val) .vector {} (doVzip d a b)

/-- VUNZIP. -/
def doVunzip (d a : VName) (odd : Bool) (e : QEntry) (s : State) : VecRes :=
  popping e s (wideSource ((e.vtype.map VType.mul).getD 1) a) .whole fun e s => wholeVector e s fun t =>
    let g := t.zipUnit
    let s := (List.range e.vl).foldl (fun s i => s.putElem e t d i (s.valueOf e t a (zipAt g i odd.toNat))) s
    .ok (s.finishDest e t d fun _ => true)

/-- VUNZIP. -/
def execVunzip (d a : VName) (odd : Bool) (s : State) : Result :=
  issue s (.vunzip d a odd)
    (legalUnder s fun t => t.groupAt d && t.wideAt a && !groupsMeet t.mul d.val (2 * t.mul) a.val) .vector {}
    (doVunzip d a odd)

end Sys2Proof.Machine
end

