-- ==== Sys2Proof/Machine/Runs.lean ====
section
/-!
DEFINITION. The run instructions: run order, tag checks, sorting, merging, searching and counting (R166 to R186).
-/

namespace Sys2Proof.Machine

/-! ## Run order (R166, R167) -/

/-- A key format of the run instructions (R169). -/
def runFmt (f : Fmt) : Bool := f.isFS || f.isInt || f == .e8m0

/-- The rank of a key in the base order. -/
def runRank (f : Fmt) (x : Nat) : Nat := if f = .e8m0 then x % 256 else ordKey f x

/-- A key with its payload. -/
structure RunElem where
  key : Nat
  payload : Nat
  deriving DecidableEq, Repr

/-- RunLess: key `a` precedes key `b`. -/
def runLess (f : Fmt) (desc : Bool) (a b : Nat) : Bool :=
  if desc then decide (runRank f b < runRank f a) else decide (runRank f a < runRank f b)

/-- A sorted list with an element put after every element that it does not precede. -/
def insertRun (less : Nat → Nat → Bool) (x : RunElem) : List RunElem → List RunElem
  | [] => [x]
  | y :: ys => if less x.key y.key then x :: y :: ys else y :: insertRun less x ys

/-- The stable sort of a list. -/
def sortRun (less : Nat → Nat → Bool) (xs : List RunElem) : List RunElem := xs.foldl (fun l x => insertRun less x l) []

/-- The stable merge of two sorted lists: each element with whether it comes from the first. -/
def mergeRuns (less : Nat → Nat → Bool) : List RunElem → List RunElem → List (RunElem × Bool)
  | [], bs => bs.map (·, false)
  | a :: as, bs =>
    let before := bs.takeWhile fun b => less b.key a.key
    before.map (·, false) ++ (a, true) :: mergeRuns less as (bs.drop before.length)

/-! ## Groups (R170, R171) -/

/-- The bits of a payload width code. -/
def payloadBits (pw : Fin 4) : Nat := 8 * 2 ^ pw.val

/-- The registers of a payload group. -/
def VType.payloadGroup (t : VType) (pw : Fin 4) : Nat := max 1 (t.mul * payloadBits pw / t.sew)

/-- A key group with its payload group: first register, key registers, payload registers. -/
structure RunGroup where
  reg : Nat
  keys : Nat
  pays : Nat
  deriving DecidableEq, Repr

/-- The registers of a group, with its payload group while there is one. -/
def RunGroup.set (g : RunGroup) (pay : Bool) : BitVec 32 :=
  groupSet g.keys g.reg ||| (if pay then groupSet g.pays (g.reg + 16) else 0#32)

/-- The payload group is legal (R53, R170): it begins at a multiple of `gp` and ends at or below v31, and the keys lie in v0 to
v15. -/
def RunGroup.payOk (g : RunGroup) (gp : Nat) : Bool :=
  decide (g.reg + g.keys ≤ 16) && decide ((g.reg + 16) % gp = 0) && decide (g.reg + 16 + g.pays ≤ 32)

/-- The group of LMUL registers at a register, with a payload of a width. -/
def VType.runGroup (t : VType) (v : VName) (pw : Fin 4) : RunGroup := ⟨v.val, t.mul, t.payloadGroup pw⟩

/-- The elements of a group with their payloads; the ignored bits of a key are zero (R17, R18, R166). -/
def runElems (s : State) (e : QEntry) (t : VType) (v : VName) (n : Nat) (pay : Option (Fin 4)) : List RunElem :=
  (List.range n).map fun k =>
    ⟨s.valueOf e t v k, match pay with
      | some pw => s.hart.vec.elem e.vlen (v.val + 16) (payloadBits pw) k
      | none => 0⟩

/-! ## Beginning and completing (R172 to R174) -/

/-- The vector file with the tags of a set of registers cleared, and no other (R7: ClearTag). -/
def VecFile.clearTagsOf (f : VecFile) (set : BitVec 32) : VecFile :=
  { f with poisonTag := f.poisonTag &&& ~~~set, tag := f.tag.mapFinIdx fun n t _ => if set.getLsbD n then none else t }

/-- The registers of a key group and of its partner, 16 registers from it (R53, R174). The partner spans the larger of the key group and
the payload group, the latter at the first source's PW, or at 8 bits without a payload; a group in v16 to v31 has the key registers 16 below
as its partner (notes/assumptions/23.md). -/
def RunGroup.withPartner (g : RunGroup) : BitVec 32 :=
  groupSet g.keys g.reg ||| (if g.reg < 16 then groupSet (max g.keys g.pays) (g.reg + 16) else groupSet g.keys (g.reg - 16))

/-- The state after a run instruction has begun (R174): the tags of its destination key group and of that group's partner are
cleared. -/
def State.dropTags (s : State) (g : RunGroup) : State := s.setVec (s.hart.vec.clearTagsOf g.withPartner)

/-- The tags of the sources: those found as the instruction begins, and at a restart those that the entry keeps of sources whose tags were
cleared with the destination's partner (R174, R175). -/
def sourceTags (s : State) (e : QEntry) (srcs : List VName) : List (Option RunTag) :=
  srcs.zipIdx.map fun p => (s.hart.vec.tag[p.1]).orElse fun _ => (e.tags[p.2]?).join

/-- The payload width that a source tag gives the destination's partner; 8 bits while there is none. -/
def partnerWidth (g : Option RunTag) : Fin 4 := (g.bind (·.payload)).getD 0

/-- The destination of a run instruction, by the payload width of its first source. -/
def runDest (t : VType) : Instr → Option (Fin 4 → RunGroup)
  | .vsortg d _ _ mods => some fun _ => t.runGroup d mods.pw
  | .vmergeg d _ | .vmergeh d _ _ _ | .visect d _ _ _ | .vdiffk d _ _ _ | .vuniq d _ _ | .vrank d _ _ _ => some (t.runGroup d)
  | .vmerge2 d _ _ => some fun pw => ⟨d.val, 2 * t.mul, 2 * t.payloadGroup pw⟩
  | .vpart d _ _ => some fun _ => ⟨d.val, 1, 1⟩
  | _ => none

/-- A run instruction has begun: the tags of its tagged sources are read and kept for a restart, and the tags of its destination, of the
registers that a payload width gives, and of the destination's partner are cleared (R52, R172, R174). VASSERT clears the tag of `v[d]` alone,
as the pseudocode of R178 does (notes/assumptions/23.md). -/
def State.begun (s : State) (e : QEntry) (t : VType) (i : Instr) : QEntry × State :=
  match i with
  | .vassert d _ _ _ => (e, s.setVec (s.hart.vec.clearTagsOf (groupSet 1 d.val)))
  | i =>
    match runDest t i with
    | none => (e, s)
    | some dest =>
      let tags := sourceTags s e (tagSources i)
      ({ e with tags := tags }, s.dropTags (dest (partnerWidth tags.head?.join)))

/-- The registers that the pop of strips into source groups writes, from the START of the issue on. -/
def State.popWrites (s : State) (e : QEntry) (t : VType) (srcs : List VName) : BitVec 32 :=
  (s.hart.boundTo srcs).foldl (fun set i => match s.hart.streams[i] with
    | some b => set ||| QEntry.popSet { e with start := e.base } t b
    | none => set) 0#32

/-- A run instruction begins, pops the strips of its bound sources, and then reads its sources: the pop has cleared every tag whose spans it
has written (R51, R125, R175). `act` gets the tagged sources. -/
def beginRun (e : QEntry) (s : State) (t : VType) (i : Instr) (how : Pops)
    (act : List (VName × Option RunTag) → QEntry → State → VecRes) : VecRes :=
  let pops := popSources t.mul i
  let set := s.popWrites e t pops
  let (b, s) := s.begun e t i
  popStrips b s pops how fun e' s =>
    let left (p : VName × Option RunTag) : Option RunTag :=
      p.2.filter fun g => (g.covers e.vlen p.1.val ||| groupSet 1 p.1.val) &&& set == 0#32
    let tags := if e'.popped && !e.popped then ((tagSources i).zip b.tags).map left else b.tags
    poisonCheck { e' with tags := tags } (act ((tagSources i).zip tags)) s

/-- A run-order fault of a kind that names a register (R173). What follows it begins anew. -/
def runFault (s : State) (e : QEntry) (t : VType) (kind k reg : Nat) : VecRes :=
  .fault s { e with start := 0, tags := [] } (vecFault s e t 25 kind 0 k 0#64 (some (0, reg)))

/-- The elements that a tagged source contributes (R172). -/
def RunTag.contributes (g : RunTag) (vl : Nat) : Nat := min vl g.len

/-- The elements that the second of two tagged sources contributes. -/
def secondLen (srcs : List (VName × Option RunTag)) (vl : Nat) : Nat := (((srcs[1]?).bind (·.2)).map (·.contributes vl)).getD 0

/-- The tag covers one run over what it contributes (R168). -/
def RunTag.whole (g : RunTag) (vl : Nat) : Bool := g.gr == 31 || decide (g.contributes vl ≤ 2 ^ g.gr.val)

/-- The check of one tagged source (R172, R173): the kind of the run-order fault it raises. `first` is the tag of the first
source; `dest` is the destination with its payload group's alignment, which the first source's check takes in. -/
def checkSource (t : VType) (vl : Nat) (v : VName) (tag first : Option RunTag) (whole : Bool) (dest : Option (RunGroup × Nat)) :
    Option Nat :=
  match tag with
  | none => some 0
  | some g =>
    if g.kf ≠ t.fmt then some 1
    else if first.any fun f => f.descending != g.descending || f.payload != g.payload then some 1
    else if whole && !g.whole vl then some 2
    else match g.payload with
      | none => none
      | some pw =>
        if !(t.runGroup v pw).payOk (t.payloadGroup pw) || dest.any fun d => !d.1.payOk d.2 then some 5 else none

/-- The destination of a run instruction: the registers of its key group, in units of LMUL (1 or 2), or one single register
that takes no payload. -/
inductive RunDest where
  | group (v : VName) (times : Nat)
  | bare (v : VName) (regs : Nat)
  deriving DecidableEq, Repr

/-- The destination group under a payload width. -/
def RunDest.at' (d : RunDest) (t : VType) (pw : Fin 4) : RunGroup :=
  match d with
  | .group v n => ⟨v.val, n * t.mul, n * t.payloadGroup pw⟩
  | .bare v n => ⟨v.val, n, 0⟩

/-- The destination takes a payload group. -/
def RunDest.pays : RunDest → Bool
  | .group _ _ => true
  | .bare _ _ => false

/-- The tag checks of a run instruction over its tagged sources (R172, R173), then the sharing of registers that a source tag's
payload brings about (R171); `act` gets the first source's tag. `others` are source groups that need no tag. -/
def checkedSources (s : State) (e : QEntry) (t : VType) (srcs : List (VName × Option RunTag)) (others : List VName)
    (whole : Bool) (dest : Option RunDest) (act : RunTag → VecRes) : VecRes :=
  let first := (srcs.head?.map (·.2)).join
  let check (p : (VName × Option RunTag) × Nat) : Option (Nat × Nat) :=
    let v := p.1.1
    let g := p.1.2
    let d := if p.2 = 0 then (g.bind (·.payload)).bind fun pw =>
        dest.bind fun d => if d.pays then some (d.at' t pw, t.payloadGroup pw) else none
      else none
    (checkSource t e.vl v g (if p.2 = 0 then none else first) whole d).map (·, v.val)
  match srcs.zipIdx.findSome? check with
  | some (kind, reg) => runFault s e t kind 0 reg
  | none =>
    match first with
    | none => runFault s e t 0 0 0
    | some g =>
      match g.payload, dest with
      | some pw, some d =>
        let set := (d.at' t pw).set d.pays
        let sets := srcs.map (fun p => (t.runGroup p.1 pw).set true) ++ others.map fun v => groupSet t.mul v.val
        if sets.any fun x => x &&& set != 0#32 then runFault s e t 5 0 (d.at' t pw).reg else act g
      | _, _ => act g

/-- The destination shares no register with the source key groups (R171). -/
def runDisjoint (t : VType) (d : RunDest) (srcs : List VName) : Bool :=
  srcs.all fun v => (d.at' t 0).set false &&& groupSet t.mul v.val == 0#32

/-- An output of a run instruction: its place in the destination, key and payload. -/
abbrev RunOut := Nat × RunElem

/-- The vector file with outputs written into a destination. -/
def VecFile.putOuts (f : VecFile) (e : QEntry) (t : VType) (d : RunGroup) (pay : Option (Fin 4)) (outs : List RunOut) : VecFile :=
  outs.foldl (fun f o =>
    let f := f.setElem e.vlen d.reg t.sew o.1 o.2.key
    match pay with
    | some pw => f.setElem e.vlen (d.reg + 16) (payloadBits pw) o.1 o.2.payload
    | none => f) f

/-- The state after elements of a destination were written with their payloads, by place: the poison of a register that is written whole
ends (R379). -/
def State.cleanseRun (s : State) (e : QEntry) (t : VType) (d : RunGroup) (pay : Option (Fin 4)) (wrote : Nat → Bool) : State :=
  let s := s.cleanse e t.sew (groupSet d.keys d.reg) d.keys wrote
  match pay with
  | some pw => s.cleanse e (payloadBits pw) (groupSet d.pays (d.reg + 16)) d.pays wrote
  | none => s

/-- The state with outputs written, the write noted, and the elements from `n` on following TP (R174); of those below `n`, `wrote` says which
the instruction has written. -/
def State.writeRun (s : State) (e : QEntry) (t : VType) (d : RunGroup) (pay : Option (Fin 4)) (outs : List RunOut) (n : Nat)
    (wrote : Nat → Bool) : State :=
  let f := s.hart.vec.putOuts e t d pay outs
  let f := if t.tp then
      let f := f.zeroFrom e.vlen d.reg t.sew n d.keys
      (match pay with
        | some pw => f.zeroFrom e.vlen (d.reg + 16) (payloadBits pw) n d.pays
        | none => f)
    else f
  let set := d.set pay.isSome
  (((s.setVec f).wrote e.vlen set).progress set n).cleanseRun e t d pay fun k => if k < n then wrote k else t.tp

/-- The run phase (R175): the outputs, each at its place in the unit of `vstart`, are written from START on, in steps of `step` places.
A phase that is to stop midway stops at a place below `total`, with no tag set and no count returned; otherwise the output of `n`
elements is complete. START at or above vl is such a place, and completes (notes/assumptions/40.md). -/
def runPhase (s : State) (e : QEntry) (t : VType) (d : RunGroup) (pay : Option (Fin 4)) (step total n : Nat)
    (outs : List (Nat × RunOut)) (finish : State → VecRes) : VecRes :=
  let first := e.start / step * step
  let wrote (hi k : Nat) : Bool := outs.any fun o => decide (e.base / step * step ≤ o.1 ∧ o.1 < hi ∧ o.2.1 = k)
  let upTo (hi : Option Nat) : List RunOut :=
    (outs.filter fun o => decide (first ≤ o.1) && (hi.map fun h => decide (o.1 < h)).getD true).map (·.2)
  let stop := (s.hart.pause.map fun p => p / step * step).filter fun p => decide (first < p ∧ p < total)
  match stop with
  | some p =>
    let set := d.set pay.isSome
    let s := (s.setVec (s.hart.vec.putOuts e t d pay (upTo (some p)))).wrote e.vlen set
    let s := s.progress set (outs.filter fun o => decide (o.1 < p)).length
    .wait (s.cleanseRun e t d pay (wrote p)) { e with start := p } none
  | none => finish (s.writeRun e t d pay (upTo none) n (wrote (max total outs.length)))

/-- The tag of an output of `n` elements: GR is 31 where one run covers it (R174). -/
def outTag (desc : Bool) (f : Fmt) (pay : Option (Fin 4)) (gr n : Nat) (uniq : Bool) : Option RunTag :=
  if n = 0 then none else some ⟨desc, f, pay, if gr = 31 ∨ n ≤ 2 ^ gr then 31 else Fin.ofNat 32 gr, n, uniq⟩

/-- SetTag. -/
def State.setTag (s : State) (reg : Nat) (g : Option RunTag) : State :=
  s.setVec { s.hart.vec with tag := s.hart.vec.tag.setIfInBounds reg g, poisonTag := s.hart.vec.poisonTag &&& ~~~groupSet 1 reg }

/-- A condition on the vector type of a run instruction (R169). -/
def runLegal (s : State) (p : VType → Bool) : Bool := legalUnder s fun t => runFmt t.fmt && p t

/-- The payload of a `.p` modifier. -/
def RunMods.pay (m : RunMods) : Option (Fin 4) := if m.payload then some m.pw else none

end Sys2Proof.Machine

namespace Sys2Proof.Machine

/-! ## Making runs (R177, R178) -/

/-- The aligned groups of a list, each sorted. -/
def sortGroups (less : Nat → Nat → Bool) (size : Nat) (xs : List RunElem) : List RunElem :=
  (List.range ((xs.length + size - 1) / size)).flatMap fun j => sortRun less ((xs.drop (j * size)).take size)

/-- Outputs whose places in the unit of `vstart` are their own places. -/
def inPlace (xs : List RunElem) : List (Nat × RunOut) := xs.zipIdx.map fun p => (p.2, p.2, p.1)

/-- VSORTG (R177). -/
def doVsortg (d a : VName) (g : Fin 8) (mods : RunMods) (e : QEntry) (s : State) : VecRes :=
  e.typed s fun t =>
    let pay := RunMods.pay mods
    let dest := t.runGroup d mods.pw
    beginRun e s t (.vsortg d a g mods) .whole fun _ e s =>
      let n := e.vl
      let sorted := sortGroups (runLess t.fmt mods.descending) (2 ^ g.val) (runElems s e t a n pay)
      runPhase s e t dest pay (2 ^ g.val) n n (inPlace sorted) fun s =>
        .ok (s.setTag d.val (outTag mods.descending t.fmt pay g.val n false))

/-- VSORTG. -/
def execVsortg (d a : VName) (g : Fin 8) (mods : RunMods) (s : State) : Result :=
  issue s (.vsortg d a g mods)
    (runLegal s fun t => t.groupAt d && t.groupAt a &&
      (let gd := t.runGroup d mods.pw
       let ga := t.runGroup a mods.pw
       gd.set mods.payload &&& ga.set mods.payload == 0#32 &&
       (!mods.payload || (gd.payOk (t.payloadGroup mods.pw) && ga.payOk (t.payloadGroup mods.pw))))) .vector {}
    (doVsortg d a g mods)

/-- The first element of a list that breaks the order within runs of `size`, from element `k` on: `p` is the key before it. -/
def firstBroken (less : Nat → Nat → Bool) (uq : Bool) (size : Nat) : Nat → Nat → List RunElem → Option Nat
  | _, _, [] => none
  | k, p, x :: xs =>
    if k % size ≠ 0 ∧ (less x.key p ∨ (uq ∧ less p x.key = false)) then some k
    else firstBroken less uq size (k + 1) x.key xs

/-- VASSERT (R178). -/
def doVassert (d : VName) (uq : Bool) (gr : Fin 32) (mods : RunMods) (e : QEntry) (s : State) : VecRes :=
  e.typed s fun t =>
    beginRun e s t (.vassert d uq gr mods) .whole fun _ e s =>
      let n := e.vl
      let size := if gr = 31 then max 1 n else 2 ^ gr.val
      match firstBroken (runLess t.fmt mods.descending) uq size 0 0 (runElems s e t d n none) with
      | some k => runFault s e t 4 k d.val
      | none => .ok (s.setTag d.val (outTag mods.descending t.fmt (RunMods.pay mods) gr.val n uq))

/-- VASSERT. -/
def execVassert (d : VName) (uq : Bool) (gr : Fin 32) (mods : RunMods) (s : State) : Result :=
  issue s (.vassert d uq gr mods)
    (runLegal s fun t => t.groupAt d && (!mods.payload || (t.runGroup d mods.pw).payOk (t.payloadGroup mods.pw))) .vector {}
    (doVassert d uq gr mods)

/-! ## Merging (R179 to R182) -/

/-- The merges of adjacent runs of `size` elements; an unpaired run is copied. -/
def mergeAdjacent (less : Nat → Nat → Bool) (size : Nat) (xs : List RunElem) : List RunElem :=
  (List.range ((xs.length + 2 * size - 1) / (2 * size))).flatMap fun i =>
    let p := (xs.drop (2 * i * size)).take (2 * size)
    (mergeRuns less (p.take size) (p.drop size)).map (·.1)

/-- VMERGEG (R179). -/
def doVmergeg (d a : VName) (e : QEntry) (s : State) : VecRes :=
  e.typed s fun t =>
    beginRun e s t (.vmergeg d a) .whole fun srcs e s =>
      checkedSources s e t srcs [] false (some (.group d 1)) fun g =>
        let n := g.contributes e.vl
        let xs := runElems s e t a n g.payload
        let one := g.whole e.vl
        let ys := if one then xs else mergeAdjacent (runLess t.fmt g.descending) (2 ^ g.gr.val) xs
        runPhase s e t (t.runGroup d (g.payload.getD 0)) g.payload 1 n n (inPlace ys) fun s =>
          .ok (s.setTag d.val (outTag g.descending t.fmt g.payload (if one then 31 else g.gr.val + 1) n (one && g.uniq)))

/-- VMERGEG. -/
def execVmergeg (d a : VName) (s : State) : Result :=
  issue s (.vmergeg d a) (runLegal s fun t => t.groupAt d && t.groupAt a && runDisjoint t (.group d 1) [a]) .vector {}
    (doVmergeg d a)

/-- The largest LEN of a tag (R50). -/
def maxTagLen : Nat := 262144

/-- VMERGE2 (R180): an output longer than a tag can cover is tagged as two runs. -/
def doVmerge2 (d a b : VName) (e : QEntry) (s : State) : VecRes :=
  e.typed s fun t =>
    beginRun e s t (.vmerge2 d a b) .whole fun srcs e s =>
      checkedSources s e t srcs [] true (some (.group d 2)) fun g =>
        let nb := secondLen srcs e.vl
        let xs := runElems s e t a (g.contributes e.vl) g.payload
        let ys := runElems s e t b nb g.payload
        let m := (mergeRuns (runLess t.fmt g.descending) xs ys).map (·.1)
        let n := m.length
        let tag (n : Nat) := outTag g.descending t.fmt g.payload 31 n false
        runPhase s e t ((RunDest.group d 2).at' t (g.payload.getD 0)) g.payload 1 n n (inPlace m) fun s =>
          let s := s.setTag d.val (tag (min n maxTagLen))
          .ok (if maxTagLen < n then s.setTag (d.val + t.mul) (tag (n - maxTagLen)) else s)

/-- VMERGE2. -/
def execVmerge2 (d a b : VName) (s : State) : Result :=
  issue s (.vmerge2 d a b)
    (runLegal s fun t => t.wideAt d && t.groupAt a && t.groupAt b && runDisjoint t (.group d 2) [a, b]) .vector {}
    (doVmerge2 d a b)

/-- VMERGEH (R181): the number of outputs taken from the first source is returned. -/
def doVmergeh (d a b : VName) (cnt : Fin 8) (e : QEntry) (s : State) : VecRes :=
  e.typed s fun t =>
    beginRun e s t (.vmergeh d a b cnt) .whole fun srcs e s =>
      checkedSources s e t srcs [] true (some (.group d 1)) fun g =>
        let nb := secondLen srcs e.vl
        let xs := runElems s e t a (g.contributes e.vl) g.payload
        let ys := runElems s e t b nb g.payload
        let m := (mergeRuns (runLess t.fmt g.descending) xs ys).take e.vl
        runPhase s e t (t.runGroup d (g.payload.getD 0)) g.payload 1 m.length m.length (inPlace (m.map (·.1))) fun s =>
          .done (s.setTag d.val (outTag g.descending t.fmt g.payload 31 m.length false)) [(countX cnt, BitVec.ofNat 64 (m.filter (·.2)).length)]

/-- VMERGEH. -/
def execVmergeh (d a b : VName) (cnt : Fin 8) (s : State) : Result :=
  issueSync s (.vmergeh d a b cnt)
    (runLegal s fun t => t.groupAt d && t.groupAt a && t.groupAt b && runDisjoint t (.group d 1) [a, b]) {}
    (doVmergeh d a b cnt)

/-- The outputs that a selection from a source gives: each with the place of its element in the source. -/
def compacted (keep : List Bool) (xs : List RunElem) : List (Nat × RunElem) :=
  ((xs.zip keep).zipIdx.filter fun p => p.1.2).map fun p => (p.2, p.1.1)

/-- The run phase of a selection (R182), of which `vstart` counts the source elements, `total` of them. -/
def finishSelection (s : State) (e : QEntry) (t : VType) (d : VName) (cnt : Fin 8) (g : RunTag) (uniq : Bool) (total : Nat)
    (outs : List (Nat × RunElem)) : VecRes :=
  let n := outs.length
  runPhase s e t (t.runGroup d (g.payload.getD 0)) g.payload 1 total n (outs.zipIdx.map fun p => (p.1.1, p.2, p.1.2)) fun s =>
    .done (s.setTag d.val (outTag g.descending t.fmt g.payload 31 n uniq)) [(countX cnt, BitVec.ofNat 64 n)]

/-- VISECT and VDIFFK (R182): `sense` keeps the elements with an equal key in the second source. -/
def doSelect (sense : Bool) (d a b : VName) (cnt : Fin 8) (e : QEntry) (s : State) : VecRes :=
  e.typed s fun t =>
    beginRun e s t (if sense then .visect d a b cnt else .vdiffk d a b cnt) .whole fun srcs e s =>
      checkedSources s e t srcs [] true (some (.group d 1)) fun g =>
        let nb := secondLen srcs e.vl
        let xs := runElems s e t a (g.contributes e.vl) g.payload
        let ranks := (runElems s e t b nb none).map fun y => runRank t.fmt y.key
        let keep := xs.map fun x => ranks.contains (runRank t.fmt x.key) == sense
        finishSelection s e t d cnt g g.uniq xs.length (compacted keep xs)

/-- VISECT. -/
def execVisect (d a b : VName) (cnt : Fin 8) (s : State) : Result :=
  issueSync s (.visect d a b cnt)
    (runLegal s fun t => t.groupAt d && t.groupAt a && t.groupAt b && runDisjoint t (.group d 1) [a, b]) {}
    (doSelect true d a b cnt)

/-- VDIFFK. -/
def execVdiffk (d a b : VName) (cnt : Fin 8) (s : State) : Result :=
  issueSync s (.vdiffk d a b cnt)
    (runLegal s fun t => t.groupAt d && t.groupAt a && t.groupAt b && runDisjoint t (.group d 1) [a, b]) {}
    (doSelect false d a b cnt)

/-- VUNIQ (R182). -/
def doVuniq (d a : VName) (cnt : Fin 8) (e : QEntry) (s : State) : VecRes :=
  e.typed s fun t =>
    beginRun e s t (.vuniq d a cnt) .whole fun srcs e s =>
      checkedSources s e t srcs [] true (some (.group d 1)) fun g =>
        let xs := runElems s e t a (g.contributes e.vl) g.payload
        let ranks := xs.map fun x => runRank t.fmt x.key
        let keep := (List.range xs.length).map fun i => i == 0 || ranks.getD (i - 1) 0 != ranks.getD i 0
        finishSelection s e t d cnt g true xs.length (compacted keep xs)

/-- VUNIQ. -/
def execVuniq (d a : VName) (cnt : Fin 8) (s : State) : Result :=
  issueSync s (.vuniq d a cnt) (runLegal s fun t => t.groupAt d && t.groupAt a && runDisjoint t (.group d 1) [a]) {}
    (doVuniq d a cnt)

/-! ## Searching and counting (R183 to R186) -/

/-- VRANK (R183). At vl = 0 it performs nothing and clears no tag (R152, notes/assumptions/40.md). -/
def doVrank (d a b : VName) (le : Bool) (e : QEntry) (s : State) : VecRes :=
  e.typed s fun t =>
    if e.vl ≤ e.start then .ok s
    else
      beginRun e s t (.vrank d a b le) .issued fun srcs e s =>
        checkedSources s e t srcs [b] true (some (.bare d t.mul)) fun g =>
          let xs := runElems s e t a (g.contributes e.vl) none
          let less := runLess t.fmt g.descending
          elementwise e s t d none 0 fun s k =>
            let q := s.elemOf e t b k
            min (xs.filter fun r => if le then !less q r.key else less r.key q).length (2 ^ t.sew - 1)

/-- VRANK. -/
def execVrank (d a b : VName) (le : Bool) (s : State) : Result :=
  issue s (.vrank d a b le)
    (runLegal s fun t => t.groupAt d && t.groupAt a && t.groupAt b && runDisjoint t (.bare d t.mul) [a, b]) .vector {}
    (doVrank d a b le)

/-- VPART (R184). At vl = 0 it performs nothing and clears no tag (R152, notes/assumptions/40.md). -/
def doVpart (d a b : VName) (e : QEntry) (s : State) : VecRes :=
  wholeVector e s fun t =>
    beginRun e s t (.vpart d a b) .whole fun srcs e s =>
      checkedSources s e t srcs [] true (some (.bare d 1)) fun g =>
        let n := secondLen srcs e.vl
        if 64 < n then runFault s e t 3 0 b.val
        else
          let less := runLess t.fmt g.descending
          let splitters := runElems s e t b n none
          let bucket (x : RunElem) : Nat := (splitters.filter fun p => !less x.key p.key).length
          let buckets := (runElems s e t a (g.contributes e.vl) none).map bucket
          let f := (List.range (n + 1)).foldl
            (fun f j => f.setElem e.vlen d.val 32 j (buckets.filter (· == j)).length) s.hart.vec
          let f := if t.tp then f.zeroFrom e.vlen d.val 32 (n + 1) 1 else f
          let s := ((s.setVec f).wrote e.vlen (groupSet 1 d.val)).progress (groupSet 1 d.val) (n + 1)
          .ok (s.cleanse e 32 (groupSet 1 d.val) 1 fun k => decide (k ≤ n) || t.tp)

/-- VPART. -/
def execVpart (d a b : VName) (s : State) : Result :=
  issue s (.vpart d a b) (runLegal s fun t => t.groupAt a && t.groupAt b && runDisjoint t (.bare d 1) [a, b]) .vector {}
    (doVpart d a b)

/-- VLOCATE (R185). -/
def doVlocate (d : XReg) (a : VName) (e : QEntry) (s : State) : VecRes :=
  e.typed s fun t =>
    popping e s [a] .whole fun e s =>
      checkedSources s e t [(a, s.hart.vec.tag[a])] [] true none fun g =>
        let key := e.xb.toNat % 2 ^ t.sew
        let xs := runElems s e t a (g.contributes e.vl) none
        .done s [(d, BitVec.ofNat 64 (xs.filter fun r => runLess t.fmt g.descending r.key key).length)]

/-- VLOCATE. -/
def execVlocate (d : XReg) (a : VName) (b : XReg) (s : State) : Result :=
  issueSync s (.vlocate d a b) (runLegal s fun t => t.groupAt a) { b := some b } (doVlocate d a)

/-- VRTAGC (R186). -/
def doVrtagc (d : VName) (_ : QEntry) (s : State) : VecRes := .ok (s.setTag d.val none)

/-- VRTAGC: R169 gives it the formats of the run instructions. -/
def execVrtagc (d : VName) (s : State) : Result := issue s (.vrtagc d) (runLegal s fun _ => true) .vector {} (doVrtagc d)

end Sys2Proof.Machine
end

