-- ==== Sys2Proof/Machine/Ixt.lean ====
section
/-!
DEFINITION. The index table and its instructions (R188 to R195).
-/

namespace Sys2Proof.Machine

/-! ## The table (R188) -/

/-- The sets of the table of a hart whose registers have `vlen` bits: 256 for each lane group. -/
def ixtSets (vlen : Nat) : Nat := 256 * (vlen / groupBits)

/-- The set of a key among `n` sets. -/
def ixtSet (n : Nat) (k : Word) : Nat := (k ^^^ (k >>> 21) ^^^ (k >>> 42)).toNat % n

/-- An index table: entry `8 × set + way`, none where it is not valid. -/
abbrev Ixt := List (Nat × Option IxEntry)

/-- An entry of the table. -/
def Ixt.entry (t : Ixt) (i : Nat) : Option IxEntry := Store.get none t i

/-- The way of a set that holds a key. -/
def Ixt.find (t : Ixt) (set : Nat) (k : Word) : Option Nat :=
  (List.range 8).find? fun w => match Ixt.entry t (8 * set + w) with
    | some x => x.key == k
    | none => false

/-- The lowest-numbered free way of a set. -/
def Ixt.free (t : Ixt) (set : Nat) : Option Nat := (List.range 8).find? fun w => (Ixt.entry t (8 * set + w)).isNone

/-- The table with an entry written. -/
def Ixt.write (t : Ixt) (i : Nat) (x : IxEntry) : Ixt := Store.put none t i (some x)

/-- The value of a key, if it is present. -/
def Ixt.lookup (t : Ixt) (n : Nat) (k : Word) : Option Word :=
  (Ixt.find t (ixtSet n k) k).bind fun w => (Ixt.entry t (8 * ixtSet n k + w)).map (·.value)

/-- The valid entries of a table in set and way order. -/
def Ixt.entries (t : Ixt) : List IxEntry := t.filterMap (·.2)

/-- The table after the hart's grant has changed to `new` sets (R189), with the old and the new place of each entry kept: growth places every
entry in set and way order; at a shrink new set s receives those of old sets s and s + S′ in turn, and so on for every halving. An entry that
finds no free way is lost. -/
def Ixt.resize (t : Ixt) (new : Nat) : Ixt × List (Nat × Nat) :=
  (t.filterMap fun p => p.2.map (p.1, ·)).foldl (fun c p =>
    let set := ixtSet new p.2.key
    match Ixt.free c.1 set with
    | some w => (Ixt.write c.1 (8 * set + w) p.2, c.2 ++ [(p.1, 8 * set + w)])
    | none => c) ([], [])

/-- The vector file with the poison of index table entries where a resizing to `new` sets has put them: that of a valid entry goes with it, and
is gone with an entry that is lost; that of a place without one stays while there is such a place (R189, R379). -/
def VecFile.movePoison (f : VecFile) (t : Ixt) (new : Nat) (moves : List (Nat × Nat)) : VecFile :=
  let to' (p : Nat × Bool) : Option (Nat × Nat) :=
    match Ixt.entry t p.1 with
    | some _ => moves.find? (·.1 == p.1)
    | none => if p.1 < 8 * new then some (p.1, p.1) else none
  let kept := f.poisonIxt.filterMap to'
  { f with
    poisonIxt := kept.foldl (fun m p => Store.put false m p.2 true) []
    poisonLane := kept.foldl (fun m p => Store.put 0 m (poisonKey .ixt p.2) (f.laneAt .ixt p.1))
      (f.poisonLane.filter fun p => decide (p.1 < poisonKey .ixt 0)) }

/-! ## Common conditions (R190) -/

/-- A 64-bit format. -/
def ixtFmt (f : Fmt) : Bool := f == .i64 || f == .n64 || f == .fp64

/-- A condition on the vector type of an IXT instruction. -/
def ixtLegal (s : State) (p : VType → Bool) : Bool := legalUnder s fun t => ixtFmt t.fmt && p t

/-- The state with the table of the selected hart at a value. -/
def State.setIxt (s : State) (t : Ixt) : State := { s with hart := { s.hart with ixt := t } }

/-- An instruction that reads entries of the sets of some keys: a poisoned entry among them is a data error (R379). -/
def ixtRead (e : QEntry) (s : State) (t : VType) (sets : List Nat) (act : Unit → VecRes) : VecRes :=
  match s.hart.vec.poisonIxt.find? fun p => sets.contains (p.1 / 8) with
  | some p => .fault s e { vecFault s e t 24 kindDataError 0 0 0#64 none with lg := 0, slice := some (s.hart.vec.laneAt .ixt p.1) }
  | none => act ()

/-- The sets that the active elements of a key group name. -/
def keySets (s : State) (e : QEntry) (t : VType) (a : VName) (m : Option MName) : List Nat :=
  ((List.range e.vl).filter (s.hart.vec.active m)).map fun k =>
    ixtSet (ixtSets e.vlen) (BitVec.ofNat 64 (s.elemOf e t a k))

/-- The bits below vl of a mask destination: results at the active elements, MP at the others (R190). -/
def maskBits (f : VecFile) (t : VType) (m : Option MName) (d : MName) (bits : List (Nat × Bool)) (k : Nat) : Bool :=
  if f.active m k then ((bits.find? (·.1 == k)).map (·.2)).getD false
  else if t.mp then false else f.maskBit d k

/-! ## The instructions (R191 to R195) -/

/-- One insertion: the table after it, and whether it failed (R191). -/
def Ixt.insert (t : Ixt) (n : Nat) (k x : Word) : Ixt × Bool :=
  let set := ixtSet n k
  match Ixt.find t set k with
  | some w => (Ixt.write t (8 * set + w) ⟨k, x⟩, false)
  | none => match Ixt.free t set with
    | some w => (Ixt.write t (8 * set + w) ⟨k, x⟩, false)
    | none => (t, true)

/-- VIXINS (R191). -/
def doVixins (d : MName) (a b : VName) (m : Option MName) (e : QEntry) (s : State) : VecRes :=
  popping e s [a, b] .whole fun e s => wholeVector e s fun t => ixtRead e s t (keySets s e t a m) fun _ =>
    let n := ixtSets e.vlen
    let one (c : Ixt × List (Nat × Bool)) (k : Nat) : Ixt × List (Nat × Bool) :=
      let r := Ixt.insert c.1 n (BitVec.ofNat 64 (s.elemOf e t a k)) (BitVec.ofNat 64 (s.elemOf e t b k))
      (r.1, c.2 ++ [(k, r.2)])
    let (ixt, fails) := ((List.range e.vl).filter (s.hart.vec.active m)).foldl one (s.hart.ixt, [])
    .ok ((s.setIxt ixt).writeMask e t d (maskBits s.hart.vec t m d fails))

/-- VIXINS. -/
def execVixins (d : MName) (a b : VName) (m : Option MName) (s : State) : Result :=
  issue s (.vixins d a b m) (ixtLegal s fun t => t.groupAt a && t.groupAt b) .vector {} (doVixins d a b m)

/-- VIXLKP (R192). -/
def doVixlkp (d a : VName) (b : MName) (m : Option MName) (e : QEntry) (s : State) : VecRes :=
  popping e s [a] .whole fun e s => wholeVector e s fun t => ixtRead e s t (keySets s e t a m) fun _ =>
    let n := ixtSets e.vlen
    let found (k : Nat) : Option Word := Ixt.lookup s.hart.ixt n (BitVec.ofNat 64 (s.elemOf e t a k))
    let misses := ((List.range e.vl).filter (s.hart.vec.active m)).map fun k => (k, (found k).isNone)
    let f := s.hart.vec
    let one (s' : State) (k : Nat) : State :=
      if f.active m k then s'.putElem e t d k ((found k).getD 0#64).toNat else s'.inactive e t d k
    let s' := (List.range e.vl).foldl one s
    .ok ((s'.finishDest e t d fun k => t.mp || f.active m k).writeMask e t b (maskBits f t m b misses))

/-- VIXLKP. -/
def execVixlkp (d a : VName) (b : MName) (m : Option MName) (s : State) : Result :=
  issue s (.vixlkp d a b m) (ixtLegal s fun t => t.groupAt d && t.groupAt a && !t.meet d a) .vector {} (doVixlkp d a b m)

/-- The combination of VIXACC (R193), with its flags and draw. -/
def ixCombine (op : IxOp) (s : State) (v x : Word) : Word × State :=
  let mode := Rounding.ofVrm s.hart.vc.vrm
  let low := x.toNat % 2 ^ 32
  match op with
  | .addFp64 =>
    let r := Fmt.fp64.fadd (s.roundCtx mode false) v.toNat x.toNat
    (BitVec.ofNat 64 r.1, (s.accrue r.2).drawn mode)
  | .addFp32 =>
    let r := Fmt.fp32.fadd (s.roundCtx mode false) (v.toNat % 2 ^ 32) low
    (putField v 0 32 r.1, (s.accrue r.2).drawn mode)
  | .addI64 => (v + x, s)
  | .min => (if x.toInt < v.toInt then x else v, s)
  | .max => (if v.toInt < x.toInt then x else v, s)
  | .or => (v ||| x, s)

/-- VIXACC (R193). -/
def doVixacc (d : MName) (a b : VName) (op : IxOp) (e : QEntry) (s : State) : VecRes :=
  popping e s [a, b] .whole fun e s => wholeVector e s fun t => ixtRead e s t (keySets s e t a none) fun _ =>
    let n := ixtSets e.vlen
    let one (c : State × List (Nat × Bool)) (k : Nat) : State × List (Nat × Bool) :=
      let s := c.1
      let key := BitVec.ofNat 64 (s.elemOf e t a k)
      let x := BitVec.ofNat 64 (s.elemOf e t b k)
      match Ixt.lookup s.hart.ixt n key with
      | some v =>
        let (v, s) := ixCombine op s v x
        (s.setIxt (Ixt.insert s.hart.ixt n key v).1, c.2 ++ [(k, false)])
      | none =>
        let r := Ixt.insert s.hart.ixt n key (if op = .addFp32 then BitVec.ofNat 64 (x.toNat % 2 ^ 32) else x)
        (s.setIxt r.1, c.2 ++ [(k, r.2)])
    let (s, fails) := (List.range e.vl).foldl one (s, [])
    .ok (s.writeMask e t d (maskBits s.hart.vec t none d fails))

/-- VIXACC. -/
def execVixacc (d : MName) (a b : VName) (op : IxOp) (s : State) : Result :=
  issue s (.vixacc d a b op) (ixtLegal s fun t => t.groupAt a && t.groupAt b) .vector {} (doVixacc d a b op)

/-- The entries of a table whose unsigned key is at least a bound, by ascending key. -/
def Ixt.above (t : Ixt) (bound : Word) : List RunElem :=
  sortRun (fun x y => decide (x < y)) (((Ixt.entries t).filter fun x => decide (bound.toNat ≤ x.key.toNat)).map fun x =>
    ⟨x.key.toNat, x.value.toNat⟩)

/-- VIXDUMP (R194). -/
def doVixdump (d : VName) (cnt : Fin 8) (e : QEntry) (s : State) : VecRes :=
  wholeVector e s fun t =>
    ixtRead e s t (List.range (ixtSets e.vlen)) fun _ =>
      let xs := (Ixt.above s.hart.ixt e.xa).take e.vl
      let n := xs.length
      let dest := t.runGroup d 3
      let s := (s.dropTags dest).writeRun e t dest (some 3) ((inPlace xs).map (·.2)) n fun _ => true
      let s := s.setTag d.val (outTag false .n64 (some 3) 31 n true)
      .done s [(countX cnt, BitVec.ofNat 64 n)]

/-- VIXDUMP. -/
def execVixdump (d : VName) (a : XReg) (cnt : Fin 8) (s : State) : Result :=
  issueSync s (.vixdump d a cnt)
    (legalUnder s fun t => t.fmt == .n64 && t.groupAt d && (t.runGroup d 3).payOk (t.payloadGroup 3)) { a := some a }
    (doVixdump d cnt)

/-- VIXCLR (R195): the poison of the entries ends with them (R379). -/
def doVixclr (_ : QEntry) (s : State) : VecRes :=
  .ok { s with hart := { s.hart with ixt := [], vec := { s.hart.vec with poisonIxt := [] } } }

/-- VIXCLR. -/
def execVixclr (s : State) : Result := issue s .vixclr (ixtLegal s fun _ => true) .vector {} doVixclr

end Sys2Proof.Machine
end

