-- ==== Sys2Proof/Machine/Lanes.lean ====
section
/-!
DEFINITION. Lane groups (R54, R64, R66, R189, R251, R253, R268 to R270, R350): who holds them, what a change of them does to the
registers, and how they pass from one hart to another.
-/

namespace Sys2Proof.Machine

/-! ## Who holds what (R64) -/

/-- The physical groups that a hart holds, still uses, or is to receive. -/
def Hart.owned (h : Hart) : List Nat := h.groupsInUse ++ h.lanes.receive

/-- The lane groups of a core that are reserved for a head record (R315). -/
def reservedGroups (c : CoreState) : List Nat := c.reclaims.flatMap (·.groups)

/-- The lane groups of a core that harts are to give up for head records (R315). -/
def dueGroups (c : CoreState) : List Nat := c.reclaims.flatMap (·.due)

/-- The hart numbers of a core that run nothing. -/
def State.freeNumbers (s : State) (core : Nat) : List Nat := (List.range 8).filter fun n => !(s.getHart (8 * core + n)).live

/-- Groups in ascending order. -/
def ascending (l : List Nat) : List Nat := (List.range 8).filter l.contains

/-- The lane groups of a core that nothing holds: neither disabled, nor a hart's, nor reserved for a record. -/
def State.freeGroups (s : State) (core : Nat) : List Nat :=
  let c := s.core core
  let harts := s.coreHarts core
  (List.range 8).filter fun g =>
    !(c.disabled.contains g || (reservedGroups c).contains g || harts.any fun p => p.2.owned.contains g)

/-- The HARTS, LGMIN and LGPREF of a record (R244). -/
structure Needs where
  harts : Nat
  lgmin : Nat
  lgpref : Nat
  deriving DecidableEq, Repr

/-- Those of the head record of a queue; zeros where the queue holds no record. -/
def State.headNeeds (s : State) (q : Nat) : Needs :=
  match (s.queue q).records.head? with
  | some r => ⟨getField r.words[2] 16 4, getField r.words[2] 20 4, getField r.words[2] 24 4⟩
  | none => ⟨0, 0, 0⟩

/-- The lane groups of each hart (R313): the largest power of two up to LGPREF for which all harts find enough. -/
def lanesEach (harts pref avail : Nat) : Nat := min pref (floorPow2 (avail / max 1 harts))

/-- The lane groups of a core that are leaving their harts already, for no other hart and no other record. -/
def State.leavingGroups (s : State) (core : Nat) : List Nat :=
  let c := s.core core
  let going := (s.coreHarts core).flatMap fun p => p.2.lanes.lose ++ p.2.lanes.resizes.flatMap (·.groups)
  going.filter fun g => !(c.promised.any fun p => p.1 == g) && !(dueGroups c).contains g

/-- The hart number that receives a lane group reserved for a head record (R361): the harts of the record take the lowest free numbers,
and the groups of R313 each in ascending order, from those that the record will find once every group that is due to it has passed, with the
lowest of those that are leaving their harts, while the record lacks groups; none for a group beyond them (notes/assumptions/25.md). -/
def State.receiverOf (s : State) (core g : Nat) : Option Nat :=
  ((s.core core).reclaims.find? fun r => r.groups.contains g).bind fun r =>
    let n := s.headNeeds r.queue
    let sure := s.freeGroups core ++ r.groups ++ r.due
    let found := ascending (sure ++ (ascending (s.leavingGroups core)).take (n.harts * n.lgmin - sure.length))
    let index := found.idxOf g / max 1 (lanesEach n.harts n.lgpref found.length)
    if index < n.harts then (s.freeNumbers core)[index]? else none

/-- The owner field of a lane group in `slanepart` (R64, R361). -/
def State.ownerOf (s : State) (core g : Nat) : Nat :=
  if (s.core core).disabled.contains g then 0xE
  else match (s.coreHarts core).find? fun p => p.2.owned.contains g with
    | some p => p.1 % 8
    | none => (s.receiverOf core g).getD 0xF

/-- `slanepart` of a core (R64). -/
def State.slanepart (s : State) (core : Nat) : Word :=
  BitVec.ofNat 64 ((List.range 8).foldl (fun n g => n + s.ownerOf core g * 16 ^ g) 0)

/-! ## Registers after a change (R54, R66, R189, R269) -/

/-- A register's bits kept below a number of bits. -/
def keepBits {w : Nat} (n : Nat) (v : BitVec w) : BitVec w := v &&& BitVec.ofNat w (2 ^ n - 1)

/-- The vector file of a hart whose lane groups have become fewer: the low bits of every register, and the tags of R54. -/
def VecFile.shrink (f : VecFile) (old new : Nat) : VecFile :=
  { f with
    v := f.v.map (keepBits (groupBits * new))
    m := f.m.map (keepBits (groupBits * new))
    k := f.k.map (keepBits (4096 * new))
    tag := f.tag.map fun t => t.bind fun r => r.shrink (groupBits * old) (groupBits * new) }

/-- The hart after a change of its lane groups has taken effect: fewer groups keep the low bits, more add zero bits (R66), and the
index table follows, with the poison of its entries (R189, R379). -/
def Hart.resized (h : Hart) (old new : Nat) : Hart :=
  if new = old then h
  else
    let (ixt, moves) := Ixt.resize h.ixt (256 * new)
    { h with vec := (if new < old then h.vec.shrink old new else h.vec).movePoison h.ixt (256 * new) moves, ixt := ixt }

/-- Work of the hart from before a place in program order is not complete. -/
def Hart.workBefore (h : Hart) (place : Nat) : Bool :=
  h.vwork.any (fun e => decide (e.seq < place)) || h.mq.any (fun e => decide (e.seq < place)) || !h.resume.isEmpty ||
    (match h.round with
      | some r => decide (r.seq < place)
      | none => false)

/-! ## Groups that pass (R251, R253, R269, R315) -/

/-- The lane groups that the head record of a queue needs: HARTS × LGMIN (R312); 0 where the queue holds no record. -/
def State.neededBy (s : State) (q : Nat) : Nat := (s.headNeeds q).harts * (s.headNeeds q).lgmin

/-- A group that its reclaim has freed passes to the record of that reclaim. -/
def Reclaim.pass (g : Nat) (r : Reclaim) : Reclaim :=
  if r.due.contains g then { r with due := r.due.filter (· != g), groups := r.groups ++ [g] } else r

/-- A lane group that has become free on a core for another reason, as reclaims take it: the first whose record still lacks groups,
`free` being free already, and those that are due to it not having passed yet (R315). -/
def takeGroup (need : Nat → Nat) (free g : Nat) : List Reclaim → List Reclaim
  | [] => []
  | r :: rest =>
    if r.groups.length + free < need r.queue then { r with groups := r.groups ++ [g] } :: rest
    else r :: takeGroup need free g rest

/-- The state after a lane group of a core has left a hart: one that a reclaim frees goes to its record; one that a partition promises
to its new owner, to be received at its next grant; any other to a record that lacks groups; otherwise it is free. `rest` are the groups that
pass after it. -/
def State.passGroup (s : State) (core : Nat) (rest : List Nat) (g : Nat) : State :=
  let c := s.core core
  if (dueGroups c).contains g then s.setCore core { c with reclaims := c.reclaims.map (Reclaim.pass g) }
  else match c.promised.find? fun p => p.1 == g with
    | some (_, id) =>
      let s := s.setCore core { c with promised := c.promised.filter fun p => p.1 != g }
      let h := s.getHart id
      if h.live then s.setHart id { h with lanes := { h.lanes with receive := h.lanes.receive ++ [g] } } else s
    | none => s.setCore core { c with reclaims := takeGroup s.neededBy ((s.freeGroups core).filter fun o => !(g :: rest).contains o).length g c.reclaims }

/-- The state after lane groups of a core have left a hart. -/
def State.passGroups (s : State) (core : Nat) : List Nat → State
  | [] => s
  | g :: rest => (s.passGroup core rest g).passGroups core rest

/-- The state after the oldest change of a hart's lane groups has taken effect. -/
def State.settleResize (s : State) (id : Nat) : State :=
  let h := s.getHart id
  match h.lanes.resizes with
  | [] => s
  | r :: rest =>
    let h := { h.resized r.old r.new with lanes := { h.lanes with resizes := rest } }
    (s.setHart id h).passGroups (coreOf id) r.groups

/-- A change of a hart's lane groups can take effect now. -/
def Hart.resizeReady (h : Hart) : Bool :=
  match h.lanes.resizes with
  | [] => false
  | r :: _ => !h.workBefore r.place

/-- The changes of a hart's lane groups that can take effect, one after another. -/
def State.settleResizes (s : State) (id : Nat) : Nat → State
  | 0 => s
  | n + 1 => if (s.getHart id).resizeReady then (s.settleResize id).settleResizes id n else s

/-! ## Lane changes at a grant (R222, R269, R270) -/

/-- The hart with its lane groups changed from now on: the registers follow when the older work has completed. -/
def Hart.regroup (h : Hart) (held : List Nat) (gone : List Nat) : Hart :=
  let h' := { h with lanes := { h.lanes with held := held } }
  if h'.nlg = h.nlg ∧ gone = [] then h'
  else { h' with lanes := { h'.lanes with resizes := h.lanes.resizes ++ [⟨h.seq, h.nlg, h'.nlg, gone⟩] } }

/-- The groups that doubling takes for a hart: as often as enough are free and LGPREF is not exceeded (R270). -/
def grown (pref : Nat) : Nat → List Nat → List Nat → List Nat
  | 0, held, _ => held
  | n + 1, held, free =>
    let need := 2 * floorPow2 held.length - held.length
    if held ≠ [] ∧ 2 * floorPow2 held.length ≤ pref ∧ need ≤ free.length then grown pref n (held ++ free.take need) (free.drop need)
    else held

/-- STEP 1 of a grant (R222): the lane changes pending for the selected hart and its growth, as one change: it gives up groups, receives
those that have passed to it, and doubles while enough groups are free (R270). Nothing while the hart holds an image or resume groups.
Where LANEPART takes every group of a hart and those that it gets instead are still in use, the hart holds none until they have passed: its
registers, tags and index table are empty from then on (DESIGN CHOICE, notes/assumptions/25.md: R62 names 1, 2, 4 and 8 groups alone). -/
def State.applyLanes (s : State) : State :=
  let h := s.hart
  if h.held || !h.resume.isEmpty then s
  else
    let gone := h.lanes.held.filter h.lanes.lose.contains
    let kept := ascending (h.lanes.held.filter (fun g => !h.lanes.lose.contains g) ++ h.lanes.receive)
    let held := ascending (grown h.facts.lgpref 3 kept (s.freeGroups (coreOf s.hartId)))
    { s with hart := { h with lanes := { h.lanes with lose := [], receive := [] } }.regroup held gone }.settleResizes s.hartId 8

/-- PBG: the lane groups that the allocator lets the selected hart power at this grant (R268). -/
def State.pbg (s : State) : Nat :=
  let all := ((s.coreHarts (coreOf s.hartId)).map fun p => p.2.nlg).sum
  let n := s.hart.nlg
  floorPow2 (max 1 (min n ((s.core (coreOf s.hartId)).budget * n / max 1 all)))

/-! ## LANEPART (R251) -/

/-- The owner field of a group in a partition value. -/
def partField (w : Word) (g : Nat) : Nat := getField w (4 * g) 4

/-- The groups that a partition value gives to a hart number. -/
def partOf (w : Word) (n : Nat) : List Nat := (List.range 8).filter fun g => partField w g == n

/-- A partition value that the core accepts (R251). -/
def State.partLegal (s : State) (core : Nat) (w : Word) : Bool :=
  let disabled := (s.core core).disabled
  let running := (s.coreHarts core).map fun p => p.1 % 8
  decide (w.toNat < 2 ^ 32) &&
  (List.range 8).all (fun g =>
    let f := partField w g
    if disabled.contains g then f == 0xE else f == 0xF || (decide (f < 8) && running.contains f)) &&
  running.all fun n => [1, 2, 4, 8].contains (partOf w n).length

/-- The state with one hart given its groups of a partition: what it holds beyond them, and what it is to give up for a head record, it
loses at its next grant; it receives then what nothing holds, and later what another hart uses or a head record has reserved. -/
def State.partHart (s : State) (core : Nat) (w : Word) (n : Nat) : State :=
  let id := 8 * core + n
  let h := s.getHart id
  let mine := partOf w n
  let others := (s.coreHarts core).filter fun p => p.1 != id
  let leaving := h.lanes.resizes.flatMap (·.groups)
  let c := s.core core
  let due := h.lanes.lose.filter (dueGroups c).contains
  let used (g : Nat) : Bool :=
    leaving.contains g || due.contains g || (reservedGroups c).contains g || others.any fun p => p.2.groupsInUse.contains g
  let missing := mine.filter fun g => !h.lanes.held.contains g || due.contains g
  let s := s.setCore core { c with promised := c.promised ++ (missing.filter used).map fun g => (g, id) }
  s.setHart id { h with lanes := { h.lanes with
    lose := h.lanes.held.filter fun g => !mine.contains g || due.contains g
    receive := missing.filter fun g => !used g } }

/-- The state with a lane partition requested: the allocator makes its later changes from it. What is reclaimed on the core stays
reserved until its record is dispatched or discarded (R315). -/
def State.partition (s : State) (core : Nat) (w : Word) : State :=
  let s := s.setCore core { s.core core with promised := [] }
  ((s.coreHarts core).map fun p => p.1 % 8).foldl (fun s n => s.partHart core w n) s

/-- LANEPART: privileged; a value that is not a legal partition is an illegal instruction. -/
def execLanepart (a : XReg) (s : State) : Result :=
  if s.hart.mode = .u || !s.partLegal (coreOf s.hartId) (s.x a) then .next (s.illegal (.lanepart a))
  else .next (s.partition (coreOf s.hartId) (s.x a)).advance

/-! ## The event -/

/-- LANE_GROUP_PASS: the changes of the selected hart's lane groups whose older work is complete take effect, and the groups given
up pass on (R269). -/
def execLaneGroupPass (s : State) : Result := .next (s.settleResizes s.hartId 8)

end Sys2Proof.Machine
end

