-- ==== Sys2Proof/Machine/Matrix.lean ====
section
/-!
DEFINITION. The matrix array: attachments, the shape word, weight planes, accumulators and the matrix instructions (R196 to R219,
R403).
-/

namespace Sys2Proof.Machine

/-! ## The shape word (R201 to R204) -/

/-- The fields of a shape word. -/
structure Shape where
  m : Nat
  n : Nat
  k : Nat
  af : Fmt
  wf : Fmt
  acck : Nat
  wblm3 : Fin 4
  swapt : Nat
  deriving DecidableEq, Repr

/-- The class of an operand format, the slowest first (R203); none where the array does not take it. -/
def matrixClass (f : Fmt) : Option Nat :=
  match f with
  | .fp64 => some 0
  | .fp32 => some 1
  | .e8m10 => some 2
  | .fp16 | .e8m7 | .i16 | .n16 => some 3
  | .e5m2 | .e4m3 | .mxe5m2 | .mxe4m3 | .mxi8 | .i8 | .n8 => some 4
  | .e3m2 | .e2m3 | .e2m1 | .mxe3m2 | .mxe2m3 | .mxe2m1 | .i4 | .n4 | .bxi4 => some 5
  | .i2 | .n2 | .bxi2 | .l6 | .l6b => some 6
  | _ => none

/-- The class of a pair: the slower one. -/
def pairClass (af wf : Fmt) : Nat := min ((matrixClass af).getD 0) ((matrixClass wf).getD 0)

/-- The group size G of a class (R203). -/
def groupSize (c : Nat) : Nat := if c < 3 then 1 else if c = 3 then 4 else 16

/-- An l6 or l6b format. -/
def isL6 (f : Fmt) : Bool := f == .l6 || f == .l6b

/-- A floating or scaled format of codes 1 to 15, 26 and 27 (R204). -/
def isMatrixFloat (f : Fmt) : Bool := (decide (1 ≤ f.code) && decide (f.code ≤ 15)) || f == .bxi4 || f == .bxi2

/-- An unscaled integer format of codes 18 to 25. -/
def isMatrixInt (f : Fmt) : Bool := decide (18 ≤ f.code) && decide (f.code ≤ 25)

/-- The accumulator kind of a pair under ACCK, or none where R204 does not allow it. -/
def accKind (af wf : Fmt) (acck : Nat) : Option AccKind :=
  if af = .fp64 ∧ wf = .fp64 then (if acck = 0 ∨ acck = 3 then some .fp64 else none)
  else if isL6 af && isL6 wf then (if acck ≤ 1 then some .fp32 else none)
  else if isMatrixInt af && isMatrixInt wf then (if acck = 0 ∨ acck = 2 then some .i32 else none)
  else if isMatrixFloat af && isMatrixFloat wf then
    (if acck ≤ 1 then some .fp32 else if acck = 3 ∧ pairClass af wf ≤ 2 then some .fp64 else none)
  else none

/-- The bits of a shape word that must be 0, without BAD. -/
def shapeReserved : Word := 0x7F00CCC0C0808080#64

/-- The shape that a word holds; none for an illegal word (R202). -/
def shapeOf (w : Word) : Option Shape :=
  if w.getLsbD 63 || w &&& shapeReserved != 0#64 then none
  else
    match Fmt.ofCode (getField w 24 6), Fmt.ofCode (getField w 32 6) with
    | some af, some wf =>
      let n := getField w 8 7 + 1
      let kind := accKind af wf (getField w 40 2)
      if 128 < getField w 48 8 ∨ kind = none ∨ (kind = some .fp64 ∧ 64 < n) then none
      else some ⟨getField w 0 7 + 1, n, getField w 16 7 + 1, af, wf, getField w 40 2, Fin.ofNat 4 (getField w 44 2),
        getField w 48 8⟩
    | _, _ => none

/-- What `mshape` holds after a word is written: BAD alone for an illegal word (R201, R202); BAD itself is not written. -/
def shapeWord (w : Word) : Word :=
  let w := putField w 63 1 0
  if (shapeOf w).isSome then w else putField 0#64 63 1 1

/-! ## Planes and tiles (R197, R403) -/

/-- A plane of zero elements and scales of 1.0 that records a format. -/
def Plane.fresh (wf : Fmt) (wblm3 : Fin 4) : Plane := ⟨wf, wblm3, [], []⟩

/-- The raw element of a plane. -/
def Plane.cell (p : Plane) (k j : Nat) : Nat := (Store.get 0#64 p.cells (128 * k + j)).toNat

/-- The scale of an element of a plane. -/
def Plane.scale (p : Plane) (k j : Nat) : Byte := Store.get 127#8 p.scales (128 * k + j)

/-- The plane with an element and its scale written. -/
def Plane.write (p : Plane) (k j x : Nat) (s : Byte) : Plane :=
  { p with cells := Store.put 0#64 p.cells (128 * k + j) (BitVec.ofNat 64 x)
           scales := Store.put 127#8 p.scales (128 * k + j) s }

/-- A tile after MATT or MZERO. -/
def Tile.fresh : Tile := ⟨none, []⟩

/-- The raw element of a tile. -/
def Tile.cell (t : Tile) (i j : Nat) : Nat := (Store.get 0#64 t.cells (128 * i + j)).toNat

/-- The tile with an element written. -/
def Tile.write (t : Tile) (i j x : Nat) : Tile := { t with cells := Store.put 0#64 t.cells (128 * i + j) (BitVec.ofNat 64 x) }

/-! ## Arithmetic (R41, R204) -/

/-- A number rounded to nearest in a format, with its flags. -/
def nearestIn (f : Fmt) (x : Num) : Nat × Flags := f.layout.round RoundCtx.nearest x

/-- The product of two operands with their scales, and its flags (R204). -/
def matrixProduct (af wf : Fmt) (x : Nat × Byte) (w : Nat × Byte) : Num × Flags :=
  if isL6 af then
    match scaleExp x.2, scaleExp w.2 with
    | some a, some b => ((Num.ofInt (l6Product x.1 w.1)).scale (a + b - 23), 0#5)
    | _, _ => (.nan false, 0#5)
  else
    let a := af.value x.1 x.2
    let b := wf.value w.1 w.2
    let p := a.mul b
    (p.1, signalling [a, b] ||| p.2)

/-- The exact sum of products (R41). In a sum with a NaN, NV of infinity minus infinity is raised where the two infinities meet before the
NaN in K order (notes/assumptions/40.md). -/
def exactSum : List (Num × Flags) → Num × Flags
  | [] => (Num.zero false, 0#5)
  | p :: ps => ps.foldl (fun t q => ((t.1.add .rne q.1).1, t.2 ||| q.2 ||| (t.1.add .rne q.1).2)) p

/-- A group sum added to a floating accumulator: the sum is rounded once, then added (R41). -/
def addGroup (f : Fmt) (acc : Nat) (products : List (Num × Flags)) : Nat × Flags :=
  let t := exactSum products
  let g := nearestIn f t.1
  let r := f.fadd RoundCtx.nearest acc g.1
  (r.1, t.2 ||| g.2 ||| r.2)

/-- A group sum of integers added to an i32 accumulator, which clamps (R41). -/
def addGroupInt (acc : Nat) (products : List Int) : Nat := Fmt.i32.putInt true (Fmt.i32.toInt acc + products.sum)

/-- A list cut into groups of `g`, over at most `n` of them. -/
def groupsOf {α : Type} (g : Nat) : Nat → List α → List (List α)
  | 0, _ => []
  | n + 1, xs => if xs.isEmpty then [] else xs.take g :: groupsOf g n (xs.drop g)

/-- The float format of an accumulator kind. -/
def AccKind.fmt : AccKind → Fmt
  | .fp64 => .fp64
  | _ => .fp32

/-- The columns of a tile of a kind (R204). -/
def AccKind.columns : AccKind → Nat
  | .fp64 => 64
  | _ => 128

/-- One element of the accumulation: the operands along K are paired, and each group is added in turn (R210). -/
def accumulate (kind : AccKind) (af wf : Fmt) (acc : Nat) (xs ws : List (Nat × Byte)) : Nat × Flags :=
  let groups := groupsOf (groupSize (pairClass af wf)) xs.length (xs.zip ws)
  match kind with
  | .i32 => (groups.foldl (fun a g => addGroupInt a (g.map fun p => af.toInt p.1.1 * wf.toInt p.2.1)) acc, 0#5)
  | kind =>
    groups.foldl (fun a g =>
      let r := addGroup kind.fmt a.1 (g.map fun p => matrixProduct af wf p.1 p.2)
      (r.1, a.2 ||| r.2)) (acc, 0#5)

/-! ## Faults and requirements (R200) -/

/-- A matrix attachment fault of a kind. -/
def matrixFault (s : State) (e : QEntry) (kind : Nat) : VecRes :=
  .fault s { e with start := 0 } ⟨28, kind, 0, 0#64, e.pc, 0, 0, none, none, none, none⟩

/-- Kinds of matrix attachment faults (R338). -/
def kindNone : Nat := 0
/-- State. -/
def kindState : Nat := 1
/-- Shape. -/
def kindShape : Nat := 2
/-- Grant. -/
def kindGrant : Nat := 3
/-- Lost. -/
def kindLost : Nat := 4

/-- The attachment is required (kind none). -/
def attached (e : QEntry) (s : State) (act : Attachment → VecRes) : VecRes :=
  match s.hart.attachment with
  | none => matrixFault s e kindNone
  | some a => act a

/-- The attachment and the shape are required (kinds none and shape). -/
def shaped (e : QEntry) (s : State) (act : Attachment → Shape → VecRes) : VecRes :=
  attached e s fun a =>
    match shapeOf s.hart.mshape with
    | none => matrixFault s e kindShape
    | some sh => act a sh

/-- The state with the attachment of the selected hart at a value. -/
def State.setAttachment (s : State) (a : Option Attachment) : State := { s with hart := { s.hart with attachment := a } }

/-! ## Attachment (R197 to R199) -/

/-- The array quad of a core. -/
def quadOf (core : Nat) : Nat := core / 4

/-- The K-rows of the selected hart's quad that no attachment holds. -/
def State.freeRows (s : State) : Nat :=
  128 - ((s.allHarts.filter fun p => quadOf (coreOf p.1) == quadOf (coreOf s.hartId)).map fun p =>
    (p.2.attachment.map (·.rows)).getD 0).sum

/-- Another hart of the selected hart's core owns an attachment. -/
def State.coreAttached (s : State) : Bool :=
  s.allHarts.any fun p => coreOf p.1 == coreOf s.hartId && p.1 != s.hartId && p.2.attachment.isSome

/-- A new attachment (R197, R403): its planes record the WF and WB of the current shape. -/
def Attachment.fresh (rows : Nat) (w : Word) : Attachment :=
  let (wf, wb) : Fmt × Fin 4 := match shapeOf w with
    | some sh => (sh.wf, sh.wblm3)
    | none => (.fp64, 0)
  ⟨rows, false, Plane.fresh wf wb, Plane.fresh wf wb, Vector.replicate 4 Tile.fresh⟩

/-- MATT (R197). -/
def doMatt (rows : Fin 32) (e : QEntry) (s : State) : VecRes :=
  if s.hart.attachment.isSome then matrixFault s e kindState
  else
    let n := if s.coreAttached then 0 else min (16 * rows.val) s.freeRows
    .ok (if n = 0 then s else s.setAttachment (some (Attachment.fresh n s.hart.mshape)))

/-- MATT. -/
def execMatt (rows : Fin 32) (s : State) : Result := issue s (.matt rows) true .matrix {} (doMatt rows)

/-- MDET (R199). -/
def doMdet (_ : QEntry) (s : State) : VecRes := .ok (s.setAttachment none)

/-- MDET. -/
def execMdet (s : State) : Result := issue s .mdet true .matrix {} doMdet

/-- MSHAPE (R201). -/
def doMshape (e : QEntry) (s : State) : VecRes := .ok { s with hart := { s.hart with mshape := shapeWord e.xa } }

/-- MSHAPE. -/
def execMshape (a : XReg) (s : State) : Result := issue s (.mshape a) true .matrix { a := some a } doMshape

/-! ## Loading weights (R205 to R209) -/

/-- The rows and the row length of a tile in memory: with `.t` a memory row runs along K. -/
def tileRows (sh : Shape) (tr : Bool) : Nat × Nat := if tr then (sh.n, sh.k) else (sh.k, sh.n)

/-- The place in the plane of element `i` of memory row `r`. -/
def tilePlace (tr : Bool) (r i : Nat) : Nat × Nat := if tr then (i, r) else (r, i)

/-- The scale that goes with W[k][j] (R206). -/
def weightScale (f : VecFile) (d : KName) (sh : Shape) (k j : Nat) : Byte :=
  if sh.wf.scaled then
    let wb := 2 ^ (sh.wblm3.val + 3)
    f.scaleByte d (j * ((sh.k + wb - 1) / wb) + k / wb)
  else 127#8

/-- The scales of the tile do not fit the scale register (R206). -/
def scalesTooMany (sh : Shape) (vlen : Nat) : Bool :=
  let wb := 2 ^ (sh.wblm3.val + 3)
  sh.wf.scaled && decide (vlen / 64 < sh.n * ((sh.k + wb - 1) / wb))

/-- The shadow plane as a load begins: cleared where it records another format or scale block (R403). -/
def Attachment.prepare (a : Attachment) (sh : Shape) : Attachment :=
  if a.shadow.wf = sh.wf ∧ a.shadow.wblm3 = sh.wblm3 then a else { a with shadow := Plane.fresh sh.wf sh.wblm3 }

/-- The state with a memory row in the shadow plane. -/
def State.loadRow (s : State) (d : KName) (sh : Shape) (tr : Bool) (r : Nat) (xs : List Nat) : State :=
  let f := s.hart.vec
  s.setAttachment (s.hart.attachment.map fun a =>
    { a with shadow := xs.zipIdx.foldl (fun p x =>
        let (k, j) := tilePlace tr r x.2
        p.write k j x.1 (weightScale f d sh k j)) a.shadow })

/-- The 16-byte granules of a memory row, read once each: `n` of them from an address, as one number (R207). -/
def readGranules (s : State) (e : QEntry) : Nat → Word → Elem
  | 0, _ => .ok 0 s
  | n + 1, va =>
    match elemLoad s s.agent (s.entrySpace e) va 16 16 true .plain with
    | .ok lo s =>
      match readGranules s e n (va + 16#64) with
      | .ok hi s => .ok (lo + 2 ^ 128 * hi) s
      | other => other
    | other => other

/-- The elements of a memory row: packed from its first bit on (R17). -/
def rowElems (f : Fmt) (n raw : Nat) : List Nat := (List.range n).map fun i => raw / 2 ^ (i * f.packed) % 2 ^ f.packed

/-- The address at which reading a row of `n` granules stops. -/
def faultAddr (s : State) (e : QEntry) : Nat → Word → Word
  | 0, va => va
  | n + 1, va =>
    match elemLoad s s.agent (s.entrySpace e) va 16 16 true .plain with
    | .ok _ s => faultAddr s e n (va + 16#64)
    | _ => va

/-- The memory rows of an MLDS from row `r` on, `n` of them (R207). -/
def loadRows (d : KName) (a : XReg) (sh : Shape) (tr : Bool) (e : QEntry) : Nat → Nat → State → VecRes
  | 0, _, s => .ok s
  | n + 1, r, s =>
    let len := (tileRows sh tr).2
    let va := e.xa + BitVec.ofNat 64 r * e.xb
    let granules := (len * sh.wf.packed + 127) / 128
    match readGranules s e granules va with
    | .ok raw s => loadRows d a sh tr e n (r + 1) (s.loadRow d sh tr r (rowElems sh.wf len raw))
    | .fault cause kind line =>
      .fault s { e with start := r }
        ⟨cause, kind, 0, if kind < 3 then faultAddr s e granules va else 0#64, e.pc, r, 0, none, some (4, a.val), line, none⟩
    | .wait g => .wait s { e with start := r } g
    | .pcie pa => .pcie pa

/-- MLDS (R205 to R207). Where WF or WB differs from what the shadow plane records, the plane is cleared before row 0 is read, and stays so
where that row faults; a tile that is not aligned faults before the plane is cleared (DESIGN CHOICE, notes/assumptions/45.md: R403 clears first,
and R207 says that rows at or above a faulting row are unchanged). -/
def doMlds (d : KName) (a : XReg) (tr : Bool) (e : QEntry) (s : State) : VecRes :=
  shaped e s fun att sh =>
    if att.rows < sh.k then matrixFault s e kindGrant
    else if scalesTooMany sh e.vlen then matrixFault s e kindShape
    else if e.xa.toNat % 16 ≠ 0 ∨ e.xb.toNat % 16 ≠ 0 then
      .fault s { e with start := 0 } ⟨24, kindMisaligned, 0, e.xa, e.pc, 0, 0, none, some (4, a.val), none, none⟩
    else
      let rows := (tileRows sh tr).1
      if rows ≤ e.start then .ok s
      else loadRows d a sh tr e (rows - e.start) e.start (s.setAttachment (some (att.prepare sh)))

/-- MLDS. -/
def execMlds (d : KName) (a b : XReg) (t : Bool) (s : State) : Result :=
  issue s (.mlds d a b t) true .rows { a := some a, b := some b } (doMlds d a t)

/-- MLDSV (R208). -/
def doMldsv (d : KName) (a : VName) (tr : Bool) (e : QEntry) (s : State) : VecRes :=
  shaped e s fun att sh =>
    match e.vtype with
    | none => matrixFault s e kindShape
    | some t =>
      let len := 2 ^ t.rlog.val
      let (rows, n) := tileRows sh tr
      if att.rows < sh.k then matrixFault s e kindGrant
      else if scalesTooMany sh e.vlen || !t.sh || t.fmt != sh.wf || decide (len < n) || decide (e.vl / len < rows) then
        matrixFault s e kindShape
      else
        let s := s.setAttachment (some (att.prepare sh))
        .ok ((List.range rows).foldl (fun s r =>
          s.loadRow d sh tr r ((List.range n).map fun i => s.elemOf e t a (r * len + i) % 2 ^ t.fmt.packed)) s)

/-- MLDSV. -/
def execMldsv (d : KName) (a : VName) (t : Bool) (s : State) : Result :=
  issue s (.mldsv d a t) (legalUnder s fun ty => ty.groupAt a) .matrix {} (doMldsv d a t)

/-- MSWAP (R209): older loads have completed, since entries complete in order. -/
def doMswap (e : QEntry) (s : State) : VecRes :=
  attached e s fun a => .ok (s.setAttachment (some { a with active := a.shadow, shadow := a.active, lost := false }))

/-- MSWAP. -/
def execMswap (s : State) : Result := issue s .mswap true .matrix {} doMswap

/-! ## Streaming (R210, R211) -/

/-- The accumulation of MMUL and MMULS under a reading of the activations: A(i, k) is element `act i k` of the group. `formOk` is
the condition on the vector type. -/
def multiply (d : AccName) (a : VName) (b : KName) (e : QEntry) (s : State) (formOk : VType → Shape → Bool)
    (act : VType → Nat → Nat → Nat) : VecRes :=
  shaped e s fun att sh =>
    if att.rows < sh.k then matrixFault s e kindGrant
    else if att.lost then matrixFault s e kindLost
    else
      let tile := att.tiles[d]
      match e.vtype, accKind sh.af att.active.wf sh.acck with
      | some t, some kind =>
        if !formOk t sh || t.fmt != sh.af || tile.kind.any (· != kind) then matrixFault s e kindShape
        else
          let f := s.hart.vec
          let x (i k : Nat) : Nat × Byte :=
            let n := act t i k
            (s.elemOf e t a n % 2 ^ t.fmt.packed, if sh.af.scaled then f.scaleOf b t.bl n else 127#8)
          let w (k j : Nat) : Nat × Byte :=
            (att.active.cell k j, if att.active.wf.scaled then att.active.scale k j else 127#8)
          let ks := List.range sh.k
          let cell (c : Tile × Flags) (i j : Nat) : Tile × Flags :=
            let r := accumulate kind sh.af att.active.wf (c.1.cell i j) (ks.map (x i)) (ks.map fun k => w k j)
            (c.1.write i j r.1, c.2 ||| r.2)
          let (tile, fl) := (List.range sh.m).foldl (fun c i => (List.range sh.n).foldl (fun c j => cell c i j) c)
            ({ tile with kind := some kind }, 0#5)
          .ok ((s.setAttachment (some { att with tiles := att.tiles.set d tile })).accrue fl)
      | _, _ => matrixFault s e kindShape

/-- MMUL (R210). -/
def doMmul (d : AccName) (a : VName) (b : KName) (e : QEntry) (s : State) : VecRes :=
  multiply d a b e s
    (fun t sh => t.sh && decide (sh.k ≤ 2 ^ t.rlog.val) && decide (sh.m ≤ e.vl / 2 ^ t.rlog.val) &&
      (!sh.af.scaled || decide (t.bl ≤ t.rlog.val)))
    fun t i k => i * 2 ^ t.rlog.val + k

/-- MMUL. -/
def execMmul (d : AccName) (a : VName) (b : KName) (s : State) : Result :=
  issue s (.mmul d a b) (legalUnder s fun t => t.groupAt a) .matrix {} (doMmul d a b)

/-- MMULS (R211): the activations slide over a flat vector. -/
def doMmuls (d : AccName) (a : VName) (b : KName) (e : QEntry) (s : State) : VecRes :=
  multiply d a b e s (fun t sh => !t.sh && decide (sh.m + sh.k - 1 ≤ e.vl)) fun _ i k => i + k

/-- MMULS. -/
def execMmuls (d : AccName) (a : VName) (b : KName) (s : State) : Result :=
  issue s (.mmuls d a b) (legalUnder s fun t => t.groupAt a) .matrix {} (doMmuls d a b)

/-! ## Reading out (R213, R214) -/

/-- The columns that a read-out takes and its row length: of the shape under SH = 0, of the tile under SH = 1 (R202, R213). -/
def readout (t : VType) (sh : Option Shape) (tile : Tile) : Option (Nat × Nat) :=
  if t.sh then some ((tile.kind.getD .fp32).columns, 2 ^ t.rlog.val) else sh.map fun s => (s.n, s.n)

/-- The accumulator element that goes with element `e` of the destination, from row `base` on; zero outside the tile. -/
def readAcc (tile : Tile) (cols rl base e : Nat) : Nat :=
  let i := base + e / rl
  let j := e % rl
  if j < cols ∧ i < 128 then tile.cell i j else 0

/-- Conv of R213. -/
def convAcc (kind : AccKind) (f : Fmt) (c : RoundCtx) (x : Nat) : Nat × Flags :=
  match kind with
  | .i32 =>
    if f.isInt then (f.putInt c.sat (Fmt.i32.toInt x), 0#5) else f.layout.round c (Num.ofInt (Fmt.i32.toInt x))
  | kind =>
    let v := kind.fmt.layout.decode x
    if f.isInt then f.deliverInt c v
    else
      let r := f.layout.round c v
      (r.1, signalling [v] ||| r.2)

/-- A read-out of accumulator `a` (kinds none and shape). -/
def readTile (a : AccName) (e : QEntry) (s : State) (act : VType → Tile → Nat → Nat → VecRes) : VecRes :=
  attached e s fun att =>
    match e.vtype with
    | none => .ok s
    | some t =>
      match readout t (shapeOf s.hart.mshape) att.tiles[a] with
      | none => matrixFault s e kindShape
      | some (cols, rl) => act t att.tiles[a] cols rl

/-- MRD (R213). -/
def doMrd (d : VName) (a : AccName) (rm : Rm) (sat : Bool) (e : QEntry) (s : State) : VecRes :=
  readTile a e s fun t tile cols rl =>
    let mode := rm.resolve s.hart.vc.vrm
    let one (s : State) (k : Nat) : State :=
      let r := convAcc (tile.kind.getD .fp32) t.fmt (s.roundCtx mode sat) (readAcc tile cols rl e.xb.toNat k)
      ((s.putElem e t d k r.1).accrue r.2).drawn mode
    .ok (((List.range e.vl).foldl one s).finishDest e t d fun _ => true)

/-- MRD. -/
def execMrd (d : VName) (a : AccName) (b : XReg) (rm : Rm) (sat : Bool) (s : State) : Result :=
  issue s (.mrd d a b rm sat) (legalUnder s fun t => t.groupAt d && (t.fmt.isFS || t.fmt.isInt)) .matrix { b := some b }
    (doMrd d a rm sat)

/-- The exponent emax of a scaled format (R214). -/
def scaledEmax (f : Fmt) : Int :=
  match f with
  | .mxe5m2 => 15
  | .mxe4m3 => 8
  | .mxe3m2 => 4
  | .mxe2m3 | .mxe2m1 | .bxi4 => 2
  | _ => 0

/-- The scale byte of a block of values (R214). -/
def blockScale (f : Fmt) (xs : List Num) : Nat :=
  if xs.any Num.isNaN then 255
  else if xs.any fun x => match x with | .inf _ => true | _ => false then 254
  else
    let tops := xs.filterMap fun x => match x with
      | .fin _ m e => if m = 0 then none else some (leadExp m e)
      | _ => none
    match tops with
    | [] => 0
    | x :: rest => (clampInt 0 254 (rest.foldl max x - scaledEmax f + 127)).toNat

/-- MRDQ (R214). -/
def doMrdq (d : VName) (a : AccName) (k : KName) (e : QEntry) (s : State) : VecRes :=
  readTile a e s fun t tile cols rl =>
    let kind := tile.kind.getD .fp32
    let n := 2 ^ t.bl
    if kind = .i32 ∨ rl % n ≠ 0 then matrixFault s e kindShape
    else
      let mode := Rounding.ofVrm s.hart.vc.vrm
      let value (x : Nat) : Num := kind.fmt.layout.decode (readAcc tile cols rl e.xb.toNat x)
      let blocks := (e.vl + n - 1) / n
      let block (s : State) (β : Nat) : State :=
        let places := (List.range' (β * n) n).filter (· < e.vl)
        let scale := blockScale t.fmt (places.map value)
        let s := s.setVec (s.hart.vec.setScaleByte k β (BitVec.ofNat 8 scale))
        places.foldl (fun s x =>
          if scale = 255 then s.putElem e t d x 0
          else
            let r := t.fmt.deliver (s.roundCtx mode true) (BitVec.ofNat 8 scale) (value x)
            ((s.putElem e t d x r.1).accrue r.2).drawn mode) s
      let s := ((List.range blocks).foldl block s).finishDest e t d fun _ => true
      let f := s.hart.vec
      let f := if t.tp then { f with k := f.k.set k (f.k[k] &&& BitVec.ofNat groupBits (2 ^ (8 * blocks) - 1)) } else f
      .ok (s.setVec (if t.tp || decide (e.vlen / 64 ≤ blocks) then { f with poisonK := f.poisonK &&& ~~~scaleSet k } else f))

/-- MRDQ. -/
def execMrdq (d : VName) (a : AccName) (b : XReg) (k : KName) (s : State) : Result :=
  issue s (.mrdq d a b k) (legalUnder s fun t => t.groupAt d && t.fmt.isSC) .matrix { b := some b } (doMrdq d a k)

/-! ## Clearing and waiting (R215) -/

/-- MZERO. -/
def doMzero (d : AccName) (e : QEntry) (s : State) : VecRes :=
  attached e s fun a => .ok (s.setAttachment (some { a with tiles := a.tiles.set d Tile.fresh }))

/-- MZERO. -/
def execMzero (d : AccName) (s : State) : Result := issue s (.mzero d) true .matrix {} (doMzero d)

/-- What waits for the matrix queue: while its image is held the held fault is taken again (R340); otherwise a synchronising point.
None: the instruction goes on. -/
def matrixPoint (s : State) : Option State :=
  if s.hart.mheld then s.hart.mfault.map s.takeMatrixFault
  else if s.hart.held then
    match s.hart.mfault with
    | some f => some (s.takeMatrixFault f)
    | none => if s.hart.mq.isEmpty then none else some s
  else syncPoint s !s.hart.mq.isEmpty

/-- MWAIT (R215, R255). -/
def execMwait (s : State) : Result :=
  match matrixPoint s with
  | some s => .next s
  | none => .next s.advance

end Sys2Proof.Machine
end

