-- ==== Sys2Proof/Machine/Rv64.lean ====
section
/-!
DEFINITION. The standard control stream (R68, R69; notes/assumptions/5.md): RV64I, M, A, Zicond and the privileged instructions, the
fences (R255, R323, R324) and SRET (R343). CSR instructions are in Machine/Csr.lean.
-/

namespace Sys2Proof.Machine

/-! ## Arithmetic -/

/-- The low 32 bits of a word, sign-extended: the result of the word forms. -/
def sextW (w : Word) : Word := (w.setWidth 32).signExtend 64

/-- A 12-bit immediate as a word. -/
def sext12 (i : BitVec 12) : Word := i.signExtend 64

/-- 1 where a condition holds, else 0. -/
def boolWord (b : Bool) : Word := if b then 1#64 else 0#64

/-- Quotient towards zero of two signed numbers of a width: −1 for a divisor 0 (M). -/
def divS {w : Nat} (a b : BitVec w) : BitVec w := if b = 0#w then -1#w else a.sdiv b

/-- Remainder with the sign of the dividend: the dividend for a divisor 0. -/
def remS {w : Nat} (a b : BitVec w) : BitVec w := if b = 0#w then a else a.srem b

/-- Unsigned quotient: all ones for a divisor 0. -/
def divU {w : Nat} (a b : BitVec w) : BitVec w := if b = 0#w then -1#w else a / b

/-- Unsigned remainder: the dividend for a divisor 0. -/
def remU {w : Nat} (a b : BitVec w) : BitVec w := if b = 0#w then a else a % b

/-- The high 64 bits of a product. -/
def mulHigh (a b : Int) : Word := BitVec.ofInt 64 (a * b / 2 ^ 64)

/-- A register-register operation. -/
def aluValue (op : AluOp) (a b : Word) : Word :=
  let a32 := a.setWidth 32
  let b32 := b.setWidth 32
  let sh := b.toNat % 64
  let sh32 := b.toNat % 32
  match op with
  | .add => a + b
  | .sub => a - b
  | .sll => a <<< sh
  | .slt => boolWord (a.slt b)
  | .sltu => boolWord (a.ult b)
  | .xor => a ^^^ b
  | .srl => a >>> sh
  | .sra => a.sshiftRight sh
  | .or => a ||| b
  | .and => a &&& b
  | .mul => a * b
  | .mulh => mulHigh a.toInt b.toInt
  | .mulhsu => mulHigh a.toInt b.toNat
  | .mulhu => mulHigh a.toNat b.toNat
  | .div => divS a b
  | .divu => divU a b
  | .rem => remS a b
  | .remu => remU a b
  | .addw => sextW (a + b)
  | .subw => sextW (a - b)
  | .sllw => (a32 <<< sh32).signExtend 64
  | .srlw => (a32 >>> sh32).signExtend 64
  | .sraw => (a32.sshiftRight sh32).signExtend 64
  | .mulw => sextW (a * b)
  | .divw => (divS a32 b32).signExtend 64
  | .divuw => (divU a32 b32).signExtend 64
  | .remw => (remS a32 b32).signExtend 64
  | .remuw => (remU a32 b32).signExtend 64
  | .czeroEqz => if b = 0#64 then 0#64 else a
  | .czeroNez => if b = 0#64 then a else 0#64

/-- A register-immediate operation. -/
def immValue (op : ImmOp) (a i : Word) : Word :=
  match op with
  | .addi => a + i
  | .slti => boolWord (a.slt i)
  | .sltiu => boolWord (a.ult i)
  | .xori => a ^^^ i
  | .ori => a ||| i
  | .andi => a &&& i
  | .addiw => sextW (a + i)

/-- A shift by an immediate amount at a width. -/
def shiftValue {w : Nat} (op : ShiftOp) (a : BitVec w) (n : Nat) : BitVec w :=
  match op with
  | .slli => a <<< n
  | .srli => a >>> n
  | .srai => a.sshiftRight n

/-- A branch condition. -/
def branchTaken (c : BrCond) (a b : Word) : Bool :=
  match c with
  | .eq => a == b
  | .ne => a != b
  | .lt => a.slt b
  | .ge => !a.slt b
  | .ltu => a.ult b
  | .geu => !a.ult b

/-! ## Jumps, loads and stores -/

/-- A jump to a target with a link register written: a target that is not a multiple of 4 traps on the jump itself (R69). -/
def jumpTo (s : State) (rd : XReg) (target : Word) : Result :=
  if target.toNat % 4 ≠ 0 ∧ s.hart.app = false then .next (s.takeTrap causeFetchMisaligned target)
  else
    let s' := s.setX rd (s.hart.pc + 4#64)
    .next { s' with hart := s'.hart.goTo target }

/-- The bytes of a load width. -/
def loadBytes : LoadW → Nat
  | .b | .bu => 1
  | .h | .hu => 2
  | .w | .wu => 4
  | .d => 8

/-- The value of a load: sign- or zero-extended. -/
def loadExtend (width : LoadW) (v : Nat) : Word :=
  match width with
  | .b => (BitVec.ofNat 8 v).signExtend 64
  | .h => (BitVec.ofNat 16 v).signExtend 64
  | .w => (BitVec.ofNat 32 v).signExtend 64
  | _ => BitVec.ofNat 64 v

/-- The bytes of a store width. -/
def storeBytes : StoreW → Nat
  | .b => 1
  | .h => 2
  | .w => 4
  | .d => 8

/-- A scalar access completed, or the exception it raises. -/
def finishAccess (s : State) (va : Word) (r : Got) (done : Nat → State → State) : Result :=
  match r with
  | .ok v s => .next (done v s).advance
  | .trap cause => .next (s.accessTrap cause va)
  | .wait => .next s
  | .pcie pa => .refused (.pcieDevice pa)

/-! ## Reservations and AMOs (A) -/

/-- The value of `n` bytes, 4 or 8, as LR and AMOs return it. -/
def amoExtend (n v : Nat) : Word := if n = 4 then (BitVec.ofNat 32 v).signExtend 64 else BitVec.ofNat 64 v

/-- The state with the reservation of the selected hart ended. -/
def State.dropReservation (s : State) : State :=
  { s with reservations := s.reservations.filter fun r => r.1 != s.hartId }

/-- The selected hart holds a reservation on every one of `n` bytes (notes/assumptions/5.md). -/
def State.reserves (s : State) (pa n : Nat) : Bool :=
  s.reservations.any fun r => r.1 == s.hartId && decide (r.2.1 ≤ pa) && decide (pa + n ≤ r.2.1 + r.2.2)

/-- The number that an AMO writes, at its width. -/
def amoValue {w : Nat} (op : AmoOp) (old x : BitVec w) : BitVec w :=
  match op with
  | .swap => x
  | .add => old + x
  | .xor => old ^^^ x
  | .and => old &&& x
  | .or => old ||| x
  | .min => if old.slt x then old else x
  | .max => if old.slt x then x else old
  | .minu => if old.ult x then old else x
  | .maxu => if old.ult x then x else old

/-- LR. -/
def doLr (s : State) (n : Nat) (rd rs1 : XReg) : Result :=
  let va := s.x rs1
  match scalarPlace s va n .load true with
  | .trap cause => .next (s.accessTrap cause va)
  | .wait => .next s
  | .ok pa _ =>
    let s' := s.dropReservation
    .next ({ s' with reservations := s'.reservations ++ [(s.hartId, pa, n)] }.setX rd
      (amoExtend n (Memory.readNum s.memory pa n))).advance

/-- SC: it writes, and answers 0, while the reservation stands. -/
def doSc (s : State) (n : Nat) (rd rs1 rs2 : XReg) : Result :=
  let va := s.x rs1
  match scalarPlace s va n .store false with
  | .trap cause => .next (s.accessTrap cause va)
  | .wait => .next s
  | .ok pa _ =>
    let s' := if s.reserves pa n then s.writeBytes (some s.hartId) pa (byteList n (s.x rs2).toNat) else s
    .next (s'.dropReservation.setX rd (boolWord (!s.reserves pa n))).advance

/-- An AMO. -/
def doAmo (s : State) (op : AmoOp) (n : Nat) (rd rs1 rs2 : XReg) : Result :=
  let va := s.x rs1
  match scalarPlace s va n .store true with
  | .trap cause => .next (s.accessTrap cause va)
  | .wait => .next s
  | .ok pa _ =>
    let old := Memory.readNum s.memory pa n
    let new := (amoValue op (BitVec.ofNat (8 * n) old) (BitVec.ofNat (8 * n) (s.x rs2).toNat)).toNat
    .next ((s.writeBytes (some s.hartId) pa (byteList n new)).setX rd (amoExtend n old)).advance

/-! ## Privileged instructions -/

/-- The cause of an ECALL: 8 from U-mode, 9 from S-mode, 11 from M-mode. -/
def ecallCause (mode : Mode) : Nat := 8 + mode.code

/-- The state after a return from a trap in M-mode: MRET is illegal below it. -/
def doMret (s : State) : Result :=
  if s.hart.mode = .m then .next { s with hart := (s.hart.goTo s.hart.pc).returnM } else .next (s.illegal (.rv64 .mret))

/-- SRET (R343): illegal in U-mode, and in S-mode while TSR is set; the held work resumes, with the copy whose fault the trap delivered,
and the control thread returns. -/
def execSret (s : State) : Result :=
  if s.hart.mode = .u ∨ (s.hart.mode = .s ∧ s.hart.csr.tsr) then .next (s.illegal .sret)
  else
    let h := (s.hart.goTo s.hart.pc).resumeHeld s.cycle
    .next ({ s with hart := h.returnS } : State).resumeCopy

/-! ## Fences -/

/-- A HINT encoding of FENCE, which does nothing (R68). -/
def fenceHint (fm pred succ : BitVec 4) : Bool := fm == 0#4 && (pred == 0#4 || succ == 0#4)

/-- FENCE (R255, R285): it waits for every older entry of the vector queue; scalar accesses are in program order
(notes/assumptions/2.md). -/
def execFence (fm pred succ : BitVec 4) (_ _ : XReg) (s : State) : Result :=
  if fenceHint fm pred succ then .next s.advance
  else match syncPoint s s.hart.vbusy with
    | some s => .next s
    | none => .next s.advance

/-- FENCE.I (R255, R323): the core's translations are dropped, so that later ones read the code as it is. -/
def execFenceI (_ : BitVec 12) (_ _ : XReg) (s : State) : Result :=
  match syncPoint s s.hart.vbusy with
  | some s => .next s
  | none =>
    let c := coreOf s.hartId
    let s := { s with hart := { s.hart with region := none } }
    .next (s.setCore c { s.core c with tc := [] }).advance

/-- A translation that an SFENCE.VMA covers (R324): by the largest page that can hold its address, and by its address space
(notes/assumptions/15.md). -/
def covered (va asid : Option Word) (t : Translation) : Bool :=
  (match va with
    | none => true
    | some va => t.va / 2 ^ 39 == va.toNat / 2 ^ 39) &&
  (match asid with
    | none => true
    | some a => t.space == a.toNat % 2 ^ 16)

/-- SFENCE.VMA (R324): illegal in U-mode, and in S-mode while TVM is set. No translation of data outlives the step that made it
(notes/assumptions/15.md). -/
def execSfenceVma (rs1 rs2 : XReg) (s : State) : Result :=
  if s.hart.mode = .u ∨ (s.hart.mode = .s ∧ s.hart.csr.tvm) then .next (s.illegal (.sfenceVma rs1 rs2))
  else
    let va := if rs1 = 0 then none else some (s.x rs1)
    let asid := if rs2 = 0 then none else some (s.x rs2)
    let c := coreOf s.hartId
    let s := { s with hart := { s.hart with region := none } }
    .next (s.setCore c { s.core c with tc := (s.core c).tc.filter fun t => !covered va asid t }).advance

end Sys2Proof.Machine
end

