-- ==== Sys2Proof/Machine/Csr.lean ====
section
/-!
DEFINITION. CSR instructions (R31, R37, R43, R50, R55, R59 to R65, R68, R198, R201, R335, R336; notes/assumptions/5.md), and the row
RV64_INSTRUCTION.
-/

namespace Sys2Proof.Machine

/-! ## The standard CSRs -/

/-- The bits of `sstatus` in `mstatus`: UXL, MXR, SUM, SPP, SPIE and SIE. -/
def sstatusMask : Word := 0x00000003000C0122#64
/-- The bits of `sstatus` that a write changes. -/
def sstatusWritable : Word := 0x00000000000C0122#64
/-- The bits of `mstatus` that a write changes: TSR, TW, TVM, MXR, SUM, MPRV, MPP, SPP and the interrupt enables. -/
def mstatusWritable : Word := 0x00000000007E19AA#64
/-- The exceptions that can be delegated: the standard ones, and causes 24 to 30 (R333). -/
def medelegWritable : Word := 0x000000007F00B3FF#64
/-- The interrupts that can be delegated: those of S-mode, and 16 and above. -/
def midelegWritable : Word := 0xFFFFFFFFFFFF0222#64
/-- The interrupts that can be enabled. -/
def mieWritable : Word := 0xFFFFFFFFFFFF0AAA#64
/-- The interrupts that software sets and clears in `mip`. -/
def mipWritable : Word := 0x0000000000000222#64
/-- `misa`: RV64 with A, I, M, S, U and the extensions of this manual. -/
def misaWord : Word := 0x8000000000941101#64

/-- A word with the bits of a mask taken from another. -/
def mergeMask (old new mask : Word) : Word := (old &&& ~~~mask) ||| (new &&& mask)

/-- The cycle counter: the package's cycles from an offset, or stopped (notes/assumptions/8.md). -/
def Csrs.cycleNow (c : Csrs) (cycle : Nat) : Word :=
  if c.mcountinhibit.getLsbD 0 then c.mcycle else c.mcycle + BitVec.ofNat 64 cycle

/-- The CSRs with the cycle counter at a value. -/
def Csrs.setCycle (c : Csrs) (cycle : Nat) (v : Word) : Csrs :=
  { c with mcycle := if c.mcountinhibit.getLsbD 0 then v else v - BitVec.ofNat 64 cycle }

/-- A counter is open to the mode that reads it. -/
def Hart.counterOpen (h : Hart) (i : Nat) : Bool :=
  match h.mode with
  | .m => true
  | .s => h.csr.mcounteren.getLsbD i
  | .u => h.csr.mcounteren.getLsbD i && h.csr.scounteren.getLsbD i

/-- The value of a user-mode counter CSR; none where it is closed. -/
def readCounter (s : State) (i : Nat) : Option Word :=
  if s.hart.counterOpen i then
    some (match i with
      | 0 => s.hart.csr.cycleNow s.cycle
      | 1 => BitVec.ofNat 64 s.cycle
      | 2 => s.hart.csr.minstret
      | _ => 0#64)
  else none

/-- The value of a supervisor CSR; none where there is no such CSR. -/
def readSupervisor (s : State) (addr : Nat) : Option Word :=
  let c := s.hart.csr
  match addr with
  | 0x100 => some (c.mstatus &&& sstatusMask)
  | 0x104 => some (c.mie &&& c.mideleg)
  | 0x105 => some c.stvec
  | 0x106 => some c.scounteren
  | 0x10A => some c.senvcfg
  | 0x140 => some c.sscratch
  | 0x141 => some c.sepc
  | 0x142 => some c.scause
  | 0x143 => some c.stval
  | 0x144 => some (c.mip &&& c.mideleg)
  | 0x180 => if s.hart.mode = .s ∧ c.tvm then none else some c.satp
  | _ => none

/-- The value of a supervisor CSR of the B7 (R61, R64, R65, R335, R336). -/
def readB7Supervisor (s : State) (addr : Nat) : Option Word :=
  let c := s.hart.csr
  let core := s.core (coreOf s.hartId)
  if s.hart.app then none
  else match addr with
    | 0x5C0 => some (s.slanepart (coreOf s.hartId))
    | 0x5C1 => some c.svtrap0
    | 0x5C2 => some c.svtrap1
    | 0x5C3 => some c.svtrap2
    | 0x5C4 => some c.svtrap3
    | 0x5C5 => some c.sctxbase
    | 0x5C6 => some (c.swindow.setWidth 64)
    | 0x5C7 => some (BitVec.ofNat 64 (core.limited.toNat * 16 + core.budget))
    | _ => none

/-- The value of a machine CSR. No region is protected and no event is counted: those CSRs read 0, and the odd `pmpcfg` do not exist
at 64 bits (notes/assumptions/5.md, 22.md). -/
def readMachine (s : State) (addr : Nat) : Option Word :=
  let c := s.hart.csr
  match addr with
  | 0x300 => some c.mstatus
  | 0x301 => some misaWord
  | 0x302 => some c.medeleg
  | 0x303 => some c.mideleg
  | 0x304 => some c.mie
  | 0x305 => some c.mtvec
  | 0x306 => some c.mcounteren
  | 0x30A => some (putField c.menvcfg 62 1 1)
  | 0x320 => some c.mcountinhibit
  | 0x340 => some c.mscratch
  | 0x341 => some c.mepc
  | 0x342 => some c.mcause
  | 0x343 => some c.mtval
  | 0x344 => some c.mip
  | 0xB00 => some (c.cycleNow s.cycle)
  | 0xB02 => some c.minstret
  | 0xF14 => some (BitVec.ofNat 64 s.hartId)
  | _ =>
    let zero := decide (0x323 ≤ addr ∧ addr ≤ 0x33F) || decide (0x3A0 ≤ addr ∧ addr < 0x3B0 ∧ addr % 2 = 0)
      || decide (0x3B0 ≤ addr ∧ addr ≤ 0x3EF) || decide (0xB03 ≤ addr ∧ addr ≤ 0xB1F)
      || [0xF11, 0xF12, 0xF13, 0xF15].contains addr
    if zero then some 0#64 else none

/-- The value of a CSR that is not a vector CSR; none where the access is illegal. -/
def readCsr (s : State) (a : BitVec 12) : Option Word :=
  let addr := a.toNat
  if 0xC00 ≤ addr ∧ addr ≤ 0xC1F then readCounter s (addr - 0xC00)
  else if 0x5C0 ≤ addr ∧ addr ≤ 0x5C7 then readB7Supervisor s addr
  else if addr / 256 % 4 = 1 then readSupervisor s addr
  else if addr / 256 % 4 = 3 then readMachine s addr
  else none

/-- `mstatus` written: the reserved MPP keeps the old one. -/
def Csrs.writeStatus (c : Csrs) (w : Word) : Csrs :=
  let w := if getField w 11 2 = 2 then putField w 11 2 (getField c.mstatus 11 2) else w
  { c with mstatus := mergeMask c.mstatus w mstatusWritable }

/-- A vector base written: the reserved modes are not held. -/
def tvecOf (w : Word) : Word := w &&& ~~~2#64

/-- A saved pc written: IALIGN is 32 on a hart (R69), and 16 on an application core, which has compressed instructions (R1). -/
def epcOf (app : Bool) (w : Word) : Word := if app then w &&& ~~~1#64 else (w >>> 2) <<< 2

/-- `satp` written: a write of a mode other than Bare, Sv39 and Sv48 has no effect. -/
def Csrs.writeSatp (c : Csrs) (w : Word) : Csrs :=
  if [0, 8, 9].contains (getField w 60 4) then { c with satp := w } else c

/-- The standard CSRs of a hart or an application core after a write. A CSR that holds no bits that can be written ignores it. -/
def Csrs.write (c : Csrs) (app : Bool) (cycle addr : Nat) (w : Word) : Csrs :=
  match addr with
  | 0x100 => { c with mstatus := mergeMask c.mstatus w sstatusWritable }
  | 0x104 => { c with mie := mergeMask c.mie w (c.mideleg &&& mieWritable) }
  | 0x105 => { c with stvec := tvecOf w }
  | 0x106 => { c with scounteren := w &&& 0xFFFFFFFF#64 }
  | 0x10A => { c with senvcfg := w &&& 1#64 }
  | 0x140 => { c with sscratch := w }
  | 0x141 => { c with sepc := epcOf app w }
  | 0x142 => { c with scause := w }
  | 0x143 => { c with stval := w }
  | 0x144 => { c with mip := mergeMask c.mip w (c.mideleg &&& 2#64) }
  | 0x180 => c.writeSatp w
  | 0x300 => c.writeStatus w
  | 0x302 => { c with medeleg := w &&& medelegWritable }
  | 0x303 => { c with mideleg := w &&& midelegWritable }
  | 0x304 => { c with mie := w &&& mieWritable }
  | 0x305 => { c with mtvec := tvecOf w }
  | 0x306 => { c with mcounteren := w &&& 0xFFFFFFFF#64 }
  | 0x30A => { c with menvcfg := w &&& 1#64 }
  | 0x320 => ({ c with mcountinhibit := w &&& 0xFFFFFFFD#64 }).setCycle cycle (c.cycleNow cycle)
  | 0x340 => { c with mscratch := w }
  | 0x341 => { c with mepc := epcOf app w }
  | 0x342 => { c with mcause := w }
  | 0x343 => { c with mtval := w }
  | 0x344 => { c with mip := mergeMask c.mip w mipWritable }
  | 0xB00 => c.setCycle cycle w
  | 0xB02 => { c with minstret := if c.mcountinhibit.getLsbD 2 then w else w - 1#64 }
  | _ => c

/-- The B7's supervisor CSRs after a write: `slanepart` and `spowerbudget` ignore it (R64, R65). -/
def Csrs.writeB7 (c : Csrs) (addr : Nat) (w : Word) : Csrs :=
  match addr with
  | 0x5C1 => { c with svtrap0 := w &&& 0x80FFFF803FFF8000#64 }
  | 0x5C2 => { c with svtrap1 := w }
  | 0x5C3 => { c with svtrap2 := w &&& 0xFF80000FFFFFFFFF#64 }
  | 0x5C4 => { c with svtrap3 := w &&& 0xF03F#64 }
  | 0x5C5 => { c with sctxbase := (w >>> 12) <<< 12 }
  | 0x5C6 => { c with swindow := w.extractLsb' 0 5 }
  | _ => c

/-! ## CSR instructions (Zicsr) -/

/-- The value of the source operand. -/
def csrSource (h : Hart) : CsrSrc → Word
  | .reg r => h.getX r
  | .imm z => z.setWidth 64

/-- What a CSR instruction writes over an old value. -/
def csrNew (op : CsrOp) (old src : Word) : Word :=
  match op with
  | .rw => src
  | .rs => old ||| src
  | .rc => old &&& ~~~src

/-- The mode may access the CSR, and writes it only where it is not read-only (the privileged architecture, R60). -/
def csrAllowed (h : Hart) (addr : BitVec 12) (writes : Bool) : Bool :=
  decide (addr.toNat / 256 % 4 ≤ h.mode.code) && !(writes && addr.toNat / 1024 == 3)

/-- A CSR instruction of a CSR that holds `old`: the old value goes into the register, and `write` changes the hart. -/
def finishCsr (s : State) (op : CsrOp) (rd : XReg) (src : CsrSrc) (writes : Bool) (old : Word) (write : Word → Hart → Hart) : Result :=
  let new := csrNew op old (csrSource s.hart src)
  let h := if writes then write new s.hart else s.hart
  .next { s with hart := h.setX rd old }.advance

/-- A CSR of RVA23 that no CSR of this manual is: of F, V, the hypervisor and the others that an application core has beside the standard ones
(R1, R70). -/
def otherCsr (addr : Nat) : Bool :=
  !(addr == 0x180 || (decide (0xC00 ≤ addr) && decide (addr ≤ 0xC1F)) || (decide (0x5C0 ≤ addr) && decide (addr ≤ 0x5C7)))

/-- A CSR instruction that has no CSR to access: illegal; on an application core, which has the CSRs of RVA23, a refusal. -/
def State.noCsr (s : State) (addr : BitVec 12) (i : Instr) : Result :=
  if s.hart.app && otherCsr addr.toNat then .refused (.applicationCore ((encodeControl i).getD 0#32)) else .next (s.illegal i)

/-- A CSR instruction of a standard CSR, or one that only reads a supervisor CSR of the B7. -/
def doCsr (op : CsrOp) (rd : XReg) (src : CsrSrc) (addr : BitVec 12) (writes : Bool) (i : Instr) (s : State) : Result :=
  if !csrAllowed s.hart addr writes then
    -- the CSRs of the hypervisor, open to S-mode
    if addr.toNat / 256 % 4 = 2 ∧ s.hart.mode ≠ .u then s.noCsr addr i else .next (s.illegal i)
  else match readCsr s addr with
    | none => s.noCsr addr i
    | some old =>
      finishCsr s op rd src writes old fun w h => { h with csr := h.csr.write h.app s.cycle addr.toNat w }

/-- REGISTER_WRITE: a write of a supervisor CSR of the B7 (R6, R61). -/
def execRegisterWrite (a : CsrArgs) (s : State) : Result :=
  if !csrAllowed s.hart a.addr true then .next (s.illegal (.registerWrite a))
  else match readB7Supervisor s a.addr.toNat with
    | none => .next (s.illegal (.registerWrite a))
    | some old => finishCsr s a.op a.rd a.src true old fun w h => { h with csr := h.csr.writeB7 a.addr.toNat w }

/-! ## The vector CSRs (R59 to R63) -/

/-- START of the entry that the last fault reported: the head of its queue; 0 where no entry is the faulting one (R342). -/
def Hart.reportedStart (h : Hart) : Nat :=
  match h.reported with
  | some true => (h.mq.head?.map (·.start)).getD 0
  | some false => (h.vq.head?.map (·.start)).getD 0
  | none => 0

/-- A queue with START of its head written: the head goes on as if it had been issued with another START. -/
def startHead (q : List QEntry) (n : Nat) : List QEntry :=
  match q with
  | [] => []
  | e :: rest => { e with start := n, base := if n = e.start then e.base else n } :: rest

/-- The hart with `vstart` written: while an image is held, START of the faulting entry (R342). -/
def Hart.writeStart (h : Hart) (w : Word) : Hart :=
  let n := w.toNat % 2 ^ 36
  if h.held then
    match h.reported with
    | some true => { h with mq := startHead h.mq n }
    | some false => { h with vq := startHead h.vq n }
    | none => h
  else { h with vc := { h.vc with vstart := n } }

/-- `vgrant` (R62). -/
def Hart.grantWord (h : Hart) : Word :=
  BitVec.ofNat 64 (h.vc.shrunk.toNat * 2 ^ 11 + h.vc.pwr.toNat * 2 ^ 10 + h.vc.ceil.toNat * 2 ^ 9
    + (if h.nlg = 0 then 0 else h.log2vlen) * 16 + h.nlg)

/-- `mgrant` (R198). -/
def Hart.matrixGrant (h : Hart) : Word :=
  match h.attachment with
  | none => 0#64
  | some a => BitVec.ofNat 64 (a.lost.toNat * 256 + a.rows)

/-- `vqpos` (R63). -/
def Hart.queuePosition (h : Hart) : Word := BitVec.ofNat 64 (h.vc.seqDone.toNat * 2 ^ 32 + h.vq.length)

/-- The value of a vector CSR; none where there is no such CSR. -/
def Hart.vectorCsr (h : Hart) (addr : Nat) : Option Word :=
  match addr with
  | 0x800 => some (BitVec.ofNat 64 (if h.held then h.reportedStart else h.vc.vstart))
  | 0x801 => some (h.vc.vxflags.setWidth 64)
  | 0x802 => some (BitVec.ofNat 64 h.vc.vrm.val)
  | 0x803 => some h.vc.vseed
  | 0x804 => some h.vc.vlinkin
  | 0x805 => some h.mshape
  | 0x806 => some h.vc.vstrip
  | 0xCC0 => some (BitVec.ofNat 64 h.vc.vl)
  | 0xCC1 => some (vtypeWord h.vc.vtype)
  | 0xCC2 => some (BitVec.ofNat 64 h.vc.vlmax)
  | 0xCC3 => some h.grantWord
  | 0xCC4 => some h.matrixGrant
  | 0xCC5 => some h.vc.vlinkout
  | 0xCC6 => some h.queuePosition
  | _ => if 0xCE0 ≤ addr ∧ addr ≤ 0xCFF then (h.vec.tag[addr - 0xCE0]?).map tagWord else none

/-- `vrm` written: 6 and 7 hold 0 (R31). -/
def vrmOf (w : Word) : Fin 6 := if w.toNat % 8 < 6 then Fin.ofNat 6 (w.toNat % 8) else 0

/-- The hart with a vector CSR written; the read-only ones have been refused before. -/
def Hart.writeVectorCsr (addr : Nat) (w : Word) (h : Hart) : Hart :=
  match addr with
  | 0x800 => h.writeStart w
  | 0x801 => { h with vc := { h.vc with vxflags := w.extractLsb' 0 5 } }
  | 0x802 => { h with vc := { h.vc with vrm := vrmOf w } }
  | 0x803 => { h with vc := { h.vc with vseed := w } }
  | 0x804 => { h with vc := { h.vc with vlinkin := w } }
  | 0x805 => { h with mshape := shapeWord w }
  | 0x806 => { h with vc := { h.vc with vstrip := w } }
  | _ => h

/-- The CSR instruction reads its CSR: CSRRW into x0 does not (Zicsr). -/
def csrReads (a : CsrArgs) : Bool := !(a.op == .rw && a.rd == 0)

/-- What an access to a vector CSR waits for (R60, R198, R201, R255): `vqpos` is only read, and does not wait. A read of `mgrant` or of
the `mshape` mirror waits for both queues, and takes the fault of a held matrix image (R340); a write of the mirror or of `vrm`, whose
place is behind the older matrix instructions (R216), waits for both too. A tag is read after every change of the hart's lane groups has
taken effect (R54). While an image is held no other access waits (R342). -/
def vectorCsrPoint (s : State) (a : CsrArgs) : Option State :=
  let matrix := a.addr == 0xCC4#12 || a.addr == 0x805#12
  let tag := decide (0xCE0 ≤ a.addr.toNat ∧ a.addr.toNat ≤ 0xCFF)
  let resizing := tag && s.hart.resume.isEmpty && !s.hart.lanes.resizes.isEmpty
  if a.addr = 0xCC6#12 then none
  else if matrix && csrReads a && s.hart.mheld then s.hart.mfault.map s.takeMatrixFault
  else if s.hart.held then none
  else syncPoint s (s.hart.vbusy || resizing || ((matrix || (a.addr == 0x802#12 && a.writes)) && s.hart.mbusy))

/-- The register whose run tag a CSR instruction reads, where the tag is poisoned (R379). -/
def poisonedTag (s : State) (a : CsrArgs) : Option Nat :=
  let n := a.addr.toNat - 0xCE0
  if csrReads a ∧ 0xCE0 ≤ a.addr.toNat ∧ a.addr.toNat ≤ 0xCFF ∧ s.hart.vec.poisonTag.getLsbD n then some n else none

/-- A CSR instruction of a vector CSR; a read of a poisoned tag traps (R379). -/
def accessVectorCsr (i : Instr) (a : CsrArgs) (s : State) : Result :=
  if !csrAllowed s.hart a.addr a.writes || (s.hart.vectorCsr a.addr.toNat).isNone then .next (s.illegal i)
  else match vectorCsrPoint s a with
    | some s => .next s
    | none => match poisonedTag s a with
      | some n => .next (s.poisonTrap (some (0, n)) (s.hart.vec.laneAt .tag n))
      | none =>
        finishCsr s a.op a.rd a.src a.writes ((s.hart.vectorCsr a.addr.toNat).getD 0#64) (Hart.writeVectorCsr a.addr.toNat)

/-- VECTOR_CSR_ACCESS. -/
def execVectorCsrAccess (a : CsrArgs) (s : State) : Result := accessVectorCsr (.vectorCsrAccess a) a s

/-- VSEED_WRITE: the lane generators of the hart are seeded anew (R31; notes/assumptions/9.md). -/
def execVseedWrite (a : CsrArgs) (s : State) : Result := accessVectorCsr (.vseedWrite a) a s

/-- MSHAPE_MIRROR_WRITE: the same effect as MSHAPE (R201). -/
def execMshapeMirrorWrite (a : CsrArgs) (s : State) : Result := accessVectorCsr (.mshapeMirrorWrite a) a s

/-! ## The row RV64_INSTRUCTION -/

/-- RV64_INSTRUCTION: a standard instruction of the control thread (R68). WFI completes at once in every mode, within any limit that TW
could set (notes/assumptions/5.md). -/
def execRv64 (i : Rv) (s : State) : Result :=
  match i with
  | .lui rd imm => .next (s.setX rd ((imm ++ 0#12).signExtend 64)).advance
  | .auipc rd imm => .next (s.setX rd (s.hart.pc + (imm ++ 0#12).signExtend 64)).advance
  | .jal rd off => jumpTo s rd (s.hart.pc + (off ++ 0#1).signExtend 64)
  | .jalr rd rs1 imm => jumpTo s rd ((s.x rs1 + sext12 imm) &&& ~~~1#64)
  | .branch c rs1 rs2 off =>
    if branchTaken c (s.x rs1) (s.x rs2) then jumpTo s 0 (s.hart.pc + (off ++ 0#1).signExtend 64) else .next s.advance
  | .load width rd rs1 imm =>
    let va := s.x rs1 + sext12 imm
    finishAccess s va (scalarLoad s va (loadBytes width)) fun v s => s.setX rd (loadExtend width v)
  | .store width rs1 rs2 imm =>
    let va := s.x rs1 + sext12 imm
    finishAccess s va (scalarStore s va (storeBytes width) (s.x rs2).toNat) fun _ s => s
  | .aluImm op rd rs1 imm => .next (s.setX rd (immValue op (s.x rs1) (sext12 imm))).advance
  | .shift op rd rs1 sh => .next (s.setX rd (shiftValue op (s.x rs1) sh.toNat)).advance
  | .shiftw op rd rs1 sh => .next (s.setX rd ((shiftValue op ((s.x rs1).setWidth 32) sh.toNat).signExtend 64)).advance
  | .alu op rd rs1 rs2 => .next (s.setX rd (aluValue op (s.x rs1) (s.x rs2))).advance
  | .lr dbl _ _ rd rs1 => doLr s (if dbl then 8 else 4) rd rs1
  | .sc dbl _ _ rd rs1 rs2 => doSc s (if dbl then 8 else 4) rd rs1 rs2
  | .amo op dbl _ _ rd rs1 rs2 => doAmo s op (if dbl then 8 else 4) rd rs1 rs2
  | .csr a => doCsr a.op a.rd a.src a.addr a.writes (.rv64 (.csr a)) s
  | .ecall => .next (s.takeTrap (ecallCause s.hart.mode) 0#64)
  | .ebreak => .next (s.takeTrap causeBreakpoint s.hart.pc)
  | .mret => doMret s
  | .wfi => .next s.advance

end Sys2Proof.Machine
end

