-- ==== Sys2Proof/Machine/Context.lean ====
section
/-!
DEFINITION. Context images (R218, R249, R250, R341, R347 to R351): their layout, VCTXSAVE and VCTXRST. What the sections hold where the
spec gives only their sizes is in notes/assumptions/26.md.
-/

namespace Sys2Proof.Machine

/-! ## Spans of bytes -/

/-- What the access of a span of bytes answers. -/
inductive Span (α : Type) where
  | ok (v : α)
  | trap (cause : Nat) (va : Word)
  | wait
  deriving DecidableEq, Repr

/-- The state with bytes stored from an address on, page by page, over at most `n` pages. -/
def storeSpan (sp : Space) : Nat → Word → List Byte → State → Span State
  | 0, _, _, s => .ok s
  | n + 1, va, bytes, s =>
    if bytes.isEmpty then .ok s
    else match translate s s.agent sp .store va with
      | .page => .trap causeStorePage va
      | .access _ => .trap causeStoreAccess va
      | .moved => .wait
      | .ok pa _ =>
        if physAt s.bigMemory pa = .device then .trap causeStoreAccess va
        else
          let k := 4096 - va.toNat % 4096
          let part := bytes.take k
          let s := s.writeBytes (some s.hartId) pa part
          let s := if s.poison.isEmpty then s else s.clearCovered (inRange pa part.length)
          storeSpan sp n (va + BitVec.ofNat 64 k) (bytes.drop k) s

/-- `len` bytes loaded from an address on, page by page, over at most `n` pages. -/
def loadSpan (s : State) (sp : Space) : Nat → Word → Nat → Span (List Byte)
  | 0, _, _ => .ok []
  | n + 1, va, len =>
    if len = 0 then .ok []
    else match translate s s.agent sp .load va with
      | .page => .trap causeLoadPage va
      | .access _ => .trap causeLoadAccess va
      | .moved => .wait
      | .ok pa _ =>
        let k := min len (4096 - va.toNat % 4096)
        if physAt s.bigMemory pa = .device then .trap causeLoadAccess va
        else match (List.range ((pa + k + 63) / 64 - pa / 64)).find? fun i => s.poisoned (pa + 64 * i) with
          | some i => .trap causeLoadAccess (va + BitVec.ofNat 64 (64 * i))
          | none =>
            match loadSpan s sp n (va + BitVec.ofNat 64 k) (len - k) with
            | .ok rest => .ok (Memory.readBytes s.memory pa k ++ rest)
            | other => other

/-- The pages that a span of bytes meets, at most. -/
def pagesOf (len : Nat) : Nat := len / 4096 + 2

/-- The space of the resume element area: S-mode permissions (R348). -/
def State.areaSpace (s : State) : Space := { s.dataSpace with mode := .s }

/-! ## Fields of an image -/

/-- The bytes of words, in order. -/
def wordBytes (ws : List Word) : List Byte := ws.flatMap fun w => byteList 8 w.toNat

/-- Bytes padded with zero bytes to a length. -/
def padTo (n : Nat) (bs : List Byte) : List Byte := bs ++ List.replicate (n - bs.length) 0#8

/-- The number in `n` bytes at an offset. -/
def numAt (img : List Byte) (off n : Nat) : Nat := Memory.readNum.numBytes ((img.drop off).take n)

/-- The 64-bit word at an offset. -/
def wordAt (img : List Byte) (off : Nat) : Word := BitVec.ofNat 64 (numAt img off 8)

/-- A number rounded up to a multiple of 8. -/
def roundUp8 (n : Nat) : Nat := (n + 7) / 8 * 8

/-! ## Layout (R249) -/

/-- What fixes the sections of an image: portable, with an attachment, with a matrix queue image, its lane groups, its vl and its
type. -/
structure Layout where
  port : Bool
  att : Bool
  mqh : Bool
  nlg : Nat
  vl : Nat
  vtype : Option VType
  deriving DecidableEq, Repr

/-- LMUL of the image's type, 1 where it has none. -/
def Layout.mul (l : Layout) : Nat := (l.vtype.map VType.mul).getD 1
/-- SEW of the image's type. -/
def Layout.sew (l : Layout) : Nat := (l.vtype.map VType.sew).getD 64
/-- The bytes of one group of vector registers in a portable image, of one mask register and of one scale register. -/
def Layout.groupBytes (l : Layout) : Nat := if l.port then roundUp8 ((l.vl * l.sew + 7) / 8) else 4096 * l.nlg
/-- The groups of vector registers that the image lists. -/
def Layout.groups (l : Layout) : Nat := if l.port then 32 / l.mul else 32
/-- The bytes of one mask register. -/
def Layout.maskBytes (l : Layout) : Nat := if l.port then (l.vl + 63) / 64 * 8 else 4096 * l.nlg
/-- The bytes of one scale register. -/
def Layout.scaleBytes (l : Layout) : Nat :=
  let n := 2 ^ ((l.vtype.map VType.bl).getD 5)
  if l.port then roundUp8 ((l.vl + n - 1) / n) else 512 * l.nlg
/-- Where the mask registers begin. -/
def Layout.masksAt (l : Layout) : Nat := 256 + l.groups * l.groupBytes
/-- Where the scale registers begin. -/
def Layout.scalesAt (l : Layout) : Nat := l.masksAt + 8 * l.maskBytes
/-- Where the tags begin. -/
def Layout.tagsAt (l : Layout) : Nat := l.scalesAt + 16 * l.scaleBytes
/-- Where the broadcast registers begin. -/
def Layout.broadcastAt (l : Layout) : Nat := l.tagsAt + 256
/-- Where the queue image begins. -/
def Layout.queueAt (l : Layout) : Nat := l.broadcastAt + 128
/-- Where the resume groups begin. -/
def Layout.resumeAt (l : Layout) : Nat := l.queueAt + (if l.port then 0 else 32 * 96)
/-- Where the stream bindings begin. -/
def Layout.streamsAt (l : Layout) : Nat := l.resumeAt + (if l.port then 0 else 8 * 64)
/-- Where the index table begins. -/
def Layout.ixtAt (l : Layout) : Nat := l.streamsAt + 4 * 128
/-- Where the attachment begins, with `count` entries of the index table in a portable image. -/
def Layout.attAt (l : Layout) (count : Nat) : Nat := l.ixtAt + (if l.port then 8 + 16 * count else l.nlg * (256 + 32768))
/-- Where the matrix queue image begins. -/
def Layout.mqAt (l : Layout) (count : Nat) : Nat := l.attAt count + (if l.att then 4 * 65536 + 64 else 0)
/-- The bytes of the image. -/
def Layout.length (l : Layout) (count : Nat) : Nat := l.mqAt count + (if l.mqh then 16 * 96 else 0)

/-! ## The sections as they are written -/

/-- A queue entry's 96 bytes (R341). -/
def QEntry.image (e : QEntry) : List Byte :=
  wordBytes [e.pc, BitVec.ofNat 64 (e.popped.toNat * 2 ^ 34 + e.held.toNat * 2 ^ 33 + 2 ^ 32 + e.word.toNat), BitVec.ofNat 64 e.start,
    e.xd, e.xd1, e.xa, e.xa1, e.xb, e.xb1, vtypeWord e.vtype, BitVec.ofNat 64 (e.log2vlen % 32 * 2 ^ 19 + e.vl % 2 ^ 19), 0#64]

/-- A resume group's 64 bytes (R347). -/
def ResumeGroup.image (g : ResumeGroup) : List Byte :=
  let faults := (g.micros.filterMap fun m => match m.place with
    | .aside f => f.map fun f => (f.kind, f.tval)
    | _ => none) ++ g.fault.toList
  let elems := g.micros.map (·.elem)
  wordBytes [g.block,
    BitVec.ofNat 64 ((!faults.isEmpty).toNat * 32 + 16 + ((g.micros.map (·.idx)).min?.getD 0) % 16),
    BitVec.ofNat 64 (elems.min?.getD 0), BitVec.ofNat 64 ((elems.max?.map (· + 1)).getD 0), BitVec.ofNat 64 elems.length,
    BitVec.ofNat 64 ((faults.head?.map (·.1)).getD 0 % 256), (faults.head?.map (·.2)).getD 0#64, BitVec.ofNat 64 (g.vl % 2 ^ 19)]

/-- The 64 bytes of a binding; the last word is the row index entry that was read last. -/
def streamImage (b : Option Stream) : List Byte :=
  match b with
  | none => padTo 64 []
  | some b =>
    wordBytes [BitVec.ofNat 64 (1 + b.group % 32 * 2 ^ 8 + b.regs % 64 * 2 ^ 16), b.index, b.base, b.rowStride, BitVec.ofNat 64 b.count,
      BitVec.ofNat 64 (b.rowLen * 2 ^ 10 + b.ifmt.val * 2 ^ 8 + b.sfmt.code), BitVec.ofNat 64 b.pos, (b.row.map (·.2)).getD 0#64]

/-- The place of the row index entry that a stream read last, 1 above it; 0 where it read none. -/
def rowPlace (b : Option Stream) : Word := BitVec.ofNat 64 (((b.bind (·.row)).map fun r => r.1 + 1).getD 0)

/-- The fault of a stopped matrix queue, in three words; zeros where there is none. -/
def faultWords (f : Option VecFault) : List Word :=
  match f with
  | none => [0#64, 0#64, 0#64]
  | some f =>
    [BitVec.ofNat 64 (1 + f.cause % 32 * 2 + f.kind % 256 * 2 ^ 8 + f.acc % 4 * 2 ^ 16 + f.lg % 8 * 2 ^ 20
      + (match f.operand with
        | some o => 2 ^ 31 + o.1 % 8 * 2 ^ 28 + o.2 % 32 * 2 ^ 23
        | none => 0)), f.tval, BitVec.ofNat 64 f.elem]

/-- What the work of a hart needs beside the records of its sections: the START with which the head of the queue was issued, the rows that
its streams read last, and the fault of its matrix queue. -/
def extraWords (h : Hart) : List Word :=
  BitVec.ofNat 64 ((h.vq.head?.map (·.base)).getD 0) :: h.streams.toList.map rowPlace ++ faultWords h.mfault

/-- The program order of entries among the entries of both queues, with their modes: a byte for each. -/
def orderBytes (all q : List QEntry) : List Byte :=
  q.map fun e => BitVec.ofNat 8 ((all.filter fun o => decide (o.seq < e.seq)).length % 64 + 64 * e.mode.code)

/-- How many strip intervals before the current one each entry was issued in: a byte for each, 255 for an entry from further back, so that
entries of two intervals may be restored as entries of one (DESIGN CHOICE, notes/assumptions/26.md: R341 has no field for the interval of
R299). -/
def stripBytes (strip : Nat) (q : List QEntry) : List Byte := q.map fun e => BitVec.ofNat 8 (min 255 (strip - e.strip))

/-- What the resume groups have of their round beside their records: its type, VLEN and mode. -/
def resumeWord (gs : List ResumeGroup) : Word :=
  match gs with
  | [] => 0#64
  | g :: _ => BitVec.ofNat 64 (g.mode.code * 2 ^ 32 + g.log2vlen % 32 * 2 ^ 24 + (vtypeWord (some g.vtype)).toNat % 2 ^ 18)

/-- The groups of which a member at word 0 has begun its block while two values are queued toward it, as a bit each, and the overflow of the
round that is still to be reported (R346), in two words. -/
def groupWords (gs : List ResumeGroup) (links : Links) : List Word :=
  let begun (g : ResumeGroup) : Bool := g.micros.any fun m => m.begun && m.idx == 0 && (links.queue m.elem).length == 2
  let bits := ((gs.filter begun).map fun g => 2 ^ (g.num % 8)).sum
  match gs.findSome? (·.overflow) with
  | none => [BitVec.ofNat 64 bits, 0#64]
  | some f => [BitVec.ofNat 64 (bits + 2 ^ 8 + f.bidx.getD 0 % 16 * 2 ^ 9 + f.lg % 8 * 2 ^ 13 + f.elem % 2 ^ 20 * 2 ^ 16), f.vpc]

/-- What the head of the queue needs beside its record, where it is a run instruction that has begun: the tags of its sources (R175). -/
def headTags (h : Hart) : List Word :=
  let tags := (h.vq.head?.map (·.tags)).getD []
  [tagWord (tags.getD 0 none), tagWord (tags.getD 1 none)]

/-- The section of the stream bindings, with what the queue image and the resume groups need beside their records, and the copy whose
fault the hart is handling. -/
def streamSection (h : Hart) (port : Bool) : List Byte :=
  let all := h.vq ++ h.mq
  let work : List (List Byte) := if port then [[], [], [], []] else
    [wordBytes ([resumeWord h.resume, BitVec.ofNat 64 ((h.copyTrap.map (· + 1)).getD 0)] ++ headTags h ++ groupWords h.resume h.links),
      padTo 32 (orderBytes all h.vq) ++ orderBytes all h.mq,
      padTo 32 (stripBytes h.vc.strip h.vq) ++ stripBytes h.vc.strip h.mq, wordBytes (extraWords h)]
  (h.streams.toList.zip work).flatMap fun p => streamImage p.1 ++ padTo 64 p.2

/-- The section of the index table. -/
def ixtSection (t : Ixt) (nlg : Nat) (port : Bool) : List Byte :=
  if port then
    wordBytes (BitVec.ofNat 64 (Ixt.entries t).length :: (Ixt.entries t).flatMap fun x => [x.key, x.value])
  else
    let slots := List.range (2048 * nlg)
    let bit (i : Nat) : Nat := (Ixt.entry t i).isSome.toNat
    ((List.range (256 * nlg)).map fun b => BitVec.ofNat 8 (((List.range 8).map fun i => bit (8 * b + i) * 2 ^ i).sum)) ++
      wordBytes (slots.flatMap fun i => match Ixt.entry t i with
        | some x => [x.key, x.value]
        | none => [0#64, 0#64])

/-- The 64 KiB of a tile. -/
def Tile.image (t : Tile) : List Byte :=
  let (cols, n) : Nat × Nat := match t.kind with
    | some .fp64 => (64, 8)
    | _ => (128, 4)
  (List.range 128).flatMap fun i => (List.range cols).flatMap fun j => byteList n (t.cell i j)

/-- The code of the kind that a tile records. -/
def kindCode (k : Option AccKind) : Nat :=
  match k with
  | none => 0
  | some .fp32 => 1
  | some .i32 => 2
  | some .fp64 => 3

/-- The section of the attachment: acc0 to acc3, then `mshape`, and ROWS with the recorded kinds. -/
def attSection (a : Attachment) (mshape : Word) : List Byte :=
  let kinds := (a.tiles.toList.map fun t => kindCode t.kind).zipIdx.map fun p => p.1 * 4 ^ p.2
  a.tiles.toList.flatMap Tile.image ++ padTo 64 (wordBytes [mshape, BitVec.ofNat 64 (kinds.sum * 2 ^ 16 + a.rows % 256)])

/-- The vector registers as a section: each register at VLEN, or the elements below vl of each group. -/
def vecSection (l : Layout) (vlen : Nat) (f : VecFile) : List Byte :=
  if l.port then
    (List.range l.groups).flatMap fun g =>
      byteList l.groupBytes ((List.range l.vl).map fun e => f.elem vlen (g * l.mul) l.sew e * 2 ^ (l.sew * e)).sum
  else f.v.toList.flatMap fun r => byteList l.groupBytes r.toNat

/-- The mask registers as a section. -/
def maskSection (l : Layout) (f : VecFile) : List Byte :=
  f.m.toList.flatMap fun r => byteList l.maskBytes (if l.port then r.toNat % 2 ^ l.vl else r.toNat)

/-- The scale registers as a section. -/
def scaleSection (l : Layout) (f : VecFile) : List Byte :=
  let n := 2 ^ ((l.vtype.map VType.bl).getD 5)
  f.k.toList.flatMap fun r => byteList l.scaleBytes (if l.port then r.toNat % 2 ^ (8 * ((l.vl + n - 1) / n)) else r.toNat)

/-- The 256-byte header (R249). -/
def headerImage (l : Layout) (h : Hart) (len : Nat) : List Byte :=
  let c := h.vc
  let pair : List Word := match h.arrival with
    | some (va, gen) => [va, BitVec.ofNat 64 (2 ^ 63 + gen.toNat)]
    | none => [0#64, 0#64]
  padTo 256 (wordBytes ([BitVec.ofNat 64 (2 ^ 32 + 0x4F564358), BitVec.ofNat 64 (l.mqh.toNat * 4 + l.att.toNat * 2 + l.port.toNat),
    BitVec.ofNat 64 l.nlg, BitVec.ofNat 64 len, BitVec.ofNat 64 l.vl, vtypeWord l.vtype, BitVec.ofNat 64 c.vstart, c.vxflags.setWidth 64,
    BitVec.ofNat 64 c.vrm.val, c.vseed, c.vlinkin, c.vlinkout, c.vstrip] ++ pair ++ [0#64]))

/-- The lane groups that the registers lie in: while a change waits for older work, the most that any of them held. -/
def Hart.imageGroups (h : Hart) : Nat := h.lanes.resizes.foldl (fun n r => max n r.old) h.nlg

/-- The layout of the image of a hart. -/
def Hart.layout (h : Hart) (port : Bool) : Layout :=
  ⟨port, h.attachment.isSome, !port && h.mheld, h.imageGroups, h.vc.vl, h.vc.vtype⟩

/-- The context image of a hart whose work has stopped. -/
def Hart.image (h : Hart) (port : Bool) : List Byte :=
  let l := h.layout port
  let f := h.vec
  headerImage l h (l.length (Ixt.entries h.ixt).length) ++ vecSection l h.vlen f ++ maskSection l f ++ scaleSection l f ++
    wordBytes (f.tag.toList.map tagWord) ++ wordBytes f.b.toList ++
    (if port then [] else padTo (32 * 96) (h.vq.flatMap QEntry.image) ++ padTo (8 * 64) (h.resume.flatMap ResumeGroup.image)) ++
    streamSection h port ++ ixtSection h.ixt l.nlg port ++
    (match h.attachment with
      | some a => attSection a h.mshape
      | none => []) ++
    (if l.mqh then padTo (16 * 96) (h.mq.flatMap QEntry.image) else [])

/-- The resume element area of a hart: 32 bytes for each element below vl of its round (R348). That an element which is no member was
active shows in its first queued value, and that a member at word 0 has begun its block in its second, where it has no second one
(notes/assumptions/26.md). -/
def Hart.area (h : Hart) : List Byte :=
  match h.resume with
  | [] => []
  | g :: _ =>
    (List.range g.vl).flatMap fun e =>
      let q := h.links.queue e
      match h.resume.findSome? fun g => (g.micros.find? fun m => m.elem == e).map fun m => (g.num, m) with
      | some (n, m) =>
        wordBytes [BitVec.ofNat 64 (2 ^ 63 + n % 8 * 2 ^ 60 + m.idx % 16 * 2 ^ 56 + q.length % 4), h.links.heldOf e, q.getD 0 0#64,
          q.getD 1 (BitVec.ofNat 64 (m.begun && m.idx == 0).toNat)]
      | none => wordBytes [0#64, h.links.heldOf e, BitVec.ofNat 64 (h.links.active.getLsbD e).toNat, 0#64]

/-! ## VCTXSAVE (R249, R349) -/

/-- The micro-threads that a hart holds or will hold. -/
def Hart.heldMicros (h : Hart) : List Micro := h.resume.flatMap (·.micros) ++ ((h.round.map Round.micros).getD [])

/-- The first poisoned register of a hart, as the operand of a fault and the lane group of the error: an entry of the index table and a
resume element name no register (R336, R379). -/
def Hart.poisonedAny (h : Hart) : Option (Option (Nat × Nat) × Nat) :=
  let f := h.vec
  let named (o : Nat × Nat) : Option (Nat × Nat) × Nat := (some o, f.sliceOf o)
  ((f.poisonedRead ⟨BitVec.allOnes 32, 0#32, 0#32, BitVec.allOnes 8, 0#8, BitVec.allOnes 16, 0#16⟩).map named).orElse fun _ =>
    (((List.range 32).find? f.poisonTag.getLsbD).map fun i => named (0, i)).orElse fun _ =>
      (f.poisonIxt.head?.map fun p => (none, f.laneAt .ixt p.1)).orElse fun _ =>
        (h.heldMicros.findSome? (·.poison)).map fun g => (none, g)

/-- An atomic element of the hart is on its way to another package. -/
def State.atomicOut (s : State) : Bool :=
  s.remote.outstanding.any fun r => match r.kind with
    | .atomic h _ => h == s.hartId
    | _ => false

/-- Nothing of the hart's work has stopped at a fault. -/
def Hart.faultless (h : Hart) : Bool := h.vfault.isNone && h.mfault.isNone && (h.round.bind Round.fault?).isNone

/-- The state while a raw save waits for the work to stop; none when it has stopped: the matrix queue has drained, unless a fault stops it,
changes of lane groups have settled, the head has reached an element boundary and the round can be held. A fault that the holding of the round
raises stays pending (R346). -/
def State.stopRaw (s : State) : Option State :=
  let h := s.hart
  if (h.mfault.isNone && h.mbusy) || (!h.held && (s.atomicOut || (!h.lanes.resizes.isEmpty && h.faultless))) then some s
  else match h.round with
    | none => none
    | some r =>
      match r.holding with
      | .no => some { s with hart := { h with round := some { r with holding := .stopping } } }
      | .stopping => some s
      | .stopped => none

/-- The state while a portable save waits for the queues to drain, or takes a pending fault; none when they have. -/
def State.stopPortable (s : State) : Option State :=
  let h := s.hart
  if h.held then (if h.mbusy then some s else none)
  else match s.takePending with
    | some s => some s
    | none => if h.vbusy || h.mbusy || h.round.isSome then some s else none

/-- The hart with its stopped work held: the entries form the queue image, as after a fault, and the image records none (R349). -/
def Hart.stopped (h : Hart) (port : Bool) : Hart :=
  if port then h
  else
    { (h.holdRound none).holdQueue with mheld := !h.mq.isEmpty, reported := if h.held then h.reported else none }

/-- The hart whose round was to be held, and goes on. -/
def Hart.unhold (h : Hart) : Hart := { h with round := h.round.map fun r => { r with holding := .no } }

/-- The state in which a precise trap of a save or restore is taken; a round that was to be held goes on. -/
def State.contextTrap (s : State) (cause : Nat) (va : Word) : State := ({ s with hart := s.hart.unhold } : State).accessTrap cause va

/-- The save of a hart whose work can be held. -/
def saveImage (a : XReg) (port : Bool) (s : State) : Result :=
  match s.hart.poisonedAny with
  | some o => .next (({ s with hart := s.hart.unhold } : State).poisonTrap o.1 o.2)
  | none =>
    let h := s.hart.stopped port
    let image := h.image port
    match storeSpan s.dataSpace (pagesOf image.length) (s.x a) image s with
    | .trap cause va => .next (s.contextTrap cause va)
    | .wait => .next s
    | .ok s' =>
      match storeSpan s.areaSpace (pagesOf h.area.length) h.csr.sctxbase (if port then [] else h.area) s' with
      | .trap cause va => .next (s.contextTrap cause va)
      | .wait => .next s
      | .ok s' => .next { s' with hart := h }.advance

/-- VCTXSAVE: privileged; an address that is not a multiple of 4 KiB is a misaligned store; `.p` is illegal while the hart holds a
resume group or a matrix queue image (R249, R340), and while it holds a vector queue image with entries, which cannot be drained and has no
place in a portable image (DESIGN CHOICE, notes/assumptions/26.md: R249 drains the queue first and does not name this case). -/
def execVctxsave (a : XReg) (port : Bool) (s : State) : Result :=
  let h := s.hart
  if h.mode = .u || (port && (!h.resume.isEmpty || h.mheld || (h.vheld && !h.vwork.isEmpty))) then .next (s.illegal (.vctxsave a port))
  else if (s.x a).toNat % 4096 ≠ 0 then .next (s.takeTrap causeStoreMisaligned (s.x a))
  else match (if port then s.stopPortable else s.stopRaw) with
    | some s => .next s
    | none => saveImage a port s

/-! ## The sections as they are read -/

/-- The mode of a 2-bit code of an image. -/
def readMode (n : Nat) : Mode := Mode.ofCode (n % 4)

/-- A vector type as an image holds it: none for VILL, nothing for a word that no `vtype` is. -/
def readType (w : Word) : Option (Option VType) :=
  if w = vtypeWord none then some none
  else match VType.ofWord w with
    | some t => if vtypeWord (some t) = w then some (some t) else none
    | none => none

/-- A queue entry at an offset, with its order and strip bytes; nothing where a reserved bit is set. -/
def readEntry (img : List Byte) (off order strip first cur : Nat) : Option QEntry :=
  let w (i : Nat) : Word := wordAt img (off + 8 * i)
  match readType (w 9) with
  | none => none
  | some t =>
    if getField (w 1) 35 29 ≠ 0 ∨ getField (w 10) 24 40 ≠ 0 ∨ w 11 ≠ 0#64 then none
    else some
      { pc := w 0, word := (w 1).setWidth 32, held := (w 1).getLsbD 33, popped := (w 1).getLsbD 34, finished := false,
        start := getField (w 2) 0 36, base := getField (w 2) 0 36, xd := w 3, xd1 := w 4, xa := w 5, xa1 := w 6, xb := w 7, xb1 := w 8, vtype := t,
        vl := getField (w 10) 0 19, log2vlen := getField (w 10) 19 5, strip := cur - strip, seq := first + order % 64,
        mode := readMode (order / 64), tags := [] }

/-- The entry of a place is occupied. -/
def occupied (img : List Byte) (off : Nat) : Bool := (wordAt img (off + 8)).getLsbD 32

/-- The occupied entries of an image of `n` places; nothing where one has a reserved bit set. `at'` and `strips` are where the order
and strip bytes lie. -/
def readQueue (img : List Byte) (off n at' strips seq cur : Nat) : Option (List QEntry) :=
  ((List.range n).filter fun i => occupied img (off + 96 * i)).mapM fun i =>
    readEntry img (off + 96 * i) (numAt img (at' + i) 1) (numAt img (strips + i) 1) seq cur

/-- The members of a resume group in the resume element area (R348); `group` holds the bits of the groups whose members at word 0 with two
values queued have begun. -/
def readMembers (area : List Byte) (num vl : Nat) (block group : Word) : List Micro :=
  (List.range vl).filterMap fun e =>
    let w := wordAt area (32 * e)
    if w.getLsbD 63 && getField w 60 3 == num then
      let idx := getField w 56 4
      let begun := idx != 0 || (if getField w 0 2 < 2 then (wordAt area (32 * e + 24)).getLsbD 0 else group.getLsbD num)
      some ⟨e, true, begun, 0, block, idx, .running, if begun then .aside none else .waiting, none, none⟩
    else none

/-- The overflow that two words of an image hold (R346). -/
def readOverflow (w vpc : Word) : Option VecFault :=
  if w.getLsbD 8 then some ⟨27, 7, 0, 0#64, vpc, getField w 16 20, getField w 13 3, some (getField w 9 4), none, none, none⟩ else none

/-- The links as the resume element area holds them. -/
def readLinks (area : List Byte) (vl : Nat) : Links :=
  (List.range vl).foldl
    (fun l e =>
      let w (i : Nat) : Word := wordAt area (32 * e + 8 * i)
      let member := (w 0).getLsbD 63
      let on := member || (w 2).getLsbD 0
      let l := { l with active := if on then l.active ||| (1#maxVlen <<< e) else l.active }.hold e (w 1)
      if member then l.setQueue e (([w 2, w 3]).take (getField (w 0) 0 2)) else l) Links.reset

/-- A resume group of an image: its number, its block, its vl, and the kind and address of its fault. -/
structure GroupRecord where
  num : Nat
  block : Word
  vl : Nat
  fault : Option (Nat × Word)
  deriving DecidableEq, Repr

/-- The resume groups of an image; nothing where a reserved bit is set. -/
def readGroups (img : List Byte) (off : Nat) : Option (List GroupRecord) :=
  ((List.range 8).filter fun i => (wordAt img (off + 64 * i + 8)).getLsbD 4).mapM fun i =>
    let w (j : Nat) : Word := wordAt img (off + 64 * i + 8 * j)
    if getField (w 1) 6 58 ≠ 0 ∨ getField (w 7) 19 45 ≠ 0 then none
    else some ⟨i, w 0, getField (w 7) 0 19, if (w 1).getLsbD 5 then some (getField (w 5) 0 8, w 6) else none⟩

/-- A run tag as an image holds it: cleared where ORD, GR or KF is reserved (R52). -/
def readTag (w : Word) : Option RunTag :=
  match Fmt.ofCode (getField w 2 6) with
  | none => none
  | some kf =>
    let ord := getField w 0 2
    let gr := getField w 11 5
    if ord = 0 ∨ ord = 3 ∨ (18 < gr ∧ gr < 31) then none
    else
      let len := getField w 16 18
      some ⟨ord == 2, kf, if w.getLsbD 8 then some (Fin.ofNat 4 (getField w 9 2)) else none, Fin.ofNat 32 gr,
        if len = 0 then 262144 else len, w.getLsbD 34⟩

/-- A tag that a portable restore keeps (R250). -/
def keepsTag (vl sew : Nat) (t : RunTag) : Bool :=
  decide (t.len ≤ vl) && t.kf.slot == sew && (match t.payload with
    | none => true
    | some p => 8 * 2 ^ p.val == sew)

/-- The tag of an image as it is restored. -/
def Layout.tag (l : Layout) (w : Word) : Option RunTag := (readTag w).filter fun t => !l.port || keepsTag l.vl l.sew t

/-- A binding as an image holds it; `place` is the place of the row index entry read last. -/
def readStream (img : List Byte) (off : Nat) (place : Word) : Option Stream :=
  let w (i : Nat) : Word := wordAt img (off + 8 * i)
  if (w 0).getLsbD 0 then
    (scbOf (fun i => if i < 5 then w (i + 1) else 0#64) (getField (w 0) 8 5) (getField (w 0) 16 6)).map fun b =>
      { b with pos := (w 6).toNat, row := if place = 0#64 then none else some (place.toNat - 1, w 7) }
  else none

/-- The vector file of an image at a VLEN, with everything that it does not hold zero: of a portable image the bits of a mask register from
vl on and the scale bytes of no saved block; and nothing beyond the VLEN bits of a mask register and the VLEN / 64 bytes of a scale register
(R45, R46). -/
def readVec (img : List Byte) (l : Layout) (vlen : Nat) : VecFile :=
  let group (g : Nat) : Nat := numAt img (256 + g * l.groupBytes) l.groupBytes
  let per := vlen / l.sew
  let block := 2 ^ ((l.vtype.map VType.bl).getD 5)
  let saved (raw portable : Nat) : Nat := if l.port then min raw portable else raw
  let reg (n : Nat) : Nat :=
    if l.port then
      group (n / l.mul) % 2 ^ (l.vl * l.sew) / 2 ^ (n % l.mul * per * l.sew) % 2 ^ (per * l.sew)
    else group n
  { VecFile.reset with
    v := Vector.ofFn fun i : Fin 32 => BitVec.ofNat maxVlen (reg i)
    m := Vector.ofFn fun i : Fin 8 => BitVec.ofNat maxVlen (numAt img (l.masksAt + i * l.maskBytes) l.maskBytes % 2 ^ saved vlen l.vl)
    k := Vector.ofFn fun i : Fin 16 => BitVec.ofNat groupBits
      (numAt img (l.scalesAt + i * l.scaleBytes) l.scaleBytes % 2 ^ saved (vlen / 8) (8 * ((l.vl + block - 1) / block)))
    b := Vector.ofFn fun i : Fin 16 => wordAt img (l.broadcastAt + 8 * i)
    tag := Vector.ofFn fun i : Fin 32 => l.tag (wordAt img (l.tagsAt + 8 * i)) }

/-- The index table of an image for `nlg` lane groups, with the entries lost (R250). -/
def readIxt (img : List Byte) (l : Layout) (nlg count : Nat) : Ixt × Nat :=
  let entry (off : Nat) : IxEntry := ⟨wordAt img off, wordAt img (off + 8)⟩
  if l.port then
    ((List.range count).map fun i => entry (l.ixtAt + 8 + 16 * i)).foldl
      (fun c x => let r := Ixt.insert c.1 (256 * nlg) x.key x.value; (r.1, c.2 + r.2.toNat)) ([], 0)
  else
    (((List.range (2048 * nlg)).filter fun i => (numAt img (l.ixtAt + i / 8) 1).testBit (i % 8)).foldl
      (fun t i => Ixt.write t i (entry (l.ixtAt + 256 * nlg + 16 * i))) [], 0)

/-- The kind of a code. -/
def kindOf (n : Nat) : Option AccKind :=
  match n % 4 with
  | 0 => none
  | 1 => some .fp32
  | 2 => some .i32
  | _ => some .fp64

/-- A tile as an image holds it. -/
def readTileImage (img : List Byte) (off : Nat) (kind : Option AccKind) : Tile :=
  let (cols, n) : Nat × Nat := match kind with
    | some .fp64 => (64, 8)
    | _ => (128, 4)
  (List.range 128).foldl (fun t i => (List.range cols).foldl (fun t j => t.write i j (numAt img (off + n * (cols * i + j)) n)) t) ⟨kind, []⟩

/-- What the attachment section holds: the shape word, the rows and the tiles. -/
def readAtt (img : List Byte) (off : Nat) : Word × Nat × Vector Tile 4 :=
  let w := wordAt img (off + 262144)
  let r := wordAt img (off + 262152)
  (if w.getLsbD 63 then putField 0#64 63 1 1 else shapeWord w, getField r 0 8,
    Vector.ofFn fun i : Fin 4 => readTileImage img (off + 65536 * i) (kindOf (getField r (16 + 2 * i) 2)))

/-! ## VCTXRST (R250) -/

/-- The layout that a header gives, where its magic number, version and reserved fields are right and its type is one. -/
def readLayout (img : List Byte) : Option Layout :=
  let w (i : Nat) : Word := wordAt img (8 * i)
  match readType (w 5) with
  | none => none
  | some t =>
    if w 0 ≠ BitVec.ofNat 64 (2 ^ 32 + 0x4F564358) ∨ getField (w 1) 3 61 ≠ 0 ∨ getField (w 2) 4 60 ≠ 0 ∨ getField (w 14) 1 62 ≠ 0 ∨
        getField (w 15) 32 32 ≠ 0 ∨ (img.drop 128).any (· != 0#8) then none
    else some ⟨(w 1).getLsbD 0, (w 1).getLsbD 1, (w 1).getLsbD 2, getField (w 2) 0 4, (w 4).toNat, t⟩

/-- The hart can hold an image of a layout: a raw one at its own lane groups, and vl within VLMAX of the saved type (R250). -/
def Hart.accepts (h : Hart) (l : Layout) : Bool :=
  (l.port || l.nlg == h.nlg) && decide (l.vl ≤ (l.vtype.map fun t => t.mul * h.vlen / t.sew).getD 0)

/-- The vector CSRs of an image. -/
def readCsrs (h : Hart) (img : List Byte) (l : Layout) : VecCsrs :=
  let w (i : Nat) : Word := wordAt img (8 * i)
  { h.vc with
    vl := l.vl, vtype := l.vtype, vlmax := (l.vtype.map fun t => t.mul * h.vlen / t.sew).getD 0
    vstart := getField (w 6) 0 36, vxflags := (w 7).setWidth 5, vrm := vrmOf (w 8), vseed := w 9, vlinkin := w 10, vlinkout := w 11,
    vstrip := w 12, shrunk := false, pwr := false, ceil := false, strip := h.vc.strip + 256 }

/-- The attachment as a restore leaves it: one that was kept in place has its planes; otherwise it is created anew, with LOST. -/
def restoredAtt (h : Hart) (shape : Word) (rows : Nat) (tiles : Vector Tile 4) : Attachment :=
  match h.attachment with
  | some a => if a.rows = rows then { a with tiles := tiles } else { Attachment.fresh rows shape with lost := true, tiles := tiles }
  | none => { Attachment.fresh rows shape with lost := true, tiles := tiles }

/-- The quad can grant rows to the selected hart, whose own are free for it (R250). -/
def State.grantsRows (s : State) (rows : Nat) : Bool :=
  decide (rows ≤ s.freeRows + (s.hart.attachment.map (·.rows)).getD 0) && !s.coreAttached

/-- The state with the matrix part of an image restored: an image with no attachment leaves the hart with none; none while the rows
cannot be granted. -/
def State.restoreAtt (s : State) (img : List Byte) (l : Layout) (count : Nat) : Option State :=
  if l.att then
    let (shape, rows, tiles) := readAtt img (l.attAt count)
    if s.grantsRows rows then
      some { s with hart := { s.hart with mshape := shape, attachment := some (restoredAtt s.hart shape rows tiles) } }
    else none
  else some (s.setAttachment none)

/-- The rows of an attachment section are rows that an attachment can have. -/
def rowsOk (img : List Byte) (l : Layout) (count : Nat) : Bool :=
  let rows := (readAtt img (l.attAt count)).2.1
  !l.att || (rows % 16 == 0 && decide (0 < rows) && decide (rows ≤ 128))

/-- The work that an image holds: both queues and the resume groups. -/
structure Work where
  vq : List QEntry
  mq : List QEntry
  groups : List GroupRecord
  deriving DecidableEq, Repr

/-- The work of an image; nothing where a record has a reserved bit set. -/
def readWork (h : Hart) (img : List Byte) (l : Layout) (count : Nat) : Option Work :=
  let order := l.streamsAt + 128 + 64
  let strips := l.streamsAt + 256 + 64
  let cur := h.vc.strip + 256
  if l.port then (if l.mqh then none else some ⟨[], [], []⟩)
  else
    match readQueue img l.queueAt 32 order strips h.seq cur,
        (if l.mqh then readQueue img (l.mqAt count) 16 (order + 32) (strips + 32) h.seq cur else some []), readGroups img l.resumeAt with
    | some vq, some mq, some groups => some ⟨vq, mq, groups⟩
    | _, _, _ => none

/-- The resume groups of an image with their members. -/
def Work.resume (w : Work) (area : List Byte) (word group vpc : Word) (t : VType) : List ResumeGroup :=
  w.groups.zipIdx.map fun p =>
    let g := p.1
    { num := g.num, block := g.block, vl := g.vl, log2vlen := getField word 24 5, vtype := t, mode := readMode (getField word 32 2),
      code := none, micros := readMembers area g.num g.vl g.block group, fault := g.fault
      overflow := if p.2 = 0 then readOverflow group vpc else none }

/-- The fault of a stopped matrix queue in three words of an image, with the PC of the entry that it stopped. -/
def readFault (w : Nat → Word) (pc : Word) : Option VecFault :=
  if (w 0).getLsbD 0 then
    some ⟨getField (w 0) 1 5, getField (w 0) 8 8, getField (w 0) 16 2, w 1, pc, (w 2).toNat, getField (w 0) 20 3, none,
      if (w 0).getLsbD 31 then some (getField (w 0) 28 3, getField (w 0) 23 5) else none, none, none⟩
  else none

/-- A queue whose head has the START with which it was issued, and the tags of its sources where it has begun as a run instruction. -/
def baseHead (q : List QEntry) (n : Nat) (tags : List (Option RunTag)) : List QEntry :=
  match q with
  | [] => []
  | e :: rest => { e with base := n, tags := tags } :: rest

/-- The hart with an image restored, its work held to resume at the next SRET. -/
def Hart.restored (h : Hart) (img area : List Byte) (l : Layout) (count : Nat) (work : Work) : Hart :=
  let word := wordAt img (l.streamsAt + 64)
  let t : VType := ((readType (word &&& 0x3FFFF#64)).bind id).getD ⟨.fp64, 0, 2, false, false, false, 0⟩
  let bar := wordAt img 112
  let spare (i : Nat) : Word := wordAt img (l.streamsAt + 64 + 8 * i)
  let trap := (spare 1).toNat
  let extra (i : Nat) : Word := if l.port then 0#64 else wordAt img (l.streamsAt + 3 * 128 + 64 + 8 * i)
  { h with
    vec := readVec img l h.vlen
    vc := readCsrs h img l
    arrival := if bar.getLsbD 63 then some (wordAt img 104, bar.getLsbD 0) else none
    streams := Vector.ofFn fun i : Fin 4 => readStream img (l.streamsAt + 128 * i) (extra (i + 1))
    ixt := (readIxt img l h.nlg count).1
    vq := baseHead work.vq (extra 0).toNat [readTag (spare 2), readTag (spare 3)]
    mq := work.mq
    resume := work.resume area word (spare 4) (spare 5) t
    links := readLinks area (area.length / 32)
    vheld := !l.port
    mheld := l.mqh
    vfault := none
    mfault := if l.mqh then readFault (fun i => extra (5 + i)) ((work.mq.head?.map (·.pc)).getD 0#64) else none
    reported := none
    sread := none
    copyTrap := if l.port then h.copyTrap else if trap = 0 then none else some (trap - 1)
    headWait := none
    chains := []
    round := none
    seq := h.seq + 64 }

/-- The restore of an image that has been read, with its resume element area. -/
def restoreImage (a : XReg) (s : State) (img area : List Byte) (l : Layout) (count : Nat) (work : Work) : Result :=
  match s.restoreAtt img l count with
  | none => .next s
  | some t =>
    let t := { t with hart := t.hart.restored img area l count work }
    if l.port then
      match storeSpan s.dataSpace 2 (s.x a + 120#64) (byteList 4 (readIxt img l s.hart.nlg count).2) t with
      | .trap cause va => .next (s.accessTrap cause va)
      | .wait => .next s
      | .ok t => .next t.advance
    else .next t.advance

/-- The state while a restore waits for work of the hart that is not held, or takes a pending fault; none when there is none. -/
def State.restorePoint (s : State) : Option State :=
  if s.hart.held then (if s.hart.mbusy then some s else none)
  else match s.takePending with
    | some s => some s
    | none => if s.hart.vbusy || s.hart.mbusy || s.hart.round.isSome then some s else none

/-- A span that has been loaded goes on. -/
def loaded (s : State) (r : Span (List Byte)) (act : List Byte → Result) : Result :=
  match r with
  | .trap cause va => .next (s.accessTrap cause va)
  | .wait => .next s
  | .ok bytes => act bytes

/-- The restore from the image at X[a]. An image whose PORT is not that of the instruction is illegal (notes/assumptions/26.md). -/
def restoreFrom (a : XReg) (port : Bool) (s : State) : Result :=
  let va := s.x a
  let illegal : Result := .next (s.illegal (.vctxrst a port))
  let load (n : Nat) : Span (List Byte) := loadSpan s s.dataSpace (pagesOf n) va n
  loaded s (load 256) fun head =>
    match readLayout head with
    | none => illegal
    | some l =>
      if l.port ≠ port ∨ !s.hart.accepts l then illegal
      else
        let counted := if l.port then l.ixtAt + 8 else l.ixtAt
        loaded s (load counted) fun img =>
          let count := if l.port then numAt img l.ixtAt 8 % 2 ^ 32 else 0
          loaded s (load (l.length count)) fun img =>
            match readWork s.hart img l count with
            | none => illegal
            | some work =>
              if !rowsOk img l count then illegal
              else
                let n := 32 * ((work.groups.head?.map (·.vl)).getD 0)
                loaded s (loadSpan s s.areaSpace (pagesOf n) s.hart.csr.sctxbase n) fun area =>
                  restoreImage a s img area l count work

/-- VCTXRST: privileged; an address that is not a multiple of 4 KiB is a misaligned load (notes/assumptions/26.md). -/
def execVctxrst (a : XReg) (port : Bool) (s : State) : Result :=
  if s.hart.mode = .u then .next (s.illegal (.vctxrst a port))
  else if (s.x a).toNat % 4096 ≠ 0 then .next (s.takeTrap causeLoadMisaligned (s.x a))
  else match s.restorePoint with
    | some s => .next s
    | none => restoreFrom a port s

end Sys2Proof.Machine
end

