-- ==== Sys2Proof/Machine/Grant.lean ====
section
/-!
DEFINITION. Grants (R141, R221 to R224, R266 to R268), the freeze point (R357), and squalls (R225 to R228).
-/

namespace Sys2Proof.Machine

/-! ## Limits of a grant (R222) -/

/-- The stream that a queued VSBIND will bind, by the control block that memory holds now; none where the VSBIND would fault (R139;
notes/assumptions/36.md). -/
def State.willBind (s : State) (e : QEntry) (d : VName) : Option Stream :=
  e.vtype.bind fun t =>
    if e.xa.toNat % 64 ≠ 0 then none
    else match translate s s.agent (s.entrySpace e) .load e.xa with
      | .ok pa _ =>
        if physAt s.bigMemory pa == .device || s.poisoned pa then none
        else scbOf (fun i => BitVec.ofNat 64 (Memory.readNum s.memory (pa + 8 * i) 8)) d.val t.mul
      | _ => none

/-- The registers that an entry will write itself. A run instruction and a matrix read-out write at vl = 0 too (notes/assumptions/40.md);
VXMOV writes one register, whatever vl is. -/
def QEntry.writes (e : QEntry) (f : VecFile) (t : VType) (i : Instr) : BitVec 32 :=
  match i with
  | .vxmov d _ _ => if e.vlmax t ≤ e.xb.toNat then 0#32 else groupSet 1 (d.val + e.xb.toNat / (e.vlen / t.sew))
  | .mrd .. | .mrdq .. | .vsortg .. | .vmergeg .. | .vmerge2 .. | .vmergeh .. | .visect .. | .vdiffk .. | .vuniq .. => f.destsOf e
  | _ => if e.acts i then f.destsOf e else 0#32

/-- Streams as an entry leaves them: those of its sources are popped, and a write of a register ends the bindings of its groups, but for
that of a pop to its own (R140, R142). -/
def QEntry.leaves (e : QEntry) (f : VecFile) (t : VType) (i : Instr) (st : Vector (Option Stream) 4) : Vector (Option Stream) 4 :=
  let srcs := (popSources t.mul i).map Fin.val
  let pops (b : Stream) : Bool := !e.popped && e.acts i && srcs.contains b.group
  let popped (n : Nat) : BitVec 32 := (List.finRange 4).foldl (fun set j => match st[j] with
    | some b => if j.val ≠ n ∧ pops b then set ||| e.popSet t b else set
    | none => set) 0#32
  st.mapFinIdx fun n b _ => b.bind fun b =>
    if groupSet b.regs b.group &&& (e.writes f t i ||| popped n) != 0#32 then none
    else some (if pops b then { b with pos := b.pos + min e.vl b.left } else b)

/-- The entries of both queues that have not completed, in program order. -/
def Hart.workInOrder (h : Hart) : List QEntry := (h.vwork ++ h.mq).foldr insertEntry []
where
  /-- A list in program order with an entry in its place. -/
  insertEntry (e : QEntry) : List QEntry → List QEntry
    | [] => [e]
    | o :: rest => if e.seq ≤ o.seq then e :: o :: rest else o :: insertEntry e rest

/-- The streams of the selected hart as the entries of its queues will leave them: what they bind, the strips that they pop, and
the bindings that they end (R141, R222). A VSBIND that will fault leaves them as they are. -/
def State.streamsAhead (s : State) : Vector (Option Stream) 4 :=
  s.hart.workInOrder.foldl
    (fun st e =>
      match decodeControl e.word, e.vtype with
      | some (.vsunbind slot), _ => st.set slot none
      | some (.vsbind d _ slot), some t =>
        match s.willBind e d with
        | some b => if boundElsewhere st slot t.mul d.val then st else st.set slot (some b)
        | none => st
      | some i, some t => e.leaves s.hart.vec t i st
      | _, _ => st) s.hart.streams

/-- S: the least number of elements left over the bound streams, none where no stream is bound (R141). -/
def State.streamLimit (s : State) : Option Nat := (s.streamsAhead.toList.filterMap (·.map Stream.left)).min?

/-- The least of a number and the limits that exist. -/
def limited (n : Nat) (limits : List (Option Nat)) : Nat := limits.foldl (fun n l => match l with | some m => min n m | none => n) n

/-- C: the VL ceiling of the start record, none where it is 0. -/
def Hart.ceiling (h : Hart) : Option Nat := if h.facts.ceil = 0 then none else some h.facts.ceil

/-- PB: the elements that the powered groups hold (R222, R268). -/
def State.powered (s : State) (t : VType) : Nat := s.pbg * groupBits * t.mul / t.sew

/-- VLMAX of the selected hart for a type. -/
def State.vlmaxOf (s : State) (t : VType) : Nat := t.mul * s.hart.vlen / t.sew

/-! ## Granting (R221, R222, R224) -/

/-- What a grant reports beside vl: whether PB and whether C limited it. -/
structure Granted where
  vtype : Option VType
  vl : Nat
  vlmax : Nat
  pwr : Bool
  ceil : Bool
  deriving DecidableEq, Repr

/-- The hart after a grant: the next strip interval begins. -/
def Hart.granted (h : Hart) (d : XReg) (shrunk : Bool) (g : Granted) : Hart :=
  let vc := { h.vc with
    vtype := g.vtype, vl := g.vl, vlmax := g.vlmax, shrunk := shrunk, pwr := g.pwr, ceil := g.ceil, strip := h.vc.strip + 1 }
  { h with vc := vc }.setX d (BitVec.ofNat 64 g.vl)

/-- An illegal grant (R221). -/
def Granted.illegal : Granted := ⟨none, 0, 0, false, false⟩

/-- The freeze point (R357): a hart that is asked to freeze, and holds few enough lane groups, waits as `vdrain.m` does and for the
matrix queue, then sets FROZEN and raises supervisor interrupt 16. None: the grant goes on. -/
def freezePoint (s : State) : Option State :=
  let h := s.hart
  if h.freezeReq && !h.held && (h.freezeMax == 0#4 || decide (h.nlg ≤ h.freezeMax.toNat)) then
    if h.frozen then some s
    else match syncPoint s (s.draining true || h.mbusy) with
      | some s => some s
      | none => some { s with hart := { h with frozen := true, csr := { h.csr with mip := putField h.csr.mip 16 1 1 } } }
  else none

/-- A GRANT of the family: the freeze point; the lane changes (R222, step 1); then what `grant` makes of the state. -/
def grantBy (s : State) (d : XReg) (grant : State → State × Granted) : Result :=
  match freezePoint s with
  | some s => .next s
  | none =>
    let before := s.hart.nlg
    let (s, g) := grant s.applyLanes
    .next { s with hart := s.hart.granted d (decide (s.hart.nlg < before)) g }.advance

/-- A legal grant of an AVL (R222): `more` is a further limit. -/
def State.grantAvl (s : State) (t : VType) (avl : Nat) (more : Option Nat) : Granted :=
  let vlmax := s.vlmaxOf t
  let pb := s.powered t
  let m := min avl vlmax
  { vtype := some { t with sh := false, rlog := 0 }
    vl := limited m [some pb, s.hart.ceiling, s.streamLimit, more]
    vlmax := vlmax
    pwr := decide (pb < m)
    ceil := match s.hart.ceiling with
      | some c => decide (c < m)
      | none => false }

/-- The type that a register asks for (R221): bits 63 to 12 must be 0. -/
def requestedType (w : Word) : Option VType := if w.toNat < 4096 then VType.ofWord w else none

/-- A grant of a requested type. -/
def grantType (s : State) (d : XReg) (w : Word) (avl : Nat) : Result :=
  grantBy s d fun s => (s, match requestedType w with
    | none => Granted.illegal
    | some t => s.grantAvl t avl none)

/-- VSETL. -/
def execVsetl (d a b : XReg) (s : State) : Result := grantType s d (s.x b) (s.x a).toNat

/-- The type of a VSETLI immediate (R79): BL 5, and one bit for both policies. -/
def immediateType (imm : BitVec 9) : Word :=
  let both := (imm.getLsbD 8).toNat
  BitVec.ofNat 64 (imm.toNat % 256 + 2 * 256 + both * 1024 + both * 2048)

/-- VSETLI. -/
def execVsetli (d a : XReg) (imm : BitVec 9) (s : State) : Result := grantType s d (immediateType imm) (s.x a).toNat

/-- The shape that requests get under a limit: vl and log2 of the row length (R223). Under a limit of 0, as of a stream that is exhausted, no
power of two fits, and the grant gives vl 0 with SH 1 and RLOG 0, as for a request of 0 (DESIGN CHOICE, notes/assumptions/45.md: R223 states no
shape there). -/
def shaped2d (rows len limit : Nat) : Nat × Nat :=
  if rows = 0 ∨ len = 0 ∨ limit = 0 then (0, 0)
  else
    let rl := floorPow2 (min len limit)
    (floorPow2 (min rows (limit / rl)) * rl, Nat.log2 rl)

/-- A two-dimensional grant (R223). -/
def State.grantShape (s : State) (rows len : Nat) : Granted :=
  match s.hart.vc.vtype with
  | none => Granted.illegal
  | some t =>
    let vlmax := s.vlmaxOf t
    let pb := some (s.powered t)
    let c := s.hart.ceiling
    let streams := s.streamLimit
    let g := shaped2d rows len (limited vlmax [pb, c, streams])
    { vtype := some { t with sh := true, rlog := Fin.ofNat 32 g.2 }
      vl := g.1
      vlmax := vlmax
      pwr := decide (g.1 < (shaped2d rows len (limited vlmax [c, streams])).1)
      ceil := decide (g.1 < (shaped2d rows len (limited vlmax [pb, streams])).1) }

/-- VSETSH. -/
def execVsetsh (d a b : XReg) (s : State) : Result :=
  grantBy s d fun s => (s, s.grantShape (s.x a).toNat (s.x b).toNat)

/-! ## Squalls (R225 to R228) -/

/-- The address space of the selected hart. -/
def State.asid (s : State) : BitVec 16 := s.hart.csr.satp.extractLsb' 44 16

/-- A slot of the squall tables: 32 for each cluster. -/
def State.squallSlot (s : State) (i : Nat) : SquallSlot := Store.get SquallSlot.reset s.squalls i

/-- The state with a slot of the squall tables at a value. -/
def State.setSquall (s : State) (i : Nat) (v : SquallSlot) : State := { s with squalls := Store.put SquallSlot.reset s.squalls i v }

/-- The handle of a slot and a generation (R226). -/
def squallHandle (i : Nat) (gen : BitVec 32) : Word := BitVec.ofNat 64 (gen.toNat * 2 ^ 9 + i)

/-- The slot that a handle names for an ASID, where it holds a live squall of the handle's generation (R227). -/
def State.liveSquall (s : State) (w : Word) (asid : BitVec 16) : Option (Nat × SquallSlot × Squall) :=
  let i := getField w 0 9
  let slot := s.squallSlot i
  match slot.squall with
  | none => none
  | some q => if w.toNat < 2 ^ 41 ∧ slot.gen = w.extractLsb' 9 32 ∧ q.asid = asid then some (i, slot, q) else none

/-- A descriptor read as 64 bytes: the squall, or none where a reserved bit is set (R225). -/
def squallOf (w : Nat → Word) (asid : BitVec 16) (launch : Option Nat) : Option Squall :=
  if getField (w 2) 32 32 ≠ 0 ∨ w 3 ≠ 0#64 ∨ w 4 ≠ 0#64 ∨ w 5 ≠ 0#64 ∨ w 6 ≠ 0#64 ∨ w 7 ≠ 0#64 then none
  else some ⟨w 0, (w 1).toNat, getField (w 2) 0 32, 0, asid, launch⟩

/-- The first free slot of a cluster's table. -/
def State.freeSquall (s : State) (cluster : Nat) : Option Nat :=
  ((List.range 32).map (32 * cluster + ·)).find? fun i => (s.squallSlot i).squall.isNone

/-- The state with a squall created in a cluster's table, and its handle; none where the table is full. -/
def State.declare (s : State) (cluster : Nat) (q : Squall) : Option (Word × State) :=
  (s.freeSquall cluster).map fun i =>
    let slot := s.squallSlot i
    (squallHandle i slot.gen, s.setSquall i { slot with squall := some q })

/-- The state with a slot freed: its generation advances. -/
def State.freeSlot (s : State) (i : Nat) : State := s.setSquall i ⟨(s.squallSlot i).gen + 1#32, none⟩

/-- The eight words at a physical address. -/
def controlBlock (s : State) (pa : Nat) (i : Nat) : Word := BitVec.ofNat 64 (Memory.readNum s.memory (pa + 8 * i) 8)

/-- SQDECL (R226). A squall table that is not ready is an access fault (R388; notes/assumptions/43.md). -/
def execSqdecl (d a : XReg) (s : State) : Result :=
  let va := s.x a
  let answer (s : State) (v : Word) : Result := .next (s.setX d v).advance
  if !s.engineReady (clusterOf s.hartId) then .next (s.takeTrap causeLoadAccess va)
  else if va.toNat % 64 ≠ 0 then answer s (-2#64)
  else match scalarPlace s va 64 .load true with
    | .trap cause => .next (s.accessTrap cause va)
    | .wait => .next s
    | .ok pa _ =>
      match squallOf (controlBlock s pa) s.asid none with
      | none => answer s (-2#64)
      | some q =>
        match s.declare (clusterOf s.hartId) q with
        | none => answer s (-1#64)
        | some (handle, s) => answer s handle

/-- SQEND (R228). A squall table that is not ready is an access fault, as for SQDECL. -/
def execSqend (a : XReg) (s : State) : Result :=
  if !s.engineReady (clusterOf s.hartId) then .next (s.takeTrap causeLoadAccess (s.x a))
  else match s.liveSquall (s.x a) s.asid with
  | some (i, _, _) => .next (if i / 32 = clusterOf s.hartId then s.freeSlot i else s).advance
  | none => .next s.advance

/-- The hand-out of a strip (R227). `vstrip` becomes FIRST + taken, which is FIRST + COUNT where no iteration is left; so too where
vl is 0 for another limit, such as a stream that is exhausted (DESIGN CHOICE: the rule's comment says FIRST + COUNT of every vl of 0;
notes/assumptions/36.md). -/
def State.handOut (s : State) (t : VType) (w : Word) : State × Granted :=
  match s.liveSquall w s.asid with
  | none => (s, s.grantAvl t 0 none)
  | some (i, slot, q) =>
    if i / 32 ≠ clusterOf s.hartId then (s, s.grantAvl t 0 none)
    else
      let g := s.grantAvl t (q.count - q.taken) (if q.stripMax = 0 then none else some q.stripMax)
      let s := s.setSquall i { slot with squall := some { q with taken := q.taken + g.vl } }
      let vc := { s.hart.vc with vstrip := q.first + BitVec.ofNat 64 q.taken }
      ({ s with hart := { s.hart with vc := vc } }, g)

/-- VSETLQ. A legal request of a squall table that is not ready is an access fault, as for SQDECL (R388). -/
def execVsetlq (d a b : XReg) (s : State) : Result :=
  let handle := s.x a
  match requestedType (s.x b) with
  | none => grantBy s d fun s => (s, Granted.illegal)
  | some t =>
    if !s.engineReady (clusterOf s.hartId) then .next (s.takeTrap causeLoadAccess handle)
    else grantBy s d fun s => s.handOut t handle

end Sys2Proof.Machine
end

