-- ==== Sys2Proof/Machine/Launch.lean ====
section
/-!
DEFINITION. Launches (R244 to R246, R304 to R316, R372, R374, R401): LAUNCH and LSTAT, the dispatcher, lane reclaim, and the discard
of a queue.
-/

namespace Sys2Proof.Machine

/-! ## The start record (R244) -/

/-- The fields of a start record, and the words that must be 0. -/
structure StartRecord where
  entry : Word
  arg : Word
  ceil : Nat
  lgpref : Nat
  lgmin : Nat
  harts : Nat
  asid : BitVec 16
  spb : Nat
  tcmb : Nat
  sqd : Word
  bar : Word
  clean : Bool
  deriving DecidableEq, Repr

/-- A start record from its words. -/
def StartRecord.ofWords (w : Nat → Word) : StartRecord where
  entry := w 0
  arg := w 1
  ceil := getField (w 2) 32 32
  lgpref := getField (w 2) 24 4
  lgmin := getField (w 2) 20 4
  harts := getField (w 2) 16 4
  asid := (w 2).extractLsb' 0 16
  spb := getField (w 3) 32 32
  tcmb := getField (w 3) 0 32
  sqd := w 4
  bar := w 5
  clean := getField (w 2) 28 4 == 0 && w 6 == 0#64 && w 7 == 0#64

/-- The record that a queue holds. -/
def LqRecord.start (r : LqRecord) : StartRecord := .ofWords fun i => r.words.getD i 0#64

/-- A number of lane groups that a record may name. -/
def lanesOk (n : Nat) : Bool := n == 1 || n == 2 || n == 4 || n == 8

/-- The first of STATUS 2 to 6 that holds for a record, where a core has at most `lanes` enabled lane groups; none where no one
does (R245). -/
def StartRecord.refused (r : StartRecord) (lanes : Nat) : Option Nat :=
  if !r.clean || r.entry.toNat % 4 != 0 || !lanesOk r.lgmin || !lanesOk r.lgpref || r.lgpref < r.lgmin then some 2
  else if r.harts = 0 ∨ 8 < r.harts then some 3
  else if 8 < r.harts * r.lgmin ∨ lanes < r.harts * r.lgmin then some 4
  else if 262144 < r.tcmb then some 5
  else if 16777216 < r.spb then some 6
  else none

/-- The most enabled lane groups of any core of the device. -/
def State.mostLanes (s : State) : Nat := (List.range 512).foldl (fun n c => max n (8 - (s.core c).disabled.length)) 0

/-! ## The address-space table (R401) -/

/-- The physical address of an entry. -/
def State.astEntry (s : State) (asid : BitVec 16) : Nat := s.astbase.toNat + 32 * asid.toNat

/-- The entry of an ASID is to be read later: its page is being moved, or a link on the way is retraining. -/
def State.addressSpaceWaits (s : State) (a : Agent) (asid : BitVec 16) : Bool :=
  s.refusesMoved (s.astEntry asid) || s.routeTo a (physAt s.bigMemory (s.astEntry asid)) == .waits

/-- The words of the entry of an ASID, where an agent can read it and it is valid: an entry that cannot be read, as one in a poisoned
line, counts as not valid (DEDUCED, notes/assumptions/41.md: R401 speaks of valid and invalid entries alone). -/
def State.addressSpace (s : State) (a : Agent) (asid : BitVec 16) : Option (Nat → Word) :=
  let pa := s.astEntry asid
  let p := physAt s.bigMemory pa
  let w := controlBlock s pa
  let readable := reaches a p && s.memoryReady pa && s.routeTo a p == .open' && !s.poisoned pa
  if readable && getField (w 0) 60 4 == 9 && (w 0).extractLsb' 44 16 == asid then some w else none

/-! ## Queues -/

/-- A ticket (R308). -/
def ticketOf (queue seq : Nat) : Nat := queue * 2 ^ 50 + seq

/-- The sequence number after one: 50 bits, and never 0 (R308). -/
def nextSeqOf (seq : Nat) : Nat := if seq + 1 < 2 ^ 50 then seq + 1 else 1

/-- The queue with a record accepted: its ticket is among the most recent 4,096 (R246, R308). -/
def LaunchQueue.accept (q : LaunchQueue) (words : Vector Word 8) (sender : Option (BitVec 21 × BitVec 16)) : LaunchQueue :=
  { q with
    nextSeq := nextSeqOf q.nextSeq
    records := q.records ++ [⟨q.nextSeq, words, sender⟩]
    tickets := (⟨q.nextSeq, 1, 0, 0⟩ :: q.tickets).take 4096 }

/-- The queue with the ticket of a sequence number changed. -/
def LaunchQueue.mark (q : LaunchQueue) (seq : Nat) (f : Ticket → Ticket) : LaunchQueue :=
  { q with tickets := q.tickets.map fun t => if t.seq = seq then f t else t }

/-- The queue accepts a LAUNCH of the issuer (R305): one by a hart in S or M mode needs ENABLE alone. -/
def LaunchQueue.admits (q : LaunchQueue) (h : Hart) : Bool :=
  q.enable && (if h.app then q.appc else h.mode != .u || q.umode)

/-! ## Remote records (R372, R374) -/

/-- The records of a sender in a queue. -/
def State.senderRecords (s : State) (queue : Nat) (dev : BitVec 21) (asid : BitVec 16) : Nat :=
  ((s.queue queue).records.filter fun r => r.sender == some (dev, asid)).length

/-- The slots of a queue that are reserved for a sender. -/
def State.senderSlots (s : State) (queue : Nat) (dev : BitVec 21) (asid : BitVec 16) : Nat :=
  ((s.remote.reserved.filter fun r => r.queue == queue && r.dev == dev && r.asid == asid).map (·.count)).sum

/-- A permit entry is valid, and is for a target device, a target queue and an ASID (R373). -/
def Permit.matches (p : Permit) (dev : BitVec 21) (queue : Nat) (asid : BitVec 16) : Bool :=
  p.head.getLsbD 63 && p.head.extractLsb' 0 21 == dev && getField p.head 21 6 == queue && p.head.extractLsb' 27 16 == asid

/-- The first entry for a target device, a target queue and an ASID. -/
def State.permitFor (s : State) (dev : BitVec 21) (queue : Nat) (asid : BitVec 16) : Option (Nat × Permit) :=
  s.remote.permits.find? fun p => p.2.matches dev queue asid

/-- The first such entry that holds a permit (R372). -/
def State.permitHeld (s : State) (dev : BitVec 21) (queue : Nat) (asid : BitVec 16) : Option (Nat × Permit) :=
  s.remote.permits.find? fun p => p.2.matches dev queue asid && p.2.count != 0#16

/-- The state with permits added to the entry that matches, whose COUNT of 16 bits stays at its highest value where they exceed it (DESIGN
CHOICE, notes/assumptions/17.md: a queue has 1,024 slots, so that no receiver grants as many); none where there is no entry. -/
def State.addPermits (s : State) (dev : BitVec 21) (queue : Nat) (asid : BitVec 16) (n : Nat) : Option State :=
  (s.permitFor dev queue asid).map fun p => s.setPermit p.1 { p.2 with count := BitVec.ofNat 16 (min (p.2.count.toNat + n) 0xFFFF) }

/-- The state in which a permit returns to the sender of a record, which may be this package. -/
def State.returnPermit (s : State) (dev : BitVec 21) (queue : Nat) (asid : BitVec 16) : State :=
  if dev = s.remote.devnum then (s.addPermits dev queue asid 1).getD s
  else
    let s' := s.send (.permitBack s.remote.nextReq dev queue asid)
    { s' with remote := { s'.remote with nextReq := s'.remote.nextReq + 1 } }

/-- A remote record arrives (R372, R374): a queue that does not accept it discards it and the permit returns; a record for which its
sender has no free slot is discarded. -/
def State.receiveRecord (s : State) (dev : BitVec 21) (queue : Nat) (asid : BitVec 16) (words : Vector Word 8) : State :=
  let q := s.queue queue
  if !(q.enable && q.remote) then s.returnPermit dev queue asid
  else if s.senderRecords queue dev asid < s.senderSlots queue dev asid then s.setQueue queue (q.accept words (some (dev, asid)))
  else s

/-! ## LAUNCH (R244, R245, R372) -/

/-- A refused LAUNCH: a ticket of 0 and the status. -/
def refuseLaunch (s : State) (d : XReg) (status : Nat) : Result := .next (s.setX d (BitVec.ofNat 64 status)).advance

/-- A remote LAUNCH of a record: it consumes a permit, and the record is sent, or arrives here when the device is this one. Its
ticket is not 0 and has sequence number 0, so that LSTAT reads STATE 0. The record crosses to the remote agent: with no route there LAUNCH
takes the load access-fault exception at the record's address, which is logged, and over a link that is retraining it waits (R363, R382;
notes/assumptions/17.md). -/
def launchRemote (s : State) (d : XReg) (va : Word) (dev : BitVec 21) (queue : Nat) (words : Vector Word 8) : Result :=
  match s.routeToRemote s.agent with
  | .none => .next ((s.noteNoRoute (placeBits s.hartId 0)).takeTrap causeLoadAccess va)
  | .waits => .next s
  | .open' => match s.permitHeld dev queue s.asid with
  | none => refuseLaunch s d 9
  | some (i, p) =>
    let ticket := ticketOf ((Config.remoteTicket s.free).val + 1) 0
    let s := { s.setPermit i { p with count := p.count - 1#16 } with free := s.free + 1 }
    let s := if dev = s.remote.devnum then s.receiveRecord dev queue s.asid words
      else
        let s' := s.send (.launch s.remote.nextReq dev queue s.asid words)
        { s' with remote := { s'.remote with nextReq := s'.remote.nextReq + 1 } }
    .next (s.setX d (BitVec.ofNat 64 (ticket * 256))).advance

/-- A LAUNCH on a queue of this package, for a record that STATUS 2 to 6 do not refuse. -/
def launchLocal (s : State) (d : XReg) (queue : Nat) (r : StartRecord) (words : Vector Word 8) : Result :=
  let q := s.queue queue
  if 1024 ≤ q.records.length ∨ s.freeSlots queue = 0 then refuseLaunch s d 7
  else if !s.queueReady q then refuseLaunch s d 8
  else if s.addressSpaceWaits s.agent r.asid then .next s
  else if (s.addressSpace s.agent r.asid).isNone then refuseLaunch (s.noteLine (placeBits s.hartId 0) (s.astEntry r.asid)) d 10
  else
    .next ((s.setQueue queue (q.accept words none)).setX d (BitVec.ofNat 64 (ticketOf queue q.nextSeq * 256))).advance

/-- LAUNCH with the record at an address read, or none where that is not a multiple of 64. -/
def launchRecord (s : State) (d : XReg) (va w : Word) (words : Option (Vector Word 8)) : Result :=
  let queue := getField w 0 6
  let remote := w.getLsbD 27
  let reserved := if remote then w.toNat / 2 ^ 28 else w.toNat / 2 ^ 6
  if reserved ≠ 0 ∨ (!remote && !(s.queue queue).admits s.hart) then refuseLaunch s d 1
  else match words with
    | none => refuseLaunch s d 2
    | some words =>
      let r := StartRecord.ofWords fun i => words.getD i 0#64
      match r.refused (if remote then 8 else s.mostLanes) with
      | some status => refuseLaunch s d status
      | none => if remote then launchRemote s d va (w.extractLsb' 6 21) queue words else launchLocal s d queue r words

/-- LAUNCH. -/
def execLaunch (d a b : XReg) (s : State) : Result :=
  let va := s.x a
  if va.toNat % 64 ≠ 0 then launchRecord s d va (s.x b) none
  else match scalarPlace s va 64 .load true with
    | .trap cause => .next (s.accessTrap cause va)
    | .wait => .next s
    | .ok pa _ => launchRecord s d va (s.x b) (some (Vector.ofFn fun i => controlBlock s pa i.val))

/-- LSTAT (R246). -/
def execLstat (d a : XReg) (s : State) : Result :=
  let w := s.x a
  let v := match (s.queue (getField w 50 6)).tickets.find? fun t => t.seq == getField w 0 50 with
    | some t => if w.toNat < 2 ^ 56 then t.exited % 16 * 4096 + t.started % 16 * 256 + t.state else 0
    | none => 0
  .next (s.setX d (BitVec.ofNat 64 v)).advance

/-! ## Eligible cores (R312, R313) -/

/-- A size rounded up to 4 KiB. -/
def pageRound (n : Nat) : Nat := (n + 4095) / 4096 * 4096

/-- The lowest free offset for a size among reservations below a limit; none where there is no room. -/
def placeIn (taken : List (Nat × Nat)) (size limit : Nat) : Option Nat :=
  if size = 0 then some 0
  else
    let fits (off : Nat) : Bool := decide (off + size ≤ limit) && taken.all fun t => decide (off + size ≤ t.1) || decide (t.1 + t.2 ≤ off)
    ((0 :: taken.map fun t => t.1 + t.2).filter fits).min?

/-- What a core offers a record: its lane groups, its hart numbers, and the places of the reservations. -/
structure Offer where
  core : Nat
  groups : List Nat
  numbers : List Nat
  tcm : Nat
  scratch : Nat
  deriving DecidableEq, Repr

/-- What a core offers the head record of a queue, its lane groups aside: none where it is not ready, or lacks hart numbers, TCM or
scratchpad. -/
def State.offer (s : State) (core queue : Nat) (r : StartRecord) : Option Offer :=
  let tcm := (s.launches.filter fun l => l.core == core).map (·.tcm)
  let scratch := (s.launches.filter fun l => l.core / 32 == core / 32).map (·.scratch)
  let own := ((s.core core).reclaims.filter (·.queue == queue)).flatMap (·.groups)
  match placeIn tcm (pageRound r.tcmb) 0x40000, placeIn scratch (pageRound r.spb) 0x1000000 with
  | some t, some p =>
    if s.coreReady core && (s.dieWord (core / 128)).getLsbD 50 && decide (r.harts ≤ (s.freeNumbers core).length) then
      some ⟨core, ascending (s.freeGroups core ++ own), s.freeNumbers core, t, p⟩
    else none
  | _, _ => none

/-- The core chosen by a reclaim for the head record of a queue, while the queue's dispatch set holds it (R309, R315). -/
def State.chosen (s : State) (queue : Nat) : Option Nat :=
  (s.cores.find? fun p => (s.queue queue).serves p.1 && p.2.reclaims.any (·.queue == queue)).map (·.1)

/-- The offer that has the most lane groups; the first of equals. -/
def bestOffer : List Offer → Option Offer
  | [] => none
  | o :: rest =>
    match bestOffer rest with
    | none => some o
    | some b => if o.groups.length < b.groups.length then some b else some o

/-- The groups that a reclaim frees on a core for the head record of a queue have passed (R315). -/
def State.passed (s : State) (queue core : Nat) : Bool := (s.core core).reclaims.all fun r => r.queue != queue || r.due.isEmpty

/-- The eligible core that the head record of a queue goes to (R312): the one that a reclaim has chosen, where one has, once the groups that it
frees have passed (R315). -/
def State.eligible (s : State) (queue : Nat) (r : StartRecord) : Option Offer :=
  let cores := match s.chosen queue with
    | some c => if s.passed queue c then [c] else []
    | none => (s.queue queue).dispatchSet
  bestOffer ((cores.filterMap fun c => s.offer c queue r).filter fun o => decide (r.harts * r.lgmin ≤ o.groups.length))

/-! ## The squall of a launch (R245) -/

/-- The space in which the dispatcher acts for a launch on a core. -/
def launchSpace (w : Nat → Word) (core : Nat) : Space := ⟨w 0, .u, false, false, (w 3).extractLsb' 0 5, core⟩

/-- The squall that a record declares: the handle or refusal in a2, with the state, in which a poisoned line is logged (R382); none where
the record must wait. A squall table of the core's cluster that is not ready gives −3, as a descriptor that cannot be read does (DESIGN CHOICE,
notes/assumptions/45.md: R245 and R388 state no answer for it). -/
def State.launchSquall (s : State) (r : StartRecord) (sp : Space) (id : Nat) : Option (Word × State) :=
  if r.sqd = 0#64 then some (0#64, s)
  else if r.sqd.toNat % 64 ≠ 0 then some (-2#64, s)
  else match translate s (.dispatcher (sp.core / 128)) sp .load r.sqd with
    | .page => some (-3#64, s)
    | .access line => some (-3#64, (line.map (s.noteData (sp.core / 128 * 2 ^ 28))).getD s)
    | .moved => none
    | .ok pa _ =>
      if physAt s.bigMemory pa = .device ∨ s.poisoned pa ∨ s.engineReady (sp.core / 32) = false then
        some (-3#64, s.noteLine (sp.core / 128 * 2 ^ 28) pa)
      else match squallOf (controlBlock s pa) r.asid (some id) with
        | none => some (-2#64, s)
        | some q => s.declare (sp.core / 32) q

/-! ## Hart start (R66, R245, R313, R401) -/

/-- The CSRs of a starting hart: the four of its address-space entry, every other supervisor CSR at its reset value. -/
def Csrs.start (c : Csrs) (w : Nat → Word) : Csrs :=
  let r := Csrs.reset
  { c with
    mstatus := (c.mstatus &&& ~~~0xC0122#64) ||| (r.mstatus &&& 0xC0122#64)
    mie := c.mie &&& ~~~c.mideleg
    mip := c.mip &&& ~~~c.mideleg
    stvec := w 1
    sscratch := w 2
    sepc := r.sepc
    scause := r.scause
    stval := r.stval
    satp := w 0
    scounteren := r.scounteren
    senvcfg := r.senvcfg
    svtrap0 := r.svtrap0
    svtrap1 := r.svtrap1
    svtrap2 := r.svtrap2
    svtrap3 := r.svtrap3
    sctxbase := r.sctxbase
    swindow := (w 3).extractLsb' 0 5 }

/-- A hart as it starts: in U-mode at ENTRY, with its arguments, its lane groups and the facts of its record. -/
def Hart.start (h : Hart) (r : StartRecord) (w : Nat → Word) (index launch prio : Nat) (groups : List Nat) (handle : Word) : Hart :=
  let h' := { Hart.reset with
    live := true
    mode := .u
    pc := r.entry
    csr := h.csr.start w
    facts := ⟨some launch, r.asid, r.ceil, r.lgmin, r.lgpref, prio⟩
    freezeReq := h.freezeReq
    freezeMax := h.freezeMax
    lanes := ⟨groups, [], [], []⟩ }
  ((h'.setX 10 r.arg).setX 11 (BitVec.ofNat 64 index)).setX 12 handle

/-- The state with the harts of a launch started, from a hart index on. -/
def State.startHarts (s : State) (r : StartRecord) (w : Nat → Word) (o : Offer) (p launch prio : Nat) (handle : Word) : State :=
  (List.range r.harts).foldl
    (fun s i =>
      let id := 8 * o.core + o.numbers.getD i 0
      s.setHart id ((s.getHart id).start r w i launch prio ((o.groups.drop (i * p)).take p) handle)) s

/-! ## DISPATCH (R310 to R313, R401) -/

/-- The queues that hold records, in the order in which the dispatcher of a die takes them (R311): by priority, and round robin after the
queue it served last; queue 0 comes first after reset (notes/assumptions/4.md). -/
def State.queueOrder (s : State) (die : Nat) : List Nat :=
  let from' := (List.range 64).map fun i => (Store.get 63 s.lastQueue die + 1 + i) % 64
  ([3, 2, 1, 0].flatMap fun p => from'.filter fun q => (s.queue q).prio.val == p).filter fun q => !(s.queue q).records.isEmpty

/-- The state without the head record of a queue: what was reclaimed for it is no longer reserved, and for a record from another
package a permit returns, its slot staying reserved (R374). -/
def State.popRecord (s : State) (queue : Nat) (r : LqRecord) : State :=
  let q := s.queue queue
  let s := s.setQueue queue { q with records := q.records.tail, flush := q.flush.map (· - 1) }
  let owners := (s.cores.filter fun p => p.2.reclaims.any (·.queue == queue)).map (·.1)
  let s := owners.foldl (fun s c => s.setCore c { s.core c with reclaims := (s.core c).reclaims.filter (·.queue != queue) }) s
  match r.sender with
  | some (dev, asid) => s.returnPermit dev queue asid
  | none => s

/-- The state after the head record of a queue is discarded without starting a hart (R401). -/
def State.discardHead (s : State) (queue : Nat) (rec : LqRecord) : State :=
  let s := s.popRecord queue rec
  s.setQueue queue ((s.queue queue).mark rec.seq fun t => { t with state := 3 })

/-- The head record of a queue dispatched by the dispatcher of a die, where it goes to a core of the die. `lost` names a read of it whose
flit has failed its parity (R380): that of its address-space entry (false), or of its squall's control block (true). -/
def State.dispatchHead (s : State) (die queue : Nat) (lost : Option Bool) : Option State :=
  (s.queue queue).records.head?.bind fun rec =>
    let r := rec.start
    (s.eligible queue r).bind fun o =>
      let served (s : State) : State := { s with lastQueue := Store.put 63 s.lastQueue die queue }
      if o.core / 128 ≠ die ∨ s.addressSpaceWaits (.dispatcher die) r.asid = true then none
      else match (if lost = some false then none else s.addressSpace (.dispatcher die) r.asid) with
        | none => some (served ((s.noteLine (die * 2 ^ 28) (s.astEntry r.asid)).discardHead queue rec))
        | some w =>
          let sp := launchSpace w o.core
          let squall := if lost ≠ some true then s.launchSquall r sp s.nextLaunch
            else if r.sqd = 0#64 then none else some (-3#64, s)
          squall.map fun sq =>
            let p := lanesEach r.harts r.lgpref o.groups.length
            let s := sq.2.popRecord queue rec
            let q := s.queue queue
            let ids := (List.range r.harts).map fun i => 8 * o.core + o.numbers.getD i 0
            let l : Launch := ⟨s.nextLaunch, queue, rec.seq, o.core, ids, (o.tcm, pageRound r.tcmb), (o.scratch, pageRound r.spb),
              if sq.1.getLsbD 63 || r.sqd == 0#64 then none else some sq.1, r.bar, sp⟩
            let s := s.startHarts r w o p s.nextLaunch q.prio.val sq.1
            let s := s.setQueue queue (q.mark rec.seq fun t => { t with state := 2, started := r.harts })
            served { s with launches := s.launches ++ [l], nextLaunch := s.nextLaunch + 1 }

/-- The first queue, in the order of the dispatcher of the lowest die that can serve one, whose head record can be dispatched, with the
state after that. -/
def State.dispatched (s : State) : Option State := [0, 1, 2, 3].findSome? fun d => (s.queueOrder d).findSome? fun q => s.dispatchHead d q none

/-- DISPATCH. -/
def execDispatch (s : State) : Result := .next (s.dispatched.getD s)

/-! ## LANE_RECLAIM (R315) -/

/-- A hart that a reclaim considers: its number, its priority, the lane groups that it will hold, and its LGMIN. -/
structure Victim where
  id : Nat
  prio : Nat
  lanes : Nat
  lgmin : Nat
  deriving DecidableEq, Repr

/-- The order in which harts are halved: lowest priority, then most groups, then highest hart number. -/
def Victim.before (a b : Victim) : Bool :=
  decide (a.prio < b.prio) || (a.prio == b.prio && (decide (b.lanes < a.lanes) || (a.lanes == b.lanes && decide (b.id ≤ a.id))))

/-- Victims in that order. -/
def sortVictims (vs : List Victim) : List Victim := vs.foldr place []
where
  /-- A victim put in its place. -/
  place (v : Victim) : List Victim → List Victim
    | [] => [v]
    | w :: ws => if v.before w then v :: w :: ws else w :: place v ws

/-- One round of halvings, in order, until `need` groups are available, none below its LGMIN: the victims after it, the groups available, and how many
halvings were made. -/
def halveRound (need : Nat) : List Victim → Nat → List Victim × Nat × Nat
  | [], avail => ([], avail, 0)
  | v :: vs, avail =>
    if need ≤ avail ∨ v.lanes / 2 < max 1 v.lgmin then
      let r := halveRound need vs avail
      (v :: r.1, r.2)
    else
      let r := halveRound need vs (avail + (v.lanes - v.lanes / 2))
      ({ v with lanes := v.lanes / 2 } :: r.1, r.2.1, r.2.2 + 1)

/-- The halvings that make a core eligible: at most three rounds, since a hart holds at most eight groups. -/
def halvings (need : Nat) : Nat → List Victim → Nat → List Victim × Nat × Nat
  | 0, vs, avail => (vs, avail, 0)
  | n + 1, vs, avail =>
    if need ≤ avail then (vs, avail, 0)
    else
      let r := halveRound need (sortVictims vs) avail
      let t := halvings need n r.1 r.2.1
      (t.1, t.2.1, t.2.2 + r.2.2)

/-- A reclaim of a core: the victims with the lane groups they keep, and its halvings. -/
structure ReclaimPlan where
  core : Nat
  victims : List Victim
  halvings : Nat
  deriving DecidableEq, Repr

/-- The reclaim that would make a core eligible for the head record of a queue; none where there is none. -/
def State.planOn (s : State) (queue : Nat) (r : StartRecord) (core : Nat) : Option ReclaimPlan :=
  (s.offer core queue r).bind fun o =>
    let need := r.harts * r.lgmin
    let avail := o.groups.length + (s.leavingGroups core).length
    let harts := (s.coreHarts core).filter fun p => decide (p.2.facts.prio ≤ (s.queue queue).prio.val)
    let vs := harts.map fun p => (⟨p.1, p.2.facts.prio, p.2.lanes.held.length - p.2.lanes.lose.length, p.2.facts.lgmin⟩ : Victim)
    let t := halvings need 3 vs avail
    if need ≤ t.2.1 then some ⟨core, t.1, t.2.2⟩ else none

/-- The plan with the fewest halvings; the first of equals. -/
def bestPlan : List ReclaimPlan → Option ReclaimPlan
  | [] => none
  | p :: rest =>
    match bestPlan rest with
    | none => some p
    | some b => if b.halvings < p.halvings then some b else some p

/-- The lane groups of a victim above those it keeps: the highest-numbered ones (R269). -/
def State.taken (s : State) (v : Victim) : List Nat :=
  let lanes := (s.getHart v.id).lanes
  (lanes.held.filter fun g => !lanes.lose.contains g).drop v.lanes

/-- The state with those of a victim taken at its next grant. -/
def State.halve (s : State) (v : Victim) : State :=
  let h := s.getHart v.id
  s.setHart v.id { h with lanes := { h.lanes with lose := h.lanes.lose ++ s.taken v } }

/-- A reclaim for the head record of a queue, where the record has no eligible core and one can be made eligible. -/
def State.reclaimFor (s : State) (queue : Nat) : Option State :=
  (s.queue queue).records.head?.bind fun rec =>
    let r := rec.start
    if (s.chosen queue).isSome || (s.eligible queue r).isSome then none
    else (bestPlan ((s.queue queue).dispatchSet.filterMap (s.planOn queue r))).map fun p =>
      let due := p.victims.flatMap s.taken
      let s := p.victims.foldl State.halve s
      let c := s.core p.core
      s.setCore p.core { c with reclaims := c.reclaims ++ [⟨queue, due, []⟩] }

/-- The first reclaim that can be made, in the order of the dispatcher of the lowest die that has one. -/
def State.reclaimed (s : State) : Option State := [0, 1, 2, 3].findSome? fun d => (s.queueOrder d).findSome? s.reclaimFor

/-- LANE_RECLAIM. -/
def execLaneReclaim (s : State) : Result := .next (s.reclaimed.getD s)

/-! ## LQ_FLUSH (R305, R309) -/

/-- LQ_FLUSH: the records that were held when the flush began, and have not been dispatched, are discarded: their tickets read
STATE 0 while they are among the most recent, their permits return, and what was reclaimed for the head is released. -/
def execLqFlush (queue : Fin 64) (s : State) : Result :=
  let q := s.queue queue
  match q.flush with
  | none => .next s
  | some n =>
    let gone := q.records.take n
    let s := gone.foldl (fun s r => s.popRecord queue r) s
    let q := gone.foldl (fun (q : LaunchQueue) r => q.mark r.seq fun t => ⟨t.seq, 0, 0, 0⟩) (s.queue queue)
    .next (s.setQueue queue { q with flush := none })

end Sys2Proof.Machine
end

