-- ==== Sys2Proof/Machine/Exit.lean ====
section
/-!
DEFINITION. The end of a hart (R245, R252, R313, R316, R344): HEXIT; and HYIELD (R253).
-/

namespace Sys2Proof.Machine

/-! ## Waits on freed reservations (R344) -/

/-- A granule lies in a range of bytes. -/
def granuleIn (lo size g : Nat) : Bool := decide (lo ≤ 16 * g) && decide (16 * g < lo + size)

/-- The round with its full-empty waits in a freed range abandoned. -/
def Round.abandonIn (h : Hart) (lo size : Nat) (r : Round) : Round :=
  r.micros.foldl
    (fun r m =>
      match m.waited with
      | some (_, g) =>
        if granuleIn lo size g then
          r.setAside m ⟨30, 1, 0, 0#64, m.block, m.elem, h.laneOf r.vlen r.vtype.sew m.elem, some m.idx, r.loadOperand m, none, none⟩
        else r
      | none => r) r

/-- A hart with its full-empty waits in a freed range abandoned: the control thread's traps when it is next tried; the head of the
vector queue and micro-threads stop at their faults. -/
def Hart.abandonIn (h : Hart) (lo size : Nat) : Hart :=
  let waiting := match h.waiting with
    | .ldfe since g freed => Waiting.ldfe since g (freed || granuleIn lo size g)
    | w => w
  let h := { h with waiting := waiting, round := h.round.map (Round.abandonIn h lo size) }
  match h.headWait, h.faultEntry with
  | some (_, g), some (e, _) => if granuleIn lo size g then { h with vfault := some (h.abandoned e 1), headWait := none } else h
  | _, _ => h

/-- The state with the waits in a freed range abandoned. -/
def State.abandonIn (s : State) (lo size : Nat) : State :=
  if size = 0 then s
  else { s with hart := s.hart.abandonIn lo size, others := s.others.map fun p => (p.1, p.2.abandonIn lo size) }

/-! ## The end of a launch (R245, R316) -/

/-- What the completion barrier of a launch meets when its last hart exits: nothing in the way, at a place or at none; or a page that
is being moved. An object that cannot be reached receives no arrival (notes/assumptions/31.md). -/
def State.completion (s : State) (l : Launch) : Option (Option Nat) :=
  if l.bar = 0#64 ∨ l.bar.toNat % 32 ≠ 0 then some none
  else match translate s s.agent l.space .store l.bar with
    | .ok pa io => some (if io || s.poisoned pa then none else some pa)
    | .moved => none
    | _ => some none

/-- The state with the data error that the arrival at the completion barrier meets logged, where it meets one (R382). -/
def State.noteCompletion (s : State) (l : Launch) : State :=
  if l.bar = 0#64 ∨ l.bar.toNat % 32 ≠ 0 then s
  else match translate s s.agent l.space .store l.bar with
    | .ok pa _ => s.noteLine (placeBits s.hartId 0) pa
    | .access (some pa) => s.noteData (placeBits s.hartId 0) pa
    | _ => s

/-- The state after the last hart of a launch has exited: its reservations and its squall are freed, and its completion barrier
receives one arrival. -/
def State.endLaunch (s : State) (l : Launch) (bar : Option Nat) : State :=
  let s := { s with launches := s.launches.filter (·.id != l.id) }
  let s := (s.abandonIn (tcmBase + l.core * 0x40000 + l.tcm.1) l.tcm.2).abandonIn
    (scratchBase + l.core / 32 * 0x1000000 + l.scratch.1) l.scratch.2
  let s := match l.squall with
    | some handle =>
      match s.liveSquall handle (l.space.satp.extractLsb' 44 16) with
      | some (i, _, q) => if q.launch = some l.id then s.freeSlot i else s
      | none => s
    | none => s
  let s := match bar with
    | some pa => s.arriveAt none pa
    | none => s
  s.setQueue l.queue ((s.queue l.queue).mark l.seq fun t => { t with state := 3 })

/-- A hart number after its hart has exited: what belongs to the number stays, its M-mode CSRs and its freeze request. -/
def Hart.exited (h : Hart) : Hart := { Hart.reset with csr := h.csr, freezeReq := h.freezeReq, freezeMax := h.freezeMax }

/-- The state after the selected hart has retired: the exit counts for its launch, its lane groups pass on, and its work ends. -/
def State.retireHart (s : State) (l : Option Launch) (bar : Option Nat) : State :=
  let h := s.hart
  let groups := h.owned
  let s := (s.discardHeldCopies s.hartId).dropReservation
  let s := { s with hart := h.exited }
  let s := match l with
    | none => s
    | some l =>
      let left := l.harts.filter (· != s.hartId)
      let s := s.setQueue l.queue ((s.queue l.queue).mark l.seq fun t => { t with exited := t.exited + 1 })
      let s := { s with launches := s.launches.map fun (o : Launch) => if o.id = l.id then { o with harts := left } else o }
      if left.isEmpty then s.endLaunch l bar else s
  s.passGroups (coreOf s.hartId) groups

/-- The hart without what it holds: its vector queue image with the unfired markers, its matrix queue image, and its resume groups (R252). The
rest of its work goes on. -/
def Hart.discardHeld (h : Hart) : Hart :=
  let h := if h.vheld then
      { h with
        vq := []
        vfault := none
        vheld := false
        headWait := none
        chains := []
        vc := { h.vc with vstart := 0 } }
    else h
  let h := if h.mheld then { h with mq := [], mfault := none, mheld := false } else h
  { h with resume := [], reported := none }

/-- The state in which the selected hart's held work is discarded, with the copies that faults hold and the requests of a held VAMO. -/
def State.discardHeld (s : State) : State :=
  let t := { s with hart := s.hart.discardHeld }.discardHeldCopies s.hartId
  if s.hart.vheld then t.dropAtomics s.hartId else t

/-- The state in which the selected hart begins HEXIT: what it holds is discarded. -/
def State.exiting (s : State) : State := if s.hart.held || !s.hart.resume.isEmpty then s.discardHeld else s

/-- What HEXIT waits for: the drain and MDET, a pending fault being taken first. -/
def State.exitPoint (s : State) : Option State := syncPoint s (s.draining true || s.hart.mbusy)

/-- The launch of which the selected hart is the last. -/
def State.lastLaunch (s : State) : Option Launch := (s.launchOf s.hartId).filter fun l => l.harts == [s.hartId]

/-- HEXIT (R252): held work is discarded; the drain and MDET wait for the rest, a pending fault being taken first; the hart
retires. -/
def execHexit (s : State) : Result :=
  let s := s.exiting
  match s.exitPoint with
  | some s => .next s
  | none =>
    match s.lastLaunch with
    | some l =>
      match s.completion l with
      | none => .next s
      | some bar => .next ((s.noteCompletion l).retireHart (some l) bar)
    | none => .next (s.retireHart (s.launchOf s.hartId) none)

/-- The arrival of a HEXIT at the completion barrier of the launch whose last hart it retires receives data error (R380): it is not performed,
or `took` says that it was; the hart retires all the same. None where the selected hart makes no such arrival. -/
def State.exitLost (s : State) (took : Bool) : Option State :=
  let s := s.exiting
  if s.exitPoint.isSome then none
  else s.lastLaunch.bind fun l => (s.completion l).join.map fun pa => s.retireHart (some l) (if took then some pa else none)

/-! ## HYIELD (R253) -/

/-- Lanes are wanted on the core of the selected hart. -/
def State.lanesWanted (s : State) : Bool :=
  let core := coreOf s.hartId
  ((s.coreHarts core).any fun p => p.1 != s.hartId && decide (p.2.nlg < p.2.facts.lgpref)) ||
    (s.queueOrder (core / 128)).any fun q =>
      (s.queue q).serves core && (match (s.queue q).records.head? with
        | some r => (s.eligible q r.start).isNone
        | none => false)

/-- HYIELD: where lanes are wanted, every lane group but the lowest of those that the hart is to keep is reclaimed at the next grant. -/
def execHyield (s : State) : Result :=
  let h := s.hart
  let keep := h.lanes.held.filter fun g => !h.lanes.lose.contains g
  let h := if s.lanesWanted then { h with lanes := { h.lanes with lose := h.lanes.lose ++ keep.drop 1 } } else h
  .next { s with hart := h }.advance

end Sys2Proof.Machine
end

