-- ==== Sys2Proof/Machine/Fullempty.lean ====
section
/-!
DEFINITION. Scalar full-empty access (R243, R344): LDFE and STFE.
-/

namespace Sys2Proof.Machine

/-- The place of the aligned 8-byte word of a scalar full-empty access (R243): another address than one of TCM or scratchpad is an
access fault. -/
def fullEmptyPlace (s : State) (acc : Access) (va : Word) : Where :=
  let store := acc == .store
  if va.toNat % 8 ≠ 0 then .trap (misalignedCause s va acc)
  else match translate s s.agent s.dataSpace acc va with
    | .page => .trap (if store then causeStorePage else causeLoadPage)
    | .access _ => .trap (if store then causeStoreAccess else causeLoadAccess)
    | .moved => .wait
    | .ok pa io =>
      if hasFullEmpty s.bigMemory pa then .ok pa io else .trap (if store then causeStoreAccess else causeLoadAccess)

/-- The precise trap of an abandoned LDFE (R334, R344). -/
def State.abandonLdfe (s : State) (a : XReg) (va : Word) (kind : Nat) (line : Option Nat) : State :=
  let f : VecFault := ⟨30, kind, 0, va, s.hart.pc, 0, 0, none, some (4, a.val), line, none⟩
  { s with hart := s.hart.takeVectorTrap s.hartId f 0 false none }.noteFault s.hartId f

/-- LDFE: it waits while the bit of its granule is 0; a wait of 2^30 cycles, the end of the granule's reservation and an
uncorrectable error in it abandon the wait (R344). -/
def execLdfe (d a : XReg) (c : Bool) (s : State) : Result :=
  let va := s.x a
  match fullEmptyPlace s .load va with
  | .trap cause => .next (s.accessTrap cause va)
  | .wait => .next s
  | .ok pa _ =>
    if s.full pa then
      if s.poisoned pa then .next (s.accessTrap causeLoadAccess va)
      else
        let v := BitVec.ofNat 64 (Memory.readNum s.memory pa 8)
        .next ((if c then s.setFull pa false else s).setX d v).advance
    else if s.poisoned pa then .next (s.abandonLdfe a va 2 (some pa))
    else
      let begin := { s with hart := { s.hart with waiting := .ldfe s.cycle (pa / 16) false } }
      match s.hart.waiting with
      | .ldfe since g freed =>
        if g ≠ pa / 16 then .next begin
        else if freed then .next (s.abandonLdfe a va 1 none)
        else if since + 2 ^ 30 ≤ s.cycle then .next (s.abandonLdfe a va 0 none)
        else .next s
      | _ => .next begin

/-- STFE. -/
def execStfe (a b : XReg) (s : State) : Result :=
  let va := s.x a
  match fullEmptyPlace s .store va with
  | .trap cause => .next (s.accessTrap cause va)
  | .wait => .next s
  | .ok pa _ => .next ((s.writeBytes (some s.hartId) pa (byteList 8 (s.x b).toNat)).setFull pa true).advance

end Sys2Proof.Machine
end

