-- ==== Sys2Proof/Machine/Integrity.lean ====
section
/-!
DEFINITION. Links, errors, power and bring-up (R363, R377 to R391): flit replays and retraining, network parity, scrubbing, endpoint
DMA, the cold boot and the readiness map, the power budget, lifetime records and attestation.
-/

namespace Sys2Proof.Machine

/-! ## Links (R363) -/

/-- The state with a link at a value. -/
def State.setLink (s : State) (l : Nat) (v : Link) : State := { s with links := Store.put Link.reset s.links l v }

/-- The root port that a link number from 8 on names; UCIe links are numbered below. -/
def portOf (link : Nat) : Option Nat := if linkCount ≤ link ∧ link < linkCount + 8 then some (link - linkCount) else none

/-- The site of an error of a UCIe link: in its lower-numbered compute die. -/
def linkSite (link : Nat) : ErrorSite := outsideSite 5 ((linkEnds link).1 * 2 ^ 28) 0

/-- The site of an error of a root port. -/
def portSite : ErrorSite := outsideSite 6 0 0

/-- The state after a replay of a root port: corrected, and counted in lifetime record 2. -/
def State.portReplay (s : State) (p : Nat) : State := (s.logError 0 portSite).countLife 2 (2 ^ 9 + p)

/-- FLIT_REPLAY: a flit that failed its CRC is replayed: a corrected error, which lifetime record 2 counts. -/
def execFlitReplay (flit : LinkFlit) (s : State) : Result :=
  match portOf flit.link with
  | some p => .next (s.portReplay p)
  | none =>
    let l := s.link flit.link
    if linkCount ≤ flit.link ∨ !l.up ∨ l.retraining then .next s
    else
      let replays := if l.flit = flit.number then l.replays + 1 else 1
      let s := s.setLink flit.link { l with flit := flit.number, replays := replays }
      .next ((s.logError 0 (linkSite flit.link)).countLife 2 flit.link)

/-- LINK_RETRAIN: after 16 consecutive replays of one flit the link retrains. A root port retrains as PCIe has it. -/
def execLinkRetrain (link : Nat) (s : State) : Result :=
  match portOf link with
  | some p => .next (s.countLife 2 (2 ^ 10 + p))
  | none =>
    let l := s.link link
    if linkCount ≤ link ∨ !l.up ∨ l.retraining ∨ l.replays < 16 then .next s
    else .next ((s.setLink link { l with retraining := true }).countLife 2 (2 ^ 8 + link))

/-- RETRAINING_END: retraining has succeeded, and traffic resumes, or it has failed once more. -/
def execRetrainingEnd (link : Nat) (ok : Bool) (s : State) : Result :=
  let l := s.link link
  if !l.retraining then .next s
  else if ok then .next (s.setLink link { l with retraining := false, replays := 0, failed := 0 }).sendWaiting
  else .next (s.setLink link { l with failed := l.failed + 1 })

/-- The state with the READY bit of a link cleared in the words of the compute dies at its ends. -/
def State.clearLinkReady (s : State) (l : Nat) : State :=
  let e := linkEnds l
  let clear (ready : List (Nat × Word)) (d : Nat) : List (Nat × Word) :=
    if d < 4 then Store.put 0#64 ready (16 + d) (putField (Store.get 0#64 ready (16 + d)) (linkBit l) 1 0) else ready
  { s with ready := clear (clear s.ready e.1) e.2 }

/-- LINK_DISABLE: a link whose retraining has failed three times is disabled until the next reset; what its retry buffer holds has
been delivered or rerouted first. -/
def execLinkDisable (link : Nat) (s : State) : Result :=
  let l := s.link link
  if !l.retraining ∨ l.failed < 3 then .next s
  else .next ((s.setLink link { l with up := false, retraining := false }).clearLinkReady link).sendWaiting

/-! ## Network parity (R380) -/

/-- The access that an instruction of the control thread makes: its address, and whether it is a store or AMO. The control blocks that
LAUNCH and SQDECL read, the barrier objects and the context image are such accesses. -/
def scalarTarget (s : State) : Instr → Option (Word × Bool)
  | .rv64 (.load _ _ rs1 imm) => some (s.x rs1 + sext12 imm, false)
  | .rv64 (.store _ rs1 _ imm) => some (s.x rs1 + sext12 imm, true)
  | .rv64 (.lr _ _ _ _ rs1) => some (s.x rs1, false)
  | .rv64 (.sc _ _ _ _ rs1 _) => some (s.x rs1, true)
  | .rv64 (.amo _ _ _ _ _ rs1 _) => some (s.x rs1, true)
  | .ldfe _ a _ => some (s.x a, false)
  | .stfe a _ => some (s.x a, true)
  | .launch _ a _ => some (s.x a, false)
  | .sqdecl _ a => some (s.x a, false)
  | .barinit a _ => some (s.x a, true)
  | .barwait a => some (s.x a, false)
  | .bartest _ a => some (s.x a, false)
  | .vctxsave a _ => some (s.x a, true)
  | .vctxrst a _ => some (s.x a, false)
  | _ => none

/-- The memory of a state taken from another. -/
def State.withMemoryOf (s t : State) : State :=
  { s with memory := t.memory, fullEmpty := t.fullEmpty, poison := t.poison, reservations := t.reservations }

/-- A write of an instruction whose response was discarded: it may or may not have taken effect, on memory, on another hart or on a device
(notes/assumptions/10.md). The hart that issued it has only what the device changes of a hart. -/
def State.maybeWrote (s : State) (r : Result) : State :=
  let (took, s) := s.drawBit
  match took, r with
  | true, .next t =>
    let h := s.hart
    { t with
      free := s.free
      hart := { h with
        frozen := t.hart.frozen, freezeReq := t.hart.freezeReq, freezeMax := t.hart.freezeMax
        csr := { h.csr with mip := t.hart.csr.mip } } }
  | _, _ => s

/-- What the access of an instruction of the control thread does when it is performed. -/
def scalarEffect (i : Instr) (s : State) : Result :=
  match i with
  | .rv64 r => execRv64 r s
  | .ldfe d a c => execLdfe d a c s
  | .stfe a b => execStfe a b s
  | .barinit a b => execBarinit a b s
  | .vctxsave a port => execVctxsave a port s
  | .vctxrst a port => execVctxrst a port s
  | _ => .next s

/-- The access of the control thread's instruction receives data error; none where it makes none. -/
def scalarFlit (s : State) (kind : FlitKind) : Option State :=
  match fetchWord s with
  | .word w s' =>
    (decodeControl w).bind fun i =>
      (scalarTarget s' i).map fun p =>
        let s' := if kind = .response then s'.maybeWrote (scalarEffect i s') else s'
        s'.takeTrap (if p.2 then causeStoreAccess else causeLoadAccess) p.1
  | _ => none

/-- The access of an instruction of the vector queue to memory, as `svtrap0` shows it: 0 a read, of data, a control block or the block of a
broadcast; 1 a write, of data or a full-empty bit; 2 a read-modify-write, of data or a barrier object. -/
def vectorAccess (i : Instr) : Option Nat :=
  match i with
  | .vle .. | .vlse .. | .vlxe .. | .vlseg .. | .vlsc .. | .vldx .. | .vsbind .. | .vfb .. | .vfbm .. => some 0
  | .vse .. | .vsse .. | .vsxe .. | .vsseg .. | .vssegx .. | .vssc .. | .vstc .. | .vfeset .. | .vfeclr .. => some 1
  | .vupd .. | .vamo .. | .barrive .. | .vcopy _ _ _ _ true => some 2
  | _ => none

/-- The operand that a fault of that access names (R336): the index register where there is one, else the register of the address. -/
def vectorOperand (i : Instr) : Option (Nat × Nat) :=
  match i with
  | .vlxe _ _ b _ | .vsxe _ _ b _ | .vupd _ _ b _ _ | .vamo _ _ b _ _ => some (0, b.val)
  | .vle _ a _ _ _ _ | .vlse _ a _ _ | .vlseg _ a _ _ | .vlsc _ a _ | .vldx _ a _ | .vsbind _ a _ | .vse _ a _ _ _ | .vsse _ a _ _
  | .vsseg _ a _ _ | .vssegx _ a _ _ | .vssc _ a _ | .vstc _ a _ _ | .vfeset a _ | .vfeclr a _ | .barrive a _ => some (4, a.val)
  | .vcopy _ _ b _ true => some (4, (pairOf b).val)
  | _ => none

/-- What the access of an entry at its START does when it is performed, to memory: of a copy, the count of its bytes at its barrier. -/
def performOne (s : State) (e : QEntry) (i : Instr) : Result :=
  let replay (e : QEntry) : State := { s with hart := { s.hart with replay := some e } }
  let s' := replay { e with vl := min e.vl (e.start + 1) }
  -- a load or store with full-empty bits takes every element of a granule together
  let part : State := { s with hart := { s.hart with replay := some e, pause := some (e.start + 1) } }
  let range := replay { e with xb := BitVec.ofNat 64 (min e.xb.toNat (16 * (e.start + 1) - e.xa.toNat % 16)) }
  match i with
  | .vle d a fe nt ff m => execVle d a fe nt ff m part
  | .vse d a fes nt m => execVse d a fes nt m part
  | .vsse d a b m => execVsse d a b m s'
  | .vsxe d a b m => execVsxe d a b m s'
  | .vsseg d a fields m => execVsseg d a fields m s'
  | .vssegx d a k m => execVssegx d a k m s'
  | .vssc d a b => execVssc d a b s'
  | .vstc d a b m => execVstc d a b m s'
  | .vupd d a b op masked => execVupd d a b op masked s'
  | .vamo d a b op false => execVamo d a b op false s'
  | .vfeset a b => execVfeset a b range
  | .vfeclr a b => execVfeclr a b range
  | .barrive a scope => execBarrive a scope s'
  | .vcopy d a b kind bar =>
    match execVcopy d a b kind bar s' with
    | .next t => .next (s.withMemoryOf t)
    | r => r
  | _ => .next s

/-- The fault of an entry whose access received data error, at its START: a broadcast's block cannot be accessed (R338). -/
def flitFault (s : State) (e : QEntry) (acc : Nat) (operand : Option (Nat × Nat)) : VecFault :=
  match decodeControl e.word with
  | some (.vfb ..) | some (.vfbm ..) => ⟨26, 3, 3, e.xa, e.xa, 0, 0, none, none, none, none⟩
  | _ =>
    ⟨24, kindDataError, acc, 0#64, e.pc, e.start, s.hart.laneOf e.vlen ((e.vtype.map VType.sew).getD 64) e.start, none, operand, none,
      none⟩

/-- The state in which the next entry of the vector queue has stopped at a flit error of the pop of a bound group: a run instruction has begun
(R52, R175). -/
def State.stopPop (s : State) (e : QEntry) (i : Instr) (group : Nat) : State :=
  let (e, s) := match e.vtype with
    | some t => s.begun e t i
    | none => (e, s)
  { s with hart := (s.hart.replace false e).stopVector e (flitFault s e 0 (some (0, group))) }

/-- The bound group whose strip an entry still has to pop (R140). -/
def popsGroup (s : State) (e : QEntry) (i : Instr) : Option Nat :=
  e.vtype.bind fun t =>
    if e.popped || !e.acts i then none
    else (s.hart.boundTo (popSources t.mul i)).head?.bind fun n => s.hart.streams[n].map (·.group)

/-- The access of the entry of the vector queue to be performed receives data error: the entry stops at its element, as at any fault; none
where it makes no access. The pop of a bound group comes first. Nothing waits any more for the answer to a remote VAMO. -/
def vectorFlit (s : State) (kind : FlitKind) : Option State :=
  s.hart.vnext.bind fun e => (decodeControl e.word).bind fun i =>
    match popsGroup s e i with
    | some g => some (s.stopPop e i g)
    | none => (vectorAccess i).map fun acc =>
      let s := s.dropAtomics s.hartId
      let s := if kind = .response then s.maybeWrote (performOne s e i) else s
      { s with hart := s.hart.stopVector e (flitFault s e acc (vectorOperand i)) }

/-- The row that MLDS reads at the head of the matrix queue receives data error (R378); none where the head reads none. -/
def matrixFlit (s : State) : Option State :=
  s.hart.mnext.bind fun e =>
    match decodeControl e.word with
    | some (.mlds _ a _ _) => some { s with hart := { s.hart with mfault := some (flitFault s e 0 (some (4, a.val))) } }
    | _ => none

/-- The load or store at which a micro-thread stands receives data error; none where it stands at none. -/
def microFlit (s : State) (kind : FlitKind) (elem : Nat) : Option State :=
  s.hart.round.bind fun r =>
    (r.micros.find? fun m => m.elem == elem && m.ended == .running).bind fun m =>
      match m.place with
      | .group id =>
        (((r.group? id).filter fun g => !g.parked).bind fun g => g.at m.idx).bind fun c =>
          let m := { m with idx := c.1 }
          let stop (acc : Nat) (s : State) : State :=
            s.putRound (r.setAside m (microFault s r m 27 kindDataError acc 0#64 (r.loadOperand m)))
          let maybe (r : State → Result) : State :=
            if kind = .response then s.maybeWrote (r { s with hart := { s.hart with mt := some m } }) else s
          match c.2 with
          | .ld f => some (stop 0 (maybe (execLd f)))
          | .st f => some (stop 1 (maybe (execSt f)))
          | _ => none
      | _ => none

/-- The fetch of the block that a micro-thread waits for receives data error: the micro-threads that wait for it fault. -/
def blockFlit (s : State) (elem : Nat) : Option State :=
  s.hart.round.bind fun r =>
    (r.micros.find? fun m => m.elem == elem && m.place == .waiting).map fun m =>
      s.putRound (r.placeWaiting m.block fun m =>
        { m with place := .aside (some (microFault s r { m with idx := 0 } 27 kindDataError 3 0#64 (some (5, m.via)))) })

/-- A read of the dispatcher of a die for the head record that it dispatches next receives data error: the record is discarded, or its hart
starts without its squall (R245, R401); none where the dispatcher makes no such read. -/
def dispatcherFlit (s : State) (die : Fin 4) (squall : Bool) : Option State :=
  (s.queueOrder die.val).findSome? fun q => s.dispatchHead die.val q (some squall)

/-- The next access of the remote agent receives data error (R380). -/
def remoteFlit (s : State) (kind : FlitKind) : State := { s with remote := { s.remote with lost := some kind } }

/-- The access of a copy receives data error: that at its bytes complete, or, once it is written, that to the PENDING of its barrier. The copy is
held there (R147); none where it has no access to make here. -/
def copyFlit (s : State) (kind : FlitKind) (id : Nat) : Option State :=
  ((s.copy? id).filter fun c => c.held.isNone && (!c.written || c.owed != 0)).map fun c =>
    if c.written then
      let s := if kind = .response then s.maybeWrote (.next ((s.release c c.owed).getD s)) else s
      let f := { c.fault kindDataError 2 0#64 with operand := none }
      (s.putCopy { c with held := some f }).noteFault c.hart f
    else
      let s := match kind, c.kind, localRun s c (c.sourceRuns s c.count 0) with
        | .response, .onDevice, .ok r => s.maybeWrote (.next r.2)
        | _, _, _ => s
      (settleCopy s c c.done (some (.fault kindDataError (if kind = .response then 1 else 0) 0#64 none))).1

/-- The arrival of the selected hart's HEXIT at its completion barrier receives data error; none where it makes none. -/
def exitFlit (s : State) (kind : FlitKind) : Option State :=
  match fetchWord s with
  | .word w s =>
    if decodeControl w = some .hexit then
      let (took, s) := if kind = .response then s.drawBit else (false, s)
      s.exitLost took
    else none
  | _ => none

/-- An access of the move of a page receives data error: the move goes on, and the destination may hold the page already; none where the block
moves none. -/
def migrationFlit (s : State) (kind : FlitKind) (die : Fin 4) : Option State :=
  if !(s.migration die.val).busy then none
  else some (if kind = .response then s.maybeWrote (.next (s.withMemoryOf (s.finishMigrationCopy die.val))) else s)

/-- The requester receives data error for its access; none where it makes none. -/
def flitError (s : State) (kind : FlitKind) : Requester → Option State
  | .thread => if s.hart.live then scalarFlit s kind else none
  | .fetch => if s.hart.live then some (s.takeTrap causeFetchAccess s.hart.pc) else none
  | .vector => if s.hart.live then vectorFlit s kind else none
  | .matrix => if s.hart.live then matrixFlit s else none
  | .micro elem => if s.hart.live then microFlit s kind elem else none
  | .block elem => if s.hart.live then blockFlit s elem else none
  | .copy id => copyFlit s kind id
  | .dispatcher die squall => dispatcherFlit s die squall
  | .remote => some (remoteFlit s kind)
  | .exit => if s.hart.live then exitFlit s kind else none
  | .endpoint => some s
  | .migration die => migrationFlit s kind die

/-- The place of a requester, as the error log shows it (R383): the hart, with the lane group of its element; the hart of a copy; or a die. The
remote agent and an endpoint have none, and show 0. -/
def requesterPlace (s t : State) : Requester → Nat
  | .thread | .fetch | .matrix | .exit => placeBits s.hartId 0
  | .vector => placeBits s.hartId ((t.hart.vfault.map (·.lg)).getD 0)
  | .micro elem | .block elem =>
    placeBits s.hartId ((s.hart.round.map fun r => s.hart.laneOf r.vlen r.vtype.sew elem).getD 0)
  | .copy id => placeBits (((s.copy? id).map (·.hart)).getD s.hartId) 0
  | .dispatcher die _ | .migration die => die.val * 2 ^ 28
  | .remote | .endpoint => 0

/-- NETWORK_FLIT_PARITY_ERROR: the requester receives data error, which is logged as contained; a flit whose requester cannot be named is
an uncontained error of the die of its address. -/
def execNetworkFlitParityError (flit : NetFlit) (addr : Nat) (s : State) : Result :=
  match flit.kind with
  | .unnamed => .next (s.logError 2 (outsideSite 7 (memoryDie (physAt s.bigMemory addr) % 4 * 2 ^ 28) addr))
  | kind =>
    match flitError s kind flit.requester with
    | some t => .next (t.logError 1 (outsideSite 7 (requesterPlace s t flit.requester) addr))
    | none => .next s

/-! ## Checks of stored data (R377 to R379, R384) -/

/-- What lies at an address has lines with check bits (R377). -/
def Phys.checked : Phys → Bool
  | .device | .absent => false
  | _ => true

/-- The vector file with a register, a tag or an IXT entry poisoned by an error in a lane group (R379). -/
def VecFile.poisonAt (f : VecFile) (file : RegFile) (i lane : Nat) : VecFile :=
  let f := { f with poisonLane := Store.put 0 f.poisonLane (poisonKey file i) lane }
  match file with
  | .v => { f with poisonV := f.poisonV ||| BitVec.ofNat 32 (2 ^ i) }
  | .m => { f with poisonM := f.poisonM ||| BitVec.ofNat 8 (2 ^ i) }
  | .k => { f with poisonK := f.poisonK ||| BitVec.ofNat 16 (2 ^ i) }
  | .tag => { f with poisonTag := f.poisonTag ||| BitVec.ofNat 32 (2 ^ i) }
  | .ixt => { f with poisonIxt := Store.put false f.poisonIxt i true }

/-- The hart with the state that a resume group keeps of an element poisoned, where one keeps any (R348, R377). -/
def Hart.poisonElement (h : Hart) (e lane : Nat) : Hart :=
  { h with resume := h.resume.map fun g =>
      { g with micros := g.micros.map fun m => if m.elem = e then { m with poison := some lane } else m } }

/-- The state with an uncorrectable error in what was checked: the line or the register is poisoned. -/
def State.poisonChecked (s : State) : Checked → State
  | .line addr => { s with poison := Store.put false s.poison (addr / 64) true }
  | .element id e lane => s.setHart id ((s.getHart id).poisonElement e lane)
  | .register id file i lane =>
    let h := s.getHart id
    s.setHart id { h with vec := h.vec.poisonAt file i lane }
  | .port _ => s

/-- Where what was checked lies; none where it is not checked. -/
def State.checkSite (s : State) : Checked → Option ErrorSite
  | .line addr =>
    let p := physAt s.bigMemory addr
    if p.checked then some (s.lineSite (memoryPlace p) addr) else none
  | .register id _ _ lane | .element id _ lane => if id < firstAppCore then some (laneSite id lane) else none
  | .port _ => some portSite

/-- SCRUB_LINE: a check reads a line, in the background or for an access or a fetch, or a register, or the flits of a root port. A
correctable error is corrected in place, or replayed; an uncorrectable one poisons the line or the register. Both are logged. -/
def execScrubLine (at' : Checked) (found : LineState) (s : State) : Result :=
  match s.checkSite at' with
  | none => .next s
  | some site =>
    match found with
    | .clean => .next s
    | .correctable =>
      .next (match at' with
        | .port p => s.portReplay p
        | _ => s.logError 0 site)
    | .uncorrectable => .next ((s.poisonChecked at').logError 1 site)

/-! ## Endpoint DMA (R365) -/

/-- ENDPOINT_DMA: an access of an endpoint behind a root port that is up, at the place that the IOMMU gives: a write to main memory, or a
message to the interrupt file of an application core. An access that the IOMMU refuses, that reaches anything else, or that meets a
page that is being moved or a link that carries nothing, is not performed. -/
def execEndpointDma (endpoint : Endpoint) (addr : Nat) (data : List Byte) (s : State) : Result :=
  let ok (pa : Nat) : Bool :=
    let p := physAt s.bigMemory pa
    reaches .endpoint p && s.memoryReady pa && s.routeTo .endpoint p == .open' && !s.refusesMoved pa
  if !s.appWord.getLsbD endpoint.port.val || !endpoint.write || data.isEmpty then .next s
  else match Config.iommu endpoint addr s.memory with
    | .memory pa =>
      if ok pa && ok (pa + data.length - 1) then .next ((s.writeBytes none pa data).clearCovered (inRange pa data.length)) else .next s
    | .interrupt core identity =>
      .next { s with interruptFiles := Store.put false s.interruptFiles (core.val * 2048 + identity.val) true }
    | .refused => .next s

/-! ## Firmware (R389) -/

/-- An image is accepted: its signature verifies and its security version is not lower than the fused one. -/
def firmwareAccepted (f : Firmware) : Bool := Config.mldsaVerify f.digest f.signature && decide (Config.fusedVersion f.function ≤ f.version)

/-! ## Repairs (R385) -/

/-- A counter of lifetime record 1 by its index, corrected or uncorrected (R386). -/
def lifeCount (life : List (Nat × Nat)) (uncorrected : Bool) (index : Nat) : Nat :=
  Store.get 0 life (lifeKey 1 ((if uncorrected then 2 ^ 40 else 0) + index))

/-- A part qualifies for repair: an uncorrectable error, or more than 64 corrected errors. -/
def qualifies (life : List (Nat × Nat)) (index : Nat) : Bool := decide (0 < lifeCount life true index) || decide (64 < lifeCount life false index)

/-- A half of a core's lane groups that is disabled. -/
def badHalf (life : List (Nat × Nat)) (core half : Nat) : Bool := (List.range 4).any fun i => qualifies life (laneIndex core (4 * half + i))

/-- The cores that repairs change, by their disabled lane groups. -/
def repairedCores (life : List (Nat × Nat)) : List (Nat × CoreState) :=
  if life.isEmpty then []
  else (List.range 512).foldl
    (fun m c =>
      let half (h : Nat) : List Nat := if badHalf life c h then [4 * h, 4 * h + 1, 4 * h + 2, 4 * h + 3] else []
      Store.put CoreState.reset m c { CoreState.reset with disabled := half 0 ++ half 1 }) []

/-- The cores that are never ready: both halves qualify. -/
def deadCores (life : List (Nat × Nat)) : List Nat :=
  if life.isEmpty then [] else (List.range 512).filter fun c => badHalf life c 0 && badHalf life c 1

/-- The banks of a slice of a cluster's scratchpad that qualify, by their index in lifetime record 1. -/
def badBanks (life : List (Nat × Nat)) (g slice : Nat) : List Nat :=
  ((List.range 16).map (2 ^ 17 + g * 512 + slice * 16 + ·)).filter (qualifies life)

/-- The clusters that are never ready: two banks of one slice of the scratchpad qualify. -/
def deadClusters (life : List (Nat × Nat)) : List Nat :=
  if life.isEmpty then [] else (List.range 16).filter fun g => (List.range 32).any fun slice => decide (2 ≤ (badBanks life g slice).length)

/-- The banks that a slice's spare replaces: the first of the slice that qualifies. -/
def sparedBanks (life : List (Nat × Nat)) : List Nat :=
  if life.isEmpty then []
  else (List.range 16).flatMap fun g => (List.range 32).flatMap fun slice => (badBanks life g slice).take 1

/-- The LPDDR rows that receive post-package repair: those that qualify, of the rows that the counters name. -/
def repairedRows (life : List (Nat × Nat)) : List Nat :=
  let named := life.filterMap fun p =>
    let i := p.1 % 2 ^ 40
    if p.1 / 2 ^ 56 = 1 ∧ 2 ^ 30 ≤ i ∧ i < 2 ^ 40 - 32 then some (i - 2 ^ 30) else none
  named.eraseDups.filter fun r => qualifies life (2 ^ 30 + r)

/-- The halves of cores that are disabled, as twice the core and the half. -/
def disabledHalves (life : List (Nat × Nat)) : List Nat :=
  if life.isEmpty then [] else (List.range 1024).filter fun i => badHalf life (i / 2) (i % 2)

/-- The lifetime records with the repairs of a boot in record 6. -/
def recordRepairs (life : List (Nat × Nat)) : List (Nat × Nat) :=
  let noted := (repairedRows life).map (lifeKey 6 ·) ++ (sparedBanks life).map (fun b => lifeKey 6 (2 ^ 48 + b)) ++
    (disabledHalves life).map fun h => lifeKey 6 (2 ^ 49 + h)
  noted.foldl (fun m k => Store.put 0 m k (max 1 (Store.get 0 m k))) life

/-! ## The cold boot (R387, R388) -/

/-- What a package that is off keeps: its flash, which holds the lifetime records and BOOTGEN. What the management service has returned
stays returned; the agenda and the counter of free values are the model's own. -/
def State.off (s : State) : State :=
  { State.reset with
    agenda := s.agenda
    cycle := s.cycle
    free := s.free
    bigMemory := s.bigMemory
    lifeFlash := s.lifeFlash
    reports := s.reports
    remote := { Remote.reset with bootgen := s.remote.bootgen }
    power := { State.reset.power with on := false } }

/-- The key of a bin of the histograms of records 3 and 4. -/
def binKey : Bin → Nat
  | .thermal die bin => lifeKey 3 (die.val * 32 + bin.val)
  | .voltage rail bin => lifeKey 4 (rail * 2 ^ 20 + bin)

/-- The state with the records accumulated in die SRAM written to flash, with the seconds that the dies and rails have spent in each bin of
the histograms since the last write: a free value, which the sensors give (R386; notes/assumptions/43.md). -/
def State.saveLife (s : State) : State :=
  let life := (Config.binSeconds s.free).foldl
    (fun m p => Store.put 0 m (binKey p.1) (min (Store.get 0 m (binKey p.1) + p.2) (2 ^ 64 - 1))) s.lifeRam
  { s with lifeRam := life, lifeFlash := life, free := s.free + 1 }

/-- LIFETIME_RECORD_WRITE: the hourly write of the records; a package that is off writes none. -/
def execLifetimeRecordWrite (s : State) : Result := .next (if s.power.on then s.saveLife else s)

/-- ORDERLY_POWER_OFF: the records are written, and the power goes. -/
def execOrderlyPowerOff (s : State) : Result := .next (if s.power.on then s.saveLife.off else s)

/-- POWER_ON: a cold boot. BOOTGEN advances; every full-empty bit is 0; the firmware images are verified in load order; repairs are
applied from the lifetime records, and recorded; nothing is ready yet. -/
def execPowerOn (bootgen : BitVec 32) (images : List Firmware) (s : State) : Result :=
  let off := s.off
  let next := if s.remote.bootgen.toNat < bootgen.toNat then bootgen else s.remote.bootgen + 1#32
  .next { off with
    cycle := 0
    lifeRam := recordRepairs off.lifeFlash
    cores := repairedCores off.lifeFlash
    remote := { off.remote with bootgen := next }
    measurements := images.map (·.digest)
    power :=
      { on := true
        pwrcap := off.power.pwrcap
        verified := (images.filter firmwareAccepted).map (·.function)
        refused := (images.filter fun f => !firmwareAccepted f).map (·.function)
        rows := repairedRows off.lifeFlash
        banks := sparedBanks off.lifeFlash
        deadClusters := deadClusters off.lifeFlash
        deadCores := deadCores off.lifeFlash } }

/-- The bit of the readiness map that a function sets: the word, and the bit; none where there is no such function. -/
def readyBit (f : Function) : Option (Nat × Nat) :=
  match f with
  | .dieFirmware _ => none
  | .core c => if c < 512 then some (c / 32, c % 32) else none
  | .clusterMemory g => if g < 16 then some (g, 32) else none
  | .isobar g => if g < 16 then some (g, 33) else none
  | .channel d k => if d < 4 ∧ k < 48 then some (16 + d, k) else none
  | .dieSram d => if d < 4 then some (16 + d, 49) else none
  | .dispatcher d => if d < 4 then some (16 + d, 50) else none
  | .ucie d k => if d < 4 ∧ k < 5 then some (16 + d, 51 + k) else none
  | .rootPort p => if p < 8 then some (20, p) else none
  | .security => some (20, 8)
  | .appCores => some (20, 9)

/-- The cluster of a function of a cluster. -/
def clusterFunction (f : Function) : Option Nat :=
  match f with
  | .core c => some (c / 32)
  | .clusterMemory g => some g
  | .isobar g => some g
  | _ => none

/-- The images that a function needs verified beside its own: its die's firmware, the application die's being that of die 4, and for a core its
cluster's Isobar tables (R326, R388). -/
def releasedBy (f : Function) : List Function :=
  match f with
  | .core c => [.dieFirmware (c / 128), .isobar (c / 32)]
  | .clusterMemory g => [.dieFirmware (g / 4)]
  | .isobar g => [.dieFirmware (g / 4), .isobar g]
  | .channel d _ | .dieSram d | .dispatcher d | .ucie d _ => [.dieFirmware d]
  | .rootPort _ | .appCores => [.dieFirmware 4]
  | .security => [.security]
  | .dieFirmware _ => []

/-- A function may become ready (R388): the security engine is ready first, once its own image is verified; then what the verified images
release, unless its own image was refused, or a repair keeps it, or its cluster, from ever being ready. -/
def State.mayBeReady (s : State) (f : Function) : Bool :=
  let dead := match clusterFunction f with
    | some g => s.power.deadClusters.contains g
    | none => false
  let deadCore := match f with
    | .core c => s.power.deadCores.contains c
    | _ => false
  let engine := f == .security || s.appWord.getLsbD 8
  s.power.on && engine && !s.power.refused.contains f && (releasedBy f).all s.power.verified.contains && !dead && !deadCore

/-- The memory that becoming ready zeroes, as first address and size. -/
def zeroedBy (f : Function) : Option (Nat × Nat) :=
  match f with
  | .core c => some (tcmBase + c * 0x40000, 0x40000)
  | .clusterMemory g => some (scratchBase + g * 0x1000000, 0x1000000)
  | .dieSram d => some (sramBase + d * 0x4000000, 0x4000000)
  | _ => none

/-- The state with a range of memory zeroed, with valid check bits. -/
def State.zeroRange (s : State) (lo size : Nat) : State :=
  { s with
    memory := s.memory.filter fun c => !(decide (lo ≤ c.1) && decide (c.1 < lo + size))
    poison := s.poison.filter fun p => !(decide (lo / 64 ≤ p.1) && decide (p.1 < (lo + size) / 64)) }

/-- The state with a bit of the readiness map set. -/
def State.setReady (s : State) (word bit : Nat) : State :=
  { s with ready := Store.put 0#64 s.ready word (putField (Store.get 0#64 s.ready word) bit 1 1) }

/-- The application cores of the package (R1). -/
def appCores : Nat := 16

/-- The state with the application cores running, each from its own address in M-mode (notes/assumptions/20.md). -/
def State.startAppCores (s : State) : State :=
  (List.finRange appCores).foldl
    (fun s i => s.setHart (firstAppCore + i.val) { Hart.reset with live := true, app := true, pc := Config.appBoot i }) s

/-- FUNCTION_READY: a function reports ready. The 48th channel of a die makes its main memory usable; the application cores run from
then on. -/
def execFunctionReady (f : Function) (s : State) : Result :=
  match readyBit f with
  | none => .next s
  | some (word, bit) =>
    if !s.mayBeReady f || (Store.get 0#64 s.ready word).getLsbD bit then .next s
    else
      let s := match zeroedBy f with
        | some (lo, size) => s.zeroRange lo size
        | none => s
      let s := s.setReady word bit
      let all := getField (Store.get 0#64 s.ready word) 0 48 == 2 ^ 48 - 1
      .next (match f with
        | .channel _ _ => if all then s.setReady word 48 else s
        | .appCores => s.startAppCores
        | _ => s)

/-! ## Power (R391) -/

/-- The next lower budget: through 8, 6, 4, 3, 2 and 1. -/
def lowerBudget (b : Nat) : Nat := if 8 ≤ b then 6 else if 6 ≤ b then 4 else if 4 ≤ b then 3 else if 3 ≤ b then 2 else 1

/-- The next higher budget. -/
def raiseBudget (b : Nat) : Nat := if b ≤ 1 then 2 else if b = 2 then 3 else if b = 3 then 4 else if b ≤ 5 then 6 else 8

/-- The state with the budget of every core of a die changed; LIMITED while it is below 8. -/
def State.budgetDie (s : State) (die : Nat) (f : Nat → Nat) : State :=
  (List.range 128).foldl
    (fun s i =>
      let c := s.core (128 * die + i)
      s.setCore (128 * die + i) { c with budget := f c.budget, limited := decide (f c.budget < 8) }) s

/-- POWER_BUDGET_LOWER: the die controller lowers the budget of every core of a die one step. -/
def execPowerBudgetLower (die : Fin 4) (s : State) : Result := .next (s.budgetDie die lowerBudget)

/-- POWER_BUDGET_RAISE: the die controller raises it one step. -/
def execPowerBudgetRaise (die : Fin 4) (s : State) : Result := .next (s.budgetDie die raiseBudget)

/-- THERMAL_TRIP: a die has reached 110 °C, a compute die or, as die 4, the application die, for which PLACE has no code: after a log entry of
class 2 the package powers off. -/
def execThermalTrip (die : Fin 5) (s : State) : Result := .next (s.logError 2 (outsideSite 0 (die.val % 4 * 2 ^ 28) 0)).off

/-- ABRUPT_LOSS_OF_POWER: what was not written to flash is lost. -/
def execAbruptLossOfPower (s : State) : Result := .next s.off

/-- SET_PWRCAP: the management service sets the module limit, from 500 W to 2,800 W; other values are not limits it sets. -/
def execSetPwrcap (watts : Nat) (s : State) : Result :=
  .next (if 500 ≤ watts ∧ watts ≤ 2800 then { s with power := { s.power with pwrcap := watts } } else s)

/-! ## The management service (R386, R390) -/

/-- The bytes of a list of counters, as the signature covers them (notes/assumptions/18.md). -/
def counterBytes (l : List (Nat × Nat)) : List Byte := l.flatMap fun p => byteList 8 p.1 ++ byteList 8 p.2

/-- The security engine, which signs what the management service returns, can be used (R388). -/
def State.securityReady (s : State) : Bool := s.power.on && s.appWord.getLsbD 8

/-- LIFETIME_RECORD_READ: the management service returns the records, signed with the device identity key. -/
def execLifetimeRecordRead (s : State) : Result :=
  if !s.securityReady then .next s
  else .next { s with reports := s.reports ++
    [.lifetime s.lifeFlash (Config.mldsaSign (Config.sha3 (counterBytes s.lifeFlash))).toList] }

/-- The signed part of an attestation report: magic and version, the nonce, BOOTGEN and DEVNUM, and the measurements. -/
def reportBytes (s : State) (nonce : BitVec 512) : List Byte :=
  byteList 4 0x41545354 ++ byteList 4 1 ++ byteList 64 nonce.toNat ++
    byteList 8 (s.remote.bootgen.toNat * 2 ^ 32 + s.remote.devnum.toNat) ++ byteList 8 s.measurements.length ++
    s.measurements.flatMap fun d => byteList 64 d.toNat

/-- ATTESTATION_REPORT: the report that the management service returns. -/
def execAttestationReport (nonce : BitVec 512) (s : State) : Result :=
  let bytes := reportBytes s nonce
  if !s.securityReady then .next s
  else .next { s with reports := s.reports ++ [.attestation (bytes ++ (Config.mldsaSign (Config.sha3 bytes)).toList)] }

end Sys2Proof.Machine
end

