-- ==== Sys2Proof/Machine/QueueEvents.lean ====
section
/-!
DEFINITION. The events of the selected hart: interrupts and fault traps (R318, R334), fetch groups (R256, R258), broken chains
(R262), full-empty waits (R132, R344), and the firing and hand-off of queued markers and copies (R145, R241).
-/

namespace Sys2Proof.Machine

/-- What an event of the selected hart answers: nothing happens where the hart does not run (R382). -/
def State.ifLive (s : State) (r : Result) : Result := if s.hart.live then r else .next s

/-! ## Interrupts and traps -/

/-- SUPERVISOR_INTERRUPT: an interrupt of a cause, delegated to S-mode and enabled, is taken by the control thread at an instruction
boundary; a service request that the hart is parked on is cancelled (R318, R352). -/
def execSupervisorInterrupt (cause : Nat) (s : State) : Result :=
  let h := s.hart
  let enabled := decide (cause < 64) && h.csr.mideleg.getLsbD cause && h.csr.mie.getLsbD cause &&
    (h.mode == .u || (h.mode == .s && h.csr.sie))
  .next (if h.live && enabled then { s with hart := h.takeTrap true cause 0#64 } else s)

/-- The instructions at which the control thread meets its queues (R255). -/
def synchronises : Instr → Bool
  | .vpopc .. | .vmfirst .. | .vmovx .. | .vmergeh .. | .visect .. | .vdiffk .. | .vuniq .. | .vlocate .. | .vstc .. | .vixdump ..
  | .vseedWrite _ | .mshapeMirrorWrite _ | .vdrain .. | .fence .. | .fenceI .. | .mwait => true
  | .vectorCsrAccess a => a.addr != 0xCC6#12
  | _ => false

/-- VECTOR_FAULT_TRAP: the control thread stands at a synchronising instruction and takes the oldest pending fault (R334). -/
def execVectorFaultTrap (s : State) : Result :=
  if s.hart.live && !s.hart.held then
    match fetchWord s with
    | .word w s' =>
      if ((decodeControl w).map synchronises).getD false then .next (s'.takePending.getD s') else .next s
    | _ => .next s
  else .next s

/-! ## Fetch groups -/

/-- FETCH_GROUP_FORM. -/
def execFetchGroupForm (s : State) : Result :=
  s.ifLive <| match s.hart.round with
  | some r => if r.holding = .no then .next ((formGroup s).getD s) else .next s
  | none => .next s

/-- FETCH_GROUP_PARK: the group in a slot is parked, where it may be. -/
def execFetchGroupPark (slot : Nat) (s : State) : Result :=
  let group := s.hart.round.bind fun r => (r.groups.filter fun g => !g.parked)[slot]?
  s.ifLive (.next ((group.bind fun g => parkGroup s g.id).getD s))

/-! ## Chains (R262) -/

/-- The vector registers that an entry reads, with the payloads that its sources' tags give it (R53). -/
def VecFile.readsOf (f : VecFile) (e : QEntry) : BitVec 32 :=
  e.uses.rv ||| (match decodeControl e.word, e.vtype with
    | some i, some t => ((f.withTags (tagSources i) e.tags).runReads t i).1
    | _, _ => 0#32)

/-- An entry chains from another: it reads a register that the other writes, payloads among them, in the same strip interval, as no chain
reaches over a grant. -/
def Hart.chainsFrom (h : Hart) (e o : QEntry) : Bool :=
  e.strip == o.strip && (h.vec.readsOf e &&& h.vec.destsOf o != 0#32 || e.uses.rm &&& o.uses.wm != 0#8 || e.uses.rk &&& o.uses.wk != 0#16)

/-- The entries that a broken chain cuts off: its consumer, and the later ones that chain from one that is cut off. -/
def Hart.cutOff (h : Hart) (consumer : QEntry) : List QEntry :=
  (h.vwork.filter fun e => decide (consumer.seq < e.seq)).foldl
    (fun cut e => if cut.any (h.chainsFrom e) then cut ++ [e] else cut) [consumer]

/-- The hart whose chain is broken at an entry: the progress index of what it cuts off records where each stands, and each waits to be
replayed (R58). -/
def Hart.breakChain (h : Hart) (e : QEntry) : Hart :=
  (h.cutOff e).foldl
    (fun h o => { h with vec := h.vec.progressTo (h.vec.destsOf o) o.start, chains := Store.put 0 h.chains o.seq (o.start + 1) }) h

/-- A consumer may have read the elements below a boundary from an older entry that has not completed: that entry is no run instruction, and
has written them, as its progress index says (R261). Their other registers let the two run at once. -/
def Hart.chainable (h : Hart) (boundary : Nat) (e o : QEntry) : Bool :=
  let a := h.orders e
  let link := h.vec.readsOf e &&& h.vec.destsOf o
  let passes (i : Instr) : Bool := !isRun i && !o.trims &&
    ((List.range 32).all fun r => !link.getLsbD r || (decide (o.base < o.start) && decide (boundary ≤ h.vec.progress.toList.getD r 0)))
  ((decodeControl o.word).map passes).getD false && !({ a with rv := a.rv &&& ~~~link } : RegUse).conflicts (h.orders o)

/-- A consumer performed up to a boundary while what it chains from goes on: one of the instructions that read and write registers element by
element (notes/assumptions/12.md). -/
def performTo (s : State) (e : QEntry) (boundary : Nat) : Option State :=
  let h := s.hart
  let s' := { s with hart := { h with replay := some e, pause := some boundary } }
  let older := h.vwork.filter fun o => decide (o.seq < e.seq)
  let go := decide (e.start < boundary) && decide (boundary < e.vl) && h.round.isNone && h.vready e && (h.poisonedRead e).isNone &&
    older.all (h.chainable boundary e)
  let res : Option Result := match decodeControl e.word with
    | some (.vmv d a m) => if d = a ∨ !(h.boundTo [a]).isEmpty then none else some (execVmv d a m s')
    | some (.vordkey d a m) => if d = a ∨ !(h.boundTo [a]).isEmpty then none else some (execVordkey d a m s')
    | some (.vslideup d a b m) => if !(h.boundTo [a]).isEmpty then none else some (execVslideup d a b m s')
    | _ => none
  match go, res with
  | true, some (.next t) => some { t with hart := { t.hart with pause := none, headWait := h.headWait } }
  | _, _ => none

/-- CHAIN_BREAK: the entry at a position of the vector queue, which chains from an older one that has not completed, stops at the
boundary of its last completed element group: its START, or a later element up to which it has run beside its producer. Its progress index
records that point; it, and what chains from it, waits to be replayed. At a boundary that it cannot have reached nothing happens
(notes/assumptions/12.md). -/
def execChainBreak (entry boundary : Nat) (s : State) : Result :=
  s.ifLive <| match s.hart.vwork[entry]? with
  | none => .next s
  | some e =>
    if !(s.hart.vwork.any fun o => decide (o.seq < e.seq) && s.hart.chainsFrom e o) then .next s
    else
      match if boundary = e.start then some s else performTo s e boundary with
      | none => .next s
      | some t => .next { t with hart := t.hart.breakChain { e with start := boundary } }

/-- CHAIN_REPLAY: the broken entry at a position of the vector queue goes on from its progress index, once the entries before it have
completed. -/
def execChainReplay (entry : Nat) (s : State) : Result :=
  s.ifLive <| match s.hart.vwork[entry]? with
  | none => .next s
  | some e =>
    if entry = 0 then .next { s with hart := { s.hart with chains := Store.put 0 s.hart.chains e.seq 0 } } else .next s

/-! ## Full-empty waits -/

/-- The waiting LDFE of the control thread, executed again. -/
def retryLdfe (s : State) : Result :=
  match fetchWord s with
  | .word w s' =>
    match decodeControl w with
    | some (.ldfe d a c) => execLdfe d a c s'
    | _ => .next s
  | _ => .next s

/-- The waiting load at the head of the vector queue, performed again. -/
def retryHead (s : State) : Result :=
  match s.hart.vnext with
  | none => .next s
  | some e =>
    match decodeControl e.word with
    | some (.vle d a ff full nt m) => execVle d a ff full nt m { s with hart := { s.hart with replay := some e } }
    | _ => .next s

/-- The waiting load of a micro-thread, executed again, while its group is in a slot: in a parked group it keeps its place (R258). -/
def retryMicro (s : State) (r : Round) (m : Micro) : Result :=
  match m.place with
  | .group id =>
    match ((r.group? id).filter fun g => !g.parked).bind fun g => g.at m.idx with
    | some (k, .ld f) => execLd f { s with hart := { s.hart with mt := some { m with idx := k } } }
    | _ => .next s
  | _ => .next s

/-- The full-empty wait of the selected hart that satisfies a condition on its first cycle, its granule and whether its reservation
has been freed, executed again: the control thread's, the vector queue's, or a micro-thread's. -/
def retryWait (p : Nat → Nat → Bool → Bool) (s : State) : Result :=
  let control := match s.hart.waiting with
    | .ldfe since g freed => p since g freed
    | _ => false
  if control then retryLdfe s
  else if (s.hart.headWait.map fun w => p w.1 w.2 false).getD false then retryHead s
  else match s.hart.round with
    | none => .next s
    | some r =>
      let inSlot (m : Micro) : Bool := match m.place with
        | .group id => ((r.group? id).map fun g => !g.parked).getD false
        | _ => false
      match r.micros.find? fun m => inSlot m && (m.waited.map fun w => p w.1 w.2 false).getD false with
      | some m => retryMicro s r m
      | none => .next s

/-- FULL_EMPTY_WAIT_END: a waiting load proceeds, its granule's bit being set. -/
def execFullEmptyWaitEnd (s : State) : Result := s.ifLive (retryWait (fun _ g _ => Store.get false s.fullEmpty g) s)

/-- FULL_EMPTY_WAIT_ABANDON: a waiting load is abandoned, its granule's bit having stayed 0 for 2^30 cycles, its reservation being
freed, or its granule being in error. -/
def execFullEmptyWaitAbandon (s : State) : Result :=
  s.ifLive (retryWait (fun since g freed =>
    !Store.get false s.fullEmpty g && (freed || decide (since + 2 ^ 30 ≤ s.cycle) || s.poisoned (16 * g))) s)

/-! ## Markers and copies -/

/-- BARRIVE_FIRE: the marker that is the oldest entry of the vector queue fires (R241). -/
def execBarriveFire (s : State) : Result :=
  s.ifLive <| match s.hart.vnext with
  | none => .next s
  | some e =>
    match decodeControl e.word with
    | some (.barrive a scope) => execBarrive a scope { s with hart := { s.hart with replay := some e } }
    | _ => .next s

/-- COPY_ACCEPT: the copy that is the oldest entry of the vector queue, past a round in progress, is handed to the copy engine
(R145). -/
def execCopyAccept (s : State) : Result :=
  s.ifLive <| match s.hart.vnext with
  | none => .next s
  | some e =>
    match decodeControl e.word with
    | some (.vcopy d a b kind bar) => execVcopy d a b kind bar { s with hart := { s.hart with replay := some e } }
    | _ => .next s

end Sys2Proof.Machine
end

