-- ==== Sys2Proof/Machine/RemoteEvents.lean ====
section
/-!
DEFINITION. What arrives from other packages (R368 to R375): grants, permits and records, requests, acknowledgments, and the ends of
requests that cannot complete.
-/

namespace Sys2Proof.Machine

/-! ## The ends of requests (R371) -/

/-- A request of this package that has not been answered. -/
def State.outstanding? (s : State) (dev : BitVec 21) (req : Nat) : Option RemoteRequest :=
  s.remote.outstanding.find? fun r => r.req == req && r.dev == dev && r.answer.isNone

/-- A request ends in a fault of a kind (R371): its copy is held at the bytes complete, its element reports it. -/
def State.failRequest (s : State) (r : RemoteRequest) (kind : Nat) : State :=
  let copy (id offset acc : Nat) : State :=
    let s := s.dropRequest r.req
    match s.copy? id with
    | none => s
    | some c =>
      let remote := (if acc = 1 then c.dst else c.src) + BitVec.ofNat 64 offset
      (settleCopy s c offset (some (.fault kind acc remote none))).1
  match r.kind with
  | .put id offset _ => copy id offset 1
  | .get id offset _ => copy id offset 0
  | .atomic _ _ => s.answerRequest r.req (some kind, 0#64)

/-- The state after every unanswered request to a device has ended in a data error. -/
def State.failDevice (s : State) (dev : BitVec 21) : State :=
  (s.remote.outstanding.filter fun r => r.dev == dev && r.answer.isNone).foldl (fun s r => s.failRequest r kindDataError) s

/-! ## Boot generations (R371, R375) -/

/-- The newest BOOTGEN that anything from a device has shown. -/
def Remote.newest (r : Remote) (dev : BitVec 21) : Option (BitVec 32) :=
  match ofDevice r.seen dev, ofDevice r.peers dev with
  | some a, some b => some (if a.toNat < b.toNat then b else a)
  | some a, none => some a
  | none, b => b

/-- The state in which a device has shown a BOOTGEN: where it is newer than every one before, the requests that wait for an answer end in
a data error (R371). -/
def State.changed (s : State) (dev : BitVec 21) (bootgen : BitVec 32) : State :=
  match s.remote.newest dev with
  | some g => if g.toNat < bootgen.toNat then s.failDevice dev else s
  | none => s

/-- The arrival of a request, or a grant acknowledgment, from a device with a BOOTGEN: none where it is older than the last seen;
a new one gives up everything held for the device (R375), and ends the requests to it (R371). -/
def State.meetDevice (s : State) (dev : BitVec 21) (bootgen : BitVec 32) : Option State :=
  let note (s : State) : State := { s with remote := { s.remote with seen := putDevice s.remote.seen dev bootgen } }
  match ofDevice s.remote.seen dev with
  | none => some (note (s.changed dev bootgen))
  | some g =>
    if bootgen = g then some s
    else if bootgen.toNat < g.toNat then none
    else some (note ((s.changed dev bootgen).forgetDevice dev))

/-- An answer from a device: a BOOTGEN newer than every one before ends the requests to it, this one's among them (R371); an answer of an
earlier boot is of no request. -/
def State.meetAnswer (s : State) (h : MsgHeader) : Option State :=
  if (s.remote.newest h.dev).any fun g => decide (h.bootgen.toNat < g.toNat) then none
  else
    let s := s.changed h.dev h.bootgen
    some (if ofDevice s.remote.peers h.dev = some h.bootgen then s else
      { s with remote := { s.remote with peers := putDevice s.remote.peers h.dev h.bootgen } })

/-! ## Permits and records (R372 to R374) -/

/-- PGRANT: system software grants permits. -/
def execPgrant (value : Word) (s : State) : Result := .next (s.writePgrant value)

/-- The acknowledgment of a grant sent. -/
def State.ackGrant (s : State) (h : MsgHeader) (accepted : Bool) : State := s.send (.grantAck h.req h.dev accepted)

/-- PERMIT_GRANT_RECEIVE: permits arrive at the sender: the matching entry takes them, or they are refused. -/
def execPermitGrantReceive (h : MsgHeader) (queue : Fin 64) (asid : BitVec 16) (count : Nat) (s : State) : Result :=
  match s.meetDevice h.dev h.bootgen with
  | none => .next (s.ackGrant h false)
  | some s =>
    match s.addPermits h.dev queue asid count with
    | some s => .next (s.ackGrant h true)
    | none => .next (s.ackGrant h false)

/-- The state after a grant has been acknowledged: it is no longer in transit, and a refused one frees the slots reserved for it. -/
def State.endGrant (s : State) (g : Reserved) (accepted : Bool) : State :=
  let r := s.remote
  { s with remote := { r with
    transit := r.transit.erase g
    reserved := if accepted then r.reserved else r.reserved.erase g } }

/-- GRANT_ACKNOWLEDGMENT_RECEIVE. -/
def execGrantAcknowledgmentReceive (h : MsgHeader) (queue : Fin 64) (asid : BitVec 16) (accepted : Bool) (count : Nat) (s : State) :
    Result :=
  match s.meetDevice h.dev h.bootgen with
  | none => .next s
  | some s =>
    let g : Reserved := ⟨h.dev, queue, asid, count⟩
    .next (if s.remote.transit.contains g then s.endGrant g accepted else s)

/-- PERMIT_RETURN: a permit returns to the sender of a record. -/
def execPermitReturn (h : MsgHeader) (queue : Fin 64) (asid : BitVec 16) (s : State) : Result :=
  .next ((s.addPermits h.dev queue asid 1).getD s)

/-- A request refused. -/
def State.refuse (s : State) (h : MsgHeader) (kind : Nat) : State := s.send (.ack h.req h.dev (some kind) 0#64)

/-- REMOTE_LAUNCH_RECEIVE. -/
def execRemoteLaunchReceive (h : MsgHeader) (queue : Fin 64) (asid : BitVec 16) (record : Vector Word 8) (s : State) : Result :=
  match s.meetDevice h.dev h.bootgen with
  | none => .next (s.refuse h kindDataError)
  | some s => .next (s.receiveRecord h.dev queue asid record)

/-! ## Requests (R367 to R371) -/

/-- A request served: what it answers, or nothing where it meets a page that is being moved and is not accepted. -/
def State.answer (s : State) (h : MsgHeader) (r : Served) (m : Word → List Byte → Message) : State :=
  match r with
  | .done v data s' => s'.send (m v data)
  | .refused kind s' => s'.refuse h kind
  | .unknown s' => s'.refuse h kindDataError
  | .moved => s

/-- RDMA_WRITE_RECEIVE. -/
def execRdmaWriteReceive (h : MsgHeader) (addr : Nat) (key : BitVec 32) (data : List Byte) (s : State) : Result :=
  match s.meetDevice h.dev h.bootgen with
  | none => .next (s.refuse h kindDataError)
  | some s => .next (s.answer h (s.servePut h.dev addr key data) fun _ _ => .ack h.req h.dev none 0#64)

/-- RDMA_READ_RECEIVE. -/
def execRdmaReadReceive (h : MsgHeader) (addr : Nat) (key : BitVec 32) (len : Nat) (s : State) : Result :=
  match s.meetDevice h.dev h.bootgen with
  | none => .next (s.refuse h kindDataError)
  | some s => .next (s.answer h (s.serveGet h.dev addr key len) fun _ data => .readData h.req h.dev data)

/-- The result of an atomic request kept for its sender (R370). -/
def State.cachedResult (s : State) (dev : BitVec 21) (req : Nat) : Option (Option Nat × Word) :=
  (s.remote.cached.find? fun p => p.1 == (dev, req)).map (·.2)

/-- The result of an atomic request kept and sent. -/
def State.keepResult (s : State) (h : MsgHeader) (result : Option Nat × Word) : State :=
  { s with remote := { s.remote with cached := s.remote.cached ++ [((h.dev, h.req), result)] } }.send
    (.ack h.req h.dev result.1 result.2)

/-- An atomic request applied, and its result kept; so is the data error of one that may have been applied, which is not applied again
either (R380). -/
def State.applyAtomic (s : State) (h : MsgHeader) (r : Served) : State :=
  match r with
  | .done v _ s' => s'.keepResult h (none, v)
  | .refused kind s' => s'.refuse h kind
  | .unknown s' => s'.keepResult h (some kindDataError, 0#64)
  | .moved => s

/-- REMOTE_ATOMIC_RECEIVE: a request that arrives again is answered from the result kept. -/
def execRemoteAtomicReceive (h : MsgHeader) (addr : Nat) (key : BitVec 32) (op : UpdOp) (fmt : Fmt) (value : Word) (s : State) : Result :=
  match s.meetDevice h.dev h.bootgen with
  | none => .next (s.refuse h kindDataError)
  | some s =>
    match s.cachedResult h.dev h.req with
    | some r => .next (s.send (.ack h.req h.dev r.1 r.2))
    | none => .next (s.applyAtomic h (s.serveAtomic h.dev addr key op fmt value))

/-- RESULT_ACKNOWLEDGMENT_RECEIVE: the sender has received the result of an atomic request, which is kept no longer. One of an earlier
boot of the sender names a result that was discarded (R375). -/
def execResultAcknowledgmentReceive (h : MsgHeader) (s : State) : Result :=
  .next (if ofDevice s.remote.seen h.dev = some h.bootgen then
      { s with remote := { s.remote with cached := s.remote.cached.filter fun p => p.1 != (h.dev, h.req) } }
    else s)

/-! ## Answers (R369 to R371) -/

/-- The hart on whose die the answer to a request is waited for: that of its copy, or of its element; an application core where no copy
waits any more. -/
def State.requester (s : State) (r : RemoteRequest) : Nat :=
  match r.kind with
  | .put id _ _ | .get id _ _ => ((s.copy? id).map Copy.hart).getD firstAppCore
  | .atomic id _ => id

/-- The way of an answer from the remote agent to its requester. -/
def State.answerRoute (s : State) (r : RemoteRequest) : Route := s.routeToRemote (.hart (s.requester r))

/-- A request whose answer no route leads to its requester: a data error, which is logged (R363, R382). -/
def State.loseAnswer (s : State) (r : RemoteRequest) : State :=
  (s.noteNoRoute (placeBits (s.requester r) 0)).failRequest r kindDataError

/-- REMOTE_ACK_RECEIVE: a put or an atomic has been performed, or a request is refused, with kind 6 where the value is 6 and kind 1
otherwise. The answer crosses from the remote agent to its requester: over a link that is retraining it waits, and is taken up when it
arrives again; where no route leads there the request ends in a data error (R363; notes/assumptions/17.md). -/
def execRemoteAckReceive (h : MsgHeader) (refused : Bool) (value : Word) (s₀ : State) : Result :=
  match s₀.meetAnswer h with
  | none => .next s₀
  | some s =>
    match s.outstanding? h.dev h.req with
    | none => .next s
    | some r =>
      if s.answerRoute r = .waits then .next s₀
      else if s.answerRoute r = .none then .next (s.loseAnswer r)
      else if refused then .next (s.failRequest r (if value = 6#64 then kindDataError else kindAccess))
      else match r.kind with
        | .put id offset len =>
          let s := s.dropRequest r.req
          match s.copy? id with
          | some c => .next (settleCopy s c (offset + len) none).1
          | none => .next s
        | .get _ _ _ => .next s
        | .atomic _ _ => .next ((s.answerRequest r.req (none, value)).send (.resultAck h.req h.dev))

/-- RDMA_READ_RESPONSE_RECEIVE: the bytes of a get have arrived, cross to its copy engine as an acknowledgment does, and are written. -/
def execRdmaReadResponseReceive (h : MsgHeader) (data : List Byte) (s₀ : State) : Result :=
  match s₀.meetAnswer h with
  | none => .next s₀
  | some s =>
    match s.outstanding? h.dev h.req with
    | none => .next s
    | some r =>
      if s.answerRoute r = .waits then .next s₀
      else if s.answerRoute r = .none then .next (s.loseAnswer r)
      else match r.kind with
      | .get id _ len =>
        let s := s.dropRequest r.req
        match s.copy? id with
        | some c => .next (if data.length = len then (arriveGet s c data).1 else s)
        | none => .next s
      | _ => .next s

/-- REMOTE_ACK_TIMEOUT: a request without an answer for 2^32 cycles ends in a data error (R371). -/
def execRemoteAckTimeout (req : Nat) (s : State) : Result :=
  match s.remote.outstanding.find? fun r => r.req == req && r.answer.isNone with
  | some r => .next (if r.sent + 2 ^ 32 ≤ s.cycle then s.failRequest r kindDataError else s)
  | none => .next s

/-- CONNECTION_FAILURE: the requests to a device end in a data error (R371). -/
def execConnectionFailure (dev : BitVec 21) (s : State) : Result := .next (s.failDevice dev)

end Sys2Proof.Machine
end

