-- ==== Sys2Proof/Machine/System.lean ====
section
/-!
DEFINITION. Service requests and migration as the application cores and system software work them (R247, R352, R355, R356), and
TCINV (R248).
-/

namespace Sys2Proof.Machine

/-! ## SVCALL (R247, R352) -/

/-- SVCALL: privileged; the request is posted to the service queue of the hart's die, and the hart is parked on it. The event that
delivers the answer moves the hart on. -/
def execSvcall (a : XReg) (s : State) : Result :=
  if s.hart.mode = .u then .next (s.illegal (.svcall a))
  else match s.hart.waiting with
    | .service _ => .next s
    | _ =>
      let d := dieOf s.hartId
      let q := s.service d
      let r : Request := ⟨s.x a, q.nextSeq, BitVec.ofNat 64 (placeBits s.hartId 0), s.asid.setWidth 64, s.hart.pc, s.hartId⟩
      let s := s.setService d { q with records := q.records ++ [r], nextSeq := q.nextSeq + 1#64 }
      .next { s with hart := { s.hart with waiting := .service q.nextSeq } }

/-- SVQ_POP: the application cores read the next record of a die's service queue. -/
def execSvqPop (die : Fin 4) (s : State) : Result := .next (s.popService die)

/-- SVTO_DELIVER: the answer in SVANS is delivered to the hart parked on a SEQ; where none is, SVACK reads 0. -/
def execSvtoDeliver (die : Fin 4) (seq : Word) (s : State) : Result := .next (s.deliver die seq)

/-! ## TCINV (R248) -/

/-- The physical bytes that a virtual range names in the data space of the selected hart: `n` pages from one on, each as its first byte
and its number of bytes. A page with no valid mapping names none; the answer is none while page tables cannot be read yet. -/
def physicalRuns (s : State) (lo hi : Nat) : Nat → Nat → Option (List (Nat × Nat))
  | 0, _ => some []
  | n + 1, page =>
    let first := max lo (4096 * page)
    match mapping s s.agent s.dataSpace (BitVec.ofNat 64 first) with
    | .ok pa _ => (physicalRuns s lo hi n (page + 1)).map ((pa, min hi (4096 * page + 4096) - first) :: ·)
    | .moved => none
    | _ => physicalRuns s lo hi n (page + 1)

/-- Two ranges of numbers meet. -/
def rangesMeet (a n b m : Nat) : Bool := decide (a < b + m) && decide (b < a + n)

/-- The bytes of code that a translation was read from. -/
def Translation.size (t : Translation) : Nat := t.words.length * (if t.block then 8 else 4)

/-- A translation that TCINV over a range drops: by its address space and virtual address, or by the physical bytes it was read
from. -/
def Translation.named (t : Translation) (space lo n : Nat) (runs : List (Nat × Nat)) : Bool :=
  (t.space == space && rangesMeet t.va t.size lo n) || runs.any fun r => rangesMeet t.pa t.size r.1 r.2

/-- TCINV: privileged; every core drops the translations that the range names. What executes already runs to its end. -/
def execTcinv (a b : XReg) (s : State) : Result :=
  if s.hart.mode = .u then .next (s.illegal (.tcinv a b))
  else
    let lo := (s.x a).toNat
    let n := (s.x b).toNat
    match physicalRuns s lo (lo + n) (if n = 0 then 0 else (lo + n - 1) / 4096 + 1 - lo / 4096) (lo / 4096) with
    | none => .next s
    | some runs =>
      let keep (t : Translation) : Bool := n == 0 || !t.named (codeSpace s.fetchSpace) lo n runs
      .next { s with cores := Store.map CoreState.reset (fun c => { c with tc := c.tc.filter keep }) s.cores }.advance

/-! ## Migration (R355, R356) -/

/-- MIGRATION_START: system software writes START. -/
def execMigrationStart (die : Fin 4) (s : State) : Result := .next (s.startMigration die)

/-- MIGRATION_COPY_DONE: the copy is complete and the source refuses. -/
def execMigrationCopyDone (die : Fin 4) (s : State) : Result := .next (s.finishMigrationCopy die)

/-- MIGRATION_RELEASE: system software writes RELEASE. -/
def execMigrationRelease (die : Fin 4) (s : State) : Result := .next (s.releaseMigration die)

/-- MOVED_REQUEST_REISSUE: a request that the source of a move refused is issued again (R356). An access of a hart that meets
"moved" leaves the hart at its instruction or entry, which translates anew whenever it is tried; the event gives the selected
hart its turn. -/
def execMovedRequestReissue (s : State) : Result := .next { s with agenda := .hart s.hartId :: s.agenda }

end Sys2Proof.Machine
end

