-- ==== Sys2Proof/Machine/Dispatch.lean ====
section
/-!
DEFINITION. The dispatch of every instruction and event to its meaning: one arm per constructor.
-/

namespace Sys2Proof.Machine

/-- The meaning of an instruction or event. -/
def exec (i : Instr) (s : State) : Host.Outcome State Fault Refusal :=
  match i with
  | .vle d a ff full nt m => Sys2Proof.Machine.execVle d a ff full nt m s
  | .vse d a fes nt m => Sys2Proof.Machine.execVse d a fes nt m s
  | .vlse d a b m => Sys2Proof.Machine.execVlse d a b m s
  | .vsse d a b m => Sys2Proof.Machine.execVsse d a b m s
  | .vlxe d a b m => Sys2Proof.Machine.execVlxe d a b m s
  | .vsxe d a b m => Sys2Proof.Machine.execVsxe d a b m s
  | .vlseg d a fields m => Sys2Proof.Machine.execVlseg d a fields m s
  | .vsseg d a fields m => Sys2Proof.Machine.execVsseg d a fields m s
  | .vssegx d a k m => Sys2Proof.Machine.execVssegx d a k m s
  | .vlsc d a b => Sys2Proof.Machine.execVlsc d a b s
  | .vssc d a b => Sys2Proof.Machine.execVssc d a b s
  | .vstc d a b m => Sys2Proof.Machine.execVstc d a b m s
  | .vldx d a m => Sys2Proof.Machine.execVldx d a m s
  | .vsbind d a slot => Sys2Proof.Machine.execVsbind d a slot s
  | .vsunbind slot => Sys2Proof.Machine.execVsunbind slot s
  | .vcopy d a b kind bar => Sys2Proof.Machine.execVcopy d a b kind bar s
  | .vfeset a b => Sys2Proof.Machine.execVfeset a b s
  | .vfeclr a b => Sys2Proof.Machine.execVfeclr a b s
  | .vpref a b => Sys2Proof.Machine.execVpref a b s
  | .vmv d a m => Sys2Proof.Machine.execVmv d a m s
  | .vbcst d a m => Sys2Proof.Machine.execVbcst d a m s
  | .vperm d a b m => Sys2Proof.Machine.execVperm d a b m s
  | .vslideup d a b m => Sys2Proof.Machine.execVslideup d a b m s
  | .vslidedn d a b m => Sys2Proof.Machine.execVslidedn d a b m s
  | .vcompress d a m => Sys2Proof.Machine.execVcompress d a m s
  | .vexpand d a m => Sys2Proof.Machine.execVexpand d a m s
  | .viota d m => Sys2Proof.Machine.execViota d m s
  | .vredt d a op m => Sys2Proof.Machine.execVredt d a op m s
  | .vredo d a op m => Sys2Proof.Machine.execVredo d a op m s
  | .vscan d a op ex m => Sys2Proof.Machine.execVscan d a op ex m s
  | .vpopc d a m => Sys2Proof.Machine.execVpopc d a m s
  | .vmfirst d a m => Sys2Proof.Machine.execVmfirst d a m s
  | .vmkeepn d a b => Sys2Proof.Machine.execVmkeepn d a b s
  | .vmlogic d a b t => Sys2Proof.Machine.execVmlogic d a b t s
  | .vmovx d a b => Sys2Proof.Machine.execVmovx d a b s
  | .vxmov d a b => Sys2Proof.Machine.execVxmov d a b s
  | .vordkey d a m => Sys2Proof.Machine.execVordkey d a m s
  | .vzip d a b => Sys2Proof.Machine.execVzip d a b s
  | .vunzip d a odd => Sys2Proof.Machine.execVunzip d a odd s
  | .vsortg d a g mods => Sys2Proof.Machine.execVsortg d a g mods s
  | .vassert d uq gr mods => Sys2Proof.Machine.execVassert d uq gr mods s
  | .vmergeg d a => Sys2Proof.Machine.execVmergeg d a s
  | .vmerge2 d a b => Sys2Proof.Machine.execVmerge2 d a b s
  | .vmergeh d a b cnt => Sys2Proof.Machine.execVmergeh d a b cnt s
  | .visect d a b cnt => Sys2Proof.Machine.execVisect d a b cnt s
  | .vdiffk d a b cnt => Sys2Proof.Machine.execVdiffk d a b cnt s
  | .vuniq d a cnt => Sys2Proof.Machine.execVuniq d a cnt s
  | .vrank d a b le => Sys2Proof.Machine.execVrank d a b le s
  | .vpart d a b => Sys2Proof.Machine.execVpart d a b s
  | .vlocate d a b => Sys2Proof.Machine.execVlocate d a b s
  | .vrtagc d => Sys2Proof.Machine.execVrtagc d s
  | .vixins d a b m => Sys2Proof.Machine.execVixins d a b m s
  | .vixlkp d a b m => Sys2Proof.Machine.execVixlkp d a b m s
  | .vixacc d a b op => Sys2Proof.Machine.execVixacc d a b op s
  | .vixdump d a cnt => Sys2Proof.Machine.execVixdump d a cnt s
  | .vixclr => Sys2Proof.Machine.execVixclr s
  | .matt rows => Sys2Proof.Machine.execMatt rows s
  | .mdet => Sys2Proof.Machine.execMdet s
  | .mshape a => Sys2Proof.Machine.execMshape a s
  | .mlds d a b t => Sys2Proof.Machine.execMlds d a b t s
  | .mldsv d a t => Sys2Proof.Machine.execMldsv d a t s
  | .mswap => Sys2Proof.Machine.execMswap s
  | .mmul d a b => Sys2Proof.Machine.execMmul d a b s
  | .mmuls d a b => Sys2Proof.Machine.execMmuls d a b s
  | .mrd d a b rm sat => Sys2Proof.Machine.execMrd d a b rm sat s
  | .mrdq d a b k => Sys2Proof.Machine.execMrdq d a b k s
  | .mzero d => Sys2Proof.Machine.execMzero d s
  | .mwait => Sys2Proof.Machine.execMwait s
  | .vfb a => Sys2Proof.Machine.execVfb a s
  | .vfbm a m => Sys2Proof.Machine.execVfbm a m s
  | .vbconst d a => Sys2Proof.Machine.execVbconst d a s
  | .vdrain scope micro => Sys2Proof.Machine.execVdrain scope micro s
  | .vresume g all => Sys2Proof.Machine.execVresume g all s
  | .vkill => Sys2Proof.Machine.execVkill s
  | .vupd d a b op masked => Sys2Proof.Machine.execVupd d a b op masked s
  | .vamo d a b op remote => Sys2Proof.Machine.execVamo d a b op remote s
  | .vsetl d a b => Sys2Proof.Machine.execVsetl d a b s
  | .vsetli d a imm => Sys2Proof.Machine.execVsetli d a imm s
  | .vsetsh d a b => Sys2Proof.Machine.execVsetsh d a b s
  | .vsetlq d a b => Sys2Proof.Machine.execVsetlq d a b s
  | .sqdecl d a => Sys2Proof.Machine.execSqdecl d a s
  | .sqend a => Sys2Proof.Machine.execSqend a s
  | .barinit a b => Sys2Proof.Machine.execBarinit a b s
  | .barrive a scope => Sys2Proof.Machine.execBarrive a scope s
  | .barwait a => Sys2Proof.Machine.execBarwait a s
  | .bartest d a => Sys2Proof.Machine.execBartest d a s
  | .ldfe d a c => Sys2Proof.Machine.execLdfe d a c s
  | .stfe a b => Sys2Proof.Machine.execStfe a b s
  | .launch d a b => Sys2Proof.Machine.execLaunch d a b s
  | .lstat d a => Sys2Proof.Machine.execLstat d a s
  | .svcall a => Sys2Proof.Machine.execSvcall a s
  | .tcinv a b => Sys2Proof.Machine.execTcinv a b s
  | .vctxsave a port => Sys2Proof.Machine.execVctxsave a port s
  | .vctxrst a port => Sys2Proof.Machine.execVctxrst a port s
  | .lanepart a => Sys2Proof.Machine.execLanepart a s
  | .hexit => Sys2Proof.Machine.execHexit s
  | .hyield => Sys2Proof.Machine.execHyield s
  | .add f => Sys2Proof.Machine.execAdd f s
  | .sub f => Sys2Proof.Machine.execSub f s
  | .mul f => Sys2Proof.Machine.execMul f s
  | .mulh f => Sys2Proof.Machine.execMulh f s
  | .div f => Sys2Proof.Machine.execDiv f s
  | .rem f => Sys2Proof.Machine.execRem f s
  | .and f => Sys2Proof.Machine.execAnd f s
  | .or f => Sys2Proof.Machine.execOr f s
  | .xor f => Sys2Proof.Machine.execXor f s
  | .sll f => Sys2Proof.Machine.execSll f s
  | .srl f => Sys2Proof.Machine.execSrl f s
  | .sra f => Sys2Proof.Machine.execSra f s
  | .min f => Sys2Proof.Machine.execMin f s
  | .max f => Sys2Proof.Machine.execMax f s
  | .abs f => Sys2Proof.Machine.execAbs f s
  | .clz f => Sys2Proof.Machine.execClz f s
  | .popc f => Sys2Proof.Machine.execPopc f s
  | .addi f => Sys2Proof.Machine.execAddi f s
  | .li f => Sys2Proof.Machine.execLi f s
  | .sel f => Sys2Proof.Machine.execSel f s
  | .wadd f => Sys2Proof.Machine.execWadd f s
  | .wmul f => Sys2Proof.Machine.execWmul f s
  | .wmac f => Sys2Proof.Machine.execWmac f s
  | .nclip f => Sys2Proof.Machine.execNclip f s
  | .bext f => Sys2Proof.Machine.execBext f s
  | .bins f => Sys2Proof.Machine.execBins f s
  | .fadd f => Sys2Proof.Machine.execFadd f s
  | .fsub f => Sys2Proof.Machine.execFsub f s
  | .fmul f => Sys2Proof.Machine.execFmul f s
  | .fmulz f => Sys2Proof.Machine.execFmulz f s
  | .fma f => Sys2Proof.Machine.execFma f s
  | .fdiv f => Sys2Proof.Machine.execFdiv f s
  | .fsqrt f => Sys2Proof.Machine.execFsqrt f s
  | .fmin f => Sys2Proof.Machine.execFmin f s
  | .fmax f => Sys2Proof.Machine.execFmax f s
  | .fclass f => Sys2Proof.Machine.execFclass f s
  | .fsgnj f => Sys2Proof.Machine.execFsgnj f s
  | .fcvt f => Sys2Proof.Machine.execFcvt f s
  | .fcvti f => Sys2Proof.Machine.execFcvti f s
  | .icvtf f => Sys2Proof.Machine.execIcvtf f s
  | .lmul f => Sys2Proof.Machine.execLmul f s
  | .lacc f => Sys2Proof.Machine.execLacc f s
  | .lcvtf f => Sys2Proof.Machine.execLcvtf f s
  | .fcvtl f => Sys2Proof.Machine.execFcvtl f s
  | .cmp f => Sys2Proof.Machine.execCmp f s
  | .fcmp f => Sys2Proof.Machine.execFcmp f s
  | .plog f => Sys2Proof.Machine.execPlog f s
  | .pset f => Sys2Proof.Machine.execPset f s
  | .ld f => Sys2Proof.Machine.execLd f s
  | .st f => Sys2Proof.Machine.execSt f s
  | .pf f => Sys2Proof.Machine.execPf f s
  | .lget f => Sys2Proof.Machine.execLget f s
  | .lput f => Sys2Proof.Machine.execLput f s
  | .sget f => Sys2Proof.Machine.execSget f s
  | .mov f => Sys2Proof.Machine.execMov f s
  | .stop f => Sys2Proof.Machine.execStop f s
  | .fetch f => Sys2Proof.Machine.execFetch f s
  | .fetchc f => Sys2Proof.Machine.execFetchc f s
  | .rv64 op => Sys2Proof.Machine.execRv64 op s
  | .fence fm pred succ rd rs1 => Sys2Proof.Machine.execFence fm pred succ rd rs1 s
  | .fenceI imm rd rs1 => Sys2Proof.Machine.execFenceI imm rd rs1 s
  | .sfenceVma rs1 rs2 => Sys2Proof.Machine.execSfenceVma rs1 rs2 s
  | .sret => Sys2Proof.Machine.execSret s
  | .vectorCsrAccess a => Sys2Proof.Machine.execVectorCsrAccess a s
  | .vseedWrite a => Sys2Proof.Machine.execVseedWrite a s
  | .mshapeMirrorWrite a => Sys2Proof.Machine.execMshapeMirrorWrite a s
  | .registerWrite a => Sys2Proof.Machine.execRegisterWrite a s
  | .supervisorInterrupt cause => Sys2Proof.Machine.execSupervisorInterrupt cause s
  | .vectorFaultTrap => Sys2Proof.Machine.execVectorFaultTrap s
  | .fetchGroupForm => Sys2Proof.Machine.execFetchGroupForm s
  | .fetchGroupPark slot => Sys2Proof.Machine.execFetchGroupPark slot s
  | .chainBreak entry boundary => Sys2Proof.Machine.execChainBreak entry boundary s
  | .chainReplay entry => Sys2Proof.Machine.execChainReplay entry s
  | .fullEmptyWaitEnd => Sys2Proof.Machine.execFullEmptyWaitEnd s
  | .fullEmptyWaitAbandon => Sys2Proof.Machine.execFullEmptyWaitAbandon s
  | .barriveFire => Sys2Proof.Machine.execBarriveFire s
  | .barwaitReturn => Sys2Proof.Machine.execBarwaitReturn s
  | .copyAccept => Sys2Proof.Machine.execCopyAccept s
  | .pendingDecrement copy => Sys2Proof.Machine.execPendingDecrement copy s
  | .copyComplete copy => Sys2Proof.Machine.execCopyComplete copy s
  | .copyFault copy => Sys2Proof.Machine.execCopyFault copy s
  | .dispatch => Sys2Proof.Machine.execDispatch s
  | .laneReclaim => Sys2Proof.Machine.execLaneReclaim s
  | .laneGroupPass => Sys2Proof.Machine.execLaneGroupPass s
  | .lqFlush queue => Sys2Proof.Machine.execLqFlush queue s
  | .svqPop die => Sys2Proof.Machine.execSvqPop die s
  | .svtoDeliver die seq => Sys2Proof.Machine.execSvtoDeliver die seq s
  | .migrationStart die => Sys2Proof.Machine.execMigrationStart die s
  | .migrationCopyDone die => Sys2Proof.Machine.execMigrationCopyDone die s
  | .migrationRelease die => Sys2Proof.Machine.execMigrationRelease die s
  | .movedRequestReissue => Sys2Proof.Machine.execMovedRequestReissue s
  | .pgrant value => Sys2Proof.Machine.execPgrant value s
  | .permitGrantReceive h queue asid count => Sys2Proof.Machine.execPermitGrantReceive h queue asid count s
  | .permitReturn h queue asid => Sys2Proof.Machine.execPermitReturn h queue asid s
  | .remoteLaunchReceive h queue asid record => Sys2Proof.Machine.execRemoteLaunchReceive h queue asid record s
  | .rdmaWriteReceive h addr key data => Sys2Proof.Machine.execRdmaWriteReceive h addr key data s
  | .rdmaReadReceive h addr key len => Sys2Proof.Machine.execRdmaReadReceive h addr key len s
  | .remoteAtomicReceive h addr key op fmt value => Sys2Proof.Machine.execRemoteAtomicReceive h addr key op fmt value s
  | .remoteAckReceive h refused value => Sys2Proof.Machine.execRemoteAckReceive h refused value s
  | .remoteAckTimeout req => Sys2Proof.Machine.execRemoteAckTimeout req s
  | .flitReplay flit => Sys2Proof.Machine.execFlitReplay flit s
  | .linkRetrain link => Sys2Proof.Machine.execLinkRetrain link s
  | .linkDisable link => Sys2Proof.Machine.execLinkDisable link s
  | .networkFlitParityError flit addr => Sys2Proof.Machine.execNetworkFlitParityError flit addr s
  | .scrubLine at' found => Sys2Proof.Machine.execScrubLine at' found s
  | .endpointDma endpoint addr data => Sys2Proof.Machine.execEndpointDma endpoint addr data s
  | .powerOn bootgen images => Sys2Proof.Machine.execPowerOn bootgen images s
  | .functionReady f => Sys2Proof.Machine.execFunctionReady f s
  | .powerBudgetLower die => Sys2Proof.Machine.execPowerBudgetLower die s
  | .powerBudgetRaise die => Sys2Proof.Machine.execPowerBudgetRaise die s
  | .thermalTrip die => Sys2Proof.Machine.execThermalTrip die s
  | .lifetimeRecordWrite => Sys2Proof.Machine.execLifetimeRecordWrite s
  | .orderlyPowerOff => Sys2Proof.Machine.execOrderlyPowerOff s
  | .setPwrcap watts => Sys2Proof.Machine.execSetPwrcap watts s
  | .lifetimeRecordRead => Sys2Proof.Machine.execLifetimeRecordRead s
  | .attestationReport nonce => Sys2Proof.Machine.execAttestationReport nonce s
  | .abruptLossOfPower => Sys2Proof.Machine.execAbruptLossOfPower s
  | .retrainingEnd link ok => Sys2Proof.Machine.execRetrainingEnd link ok s
  | .connectionFailure dev => Sys2Proof.Machine.execConnectionFailure dev s
  | .rdmaReadResponseReceive h data => Sys2Proof.Machine.execRdmaReadResponseReceive h data s
  | .resultAcknowledgmentReceive h => Sys2Proof.Machine.execResultAcknowledgmentReceive h s
  | .grantAcknowledgmentReceive h queue asid accepted count => Sys2Proof.Machine.execGrantAcknowledgmentReceive h queue asid accepted count s

end Sys2Proof.Machine
end

