-- ==== Sys2Proof/Machine/Due.lean ====
section
/-!
DEFINITION. The events that come by themselves: work that an agent of the package has to do now (notes/assumptions/1.md). An event
named here changes the state, so that it does not come again at once.
-/

namespace Sys2Proof.Machine

/-- What a copy engine does with a copy now: it moves it along, meets a fault, or takes its bytes out of PENDING; none where the copy
waits. -/
def State.copyDue (s : State) (c : Copy) : Option Instr :=
  let reachable := c.owed == 0 || (s.release c c.owed).isSome
  if c.written then
    (if c.held.isSome then none else if c.bar.isNone then some (.copyComplete c.id) else if reachable then some (.pendingDecrement c.id) else none)
  else if c.bar.isSome && c.owed != 0 && reachable then some (.pendingDecrement c.id)
  else if c.held.isSome then none
  else match moveCopy s c with
    | (_, true) => some (.copyFault c.id)
    | (t, false) =>
      if t.copy? c.id = s.copy? c.id ∧ t.remote.nextReq = s.remote.nextReq then none else some (.copyComplete c.id)

/-- What a link does now: retrain after 16 replays, or be disabled after three failures (R363). -/
def linkDue (p : Nat × Link) : Option Instr :=
  let l := p.2
  if linkCount ≤ p.1 then none
  else if l.retraining then (if 3 ≤ l.failed then some (.linkDisable p.1) else none)
  else if l.up && decide (16 ≤ l.replays) then some (.linkRetrain p.1)
  else none

/-- What the dispatchers do now (R305, R309 to R316). -/
def State.launchDue (s : State) : Option Instr :=
  if s.queues.isEmpty then none
  else match s.queues.find? fun p => p.2.flush.isSome with
    | some (q, _) => some (.lqFlush (Fin.ofNat 64 q))
    | none =>
      if s.dispatched.isSome then some .dispatch
      else if s.reclaimed.isSome then some .laneReclaim
      else none

/-- What the lanes and chains of the selected hart do now (R262, R269). -/
def Hart.laneDue (h : Hart) : Option Instr :=
  if !h.live then none
  else if h.resizeReady then some .laneGroupPass
  else match h.vwork.head? with
    | some e => if Store.get 0 h.chains e.seq ≠ 0 then some (.chainReplay 0) else none
    | none => none

/-- A request that has had no answer for 2^32 cycles (R371). -/
def State.timeoutDue (s : State) : Option Instr :=
  (s.remote.outstanding.find? fun r => r.answer.isNone && decide (r.sent + 2 ^ 32 ≤ s.cycle)).map fun r => .remoteAckTimeout r.req

/-- A move of a page that goes on (R355). -/
def State.migrationDue (s : State) : Option Instr :=
  (s.migrations.find? fun p => p.2.busy && s.migrationRoute p.1 && decide (p.1 < 4)).map fun p => .migrationCopyDone (Fin.ofNat 4 p.1)

/-- THE EVENT THAT IS DUE. -/
def State.due (s : State) : Option Instr :=
  s.hart.laneDue.orElse fun _ =>
  (s.copies.findSome? s.copyDue).orElse fun _ =>
  s.launchDue.orElse fun _ =>
  s.timeoutDue.orElse fun _ =>
  s.migrationDue.orElse fun _ =>
  s.links.findSome? linkDue

end Sys2Proof.Machine
end

