-- ==== Sys2Proof/Machine/Schedule.lean ====
section
/-!
DEFINITION. Who moves: the vector side of a hart, interrupts, the fetch and execution of the control thread's next instruction,
and the order in which harts and other agents take their turns (notes/assumptions/1.md). `run` is `exec`, which the step supplies.
-/

namespace Sys2Proof.Machine

/-! ## The vector side of the selected hart (R254, R259) -/

/-- An entry that was tried has moved: the queues, a pending fault, a wait or the round has changed. -/
def Hart.movedFrom (t s : Hart) : Bool :=
  decide (t.vq ≠ s.vq) || decide (t.mq ≠ s.mq) || decide (t.vfault.isSome ≠ s.vfault.isSome) ||
    decide (t.mfault.isSome ≠ s.mfault.isSome) || decide (t.headWait ≠ s.headWait) || decide (t.round.isSome ≠ s.round.isSome)

/-- An entry performed: its answer, or none where it has not moved. -/
def tryEntry (run : Instr → State → Result) (s : State) (e : QEntry) : Option Result :=
  (decodeControl e.word).bind fun i =>
    match run i { s with hart := { s.hart with replay := some e } } with
    | .next t => if t.hart.movedFrom s.hart || decide (t.remote.nextReq ≠ s.remote.nextReq) then some (.next t) else none
    | other => some other

/-- One move of the vector side: of the round, of the vector queue, or of the matrix queue; none where none can move. -/
def vectorMove (run : Instr → State → Result) (s : State) : Option Result :=
  match roundMove run s with
  | some r => some r
  | none =>
    match s.hart.vnext.bind (tryEntry run s) with
    | some r => some r
    | none => s.hart.mnext.bind (tryEntry run s)

/-! ## Interrupts (the privileged architecture; R318, R357) -/

/-- The order in which pending interrupts of one mode are taken: external, software, timer of M and then of S, then the others. -/
def interruptOrder : List Nat := [11, 3, 7, 9, 1, 5] ++ [16, 0, 2, 4, 6, 8, 10, 12, 13, 14, 15] ++ (List.range 47).map (· + 17)

/-- The interrupt that the selected hart takes now: pending, enabled, and open to the mode. -/
def Hart.interrupt? (h : Hart) : Option Nat :=
  let c := h.csr
  let pending := c.mip &&& c.mie
  let open' (i : Nat) : Bool :=
    pending.getLsbD i &&
      (if c.mideleg.getLsbD i then h.mode == .u || (h.mode == .s && c.sie)
       else h.mode != .m || c.mieBit)
  (interruptOrder.filter fun i => !c.mideleg.getLsbD i).find? open' |>.orElse fun _ => interruptOrder.find? open'

/-! ## The control thread of the selected hart -/

/-- A word that decodes to no instruction: illegal on a B7 hart (R69, R81); on an application core an OVIS word is illegal, and
the other words are those of RVA23 (R70), which the spec names and does not define. -/
def illegalWord (s : State) (w : BitVec 32) : Result :=
  if s.hart.app && !([0x0B, 0x2B, 0x5B, 0x7B].contains (w.toNat % 128)) then .refused (.applicationCore w)
  else .next (s.illegalWord (w.setWidth 64))

/-- An application core decodes the standard instructions, LAUNCH and LSTAT (R70). -/
def appDecodes : Instr → Bool
  | .launch .. | .lstat .. | .rv64 _ | .fence .. | .fenceI .. | .sfenceVma .. | .sret => true
  | _ => false

/-- The control thread executes the instruction that a word decodes to. -/
def runWord (run : Instr → State → Result) (s : State) (w : BitVec 32) : Result :=
  match decodeControl w with
  | none => illegalWord s w
  | some i => if s.hart.app && !appDecodes i then illegalWord s w else run i s

/-- The 16 bits of code at an address, as an application core fetches them one after another where its pc is no multiple of 4 (R1, R70). -/
def halfWord (s : State) (va : Word) (go : BitVec 16 → Result) : Result :=
  match translate s s.agent s.fetchSpace .fetch va with
  | .page => .next (s.takeTrap causeFetchPage va)
  | .access _ => .next (s.takeTrap causeFetchAccess va)
  | .moved => .next s
  | .ok pa _ =>
    match codeWord s pa 2 with
    | none => .next (s.takeTrap causeFetchAccess va)
    | some w => go (w.setWidth 16)

/-- The next instruction of an application core whose pc is no multiple of 4. -/
def halfMove (run : Instr → State → Result) (s : State) : Result :=
  let pc := s.hart.pc
  let s := { s with hart := { s.hart with region := none } }
  halfWord s pc fun lo =>
    if lo.extractLsb' 0 2 ≠ 3#2 then illegalWord s (lo.setWidth 32)
    else halfWord s (pc + 2#64) fun hi => runWord run s (hi ++ lo)

/-- The control thread fetches its next word and executes the instruction it decodes to. -/
def controlMove (run : Instr → State → Result) (s : State) : Result :=
  if s.hart.pc.toNat % 4 ≠ 0 then
    if s.hart.app then halfMove run s else .next (s.takeTrap causeFetchMisaligned s.hart.pc)
  else match fetchWord s with
    | .trap cause => .next (s.fetchTrap cause)
    | .wait => .next s
    | .word w s => runWord run s w

/-- The control thread waits for something that another agent does: a service answer (R247). -/
def Hart.parked (h : Hart) : Bool :=
  match h.waiting with
  | .service _ => true
  | _ => false

/-- One move of the control thread: an interrupt is taken at an instruction boundary (R318); else the next instruction. -/
def threadMove (run : Instr → State → Result) (s : State) : Result :=
  match s.hart.interrupt? with
  | some i => .next { s with hart := s.hart.takeTrap true i 0#64 }
  | none => if s.hart.parked then .next s else controlMove run s

/-! ## Full-empty waits -/

/-- A wait since a cycle for a granule: it counts anew while the granule's bit is set (R344). -/
def renewWait (full : Nat → Bool) (cycle : Nat) (w : Nat × Nat) : Nat × Nat := if full w.2 then (cycle, w.2) else w

/-- The hart whose full-empty waits count anew where the bit is set. -/
def Hart.renewWaits (full : Nat → Bool) (cycle : Nat) (h : Hart) : Hart :=
  { h with
    waiting := match h.waiting with
      | .ldfe since g freed => .ldfe (renewWait full cycle (since, g)).1 g freed
      | w => w
    headWait := h.headWait.map (renewWait full cycle)
    round := h.round.map fun r => { r with micros := r.micros.map fun m => { m with waited := m.waited.map (renewWait full cycle) } } }

/-- The state in which every full-empty wait counts the cycles since its granule's bit was last seen set: 2^30 consecutive ones abandon it
(R344). -/
def State.renewWaits (s : State) : State :=
  if s.fullEmpty.isEmpty then s
  else
    let renew (h : Hart) : Hart := h.renewWaits (Store.get false s.fullEmpty) s.cycle
    { s with hart := renew s.hart, others := s.others.map fun p => (p.1, renew p.2) }

/-! ## Turns -/

/-- The harts that run, by number. -/
def State.liveHarts (s : State) : List Nat := (s.allHarts.filter fun p => p.2.live).map (·.1)

/-- The state with the next hart that runs selected: the next number above the selected one, or the lowest. -/
def State.nextHart (s : State) : State :=
  match s.liveHarts.find? (decide <| s.hartId < ·), s.liveHarts.head? with
  | some id, _ => s.select id
  | none, some id => s.select id
  | none, none => s

/-- After a move that leaves the selected hart at its instruction, the next hart that runs is selected. -/
def rotate (before after : State) : State :=
  if after.hartId = before.hartId ∧ after.hart.live ∧ after.hart.pc ≠ before.hart.pc then after else after.nextHart

/-- The answer of a move of the control thread, with the turn passed on where the thread stays where it is. -/
def passTurn (before : State) : Result → Result
  | .next s => .next (rotate before s)
  | other => other

/-- The answer of a move that was to stop midway, with the stop of its hart lifted. -/
def unpause (id : Nat) : Result → Result
  | .next t => .next (t.setHart id { t.getHart id with pause := none })
  | other => other

/-- One move of the selected hart that stops midway, at an element of the entry that moves (R175, R349): its vector side, or, where that
cannot move, its control thread with the instruction that it performs at once. -/
def partMove (run : Instr → State → Result) (elem : Nat) (s : State) : Result :=
  let p := { s with hart := { s.hart with pause := some elem } }
  match vectorMove run p with
  | some r => unpause s.hartId r
  | none => passTurn s (unpause s.hartId (threadMove run p))

/-- A move of the selected hart that the agenda names; a hart that does not run makes none (R382). -/
def liveMove (s : State) (r : Result) : Result := if s.hart.live then r else .next s

/-- One move of the selected hart: its vector side first, then its control thread. A hart that does not run passes its turn. -/
def hartMove (run : Instr → State → Result) (s : State) : Result :=
  if s.hart.live then
    match vectorMove run s with
    | some r => r
    | none => passTurn s (threadMove run s)
  else .next s.nextHart

/-- The move that comes by itself: nothing while the power is off; an event that is due; else the selected hart. -/
def defaultMove (run : Instr → State → Result) (s : State) : Result :=
  if !s.power.on then .next s
  else match s.due with
    | some i => run i s
    | none => hartMove run s

end Sys2Proof.Machine
end

