-- ==== Sys2Proof/Machine/Step.lean ====
section
/-!
DEFINITION. One step of the package: one cycle, in which the agent whose turn it is makes one move (notes/assumptions/1.md and
8.md).
-/

namespace Sys2Proof.Machine

/-- ONE STEP. The cycle count advances, and full-empty waits whose bit is set count anew; then what the agenda names moves, or, with nothing on
it, the selected hart. -/
def step (s : State) : Result :=
  let s := ({ s with cycle := s.cycle + 1 } : State).renewWaits
  match s.agenda with
  | .event i :: rest => exec i { s with agenda := rest }
  | .hart id :: rest => .next ({ s with agenda := rest }.select id)
  | .control :: rest => liveMove { s with agenda := rest } (passTurn s (threadMove exec { s with agenda := rest }))
  | .vector :: rest => liveMove { s with agenda := rest } ((vectorMove exec { s with agenda := rest }).getD (.next { s with agenda := rest }))
  | .part elem :: rest => liveMove { s with agenda := rest } (partMove exec elem { s with agenda := rest })
  | [] => defaultMove exec s

/-- The state in which the selected hart runs in M-mode at an address of die SRAM that is ready, with the word there, its turn to
move and nothing in the way: what a load of a program from outside gives (notes/assumptions/7.md). -/
def State.withControlWord (s : State) (w : Nat) : State :=
  let h := s.hart
  { s with
    hart := { h with live := true, app := false, mode := .m, pc := BitVec.ofNat 64 sramBase, region := none, waiting := .nothing,
                     csr := { h.csr with mip := 0#64 } }
    agenda := [.control]
    memory := Memory.writeNum s.memory sramBase 4 w
    poison := s.poison.filter fun p => p.1 != sramBase / 64
    migrations := []
    ready := Store.put 0#64 s.ready 16 (Store.get 0#64 s.ready 16 ||| 0x2000000000000#64)
    cores := Store.put CoreState.reset s.cores (coreOf s.hartId) { s.core (coreOf s.hartId) with tc := [] } }

/-- The state in which the selected hart's round has one micro-thread that stands at a block instruction: the words are stored
at an address of die SRAM, and the fetch group of the micro-thread has read them (notes/assumptions/7.md). -/
def State.withBlockWord (s : State) (n w : Nat) : State :=
  let block := BitVec.ofNat 64 sramBase
  let code : List (Nat × Instr) := match decodeBlock (wordsOf n w) with
    | .ok i k => [(k - 1, i)]
    | .faulty _ => []
  let t : VType := ⟨.fp32, 0, 0, false, false, false, 31⟩
  let micro : Micro := ⟨0, true, true, 0, block, 0, .running, .group 0, none, none⟩
  let round : Round :=
    { seq := s.hart.seq, strip := s.hart.vc.strip, vl := 1, log2vlen := 15, vtype := t, opened := false, holding := .no,
      overflow := none, mode := .m, micros := [micro], groups := [⟨0, block, code, false, s.cycle, []⟩], codes := [], nextId := 1 }
  { s with
    hart := { s.hart with live := true, round := some round, mt := none,
                          vec := { s.hart.vec with poisonV := 0#32, poisonM := 0#8, poisonK := 0#16 } }
    agenda := [.vector]
    memory := Memory.writeNum s.memory sramBase (8 * n) w
    ready := Store.put 0#64 s.ready 16 (Store.get 0#64 s.ready 16 ||| 0x2000000000000#64) }

/-- The state with an instruction stored where the step fetches its next instruction (notes/assumptions/7.md): a control word is
run by the control thread, the words of a block instruction by a micro-thread. -/
def State.withFetchWord (s : State) (nbits w : Nat) : State :=
  if nbits ≤ 32 then s.withControlWord (w % 2 ^ nbits) else s.withBlockWord ((nbits + 63) / 64) (w % 2 ^ nbits)

end Sys2Proof.Machine
end

