-- ==== Sys2Proof/Safety.lean ====
section
/-!
DEFINITION. What claims about runs are said in: the invariants that every step keeps, when a run is safe, the conditions under which an
instruction is performed at once, and what an instruction leaves unchanged.
-/

namespace Sys2Proof.Machine

/-! ## Invariants and runs -/

/-- The planes and tiles of an attachment have the canonical form of tables. -/
def Attachment.canonical (a : Attachment) : Bool :=
  ([a.active, a.shadow].all fun p => Store.wf 0#64 p.cells && Store.wf 127#8 p.scales) &&
  (List.finRange 4).all fun i => Store.wf 0#64 (a.tiles[i]).cells

/-- The index table and the attachment of a hart have the canonical form of tables. -/
def Hart.canonical (h : Hart) : Bool := Store.wf none h.ixt && h.attachment.all Attachment.canonical

/-- The keys of a table rise. -/
abbrev Rising {α : Type} (m : List (Nat × α)) : Prop := m.Pairwise fun p q => p.1 < q.1

/-- THE CANONICAL FORM: in memory, in the full-empty and poison bits, and in the tables of every hart the keys rise, and nothing is listed
that reads as an unlisted key does; the keys of the harts and of the cores rise. -/
def Canonical (s : State) : Prop :=
  Rising s.others ∧ Rising s.cores ∧
  Memory.wf s.memory = true ∧ Store.wf false s.fullEmpty = true ∧ Store.wf false s.poison = true ∧ s.hart.canonical = true ∧
  ∀ p ∈ s.others, p.2.canonical = true

/-- The state after `n` steps, where none of them stops. -/
def runFor : Nat → State → Result
  | 0, s => .next s
  | n + 1, s =>
    match step s with
    | .next t => runFor n t
    | other => other

/-- A run is safe when no step of it stops: the machine faults nowhere, and meets nothing that the spec does not define. -/
def Safe (s : State) : Prop := ∀ n, ∃ t, runFor n s = .next t

/-! ## When a vector instruction is performed at once -/

/-- Nothing of the vector side of a hart is queued, in progress, held, waiting or pending. -/
def Hart.idle (h : Hart) : Bool :=
  h.replay.isNone && h.vq.isEmpty && h.mq.isEmpty && h.vfault.isNone && h.mfault.isNone && !h.vheld && !h.mheld &&
  h.round.isNone && h.resume.isEmpty && h.sread.isNone && h.headWait.isNone && h.chains.isEmpty && h.lanes.resizes.isEmpty &&
  h.pause.isNone

/-- No stream is bound. -/
def Hart.unbound (h : Hart) : Bool := (List.finRange 4).all fun i => (h.streams[i]).isNone

/-- No register is poisoned. -/
def VecFile.clean (f : VecFile) : Bool :=
  f.poisonV == 0#32 && f.poisonM == 0#8 && f.poisonK == 0#16 && f.poisonTag == 0#32 && f.poisonIxt.isEmpty

/-- The vector type of the hart is one that R56 allows, and vl is at most VLMAX (R44, R222). -/
def Hart.fits (h : Hart) : Bool :=
  match h.vc.vtype with
  | none => true
  | some t => t.legal && decide (h.vc.vl ≤ t.mul * h.vlen / t.sew)

/-- Every hart of the package fits (R44, R56, R222): the selected one and the others. -/
def Fits (s : State) : Prop := s.hart.fits = true ∧ ∀ p ∈ s.others, p.2.fits = true

/-- A queued instruction of the hart is performed as it is issued: nothing stands before it, no stream is bound, and no register is
poisoned. -/
abbrev Quick (s : State) : Prop := s.hart.idle = true ∧ s.hart.unbound = true ∧ s.hart.vec.clean = true

/-- A queued instruction of the hart that reads no bound group is performed as it is issued. -/
abbrev Prompt (s : State) : Prop := s.hart.idle = true ∧ s.hart.vec.clean = true

/-- A queued instruction of a hart that holds lane groups is performed as it is issued, under the vector type `t`. -/
abbrev Ready (s : State) (t : VType) : Prop :=
  Quick s ∧ s.hart.fits = true ∧ s.hart.lanes.held ≠ [] ∧ s.hart.vc.vtype = some t

/-- No fault of a copy of the hart is pending at a synchronising point. -/
abbrev NoCopyFault (s : State) : Prop := s.copyFault?.isNone = true

/-! ## What a queued instruction changes -/

/-- The state in which a queued instruction has been issued and has completed, its effect aside: the pc has moved past it, and it has
its number in program order. `start` says that it uses `vstart`, which is then 0 (R59), and `counted` that `vqpos` counts it (R63). -/
def State.issued (s : State) (start counted : Bool) : State :=
  let h := s.hart.goTo (s.hart.pc + 4#64)
  { s with hart := { h with
      seq := h.seq + 1
      vc := { h.vc with
        vstart := if start then 0 else h.vc.vstart
        seqDone := if counted then h.vc.seqDone + 1#32 else h.vc.seqDone } } }

/-- The state in which a vector instruction has been issued and has completed, its effect aside. -/
abbrev State.done (s : State) : State := s.issued true true

/-- `t` is `u` but for data: the vector, mask and scale registers, the flags, the index table, the streams, the free values used,
and memory with its full-empty bits, poison and reservations. -/
def OnlyData (u t : State) : Prop :=
  t = { u with
    hart := { u.hart with
      vec := t.hart.vec
      vc := { u.hart.vc with vxflags := t.hart.vc.vxflags }
      ixt := t.hart.ixt
      streams := t.hart.streams }
    free := t.free
    memory := t.memory
    reservations := t.reservations
    fullEmpty := t.fullEmpty
    poison := t.poison }

/-- Memory, its full-empty bits, its poison and the reservations are as they were. -/
def SameMemory (s t : State) : Prop :=
  t.memory = s.memory ∧ t.reservations = s.reservations ∧ t.fullEmpty = s.fullEmpty ∧ t.poison = s.poison

/-- The flags are as they were, and no free value has been used. -/
def SameFlags (s t : State) : Prop := t.hart.vc.vxflags = s.hart.vc.vxflags ∧ t.free = s.free

/-- The index table and the streams are as they were. -/
def SameTables (s t : State) : Prop := t.hart.ixt = s.hart.ixt ∧ t.hart.streams = s.hart.streams

/-- The registers outside the sets `v`, `m` and `k` hold what they held, and so do the block constants; a tag of a register outside
`tagged` is as it was or cleared (R51). -/
def SameOutside (f g : VecFile) (v : BitVec 32) (m : BitVec 8) (k : BitVec 16) (tagged : BitVec 32) : Prop :=
  (∀ r : Fin 32, v.getLsbD r.val = false → g.v[r] = f.v[r]) ∧
  (∀ r : Fin 8, m.getLsbD r.val = false → g.m[r] = f.m[r]) ∧
  (∀ r : Fin 16, k.getLsbD r.val = false → g.k[r] = f.k[r]) ∧
  g.b = f.b ∧
  (∀ r : Fin 32, tagged.getLsbD r.val = false → g.tag[r] = f.tag[r] ∨ g.tag[r] = none)

/-- From `u`, the state `s` advanced past an instruction, `t` differs in registers alone, those of the sets `v`, `m` and `k`, with the
tags of those of `tagged`: every other register, flag and table, and all of memory, are as in `s`. -/
def WritesRegs (s u t : State) (v : BitVec 32) (m : BitVec 8) (k : BitVec 16) (tagged : BitVec 32) : Prop :=
  OnlyData u t ∧ SameMemory s t ∧ SameFlags s t ∧ SameTables s t ∧ SameOutside s.hart.vec t.hart.vec v m k tagged

/-- The same of an instruction that also accrues flags, which stay set once they are (R37, R38), and may draw free values. -/
def WritesRegsAndFlags (s u t : State) (v : BitVec 32) (m : BitVec 8) (k : BitVec 16) (tagged : BitVec 32) : Prop :=
  OnlyData u t ∧ SameMemory s t ∧ s.hart.vc.vxflags ||| t.hart.vc.vxflags = t.hart.vc.vxflags ∧ SameTables s t ∧
  SameOutside s.hart.vec t.hart.vec v m k tagged

/-- Element `k` of the group at a register, under a vector type. -/
def State.element (s : State) (t : VType) (v : VName) (k : Nat) : Nat := s.hart.vec.elem s.hart.vlen v.val t.sew k

/-- The same with its ignored bits zero, as an element is copied (R17, R18). -/
def State.value (s : State) (t : VType) (v : VName) (k : Nat) : Nat := t.raw (s.element t v k)

/-- VLMAX of the hart under a type: LMUL × VLEN / SEW. -/
def State.maxElems (s : State) (t : VType) : Nat := t.mul * s.hart.vlen / t.sew

/-- An element of a destination that is not written: 0 where its policy says so, otherwise what it held (R57). -/
def State.kept (s : State) (ty : VType) (policy : Bool) (d : VName) (k : Nat) : Nat := if policy then 0 else s.element ty d k

/-- The elements of the destination group `d` after an element-wise instruction that writes from element `lo` on: from vl on they follow
TP; below `lo` they hold what they held; active ones have the value; inactive ones follow MP (R57, R124, R125). -/
def ElementsWritten (s t : State) (ty : VType) (d : VName) (m : Option MName) (lo : Nat) (val : Nat → Nat) : Prop :=
  ∀ k, k < s.maxElems ty →
    t.element ty d k =
      if s.hart.vc.vl ≤ k then s.kept ty ty.tp d k
      else if k < lo then s.element ty d k
      else if s.hart.vec.active m k then val k % 2 ^ ty.sew
      else s.kept ty ty.mp d k

/-- The tags of the registers of a set are cleared. -/
def Untagged (t : State) (set : BitVec 32) : Prop := ∀ r : Fin 32, set.getLsbD r.val = true → t.hart.vec.tag[r] = none

/-- No vector register and no tag has changed. -/
def SameVectors (s t : State) : Prop := t.hart.vec.v = s.hart.vec.v ∧ t.hart.vec.tag = s.hart.vec.tag

/-- An element-wise instruction into the group `d` has completed (R152, class E): with `vstart` at or above vl it performs nothing;
otherwise the destination has its elements, written from `lo` on, and no tag. -/
def Elementwise (s t : State) (ty : VType) (d : VName) (m : Option MName) (lo : Nat) (val : Nat → Nat) : Prop :=
  WritesRegs s s.done t (groupSet ty.mul d.val) 0#8 0#16 0#32 ∧
  (if s.hart.vc.vl ≤ s.hart.vc.vstart then SameVectors s t
   else ElementsWritten s t ty d m (max s.hart.vc.vstart lo) val ∧ Untagged t (groupSet ty.mul d.val))

/-- A whole-vector instruction into the group `d` has completed (R152, class W): at vl = 0 it performs nothing; otherwise element `k` of
the destination is `val k` below `n`, the elements from `n` on follow TP, and the group has no tag. -/
def WholeVector (s t : State) (ty : VType) (d : VName) (n : Nat) (val : Nat → Nat) : Prop :=
  WritesRegs s s.done t (groupSet ty.mul d.val) 0#8 0#16 0#32 ∧
  (if s.hart.vc.vl = 0 then SameVectors s t
   else (∀ k, k < s.maxElems ty → t.element ty d k = if k < n then val k % 2 ^ ty.sew else s.kept ty ty.tp d k) ∧
     Untagged t (groupSet ty.mul d.val))

/-- The elements below `n` at which a mask is set, in order. -/
def State.marked (s : State) (m : MName) (n : Nat) : List Nat := (List.range n).filter (s.hart.vec.maskBit m)

/-- The bits of a mask register after an instruction that writes a mask: the value below vl, and from vl to VLMAX 0 or what they held,
by TP (R57, R161). -/
def MaskWritten (s t : State) (ty : VType) (d : MName) (bit : Nat → Bool) : Prop :=
  ∀ k, k < maxVlen → t.hart.vec.maskBit d k =
    if k < s.hart.vc.vl then bit k
    else if ty.tp && decide (k < s.maxElems ty) then false else s.hart.vec.maskBit d k

/-! ## Reductions and scans (R40, R158 to R160) -/

/-- Op(x, y) of R158, with the flags it raises, under a rounding mode and the draw that SR takes. -/
def opValue (f : Fmt) (op : RedOp) (mode : Rounding) (draw : BitVec 16) (x y : Nat) : Nat × Flags :=
  let i := f.toInt x
  let j := f.toInt y
  match op with
  | .sum => if f.isInt then (wrapInt f.slot (i + j), 0) else f.fadd ⟨mode, draw, false⟩ x y
  | .min => if f.isInt then (wrapInt f.slot (min i j), 0) else f.fminmax false x y
  | .max => if f.isInt then (wrapInt f.slot (max i j), 0) else f.fminmax true x y
  | .and => (x &&& y, 0)
  | .or => (x ||| y, 0)
  | .xor => (x ^^^ y, 0)
  | .ssum => (wrapInt f.slot (clampInt f.intMin f.intMax (i + j)), 0)

/-- A value and its flags combined with a further element. -/
def opOnto (op : Nat → Nat → Nat × Flags) (c : Nat × Flags) (x : Nat) : Nat × Flags :=
  let r := op c.1 x
  (r.1, c.2 ||| r.2)

/-- The combination of a start value with the first `n` slots, in element order; slot `k` is combined by `op k` (R40, Ordered). -/
def orderedValue (op : Nat → Nat → Nat → Nat × Flags) (slot : Nat → Option Nat) (start : Nat) : Nat → Nat × Flags
  | 0 => (start, 0)
  | k + 1 =>
    let c := orderedValue op slot start k
    ((slot k).map (opOnto (op k) c)).getD c

/-- The combination of the 2^j slots from `i` on over a binary tree, where the two halves of 2^j slots from `i` on are combined by
`op j i`; an absent slot contributes nothing (R40, Tree). -/
def treeValue (op : Nat → Nat → Nat → Nat → Nat × Flags) (slot : Nat → Option Nat) : Nat → Nat → Option (Nat × Flags)
  | 0, i => (slot i).map (·, 0)
  | j + 1, i =>
    match treeValue op slot j i, treeValue op slot j (i + 2 ^ j) with
    | some x, some y => some ((opOnto (op j i) x y.1).1, (opOnto (op j i) x y.1).2 ||| y.2)
    | some x, none => some x
    | none, y => y

/-- The combination of the first `n` slots of a scan, if one is present (R160). -/
def scanValue (first : Nat → Nat × Flags) (op : Nat → Nat → Nat → Nat × Flags) (slot : Nat → Option Nat) :
    Nat → Option (Nat × Flags)
  | 0 => none
  | k + 1 =>
    match slot k, scanValue first op slot k with
    | none, c => c
    | some x, none => some (first x)
    | some x, some c => some (opOnto (op k) c x)

/-! ## Runs (R166 to R174) -/

/-- The first `n` elements of a group with their payloads, whose width a tag or a modifier gives. -/
def State.run (s : State) (t : VType) (v : VName) (n : Nat) (pay : Option (Fin 4)) : List RunElem :=
  (List.range n).map fun k =>
    ⟨s.value t v k, (pay.map fun pw => s.hart.vec.elem s.hart.vlen (v.val + 16) (payloadBits pw) k).getD 0⟩

/-- The elements of `ys` are in run order, and they are those of `xs` with elements of equal rank in the order of `xs` (R166, R167): `ys`
is the stable sort of `xs`. -/
abbrev StableSort (f : Fmt) (desc : Bool) (ys xs : List RunElem) : Prop :=
  (ys.Pairwise fun x y => runLess f desc y.key x.key = false) ∧
  ∀ z ∈ xs ++ ys, (ys.filter fun y => runRank f y.key == runRank f z.key) = xs.filter fun x => runRank f x.key == runRank f z.key

/-- The elements of a list are in run order. -/
abbrev InOrder (f : Fmt) (desc : Bool) (xs : List RunElem) : Prop := xs.Pairwise fun x y => runLess f desc y.key x.key = false

/-- A source carries the tag that a run instruction needs: its key format is the current one, and its payload group is legal (R172). -/
abbrev Tagged (s : State) (t : VType) (v : VName) (g : RunTag) : Prop :=
  s.hart.vec.tag[v] = some g ∧ g.kf = t.fmt ∧ ∀ pw, g.payload = some pw → (t.runGroup v pw).payOk (t.payloadGroup pw) = true

/-- The payload that a source tag brings to a destination of key and payload groups: its group is legal and shares no register with the
sources (R171). -/
abbrev PayloadFits (t : VType) (g : RunTag) (d : RunDest) (srcs : List VName) : Prop :=
  ∀ pw, g.payload = some pw → (d.at' t pw).payOk (t.payloadGroup pw) = true ∧
    ∀ v ∈ srcs, (t.runGroup v pw).set true &&& (d.at' t pw).set true = 0#32

/-- The registers that a destination takes under a payload. -/
def RunDest.all (d : RunDest) (t : VType) (pay : Option (Fin 4)) : BitVec 32 := (d.at' t (pay.getD 0)).set pay.isSome

/-- The register of a destination whose tag an instruction sets. -/
abbrev tagOf (d : VName) : BitVec 32 := groupSet 1 d.val

/-! ## The index table (R188 to R195) -/

/-- The active elements below vl, in order. -/
def State.actives (s : State) (m : Option MName) : List Nat := (List.range s.hart.vc.vl).filter (s.hart.vec.active m)

/-- From `u`, the state `s` advanced past an instruction, `t` differs in the index table, in vector registers of the set `v` and mask
registers of the set `m`, and in flags that it has set: every other register and all of memory are as in `s`. -/
def WritesTable (s u t : State) (v : BitVec 32) (m : BitVec 8) (tagged : BitVec 32) : Prop :=
  OnlyData u t ∧ SameMemory s t ∧ s.hart.vc.vxflags ||| t.hart.vc.vxflags = t.hart.vc.vxflags ∧
  t.hart.streams = s.hart.streams ∧ SameOutside s.hart.vec t.hart.vec v m 0#16 tagged

/-- The table after the insertion of the key and value of elements, in order, and the elements that found no place (R191). -/
def Ixt.insertAll (t : Ixt) (n : Nat) (key val : Nat → Word) : List Nat → Ixt × List Nat
  | [] => (t, [])
  | k :: ks =>
    let r := Ixt.insert t n (key k) (val k)
    let (t', fails) := Ixt.insertAll r.1 n key val ks
    (t', if r.2 then k :: fails else fails)

/-- The table after elements have been accumulated into it, in order, and the elements that found no place (R193): the value of a key
present is combined with the element's, and an absent key is inserted with it. -/
def Ixt.accumulateAll (t : Ixt) (n : Nat) (key val : Nat → Word) (comb : Word → Word → Word) : List Nat → Ixt × List Nat
  | [] => (t, [])
  | k :: ks =>
    let r := Ixt.insert t n (key k) (match Ixt.lookup t n (key k) with
      | none => val k
      | some v => comb v (val k))
    let (t', fails) := Ixt.accumulateAll r.1 n key val comb ks
    (t', if r.2 then k :: fails else fails)

/-! ## Grants (R221 to R228) -/

/-- The state after a grant from `s` that made the lane changes `u`: the type, vl and VLMAX, what limited it, and vl in X[d]; the next
strip interval begins. -/
def State.regranted (s u : State) (d : XReg) (type : Option VType) (vl vlmax : Nat) (pwr ceil : Bool) : State :=
  let vc := { u.hart.vc with
    vtype := type, vl := vl, vlmax := vlmax, shrunk := decide (u.hart.nlg < s.hart.nlg), pwr := pwr, ceil := ceil,
    strip := u.hart.vc.strip + 1 }
  ({ u with hart := { u.hart with vc := vc } }.setX d (BitVec.ofNat 64 vl)).advance

/-- What vl is at most at a grant (R222): AVL, VLMAX, the powered groups, the ceiling of the start record where there is one, and what
the bound streams have left. -/
def State.grantLimits (u : State) (t : VType) (avl : Nat) : List Nat :=
  [avl, u.maxElems t, u.powered t] ++ (if u.hart.facts.ceil = 0 then [] else [u.hart.facts.ceil]) ++
    u.streamsAhead.toList.filterMap (·.map Stream.left)

/-- The least of a list of numbers. -/
abbrev Least (n : Nat) (l : List Nat) : Prop := n ∈ l ∧ ∀ m ∈ l, n ≤ m

/-- No grant waits for the freezing of the hart. -/
abbrev Grantable (s : State) : Prop := s.hart.freezeReq = false

/-! ## The matrix array (R196 to R219) -/

/-- The state in which a matrix instruction that does not use `vstart` has completed, with the attachment and the shape word at values. -/
def State.matrixDone (s : State) (a : Option Attachment) (shape : Word) : State :=
  let u := s.issued false false
  { u with hart := { u.hart with attachment := a, mshape := shape } }

/-! ## Traps -/

/-- The bits of a status word `b` are those of `a`, but for the bits listed, which are as listed. -/
abbrev StatusBits (a b : Word) (bits : List (Nat × Bool)) : Prop :=
  (∀ p ∈ bits, b.getLsbD p.1 = p.2) ∧ ∀ i, i < 64 → (∀ p ∈ bits, p.1 ≠ i) → b.getLsbD i = a.getLsbD i

/-- From `s` the hart has taken an exception of a cause (R68, R333, R335; notes/assumptions/5.md): the saved pc is the pc, the cause and
trap value are saved, the status holds the mode and the interrupt enable, which is cleared, the mode is S where the exception is
delegated and M otherwise, and the pc is at that mode's vector. `svtrap0`.VALID is 0, and no other register or memory has changed. -/
def TrapTaken (s t : State) (cause : Nat) (tval : Word) : Prop :=
  let h := s.hart
  let c := h.csr
  let k := t.hart.csr
  t = { s with hart := { h with
    csr := k, mode := t.hart.mode, pc := t.hart.pc, region := none, waiting := .nothing, replay := none, mt := none } } ∧
  k.svtrap0 = c.svtrap0 &&& ~~~0x8000000000000000#64 ∧
  if h.mode ≠ .m ∧ c.medeleg.getLsbD cause = true then
    k = { c with svtrap0 := k.svtrap0, mstatus := k.mstatus, sepc := h.pc, scause := BitVec.ofNat 64 cause, stval := tval } ∧
    t.hart.mode = .s ∧ t.hart.pc = c.stvec &&& ~~~3#64 ∧
    StatusBits c.mstatus k.mstatus [(1, false), (5, c.mstatus.getLsbD 1), (8, decide (h.mode = .s))]
  else
    k = { c with svtrap0 := k.svtrap0, mstatus := k.mstatus, mepc := h.pc, mcause := BitVec.ofNat 64 cause, mtval := tval } ∧
    t.hart.mode = .m ∧ t.hart.pc = c.mtvec &&& ~~~3#64 ∧
    StatusBits c.mstatus k.mstatus
      [(3, false), (7, c.mstatus.getLsbD 3), (11, decide (h.mode ≠ .u)), (12, decide (h.mode = .m))]

/-! ## Accesses -/

/-- The physical address of an access of `n` aligned bytes to plain memory by the hart at the privilege of a mode: translated,
idempotent, no device, not poisoned. -/
def State.plainAs (s : State) (mode : Mode) (acc : Access) (va : Word) (n : Nat) : Option Nat :=
  if va.toNat % n ≠ 0 then none
  else match translate s s.agent { s.dataSpace with mode := mode } acc va with
    | .ok pa false => if physAt s.bigMemory pa = .device ∨ s.poisoned pa then none else some pa
    | _ => none

/-- The same of a data access of the hart. -/
def State.plain (s : State) (acc : Access) (va : Word) (n : Nat) : Option Nat := s.plainAs s.hart.dataMode acc va n

/-- The number of `n` bytes that such an access reads. -/
def State.loaded (s : State) (va : Word) (n : Nat) : Nat :=
  match s.plain .load va n with
  | some pa => Memory.readNum s.memory pa n
  | none => 0

/-- An update of memory by an access: its address, its bytes, and the number it writes as a function of the one that was there. -/
abbrev Update := Word × Nat × (Nat → Nat)

/-- Updates of plain memory by the hart one after another, each where the state before it places it: the state after them, and the
physical places they have written, as address and length. None where one of them is no access to plain memory. -/
def State.storeAll (s : State) : List Update → Option (State × List (Nat × Nat))
  | [] => some (s, [])
  | (va, n, f) :: rest =>
    (s.plain .store va n).bind fun pa =>
      ((s.writeBytes (some s.hartId) pa (byteList n (f (Memory.readNum s.memory pa n)))).storeAll rest).map fun r =>
        (r.1, (pa, n) :: r.2)

/-- Every byte outside some places reads as it did. -/
def StoredOnly (s t : State) (places : List (Nat × Nat)) : Prop :=
  ∀ a, (∀ p ∈ places, ¬ (p.1 ≤ a ∧ a < p.1 + p.2)) → Memory.readByte t.memory a = Memory.readByte s.memory a

/-- No register of the vector side has changed, progress aside (R58). -/
def SameRegisters (s t : State) : Prop := t.hart.vec = { s.hart.vec with progress := t.hart.vec.progress }

/-- `t` is `u`, the state `s` advanced past an instruction, progress aside: every register, flag and table, and all of memory, are as in
`s`. -/
def Unchanged (s u t : State) : Prop := OnlyData u t ∧ SameMemory s t ∧ SameFlags s t ∧ SameTables s t ∧ SameRegisters s t

/-- From `u`, the state `s` advanced past an instruction, `t` differs in memory alone, as the updates `r` have left it, and with `.fes` in
the full-empty bits of the granules written, which are set: every register and every byte outside the places written are as in `s`. -/
def Stored (s u t : State) (r : State × List (Nat × Nat)) (fes : Bool) : Prop :=
  OnlyData u t ∧ SameRegisters s t ∧ SameFlags s t ∧ SameTables s t ∧ t.poison = s.poison ∧ t.memory = r.1.memory ∧
  t.reservations = r.1.reservations ∧ StoredOnly s t r.2 ∧
  t.fullEmpty = if fes then r.2.foldl (fun m p => Store.put false m (p.1 / 16) true) s.fullEmpty else s.fullEmpty

/-- The elements that an instruction performs from `vstart` on: the active ones below vl. -/
def State.work (s : State) (m : Option MName) : List Nat := (s.actives m).filter fun k => decide (s.hart.vc.vstart ≤ k)

/-- The active elements of a load, from `vstart` on, all lie in plain memory. -/
abbrev Loadable (s : State) (m : Option MName) (addr : Nat → Word) (n : Nat) : Prop :=
  ∀ k ∈ s.work m, (s.plain .load (addr k) n).isSome

/-- The physical address of a data access to idempotent memory, poisoned or not. -/
def State.placed (s : State) (acc : Access) (va : Word) : Option Nat :=
  match translate s s.agent s.dataSpace acc va with
  | .ok pa false => some pa
  | _ => none

/-- The state after the hart has stored bytes from an address on; none where it cannot. -/
def State.spanStored (s : State) (va : Word) (bytes : List Byte) : Option State :=
  match storeSpan s.dataSpace (pagesOf bytes.length) va bytes s with
  | .ok t => some t
  | _ => none

/-- The `n` bytes from an address of a space on, as the hart loads them; none where it cannot. -/
def State.spanLoadedIn (s : State) (space : Space) (va : Word) (n : Nat) : Option (List Byte) :=
  match loadSpan s space (pagesOf n) va n with
  | .ok bytes => some bytes
  | _ => none

/-- The same in the space of the hart's data. -/
abbrev State.spanLoaded (s : State) (va : Word) (n : Nat) : Option (List Byte) := s.spanLoadedIn s.dataSpace va n

/-! ## Blocks -/

/-- The word at the pc, where the fetch of it meets nothing in its way, with the state that has read it. -/
def State.codeAt (s : State) : Option (BitVec 32 × State) :=
  match fetchWord s with
  | .word w t => some (w, t)
  | _ => none

/-- A block that is fetched for the hart at the privilege of a mode, and is valid: its instructions with their word indices, and the
state that has read it. -/
def State.blockAtAs (s : State) (mode : Mode) (t : VType) (va : Word) : Option (List (Nat × Instr) × State) :=
  match fetchBlock s t mode va with
  | .ok code s' => some (code, s')
  | _ => none

/-- The same at the privilege of the hart's data accesses, which a broadcast has. -/
def State.blockAt (s : State) (t : VType) (va : Word) : Option (List (Nat × Instr) × State) := s.blockAtAs s.hart.dataMode t va

/-- A block that the hart cannot fetch, or finds invalid: the kind of the fault (R338). -/
def State.blockFault (s : State) (t : VType) (va : Word) : Option Nat :=
  match fetchBlock s t s.hart.dataMode va with
  | .faulty kind _ _ => some kind
  | _ => none

/-- The state in which a micro-thread of a round has completed its instruction, its effect aside: it stands at the next word, and its
fetch group has advanced in this cycle. -/
def State.stepped (s : State) (m : Micro) (r : Round) : State := s.putRound ((r.moved m s.cycle).put m.step)

/-- A micro-thread of an element is set aside with a fault of which something holds (R345). -/
def SetAside (u : State) (e : Nat) (p : VecFault → Prop) : Prop :=
  ∃ r ∈ u.hart.round, ∃ o ∈ r.micros, o.elem = e ∧ ∃ x, o.place = .aside (some x) ∧ p x

/-- The vector file `g` is `f` but for element `e`, of width `w`, of the group at register `d`, which holds `v`, and for bit `e` of the
mask register `x`, which is `severe` (R39); the progress of registers aside (R58). -/
def ElementWritten (f g : VecFile) (vlen d w e v : Nat) (x : Option MName) (severe : Bool) : Prop :=
  g = { f with v := g.v, m := g.m, progress := g.progress } ∧ g.elem vlen d w e = v % 2 ^ w ∧
  (∀ k, k < vlen / w * (32 - d) → k ≠ e → g.elem vlen d w k = f.elem vlen d w k) ∧
  (∀ r : Fin 32, r.val ≠ d + e / (vlen / w) → g.v[r] = f.v[r]) ∧
  (∀ q : MName, x ≠ some q → g.m[q] = f.m[q]) ∧
  ∀ q ∈ x, ∀ k, k < maxVlen → g.maskBit q k = if k = e then severe else f.maskBit q k

/-- From `u`, the state in which a micro-thread has completed its instruction, `t` differs in the element, flags and `.x` bit that a block
instruction writes; a binding of a stream to the register is at an end (R142), and no other state has changed. -/
def BlockWritten (u t : State) (vlen w e : Nat) (f : BlockArgs) (v : Nat) (fl : Flags) : Prop :=
  t = { u with
    hart := { u.hart with
      vec := t.hart.vec, streams := t.hart.streams, vc := { u.hart.vc with vxflags := u.hart.vc.vxflags ||| fl } }
    free := if f.rm.resolve u.hart.vc.vrm = .sr then u.free + 1 else u.free } ∧
  ElementWritten u.hart.vec t.hart.vec vlen f.d.val w e v f.x fl.severe ∧
  ∀ i : Fin 4, t.hart.streams[i] = (u.hart.streams[i]).bind fun b =>
    if (groupSet b.regs b.group).getLsbD (f.d.val + e / (vlen / w)) then none else some b

end Sys2Proof.Machine
end

