-- ==== Sys2Proof/Certificates/Slice0/Obligations.lean ====
section
/-!
DEFINITION. The obligations: what the model is claimed to do, for the provers.
-/

open Sys2Proof Sys2Proof.Machine

/-! ## Cross-element instructions (R151 to R165) -/

/-- R154, R155, R156, R164: VMV, VBCST, VPERM, VSLIDEUP, VSLIDEDN and VORDKEY complete, write the elements that the rules give, and
change nothing else. -/
def Obligations.ElementMoves : Prop :=
  ∀ (s : State) (t : VType) (d a b : VName) (x : XReg) (m : Option MName),
    Ready s t → t.groupAt d = true → t.groupAt a = true →
    (∃ u, exec (.vmv d a m) s = .next u ∧ Elementwise s u t d m 0 (s.element t a)) ∧
    (∃ u, exec (.vbcst d x m) s = .next u ∧ Elementwise s u t d m 0 fun _ => t.raw (s.x x).toNat) ∧
    (t.groupAt b = true → t.meet d a = false → t.meet d b = false →
      ∃ u, exec (.vperm d a b m) s = .next u ∧
        Elementwise s u t d m 0 fun k => if s.element t b k < s.maxElems t then s.value t a (s.element t b k) else 0) ∧
    (t.meet d a = false →
      ∃ u, exec (.vslideup d a x m) s = .next u ∧
        Elementwise s u t d m (s.x x).toNat fun k => s.value t a (k - (s.x x).toNat)) ∧
    (t.meet d a = false →
      ∃ u, exec (.vslidedn d a x m) s = .next u ∧
        Elementwise s u t d m 0 fun k =>
          if k + (s.x x).toNat < s.maxElems t then s.value t a (k + (s.x x).toNat) else 0) ∧
    ((t.fmt.isFS || t.fmt.isInt) = true →
      ∃ u, exec (.vordkey d a m) s = .next u ∧ Elementwise s u t d m 0 fun k => ordKey t.fmt (s.element t a k))

/-- R157: VCOMPRESS, VEXPAND and VIOTA complete, and the selector decides what they write. R165: VZIP and VUNZIP complete; element `i` of
source `n` of a zip lies at P(i, n). -/
def Obligations.Selectors : Prop :=
  (∀ (s : State) (t : VType) (d a : VName) (m : MName),
     Ready s t → t.groupAt d = true → t.groupAt a = true →
     (t.meet d a = false →
       ∃ u, exec (.vcompress d a m) s = .next u ∧
         WholeVector s u t d (s.marked m s.hart.vc.vl).length fun j => s.value t a ((s.marked m s.hart.vc.vl).getD j 0)) ∧
     (t.meet d a = false →
       ∃ u, exec (.vexpand d a m) s = .next u ∧
         WholeVector s u t d s.hart.vc.vl fun k =>
           if s.hart.vec.maskBit m k then s.value t a (s.marked m k).length else s.kept t t.mp d k) ∧
     (t.fmt.isInt = true →
       ∃ u, exec (.viota d m) s = .next u ∧ WholeVector s u t d s.hart.vc.vl fun k => (s.marked m k).length)) ∧
  (∀ (s : State) (t : VType) (d a b : VName) (odd : Bool),
     Ready s t →
     (t.wideAt d = true → t.groupAt a = true → t.groupAt b = true →
       groupsMeet (2 * t.mul) d.val t.mul a.val = false → groupsMeet (2 * t.mul) d.val t.mul b.val = false →
       ∃ u, exec (.vzip d a b) s = .next u ∧
         WritesRegs s s.done u (groupSet (2 * t.mul) d.val) 0#8 0#16 0#32 ∧
         (if s.hart.vc.vl = 0 then SameVectors s u
          else
           (∀ i, i < s.hart.vc.vl →
             u.element t d (zipAt t.zipUnit i 0) = s.value t a i ∧ u.element t d (zipAt t.zipUnit i 1) = s.value t b i) ∧
           (∀ k, k < 2 * s.maxElems t →
             (∀ i, i < s.hart.vc.vl → k ≠ zipAt t.zipUnit i 0 ∧ k ≠ zipAt t.zipUnit i 1) →
             u.element t d k = s.kept t t.tp d k) ∧
           Untagged u (groupSet (2 * t.mul) d.val))) ∧
     (t.groupAt d = true → t.wideAt a = true → groupsMeet t.mul d.val (2 * t.mul) a.val = false →
       ∃ u, exec (.vunzip d a odd) s = .next u ∧
         WholeVector s u t d s.hart.vc.vl fun k => s.value t a (zipAt t.zipUnit k odd.toNat)))

/-- R158 to R160: VREDT, VREDO and VSCAN complete for every operation and format that they accept; a reduction writes element 0 of the
register `d` alone. -/
def Obligations.ReductionsComplete : Prop :=
  ∀ (s : State) (t : VType) (d a : VName) (op : RedOp) (ex : Bool) (m : Option MName),
    Ready s t → t.groupAt a = true → redAccepts op t.fmt = true →
    (groupsMeet 1 d.val t.mul a.val = false →
      ∀ i ∈ [Instr.vredt d a op m, Instr.vredo d a op m],
      ∃ u, exec i s = .next u ∧ WritesRegsAndFlags s s.done u (groupSet 1 d.val) 0#8 0#16 0#32 ∧
        (s.hart.vc.vl = 0 → SameVectors s u ∧ SameFlags s u) ∧
        (∀ k, k < s.hart.vlen / t.sew → 0 < k → u.element t d k = s.element t d k) ∧
        ((∀ k, k < s.hart.vc.vl → s.hart.vec.active m k = false) → u.element t d 0 = s.element t d 0 ∧ SameFlags s u)) ∧
    (t.groupAt d = true → t.meet d a = false →
      ∃ u, exec (.vscan d a op ex m) s = .next u ∧ WritesRegsAndFlags s s.done u (groupSet t.mul d.val) 0#8 0#16 0#32 ∧
        (s.hart.vc.vl = 0 → SameVectors s u ∧ SameFlags s u) ∧
        (s.hart.vc.vl ≠ 0 → ∀ k, k < s.maxElems t → s.hart.vc.vl ≤ k → u.element t d k = s.kept t t.tp d k) ∧
        (∀ k, k < s.hart.vc.vl → s.hart.vec.active m k = false → u.element t d k = s.kept t t.mp d k))

/-- R40, R158, R159: in the integer formats VREDT and VREDO give one sum, that of the start value and the active elements modulo 2^SEW,
and raise no flag. R160: an integer VSCAN.SUM under no mask gives prefix sums: element `k` is the sum of elements 0 to `k`, or with `.ex`
of those below `k`, modulo 2^SEW. -/
def Obligations.IntegerReductions : Prop :=
  (∀ (s : State) (t : VType) (d a : VName) (m : Option MName),
     Ready s t → t.groupAt a = true → t.fmt.isInt = true → groupsMeet 1 d.val t.mul a.val = false → s.hart.vc.vl ≠ 0 →
     ∀ i ∈ [Instr.vredt d a .sum m, Instr.vredo d a .sum m],
     ∃ u, exec i s = .next u ∧ SameFlags s u ∧
       u.element t d 0 =
         (s.element t d 0 + (((List.range s.hart.vc.vl).filter (s.hart.vec.active m)).map (s.element t a)).sum) % 2 ^ t.sew) ∧
  (∀ (s : State) (t : VType) (d a : VName) (ex : Bool),
     Ready s t → t.groupAt d = true → t.groupAt a = true → t.fmt.isInt = true → t.meet d a = false → s.hart.vc.vl ≠ 0 →
     ∃ u, exec (.vscan d a .sum ex none) s = .next u ∧
       WholeVector s u t d s.hart.vc.vl fun k => ((List.range (if ex then k else k + 1)).map (s.element t a)).sum)

/-- R161, R153: VPOPC and VMFIRST count the set bits below vl that are active, and find the lowest; with nothing older to wait for they
complete at once, and the only register that changes is X[d]. R162, R163: VMKEEPN keeps the lowest set bits, as many as X[b] says, and
VMLOGIC combines two masks under its truth table; both write one mask register alone. -/
def Obligations.MaskInstructions : Prop :=
  (∀ (s : State) (t : VType) (d : XReg) (a : MName) (m : Option MName),
     Ready s t → NoCopyFault s →
     let set := (List.range s.hart.vc.vl).filter fun k => s.hart.vec.maskBit a k && s.hart.vec.active m k
     exec (.vpopc d a m) s = .next (s.done.setX d (BitVec.ofNat 64 set.length)) ∧
     exec (.vmfirst d a m) s = .next (s.done.setX d (match set with
       | [] => BitVec.allOnes 64
       | k :: _ => BitVec.ofNat 64 k))) ∧
  (∀ (s : State) (t : VType) (d a b : MName) (x : XReg) (tt : BitVec 4),
     Ready s t →
     (∃ u, exec (.vmkeepn d a x) s = .next u ∧ WritesRegs s s.done u 0#32 (maskSet d) 0#16 0#32 ∧
       (s.hart.vc.vl ≠ 0 → MaskWritten s u t d fun k =>
         s.hart.vec.maskBit a k && decide ((s.marked a k).length < (s.x x).toNat)) ∧
       (s.hart.vc.vl = 0 → u.hart.vec.m = s.hart.vec.m)) ∧
     (∃ u, exec (.vmlogic d a b tt) s = .next u ∧ WritesRegs s s.done u 0#32 (maskSet d) 0#16 0#32 ∧
       (s.hart.vc.vl ≠ 0 → MaskWritten s u t d fun k =>
         tt.getLsbD (2 * (s.hart.vec.maskBit a k).toNat + (s.hart.vec.maskBit b k).toNat)) ∧
       (s.hart.vc.vl = 0 → u.hart.vec.m = s.hart.vec.m)))

/-- R154, R153: VMOVX gives the element that X[b] names, sign-extended in the signed formats, or 0 from VLMAX on; VXMOV writes that
element alone. -/
def Obligations.ScalarExchange : Prop :=
  ∀ (s : State) (t : VType) (d : XReg) (v : VName) (a b : XReg),
    Ready s t → t.groupAt v = true →
    (NoCopyFault s →
      exec (.vmovx d v b) s = .next (s.done.setX d
        (if s.maxElems t ≤ (s.x b).toNat then 0#64
         else if t.fmt.signed then BitVec.ofInt 64 (t.fmt.toInt (s.element t v (s.x b).toNat))
         else BitVec.ofNat 64 (s.element t v (s.x b).toNat)))) ∧
    (∃ u, exec (.vxmov v a b) s = .next u ∧ WritesRegs s s.done u (groupSet t.mul v.val) 0#8 0#16 0#32 ∧
      (if s.maxElems t ≤ (s.x b).toNat then SameVectors s u
       else ∀ k, k < s.maxElems t →
        u.element t v k = if k = (s.x b).toNat then t.raw (s.x a).toNat % 2 ^ t.sew else s.element t v k))

/-! ## Runs (R166 to R186) -/

/-- R177: VSORTG completes and leaves each aligned group of 2^g elements stably sorted in the order of its modifier, keys with payloads,
and the destination tagged with runs of that grain. With `vstart` at or above a vl that is not 0 it completes so too, its tag set and no
element written: that is the model's choice beside R59 (notes/assumptions/40.md). -/
def Obligations.SortsGroups : Prop :=
  ∀ (s : State) (t : VType) (d a : VName) (g : Fin 8) (mods : RunMods),
    Ready s t → runFmt t.fmt = true → t.groupAt d = true → t.groupAt a = true →
    (t.runGroup d mods.pw).set mods.payload &&& (t.runGroup a mods.pw).set mods.payload = 0#32 →
    (mods.payload = true →
      (t.runGroup d mods.pw).payOk (t.payloadGroup mods.pw) = true ∧ (t.runGroup a mods.pw).payOk (t.payloadGroup mods.pw) = true) →
    let n := s.hart.vc.vl
    let pay := if mods.payload then some mods.pw else none
    let xs := s.run t a n pay
    ∃ u, exec (.vsortg d a g mods) s = .next u ∧
      WritesRegs s s.done u ((t.runGroup d mods.pw).set mods.payload) 0#8 0#16 (tagOf d) ∧
      u.hart.vec.tag[d] =
        (if n = 0 then none else some ⟨mods.descending, t.fmt, pay, if n ≤ 2 ^ g.val then 31 else Fin.ofNat 32 g.val, n, false⟩) ∧
      (s.hart.vc.vstart = 0 → ∀ j, j < n → j % 2 ^ g.val = 0 →
        StableSort t.fmt mods.descending (((u.run t d n pay).drop j).take (2 ^ g.val)) ((xs.drop j).take (2 ^ g.val)))

/-- R178, R186: VASSERT completes where the elements are in the order that it asserts, changes nothing but tags, and sets the tag; where
they are not, it raises a run-order fault of kind 4 at the lowest element that breaks the order. VRTAGC clears one tag and nothing
else. -/
def Obligations.AssertsRuns : Prop :=
  ∀ (s : State) (t : VType) (d : VName) (uq : Bool) (gr : Fin 32) (mods : RunMods),
    Ready s t → runFmt t.fmt = true →
    let n := s.hart.vc.vl
    let size := if gr = 31 then n else 2 ^ gr.val
    let breaks (k : Nat) : Bool := k % size != 0 &&
      (runLess t.fmt mods.descending (s.element t d k) (s.element t d (k - 1)) ||
        (uq && !runLess t.fmt mods.descending (s.element t d (k - 1)) (s.element t d k)))
    (t.groupAt d = true → (mods.payload = true → (t.runGroup d mods.pw).payOk (t.payloadGroup mods.pw) = true) →
      ((∀ k, k < n → breaks k = false) →
        ∃ u, exec (.vassert d uq gr mods) s = .next u ∧ WritesRegs s s.done u 0#32 0#8 0#16 (tagOf d) ∧
          u.hart.vec.tag[d] = (if n = 0 then none else
            some ⟨mods.descending, t.fmt, if mods.payload then some mods.pw else none, if n ≤ size then 31 else gr, n, uq⟩)) ∧
      (∀ k, k < n → breaks k = true → (∀ j, j < k → breaks j = false) →
        ∃ u, exec (.vassert d uq gr mods) s = .next u ∧
          u.hart.vfault.map (fun f => (f.cause, f.kind, f.elem, f.vpc)) = some (25, 4, k, s.hart.pc))) ∧
    (∃ u, exec (.vrtagc d) s = .next u ∧ WritesRegs s s.done u 0#32 0#8 0#16 (tagOf d) ∧
      u.hart.vec.tag = s.hart.vec.tag.set d.val none)

/-- R179: VMERGEG completes over a tagged source. Each pair of adjacent runs that are in order becomes one run, stably merged; the tag
says so. That the tag is set with `vstart` at or above a vl that is not 0 as well is the model's choice beside R59, and so is that a bound
source pops the groups that operands name alone (notes/assumptions/40.md). -/
def Obligations.MergesAdjacentRuns : Prop :=
  ∀ (s : State) (t : VType) (d a : VName) (g : RunTag),
    Ready s t → runFmt t.fmt = true → t.groupAt d = true → t.groupAt a = true → t.meet d a = false →
    Tagged s t a g → PayloadFits t g (.group d 1) [a] →
    let n := min s.hart.vc.vl g.len
    let size := 2 ^ g.gr.val
    let one : Bool := g.gr == 31 || decide (n ≤ size)
    let xs := s.run t a n g.payload
    ∃ u, exec (.vmergeg d a) s = .next u ∧
      WritesRegs s s.done u ((RunDest.group d 1).all t g.payload) 0#8 0#16 (tagOf d) ∧
      u.hart.vec.tag[d] = (if n = 0 then none else some
        ⟨g.descending, t.fmt, g.payload, if one || decide (n ≤ 2 * size) then 31 else Fin.ofNat 32 (g.gr.val + 1), n, one && g.uniq⟩) ∧
      (s.hart.vc.vstart = 0 →
        let ys := u.run t d n g.payload
        (one = true → ys = xs) ∧
        (one = false → ∀ j, j < n → j % (2 * size) = 0 →
          InOrder t.fmt g.descending ((xs.drop j).take size) → InOrder t.fmt g.descending ((xs.drop (j + size)).take size) →
          StableSort t.fmt g.descending ((ys.drop j).take (2 * size)) ((xs.drop j).take (2 * size))))

/-- R180, R181: VMERGE2 and VMERGEH complete over two tagged sources of one order and payload, each one run. What VMERGE2 writes is the
stable merge of both, VMERGEH the first vl elements of it; VMERGEH returns how many of those come from its first source. That tag and
count are the same with `vstart` at or above a vl that is not 0 is the model's choice beside R59, and so is that a bound source pops the
groups that operands name alone (notes/assumptions/40.md). -/
def Obligations.MergesTwoRuns : Prop :=
  ∀ (s : State) (t : VType) (d a b : VName) (cnt : Fin 8) (g h : RunTag),
    Ready s t → runFmt t.fmt = true → t.groupAt a = true → t.groupAt b = true → Tagged s t a g → Tagged s t b h →
    h.descending = g.descending → h.payload = g.payload → g.whole s.hart.vc.vl = true → h.whole s.hart.vc.vl = true →
    let na := min s.hart.vc.vl g.len
    let nb := min s.hart.vc.vl h.len
    let xs := s.run t a na g.payload
    let ys := s.run t b nb g.payload
    (t.wideAt d = true → groupsMeet (2 * t.mul) d.val t.mul a.val = false → groupsMeet (2 * t.mul) d.val t.mul b.val = false →
      PayloadFits t g (.group d 2) [a, b] →
      ∃ u, exec (.vmerge2 d a b) s = .next u ∧
        WritesRegs s s.done u ((RunDest.group d 2).all t g.payload) 0#8 0#16 (groupSet (2 * t.mul) d.val) ∧
        (na + nb ≤ 262144 → u.hart.vec.tag[d] =
          (if na + nb = 0 then none else some ⟨g.descending, t.fmt, g.payload, 31, na + nb, false⟩)) ∧
        (s.hart.vc.vstart = 0 → InOrder t.fmt g.descending xs → InOrder t.fmt g.descending ys →
          StableSort t.fmt g.descending (u.run t d (na + nb) g.payload) (xs ++ ys))) ∧
    (t.groupAt d = true → t.meet d a = false → t.meet d b = false → PayloadFits t g (.group d 1) [a, b] → NoCopyFault s →
      let n := min s.hart.vc.vl (na + nb)
      ∃ u, exec (.vmergeh d a b cnt) s = .next u ∧
        let c := (u.x (countX cnt)).toNat
        WritesRegs s (s.done.setX (countX cnt) (BitVec.ofNat 64 c)) u ((RunDest.group d 1).all t g.payload) 0#8 0#16 (tagOf d) ∧
        u.hart.vec.tag[d] = (if n = 0 then none else some ⟨g.descending, t.fmt, g.payload, 31, n, false⟩) ∧
        c ≤ na ∧ c ≤ n ∧ n - c ≤ nb ∧
        (s.hart.vc.vstart = 0 → InOrder t.fmt g.descending xs → InOrder t.fmt g.descending ys →
          StableSort t.fmt g.descending (u.run t d n g.payload) (xs.take c ++ ys.take (n - c)) ∧
          (∀ x ∈ xs.drop c, ∀ y ∈ ys.take (n - c), runLess t.fmt g.descending x.key y.key = false) ∧
          (∀ y ∈ ys.drop (n - c), ∀ x ∈ xs.take c, runLess t.fmt g.descending y.key x.key = false)))

/-- R182: VISECT and VDIFFK complete over two tagged sources, each one run, and keep the elements of the first whose key the second has,
or has not; VUNIQ keeps the first element of each set of equal keys. Each returns how many it kept and tags the result, with `vstart` at or above a vl that is not
0 as well, which is the model's choice beside R59 (notes/assumptions/40.md). -/
def Obligations.SelectsFromRuns : Prop :=
  ∀ (s : State) (t : VType) (d a b : VName) (cnt : Fin 8) (g h : RunTag),
    Ready s t → NoCopyFault s → runFmt t.fmt = true → t.groupAt d = true → t.groupAt a = true → t.meet d a = false →
    Tagged s t a g → g.whole s.hart.vc.vl = true →
    let xs := s.run t a (min s.hart.vc.vl g.len) g.payload
    let keeps (i : Instr) (zs : List RunElem) (uniq : Bool) : Prop :=
      ∃ u, exec i s = .next u ∧
        WritesRegs s (s.done.setX (countX cnt) (BitVec.ofNat 64 zs.length)) u ((RunDest.group d 1).all t g.payload) 0#8 0#16 (tagOf d) ∧
        u.hart.vec.tag[d] = (if zs.length = 0 then none else some ⟨g.descending, t.fmt, g.payload, 31, zs.length, uniq⟩) ∧
        (s.hart.vc.vstart = 0 → u.run t d zs.length g.payload = zs)
    (t.groupAt b = true → t.meet d b = false → Tagged s t b h → h.descending = g.descending → h.payload = g.payload →
      h.whole s.hart.vc.vl = true → PayloadFits t g (.group d 1) [a, b] →
      let ranks := (s.run t b (min s.hart.vc.vl h.len) none).map fun y => runRank t.fmt y.key
      keeps (.visect d a b cnt) (xs.filter fun x => ranks.contains (runRank t.fmt x.key)) g.uniq ∧
      keeps (.vdiffk d a b cnt) (xs.filter fun x => !ranks.contains (runRank t.fmt x.key)) g.uniq) ∧
    (PayloadFits t g (.group d 1) [a] →
      keeps (.vuniq d a cnt) (xs.destutter fun x y => runRank t.fmt x.key ≠ runRank t.fmt y.key) true)

/-- R183 to R185: VRANK, VPART and VLOCATE complete over sources that are each one run, and count: the elements of a run before each
element of a vector, the elements between splitters, and those before the key in X[b]. That VRANK and VPART change no vector and no tag
under vl = 0 is read from R152 (notes/assumptions/40.md). -/
def Obligations.SearchesRuns : Prop :=
  ∀ (s : State) (t : VType) (d a b : VName) (x y : XReg) (le : Bool) (g h : RunTag),
    Ready s t → runFmt t.fmt = true → t.groupAt a = true → Tagged s t a g → g.whole s.hart.vc.vl = true →
    let keys := (s.run t a (min s.hart.vc.vl g.len) none).map (·.key)
    let less := runLess t.fmt g.descending
    (t.groupAt d = true → t.groupAt b = true → t.meet d a = false → t.meet d b = false →
      (∀ pw, g.payload = some pw → (t.runGroup a pw).set true &&& groupSet t.mul d.val = 0#32) →
      ∃ u, exec (.vrank d a b le) s = .next u ∧ Elementwise s u t d none 0 fun k =>
        min (keys.filter fun r => if le then !less (s.element t b k) r else less r (s.element t b k)).length (2 ^ t.sew - 1)) ∧
    (t.groupAt b = true → groupsMeet 1 d.val t.mul a.val = false → groupsMeet 1 d.val t.mul b.val = false → Tagged s t b h →
      h.descending = g.descending → h.payload = g.payload → h.whole s.hart.vc.vl = true → min s.hart.vc.vl h.len ≤ 64 →
      (∀ pw, g.payload = some pw → ∀ v ∈ [a, b], (t.runGroup v pw).set true &&& groupSet 1 d.val = 0#32) →
      let splitters := (s.run t b (min s.hart.vc.vl h.len) none).map (·.key)
      ∃ u, exec (.vpart d a b) s = .next u ∧ WritesRegs s s.done u (groupSet 1 d.val) 0#8 0#16 0#32 ∧
        (s.hart.vc.vl = 0 → SameVectors s u) ∧
        (s.hart.vc.vl ≠ 0 → ∀ j, j ≤ splitters.length → u.hart.vec.elem s.hart.vlen d.val 32 j =
          (keys.filter fun k => (splitters.filter fun p => !less k p).length == j).length)) ∧
    (NoCopyFault s →
      exec (.vlocate x a y) s = .next (s.done.setX x
        (BitVec.ofNat 64 (keys.filter fun r => less r ((s.x y).toNat % 2 ^ t.sew)).length)))

/-! ## The index table (R188 to R195) -/

/-- R190 to R192, R195: VIXINS, VIXLKP and VIXCLR complete. VIXINS inserts its active elements in order and its mask names those that
found no place; VIXLKP writes the values of the keys found, and its mask names the keys missed; VIXCLR leaves the table empty. R191: an
insertion whose key is present, or whose set has a free way, succeeds, and the key is then found with its value; one that fails leaves the
table as it was. -/
def Obligations.IndexTable : Prop :=
  (∀ (s : State) (t : VType) (d a b : VName) (md : MName) (m : Option MName),
     Ready s t → ixtFmt t.fmt = true →
     let key (k : Nat) : Word := BitVec.ofNat 64 (s.element t a k)
     let n := ixtSets s.hart.vlen
     let bit (set : List Nat) (k : Nat) : Bool :=
       if s.hart.vec.active m k then set.contains k else if t.mp then false else s.hart.vec.maskBit md k
     (t.groupAt a = true → t.groupAt b = true →
       let r := Ixt.insertAll s.hart.ixt n key (fun k => BitVec.ofNat 64 (s.element t b k)) (s.actives m)
       ∃ u, exec (.vixins md a b m) s = .next u ∧ WritesTable s s.done u 0#32 (maskSet md) 0#32 ∧ SameFlags s u ∧
         (if s.hart.vc.vl = 0 then u.hart.ixt = s.hart.ixt ∧ u.hart.vec.m = s.hart.vec.m
          else u.hart.ixt = r.1 ∧ MaskWritten s u t md (bit r.2))) ∧
     (t.groupAt d = true → t.groupAt a = true → t.meet d a = false →
       let found (k : Nat) : Option Word := Ixt.lookup s.hart.ixt n (key k)
       ∃ u, exec (.vixlkp d a md m) s = .next u ∧
         WritesRegs s s.done u (groupSet t.mul d.val) (maskSet md) 0#16 0#32 ∧
         (if s.hart.vc.vl = 0 then SameVectors s u ∧ u.hart.vec.m = s.hart.vec.m
          else ElementsWritten s u t d m 0 (fun k => ((found k).getD 0#64).toNat) ∧ Untagged u (groupSet t.mul d.val) ∧
           MaskWritten s u t md (bit ((s.actives m).filter fun k => (found k).isNone)))) ∧
     (∃ u, exec .vixclr s = .next u ∧ WritesTable s s.done u 0#32 0#8 0#32 ∧ SameFlags s u ∧ u.hart.ixt = [])) ∧
  (∀ (t : Ixt) (n : Nat) (k k' x : Word), Store.wf none t = true → 0 < n →
     let r := Ixt.insert t n k x
     (r.2 = false → Ixt.lookup r.1 n k = some x) ∧
     (r.2 = true → r.1 = t ∧ Ixt.lookup t n k = none) ∧
     (r.2 = true ↔ Ixt.find t (ixtSet n k) k = none ∧ Ixt.free t (ixtSet n k) = none) ∧
     (k' ≠ k → Ixt.lookup r.1 n k' = Ixt.lookup t n k'))

/-- R193: VIXACC completes for every operation; the integer operations take the elements below vl in element order, combine the value of
each key present with the element's, insert an absent key with it, give a failure bit to each element that found no place, and raise no
flag. R194: VIXDUMP completes and, where vl is not 0, returns how many entries it wrote, and writes those of the lowest keys from
X[a] on, in ascending order, as one tagged run without equal keys. That it returns no count and changes nothing at vl = 0 is read from R152
and R190 (notes/assumptions/40.md). -/
def Obligations.IndexAccumulate : Prop :=
  ∀ (s : State) (t : VType) (d a b : VName) (md : MName) (op : IxOp) (x : XReg) (cnt : Fin 8),
    Ready s t →
    (ixtFmt t.fmt = true → t.groupAt a = true → t.groupAt b = true →
      ∃ u, exec (.vixacc md a b op) s = .next u ∧ WritesTable s s.done u 0#32 (maskSet md) 0#32 ∧
        (op ≠ .addFp64 ∧ op ≠ .addFp32 →
          SameFlags s u ∧
          let value (v : VName) (k : Nat) : Word := BitVec.ofNat 64 (s.element t v k)
          let comb (v y : Word) : Word := match op with
            | .addI64 => v + y
            | .min => if y.toInt < v.toInt then y else v
            | .max => if v.toInt < y.toInt then y else v
            | _ => v ||| y
          let r := Ixt.accumulateAll s.hart.ixt (ixtSets s.hart.vlen) (value a) (value b) comb (List.range s.hart.vc.vl)
          if s.hart.vc.vl = 0 then u.hart.ixt = s.hart.ixt ∧ u.hart.vec.m = s.hart.vec.m
          else u.hart.ixt = r.1 ∧ MaskWritten s u t md fun k => r.2.contains k)) ∧
    (NoCopyFault s → t.fmt = .n64 → t.groupAt d = true → (t.runGroup d 3).payOk (t.payloadGroup 3) = true →
      let xs := ((Ixt.entries s.hart.ixt).filter fun e => decide ((s.x x).toNat ≤ e.key.toNat)).map fun e =>
        RunElem.mk e.key.toNat e.value.toNat
      let n := min s.hart.vc.vl xs.length
      (s.hart.vc.vl = 0 → ∃ u, exec (.vixdump d x cnt) s = .next u ∧ Unchanged s s.done u) ∧
      (s.hart.vc.vl ≠ 0 →
        ∃ u, exec (.vixdump d x cnt) s = .next u ∧
          WritesRegs s (s.done.setX (countX cnt) (BitVec.ofNat 64 n)) u ((t.runGroup d 3).set true) 0#8 0#16 (tagOf d) ∧
          u.hart.vec.tag[d] = (if n = 0 then none else some ⟨false, .n64, some 3, 31, n, true⟩) ∧
          u.run t d n (some 3) = (Ixt.above s.hart.ixt (s.x x)).take n ∧
          StableSort .n64 false (Ixt.above s.hart.ixt (s.x x)) xs))

/-! ## Vector loads (R123 to R135, R137) -/

/-- R126, R129, R131, R137: VLE, VLSE and VLXE of formats of whole bytes complete, first-fault forms among them, where their active
elements lie in plain memory; element `k` is the bytes at base, base and stride, or base and index. VLDX takes the elements present in its
bitmap, in order, and zero for the others. -/
def Obligations.VectorLoads : Prop :=
  ∀ (s : State) (t : VType) (d b : VName) (a c : XReg) (ff nt : Bool) (m : Option MName),
    Ready s t → t.groupAt d = true → t.fmt.packed % 8 = 0 →
    let n := t.bytes
    let base := s.x a
    let unit (k : Nat) : Word := base + BitVec.ofNat 64 (k * n)
    let stride (k : Nat) : Word := base + BitVec.ofNat 64 k * s.x c
    let index (k : Nat) : Word := base + BitVec.ofNat 64 (s.element t b k * n)
    (Loadable s m unit n →
      ∃ u, exec (.vle d a ff .plain nt m) s = .next u ∧ Elementwise s u t d m 0 fun k => s.loaded (unit k) n) ∧
    (t.fmt.isM8 = true → Loadable s m stride n →
      ∃ u, exec (.vlse d a c m) s = .next u ∧ Elementwise s u t d m 0 fun k => s.loaded (stride k) n) ∧
    (t.fmt.isM8 = true → t.groupAt b = true → t.meet d b = false → Loadable s m index n →
      ∃ u, exec (.vlxe d a b m) s = .next u ∧ Elementwise s u t d m 0 fun k => s.loaded (index k) n) ∧
    (t.fmt.isM8 = true →
      let at' (i : Nat) : Word := s.x (pairOf a) + BitVec.ofNat 64 i
      let bit (k : Nat) : Bool := (s.loaded (at' (k / 8)) 1).testBit (k % 8)
      let place (k : Nat) : Word := base + BitVec.ofNat 64 (((List.range k).filter bit).length * n)
      (∀ i, i < (s.hart.vc.vl + 7) / 8 → (s.plain .load (at' i) 1).isSome) →
      (∀ k ∈ s.work m, bit k = true → (s.plain .load (place k) n).isSome) →
      ∃ u, exec (.vldx d a m) s = .next u ∧ Elementwise s u t d m 0 fun k => if bit k then s.loaded (place k) n else 0)

/-- R17, R129: VLE of a format of 2, 4 or 6 bits reads its elements packed: element `k` is the bits from bit `k × P` of the bytes at the
base on, lowest first, and may straddle two bytes. R17, R129: VSE of a format of 2, 4 or 6 bits updates the bits of each element in the
one or two bytes it lies in, and no other bit. -/
def Obligations.PackedAccesses : Prop :=
  (∀ (s : State) (t : VType) (d : VName) (a : XReg) (ff nt : Bool) (m : Option MName),
     Ready s t → t.groupAt d = true → t.fmt.packed % 8 ≠ 0 →
     let p := t.fmt.packed
     let byte (i : Nat) : Word := s.x a + BitVec.ofNat 64 i
     (∀ k ∈ s.work m, (s.plain .load (byte (k * p / 8)) 1).isSome ∧ (s.plain .load (byte ((k * p + p - 1) / 8)) 1).isSome) →
     ∃ u, exec (.vle d a ff .plain nt m) s = .next u ∧ Elementwise s u t d m 0 fun k =>
       (s.loaded (byte (k * p / 8)) 1 + 256 * s.loaded (byte (k * p / 8 + 1)) 1) / 2 ^ (k * p % 8) % 2 ^ p) ∧
  (∀ (s : State) (t : VType) (d : VName) (a : XReg) (nt : Bool) (m : Option MName),
     Ready s t → t.groupAt d = true → t.fmt.packed % 8 ≠ 0 →
     let p := t.fmt.packed
     let byte (i : Nat) : Word := s.x a + BitVec.ofNat 64 i
     let merge (hole bits old : Nat) : Nat := old &&& (255 ^^^ hole % 256) ||| bits % 256 &&& hole % 256
     let ups := (s.work m).flatMap fun k =>
       let i := k * p / 8
       let at' := k * p % 8
       let hole := (2 ^ p - 1) * 2 ^ at'
       let bits := s.element t d k % 2 ^ p * 2 ^ at'
       (byte i, 1, merge hole bits) :: (if at' + p ≤ 8 then [] else [(byte (i + 1), 1, merge (hole / 256) (bits / 256))])
     (s.storeAll ups).isSome = true →
     ∃ u, exec (.vse d a false nt m) s = .next u ∧ Stored s s.done u ((s.storeAll ups).getD (s, [])) false)

/-- R132: VLE with `.fe` completes where the granules of its active elements are full, and leaves them so; with `.fec` it empties them,
and no other granule. R127, R131, R334: an active element of VLE at a page fault, where every active element before it lies in plain
memory, is a fault of cause 24 and kind 0 at that element; a first-fault load with an active element before it instead completes, with vl
the element's number. -/
def Obligations.LoadConditions : Prop :=
  (∀ (s : State) (t : VType) (d : VName) (a : XReg) (ff nt clear : Bool) (m : Option MName),
     Ready s t → t.groupAt d = true → t.fmt.isM8 = true →
     let n := t.bytes
     let addr (k : Nat) : Word := s.x a + BitVec.ofNat 64 (k * n)
     let granule (k : Nat) : Nat := (s.plain .load (addr k) n).getD 0 / 16
     Loadable s m addr n →
     -- every granule of its elements is full
     (∀ k ∈ s.work m, hasFullEmpty s.bigMemory (granule k * 16) = true ∧ Store.get false s.fullEmpty (granule k) = true) →
     ∃ u, exec (.vle d a ff (if clear then .fec else .fe) nt m) s = .next u ∧ OnlyData s.done u ∧
       SameOutside s.hart.vec u.hart.vec (groupSet t.mul d.val) 0#8 0#16 0#32 ∧
       u.memory = s.memory ∧ u.reservations = s.reservations ∧ u.poison = s.poison ∧ SameFlags s u ∧ SameTables s u ∧
       u.fullEmpty = (if clear then (s.work m).foldl (fun f k => Store.put false f (granule k) false) s.fullEmpty else s.fullEmpty) ∧
       (s.hart.vc.vstart < s.hart.vc.vl → ElementsWritten s u t d m s.hart.vc.vstart fun k => s.loaded (addr k) n)) ∧
  (∀ (s : State) (t : VType) (d : VName) (a : XReg) (ff nt : Bool) (m : Option MName) (k : Nat),
     Ready s t → t.groupAt d = true → t.fmt.packed % 8 = 0 →
     let n := t.bytes
     let addr (k : Nat) : Word := s.x a + BitVec.ofNat 64 (k * n)
     k ∈ s.work m → (∀ j ∈ s.work m, j < k → (s.plain .load (addr j) n).isSome) →
     (addr k).toNat % n = 0 → translate s s.agent s.dataSpace .load (addr k) = .page →
     ∃ u, exec (.vle d a ff .plain nt m) s = .next u ∧ SameMemory s u ∧ u.hart.pc = s.hart.pc + 4#64 ∧
       (if ff && (s.work m).any (fun j => decide (j < k)) then u.hart.vfault = none ∧ u.hart.vc.vl = k
        else u.hart.vc.vl = s.hart.vc.vl ∧
         u.hart.vfault.map (fun f => (f.cause, f.kind, f.elem, f.tval, f.vpc)) = some (24, 0, k, addr k, s.hart.pc)))

/-- R133: VLSEG completes where the fields of its active segments lie in plain memory: field `j` of segment `k` is element `k` of group
`j`. R135: VLSC loads one scale byte for each block that holds an element below vl, at a stride, and writes one scale register alone.
R133: VSSEG completes where the fields of its active segments go to plain memory, and stores field `j` of segment `k` from element `k` of
group `j`, segment by segment. R134: VSSEGX stores one segment for each block with an active element: its scale byte, its elements packed,
and zero padding. R135: VSSC stores scale bytes at a stride. Nothing else changes. -/
def Obligations.SegmentAccesses : Prop :=
  (∀ (s : State) (t : VType) (d : VName) (a : XReg) (fields : Fin 8) (m : Option MName),
     Ready s t → t.fmt.isM8 = true → fieldsOk t d (fields.val + 1) = true →
     let n := t.bytes
     let f := fields.val + 1
     let addr (k j : Nat) : Word := s.x a + BitVec.ofNat 64 ((k * f + j) * n)
     (∀ k ∈ s.work m, ∀ j, j < f → (s.plain .load (addr k j) n).isSome) →
     ∃ u, exec (.vlseg d a fields m) s = .next u ∧ WritesRegs s s.done u (groupSet (f * t.mul) d.val) 0#8 0#16 0#32 ∧
       (if s.hart.vc.vl ≤ s.hart.vc.vstart then SameVectors s u
        else ∀ j, j < f → ElementsWritten s u t (fieldGroup t d j) m s.hart.vc.vstart fun k => s.loaded (addr k j) n)) ∧
  (∀ (s : State) (t : VType) (d : KName) (a b : XReg),
     Ready s t →
     let count := (s.hart.vc.vl + 2 ^ t.bl - 1) / 2 ^ t.bl
     let first := s.hart.vc.vstart / 2 ^ t.bl
     let addr (j : Nat) : Word := s.x a + BitVec.ofNat 64 j * s.x b
     (∀ j, j < count → first ≤ j → (s.plain .load (addr j) 1).isSome) →
     ∃ u, exec (.vlsc d a b) s = .next u ∧ WritesRegs s s.done u 0#32 0#8 (scaleSet d) 0#32 ∧
       ∀ j, j < s.hart.vlen / 64 → u.hart.vec.scaleByte d j =
         if s.hart.vc.vl ≤ s.hart.vc.vstart then s.hart.vec.scaleByte d j
         else if j < first then s.hart.vec.scaleByte d j
         else if j < count then BitVec.ofNat 8 (s.loaded (addr j) 1)
         else if t.tp then 0#8 else s.hart.vec.scaleByte d j) ∧
  (∀ (s : State) (t : VType) (d : VName) (a b : XReg) (fields : Fin 8) (k : KName) (m : Option MName),
     Ready s t →
     let n := t.bytes
     let f := fields.val + 1
     let base := s.x a
     let bl := 2 ^ t.bl
     let p := t.fmt.packed
     let segs : List Update := (s.work m).flatMap fun i => (List.range f).map fun j =>
       (base + BitVec.ofNat 64 ((i * f + j) * n), n, fun _ => s.element t (fieldGroup t d j) i)
     let performed (x : Nat) : Bool := (s.work m).contains x
     let block (j old : Nat) : Nat := (s.hart.vec.scaleByte k j).toNat + ((List.range bl).map fun i =>
       (if performed (j * bl + i) then s.element t d (j * bl + i) % 2 ^ p else old / 2 ^ (8 + i * p) % 2 ^ p) * 2 ^ (8 + i * p)).sum
     let size := segmentSize t
     let blocks : List Update := ((List.range ((s.hart.vc.vl + bl - 1) / bl)).filter fun j =>
       (List.range bl).any fun i => performed (j * bl + i)).map fun j => (base + BitVec.ofNat 64 (j * size), size, block j)
     let scales : List Update := ((List.range ((s.hart.vc.vl + bl - 1) / bl)).filter fun j =>
       decide (s.hart.vc.vstart < s.hart.vc.vl) && decide (s.hart.vc.vstart / bl ≤ j)).map fun j =>
       (base + BitVec.ofNat 64 j * s.x b, 1, fun _ => (s.hart.vec.scaleByte k j).toNat)
     (t.fmt.isM8 = true → fieldsOk t d f = true → (s.storeAll segs).isSome = true →
       ∃ u, exec (.vsseg d a fields m) s = .next u ∧ Stored s s.done u ((s.storeAll segs).getD (s, [])) false) ∧
     (t.groupAt d = true → t.fmt.isSC = true → size ≤ 64 → base.toNat % size = 0 → (s.storeAll blocks).isSome = true →
       ∃ u, exec (.vssegx d a k m) s = .next u ∧ Stored s s.done u ((s.storeAll blocks).getD (s, [])) false) ∧
     ((s.storeAll scales).isSome = true →
       ∃ u, exec (.vssc k a b) s = .next u ∧ Stored s s.done u ((s.storeAll scales).getD (s, [])) false))

/-! ## Vector stores (R123 to R136, R234, R235) -/

/-- R126, R129, R130, R132: VSE of formats of whole bytes, VSSE and VSXE complete where their active elements go to plain memory, each
element stored at base, base and stride, or base and index, in element order; VSE with `.fes` also fills the granules it writes. Nothing
else changes, in memory or in a register. R136: VSTC completes where its bitmap and its present elements go to plain memory: the bitmap at
X[a + 1] has a bit for each active element that is not zero, those elements lie one after another from X[a] on, and their number is
returned; that it counts those below vl where `vstart` is above vl is the model's choice (notes/assumptions/40.md). -/
def Obligations.VectorStores : Prop :=
  (∀ (s : State) (t : VType) (d b : VName) (a c : XReg) (fes nt : Bool) (m : Option MName),
     Ready s t → t.groupAt d = true → t.fmt.packed % 8 = 0 →
     let n := t.bytes
     let base := s.x a
     let ups (addr : Nat → Word) : List Update := (s.work m).map fun k => (addr k, n, fun _ => s.element t d k)
     let unit := s.storeAll (ups fun k => base + BitVec.ofNat 64 (k * n))
     let stride := s.storeAll (ups fun k => base + BitVec.ofNat 64 k * s.x c)
     let index := s.storeAll (ups fun k => base + BitVec.ofNat 64 (s.element t b k * n))
     (unit.isSome = true → (fes = true → ∀ p ∈ (unit.getD (s, [])).2, hasFullEmpty s.bigMemory p.1 = true) →
       ∃ u, exec (.vse d a fes nt m) s = .next u ∧ Stored s s.done u (unit.getD (s, [])) fes) ∧
     (t.fmt.isM8 = true → stride.isSome = true →
       ∃ u, exec (.vsse d a c m) s = .next u ∧ Stored s s.done u (stride.getD (s, [])) false) ∧
     (t.fmt.isM8 = true → t.groupAt b = true → index.isSome = true →
       ∃ u, exec (.vsxe d a b m) s = .next u ∧ Stored s s.done u (index.getD (s, [])) false)) ∧
  (∀ (s : State) (t : VType) (d a : XReg) (b : VName) (m : Option MName),
     Ready s t → NoCopyFault s → t.groupAt b = true → t.fmt.isM8 = true →
     let n := t.bytes
     let present (k : Nat) : Bool := decide (k < s.hart.vc.vl) && s.hart.vec.active m k && s.element t b k != 0
     let below (k : Nat) : Nat := ((List.range k).filter present).length
     let bitmap (i : Nat) : Nat := ((List.range 8).map fun j => if present (8 * i + j) then 2 ^ j else 0).sum
     let ups : List Update := (List.range' s.hart.vc.vstart (s.hart.vc.vl - s.hart.vc.vstart)).flatMap fun k =>
       (if k % 8 = 0 ∨ k = s.hart.vc.vstart then [(s.x (pairOf a) + BitVec.ofNat 64 (k / 8), 1, fun _ => bitmap (k / 8))] else []) ++
       (if present k then [(s.x a + BitVec.ofNat 64 (below k * n), n, fun _ => s.element t b k)] else [])
     (s.storeAll ups).isSome = true →
     ∃ u, exec (.vstc d a b m) s = .next u ∧
       Stored s (s.done.setX d (BitVec.ofNat 64 (below s.hart.vc.vl))) u ((s.storeAll ups).getD (s, [])) false)

/-- R234, R235: VUPD completes where its active elements lie in plain memory, and updates the bytes of each, in element order, by its
operation; the integer operations raise no flag. No register but the flags changes. R236: a local VAMO completes where its elements lie in
plain memory: it updates memory as VUPD does, and element `k` of its data group becomes the bytes that its update found. A remote VAMO of
this package is performed here where a window admits it; one of another package to which there is a way sends the request of its first
element, combined under an integer operation with every later one of its address, and waits; that none is combined past an element that is
misaligned, which R237 keeps from being applied, is the model's choice (notes/assumptions/17.md). The link to the remote agent carries
traffic (R363), and no flit is lost. -/
def Obligations.IndexedUpdates : Prop :=
  (∀ (s : State) (t : VType) (d b : VName) (a : XReg) (op : UpdOp) (masked : Bool),
     Ready s t → t.groupAt d = true → t.groupAt b = true → t.meet d b = false → updAccepts op t.fmt = true → op ≠ .swap →
     let n := t.bytes
     let ups : List Update := (s.work (if masked then some 0 else none)).map fun k =>
       (s.x a + BitVec.ofNat 64 (s.element t b k * n), n, fun old => (updValue op t.fmt old (s.element t d k)).1)
     (s.storeAll ups).isSome = true →
     let r := (s.storeAll ups).getD (s, [])
     ∃ u, exec (.vupd d a b op masked) s = .next u ∧ OnlyData s.done u ∧ SameRegisters s u ∧ SameTables s u ∧
       s.hart.vc.vxflags ||| u.hart.vc.vxflags = u.hart.vc.vxflags ∧ u.free = s.free ∧
       (op ≠ .fadd → u.hart.vc.vxflags = s.hart.vc.vxflags) ∧
       u.memory = r.1.memory ∧ u.reservations = r.1.reservations ∧ u.fullEmpty = s.fullEmpty ∧ u.poison = s.poison ∧
       StoredOnly s u r.2) ∧
  (∀ (s : State) (t : VType) (d b : VName) (a : XReg) (op : UpdOp),
     Ready s t → t.groupAt d = true → t.groupAt b = true → t.meet d b = false → updAccepts op t.fmt = true →
     let n := t.bytes
     let addr (k : Nat) : Word := s.x a + BitVec.ofNat 64 (s.element t b k * n)
     let ups : List Update := (s.work none).map fun k => (addr k, n, fun old => (updValue op t.fmt old (s.element t d k)).1)
     let old (k : Nat) : Nat :=
       let before := ((s.storeAll (ups.take (k - s.hart.vc.vstart))).getD (s, [])).1
       Memory.readNum before.memory ((before.plain .store (addr k) n).getD 0) n
     ((s.storeAll ups).isSome = true →
       let r := (s.storeAll ups).getD (s, [])
       ∃ u, exec (.vamo d a b op false) s = .next u ∧ OnlyData s.done u ∧
         SameOutside s.hart.vec u.hart.vec (groupSet t.mul d.val) 0#8 0#16 0#32 ∧ SameTables s u ∧
         s.hart.vc.vxflags ||| u.hart.vc.vxflags = u.hart.vc.vxflags ∧ u.free = s.free ∧
         u.memory = r.1.memory ∧ u.reservations = r.1.reservations ∧ u.fullEmpty = s.fullEmpty ∧ u.poison = s.poison ∧
         StoredOnly s u r.2 ∧
         (if s.hart.vc.vl ≤ s.hart.vc.vstart then SameVectors s u else ElementsWritten s u t d none s.hart.vc.vstart old)) ∧
     (s.hart.vc.vstart < s.hart.vc.vl →
       let dev : BitVec 21 := (s.x (pairOf a)).extractLsb' 0 21
       let key : BitVec 32 := (s.x (pairOf a)).extractLsb' 32 32
       let k := s.hart.vc.vstart
       let later := if op = .swap ∨ op = .fadd then [] else
         ((List.range' (k + 1) (s.hart.vc.vl - (k + 1))).takeWhile fun j => (addr j).toNat % n == 0).filter fun j => addr j == addr k
       let x : Word := BitVec.ofNat 64 (later.foldl (fun y j => (updValue op t.fmt y (s.element t d j)).1) (s.element t d k))
       (addr k).toNat % n = 0 → s.awaited? (· == .atomic s.hartId k) = none →
       s.routeToRemote s.agent = .open' → s.remote.lost = none →
       (dev = s.remote.devnum → s.hart.vc.vl = k + 1 → s.admits dev .atomic (addr k).toNat n key = true →
         s.meets (addr k).toNat n true = .clear →
         ∃ u, exec (.vamo d a b op true) s = .next u ∧ OnlyData s.done u ∧
           u.memory = Memory.writeBytes s.memory (addr k).toNat
             (byteList n (updValue op t.fmt (Memory.readNum s.memory (addr k).toNat n) (s.element t d k)).1) ∧
           u.element t d k = Memory.readNum s.memory (addr k).toNat n) ∧
       (dev ≠ s.remote.devnum → ∀ way ∈ s.netRoute dev,
         ∃ u, exec (.vamo d a b op true) s = .next u ∧ SameMemory s u ∧ u.hart.vq.length = 1 ∧ u.hart.pc = s.hart.pc + 4#64 ∧
           u.remote = { s.remote with
             outstanding := s.remote.outstanding ++ [⟨s.remote.nextReq, dev, .atomic s.hartId k, s.cycle, none⟩]
             nextReq := s.remote.nextReq + 1
             outbox := s.remote.outbox ++ [⟨some way, s.remote.devnum, s.remote.bootgen,
               .atomic s.remote.nextReq dev (addr k).toNat key op t.fmt x⟩] })))

/-! ## Ranges, streams and block constants (R138 to R149, R230) -/

/-- R148, R149: VFESET and VFECLR complete where each granule of their range from granule `vstart` on can be written and has a full-empty
bit, and change those bits alone; VPREF changes nothing. R139, R142: VSBIND completes with a legal control block in plain memory and a
group that no other bound stream has, and binds its slot at position 0; VSUNBIND leaves its slot unbound. R140, R143: a move, slide or
selector instruction over a bound group whose stream has elements left, in plain memory, does what it does over the group with elements
vstart to vl−1 those of the stream, 0 past its end; the stream stays bound and has advanced by min(vl, left). A stream with none left, or
of another format, is a stream fault. R230: VBCONST writes one block
constant, under any vector type or none. That each of them sets `vstart` to 0 is read from R59 and R152 (notes/assumptions/24.md). That a
range with full-empty bits is permitted whatever the IO flag of its translation is the model's reading of R150 (notes/assumptions/40.md). -/
def Obligations.RangesAndStreams : Prop :=
  (∀ (s : State) (t : VType) (a b : XReg),
     Prompt s → s.hart.vc.vtype = some t →
     let count := if s.x b = 0#64 then 0 else ((s.x a).toNat % 16 + (s.x b).toNat + 15) / 16
     let at' (g : Nat) : Word := if g = 0 then s.x a else BitVec.ofNat 64 ((s.x a).toNat / 16 * 16 + 16 * g)
     let place (g : Nat) : Option Nat := match translate s s.agent s.dataSpace .store (at' g) with
       | .ok pa _ => if hasFullEmpty s.bigMemory pa then some (pa / 16) else none
       | _ => none
     let range := List.range' s.hart.vc.vstart (count - s.hart.vc.vstart)
     let left (v : Bool) : List (Nat × Bool) := range.foldl (fun f g => Store.put false f ((place g).getD 0) v) s.fullEmpty
     ((s.x b).toNat < 2 ^ 39 → (∀ g ∈ range, (place g).isSome) →
       ∀ v ∈ [true, false], ∃ u, exec (if v then .vfeset a b else .vfeclr a b) s = .next u ∧ OnlyData s.done u ∧
         SameRegisters s u ∧ SameFlags s u ∧ SameTables s u ∧ u.memory = s.memory ∧ u.reservations = s.reservations ∧
         u.poison = s.poison ∧ u.fullEmpty = left v) ∧
     (∃ u, exec (.vpref a b) s = .next u ∧ Unchanged s s.done u)) ∧
  (∀ (s : State) (d : VName) (c : Fin 16) (a : XReg) (slot : Fin 4),
     Prompt s →
     (∀ t ∈ s.hart.vc.vtype, t.groupAt d = true → (s.x a).toNat % 64 = 0 → (s.plain .load (s.x a) 64).isSome = true →
       (∀ i : Fin 4, i ≠ slot → ∀ o ∈ s.hart.streams[i], groupsMeet o.regs o.group t.mul d.val = false) →
       let word (i : Nat) : Word := BitVec.ofNat 64 (s.loaded (s.x a) 64 / 2 ^ (64 * i))
       ∀ b ∈ scbOf word d.val t.mul,
         b.index = word 0 ∧ b.base = word 1 ∧ b.rowStride = word 2 ∧ b.count = (word 3).toNat ∧ b.pos = 0 ∧
         ∃ u, exec (.vsbind d a slot) s = .next u ∧ OnlyData s.done u ∧ SameMemory s u ∧ SameFlags s u ∧ SameRegisters s u ∧
           u.hart.ixt = s.hart.ixt ∧ u.hart.streams = s.hart.streams.set slot (some b)) ∧
     (s.hart.vc.vtype ≠ none →
       ∃ u, exec (.vsunbind slot) s = .next u ∧ OnlyData s.done u ∧ SameMemory s u ∧ SameFlags s u ∧ SameRegisters s u ∧
         u.hart.ixt = s.hart.ixt ∧ u.hart.streams = s.hart.streams.set slot none) ∧
     (∃ u, exec (.vbconst c a) s = .next u ∧ OnlyData s.done u ∧ SameMemory s u ∧ SameFlags s u ∧ SameTables s u ∧
       u.hart.vec = { s.hart.vec with b := s.hart.vec.b.set c (s.x a), progress := u.hart.vec.progress })) ∧
  (∀ (s : State) (t : VType) (d a : VName) (x : XReg) (m : Option MName) (q : MName) (n : Fin 4) (b : Stream),
     Prompt s → s.hart.fits = true → s.hart.lanes.held ≠ [] → s.hart.vc.vtype = some t → t.groupAt d = true → t.groupAt a = true →
     t.meet d a = false → s.hart.streams[n] = some b → (∀ i : Fin 4, i ≠ n → s.hart.streams[i] = none) →
     b.group = a.val → b.regs = t.mul → s.hart.vc.vstart < s.hart.vc.vl →
     let reads : List Instr := [.vmv d a m, .vslideup d a x m, .vslidedn d a x m, .vcompress d a q, .vexpand d a q]
     let size := t.fmt.packed / 8
     let first := (b.pos + s.hart.vc.vstart) / b.rowLen
     let entry (r : Nat) : Word := b.index + BitVec.ofNat 64 (r * b.indexBytes)
     let kept (r : Nat) : Option Word := b.row.bind fun w => if w.1 = r ∧ r = first then some w.2 else none
     let row (r : Nat) : Word := (kept r).getD (BitVec.ofNat 64 (s.loaded (entry r) b.indexBytes))
     let place (p : Nat) : Word := b.base + row (p / b.rowLen) * b.rowStride + BitVec.ofNat 64 (p % b.rowLen * size)
     let strip (k : Nat) : Bool := decide (s.hart.vc.vstart ≤ k) && decide (k < s.hart.vc.vl)
     (t.fmt = b.sfmt → b.pos < b.total → t.fmt.isM8 = true →
       (∀ k, strip k = true → b.pos + k < b.total →
         ((kept ((b.pos + k) / b.rowLen)).isSome || (s.plain .load (entry ((b.pos + k) / b.rowLen)) b.indexBytes).isSome) = true ∧
         (s.plain .load (place (b.pos + k)) size).isSome = true) →
       ∃ p : State,
         p = { s with hart := { s.hart with
           vec := { s.hart.vec with v := p.hart.vec.v, tag := p.hart.vec.tag, progress := p.hart.vec.progress }
           streams := Vector.replicate 4 none } } ∧
         SameOutside s.hart.vec p.hart.vec (groupSet t.mul a.val) 0#8 0#16 0#32 ∧
         (∀ k, k < s.maxElems t → p.element t a k =
           if strip k = false then s.element t a k
           else if b.pos + k < b.total then s.loaded (place (b.pos + k)) size else 0) ∧
         ∀ i ∈ reads, ∃ u v : State, ∃ w, exec i s = .next u ∧ exec i p = .next v ∧
           u = { v with hart := { v.hart with streams := s.hart.streams.set n (some
             { b with pos := b.pos + min s.hart.vc.vl (b.total - b.pos), row := w }) } }) ∧
     (b.total ≤ b.pos ∨ t.fmt ≠ b.sfmt → ∀ i ∈ reads, ∃ u, exec i s = .next u ∧ SameMemory s u ∧ SameVectors s u ∧
       u.hart.streams = s.hart.streams ∧
       u.hart.vfault.map (fun f => (f.cause, f.kind, f.vpc)) = some (29, if b.total ≤ b.pos then 0 else 1, s.hart.pc)))

/-- R144, R147, R238, R239: VCOPY completes as it hands its copy to the copy engine, with its operands, and a copy of no bytes is none.
With `.bar` the bytes of the copy are added to PENDING of its barrier object. It keeps `vstart` (notes/assumptions/24.md). R388: the copy
engine of its cluster is ready. -/
def Obligations.CopyHandOff : Prop :=
  ∀ (s : State) (d a b : XReg) (kind : CopyKind),
    Prompt s → s.hart.vc.vtype ≠ none → s.engineReady (clusterOf s.hartId) = true → (s.x b).toNat < 2 ^ 36 →
    let count := (s.x b).toNat
    let pair := if kind = .put then s.x (pairOf d) else s.x (pairOf a)
    let copy (bar : Option (Word × Nat)) : Copy :=
      { id := s.nextCopy, hart := s.hartId, space := s.dataSpace, pc := s.hart.pc, kind := kind, src := s.x a, dst := s.x d,
        count := count, done := 0, dev := if kind = .onDevice then 0#21 else pair.extractLsb' 0 21,
        key := if kind = .onDevice then 0#32 else pair.extractLsb' 32 32, regs := (a.val, d.val), bar := bar,
        pending := if bar.isSome then count else 0, written := false, held := none }
    let base := s.issued false true
    (∀ bar ∈ [true, false], s.x b = 0#64 → ∃ u, exec (.vcopy d a b kind bar) s = .next u ∧ Unchanged s base u) ∧
    (s.x b ≠ 0#64 → ∃ u, exec (.vcopy d a b kind false) s = .next u ∧
      Unchanged s { base with copies := s.copies ++ [copy none], nextCopy := s.nextCopy + 1 } u) ∧
    (s.x b ≠ 0#64 →
      let va := s.x (pairOf b)
      let object : Option Nat := match translate s (.engine (clusterOf s.hartId)) s.dataSpace .store va with
        | .ok pa false => some pa
        | _ => none
      ∀ pa ∈ object,
        Canonical s → va.toNat % 32 = 0 → s.poisoned pa = false → (s.barrier pa).pending + count < 2 ^ 36 →
        ∃ u, exec (.vcopy d a b kind true) s = .next u ∧
          OnlyData { base with copies := s.copies ++ [copy (some (va, pa))], nextCopy := s.nextCopy + 1 } u ∧
          SameRegisters s u ∧ SameFlags s u ∧ SameTables s u ∧ u.fullEmpty = s.fullEmpty ∧ u.poison = s.poison ∧
          StoredOnly s u [(pa, 32)] ∧
          u.barrier pa = { s.barrier pa with pending := (s.barrier pa).pending + count })

/-! ## Grants and squalls (R221 to R228) -/

/-- R221, R222: VSETL and VSETLI complete, make the hart's lane changes, and grant the least of the limits under the type asked for; they
return vl and say whether power or the ceiling limited it. A type that is illegal leaves VILL and vl 0. R223: VSETSH completes under the
current type: vl is a power of two of rows times a power of two of elements, the row length the greatest that fits, and vtype says so;
PWR and CEIL say whether power, or the ceiling, made vl smaller. What the bound streams have left, with the queued pops and the exhausted
ones, is the model's reading (notes/assumptions/36.md), and so is the vlmax of 0 after an illegal grant (notes/assumptions/40.md); that VSETSH
grants vl 0 with SH 1 and RLOG 0 where a stream leaves nothing to grant is the model's choice (notes/assumptions/45.md). -/
def Obligations.Grants : Prop :=
  (∀ (s : State) (d a b : XReg) (imm : BitVec 9),
     Grantable s →
     let u := s.applyLanes
     let grants (i : Instr) (w : Word) : Prop :=
       (∀ t ∈ requestedType w, ∀ vl ∈ u.grantLimits t (s.x a).toNat, Least vl (u.grantLimits t (s.x a).toNat) →
         let m := min (s.x a).toNat (u.maxElems t)
         exec i s = .next (s.regranted u d (some { t with sh := false, rlog := 0 }) vl (u.maxElems t) (decide (u.powered t < m))
           (decide (u.hart.facts.ceil ≠ 0 ∧ u.hart.facts.ceil < m)))) ∧
       (requestedType w = none → exec i s = .next (s.regranted u d none 0 0 false false))
     grants (.vsetl d a b) (s.x b) ∧ grants (.vsetli d a imm) (immediateType imm)) ∧
  (∀ (s : State) (d a b : XReg),
     Grantable s →
     let u := s.applyLanes
     let rows := (s.x a).toNat
     let len := (s.x b).toNat
     let rl (n : Nat) : Nat := if rows = 0 ∨ len = 0 ∨ n = 0 then 1 else 2 ^ Nat.log2 (min len n)
     let vl (n : Nat) : Nat := if rows = 0 ∨ len = 0 ∨ n = 0 then 0 else 2 ^ Nat.log2 (min rows (n / rl n)) * rl n
     let ceil := if u.hart.facts.ceil = 0 then [] else [u.hart.facts.ceil]
     let streams := u.streamsAhead.toList.filterMap (·.map Stream.left)
     (∀ t ∈ s.hart.vc.vtype, ∀ n p c, Least n (u.grantLimits t (u.maxElems t)) → Least p ([u.maxElems t] ++ ceil ++ streams) →
       Least c ([u.maxElems t, u.powered t] ++ streams) →
       exec (.vsetsh d a b) s = .next (s.regranted u d (some { t with sh := true, rlog := Fin.ofNat 32 (Nat.log2 (rl n)) }) (vl n)
         (u.maxElems t) (decide (vl n < vl p)) (decide (vl n < vl c)))) ∧
     (s.hart.vc.vtype = none → exec (.vsetsh d a b) s = .next (s.regranted u d none 0 0 false false)))

/-- R225 to R228: SQDECL of a legal descriptor in plain memory takes a free slot of the cluster's table and returns its handle, or −1 where
the table is full; VSETLQ with the handle of a live squall of the cluster hands out the least of what is left, the strip limit and the
limits of a grant, and says where the strip begins; SQEND frees the slot, whose generation advances. R388: these need a squall table that
is ready; while it is not, each takes a load access fault, which for VSETLQ and SQEND is the model's reading (notes/assumptions/43.md). The
limits of the bound streams are the model's reading (notes/assumptions/36.md), and so is that the generation advances as the slot is freed
(notes/assumptions/40.md). -/
def Obligations.Squalls : Prop :=
  ∀ (s : State) (d a b : XReg) (i : Fin 32) (q : Squall),
    let slot := 32 * clusterOf s.hartId + i.val
    let va := s.x a
    (s.engineReady (clusterOf s.hartId) = true → ∀ pa ∈ s.plain .load va 64,
      let word (k : Nat) : Word := BitVec.ofNat 64 (s.loaded va 64 / 2 ^ (64 * k))
      ((word 2).toNat < 2 ^ 32 ∧ ∀ k, k < 8 → 3 ≤ k → word k = 0#64) →
      ((s.squallSlot slot).squall = none → (∀ j, j < i.val → (s.squallSlot (32 * clusterOf s.hartId + j)).squall ≠ none) →
        exec (.sqdecl d a) s = .next ((s.setSquall slot ⟨(s.squallSlot slot).gen,
          some ⟨word 0, (word 1).toNat, (word 2).toNat, 0, s.asid, none⟩⟩).setX d (squallHandle slot (s.squallSlot slot).gen)).advance) ∧
      ((∀ j, j < 32 → (s.squallSlot (32 * clusterOf s.hartId + j)).squall ≠ none) →
        exec (.sqdecl d a) s = .next (s.setX d (BitVec.allOnes 64)).advance)) ∧
    (s.engineReady (clusterOf s.hartId) = false →
      ∀ i ∈ [Instr.sqdecl d a, .sqend a] ++ (if (requestedType (s.x b)).isSome then [.vsetlq d a b] else []),
        ∃ u, exec i s = .next u ∧ TrapTaken s u causeLoadAccess va) ∧
    (s.engineReady (clusterOf s.hartId) = true → slot < 512 → (s.squallSlot slot).squall = some q → q.asid = s.asid →
      va = squallHandle slot (s.squallSlot slot).gen →
      exec (.sqend a) s = .next (s.setSquall slot ⟨(s.squallSlot slot).gen + 1#32, none⟩).advance ∧
      (Grantable s → ∀ t ∈ requestedType (s.x b),
        let u := s.applyLanes
        let limits := u.grantLimits t (q.count - q.taken) ++ (if q.stripMax = 0 then [] else [q.stripMax])
        let m := min (q.count - q.taken) (u.maxElems t)
        ∀ vl ∈ limits, Least vl limits →
          exec (.vsetlq d a b) s =
            let u := u.setSquall slot ⟨(s.squallSlot slot).gen, some { q with taken := q.taken + vl }⟩
            .next (s.regranted { u with hart := { u.hart with vc := { u.hart.vc with vstrip := q.first + BitVec.ofNat 64 q.taken } } } d
              (some { t with sh := false, rlog := 0 }) vl (u.maxElems t) (decide (u.powered t < m))
              (decide (u.hart.facts.ceil ≠ 0 ∧ u.hart.facts.ceil < m)))))

/-! ## The matrix array (R196 to R219, R403) -/

/-- R197 to R203, R209, R215: MATT attaches the rows that are free, at most those asked for, with empty planes and tiles; MDET detaches;
MSHAPE keeps a legal word and marks any other; MSWAP exchanges the planes; MZERO empties one tile; MWAIT goes on when nothing is queued.
MATT with an attachment, MSWAP and MZERO without one are matrix attachment faults. R205 to R208: MLDS, of a tile in plain memory, and
MLDSV, of a tile in a register group, complete where the attachment holds its rows and the scales fit: weight W[k][j] and its scale are in
the shadow plane at row k and column j, and nothing else in it has changed but for the clearing of a plane of another format. The active
plane and the tiles are as they were. That MLDS alone of these sets `vstart` to 0 is read from R59 (notes/assumptions/24.md). -/
def Obligations.MatrixControl : Prop :=
  (∀ (s : State) (rows : Fin 32) (a : XReg) (d : AccName),
     Prompt s →
     let same (u : State) (att : Option Attachment) (shape : Word) : Prop := Unchanged s (s.matrixDone att shape) u
     let faults (i : Instr) (kind : Nat) : Prop :=
       ∃ u, exec i s = .next u ∧ u.hart.attachment = s.hart.attachment ∧
         u.hart.mfault.map (fun f => (f.cause, f.kind, f.vpc)) = some (28, kind, s.hart.pc)
     let n := if s.coreAttached then 0 else min (16 * rows.val) s.freeRows
     (s.hart.attachment = none →
       ∃ u, exec (.matt rows) s = .next u ∧
         same u (if n = 0 then none else some (Attachment.fresh n s.hart.mshape)) s.hart.mshape) ∧
     (s.hart.attachment.isSome = true → faults (.matt rows) 1) ∧
     (∃ u, exec .mdet s = .next u ∧ same u none s.hart.mshape) ∧
     (∃ u, exec (.mshape a) s = .next u ∧
       same u s.hart.attachment
         (if (shapeOf (putField (s.x a) 63 1 0)).isSome then putField (s.x a) 63 1 0 else putField 0#64 63 1 1)) ∧
     (∀ att ∈ s.hart.attachment,
       (∃ u, exec .mswap s = .next u ∧
         same u (some { att with active := att.shadow, shadow := att.active, lost := false }) s.hart.mshape) ∧
       (∃ u, exec (.mzero d) s = .next u ∧ same u (some { att with tiles := att.tiles.set d Tile.fresh }) s.hart.mshape)) ∧
     (s.hart.attachment = none → faults .mswap 0 ∧ faults (.mzero d) 0) ∧
     (NoCopyFault s → exec .mwait s = .next s.advance)) ∧
  (∀ (s : State) (d : KName) (v : VName) (a b : XReg) (tr : Bool),
     Canonical s → Prompt s → s.hart.lanes.held ≠ [] →
     ∀ att ∈ s.hart.attachment, ∀ sh ∈ shapeOf s.hart.mshape,
       sh.k ≤ att.rows → scalesTooMany sh s.hart.vlen = false →
       let rows := if tr then sh.n else sh.k
       let len := if tr then sh.k else sh.n
       let p := sh.wf.packed
       let before := if att.shadow.wf = sh.wf ∧ att.shadow.wblm3 = sh.wblm3 then att.shadow else Plane.fresh sh.wf sh.wblm3
       let loaded (u base : State) (from' : Nat) (weight : Nat → Nat → Nat) : Prop :=
         Unchanged s base u ∧ u.hart.attachment.isSome = true ∧ ∀ att' ∈ u.hart.attachment,
           att' = { att with shadow := att'.shadow } ∧ att'.shadow.wf = sh.wf ∧ att'.shadow.wblm3 = sh.wblm3 ∧
           ∀ k, k < 128 → ∀ j, j < 128 →
             let r := if tr then j else k
             let i := if tr then k else j
             if k < sh.k ∧ j < sh.n ∧ from' ≤ r then
               att'.shadow.cell k j = weight r i ∧ att'.shadow.scale k j = weightScale s.hart.vec d sh k j
             else att'.shadow.cell k j = before.cell k j ∧ att'.shadow.scale k j = before.scale k j
       let keep (start : Bool) (u : State) : State :=
         let w := s.issued start false
         { w with hart := { w.hart with attachment := u.hart.attachment } }
       let granule (r g : Nat) : Word := s.x a + BitVec.ofNat 64 r * s.x b + BitVec.ofNat 64 (16 * g)
       let bit (r n : Nat) : Bool := (s.loaded (granule r (n / 128)) 16).testBit (n % 128)
       ((s.x a).toNat % 16 = 0 → (s.x b).toNat % 16 = 0 → s.hart.vc.vstart < rows →
         (∀ r, r < rows → s.hart.vc.vstart ≤ r → ∀ g, g < (len * p + 127) / 128 → (s.plain .load (granule r g) 16).isSome) →
         ∃ u, exec (.mlds d a b tr) s = .next u ∧ loaded u (keep true u) s.hart.vc.vstart fun r i =>
           ((List.range p).map fun n => (bit r (i * p + n)).toNat * 2 ^ n).sum) ∧
       (∀ t ∈ s.hart.vc.vtype, t.groupAt v = true → t.sh = true → t.fmt = sh.wf → s.hart.unbound = true →
         let row := 2 ^ t.rlog.val
         len ≤ row → rows ≤ s.hart.vc.vl / row → s.hart.vc.vl ≤ s.maxElems t →
         ∃ u, exec (.mldsv d v tr) s = .next u ∧ loaded u (keep false u) 0 fun r i => s.element t v (r * row + i) % 2 ^ p))

/-- R210, R211: MMUL and MMULS complete where the activations and the plane fit the shape: each accumulator of rows below M and columns
below N is the accumulation of its products, whose kind the tile records, and no other accumulator, plane or register changes. R41, R210:
integer products accumulate to the exact sum where no partial sum leaves 32 bits. -/
def Obligations.MatrixProducts : Prop :=
  (∀ (s : State) (t : VType) (d : AccName) (v : VName) (b : KName),
     Canonical s → Ready s t → t.groupAt v = true →
     ∀ att ∈ s.hart.attachment, ∀ sh ∈ shapeOf s.hart.mshape, ∀ kind ∈ accKind sh.af att.active.wf sh.acck,
       sh.k ≤ att.rows → att.lost = false → t.fmt = sh.af → att.tiles[d].kind.any (· != kind) = false →
       let row := 2 ^ t.rlog.val
       let product (i : Instr) (act : Nat → Nat → Nat) : Prop :=
         ∃ u, exec i s = .next u ∧ OnlyData { s.issued false false with hart := { (s.issued false false).hart with
             attachment := u.hart.attachment } } u ∧ SameRegisters s u ∧ SameMemory s u ∧ SameTables s u ∧
           s.hart.vc.vxflags ||| u.hart.vc.vxflags = u.hart.vc.vxflags ∧
           u.hart.attachment = some { att with tiles := att.tiles.set d ((u.hart.attachment.map fun a => a.tiles[d]).getD Tile.fresh) } ∧
           ∀ tile ∈ u.hart.attachment.map fun a => a.tiles[d], tile.kind = some kind ∧
             ∀ i, i < 128 → ∀ j, j < 128 → tile.cell i j =
               if i < sh.m ∧ j < sh.n then
                 (accumulate kind sh.af att.active.wf (att.tiles[d].cell i j)
                   ((List.range sh.k).map fun k => (s.element t v (act i k) % 2 ^ t.fmt.packed,
                     if sh.af.scaled then s.hart.vec.scaleByte b (act i k / 2 ^ t.bl) else 127#8))
                   ((List.range sh.k).map fun k => (att.active.cell k j,
                     if att.active.wf.scaled then att.active.scale k j else 127#8))).1 % 2 ^ 64
               else att.tiles[d].cell i j
       (t.sh = true → sh.k ≤ row → sh.m ≤ s.hart.vc.vl / row → (sh.af.scaled = true → t.bl ≤ t.rlog.val) →
         product (.mmul d v b) fun i k => i * row + k) ∧
       (t.sh = false → sh.m + sh.k - 1 ≤ s.hart.vc.vl → product (.mmuls d v b) fun i k => i + k)) ∧
  (∀ (af wf : Fmt) (acc : Nat) (xs ws : List (Nat × Byte)),
     isMatrixInt af = true → isMatrixInt wf = true → xs.length = ws.length → acc < 2 ^ 32 →
     let products := (xs.zip ws).map fun p => af.toInt p.1.1 * wf.toInt p.2.1
     (Fmt.i32.toInt acc).natAbs + (products.map Int.natAbs).sum < 2 ^ 31 →
     Fmt.i32.toInt (accumulate .i32 af wf acc xs ws).1 = Fmt.i32.toInt acc + products.sum ∧
     (accumulate .i32 af wf acc xs ws).2 = 0#5)

/-- R213, R214: MRD and MRDQ complete and write the elements below vl of their group from the rows of one tile from row X[b] on, zero
outside it; under a rounding mode that draws nothing each is the accumulator converted. MRDQ also writes the scale of each block. The
attachment does not change. That they leave `vstart` as it is, is read from R59 (notes/assumptions/24.md); that under vl = 0 they apply the
tail policy and clear the tags, from R213 and R214 (notes/assumptions/40.md). -/
def Obligations.ReadOuts : Prop :=
  ∀ (s : State) (t : VType) (d : VName) (a : AccName) (b : XReg) (k : KName) (rm : Rm) (sat : Bool),
    Ready s t → t.groupAt d = true →
    ∀ att ∈ s.hart.attachment, ∀ size ∈ readout t (shapeOf s.hart.mshape) att.tiles[a],
      let kind := att.tiles[a].kind.getD .fp32
      let cell (e : Nat) : Nat :=
        let i := (s.x b).toNat + e / size.2
        let j := e % size.2
        if j < size.1 ∧ i < 128 then att.tiles[a].cell i j else 0
      let mode := rm.resolve s.hart.vc.vrm
      let dyn := Rounding.ofVrm s.hart.vc.vrm
      let block := 2 ^ t.bl
      let scale (β : Nat) : Nat :=
        blockScale t.fmt (((List.range' (β * block) block).filter fun x => decide (x < s.hart.vc.vl)).map fun x =>
          kind.fmt.layout.decode (cell x))
      let blocks := (s.hart.vc.vl + block - 1) / block
      ((t.fmt.isFS || t.fmt.isInt) = true →
        ∃ u, exec (.mrd d a b rm sat) s = .next u ∧
          WritesRegsAndFlags s (s.issued false false) u (groupSet t.mul d.val) 0#8 0#16 0#32 ∧ Untagged u (groupSet t.mul d.val) ∧
          (∀ e, e < s.maxElems t → s.hart.vc.vl ≤ e → u.element t d e = s.kept t t.tp d e) ∧
          (mode ≠ .sr → u.free = s.free ∧ ∀ e, e < s.hart.vc.vl →
            u.element t d e = (convAcc kind t.fmt (s.roundCtx mode sat) (cell e)).1 % 2 ^ t.sew)) ∧
      (t.fmt.isSC = true → kind ≠ .i32 → size.2 % block = 0 →
        ∃ u, exec (.mrdq d a b k) s = .next u ∧
          WritesRegsAndFlags s (s.issued false false) u (groupSet t.mul d.val) 0#8 (scaleSet k) 0#32 ∧
          (∀ β, β < blocks → β < 4096 → (u.hart.vec.scaleByte k β).toNat = scale β % 256) ∧
          (∀ β, blocks ≤ β → β < 4096 → u.hart.vec.scaleByte k β = if t.tp then 0#8 else s.hart.vec.scaleByte k β) ∧
          (∀ e, e < s.maxElems t → s.hart.vc.vl ≤ e → u.element t d e = s.kept t t.tp d e) ∧
          (dyn ≠ .sr → u.free = s.free ∧ ∀ e, e < s.hart.vc.vl → u.element t d e =
            (if scale (e / block) = 255 then 0
             else (t.fmt.deliver (s.roundCtx dyn true) (BitVec.ofNat 8 (scale (e / block)))
               (kind.fmt.layout.decode (cell e))).1) % 2 ^ t.sew))

/-! ## Blocks (R85 to R122, R229 to R233, R256 to R259) -/

/-- R90, R229: VFB and VFBM of a block that can be fetched begin a round: each active element is a micro-thread at word 0 of the block,
the links are empty, and the entry stays in the vector queue. With no active element they complete and change nothing; a misaligned
address is a precise exception; a block that cannot be fetched, or is not valid, is a block translation fault. R231 to R233: with nothing
to wait for VDRAIN goes on. VRESUME continues the resume groups that it names as a round and keeps the others; where there are none it
changes nothing. VKILL always goes on: nothing of the vector queue, of a round, of the resume groups or of a pending vector fault is left,
`vstart` is 0, and no register or byte of memory changes but for the copies that faults hold, of which none stays held, and `vlinkout`,
which takes the held value of the highest element that it stops (R116); that those of resume groups do not stop is the model's choice
(notes/assumptions/45.md). That VKILL leaves the matrix queue and a
pending matrix fault where no matrix image is held is the model's reading (notes/assumptions/40.md). -/
def Obligations.Broadcasts : Prop :=
  (∀ (s : State) (t : VType) (a : XReg) (m : MName),
     Prompt s → s.hart.vc.vtype = some t →
     let va := s.x a
     let base := s.issued true false
     ∀ p ∈ [(Instr.vfb a, none), (Instr.vfbm a m, some m)],
       let elems := (List.range s.hart.vc.vl).filter (s.hart.vec.active p.2)
       (va.toNat % 128 ≠ 0 → exec p.1 s = .next (s.takeTrap causeFetchMisaligned va)) ∧
       (va.toNat % 128 = 0 → elems = [] → ∃ u, exec p.1 s = .next u ∧ Unchanged s s.done u) ∧
       (va.toNat % 128 = 0 → elems ≠ [] →
         (∀ c ∈ s.blockAt t va, ∃ u, exec p.1 s = .next u ∧
           (∀ k, k < maxVlen → u.hart.links.active.getLsbD k = elems.contains k) ∧
           u = { base with
             cores := c.2.cores
             hart := { base.hart with
               vec := { s.hart.vec with tag := u.hart.vec.tag }
               vq := u.hart.vq
               links := ⟨u.hart.links.active, [], []⟩
               round := some
                 { seq := s.hart.seq, strip := s.hart.vc.strip, vl := s.hart.vc.vl, log2vlen := s.hart.log2vlen, vtype := t
                   opened := true, holding := .no, overflow := none, mode := s.hart.dataMode
                   micros := elems.map fun e => ⟨e, true, true, 0, va, 0, .running, .group 0, none, none⟩
                   groups := [⟨0, va, c.1, false, s.cycle, []⟩], codes := [], nextId := 1 } } } ∧
           u.hart.vq.map (fun e => (e.pc, e.seq, e.xa, e.vl)) = [(s.hart.pc, s.hart.seq, va, s.hart.vc.vl)] ∧
           (∀ r : Fin 32, (codeUses t c.1).wv.getLsbD r.val = true → u.hart.vec.tag[r] = none) ∧
           (∀ r : Fin 32, u.hart.vec.tag[r] = none ∨ u.hart.vec.tag[r] = s.hart.vec.tag[r])) ∧
         (∀ kind ∈ s.blockFault t va, ∃ u, exec p.1 s = .next u ∧ SameMemory s u ∧ SameRegisters s u ∧
           u.hart.vfault.map (fun f => (f.cause, f.kind, f.vpc)) = some (26, kind, va)))) ∧
  (∀ (s : State) (t : VType) (scope : Scope) (micro all : Bool) (g : Fin 8) (gs : List ResumeGroup),
     (s.hart.idle = true → s.copying s.hartId = false → NoCopyFault s → exec (.vdrain scope micro) s = .next s.advance) ∧
     (Prompt s → s.hart.vc.vtype = some t →
       let named (r : ResumeGroup) : Bool := all || r.num == g.val
       let s' := { s with hart := { s.hart with resume := gs } }
       let base := s'.issued true false
       (gs.filter named = [] → ∃ u, exec (.vresume g all) s' = .next u ∧ Unchanged s' s'.done u) ∧
       (∀ r ∈ continueRound (gs.filter named) s.hart.seq s.cycle true, ∃ u, exec (.vresume g all) s' = .next u ∧
         u = { base with hart := { base.hart with vq := u.hart.vq, round := some r, resume := gs.filter fun r => !named r } } ∧
         u.hart.vq.map (fun e => (e.pc, e.seq)) = [(s.hart.pc, s.hart.seq)])) ∧
     (∃ u, exec .vkill s = .next u ∧
       let h := s.hart.goTo (s.hart.pc + 4#64)
       u.hart = { h with
         vq := [], vfault := none, vheld := false, mheld := false, reported := none, sread := none, headWait := none, chains := []
         mq := if s.hart.mheld then [] else s.hart.mq
         mfault := if s.hart.mheld then none else s.hart.mfault
         round := none, resume := [], mt := none, links := u.hart.links
         vc := { h.vc with vstart := 0, vlinkout := u.hart.vc.vlinkout } } ∧
       (s.hart.round = none → u.hart.links = s.hart.links ∧ u.hart.vc.vlinkout = s.hart.vc.vlinkout) ∧
       (∀ r ∈ s.hart.round, ∀ m ∈ r.micros, s.hart.links.above r.vl m.elem = none →
         (∀ o ∈ r.micros, o.elem ≠ m.elem → (s.hart.links.above r.vl o.elem).isSome = true) →
         u.hart.vc.vlinkout = s.hart.links.heldOf m.elem) ∧
       (∀ c ∈ u.copies, c.hart = s.hartId → c.held = none) ∧
       (∀ c ∈ s.copies, (c.hart ≠ s.hartId ∨ c.held = none) → (s.copies.map (·.id)).Nodup → c ∈ u.copies) ∧
       ((s.copies.map (·.id)).Nodup → (∀ c ∈ s.copies, c.hart = s.hartId → c.held.isSome = true → c.bar = none) →
         u.copies = s.copies.filter fun c => c.hart ≠ s.hartId ∨ c.held = none) ∧
       ((∀ c ∈ s.copies, c.hart = s.hartId → c.held = none) →
         u = { s with hart := u.hart, remote := { s.remote with outstanding := u.remote.outstanding } })))

/-! ## Barriers and full-empty memory (R238 to R243, R278, R303) -/

/-- R239 to R242: BARINIT writes an object with EXPECT and nothing else; BARRIVE of a prompt hart arrives at its object, releases it where
that completes it, and records the generation it found; BARWAIT on the object of the recorded pair goes on once the generation differs,
and waits before; BARTEST says which, and waits for nothing. R243, R344: LDFE of a full granule reads its word, and with `.c` empties the
granule; of an empty one it waits at the instruction, and the end of the wait's 2^30 cycles, or of the granule's reservation, is a trap of
cause 30. STFE writes its word and fills the granule. That BARRIVE leaves `vstart` as it is, is read from R59 (notes/assumptions/24.md). -/
def Obligations.Barriers : Prop :=
  (∀ (s : State) (d a b : XReg) (scope : Scope),
     Canonical s →
     let va := s.x a
     (va.toNat % 32 = 0 → ∀ pa ∈ s.placed .store va, ∃ u, exec (.barinit a b) s = .next u ∧
       u = { s.advance with memory := u.memory, reservations := u.reservations } ∧ StoredOnly s u [(pa, 32)] ∧
       u.barrier pa = ⟨(s.x b).toNat % 65536, 0, false, false, 0⟩ ∧
       Memory.readNum u.memory (pa + 16) 16 = 0) ∧
     (Prompt s → va.toNat % 32 = 0 → ∀ pa ∈ s.placed .store va, s.poisoned pa = false → ∃ u, exec (.barrive a scope) s = .next u ∧
       let o := s.barrier pa
       let n := min 65535 (o.arrived + 1)
       let released : Bool := decide (o.expect ≤ n ∧ o.pending = 0)
       let base := s.issued false false
       u = { base with
         hart := { base.hart with arrival := some (va, o.gen) }
         others := if released then s.others.map fun p => (p.1, p.2.sawRelease pa) else s.others
         memory := u.memory, reservations := u.reservations } ∧
       StoredOnly s u [(pa, 16)] ∧
       u.barrier pa = if released then { o with arrived := 0, gen := !o.gen } else { o with arrived := n }) ∧
     (s.hart.vwork = [] → ∀ pa ∈ s.plain .load va 32, ∀ p ∈ s.hart.arrival, p.1 = va →
       (p.2 ≠ (s.barrier pa).gen → exec (.barwait a) s = .next s.advance ∧ exec (.bartest d a) s = .next (s.setX d 1#64).advance) ∧
       (p.2 = (s.barrier pa).gen → exec (.bartest d a) s = .next (s.setX d 0#64).advance ∧
         (s.hart.waiting = .nothing → exec (.barwait a) s = .next { s with hart := { s.hart with waiting := .barrier pa false } }) ∧
         (s.hart.waiting = .barrier pa true → exec (.barwait a) s = .next s.advance)))) ∧
  (∀ (s : State) (d a b : XReg) (c : Bool) (since : Nat),
     let va := s.x a
     (∀ pa ∈ s.plain .load va 8, hasFullEmpty s.bigMemory pa = true →
       (s.full pa = true → exec (.ldfe d a c) s =
         .next ({ s with fullEmpty := if c then Store.put false s.fullEmpty (pa / 16) false else s.fullEmpty }.setX d
           (BitVec.ofNat 64 (Memory.readNum s.memory pa 8))).advance) ∧
       (s.full pa = false →
         (s.hart.waiting = .nothing →
           exec (.ldfe d a c) s = .next { s with hart := { s.hart with waiting := .ldfe s.cycle (pa / 16) false } }) ∧
         (∀ p ∈ [(0, false), (1, true)],
           let s' := { s with hart := { s.hart with waiting := .ldfe since (pa / 16) p.2 } }
           (p.1 = 0 → since + 2 ^ 30 ≤ s.cycle) →
           ∃ u, exec (.ldfe d a c) s' = .next u ∧ u = { s with hart := u.hart } ∧ u.hart.x = s.hart.x ∧
             (u.hart.csr.mcause = 30#64 ∨ u.hart.csr.scause = 30#64) ∧
             u.hart.csr.svtrap0.getLsbD 63 = true ∧ getField u.hart.csr.svtrap0 48 8 = p.1 ∧ u.hart.csr.svtrap1 = s.hart.pc))) ∧
     (va.toNat % 8 = 0 → ∀ pa ∈ s.placed .store va, hasFullEmpty s.bigMemory pa = true →
       exec (.stfe a b) s = .next { (s.writeBytes (some s.hartId) pa (byteList 8 (s.x b).toNat)) with
         fullEmpty := Store.put false s.fullEmpty (pa / 16) true }.advance))

/-! ## Launches and the system instructions (R244 to R253, R304 to R316, R352, R372) -/

/-- R244 to R246, R305 to R308: LAUNCH of a record in plain memory that no STATUS refuses is accepted: the queue has the record behind the
others, its ticket reads STATE 1, and X[d] is the ticket with STATUS 0. R245: a queue number of 64 or above has STATUS 1. R372: a remote LAUNCH
over links that carry traffic takes a permit of its target and sends the record; with none it has STATUS 9. Which ticket it gets is a free
value (notes/assumptions/17.md). A refused one changes X[d] alone, to the first STATUS that holds, but
for the error log, where the address-space entry lies in a poisoned line (notes/assumptions/41.md). LSTAT reads the state and the counts of
a ticket that the queue keeps, and 0 for every other. R308: sequence numbers have 50 bits and are never 0. -/
def Obligations.Launches : Prop :=
  ∀ (s : State) (d a b : XReg),
    let va := s.x a
    let w := s.x b
    let tickets := (s.queue (getField va 50 6)).tickets
    let status (n : Nat) : Prop := exec (.launch d a b) s = .next (s.setX d (BitVec.ofNat 64 n)).advance
    (w.toNat < 64 →
      let q := s.queue w.toNat
      (q.admits s.hart = false → (va.toNat % 64 ≠ 0 ∨ (s.plain .load va 64).isSome = true) → status 1) ∧
      (q.admits s.hart = true → va.toNat % 64 ≠ 0 → status 2) ∧
      (q.admits s.hart = true → ∀ pa ∈ s.plain .load va 64,
        let words : Vector Word 8 := Vector.ofFn fun i => BitVec.ofNat 64 (Memory.readNum s.memory (pa + 8 * i.val) 8)
        let r := StartRecord.ofWords fun i => words.getD i 0#64
        (∀ n ∈ r.refused s.mostLanes, status n) ∧
        (r.refused s.mostLanes = none →
          let full : Bool := decide (1024 ≤ q.records.length ∨ s.freeSlots w.toNat = 0)
          (full = true → status 7) ∧
          (full = false → s.queueReady q = false → status 8) ∧
          (full = false → s.queueReady q = true → s.addressSpaceWaits s.agent r.asid = false →
            ((s.addressSpace s.agent r.asid).isNone = true → ∃ u, exec (.launch d a b) s = .next u ∧
              u = { (s.setX d 10#64).advance with log := u.log, lifeRam := u.lifeRam, appInterrupts := u.appInterrupts } ∧
              (s.poisoned (s.astEntry r.asid) = false → status 10)) ∧
            ((s.addressSpace s.agent r.asid).isSome = true →
              let q' : LaunchQueue := { q with
                nextSeq := if q.nextSeq + 1 < 2 ^ 50 then q.nextSeq + 1 else 1
                records := q.records ++ [⟨q.nextSeq, words, none⟩]
                tickets := (⟨q.nextSeq, 1, 0, 0⟩ :: q.tickets).take 4096 }
              exec (.launch d a b) s = .next ((s.setQueue w.toNat q').setX d
                (BitVec.ofNat 64 ((w.toNat * 2 ^ 50 + q.nextSeq) * 256))).advance))))) ∧
    ((if w.getLsbD 27 then 2 ^ 28 else 64) ≤ w.toNat → (va.toNat % 64 ≠ 0 ∨ (s.plain .load va 64).isSome = true) → status 1) ∧
    (w.getLsbD 27 = true → w.toNat < 2 ^ 28 →
      (va.toNat % 64 ≠ 0 → status 2) ∧
      ∀ pa ∈ s.plain .load va 64,
        let words : Vector Word 8 := Vector.ofFn fun i => BitVec.ofNat 64 (Memory.readNum s.memory (pa + 8 * i.val) 8)
        let r := StartRecord.ofWords fun i => words.getD i 0#64
        let dev : BitVec 21 := w.extractLsb' 6 21
        let queue := getField w 0 6
        let asid : BitVec 16 := s.hart.csr.satp.extractLsb' 44 16
        let held := s.remote.permits.filter fun p => p.2.head.getLsbD 63 && p.2.head.extractLsb' 0 21 == dev &&
          getField p.2.head 21 6 == queue && p.2.head.extractLsb' 27 16 == asid && p.2.count != 0#16
        (∀ n ∈ r.refused 8, status n) ∧
        (r.refused 8 = none → s.routeToRemote s.agent = .open' →
          (held = [] → status 9) ∧
          (∀ p ∈ held.head?,
            let taken : Remote := { s.remote with permits := Store.put Permit.reset s.remote.permits p.1 { p.2 with count := p.2.count - 1#16 } }
            let t : State := { s with remote := taken, free := s.free + 1 }
            ∃ ticket, 0 < ticket ∧ ticket < 2 ^ 56 ∧ getField (BitVec.ofNat 64 ticket) 0 50 = 0 ∧
              (dev ≠ s.remote.devnum → ∀ way ∈ s.netRoute dev, exec (.launch d a b) s = .next (State.setX { t with remote := { taken with
                nextReq := taken.nextReq + 1
                outbox := taken.outbox ++ [⟨some way, taken.devnum, taken.bootgen, .launch taken.nextReq dev queue asid words⟩] } } d
                  (BitVec.ofNat 64 (ticket * 256))).advance) ∧
              (dev = s.remote.devnum → exec (.launch d a b) s =
                .next ((t.receiveRecord dev queue asid words).setX d (BitVec.ofNat 64 (ticket * 256))).advance)))) ∧
    ((∀ t ∈ tickets.find? fun t => t.seq == getField (s.x a) 0 50, (s.x a).toNat < 2 ^ 56 →
        exec (.lstat d a) s = .next (s.setX d
          (BitVec.ofNat 64 (t.exited % 16 * 4096 + t.started % 16 * 256 + t.state))).advance) ∧
      ((∀ t ∈ tickets, t.seq ≠ getField (s.x a) 0 50) → exec (.lstat d a) s = .next (s.setX d 0#64).advance))

/-- R245, R252, R316: HEXIT of an idle hart ends it: it runs no more, its registers are at their reset values, and its exit counts for its
launch; the last exit ends the launch, and where its completion barrier cannot be reached no arrival is made (notes/assumptions/31.md).
R253: HYIELD gives up at the next grant every lane group but the lowest of those it is to keep, where lanes are wanted.
R247, R248, R251: above U-mode SVCALL posts a request with the hart's place, address space and pc under the next SEQ, and waits for its
answer; TCINV, once the page tables of its range can be read, drops the translations that the range names, of every core, and no other;
LANEPART of a legal partition changes who is to hold lane groups, and neither registers nor the groups held now: each running hart of the
core loses what it holds beyond its part, and what it was to give up for a head record; of its part it receives what nothing uses, and what
another hart uses or a head record has is promised to it (notes/assumptions/25.md). -/
def Obligations.HartsAndSystem : Prop :=
  (∀ (s : State),
     (s.hart.idle = true → s.copying s.hartId = false → NoCopyFault s → (∀ l ∈ s.launchOf s.hartId, (s.completion l).isSome = true) →
       ∃ u, exec .hexit s = .next u ∧ u.hartId = s.hartId ∧
         u.hart = { Hart.reset with csr := s.hart.csr, freezeReq := s.hart.freezeReq, freezeMax := s.hart.freezeMax } ∧
         (s.launchOf s.hartId = none → SameMemory { s with reservations := s.reservations.filter (·.1 ≠ s.hartId) } u ∧
           u.launches = s.launches ∧ u.queues = s.queues) ∧
         (∀ l ∈ s.launchOf s.hartId,
           let left := l.harts.filter (· != s.hartId)
           (left ≠ [] → u.launches = s.launches.map (fun (o : Launch) => if o.id = l.id then { o with harts := left } else o) ∧
             SameMemory { s with reservations := s.reservations.filter (·.1 ≠ s.hartId) } u) ∧
           (left = [] → (∀ o ∈ u.launches, o.id ≠ l.id) ∧
             (l.bar = 0#64 → SameMemory { s with reservations := s.reservations.filter (·.1 ≠ s.hartId) } u)) ∧
           ∀ t ∈ (u.queue l.queue).tickets, t.seq = l.seq → left = [] → t.state = 3)) ∧
     (exec .hyield s = .next ({ s with hart := { s.hart with lanes := { s.hart.lanes with
       lose := s.hart.lanes.lose ++
         if s.lanesWanted then (s.hart.lanes.held.filter fun g => !s.hart.lanes.lose.contains g).drop 1 else [] } } } : State).advance)) ∧
  (∀ (s : State) (a b : XReg),
     s.hart.mode ≠ .u →
     let lo := (s.x a).toNat
     let n := (s.x b).toNat
     let pages := if n = 0 then 0 else (lo + n - 1) / 4096 + 1 - lo / 4096
     (s.hart.parked = false →
       let q := s.service (dieOf s.hartId)
       let r : Request := ⟨s.x a, q.nextSeq, BitVec.ofNat 64 (placeBits s.hartId 0), s.asid.setWidth 64, s.hart.pc, s.hartId⟩
       exec (.svcall a) s = .next { s with
         hart := { s.hart with waiting := .service q.nextSeq }
         services := Store.put ServiceQueue.reset s.services (dieOf s.hartId)
           { q with records := q.records ++ [r], nextSeq := q.nextSeq + 1#64 } }) ∧
     (∀ runs ∈ physicalRuns s lo (lo + n) pages (lo / 4096),
       let keeps (t : Translation) : Bool := n == 0 || !t.named (codeSpace s.fetchSpace) lo n runs
       ∃ u, exec (.tcinv a b) s = .next u ∧ u = { s.advance with cores := u.cores } ∧
         ∀ c, u.core c = { s.core c with tc := (s.core c).tc.filter keeps }) ∧
     (Canonical s → s.partLegal (coreOf s.hartId) (s.x a) = true →
       let core := coreOf s.hartId
       let c := s.core core
       let runs (h : Nat) : Bool := (s.getHart h).live && !(s.getHart h).app && coreOf h == core
       let mine (h g : Nat) : Bool := decide (g < 8) && getField (s.x a) (4 * g) 4 == h % 8
       let due (h g : Nat) : Bool := (s.getHart h).lanes.lose.contains g && (dueGroups c).contains g
       let missing (h g : Nat) : Bool := mine h g && (!(s.getHart h).lanes.held.contains g || due h g)
       let used (h g : Nat) : Bool :=
         ((s.getHart h).lanes.resizes.flatMap (·.groups)).contains g || due h g || (reservedGroups c).contains g ||
           (List.range 8).any fun n => runs (8 * core + n) && 8 * core + n != h && (s.getHart (8 * core + n)).groupsInUse.contains g
       ∃ u, exec (.lanepart a) s = .next u ∧
         u = { s.advance with hart := u.hart, others := u.others, cores := u.cores } ∧
         (∀ h, u.getHart h =
           let o := s.advance.getHart h
           if runs h then { o with lanes := { o.lanes with
             lose := o.lanes.held.filter fun g => !mine h g || due h g
             receive := (List.range 8).filter fun g => missing h g && !used h g } }
           else o) ∧
         (∀ k, u.core k = if k = core then { c with promised := (u.core core).promised } else s.core k) ∧
         ∀ g h, (g, h) ∈ (u.core core).promised ↔ (runs h && missing h g && used h g) = true))

/-- R249, R250: above U-mode VCTXSAVE of an idle hart whose registers are not poisoned writes its context image, whose header says what it
is, from X[a] on, and a raw save leaves the hart's queue held, an empty one too. VCTXRST of an image that the hart accepts takes the vector CSRs, the vector,
mask and scale registers, the tags and the block constants from it; of a portable image the elements of each group are those saved, at the
current VLEN, and zero from the saved vl on, and a tag is kept where R250 keeps it. The control thread's registers stay as they are.
That a raw save holds an empty queue too, and that a portable restore zeroes the mask bits and the scale bytes from the saved vl on, are the
model's choices (notes/assumptions/26.md). -/
def Obligations.ContextImages : Prop :=
  ∀ (s : State) (a : XReg) (port : Bool),
    s.hart.mode ≠ .u → s.hart.idle = true → (s.x a).toNat % 4096 = 0 →
    (s.hart.vec.clean = true → s.atomicOut = false →
      let image := s.hart.image port
      (∀ t ∈ s.spanStored (s.x a) image,
        exec (.vctxsave a port) s = .next { t with hart := { s.hart with
          vheld := !port, reported := if port then s.hart.reported else none } }.advance ∧
        t = { s with memory := t.memory, reservations := t.reservations, poison := t.poison }) ∧
      wordAt image 0 = 0x14F564358#64 ∧ wordAt image 16 = BitVec.ofNat 64 (s.hart.layout port).nlg ∧
      wordAt image 32 = BitVec.ofNat 64 s.hart.vc.vl ∧ wordAt image 40 = vtypeWord s.hart.vc.vtype ∧
      wordAt image 48 = BitVec.ofNat 64 s.hart.vc.vstart ∧ wordAt image 56 = s.hart.vc.vxflags.setWidth 64 ∧
      wordAt image 72 = s.hart.vc.vseed ∧ wordAt image 96 = s.hart.vc.vstrip) ∧
    (∀ head ∈ s.spanLoaded (s.x a) 256, ∀ l ∈ readLayout head, l.port = port → s.hart.accepts l = true →
      ∀ part ∈ s.spanLoaded (s.x a) (if port then l.ixtAt + 8 else l.ixtAt),
        let count := if port then numAt part l.ixtAt 8 % 2 ^ 32 else 0
        ∀ img ∈ s.spanLoaded (s.x a) (l.length count), ∀ work ∈ readWork s.hart img l count,
          rowsOk img l count = true → (l.att = true → s.grantsRows (readAtt img (l.attAt count)).2.1 = true) →
          (s.spanLoadedIn s.areaSpace s.hart.csr.sctxbase (32 * ((work.groups.head?.map (·.vl)).getD 0))).isSome = true →
          (port = true → (s.spanStored (s.x a) (List.replicate 124 0#8)).isSome = true) →
          ∃ u, exec (.vctxrst a port) s = .next u ∧ u.hart.x = s.hart.x ∧ u.hart.pc = s.hart.pc + 4#64 ∧
            u.hart.mode = s.hart.mode ∧ u.hart.lanes = s.hart.lanes ∧ (port = false → SameMemory s u) ∧
            u.hart.vc.vl = (wordAt head 32).toNat ∧ vtypeWord u.hart.vc.vtype = wordAt head 40 ∧
            u.hart.vc.vxflags = (wordAt img 56).setWidth 5 ∧ u.hart.vc.vseed = wordAt img 72 ∧ u.hart.vc.vlinkin = wordAt img 80 ∧
            u.hart.vc.vlinkout = wordAt img 88 ∧ u.hart.vc.vstrip = wordAt img 96 ∧ u.hart.vheld = !port ∧
            u.hart.vc.vstart = getField (wordAt img 48) 0 36 ∧ u.hart.vc.vrm = vrmOf (wordAt img 64) ∧
            (∀ i : Fin 16, u.hart.vec.b[i] = wordAt img (l.broadcastAt + 8 * i.val)) ∧
            (∀ q : MName, ∀ j, j < maxVlen → u.hart.vec.maskBit q j =
              (decide (j < s.hart.vlen) && (!port || decide (j < l.vl)) &&
                (numAt img (l.masksAt + q.val * l.maskBytes) l.maskBytes).testBit j)) ∧
            (∀ k : KName, ∀ j, j < 4096 → u.hart.vec.scaleByte k j =
              if j < s.hart.vlen / 64 ∧ (port = true → j * 2 ^ ((l.vtype.map VType.bl).getD 5) < l.vl) then
                BitVec.ofNat 8 (numAt img (l.scalesAt + k.val * l.scaleBytes + j) 1)
              else 0#8) ∧
            (∀ r : Fin 32, u.hart.vec.tag[r] = (readTag (wordAt img (l.tagsAt + 8 * r.val))).filter fun g =>
              !port || (decide (g.len ≤ l.vl) && g.kf.slot == l.sew && (g.payload.map payloadBits).all (· == l.sew))) ∧
            (port = true → ∀ t ∈ l.vtype, ∀ v : VName, t.groupAt v = true → ∀ e, e < s.maxElems t → u.element t v e =
              if e < l.vl then
                numAt img (256 + v.val / t.mul * l.groupBytes) l.groupBytes / 2 ^ (t.sew * e) % 2 ^ t.sew
              else 0) ∧
            (port = false → ∀ r : Fin 32,
              u.hart.vec.v[r] = BitVec.ofNat maxVlen (numAt img (256 + r.val * (4096 * l.nlg)) (4096 * l.nlg))))

/-- R38, R39, R96 to R110, R119, R142: an arithmetic, move or select instruction of a block completes for the micro-thread at the cursor: its
element of the destination is the value that the operation gives its operands, its flags accrue, `.x` records them, and no other state
changes. A block instruction that is predicated off only goes on to the next word. That SEL and MOV copy the ignored bits of a 6-bit slot and
of e8m10, and that NCLIP rounds under SR whatever its value, are the model's choices (notes/assumptions/45.md). -/
def Obligations.BlockValues : Prop :=
  ∀ (s : State) (op : BlockOp) (f : BlockArgs) (m : Micro) (r : Round),
    s.hart.mt = some m → s.hart.round = some r → f.formOk op = true → s.hart.vec.clean = true → m.poison = none →
    15 ≤ r.log2vlen → r.log2vlen ≤ 18 →
    let e := m.elem
    let w := f.widthD op
    let o := blockIn s op f r e
    let a := f.fmt.toInt o.a
    let b := f.fmt.toInt o.b
    let slot := f.fmt.slot
    let int (x : Int) : Nat × Flags := (f.fmt.putInt f.sat x, 0#5)
    let bits (n : Nat) : Nat × Flags := (n, 0#5)
    let wide := widenedOf f
    let wider (x : Int) (y : Sys2Proof.Num × Flags) (ins : List Sys2Proof.Num) : Nat × Flags :=
      if wide.isInt then (wide.putInt f.sat x, 0#5) else wide.finish o.ctx ins y
    let A := f.fmtA.layout.decode o.a
    let B := f.fmtB.layout.decode o.b
    let D := wide.layout.decode o.d
    let n := f.fn13.toNat
    let selected : Bool := s.hart.vec.maskBit (Fin.ofNat 8 (n % 8)) e != n.testBit 3
    let pos := n % 64
    let len := n / 64 + 1
    let hole := (2 ^ len - 1) * 2 ^ pos
    let field := o.a / 2 ^ pos % 2 ^ len
    let double := if f.xpf.isSome && f.fmtA != f.fmt then f.fmtA else Fmt.intOf (2 * slot) f.fmt.signed
    let whole := double.toInt o.a
    let results : List (BlockOp × (Nat × Flags)) :=
      [(.add, int (a + b)), (.sub, int (a - b)), (.mul, int (a * b)), (.mulh, int (a * b / 2 ^ slot)),
        (.div, if b = 0 then (2 ^ slot - 1, flagDZ) else (f.fmt.putInt false (a.tdiv b), 0#5)),
        (.rem, if b = 0 then (o.a, flagDZ) else (f.fmt.putInt false (a.tmod b), 0#5)),
        (.and, bits (o.a &&& o.b)), (.or, bits (o.a ||| o.b)), (.xor, bits (o.a ^^^ o.b)),
        (.sll, bits (o.a * 2 ^ (o.b % slot))), (.srl, bits (o.a / 2 ^ (o.b % slot))),
        (.sra, bits ((BitVec.ofNat slot o.a).sshiftRight (o.b % slot)).toNat),
        (.min, int (min a b)), (.max, int (max a b)), (.abs, int a.natAbs),
        (.clz, bits (slot - (if o.a = 0 then 0 else Nat.log2 o.a + 1))),
        (.popc, bits ((List.range slot).filter o.a.testBit).length),
        (.addi, int (a + blockImm f)), (.li, bits (blockImm f % 2 ^ slot).toNat), (.sel, bits (if selected then o.a else o.b)),
        (.wadd, wider (f.fmtA.toInt o.a + f.fmtB.toInt o.b) (A.add o.ctx.mode B) [A, B]),
        (.wmul, wider (f.fmtA.toInt o.a * f.fmtB.toInt o.b) (A.mul B) [A, B]),
        (.wmac, wider (wide.toInt o.d + f.fmtA.toInt o.a * f.fmtB.toInt o.b) (A.fma o.ctx.mode B D) [A, B, D]),
        (.nclip, (f.fmt.putInt f.sat (roundInt o.ctx (decide (whole < 0)) whole.natAbs (-((o.b % (2 * slot) : Nat) : Int))).1, 0#5)),
        (.bext, (f.fmt.putInt false (if f.fmt.signed then (BitVec.ofNat len field).toInt else field), 0#5)),
        (.bins, bits (o.a - (o.a &&& hole) + o.b % 2 ^ len * 2 ^ pos)),
        (.fadd, f.fmt.fadd o.ctx o.a o.b), (.fsub, f.fmt.fsub o.ctx o.a o.b), (.fmul, f.fmt.fmul o.ctx o.a o.b),
        (.fmulz, f.fmt.fmulz o.ctx o.a o.b), (.fdiv, f.fmt.fdiv o.ctx o.a o.b), (.fsqrt, f.fmt.fsqrt o.ctx o.a),
        (.fma, f.fmt.finish o.ctx [A, B, f.fmt.layout.decode o.c] (A.fma o.ctx.mode B (f.fmt.layout.decode o.c))),
        (.fmin, f.fmt.fminmax false o.a o.b), (.fmax, f.fmt.fminmax true o.a o.b), (.fclass, bits (f.fmt.fclass o.a)),
        (.fsgnj, bits (f.fmt.fsgnj n o.a o.b)), (.fcvt, fcvtTo f.fmt f.fmtA o.ctx o.scale o.a), (.fcvti, f.fmt.deliverInt o.ctx A),
        (.icvtf, f.fmt.layout.round o.ctx (Sys2Proof.Num.ofInt (f.fmtA.toInt o.a))), (.lmul, l6Mul o.a o.b), (.lacc, l6Acc o.d o.a o.b),
        (.lcvtf, l6ToFp32 o.a), (.fcvtl, l6Of A), (.sget, bits o.scale.toNat), (.mov, bits o.a)]
    (executes s.hart.vec e f.pred = false → exec (Instr.ofBlock op f) s = .next (s.stepped m r)) ∧
    (executes s.hart.vec e f.pred = true → f.d.val + e / (r.vlen / w) < 32 →
      ∀ p ∈ results, p.1 = op → ∃ u, exec (Instr.ofBlock op f) s = .next u ∧
        BlockWritten (s.stepped m r) u r.vlen w e f p.2.1 p.2.2)

/-- R38, R96, R111: CMP, FCMP, PLOG and PSET complete: the bit of the destination predicate at the micro-thread's element is the
comparison, the truth table's bit or the operand's bit, FCMP's flags accrue, and no other state changes. R90, R116, R120: STOP ends its
micro-thread, and the highest active element leaves its held value in `vlinkout`; FETCH, and FETCHC where its predicate holds, end the
block with the fetch of an aligned target, and set the micro-thread aside with a fault of cause 27 and kind 4 for another; FETCHC ends the
micro-thread otherwise. -/
def Obligations.BlockPredicates : Prop :=
  (∀ (s : State) (op : BlockOp) (f : BlockArgs) (m : Micro) (r : Round),
     s.hart.mt = some m → s.hart.round = some r → f.formOk op = true → s.hart.vec.clean = true → m.poison = none → m.elem < maxVlen →
     executes s.hart.vec m.elem f.pred = true →
     let e := m.elem
     let o := blockIn s op f r e
     let a := f.fmt.toInt o.a
     let b := f.fmt.toInt o.b
     let n := f.fn13.toNat
     let bit (x : Src) : Nat := match x with
       | .e q => (s.hart.vec.maskBit (Fin.ofNat 8 q.val) e).toNat
       | _ => 0
     let results : List (BlockOp × (Bool × Flags)) :=
       [(.cmp, (if n = 0 then decide (a = b) else if n = 1 then decide (a ≠ b) else if n = 2 then decide (a < b) else decide (b ≤ a), 0#5)),
         (.fcmp, f.fmt.fcmp n o.a o.b), (.plog, (n.testBit (2 * bit f.a + bit f.b), 0#5)), (.pset, (o.a.testBit n, 0#5))]
     ∀ p ∈ results, p.1 = op → ∃ u, exec (Instr.ofBlock op f) s = .next u ∧
       let base := s.stepped m r
       u = { base with hart := { base.hart with
         vec := { s.hart.vec with m := u.hart.vec.m }, vc := { s.hart.vc with vxflags := s.hart.vc.vxflags ||| p.2.2 } } } ∧
       let d : MName := Fin.ofNat 8 f.d.val
       (∀ q : MName, q ≠ d → u.hart.vec.m[q] = s.hart.vec.m[q]) ∧
       ∀ k, k < maxVlen → u.hart.vec.maskBit d k = if k = e then p.2.1 else s.hart.vec.maskBit d k) ∧
  (∀ (s : State) (f : BlockArgs) (m : Micro) (r : Round),
     s.hart.mt = some m → s.hart.round = some r → s.hart.vec.clean = true → m.poison = none → m ∈ r.micros →
     executes s.hart.vec m.elem f.pred = true →
     let l := s.hart.links
     let e := m.elem
     let stops (i : Instr) : Prop := exec i s = .next { s with hart := { s.hart with
       mt := none
       links := l.setQueue e []
       vc := { s.hart.vc with vlinkout := if l.above r.vl e = none then l.heldOf e else s.hart.vc.vlinkout }
       round := some ((r.moved m s.cycle).remove e) } }
     let base : Word := if f.a = .zero then m.block else BitVec.ofNat 64 (s.hart.vec.source r.vlen r.vl e 64 f.a)
     let t := base + BitVec.ofInt 64 (f.fn13.toInt * 128)
     let fetches (i : Instr) : Prop :=
       (t.toNat % 128 = 0 → exec i s = .next (s.putRound ((r.moved m s.cycle).put
         { m with ended := .fetched t, via := f.a.code.toNat, waited := none }))) ∧
       (t.toNat % 128 ≠ 0 → ∃ u, exec i s = .next u ∧ SameMemory s u ∧ u.hart.vec = s.hart.vec ∧
         SetAside u e fun x => (x.cause, x.kind, x.acc, x.tval, x.vpc) = (27, 4, 3, t, m.block))
     (f.formOk .stop = true → stops (.stop f)) ∧
     (f.formOk .fetch = true → fetches (.fetch f)) ∧
     (f.formOk .fetchc = true → ∀ q : Fin 32, f.c = .e q →
       let holds : Bool := s.hart.vec.maskBit (Fin.ofNat 8 (q.val % 8)) e != q.val.testBit 3
       (holds = true → fetches (.fetchc f)) ∧ (holds = false → stops (.fetchc f))))

/-- R112 to R117: LD and ST complete where their element lies in plain memory, with `.fe` and `.fec` in a full granule; LD of an empty
granule waits. PF changes nothing, whatever its address, its predicate and the poison of its registers. LGET receives the oldest value
queued toward it, the held value of its stopped predecessor, or `vlinkin`, and LPUT passes its value on; each waits where its link is not
ready, at the same word, with nothing changed. That LGET writes the ignored bits of a 6-bit slot and of e8m10 as it receives them is the
model's choice (notes/assumptions/45.md). -/
def Obligations.BlockAccesses : Prop :=
  ∀ (s : State) (f : BlockArgs) (m : Micro) (r : Round),
    s.hart.mt = some m → s.hart.round = some r → m.poison = none →
    exec (.pf f) s = .next (s.stepped m r) ∧
    (s.hart.vec.clean = true → executes s.hart.vec m.elem f.pred = true → 15 ≤ r.log2vlen → r.log2vlen ≤ 18 →
    let e := m.elem
    let n := f.fmt.packed / 8
    let va := elemAddr s .ld f r e
    let base := s.stepped m r
    let waits (granule : Option (Nat × Nat)) : State := s.putRound (r.put { m with waited := granule })
    (f.formOk .ld = true → f.d.val + e / (r.vlen / f.fmt.slot) < 32 →
      va = BitVec.ofNat 64 (s.hart.vec.source r.vlen r.vl e 64 f.a) +
        BitVec.ofInt 64 ((indexFmt f).toInt (blockIn s .ld f r e).b * 2 ^ (f.fn13.toNat % 4)) ∧
      ∀ pa ∈ s.plainAs r.mode .load va n,
        let kind := f.fn13.toNat / 4
        (kind = 0 ∨ (hasFullEmpty s.bigMemory pa = true ∧ s.full pa = true) → ∃ u, exec (.ld f) s = .next u ∧
          BlockWritten (if kind = 0 ∨ kind = 1 then base else { base with fullEmpty := Store.put false s.fullEmpty (pa / 16) false })
            u r.vlen f.fmt.slot e f (Memory.readNum s.memory pa n) 0#5) ∧
        (kind ≠ 0 → hasFullEmpty s.bigMemory pa = true → s.full pa = false → m.waited = none →
          exec (.ld f) s = .next (waits (some (s.cycle, pa / 16))))) ∧
    (f.formOk .st = true → ∀ pa ∈ s.plainAs r.mode .store va n,
      let fes : Bool := f.fn13.toNat / 4 == 1
      (fes = true → hasFullEmpty s.bigMemory pa = true) → ∃ u, exec (.st f) s = .next u ∧
        u = { base with memory := u.memory, reservations := u.reservations
                        fullEmpty := if fes then Store.put false s.fullEmpty (pa / 16) true else s.fullEmpty } ∧
        u.memory = Memory.writeBytes s.memory pa (byteList n (blockIn s .st f r e).c)) ∧
    (f.formOk .lget = true → f.d.val + e / (r.vlen / f.fmt.slot) < 32 →
      let gets (v : Word) (l : Links) : Prop := ∃ u, exec (.lget f) s = .next u ∧
        BlockWritten { base with hart := { base.hart with links := l.hold e v } } u r.vlen f.fmt.slot e f v.toNat 0#5
      let l := s.hart.links
      (∀ v ∈ (l.queue e).head?, gets v (l.setQueue e (l.queue e).tail)) ∧
      (l.queue e = [] → activeBelow l.active e = none → gets s.hart.vc.vlinkin l) ∧
      (l.queue e = [] → ∀ q ∈ activeBelow l.active e,
        ((r.micros.any fun o => o.elem == q) = false → gets (l.heldOf q) l) ∧
        ((r.micros.any fun o => o.elem == q) = true → exec (.lget f) s = .next (waits none)))) ∧
    (f.formOk .lput = true →
      let v : Word := BitVec.ofNat 64 (blockIn s .lput f r e).a
      let l := s.hart.links
      let puts (l : Links) : Prop := exec (.lput f) s = .next { base with hart := { base.hart with links := l.hold e v } }
      (l.above r.vl e = none → puts l) ∧
      (∀ q ∈ l.above r.vl e,
        ((r.micros.any fun o => o.elem == q) = false → puts l) ∧
        ((r.micros.any fun o => o.elem == q) = true → (l.queue q).length < 2 → puts (l.setQueue q (l.queue q ++ [v]))) ∧
        ((r.micros.any fun o => o.elem == q) = true → 2 ≤ (l.queue q).length → exec (.lput f) s = .next (waits none)))))

/-! ## The standard control stream (R68, R69, R255, R323, R324) -/

/-- R68: the register instructions of RV64I, M and Zicond write their value into their destination, which x0 discards, and go on to the
next word; every one completes in every state. -/
def Obligations.ScalarValues : Prop :=
  ∀ (s : State) (rd rs1 rs2 : XReg) (imm : BitVec 12) (up : BitVec 20) (sh : BitVec 6) (shw : BitVec 5),
    let a := s.x rs1
    let b := s.x rs2
    let i : Word := imm.signExtend 64
    let upper : Word := (up.signExtend 64) <<< 12
    let w32 (x : Word) : Word := (x.setWidth 32).signExtend 64
    let low (x : Word) : BitVec 32 := x.setWidth 32
    let flag (p : Bool) : Word := if p then 1#64 else 0#64
    let n := b.toNat % 64
    let n32 := b.toNat % 32
    let quotient (x y : Int) : Word := BitVec.ofInt 64 (if y = 0 then -1 else x.tdiv y)
    let remainder (x y : Int) : Word := BitVec.ofInt 64 (if y = 0 then x else x.tmod y)
    let values : List (Rv × Word) :=
      [(.lui rd up, upper), (.auipc rd up, s.hart.pc + upper),
        (.aluImm .addi rd rs1 imm, a + i), (.aluImm .slti rd rs1 imm, flag (decide (a.toInt < i.toInt))),
        (.aluImm .sltiu rd rs1 imm, flag (decide (a.toNat < i.toNat))), (.aluImm .xori rd rs1 imm, a ^^^ i),
        (.aluImm .ori rd rs1 imm, a ||| i), (.aluImm .andi rd rs1 imm, a &&& i), (.aluImm .addiw rd rs1 imm, w32 (a + i)),
        (.shift .slli rd rs1 sh, a <<< sh.toNat), (.shift .srli rd rs1 sh, a >>> sh.toNat),
        (.shift .srai rd rs1 sh, a.sshiftRight sh.toNat), (.shiftw .slli rd rs1 shw, w32 (a <<< shw.toNat)),
        (.shiftw .srli rd rs1 shw, (low a >>> shw.toNat).signExtend 64),
        (.shiftw .srai rd rs1 shw, ((low a).sshiftRight shw.toNat).signExtend 64),
        (.alu .add rd rs1 rs2, a + b), (.alu .sub rd rs1 rs2, a - b), (.alu .sll rd rs1 rs2, a <<< n),
        (.alu .slt rd rs1 rs2, flag (decide (a.toInt < b.toInt))), (.alu .sltu rd rs1 rs2, flag (decide (a.toNat < b.toNat))),
        (.alu .xor rd rs1 rs2, a ^^^ b), (.alu .srl rd rs1 rs2, a >>> n), (.alu .sra rd rs1 rs2, a.sshiftRight n),
        (.alu .or rd rs1 rs2, a ||| b), (.alu .and rd rs1 rs2, a &&& b), (.alu .mul rd rs1 rs2, a * b),
        (.alu .mulh rd rs1 rs2, BitVec.ofInt 64 (a.toInt * b.toInt / 2 ^ 64)),
        (.alu .mulhsu rd rs1 rs2, BitVec.ofInt 64 (a.toInt * b.toNat / 2 ^ 64)),
        (.alu .mulhu rd rs1 rs2, BitVec.ofInt 64 (a.toNat * b.toNat / 2 ^ 64)),
        (.alu .div rd rs1 rs2, quotient a.toInt b.toInt), (.alu .divu rd rs1 rs2, quotient a.toNat b.toNat),
        (.alu .rem rd rs1 rs2, remainder a.toInt b.toInt), (.alu .remu rd rs1 rs2, remainder a.toNat b.toNat),
        (.alu .addw rd rs1 rs2, w32 (a + b)), (.alu .subw rd rs1 rs2, w32 (a - b)), (.alu .sllw rd rs1 rs2, w32 (a <<< n32)),
        (.alu .srlw rd rs1 rs2, (low a >>> n32).signExtend 64), (.alu .sraw rd rs1 rs2, ((low a).sshiftRight n32).signExtend 64),
        (.alu .mulw rd rs1 rs2, w32 (a * b)), (.alu .divw rd rs1 rs2, w32 (quotient (low a).toInt (low b).toInt)),
        (.alu .divuw rd rs1 rs2, w32 (quotient (low a).toNat (low b).toNat)),
        (.alu .remw rd rs1 rs2, w32 (remainder (low a).toInt (low b).toInt)),
        (.alu .remuw rd rs1 rs2, w32 (remainder (low a).toNat (low b).toNat)),
        (.alu .czeroEqz rd rs1 rs2, if b = 0#64 then 0#64 else a), (.alu .czeroNez rd rs1 rs2, if b = 0#64 then a else 0#64)]
    ∀ p ∈ values, ∃ u, exec (.rv64 p.1) s = .next u ∧
      u = { s with hart := { s.advance.hart with x := u.hart.x } } ∧ u.hart.pc = s.hart.pc + 4#64 ∧
      ∀ r : XReg, u.x r = if r = rd ∧ r ≠ 0 then p.2 else s.x r

/-- R68, R69: jumps and taken branches go to their target with the link register written, branches not taken to the next word, and a
target that is not a multiple of 4 is an instruction-address-misaligned exception of the jump itself, but on an application core, which has
16-bit instructions too (R1). R68, R255, R323, R324: with nothing
to wait for the fences go on: FENCE changes nothing, FENCE.I drops the translations of the core, and SFENCE.VMA, where the mode may
execute it, those that it names. WFI goes on at once in every mode, the model's choice (notes/assumptions/5.md). -/
def Obligations.ControlFlow : Prop :=
  (∀ (s : State) (rd rs1 rs2 : XReg) (imm : BitVec 12) (off : BitVec 20),
     let a := s.x rs1
     let b := s.x rs2
     let near : Word := (imm.signExtend 64) <<< 1
     let far : Word := (off.signExtend 64) <<< 1
     let goes (i : Rv) (d : XReg) (target : Word) : Prop :=
       (target.toNat % 4 = 0 ∨ s.hart.app = true → ∃ u, exec (.rv64 i) s = .next u ∧ u.hart.pc = target ∧
         u = { s with hart := { s.hart.goTo target with x := u.hart.x } } ∧
         ∀ r : XReg, u.x r = if r = d ∧ r ≠ 0 then s.hart.pc + 4#64 else s.x r) ∧
       (target.toNat % 4 ≠ 0 → s.hart.app = false → ∃ u, exec (.rv64 i) s = .next u ∧ TrapTaken s u 0 target)
     goes (.jal rd off) rd (s.hart.pc + far) ∧
     goes (.jalr rd rs1 imm) rd ((a + imm.signExtend 64) &&& ~~~1#64) ∧
     ∀ p ∈ [(BrCond.eq, decide (a = b)), (.ne, decide (a ≠ b)), (.lt, decide (a.toInt < b.toInt)), (.ge, decide (b.toInt ≤ a.toInt)),
         (.ltu, decide (a.toNat < b.toNat)), (.geu, decide (b.toNat ≤ a.toNat))],
       (p.2 = true → goes (.branch p.1 rs1 rs2 imm) 0 (s.hart.pc + near)) ∧
       (p.2 = false → exec (.rv64 (.branch p.1 rs1 rs2 imm)) s = .next s.advance)) ∧
  (∀ (s : State) (fm pred succ : BitVec 4) (rd rs1 rs2 : XReg) (imm : BitVec 12),
     let c := coreOf s.hartId
     let fresh := { s with hart := { s.hart with region := none } }
     exec (.rv64 .wfi) s = .next s.advance ∧
     (s.hart.idle = true → NoCopyFault s →
       exec (.fence fm pred succ rd rs1) s = .next s.advance ∧
       exec (.fenceI imm rd rs1) s = .next (fresh.setCore c { s.core c with tc := [] }).advance) ∧
     (s.hart.mode = .m ∨ (s.hart.mode = .s ∧ s.hart.csr.tvm = false) →
       let named (t : Translation) : Bool :=
         (rs1 == 0 || t.va / 2 ^ 39 == (s.x rs1).toNat / 2 ^ 39) && (rs2 == 0 || t.space == (s.x rs2).toNat % 2 ^ 16)
       exec (.sfenceVma rs1 rs2) s =
         .next (fresh.setCore c { s.core c with tc := (s.core c).tc.filter fun t => !named t }).advance))

/-- R68: loads, stores, LR, SC and AMOs complete where they access plain memory: a load extends its bytes as its width says; a store writes
its bytes alone; LR also reserves them; SC stores where the reservation stands, and says whether it did; an AMO writes the result of its
operation and returns what was there. R304 to R307, R314, R352, R355, R357, R383: a load of a register of the launch queues, the slot reports,
the migration, service and freeze blocks or the error log gives what its layout says, and a store changes what it says; the words of a
record of a service queue are the model's (notes/assumptions/27.md). R402: every access of the B7's device registers that is not one aligned
load or store of 8 bytes is an access fault, and so is one in U-mode of a register that M and S modes alone reach; nothing else changes but
the error log. -/
def Obligations.ScalarAccesses : Prop :=
  (∀ (s : State) (rd rs1 rs2 : XReg) (imm : BitVec 12) (dbl aq rl : Bool),
    let va := s.x rs1 + imm.signExtend 64
    let at' := s.x rs1
    let x := s.x rs2
    let own (t : State) : List (Nat × Nat × Nat) := t.reservations.filter fun r => r.1 != s.hartId
    let n := if dbl then 8 else 4
    let ext (v : Nat) : Word := if dbl then BitVec.ofNat 64 v else (BitVec.ofNat 32 v).signExtend 64
    let stores (u : State) (pa k v : Nat) : Prop := StoredOnly s u [(pa, k)] ∧ Memory.readNum u.memory pa k = v % 2 ^ (8 * k)
    (∀ p ∈ [(LoadW.b, 1, true), (.h, 2, true), (.w, 4, true), (.d, 8, false), (.bu, 1, false), (.hu, 2, false), (.wu, 4, false)],
      ∀ pa ∈ s.plain .load va p.2.1,
        let v := Memory.readNum s.memory pa p.2.1
        exec (.rv64 (.load p.1 rd rs1 imm)) s = .next (s.setX rd
          (BitVec.ofInt 64 (if p.2.2 && decide (2 ^ (8 * p.2.1 - 1) ≤ v) then (v : Int) - 2 ^ (8 * p.2.1) else v))).advance) ∧
    (Memory.wf s.memory = true → ∀ p ∈ [(StoreW.b, 1), (.h, 2), (.w, 4), (.d, 8)], ∀ pa ∈ s.plain .store va p.2,
      ∃ u, exec (.rv64 (.store p.1 rs1 rs2 imm)) s = .next u ∧
        u = { s.advance with memory := u.memory, reservations := u.reservations } ∧ stores u pa p.2 x.toNat) ∧
    (∀ pa ∈ s.plain .load at' n,
      exec (.rv64 (.lr dbl aq rl rd rs1)) s = .next ({ s with reservations := own s ++ [(s.hartId, pa, n)] }.setX rd
        (ext (Memory.readNum s.memory pa n))).advance) ∧
    (Memory.wf s.memory = true → ∀ pa ∈ s.plain .store at' n,
      (∃ u, exec (.rv64 (.sc dbl aq rl rd rs1 rs2)) s = .next u ∧
        let held : Bool := s.reserves pa n
        u = { (s.setX rd (if held then 0#64 else 1#64)).advance with memory := u.memory, reservations := u.reservations } ∧
        own u = u.reservations ∧ (if held then stores u pa n x.toNat else u.memory = s.memory ∧ u.reservations = own s)) ∧
      let old : BitVec (8 * n) := BitVec.ofNat (8 * n) (Memory.readNum s.memory pa n)
      let y : BitVec (8 * n) := BitVec.ofNat (8 * n) x.toNat
      ∀ p ∈ [(AmoOp.swap, y), (.add, old + y), (.xor, old ^^^ y), (.and, old &&& y), (.or, old ||| y),
          (.min, if old.toInt < y.toInt then old else y), (.max, if old.toInt < y.toInt then y else old),
          (.minu, if old.toNat < y.toNat then old else y), (.maxu, if old.toNat < y.toNat then y else old)],
        ∃ u, exec (.rv64 (.amo p.1 dbl aq rl rd rs1 rs2)) s = .next u ∧
          u = { (s.setX rd (ext old.toNat)).advance with memory := u.memory, reservations := u.reservations } ∧
          stores u pa n p.2.toNat)) ∧
  ∀ (s : State) (rd rs1 rs2 : XReg) (imm : BitVec 12) (dbl aq rl : Bool) (op : AmoOp) (off : Nat),
    let va := s.x rs1 + imm.signExtend 64
    let x := s.x rs2
    let num (n : Nat) : Word := BitVec.ofNat 64 n
    let there (acc : Access) (va : Word) : Bool := match translate s s.agent s.dataSpace acc va with
      | .ok pa _ => pa == 0xF000000000000 + off
      | _ => false
    let high : Prop := s.hart.dataMode ≠ .u
    let reads (v : Word) (u : State) : Prop := va.toNat % 8 = 0 → there .load va = true →
      exec (.rv64 (.load .d rd rs1 imm)) s = .next (u.setX rd v).advance
    let writes (u : State) : Prop := va.toNat % 8 = 0 → there .store va = true →
      exec (.rv64 (.store .d rs1 rs2 imm)) s = .next u.advance
    (∀ q : Fin 64,
      let o := s.queue q
      (off = 0x10000 + 0x40 * q.val → high →
        reads (num (o.flush.isSome.toNat * 2 ^ 7 + o.remote.toNat * 2 ^ 6 + o.umode.toNat * 2 ^ 5 + o.appc.toNat * 2 ^ 4
          + o.prio.val * 2 + o.enable.toNat)) s ∧
        writes (s.setQueue q { o with
          flush := if x.getLsbD 7 then some o.records.length else o.flush
          remote := x.getLsbD 6, umode := x.getLsbD 5, appc := x.getLsbD 4
          prio := Fin.ofNat 4 (x.toNat / 2), enable := x.getLsbD 0 })) ∧
      (off = 0x10008 + 0x40 * q.val → high →
        reads (num (o.cores.toNat * 2 ^ 32 + o.clmask.toNat * 2 ^ 4 + o.diemask.toNat)) s ∧
        writes (s.setQueue q { o with
          cores := x.extractLsb' 32 32, clmask := x.extractLsb' 4 4, diemask := x.extractLsb' 0 4 })) ∧
      (off = 0x10018 + 0x40 * q.val → high →
        reads (num (o.nextSeq * 2 ^ 14 + (s.queueReady o).toNat * 2 ^ 11 + o.records.length)) s ∧ writes s)) ∧
    (∀ id : Fin 4096,
      let h := s.getHart id
      let report (l : Launch) : Nat :=
        2 ^ 63 + (if l.scratch.2 = 0 then 0 else l.scratch.1) * 2 ^ 32 + (if l.tcm.2 = 0 then 0 else l.tcm.1)
      (off = 0x20000 + 8 * id.val →
        reads (((s.launches.filter fun l => l.harts.contains id.val).head?.map fun l => num (report l)).getD 0#64) s ∧ writes s) ∧
      (off = 0x50000 + 8 * id.val →
        reads (num (h.frozen.toNat * 2 ^ 5 + h.freezeReq.toNat * 2 ^ 4 + h.freezeMax.toNat)) s ∧
        writes (s.setHart id { h with
          freezeReq := x.getLsbD 4, freezeMax := x.extractLsb' 0 4, frozen := h.frozen && x.getLsbD 4
          csr := if h.frozen && !x.getLsbD 4 then { h.csr with mip := h.csr.mip &&& ~~~0x10000#64 } else h.csr }))) ∧
    (∀ d : Fin 4,
      let m := s.migration d
      let moving (m : Migration) : State := { s with migrations := Store.put Migration.reset s.migrations d m }
      let q := s.service d
      let serving (q : ServiceQueue) : State := { s with services := Store.put ServiceQueue.reset s.services d q }
      (off = 0x30000 + 0x40 * d.val → high → reads m.src s ∧ writes (moving { m with src := x }).sendWaiting) ∧
      (off = 0x30008 + 0x40 * d.val → high → reads m.dst s ∧ writes (moving { m with dst := x })) ∧
      (off = 0x30010 + 0x40 * d.val → high →
        let set := moving { m with size := Fin.ofNat 4 (x.toNat / 2 ^ 4), done := m.done && !x.getLsbD 3 }
        reads (num (m.size.val * 2 ^ 4 + m.done.toNat * 2 ^ 2 + m.busy.toNat * 2)) s ∧
        (x.getLsbD 0 = false → writes set.sendWaiting) ∧
        (x.getLsbD 0 = true → ∀ u, exec (.migrationStart d) set = .next u → writes u.sendWaiting)) ∧
      (off = 0x40000 + 0x100 * d.val →
        reads ((q.records.head?.map (·.req)).getD 0#64) (serving { q with current := q.records.head?, records := q.records.tail }) ∧
        writes s) ∧
      (∀ i : Fin 3, off = 0x40008 + 0x100 * d.val + 8 * i.val →
        let words : List Word := match q.current with
          | some r => [r.seq, r.place, putField r.pc 48 16 r.asid.toNat]
          | none => []
        reads (words.getD i.val 0#64) s ∧ writes s) ∧
      (off = 0x40040 + 0x100 * d.val → reads q.answer s ∧ writes (serving { q with answer := x })) ∧
      (off = 0x40048 + 0x100 * d.val → ∀ u, exec (.svtoDeliver d x) s = .next u → writes u) ∧
      (off = 0x40050 + 0x100 * d.val → reads (num q.ack.toNat) s ∧ writes s)) ∧
    (high →
      (off = 0x70000 → reads (num (s.log.ovf.toNat * 2 + s.log.ien.toNat)) s ∧
        writes { s with log := { s.log with ovf := s.log.ovf && !x.getLsbD 1, ien := x.getLsbD 0 } }) ∧
      (off = 0x70008 → reads (s.log.head.setWidth 64) s ∧
        (Store.wf none s.log.entries = true → ∃ log : ErrorLog, writes { s with log := log } ∧
          log = { s.log with head := x.setWidth 8, entries := log.entries } ∧
          ∀ i : BitVec 8, log.entry i.toNat =
            if (i - s.log.head).toNat < (x.setWidth 8 - s.log.head).toNat then none else s.log.entry i.toNat)) ∧
      (off = 0x70010 → reads (s.log.tail.setWidth 64) s ∧ writes s)) ∧
    (off < 2 ^ 32 →
      let at' := s.x rs1
      let faults (i : Rv) (cause : Nat) (va : Word) : Prop := ∃ u, exec (.rv64 i) s = .next u ∧
        TrapTaken s { u with log := s.log, lifeRam := s.lifeRam, appInterrupts := s.appInterrupts } cause va
      let above : Bool := s.hart.dataMode == .u && off % 8 == 0 && (decide (0x10000 ≤ off ∧ off < 0x11008) ||
        decide (0x30000 ≤ off ∧ off < 0x30100) || decide (0x70000 ≤ off ∧ off < 0x72100))
      (there .load va = true → ∀ p ∈ [(LoadW.b, 1), (.h, 2), (.w, 4), (.d, 8), (.bu, 1), (.hu, 2), (.wu, 4)],
        p.2 ≠ 8 ∨ va.toNat % 8 ≠ 0 ∨ above = true → faults (.load p.1 rd rs1 imm) 5 va) ∧
      (there .store va = true → ∀ p ∈ [(StoreW.b, 1), (.h, 2), (.w, 4), (.d, 8)],
        p.2 ≠ 8 ∨ va.toNat % 8 ≠ 0 ∨ above = true → faults (.store p.1 rs1 rs2 imm) 7 va) ∧
      (there .load at' = true → faults (.lr dbl aq rl rd rs1) 5 at') ∧
      (there .store at' = true → faults (.sc dbl aq rl rd rs1 rs2) 7 at' ∧ faults (.amo op dbl aq rl rd rs1 rs2) 7 at'))

/-- R59 to R63, R198, R201, R335, R336, R342: a CSR instruction that its mode allows completes where its CSR waits for nothing: the old
value goes into its register, and a write changes the CSR that it names alone, in the bits that can be written; the CSRs that hold none
ignore it. The vector CSRs and the B7's supervisor CSRs hold what their rules say; a read of `vqpos` waits for nothing (R60), and a read of
a poisoned tag is an exception of cause 24 and kind 6 (R379). What the standard CSRs hold is the model's choice
(notes/assumptions/5.md, 22.md). -/
def Obligations.CsrAccesses : Prop :=
  ∀ (s : State) (a : CsrArgs),
    let h := s.hart
    let addr := a.addr.toNat
    let src : Word := match a.src with
      | .reg r => s.x r
      | .imm z => z.setWidth 64
    let new (old : Word) : Word := match a.op with
      | .rw => src
      | .rs => old ||| src
      | .rc => old &&& ~~~src
    let result (old : Word) (t : Hart) : State := ({ s with hart := t }.setX a.rd old).advance
    (addr / 256 % 4 ≤ h.mode.code) → (a.writes = true → addr / 1024 ≠ 3) →
    (∀ old ∈ readCsr s a.addr,
      (a.writes = false → exec (.rv64 (.csr a)) s = .next (result old h)) ∧
      (a.writes = true →
        let c := h.csr
        let w := new old
        let merge (x mask : Word) : Word := (x &&& ~~~mask) ||| (w &&& mask)
        let epc := if h.app then w &&& ~~~1#64 else w &&& ~~~3#64
        let status := if getField w 11 2 = 2 then putField w 11 2 (getField c.mstatus 11 2) else w
        let c' : Csrs := match addr with
          | 0x100 => { c with mstatus := merge c.mstatus sstatusWritable }
          | 0x104 => { c with mie := merge c.mie (c.mideleg &&& mieWritable) }
          | 0x105 => { c with stvec := w &&& ~~~2#64 }
          | 0x106 => { c with scounteren := w &&& 0xFFFFFFFF#64 }
          | 0x10A => { c with senvcfg := w &&& 1#64 }
          | 0x140 => { c with sscratch := w }
          | 0x141 => { c with sepc := epc }
          | 0x142 => { c with scause := w }
          | 0x143 => { c with stval := w }
          | 0x144 => { c with mip := merge c.mip (c.mideleg &&& 2#64) }
          | 0x180 => if [0, 8, 9].contains (getField w 60 4) then { c with satp := w } else c
          | 0x300 => { c with mstatus := (c.mstatus &&& ~~~mstatusWritable) ||| (status &&& mstatusWritable) }
          | 0x302 => { c with medeleg := w &&& medelegWritable }
          | 0x303 => { c with mideleg := w &&& midelegWritable }
          | 0x304 => { c with mie := w &&& mieWritable }
          | 0x305 => { c with mtvec := w &&& ~~~2#64 }
          | 0x306 => { c with mcounteren := w &&& 0xFFFFFFFF#64 }
          | 0x30A => { c with menvcfg := w &&& 1#64 }
          | 0x320 => ({ c with mcountinhibit := w &&& 0xFFFFFFFD#64 }).setCycle s.cycle (c.cycleNow s.cycle)
          | 0x340 => { c with mscratch := w }
          | 0x341 => { c with mepc := epc }
          | 0x342 => { c with mcause := w }
          | 0x343 => { c with mtval := w }
          | 0x344 => { c with mip := merge c.mip mipWritable }
          | 0xB00 => c.setCycle s.cycle w
          | 0xB02 => { c with minstret := if c.mcountinhibit.getLsbD 2 then w else w - 1#64 }
          | _ => c
        exec (.rv64 (.csr a)) s = .next (result old { h with csr := c' }))) ∧
    (∀ (c : Csrs) (w : Word), (c.setCycle s.cycle w).cycleNow s.cycle = w ∧
      c.setCycle s.cycle w = { c with mcycle := (c.setCycle s.cycle w).mcycle }) ∧
    (∀ old ∈ readB7Supervisor s addr,
      let c := h.csr
      let w := new old
      let c' : Csrs := match addr with
        | 0x5C1 => { c with svtrap0 := w &&& 0x80FFFF803FFF8000#64 }
        | 0x5C2 => { c with svtrap1 := w }
        | 0x5C3 => { c with svtrap2 := w &&& 0xFF80000FFFFFFFFF#64 }
        | 0x5C4 => { c with svtrap3 := w &&& 0xF03F#64 }
        | 0x5C5 => { c with sctxbase := w &&& ~~~0xFFF#64 }
        | 0x5C6 => { c with swindow := w.setWidth 5 }
        | _ => c
      exec (.registerWrite a) s = .next (result old { h with csr := c' })) ∧
    (h.idle = true → NoCopyFault s →
      let v := h.vc
      let values : List (Nat × Word × (Word → Hart)) :=
        [(0x800, BitVec.ofNat 64 v.vstart, fun w => { h with vc := { v with vstart := w.toNat % 2 ^ 36 } }),
          (0x801, v.vxflags.setWidth 64, fun w => { h with vc := { v with vxflags := w.setWidth 5 } }),
          (0x802, BitVec.ofNat 64 v.vrm.val, fun w => { h with vc := { v with vrm := Fin.ofNat 6 (if w.toNat % 8 < 6 then w.toNat % 8 else 0) } }),
          (0x803, v.vseed, fun w => { h with vc := { v with vseed := w } }),
          (0x804, v.vlinkin, fun w => { h with vc := { v with vlinkin := w } }),
          (0x805, h.mshape, fun w => { h with mshape := shapeWord w }),
          (0x806, v.vstrip, fun w => { h with vc := { v with vstrip := w } }),
          (0xCC0, BitVec.ofNat 64 v.vl, fun _ => h), (0xCC1, vtypeWord v.vtype, fun _ => h), (0xCC2, BitVec.ofNat 64 v.vlmax, fun _ => h),
          (0xCC3, BitVec.ofNat 64 (v.shrunk.toNat * 2 ^ 11 + v.pwr.toNat * 2 ^ 10 + v.ceil.toNat * 2 ^ 9
            + (if h.nlg = 0 then 0 else Nat.log2 h.vlen) * 2 ^ 4 + h.nlg), fun _ => h),
          (0xCC4, (h.attachment.map fun m => BitVec.ofNat 64 (m.lost.toNat * 2 ^ 8 + m.rows)).getD 0#64, fun _ => h),
          (0xCC5, v.vlinkout, fun _ => h), (0xCC6, BitVec.ofNat 64 (v.seqDone.toNat * 2 ^ 32), fun _ => h)] ++
        ((List.finRange 32).filter fun r => !h.vec.poisonTag.getLsbD r.val).map fun r => (0xCE0 + r.val, tagWord h.vec.tag[r], fun _ => h)
      ∀ p ∈ values, p.1 = addr →
        ∀ i ∈ [Instr.vectorCsrAccess a, .vseedWrite a, .mshapeMirrorWrite a],
          exec i s = .next (result p.2.1 (if a.writes then p.2.2 (new p.2.1) else h))) ∧
    (addr = 0xCC6 → a.writes = false →
      exec (.vectorCsrAccess a) s = .next (result (BitVec.ofNat 64 (h.vc.seqDone.toNat * 2 ^ 32 + h.vq.length)) h)) ∧
    (h.idle = true → NoCopyFault s → ∀ r : Fin 32, addr = 0xCE0 + r.val → h.vec.poisonTag.getLsbD r.val = true →
      (a.op = .rw → a.rd ≠ 0) → a.writes = false →
      ∃ u, exec (.vectorCsrAccess a) s = .next u ∧ (u.hart.csr.mcause = 24#64 ∨ u.hart.csr.scause = 24#64) ∧
        getField u.hart.csr.svtrap0 48 8 = 6 ∧ u.hart.x = h.x ∧ u.hart.vec = h.vec ∧ SameMemory s u)

/-! ## Traps and returns (R68, R81, R333 to R343) -/

/-- R68, R69, R81, R249, R251: exceptions are taken as R68 describes: ECALL by the mode's cause, EBREAK with the pc, misaligned scalar
accesses outside the device registers (R402); and, once nothing older is left to complete (R81, notes/assumptions/34.md),
illegal-instruction, with the word as trap value, by the privileged instructions in U-mode (R80), by MRET below M-mode, by vector
instructions under VILL (R56), and by queued instructions while an image is held (R340, R342). R68, R343: SRET, where the mode may execute it, and MRET in M-mode return:
the pc and the mode come from where the trap saved them, the interrupt enable too. SRET also lets held work go on: no image is held, the
fault is gone, the resume groups continue as a round, and of the copies that faults hold the one whose fault the trap delivered goes on
(R147). -/
def Obligations.ExceptionsAndReturns : Prop :=
  (∀ (s : State) (a b d : XReg) (v w : VName) (port : Bool) (m : Option MName) (imm : BitVec 12),
     let older : Bool := s.hart.idle || (s.hart.held && (s.hart.vheld || s.hart.vwork.isEmpty) && (s.hart.mheld || s.hart.mq.isEmpty))
     let illegal (i : Instr) : Prop := older = true →
       ∃ u, exec i s = .next u ∧ TrapTaken s u 2 (((encodeControl i).getD 0#32).setWidth 64)
     (∃ u, exec (.rv64 .ecall) s = .next u ∧
       TrapTaken s u (match s.hart.mode with | .u => 8 | .s => 9 | .m => 11) 0#64) ∧
     (∃ u, exec (.rv64 .ebreak) s = .next u ∧ TrapTaken s u 3 s.hart.pc) ∧
     (let va := s.x a + imm.signExtend 64
      va.toNat % 8 ≠ 0 → (∀ acc ∈ [Access.load, .store], ∀ pa io, translate s s.agent s.dataSpace acc va = .ok pa io →
         physAt s.bigMemory pa ≠ .device ∨ 0xF000100000000 ≤ pa) →
       (∃ u, exec (.rv64 (.load .d d a imm)) s = .next u ∧ TrapTaken s u 4 va) ∧
       (∃ u, exec (.rv64 (.store .d a d imm)) s = .next u ∧ TrapTaken s u 6 va)) ∧
     (s.hart.mode = .u → ∀ i ∈ [Instr.svcall a, .tcinv a b, .vctxsave a port, .vctxrst a port, .lanepart a, .sret, .sfenceVma a b,
       .rv64 .mret], illegal i) ∧
     (s.hart.mode ≠ .m → illegal (.rv64 .mret)) ∧
     (s.hart.replay = none → s.hart.vc.vtype = none ∨ s.hart.held = true →
       ∀ i ∈ [Instr.vle v a false .plain false m, .vse v a false false m, .vmv v w m, .vfb a, .vpopc d 0 m, .vsortg v w 2 ⟨false, 0, false⟩],
         illegal i)) ∧
  (∀ (s : State),
     let h := s.hart
     let c := h.csr
     (h.mode = .m ∨ (h.mode = .s ∧ c.tsr = false) → ∃ u, exec .sret s = .next u ∧
       let k := u.hart.csr
       let spp : Bool := c.mstatus.getLsbD 8
       u.hart.pc = c.sepc ∧ u.hart.mode = (if spp then .s else .u) ∧ u.hart.x = h.x ∧ u.hart.vec = h.vec ∧ SameMemory s u ∧
       k = { c with mstatus := k.mstatus, minstret := k.minstret } ∧
       StatusBits c.mstatus k.mstatus [(1, c.mstatus.getLsbD 5), (5, true), (8, false), (17, false)] ∧
       u.hart.vheld = false ∧ u.hart.mheld = false ∧
       (h.held = false → u.hart = { h.goTo c.sepc with
         csr := k, mode := u.hart.mode, region := none, copyTrap := none }) ∧ u.hart.copyTrap = none ∧
       (h.held = true → u.hart.resume = [] ∧ u.hart.vq = h.vq.map (fun e => { e with held := false }) ∧ u.hart.mq = h.mq ∧
         (h.resume = [] → u.hart.round = h.round) ∧
         (h.vheld = true → u.hart.vfault = none) ∧ (h.mheld = true → u.hart.mfault = none)) ∧
       u.copies = s.copies.map fun q => if h.copyTrap = some q.id then { q with held := none } else q) ∧
     (h.mode = .m → ∃ u, exec (.rv64 .mret) s = .next u ∧
       let k := u.hart.csr
       let mpp := getField c.mstatus 11 2
       u = { s with hart := { h.goTo c.mepc with csr := k, mode := u.hart.mode, region := none } } ∧
       u.hart.mode = (if mpp = 3 then .m else if mpp = 1 then .s else .u) ∧
       k = { c with mstatus := k.mstatus, minstret := k.minstret } ∧
       StatusBits c.mstatus k.mstatus ([(3, c.mstatus.getLsbD 7), (7, true), (11, false), (12, false)] ++
         if mpp = 3 then [] else [(17, false)])))

/-- R255, R334 to R336, R339: a synchronising instruction takes the pending fault of the vector queue: an exception at the instruction of
the fault's cause and address, the trap CSRs say what and where, and the entries that have not completed become the queue image, which is
held. -/
def Obligations.FaultTraps : Prop :=
  ∀ (s : State) (f : VecFault) (scope : Scope) (micro : Bool),
    s.hart.vfault = some f → s.hart.mfault = none → s.hart.round = none → s.hart.held = false →
    ∀ i ∈ [Instr.vdrain scope micro, .fence 0#4 15#4 15#4 0 0, .mwait, .fenceI 0#12 0 0],
      ∃ u, exec i s = .next u ∧ u.hart.vheld = true ∧ u.hart.vq = s.hart.vq.filter (fun e => !e.finished) ∧
        u.hart.reported = some false ∧ u.hart.vec = s.hart.vec ∧ SameMemory s u ∧
        (let k := u.hart.csr
         k.svtrap0.getLsbD 63 = true ∧ getField k.svtrap0 48 8 = f.kind % 256 ∧ getField k.svtrap0 46 2 = f.acc % 4 ∧
         getField k.svtrap0 40 6 = 0 ∧ k.svtrap0.getLsbD 39 = false ∧
         getField k.svtrap0 15 15 * 2 ^ 15 = placeBits s.hartId f.lg ∧ k.svtrap1 = f.vpc ∧ getField k.svtrap2 0 36 = f.elem % 2 ^ 36 ∧
         k.svtrap2.getLsbD 55 = false ∧
         TrapTaken s { u with hart := { u.hart with
          vq := s.hart.vq, vheld := false, reported := s.hart.reported, headWait := s.hart.headWait, chains := s.hart.chains
          csr := { k with svtrap0 := s.hart.csr.svtrap0 &&& ~~~0x8000000000000000#64, svtrap1 := s.hart.csr.svtrap1
                          svtrap2 := s.hart.csr.svtrap2, svtrap3 := s.hart.csr.svtrap3 } } } f.cause f.tval)

/-! ## Events of harts and copies (R145, R147, R239 to R242, R256, R258, R262, R318, R334, R344) -/

/-- R318: SUPERVISOR_INTERRUPT of a delegated and enabled cause is taken between instructions, as R68 describes. R334: VECTOR_FAULT_TRAP is
what the synchronising instruction at the pc does with the pending fault. R242: BARWAIT_RETURN ends a wait whose object has been released.
R344: a waiting LDFE completes once its bit is set, and traps once its wait has lasted 2^30 cycles. -/
def Obligations.ThreadEvents : Prop :=
  ∀ (s : State) (cause object : Nat),
    let h := s.hart
    let c := h.csr
    (h.live = true → cause < 64 → c.mideleg.getLsbD cause = true → c.mie.getLsbD cause = true →
      h.mode = .u ∨ (h.mode = .s ∧ c.mstatus.getLsbD 1 = true) →
      ∃ u, exec (.supervisorInterrupt cause) s = .next u ∧
        let k := u.hart.csr
        u = { s with hart := { h with
          csr := k, mode := .s, pc := u.hart.pc, region := none, waiting := .nothing, replay := none, mt := none } } ∧
        u.hart.pc = (c.stvec &&& ~~~3#64) + (if c.stvec.getLsbD 0 then BitVec.ofNat 64 (4 * cause) else 0#64) ∧
        k = { c with svtrap0 := k.svtrap0, mstatus := k.mstatus, sepc := h.pc, scause := BitVec.ofNat 64 (2 ^ 63 + cause), stval := 0#64 } ∧
        k.svtrap0 = c.svtrap0 &&& ~~~0x8000000000000000#64 ∧
        StatusBits c.mstatus k.mstatus [(1, false), (5, c.mstatus.getLsbD 1), (8, decide (h.mode = .s))]) ∧
    (h.live = true → h.held = false → h.vfault.isSome = true → h.mfault = none → h.round = none →
      ∀ p ∈ s.codeAt, ∀ i ∈ decodeControl p.1, i ∈ [Instr.mwait, .vdrain .hart false, .fence 0#4 15#4 15#4 0 0] →
        ∃ u, exec .vectorFaultTrap s = .next u ∧ exec i p.2 = .next u) ∧
    (h.live = true → h.waiting = .barrier object true → exec .barwaitReturn s = .next s.advance) ∧
    (h.live = true → ∀ p ∈ s.codeAt, ∀ i ∈ decodeControl p.1,
      let target : Option (XReg × XReg × Bool) := match i with
        | .ldfe d a c => some (d, a, c)
        | _ => none
      ∀ t ∈ target, ∀ pa ∈ s.plain .load (s.x t.2.1) 8, hasFullEmpty s.bigMemory pa = true → h.waiting = .ldfe object (pa / 16) false →
        (s.full pa = true → exec .fullEmptyWaitEnd s =
          .next ({ p.2 with fullEmpty := if t.2.2 then Store.put false s.fullEmpty (pa / 16) false else s.fullEmpty }.setX t.1
            (BitVec.ofNat 64 (Memory.readNum s.memory pa 8))).advance) ∧
        (s.full pa = false → object + 2 ^ 30 ≤ s.cycle →
          ∃ u, exec .fullEmptyWaitAbandon s = .next u ∧ u = { p.2 with hart := u.hart } ∧ u.hart.x = h.x ∧
            (u.hart.csr.mcause = 30#64 ∨ u.hart.csr.scause = 30#64) ∧
            getField u.hart.csr.svtrap0 48 8 = 0 ∧ u.hart.csr.svtrap1 = h.pc))

/-- R256: FETCH_GROUP_FORM puts the micro-threads that wait at the lowest target into a new group at word 0 of that block, or, where none
waits, gives a slot to the group parked first. R258: FETCH_GROUP_PARK puts a group none of whose elements has advanced for 4,096 cycles,
one of which waits at a link or for a full-empty bit, behind those parked. R262: CHAIN_BREAK of an entry that chains from an older one, at
its START, stops it, and the later ones that chain from it, each at its START, which the progress indexes of all that it writes record
(notes/assumptions/12.md); at a boundary outside its elements nothing happens; CHAIN_REPLAY lets the oldest entry go on; neither changes
anything else that software sees. R241: BARRIVE_FIRE fires the marker that is the
oldest entry, with no round before it: it arrives at its object, the generation found is recorded, and its slot is free. R145: COPY_ACCEPT
hands the copy that is the oldest entry to the copy engine. R344: the load at the head of the queue whose bit is set goes on, and one that
has waited for 2^30 cycles is a fault of cause 30. None of these happens to a hart that does not run (R382). -/
def Obligations.QueueEvents : Prop :=
  (∀ (s : State) (n b : Nat), s.hart.live = false →
     ∀ i ∈ [Instr.fetchGroupForm, .fetchGroupPark n, .chainBreak n b, .chainReplay n, .barriveFire, .copyAccept, .fullEmptyWaitEnd,
       .fullEmptyWaitAbandon, .barwaitReturn, .supervisorInterrupt b, .vectorFaultTrap], exec i s = .next s) ∧
  (∀ (s : State) (n : Nat), s.hart.live = true →
     let h := s.hart
     let work := h.vq.filter fun e => !e.finished
     (∀ r ∈ h.round, r.holding = .no → (r.groups.filter fun g => !g.parked).length < 4 →
       (∀ m ∈ r.micros, m.place = .waiting →
         (∀ o ∈ r.micros, o.place = .waiting → o.ended = .running ∧ m.block.toNat ≤ o.block.toNat) →
         ∀ p ∈ s.blockAtAs r.mode r.vtype m.block,
           let joins (o : Micro) : Micro :=
             if o.place = .waiting ∧ o.block = m.block then { o with place := .group r.nextId, idx := 0, begun := true } else o
           ∃ u, exec .fetchGroupForm s = .next u ∧
             u = { p.2 with hart := { h with
               mt := none
               vec := { h.vec with tag := u.hart.vec.tag, poisonTag := u.hart.vec.poisonTag }
               round := some { r with
                 groups := r.groups ++ [⟨r.nextId, m.block, p.1, false, s.cycle, []⟩]
                 nextId := r.nextId + 1
                 micros := r.micros.map joins } } } ∧
             ∀ v : VName, u.hart.vec.tag[v] = h.vec.tag[v] ∨ u.hart.vec.tag[v] = none) ∧
       ((∀ m ∈ r.micros, m.place ≠ .waiting) → ∀ g ∈ r.groups.find? (·.parked), exec .fetchGroupForm s = .next (s.putRound { r with
         groups := r.groups.map fun o => if o.id = g.id then { o with parked := false, moved := s.cycle } else o }))) ∧
     (∀ r ∈ h.round, ∀ g ∈ (r.groups.filter fun g => !g.parked)[n]?, r.group? g.id = some g → g.moved + 4096 ≤ s.cycle →
       let l := h.links
       let live (q : Nat) : Bool := r.micros.any fun o => o.elem == q
       (∃ m ∈ r.micros, m.place = .group g.id ∧ m.ended = .running ∧
         ((∃ w ∈ m.waited, Store.get false s.fullEmpty w.2 = false) ∨
          (∃ k f, g.at m.idx = some (k, .lget f) ∧ executes h.vec m.elem f.pred = true ∧ l.queue m.elem = [] ∧
            ∃ q ∈ activeBelow l.active m.elem, live q = true) ∨
          (∃ k f, g.at m.idx = some (k, .lput f) ∧ executes h.vec m.elem f.pred = true ∧
            ∃ q ∈ l.above r.vl m.elem, live q = true ∧ 2 ≤ (l.queue q).length))) →
       exec (.fetchGroupPark n) s = .next (s.putRound { r with
         groups := (r.groups.filter fun o => o.id != g.id) ++ [{ g with parked := true }] })) ∧
     (∀ e ∈ work[n]?, (∃ o ∈ work, o.seq < e.seq ∧ h.chainsFrom e o = true) → ∃ cut : List QEntry,
       cut.head? = some e ∧ (∀ o ∈ cut, o ∈ work ∧ (o = e ∨ (e.seq < o.seq ∧ ∃ p ∈ cut, h.chainsFrom o p = true))) ∧
       (∀ b, b < e.start ∨ (e.vl ≤ b ∧ b ≠ e.start) → exec (.chainBreak n b) s = .next s) ∧
       exec (.chainBreak n e.start) s = .next { s with hart := cut.foldl (fun (t : Hart) o =>
         { t with vec := t.vec.progressTo (h.vec.destsOf o) o.start, chains := Store.put 0 t.chains o.seq (o.start + 1) }) h }) ∧
     (∀ e ∈ work.head?, exec (.chainReplay 0) s = .next { s with hart := { h with chains := Store.put 0 h.chains e.seq 0 } })) ∧
  (∀ (s : State), s.hart.live = true →
     let h := s.hart
     h.round = none → h.resume = [] → h.vec.clean = true → ∀ e ∈ h.vnext, ∀ i ∈ decodeControl e.word,
     let left (u : State) : Prop :=
       u.hart.vq.filter (fun o => !o.finished) = h.vq.filter (fun o => !o.finished && decide (o.seq ≠ e.seq)) ∧
       u.hart.x = h.x ∧ u.hart.pc = h.pc ∧ u.hart.vec = { h.vec with progress := u.hart.vec.progress }
     let marker : Bool := match i with
       | .barrive _ _ => true
       | _ => false
     let copy : Option (XReg × XReg) := match i with
       | .vcopy d a _ .onDevice false => some (d, a)
       | _ => none
     let load : Option (VName × Bool) := match i with
       | .vle d _ false .fe _ none => some (d, false)
       | .vle d _ false .fec _ none => some (d, true)
       | _ => none
     (marker = true → Canonical s → e.xa.toNat % 32 = 0 → ∀ pa ∈ s.plainAs e.mode .store e.xa 32, ∃ u, exec .barriveFire s = .next u ∧
       let o := s.barrier pa
       let n := min 65535 (o.arrived + 1)
       let released : Bool := decide (o.expect ≤ n ∧ o.pending = 0)
       left u ∧ u.hart.arrival = some (e.xa, o.gen) ∧ StoredOnly s u [(pa, 16)] ∧
       u.barrier pa = if released then { o with arrived := 0, gen := !o.gen } else { o with arrived := n }) ∧
     (∀ p ∈ copy, e.xb ≠ 0#64 → e.xb.toNat < 2 ^ 36 → s.engineReady (clusterOf s.hartId) = true →
       ∃ u, exec .copyAccept s = .next u ∧ left u ∧ SameMemory s u ∧ ∃ c : Copy, u.copies = s.copies ++ [c] ∧
         c.id = s.nextCopy ∧ c.hart = s.hartId ∧ c.pc = e.pc ∧ c.kind = .onDevice ∧ c.src = e.xa ∧ c.dst = e.xd ∧
         c.count = e.xb.toNat ∧ c.done = 0 ∧ c.written = false ∧ c.regs = (p.2.val, p.1.val)) ∧
     (∀ w ∈ h.headWait, ∀ p ∈ load, ∀ t ∈ e.vtype, h.waiting = .nothing → e.start + 1 = e.vl → t.fmt.isM8 = true →
       15 ≤ e.log2vlen → e.log2vlen ≤ 18 → p.1.val + e.start / (e.vlen / t.sew) < 32 →
       -- with `.fec` it has not been read with an element before it
       (p.2 = true → granuleMates s e t none e.base e.start e.start = []) →
       let va := e.xa + BitVec.ofNat 64 (e.start * t.bytes)
       ∀ pa ∈ s.plainAs e.mode .load va t.bytes, hasFullEmpty s.bigMemory pa = true → w.2 = pa / 16 →
         (s.full pa = true → ∃ u, exec .fullEmptyWaitEnd s = .next u ∧
           u.hart.vq.filter (fun o => !o.finished) = h.vq.filter (fun o => !o.finished && decide (o.seq ≠ e.seq)) ∧
           u.hart.vec.elem e.vlen p.1.val t.sew e.start = Memory.readNum s.memory pa t.bytes ∧
           u.memory = s.memory ∧ u.fullEmpty = if p.2 then Store.put false s.fullEmpty (pa / 16) false else s.fullEmpty) ∧
         (s.full pa = false → w.1 + 2 ^ 30 ≤ s.cycle → ∃ u, exec .fullEmptyWaitAbandon s = .next u ∧ SameMemory s u ∧
           u.hart.headWait = none ∧ u.hart.vfault.map (fun f => (f.cause, f.kind, f.elem, f.vpc)) = some (30, 0, e.start, e.pc))))

/-- R145, R146: COPY_COMPLETE of an untagged copy that lies in one page of plain memory at each end leaves the bytes that were in the source
in the destination, whichever way they overlap, fills every granule that it wrote in whole or in part, and ends the copy. R147: COPY_FAULT holds a copy
whose first byte cannot be translated, with the fault. R145, R239: PENDING_DECREMENT takes the bytes that have been written, and that PENDING
still counts, out of it, releases the barrier where that completes it, and ends a copy that is written whole; one that a fault of its
barrier object holds stays as it is (notes/assumptions/42.md). -/
def Obligations.CopyEvents : Prop :=
  ∀ (s : State), ∀ c ∈ s.copies, (∀ o ∈ s.copies, o.id = c.id → o = c) →
    let at' (acc : Access) (va : Word) : Xlate := translate s (.engine (clusterOf c.hart)) c.space acc va
    let place (acc : Access) (va : Word) : Option Nat := match at' acc va with
      | .ok pa false => if physAt s.bigMemory pa = .device then none else some pa
      | _ => none
    let n := c.count
    let rest := s.copies.filter fun o => o.id != c.id
    (c.kind = .onDevice → c.held = none → c.written = false → c.done = 0 → c.bar = none → 0 < n → s.poison = [] →
      c.src.toNat % 4096 + n ≤ 4096 → c.dst.toNat % 4096 + n ≤ 4096 →
      ∀ sp ∈ place .load c.src, ∀ dp ∈ place .store c.dst,
        (sp + n ≤ dp ∨ dp + n ≤ sp ∨ (dp : Int) - sp = (c.dst.toNat : Int) - c.src.toNat) →
        ∃ u, exec (.copyComplete c.id) s = .next u ∧
          u = { s with copies := rest, memory := u.memory, reservations := u.reservations, fullEmpty := u.fullEmpty } ∧
          StoredOnly s u [(dp, n)] ∧ Memory.readBytes u.memory dp n = Memory.readBytes s.memory sp n ∧
          ∀ i, i < n / 16 + 2 →
            let g := dp / 16 + i
            Store.get false u.fullEmpty g =
              (Store.get false s.fullEmpty g || (decide (16 * g < dp + n) && hasFullEmpty s.bigMemory (16 * g)))) ∧
    (c.kind = .onDevice → c.held = none → c.written = false → c.done = 0 → 0 < n → at' .load c.src = .page →
      c.src.toNat + n ≤ 2 ^ 64 → (c.dst.toNat < c.src.toNat ∨ c.src.toNat + n ≤ c.dst.toNat) →
      ∃ u, exec (.copyFault c.id) s = .next u ∧ u = { s with copies := u.copies } ∧
        u.copies = s.copies.map fun o => if o.id = c.id then
          { c with held := some ⟨24, 0, 0, c.src, c.pc, 0, 0, none, some (4, c.regs.1), none, none⟩ } else o) ∧
    (let owed := c.pending - (c.count - c.done)
      let after := if c.written then rest else s.copies.map fun o => if o.id = c.id then { c with pending := c.pending - owed } else o
      let stays : Bool := c.written && c.held.isSome
      (stays = true → exec (.pendingDecrement c.id) s = .next s) ∧
      (stays = false → c.bar = none ∨ owed = 0 → exec (.pendingDecrement c.id) s = .next { s with copies := after }) ∧
      (stays = false → owed ≠ 0 → Canonical s → ∀ b ∈ c.bar, ∀ pa ∈ place .store b.1, ∃ u, exec (.pendingDecrement c.id) s = .next u ∧
        let o := s.barrier pa
        let pending := o.pending - owed
        let err : Bool := o.err || decide (o.pending < owed)
        let released : Bool := decide (o.expect ≤ o.arrived ∧ pending = 0)
        u.copies = after ∧ StoredOnly s u [(pa, 16)] ∧ u.hart.x = s.hart.x ∧ u.hart.pc = s.hart.pc ∧ u.hart.vec = s.hart.vec ∧
        u.barrier pa = { o with
          pending := pending, err := err, arrived := if released then 0 else o.arrived, gen := if released then !o.gen else o.gen }))

/-! ## Events of the dispatchers, the services and migration (R247, R269, R304 to R316, R352, R355, R356, R401) -/

/-- R245, R310 to R313, R401: DISPATCH of the head record of the first queue in the order of a die's dispatcher, where a core of the die is
eligible and no dispatcher before it has a record, starts its harts there, in U-mode at ENTRY with their arguments, the space of the
address-space entry, fresh registers and at least LGMIN lane groups each; its ticket reads STATE 2 and the record is gone. A record whose
address space is not valid starts nothing, and its ticket reads 3; an entry that the dispatcher cannot read, as one in a poisoned line,
counts as not valid, which is the model's reading of R401 (notes/assumptions/41.md). -/
def Obligations.Dispatches : Prop :=
  ∀ (s : State) (die : Fin 4), Store.wf LaunchQueue.reset s.queues = true → ∀ q ∈ (s.queueOrder die).head?,
    (die = 0 ∨ ∀ p, p < 64 → p ≠ q → (s.queue p).records = []) → ∀ rec ∈ (s.queue q).records.head?,
    let r := rec.start
    let ends (u : State) (f : Ticket → Ticket) : Prop :=
      u.memory = s.memory ∧ u.lastQueue = Store.put 63 s.lastQueue die q ∧ (u.queue q).records = (s.queue q).records.tail ∧
      (u.queue q).tickets = (s.queue q).tickets.map fun t => if t.seq = rec.seq then f t else t
    ∀ o ∈ s.eligible q r, o.core / 128 = die.val → s.addressSpaceWaits (.dispatcher die) r.asid = false →
      (r.sqd = 0#64 → r.refused 8 = none → ∀ w ∈ s.addressSpace (.dispatcher die) r.asid, ∃ u, exec .dispatch s = .next u ∧
        ends u (fun t => { t with state := 2, started := r.harts }) ∧
        (∀ i, i < r.harts →
          let t := u.getHart (8 * o.core + o.numbers.getD i 0)
          t.live = true ∧ t.mode = .u ∧ t.pc = r.entry ∧ t.getX 10 = r.arg ∧ t.getX 11 = BitVec.ofNat 64 i ∧
          (∀ k : XReg, k ≠ 10 → k ≠ 11 → t.getX k = 0#64) ∧
          t.csr.satp = w 0 ∧ t.csr.stvec = w 1 ∧ t.csr.sscratch = w 2 ∧ t.csr.swindow = (w 3).extractLsb' 0 5 ∧
          t.vec = VecFile.reset ∧ t.vc.vtype = none ∧ t.vc.vl = 0 ∧ t.facts.ceil = r.ceil ∧ t.facts.asid = r.asid ∧
          r.lgmin ≤ t.lanes.held.length ∧ t.lanes.held.length ≤ r.lgpref ∧ ∀ g ∈ t.lanes.held, g ∈ o.groups) ∧
        ∃ l : Launch, u.launches = s.launches ++ [l] ∧ l.queue = q ∧ l.seq = rec.seq ∧ l.core = o.core ∧
          l.harts.length = r.harts ∧ l.bar = r.bar) ∧
      ((s.addressSpace (.dispatcher die) r.asid).isNone = true → ∃ u, exec .dispatch s = .next u ∧ ends u (fun t => { t with state := 3 }) ∧
        u.launches = s.launches ∧ u.hart = s.hart ∧ u.others = s.others)

/-- R309: LQ_FLUSH discards the records of a queue that were held when its flush began and are held still: their tickets read STATE 0, and
what was reclaimed for the queue is released. R315: LANE_RECLAIM, where the head record of the first queue has no eligible core and halvings
make one, takes the highest-numbered lane groups of the harts it halves at their next grant, for that record. R269: LANE_GROUP_PASS, when
the older work of a change of lane groups is complete, keeps the low VLEN′ bits of every vector and mask register and the low VLEN′/64 bytes
of every scale register, and leaves the tags as R54 says. -/
def Obligations.LaneEvents : Prop :=
  ∀ (s : State) (n : Fin 64),
    (let q := s.queue n
     Store.wf LaunchQueue.reset s.queues = true → (∀ r ∈ q.records, r.sender = none) → ∀ held ∈ q.flush,
      let gone := q.records.take held
      ∃ u, exec (.lqFlush n) s = .next u ∧ u = { s with queues := u.queues, cores := u.cores } ∧
        u.queue n = { q with
          flush := none
          records := q.records.drop held
          tickets := q.tickets.map fun t => if (gone.map (·.seq)).contains t.seq then ⟨t.seq, 0, 0, 0⟩ else t } ∧
        (gone = [] → u.cores = s.cores) ∧
        (gone ≠ [] → Store.wf CoreState.reset s.cores = true → ∀ c, u.core c = { s.core c with
          reclaims := (s.core c).reclaims.filter fun r => r.queue != n.val })) ∧
    (∀ q ∈ (s.queueOrder 0).head?, ∀ rec ∈ (s.queue q).records.head?,
      let r := rec.start
      s.chosen q = none → s.eligible q r = none → (s.allHarts.map (·.1)).Nodup → Store.wf CoreState.reset s.cores = true →
      ∀ p ∈ bestPlan ((s.queue q).dispatchSet.filterMap (s.planOn q r)),
        let keeps (h : Hart) : List Nat := h.lanes.held.filter fun g => !h.lanes.lose.contains g
        ∃ u, exec .laneReclaim s = .next u ∧ SameMemory s u ∧
          (∀ o ∈ s.offer p.core q r, r.harts * r.lgmin ≤ o.groups.length + (s.leavingGroups p.core).length +
            (p.victims.map fun v =>
              let h := s.getHart v.id
              h.lanes.held.length - h.lanes.lose.length - v.lanes).sum) ∧
          u.core p.core = { s.core p.core with
            reclaims := (s.core p.core).reclaims ++ [⟨q, p.victims.flatMap fun v => (keeps (s.getHart v.id)).drop v.lanes, []⟩] } ∧
          ∀ v ∈ p.victims,
            let a := s.getHart v.id
            let b := u.getHart v.id
            a.lanes.held.Nodup →
            b = { a with lanes := { a.lanes with lose := b.lanes.lose } } ∧
            keeps b = (keeps a).take v.lanes) ∧
    (∀ r ∈ s.hart.lanes.resizes.head?, s.hart.lanes.resizes.length = 1 → s.hart.workBefore r.place = false →
      ∃ u, exec .laneGroupPass s = .next u ∧ SameMemory s u ∧ u.hart.lanes.resizes = [] ∧ u.hart.lanes.held = s.hart.lanes.held ∧
        u.hart.x = s.hart.x ∧ u.hart.pc = s.hart.pc ∧ u.hart.vc = s.hart.vc ∧
        (r.new = r.old → u.hart.ixt = s.hart.ixt) ∧
        let low (n bytes : Nat) (x : BitVec n) : BitVec n := if r.new < r.old then x &&& BitVec.ofNat n (2 ^ (8 * bytes) - 1) else x
        let shrunk (g : RunTag) : Option RunTag :=
          let n := groupBits * r.new / g.kf.slot
          if 1 < g.span (groupBits * r.old) then none
          else if g.len * g.kf.slot ≤ groupBits * r.new then some g
          else if g.gr = 31 ∨ n % 2 ^ g.gr.val = 0 then some { g with len := n }
          else some { g with len := n, gr := 31 }
        (∀ k : Fin 32, u.hart.vec.v[k] = low maxVlen (4096 * r.new) s.hart.vec.v[k]) ∧
        (∀ k : Fin 8, u.hart.vec.m[k] = low maxVlen (4096 * r.new) s.hart.vec.m[k]) ∧
        (∀ k : Fin 16, u.hart.vec.k[k] = low groupBits (512 * r.new) s.hart.vec.k[k]) ∧
        ∀ k : Fin 32, u.hart.vec.tag[k] = if r.new < r.old then s.hart.vec.tag[k].bind shrunk else s.hart.vec.tag[k])

/-- R247, R352: SVQ_POP takes the oldest request of a die's queue, and SVTO_DELIVER moves the hart parked on a SEQ past its SVCALL with the
answer in a0. R355: MIGRATION_START makes an idle block busy, with operands aligned to its size, both in memory and the source in that of
its die; that another START is ignored is the model's choice (notes/assumptions/28.md). MIGRATION_COPY_DONE moves the bytes, the full-empty
bits and the poison of the page, and waits on barrier objects in it follow them; MIGRATION_RELEASE ends the refusal at its source. R356:
MOVED_REQUEST_REISSUE gives the hart its turn. -/
def Obligations.ServiceEvents : Prop :=
  ∀ (s : State) (d : Fin 4) (seq : Word),
    let q := s.service d
    let parked := s.allHarts.filter fun p => p.2.live && p.2.waiting == .service seq && dieOf p.1 == d.val
    let m := s.migration d
    let n := migrationBytes m.size
    let put (m : Migration) : List (Nat × Migration) := Store.put Migration.reset s.migrations d m
    exec (.svqPop d) s = .next { s with
      services := Store.put ServiceQueue.reset s.services d { q with current := q.records.head?, records := q.records.tail } } ∧
    (parked = [] → exec (.svtoDeliver d seq) s =
      .next { s with services := Store.put ServiceQueue.reset s.services d { q with ack := false } }) ∧
    (∀ p ∈ parked.head?, ∃ u, exec (.svtoDeliver d seq) s = .next u ∧ SameMemory s u ∧
      u.service d = { q with ack := true, records := q.records.filter fun r => r.seq != seq } ∧
      let h := u.getHart p.1
      h.pc = p.2.pc + 4#64 ∧ h.waiting = .nothing ∧ h.mode = p.2.mode ∧ h.vec = p.2.vec ∧
      ∀ k : XReg, h.getX k = if k = 10 then q.answer else p.2.getX k) ∧
    let there (pa : Nat) : Bool := physAt s.bigMemory pa != .device && physAt s.bigMemory pa != .absent
    let moved (h : Hart) : Hart := match h.waiting with
      | .barrier o released =>
        if m.src.toNat ≤ o ∧ o < m.src.toNat + n then { h with waiting := .barrier (o - m.src.toNat + m.dst.toNat) released } else h
      | _ => h
    exec (.migrationStart d) s = .next (if m.busy = false ∧ m.done = false ∧ m.size ≠ 3 ∧ m.src.toNat % n = 0 ∧ m.dst.toNat % n = 0 ∧
        there m.src.toNat = true ∧ there m.dst.toNat = true ∧ memoryDie (physAt s.bigMemory m.src.toNat) = d.val then
      { s with migrations := put { m with busy := true } } else s) ∧
    (m.busy = true → s.migrationRoute d = true → Canonical s → ∃ u, exec (.migrationCopyDone d) s = .next u ∧
      u = { s with
        memory := Memory.writeBytes s.memory m.dst.toNat (Memory.readBytes s.memory m.src.toNat n)
        fullEmpty := u.fullEmpty, poison := u.poison, migrations := put { m with busy := false, done := true }
        hart := moved s.hart, others := s.others.map fun (p : Nat × Hart) => (p.1, moved p.2) } ∧
      (∀ i, i < n / 64 → Store.get false u.poison (m.dst.toNat / 64 + i) = s.poisoned (m.src.toNat + 64 * i)) ∧
      ∀ i, i < n / 16 → Store.get false u.fullEmpty (m.dst.toNat / 16 + i) =
        Store.get false s.fullEmpty (if hasFullEmpty s.bigMemory (m.dst.toNat + 16 * i) then m.src.toNat / 16 + i else m.dst.toNat / 16 + i)) ∧
    exec (.migrationRelease d) s = .next { s with migrations := put { m with done := false } } ∧
    exec .movedRequestReissue s = .next { s with agenda := .hart s.hartId :: s.agenda }

/-! ## Events between packages (R236, R367 to R375) -/

/-- R372 to R375: PGRANT reserves free slots of a queue for a sender and sends a grant of as many. A grant that finds its permit entry adds to
it and is accepted, and one that finds none is refused; PERMIT_RETURN gives one permit back. A grant acknowledged is no longer in transit,
and its slots stay reserved only where it was accepted. A record for which its sender has a slot is accepted by a queue that takes remote
records; another queue returns its permit. A request of a new boot generation ends everything that was held for the device's last one.
R366, R375: a message leaves with the way of the route table and the DEVNUM and BOOTGEN of this package; one whose entry there cannot be
read yet waits, and those that wait leave in their order. -/
def Obligations.PermitEvents : Prop :=
  ∀ (s : State) (h : MsgHeader) (queue : Fin 64) (asid : BitVec 16) (value : Word) (count : Nat) (record : Vector Word 8),
    let r := s.remote
    let same : Prop := ofDevice r.seen h.dev = some h.bootgen
    let sent (m : Message) : Sent := ⟨s.netRoute m.dev, r.devnum, r.bootgen, m⟩
    let sends (t : Remote) (m : Message) : State := { s with remote := { t with outbox := t.outbox ++ [sent m] } }
    let readable (dev : BitVec 21) : Prop := s.routeEntry dev ≠ .missing kindDataError ∧ s.routeEntry dev ≠ .waits
    let entries := r.permits.filter fun p => p.2.head.getLsbD 63 && p.2.head.extractLsb' 0 21 == h.dev &&
      getField p.2.head 21 6 == queue.val && p.2.head.extractLsb' 27 16 == asid
    let sum (p : Permit) (n : Nat) : Permit := { p with count := BitVec.ofNat 16 (min (p.count.toNat + n) 65535) }
    let more (n : Nat) : Remote := match entries.head? with
      | some p => { r with permits := Store.put Permit.reset r.permits p.1 (sum p.2 n) }
      | none => r
    let g : Reserved := ⟨h.dev, queue, asid, count⟩
    let used := (s.queue queue).records.filter fun o => o.sender == some (h.dev, asid)
    let slots := r.reserved.filter fun o => o.queue == queue.val && o.dev == h.dev && o.asid == asid
    (readable (value.extractLsb' 0 21) → ∃ u, exec (.pgrant value) s = .next u ∧
      let d := value.extractLsb' 0 21
      let q := getField value 21 6
      let a := value.extractLsb' 27 16
      let n := min (getField value 43 11) (s.freeSlots q)
      let one : List Reserved := if n = 0 then [] else [⟨d, q, a, n⟩]
      u = { s with remote := { r with
        pgrant := n, reserved := r.reserved ++ one, transit := r.transit ++ one, nextReq := r.nextReq + 1
        outbox := r.outbox ++ [sent (.grant r.nextReq d q a n)] } }) ∧
    (same → readable h.dev → exec (.permitGrantReceive h queue asid count) s =
      .next (sends (more count) (.grantAck h.req h.dev !entries.isEmpty))) ∧
    (same → s.routeEntry h.dev = .waits → exec (.permitGrantReceive h queue asid count) s =
      .next { s with remote := { more count with waiting := r.waiting ++ [.grantAck h.req h.dev !entries.isEmpty] } }) ∧
    ((∀ m ∈ r.waiting, readable m.dev) →
      s.sendWaiting = { s with remote := { r with waiting := [], outbox := r.outbox ++ r.waiting.map sent } }) ∧
    exec (.permitReturn h queue asid) s = .next { s with remote := more 1 } ∧
    (same → g ∈ r.transit → ∀ ok ∈ [true, false], exec (.grantAcknowledgmentReceive h queue asid ok count) s = .next { s with
      remote := { r with transit := r.transit.erase g, reserved := if ok then r.reserved else r.reserved.erase g } }) ∧
    (same → h.dev ≠ r.devnum →
      let q := s.queue queue
      ((q.enable && q.remote) = true → used.length < (slots.map (·.count)).sum →
        exec (.remoteLaunchReceive h queue asid record) s = .next (s.setQueue queue { q with
          nextSeq := if q.nextSeq + 1 < 2 ^ 50 then q.nextSeq + 1 else 1
          records := q.records ++ [⟨q.nextSeq, record, some (h.dev, asid)⟩]
          tickets := (⟨q.nextSeq, 1, 0, 0⟩ :: q.tickets).take 4096 })) ∧
      ((q.enable && q.remote) = false → readable h.dev →
        exec (.remoteLaunchReceive h queue asid record) s =
          .next (sends { r with nextReq := r.nextReq + 1 } (.permitBack r.nextReq h.dev queue asid)))) ∧
    (∀ old ∈ ofDevice r.seen h.dev,
      (h.bootgen.toNat < old.toNat → readable h.dev →
        exec (.permitGrantReceive h queue asid count) s = .next (sends r (.grantAck h.req h.dev false)) ∧
        exec (.remoteLaunchReceive h queue asid record) s = .next (sends r (.ack h.req h.dev (some 6) 0#64))) ∧
      (old.toNat < h.bootgen.toNat → ∃ u, exec (.permitGrantReceive h queue asid count) s = .next u ∧
        (∀ o ∈ u.remote.reserved ++ u.remote.transit, o.dev ≠ h.dev) ∧ (∀ o ∈ u.remote.cached, o.1.1 ≠ h.dev) ∧
        (∀ p ∈ u.queues, ∀ o ∈ p.2.records, o.sender.map (·.1) ≠ some h.dev) ∧ ofDevice u.remote.seen h.dev = some h.bootgen ∧
        SameMemory s u ∧ u.hart = s.hart))

/-- R367, R368, R370, R371: a put, a get or an atomic that a window admits, to memory that is ready and reached, not being moved and not
poisoned, is performed and answered: the put writes its bytes and no other, the get answers with the bytes, the atomic answers with the old
value, which is kept for its sender, and writes the updated one. A request that no window admits is refused with kind 1 and does nothing. An
atomic that arrives again is answered with the value kept, and RESULT_ACKNOWLEDGMENT_RECEIVE ends the keeping. R366, R375: an answer leaves
with the way of the route table and the DEVNUM and BOOTGEN of this package. -/
def Obligations.RemoteRequests : Prop :=
  ∀ (s : State) (h : MsgHeader) (addr : Nat) (key : BitVec 32) (data : List Byte) (len : Nat) (op : UpdOp) (f : Fmt) (value : Word),
    ofDevice s.remote.seen h.dev = some h.bootgen → Memory.wf s.memory = true → s.poison = [] → s.migrations = [] →
    s.routeEntry h.dev ≠ .missing kindDataError → s.routeEntry h.dev ≠ .waits → s.remote.lost = none →
    let r := s.remote
    let sends (u : State) (m : Message) : State := { u with remote := { u.remote with
      outbox := u.remote.outbox ++ [⟨u.netRoute m.dev, u.remote.devnum, u.remote.bootgen, m⟩] } }
    let refused : State := sends s (.ack h.req h.dev (some 1) 0#64)
    let window (bit n : Nat) : Bool := r.windows.any fun p =>
      let c := p.2.ctl
      c.getLsbD 63 && c.getLsbD bit && (c.getLsbD 35 || c.extractLsb' 36 21 == h.dev) && c.extractLsb' 0 32 == key &&
        decide (p.2.base.toNat ≤ addr ∧ addr + n ≤ p.2.base.toNat + p.2.len.toNat)
    let open' (n : Nat) : Bool := [addr, addr + n - 1].all fun pa =>
      let p := physAt s.bigMemory pa
      reaches .remote p && s.memoryReady pa && s.routeTo .remote p == .open'
    let n := f.packed / 8
    (data ≠ [] →
      (window 33 data.length = true → open' data.length = true → ∃ u, exec (.rdmaWriteReceive h addr key data) s = .next u ∧
        u = sends { s with memory := u.memory, reservations := u.reservations, fullEmpty := u.fullEmpty } (.ack h.req h.dev none 0#64) ∧
        u.memory = Memory.writeBytes s.memory addr data) ∧
      (window 33 data.length = false → exec (.rdmaWriteReceive h addr key data) s = .next refused)) ∧
    (0 < len →
      (window 32 len = true → open' len = true → exec (.rdmaReadReceive h addr key len) s =
        .next (sends s (.readData h.req h.dev (Memory.readBytes s.memory addr len)))) ∧
      (window 32 len = false → exec (.rdmaReadReceive h addr key len) s = .next refused)) ∧
    (let kept := (r.cached.filter fun p => p.1 == (h.dev, h.req)).head?.map (·.2)
     (kept = none → updAccepts op f = true → addr % n = 0 → window 34 n = true → open' n = true →
      ∃ u, exec (.remoteAtomicReceive h addr key op f value) s = .next u ∧
        let old := Memory.readNum s.memory addr n
        u = sends { s with memory := u.memory, reservations := u.reservations,
                           remote := { r with cached := r.cached ++ [((h.dev, h.req), (none, BitVec.ofNat 64 old))] } }
          (.ack h.req h.dev none (BitVec.ofNat 64 old)) ∧
        u.memory = Memory.writeBytes s.memory addr (byteList n (updValue op f old value.toNat).1)) ∧
     (kept = none → (addr % n ≠ 0 ∨ window 34 n = false) → exec (.remoteAtomicReceive h addr key op f value) s = .next refused) ∧
     (∀ v ∈ kept, exec (.remoteAtomicReceive h addr key op f value) s = .next (sends s (.ack h.req h.dev v.1 v.2)))) ∧
    exec (.resultAcknowledgmentReceive h) s = .next { s with remote := { r with cached := r.cached.filter fun p => p.1 != (h.dev, h.req) } }

/-- R368 to R371: the answer of a put counts its bytes as complete, that of a get writes its bytes where the copy goes, and that of an atomic
is kept for its element, which takes it. A refusal, with kind 6 or 1, 2^32 cycles without an answer, and the failure of the connection hold
the copy with a fault of that kind, or give it to the element. R363: an answer crosses to its requester over links that carry traffic, and
over one that is retraining it does not cross yet. -/
def Obligations.RemoteAnswers : Prop :=
  ∀ (s : State) (h : MsgHeader) (value : Word) (data : List Byte),
    ofDevice s.remote.peers h.dev = some h.bootgen → (∀ g ∈ ofDevice s.remote.seen h.dev, g.toNat ≤ h.bootgen.toNat) →
    s.routeEntry h.dev ≠ .missing kindDataError → s.routeEntry h.dev ≠ .waits →
    let r := s.remote
    ∀ q ∈ (r.outstanding.filter fun o => o.req == h.req && o.dev == h.dev && o.answer.isNone).head?,
      (r.outstanding.filter fun o => o.req == h.req) = [q] →
      let rest : Remote := { r with outstanding := r.outstanding.filter fun o => o.req != h.req }
      let told (a : Option Nat × Word) : Remote := { r with
        outstanding := r.outstanding.map fun o => if o.req = h.req then { o with answer := some a } else o }
      let kind := if value = 6#64 then 6 else 1
      let copy : Option (Bool × Nat × Nat × Nat) := match q.kind with
        | .put id offset len => some (true, id, offset, len)
        | .get id offset len => some (false, id, offset, len)
        | .atomic _ _ => none
      (∀ c ∈ copy, ∀ e ∈ (s.copies.filter fun o => o.id == c.2.1).head?,
        let put (e' : Copy) (t : Remote) : State := { s with copies := s.copies.map (fun o => if o.id = e.id then e' else o), remote := t }
        let failed (i : Instr) (k : Nat) : Prop := ∃ u, exec i s = .next u ∧
          u = { s with copies := u.copies, remote := rest } ∧ ∃ f : VecFault,
            u.copies = s.copies.map (fun o => if o.id = e.id then
              { e with done := c.2.2.1, written := c.2.2.1 == e.count, held := some f } else o) ∧
            (f.cause, f.kind, f.acc, f.vpc, f.elem) = (24, k, if c.1 then 1 else 0, e.pc, c.2.2.1)
        (c.1 = true → s.answerRoute q = .open' → exec (.remoteAckReceive h false value) s =
          .next (put { e with done := c.2.2.1 + c.2.2.2, written := c.2.2.1 + c.2.2.2 == e.count } rest)) ∧
        (c.1 = false → s.answerRoute q = .open' → data ≠ [] → data.length = c.2.2.2 → e.space.satp = 0#64 → e.space.swindow = 0#5 → s.poison = [] →
          let va := e.dst + BitVec.ofNat 64 e.done
          let place : Option Nat := match translate s (.engine (clusterOf e.hart)) e.space .store va with
            | .ok pa false => if physAt s.bigMemory pa = .device then none else some pa
            | _ => none
          va.toNat % 4096 + data.length ≤ 4096 → ∀ pa ∈ place, ∃ u, exec (.rdmaReadResponseReceive h data) s = .next u ∧
            u.memory = Memory.writeBytes s.memory pa data ∧ u.remote = rest ∧ u.hart = s.hart ∧
            u.copies = s.copies.map fun o => if o.id = e.id then
              { e with done := e.done + data.length, written := e.done + data.length == e.count } else o) ∧
        (s.answerRoute q = .open' → failed (.remoteAckReceive h true value) kind) ∧
        (q.sent + 2 ^ 32 ≤ s.cycle → failed (.remoteAckTimeout h.req) 6) ∧
        ((r.outstanding.filter fun o => o.dev == h.dev && o.answer.isNone) = [q] → failed (.connectionFailure h.dev) 6)) ∧
      (s.answerRoute q = .waits → ∀ no, exec (.remoteAckReceive h no value) s = .next s ∧ exec (.rdmaReadResponseReceive h data) s = .next s) ∧
      (copy = none → s.answerRoute q = .open' →
        exec (.remoteAckReceive h false value) s = .next { s with remote := { told (none, value) with
          outbox := r.outbox ++ [⟨s.netRoute h.dev, r.devnum, r.bootgen, .resultAck h.req h.dev⟩] } } ∧
        exec (.remoteAckReceive h true value) s = .next { s with remote := told (some kind, 0#64) }) ∧
      (copy = none → q.sent + 2 ^ 32 ≤ s.cycle → exec (.remoteAckTimeout h.req) s = .next { s with remote := told (some 6, 0#64) })

/-! ## Events of links, errors, power and bring-up (R361 to R365, R377 to R391) -/

/-- R363: FLIT_REPLAY and LINK_RETRAIN of a link that is up count a replay and, after 16 consecutive ones of one flit, begin a retraining;
lifetime record 2 counts both, and those of the root ports; a replay is logged as corrected. RETRAINING_END resumes traffic or counts a
failure; after three LINK_DISABLE takes the link down, and its READY bits at both ends. R365: ENDPOINT_DMA of a port that is up writes main
memory or an interrupt file, where the IOMMU sends it (notes/assumptions/44.md). R377, R379, R384: SCRUB_LINE of a line or a register logs
what it finds; an uncorrectable error poisons it, and no data changes. R380: NETWORK_FLIT_PARITY_ERROR of an access of the control thread
is an access fault of it, at its address, of its fetch at the pc, of a vector load a fault of kind 6 at its element, of a copy one that
holds it; a flit whose requester cannot be named stops the harts of the die of its address and clears every READY bit of the die. Each is
logged. What detects an error, which lifetime counter of record 1 counts it, and the units and places of what no rule places are the model's
choices (notes/assumptions/41.md, 42.md, 43.md). -/
def Obligations.LinkEvents : Prop :=
  ∀ (s : State),
    let bump (record index : Nat) (life : List (Nat × Nat)) : List (Nat × Nat) :=
      let k := record * 2 ^ 56 + index
      Store.put 0 life k (min (Store.get 0 life k + 1) (2 ^ 64 - 1))
    -- the log after an error, where its ring is not full
    let logged (u : State) (cls : Fin 4) (unit : Fin 32) (place addr : Nat) : Prop := s.log.valid < 256 →
      let e : LogEntry := ⟨cls, unit, BitVec.ofNat 15 (place / 2 ^ 15), BitVec.ofNat 64 (addr / 64 * 64), BitVec.ofNat 64 s.cycle, 1⟩
      let newest := s.log.entry s.log.newest.toNat
      let again : Bool := cls == 0 && (newest.map fun o => (o.unit, o.addr)) == some (e.unit, e.addr)
      u.log = if again then
          { s.log with entries := Store.put none s.log.entries s.log.newest.toNat (newest.map fun o => { o with count := o.count + 1 }) }
        else { s.log with
          entries := Store.put none s.log.entries s.log.tail.toNat (some e), newest := s.log.tail, tail := s.log.tail + 1#8 }
    let outside (unit : Nat) : Nat := 2 ^ 40 - 32 + unit
    (∀ (link flit : Nat) (ok : Bool) (p : Fin 8),
      let l := s.link link
      let put (l : Link) : List (Nat × Link) := Store.put Link.reset s.links link l
      let ended : Link := if ok then { l with retraining := false, replays := 0, failed := 0 } else { l with failed := l.failed + 1 }
      (link < 8 → l.up = true → l.retraining = false →
        (∃ u, exec (.flitReplay ⟨link, flit⟩) s = .next u ∧ logged u 0 5 ((linkEnds link).1 * 2 ^ 28) 0 ∧
          u = { s with
            links := put { l with flit := flit, replays := if l.flit = flit then l.replays + 1 else 1 }
            lifeRam := bump 2 link (bump 1 (outside 5) s.lifeRam), log := u.log }) ∧
        (16 ≤ l.replays →
          exec (.linkRetrain link) s = .next { s with links := put { l with retraining := true }, lifeRam := bump 2 (256 + link) s.lifeRam })) ∧
      (∃ u, exec (.flitReplay ⟨8 + p.val, flit⟩) s = .next u ∧ logged u 0 6 0 0 ∧
        u = { s with lifeRam := bump 2 (512 + p.val) (bump 1 (outside 6) s.lifeRam), log := u.log }) ∧
      exec (.linkRetrain (8 + p.val)) s = .next { s with lifeRam := bump 2 (1024 + p.val) s.lifeRam } ∧
      (l.retraining = true → exec (.retrainingEnd link ok) s =
        .next (let t := { s with links := put ended }; if ok then t.sendWaiting else t)) ∧
      (link < 8 → l.retraining = true → 3 ≤ l.failed → Store.wf 0#64 s.ready = true → ∃ u : State,
        exec (.linkDisable link) s = .next u.sendWaiting ∧
        u = { s with links := put { l with up := false, retraining := false }, ready := u.ready } ∧
        ∀ d, d < 4 → ∀ b, b < 64 →
          let e := linkEnds link
          let bit := if link < 4 then 52 + link else 51
          (Store.get 0#64 u.ready (16 + d)).getLsbD b =
            ((Store.get 0#64 s.ready (16 + d)).getLsbD b && !(decide (d = e.1 ∨ d = e.2) && b == bit)))) ∧
    (∀ (port : Fin 8) (device : BitVec 16) (addr : Nat) (data : List Byte),
      let dma (write : Bool) : Result := exec (.endpointDma ⟨port, device, write⟩ addr data) s
      dma false = .next s ∧
      (s.appWord.getLsbD port.val = false → dma true = .next s) ∧
      (s.appWord.getLsbD port.val = true → data ≠ [] →
        (∀ pa, Config.iommu ⟨port, device, true⟩ addr s.memory = .memory pa → s.poison = [] →
          ([pa, pa + data.length - 1].all fun a =>
            let m := physAt s.bigMemory a
            reaches .endpoint m && s.memoryReady a && s.routeTo .endpoint m == .open' && !s.refusesMoved a) = true →
          ∃ u, dma true = .next u ∧ u = { s with memory := u.memory, reservations := u.reservations } ∧
            u.memory = Memory.writeBytes s.memory pa data) ∧
        (∀ core identity, Config.iommu ⟨port, device, true⟩ addr s.memory = .interrupt core identity →
          dma true = .next { s with
            interruptFiles := Store.put false s.interruptFiles (core.val * 2048 + identity.val) true }) ∧
        (Config.iommu ⟨port, device, true⟩ addr s.memory = .refused → dma true = .next s))) ∧
    (∀ (addr : Nat) (file : RegFile) (i : Nat) (lane : Nat),
      let line : Option (Fin 32 × Nat) := match physAt s.bigMemory addr with
        | .main d => some (4, d % 4 * 2 ^ 28)
        | .sram d => some (3, d % 4 * 2 ^ 28)
        | .scratch g => some (2, g % 16 * 2 ^ 26)
        | .tcm c => some (1, c % 512 * 2 ^ 21)
        | _ => none
      let f := s.hart.vec
      let hurt : VecFile := match file with
        | .v => { f with poisonV := f.poisonV ||| BitVec.ofNat 32 (2 ^ i) }
        | .m => { f with poisonM := f.poisonM ||| BitVec.ofNat 8 (2 ^ i) }
        | .k => { f with poisonK := f.poisonK ||| BitVec.ofNat 16 (2 ^ i) }
        | .tag => { f with poisonTag := f.poisonTag ||| BitVec.ofNat 32 (2 ^ i) }
        | .ixt => { f with poisonIxt := Store.put false f.poisonIxt i true }
      let element (e : Nat) (m : Micro) : Micro := if m.elem = e then { m with poison := some lane } else m
      let told (u : State) : Prop := s.log.valid < 256 → u.appInterrupts = s.appInterrupts + (if s.log.ien then 1 else 0)
      exec (.scrubLine (.line addr) .clean) s = .next s ∧
      (∀ w ∈ line,
        (∃ u, exec (.scrubLine (.line addr) .correctable) s = .next u ∧ logged u 0 w.1 w.2 addr ∧
          u = { s with log := u.log, lifeRam := u.lifeRam }) ∧
        (∃ u, exec (.scrubLine (.line addr) .uncorrectable) s = .next u ∧ logged u 1 w.1 w.2 addr ∧ told u ∧
          u = { s with
            poison := Store.put false s.poison (addr / 64) true
            log := u.log, lifeRam := u.lifeRam, appInterrupts := u.appInterrupts })) ∧
      (s.hartId < 4096 →
        let at' : Checked := .register s.hartId file i lane
        let k := 2 ^ 20 + 8 * coreOf s.hartId + lane
        (∃ u, exec (.scrubLine at' .correctable) s = .next u ∧ logged u 0 0 (placeBits s.hartId lane) 0 ∧
          u = { s with log := u.log, lifeRam := bump 1 k s.lifeRam }) ∧
        (∃ u, exec (.scrubLine at' .uncorrectable) s = .next u ∧ logged u 1 0 (placeBits s.hartId lane) 0 ∧ told u ∧
          u = { s with
            hart := { s.hart with vec := { hurt with poisonLane := u.hart.vec.poisonLane } }
            log := u.log, lifeRam := bump 1 (2 ^ 40 + k) s.lifeRam, appInterrupts := u.appInterrupts } ∧
          (Store.wf 0 f.poisonLane = true → u.hart.vec.laneAt file i = lane)) ∧
        ∃ u, exec (.scrubLine (.element s.hartId i lane) .uncorrectable) s = .next u ∧ logged u 1 0 (placeBits s.hartId lane) 0 ∧ told u ∧
          u = { s with
            hart := { s.hart with resume := s.hart.resume.map fun g => { g with micros := g.micros.map (element i) } }
            log := u.log, lifeRam := bump 1 (2 ^ 40 + k) s.lifeRam, appInterrupts := u.appInterrupts })) ∧
    (∀ (addr : Nat),
      let h := s.hart
      let meets (r : Requester) (p : State → Prop) : Prop := ∃ u, exec (.networkFlitParityError ⟨r, .request⟩ addr) s = .next u ∧ p u
      let named (u : State) (lane : Nat) : Prop := logged u 1 7 (placeBits s.hartId lane) addr
      let silent (u : State) : State := { u with log := s.log, lifeRam := s.lifeRam, appInterrupts := s.appInterrupts }
      (h.live = true → ∀ p ∈ s.codeAt, ∀ i ∈ decodeControl p.1,
        let target : Option (Word × Nat) := match i with
          | .rv64 (.load _ _ r imm) => some (s.x r + imm.signExtend 64, 5)
          | .rv64 (.store _ r _ imm) => some (s.x r + imm.signExtend 64, 7)
          | .rv64 (.lr _ _ _ _ r) => some (s.x r, 5)
          | .rv64 (.sc _ _ _ _ r _) => some (s.x r, 7)
          | .rv64 (.amo _ _ _ _ _ r _) => some (s.x r, 7)
          | .ldfe _ r _ => some (s.x r, 5)
          | .stfe r _ => some (s.x r, 7)
          | _ => none
        ∀ t ∈ target, meets .thread fun u => named u 0 ∧ TrapTaken p.2 (silent u) t.2 t.1) ∧
      (h.live = true → meets .fetch fun u => named u 0 ∧ TrapTaken s (silent u) 1 h.pc) ∧
      (h.live = true → ∀ e ∈ h.vnext, (∃ d a ff full nt m, decodeControl e.word = some (.vle d a ff full nt m)) →
        meets .vector fun u => named u ((u.hart.vfault.map (·.lg)).getD 0) ∧ u.hart.headWait = none ∧
          u.hart.vfault.map (fun f => (f.cause, f.kind, f.acc, f.elem, f.vpc)) = some (24, 6, 0, e.start, e.pc)) ∧
      (∀ c ∈ s.copies, (∀ o ∈ s.copies, o.id = c.id → o = c) → c.held = none → c.written = false →
        meets (.copy c.id) fun u => logged u 1 7 (placeBits c.hart 0) addr ∧ ∃ f : VecFault, (f.cause, f.kind, f.vpc, f.elem) = (24, 6, c.pc, c.done) ∧
          u.copies = s.copies.map fun o => if o.id = c.id then { c with written := c.done == c.count, held := some f } else o) ∧
      (let d := memoryDie (physAt s.bigMemory addr) % 4
       (s.others.map (·.1)).Nodup → Store.wf 0#64 s.ready = true →
        ∃ u, exec (.networkFlitParityError ⟨.thread, .unnamed⟩ addr) s = .next u ∧ logged u 2 7 (d * 2 ^ 28) addr ∧ SameMemory s u ∧
          u.hart = (if dieOf s.hartId = d ∧ s.hartId < 4096 then { h with live := false } else h) ∧
          (∀ p ∈ s.others, Store.get Hart.reset u.others p.1 = if dieOf p.1 = d ∧ p.1 < 4096 then { p.2 with live := false } else p.2) ∧
          ∀ k, Store.get 0#64 u.ready k = if k / 4 = d ∧ k < 16 ∨ k = 16 + d then 0#64 else Store.get 0#64 s.ready k))

/-- R387 to R391: POWER_ON starts with nothing ready, no hart started, every full-empty bit 0, a greater BOOTGEN, the digests of the images in
load order, and the lifetime records of the flash, with the repairs of this boot in record 6 (R385, R386). FUNCTION_READY of a function that
may become ready zeroes its memory and sets its bit; the application cores run from theirs on (notes/assumptions/20.md).
POWER_BUDGET_LOWER and POWER_BUDGET_RAISE move the budget of every core of a die one step through 8, 6, 4, 3, 2, 1. SET_PWRCAP sets a limit
of 500 to 2,800 W, which lasts until the power is off (R387). R386: LIFETIME_RECORD_WRITE adds the seconds of the
histogram bins, a free value (notes/assumptions/43.md), and writes the records, and so does an orderly power-off; an abrupt or a thermal one
keeps those written before. R390: the
reports are signed over the nonce, BOOTGEN, DEVNUM and the measurements, once the security engine, which signs them, is ready (R388). -/
def Obligations.PowerEvents : Prop :=
  ∀ (s : State) (bootgen : BitVec 32) (images : List Firmware) (f : Function) (die : Fin 4) (watts : Nat) (nonce : BitVec 512),
    let dark (u : State) (life : List (Nat × Nat)) : Prop := u.power.on = false ∧ u.memory = [] ∧ u.fullEmpty = [] ∧ u.poison = [] ∧
      u.hart = Hart.reset ∧ u.others = [] ∧ u.copies = [] ∧ u.launches = [] ∧ u.queues = [] ∧ u.ready = [] ∧ u.lifeFlash = life ∧
      u.remote.bootgen = s.remote.bootgen ∧ u.power.pwrcap = 2800 ∧ u.reports = s.reports
    (∃ u, exec (.powerOn bootgen images) s = .next u ∧ u.power.on = true ∧ u.hart = Hart.reset ∧ u.others = [] ∧ u.ready = [] ∧
      u.memory = [] ∧ u.fullEmpty = [] ∧ u.poison = [] ∧ u.launches = [] ∧ u.copies = [] ∧ u.lifeFlash = s.lifeFlash ∧
      (∀ k, k / 2 ^ 56 ≠ 6 → Store.get 0 u.lifeRam k = Store.get 0 s.lifeFlash k) ∧ u.measurements = images.map (·.digest) ∧
      u.remote.bootgen = (if s.remote.bootgen.toNat < bootgen.toNat then bootgen else s.remote.bootgen + 1#32) ∧
      ∀ i ∈ images, (i.function ∈ u.power.verified ∨ i.function ∈ u.power.refused)) ∧
    (∀ p ∈ readyBit f, s.mayBeReady f = true → Store.wf 0#64 s.ready = true → (Store.get 0#64 s.ready p.1).getLsbD p.2 = false →
      ∃ u, exec (.functionReady f) s = .next u ∧
        u = { s with memory := u.memory, poison := u.poison, ready := u.ready, hart := u.hart, others := u.others } ∧
        (f ≠ .appCores → u.hart = s.hart ∧ u.others = s.others) ∧
        (f = .appCores → s.hartId < 4096 → Store.wf Hart.reset s.others = true → u.hart = s.hart ∧ ∀ i : Fin 16,
          (u.getHart (4096 + i.val)).live = true ∧ (u.getHart (4096 + i.val)).app = true) ∧
        (∀ w, w < 21 → ∀ b, b < 64 → (w ≠ p.1 ∨ b ≠ 48) → (Store.get 0#64 u.ready w).getLsbD b =
          ((Store.get 0#64 s.ready w).getLsbD b || (w == p.1 && b == p.2))) ∧
        (let zeroed := (zeroedBy f).toList
         StoredOnly s u zeroed ∧ ∀ z ∈ zeroed, ∀ c ∈ u.memory, ¬ (z.1 ≤ c.1 ∧ c.1 < z.1 + z.2))) ∧
    (let steps : List (Nat × Nat) := [(8, 6), (6, 4), (4, 3), (3, 2), (2, 1)]
     let moves (i : Instr) (to' : Nat → Option Nat) : Prop := ∃ u, exec i s = .next u ∧ u = { s with cores := u.cores } ∧
      ∀ c, c < 512 →
        (c / 128 ≠ die.val → u.core c = s.core c) ∧
        (c / 128 = die.val → ∀ b ∈ to' (s.core c).budget, u.core c = { s.core c with budget := b, limited := decide (b < 8) })
     Store.wf CoreState.reset s.cores = true →
     moves (.powerBudgetLower die) (fun b => if b = 1 then some 1 else (steps.find? fun p => p.1 == b).map (·.2)) ∧
     moves (.powerBudgetRaise die) fun b => if b = 8 then some 8 else (steps.find? fun p => p.2 == b).map (·.1)) ∧
    (∀ d : Fin 5, ∃ u, exec (.thermalTrip d) s = .next u ∧ dark u s.lifeFlash) ∧
    let accumulated (life : List (Nat × Nat)) : Prop :=
      let seconds := Config.binSeconds s.free
      let key : Bin → Nat := fun
        | .thermal die bin => 3 * 2 ^ 56 + (die.val * 32 + bin.val)
        | .voltage rail bin => 4 * 2 ^ 56 + (rail * 2 ^ 20 + bin)
      (seconds = [] → life = s.lifeRam) ∧
      (∀ k, k < 3 * 2 ^ 56 → Store.get 0 life k = Store.get 0 s.lifeRam k) ∧
      (Store.wf 0 s.lifeRam = true → ∀ k, Store.get 0 life k =
        seconds.foldl (fun n p => if key p.1 = k then min (n + p.2) (2 ^ 64 - 1) else n) (Store.get 0 s.lifeRam k))
    (s.power.on = true → ∃ u, exec .orderlyPowerOff s = .next u ∧ dark u u.lifeFlash ∧ accumulated u.lifeFlash) ∧
    (s.power.on = false → exec .orderlyPowerOff s = .next s) ∧
    (∃ u, exec .abruptLossOfPower s = .next u ∧ dark u s.lifeFlash) ∧
    (s.power.on = false → exec .lifetimeRecordWrite s = .next s) ∧
    (s.power.on = true → ∃ u, exec .lifetimeRecordWrite s = .next u ∧
      u = { s with lifeRam := u.lifeRam, lifeFlash := u.lifeRam, free := s.free + 1 } ∧ accumulated u.lifeRam) ∧
    exec (.setPwrcap watts) s =
      .next (if 500 ≤ watts ∧ watts ≤ 2800 then { s with power := { s.power with pwrcap := watts } } else s) ∧
    (s.power.on = false ∨ s.appWord.getLsbD 8 = false →
      exec .lifetimeRecordRead s = .next s ∧ exec (.attestationReport nonce) s = .next s) ∧
    (s.power.on = true → s.appWord.getLsbD 8 = true → ∃ signature : List Byte,
      exec .lifetimeRecordRead s = .next { s with reports := s.reports ++ [.lifetime s.lifeFlash signature] }) ∧
    (s.power.on = true → s.appWord.getLsbD 8 = true → ∃ bytes : List Byte,
      exec (.attestationReport nonce) s = .next { s with reports := s.reports ++ [.attestation bytes] } ∧
        let body := 88 + 64 * s.measurements.length
        numAt bytes 8 64 = nonce.toNat ∧ numAt bytes 72 8 = s.remote.bootgen.toNat * 2 ^ 32 + s.remote.devnum.toNat ∧
        numAt bytes 80 8 = s.measurements.length ∧
        (∀ i, i < s.measurements.length → numAt bytes (88 + 64 * i) 64 = (s.measurements.getD i 0#512).toNat) ∧
        bytes.drop body = (Config.mldsaSign (Config.sha3 (bytes.take body))).toList)

/-! ## Encodings (R68 to R89) -/

/-- R68 to R88: words written out from the encoding tables decode to the instructions they stand for. -/
def Obligations.DecodeWords : Prop :=
  decodeControl 0x0055A20B#32 = some (.vlse 4 11 5 none) ∧
  decodeControl 0x0003810B#32 = some (.vle 2 7 false .plain false none) ∧
  decodeControl 0x200410AB#32 = some (.vredo 1 8 .sum none) ∧
  decodeControl 0x2420E1AB#32 = some (.vmlogic 3 1 2 4#4) ∧
  decodeControl 0x5021402B#32 = some (.vsortg 0 2 2 ⟨true, 0, false⟩) ∧
  decodeControl 0x92A4012B#32 = some (.vixins 2 8 10 (some 1)) ∧
  decodeControl 0x10C5B05B#32 = some (.mlds 0 11 12 true) ∧
  decodeControl 0x0004605B#32 = some (.mmul 0 8 0) ∧
  decodeControl 0x1412937B#32 = some (.vsetli 6 5 21#9) ∧
  decodeControl 0x3405505B#32 = some (.vfbm 10 2) ∧
  decodeControl 0x00A30313#32 = some (.rv64 (.aluImm .addi 6 6 10#12)) ∧
  decodeControl 0x10200073#32 = some .sret ∧
  decodeControl 0x00000000#32 = none ∧
  decodeBlock [0x000003C00020C301#64] = .ok (.add ⟨3, .e 3, .e 2, .e 0, .i32, .rne, false, none, none, 0#13, none, none⟩) 1 ∧
  decodeBlock [0x0000000000000038#64] = .ok (.stop ⟨0, .e 0, .e 0, .e 0, .fp64, .rne, false, none, none, 0#13, none, none⟩) 1

/-- R68 to R81: the decoder of control words and the encoder agree both ways: every well-formed instruction is read back from its word, and
every word that decodes is the word of what it decodes to, which is well formed. No bit of an encoding is dropped or ignored. -/
def Obligations.ControlRoundTrip : Prop :=
  ∀ (i : Instr) (w : BitVec 32),
    (i.wf = true → encodeControl i = some w → decodeControl w = some i) ∧
    (decodeControl w = some i → encodeControl i = some w ∧ i.wf = true)

/-- R82 to R89: the same of block instructions with their prefixes, whatever words follow. -/
def Obligations.BlockRoundTrip : Prop :=
  ∀ (i : Instr) (words rest : List Word) (n : Nat),
    (i.wf = true → encodeBlock i = some words → decodeBlock (words ++ rest) = .ok i words.length) ∧
    (decodeBlock words = .ok i n → encodeBlock i = some (words.take n) ∧ i.wf = true ∧ n ≤ 2)

/-! ## Reset, steps and invariants -/

/-- R61, R64 to R66, R278, R388: after reset the CSRs that the spec gives values read them, no lane group is held, every full-empty bit is 0 and
nothing is ready; the invariants hold. -/
def Obligations.ResetValues : Prop :=
  let s := State.reset
  let zero := [0x800, 0x801, 0x802, 0x803, 0x804, 0x805, 0x806, 0xCC0, 0xCC2, 0xCC4, 0xCC5, 0xCC6]
  (∀ a ∈ zero ++ (List.range 32).map (0xCE0 + ·), s.hart.vectorCsr a = some 0#64) ∧
  s.hart.vectorCsr 0xCC1 = some 0x8000000000000000#64 ∧
  (∀ a ∈ [0x5C1, 0x5C2, 0x5C3, 0x5C4, 0x5C5, 0x5C6], readB7Supervisor s a = some 0#64) ∧
  readB7Supervisor s 0x5C0 = some 0xFFFFFFFF#64 ∧ readB7Supervisor s 0x5C7 = some 8#64 ∧
  s.hart.live = false ∧ s.others = [] ∧ s.fullEmpty = [] ∧ s.ready = [] ∧ s.queues = [] ∧ s.copies = [] ∧
  Canonical s ∧ Fits s

/-- Memory, the full-empty and poison bits and the tables of every hart keep their canonical form at every step, and the keys of the harts
and of the cores keep rising. -/
def Obligations.StepKeepsCanonical : Prop := ∀ (s t : State), Canonical s → step s = .next t → Canonical t

/-- R44, R56, R222: at every step the vector type of every hart stays a legal one, and its vl at most its VLMAX. -/
def Obligations.StepKeepsFits : Prop := ∀ (s t : State), Fits s → step s = .next t → Fits t

/-- R68, R69, R257, R259: a step performs what its turn names, on the hart that is selected, where it runs; the full-empty waits whose bit is
set count anew first (R344). The control thread, where no interrupt is taken and it waits for no service,
fetches the word at its pc, and the step is exec of the instruction that the word decodes to; the turn passes on where the thread stays at
its instruction. The vector side performs the entry of its queue, and a round the instruction at which its micro-thread stands. -/
def Obligations.StepRunsDecoded : Prop :=
  ∀ (s : State),
    let s' : State := { ({ s with cycle := s.cycle + 1 } : State).renewWaits with agenda := s.agenda.tail }
    let h := s'.hart
    let passes (r : Result) : Result := match r with
      | .next t => .next (if t.hartId = s.hartId ∧ t.hart.live = true ∧ t.hart.pc ≠ h.pc then t else t.nextHart)
      | other => other
    let moves (r : Result) (p : State → Bool) : Bool := match r with
      | .next t => p t
      | _ => true
    let event : Option Instr := match s.agenda.head? with
      | some (.event i) => some i
      | _ => none
    let chosen : Option Nat := match s.agenda.head? with
      | some (.hart id) => some id
      | _ => none
    (∀ i ∈ event, step s = exec i s') ∧ (∀ id ∈ chosen, step s = .next (s'.select id)) ∧
    (h.live = false → ∀ t ∈ s.agenda.head?, t = .control ∨ t = .vector ∨ (∃ e, t = .part e) → step s = .next s') ∧
    (h.live = true → s.agenda.head? = some .control ∨
        (s.agenda = [] ∧ s.power.on = true ∧ s'.due = none ∧ h.idle = true) →
      h.interrupt? = none → h.parked = false → h.pc.toNat % 4 = 0 →
      (∀ p ∈ s'.codeAt, ∀ i ∈ decodeControl p.1, (h.app = true → appDecodes i = true) → step s = passes (exec i p.2)) ∧
      (h.idle = true → ∀ p ∈ s'.codeAt, decodeControl p.1 = none → h.app = false →
        step s = passes (.next (p.2.takeTrap 2 (p.1.setWidth 64)))) ∧
      (let place : Option Nat := match translate s' s.agent s.fetchSpace .fetch h.pc with
        | .ok pa _ => some pa
        | _ => none
       h.region = none → s.cached h.pc.toNat (codeSpace s.fetchSpace) false = none → ∀ pa ∈ place, s.poisoned pa = false →
        s'.codeAt.map (·.1) = some (BitVec.ofNat 32 (Memory.readNum s.memory pa 4)) ∧
        ∀ p ∈ s'.codeAt, p.2 = { s' with hart := { h with region := p.2.hart.region }, cores := p.2.cores })) ∧
    (s.agenda.head? = some .vector → h.live = true → h.round = none → ∀ e ∈ h.vnext, ∀ i ∈ decodeControl e.word,
      let r := exec i { s' with hart := { h with replay := some e } }
      moves r (fun t => t.hart.movedFrom h) = true → step s = r) ∧
    (s.agenda.head? = some .vector → h.live = true → ∀ r ∈ h.round, r.holding = .no → r.micros.length = 1 → r.groups.length = 1 →
      ∀ m ∈ r.micros, ∀ g ∈ r.groups, m.place = .group g.id → m.ended = .running → m.first = true → g.parked = false → g.limits = [] →
        s.cycle + 1 < g.moved + 4096 →
        ∀ p ∈ g.at m.idx,
          let x := exec p.2 { s' with hart := { h with mt := some { m with idx := p.1 } } }
          moves x (fun t => !stood t m p.1) = true → step s = x)

/-! ## Reductions and scans (R40, R158 to R160) -/

/-- R40, R158, R159: element 0 after VREDO is the combination of its start value with the active elements in element order; after VREDT
that of the start value with their combination over the fixed tree; for every operation, in every format that it accepts, with the flags
that the steps raise. R160: VSCAN writes the prefix combinations of the active elements, with `.ex` those of the elements before, the
first of which is the identity of the operation. SR takes some draw at each step. -/
def Obligations.ReductionValues : Prop :=
  ∀ (s : State) (t : VType) (d a : VName) (op : RedOp) (ex : Bool) (m : Option MName),
    Ready s t → t.groupAt a = true → redAccepts op t.fmt = true → s.hart.vc.vl ≠ 0 →
    let slot (k : Nat) : Option Nat :=
      if decide (k < s.hart.vc.vl) && s.hart.vec.active m k then some (s.element t a k) else none
    let start := s.element t d 0
    let step (draw : BitVec 16) : Nat → Nat → Nat × Flags := opValue t.fmt op (Rounding.ofVrm s.hart.vc.vrm) draw
    let result (u : State) (r : Nat × Flags) : Prop :=
      u.element t d 0 = r.1 % 2 ^ t.sew ∧ u.hart.vc.vxflags = s.hart.vc.vxflags ||| r.2
    (groupsMeet 1 d.val t.mul a.val = false →
      (∃ (u : State) (draw : Nat → BitVec 16), exec (.vredo d a op m) s = .next u ∧
        result u (orderedValue (fun k => step (draw k)) slot start s.hart.vc.vl)) ∧
      (∃ (u : State) (draw : Nat → Nat → BitVec 16) (last : BitVec 16), exec (.vredt d a op m) s = .next u ∧
        result u (match treeValue (fun j i => step (draw j i)) slot 18 0 with
          | none => (start, 0)
          | some c => ((step last start c.1).1, c.2 ||| (step last start c.1).2)))) ∧
    (t.groupAt d = true → t.meet d a = false →
      let signals (x : Nat) : Bool := t.fmt.isFA && (t.fmt.layout.decode x).isSignalling
      let first (x : Nat) : Nat × Flags := if signals x then (t.fmt.layout.canonicalNaN, flagNV) else (t.raw x, 0)
      ∃ (u : State) (draw : Nat → BitVec 16), exec (.vscan d a op ex m) s = .next u ∧
        let upTo (n : Nat) : Option (Nat × Flags) := scanValue first (fun k => step (draw k)) slot n
        (∀ k, k < s.hart.vc.vl → s.hart.vec.active m k = true →
          u.element t d k = (if ex then ((upTo k).map (·.1)).getD (scanIdentity t.fmt op) else ((upTo (k + 1)).map (·.1)).getD 0) %
            2 ^ t.sew) ∧
        u.hart.vc.vxflags = s.hart.vc.vxflags ||| ((upTo s.hart.vc.vl).map (·.2)).getD 0)
end

