-- ==== Sys2Proof/Laws/State.lean ====
section
/-!
SUPPORT. What the updates of a hart and of the state leave alone: one equation for each field and update, true by unfolding.
-/

namespace Sys2Proof.Machine

/-! ## `Hart.setX` -/

@[simp] theorem Hart.setX_live (h : Hart) (r : XReg) (v : Word) : (h.setX r v).live = h.live := by unfold Hart.setX; split <;> rfl
@[simp] theorem Hart.setX_app (h : Hart) (r : XReg) (v : Word) : (h.setX r v).app = h.app := by unfold Hart.setX; split <;> rfl
@[simp] theorem Hart.setX_pc (h : Hart) (r : XReg) (v : Word) : (h.setX r v).pc = h.pc := by unfold Hart.setX; split <;> rfl
@[simp] theorem Hart.setX_mode (h : Hart) (r : XReg) (v : Word) : (h.setX r v).mode = h.mode := by unfold Hart.setX; split <;> rfl
@[simp] theorem Hart.setX_csr (h : Hart) (r : XReg) (v : Word) : (h.setX r v).csr = h.csr := by unfold Hart.setX; split <;> rfl
@[simp] theorem Hart.setX_region (h : Hart) (r : XReg) (v : Word) : (h.setX r v).region = h.region := by unfold Hart.setX; split <;> rfl
@[simp] theorem Hart.setX_facts (h : Hart) (r : XReg) (v : Word) : (h.setX r v).facts = h.facts := by unfold Hart.setX; split <;> rfl
@[simp] theorem Hart.setX_waiting (h : Hart) (r : XReg) (v : Word) : (h.setX r v).waiting = h.waiting := by unfold Hart.setX; split <;> rfl
@[simp] theorem Hart.setX_frozen (h : Hart) (r : XReg) (v : Word) : (h.setX r v).frozen = h.frozen := by unfold Hart.setX; split <;> rfl
@[simp] theorem Hart.setX_freezeReq (h : Hart) (r : XReg) (v : Word) : (h.setX r v).freezeReq = h.freezeReq := by unfold Hart.setX; split <;> rfl
@[simp] theorem Hart.setX_freezeMax (h : Hart) (r : XReg) (v : Word) : (h.setX r v).freezeMax = h.freezeMax := by unfold Hart.setX; split <;> rfl
@[simp] theorem Hart.setX_vec (h : Hart) (r : XReg) (v : Word) : (h.setX r v).vec = h.vec := by unfold Hart.setX; split <;> rfl
@[simp] theorem Hart.setX_vc (h : Hart) (r : XReg) (v : Word) : (h.setX r v).vc = h.vc := by unfold Hart.setX; split <;> rfl
@[simp] theorem Hart.setX_lanes (h : Hart) (r : XReg) (v : Word) : (h.setX r v).lanes = h.lanes := by unfold Hart.setX; split <;> rfl
@[simp] theorem Hart.setX_vq (h : Hart) (r : XReg) (v : Word) : (h.setX r v).vq = h.vq := by unfold Hart.setX; split <;> rfl
@[simp] theorem Hart.setX_mq (h : Hart) (r : XReg) (v : Word) : (h.setX r v).mq = h.mq := by unfold Hart.setX; split <;> rfl
@[simp] theorem Hart.setX_vfault (h : Hart) (r : XReg) (v : Word) : (h.setX r v).vfault = h.vfault := by unfold Hart.setX; split <;> rfl
@[simp] theorem Hart.setX_mfault (h : Hart) (r : XReg) (v : Word) : (h.setX r v).mfault = h.mfault := by unfold Hart.setX; split <;> rfl
@[simp] theorem Hart.setX_vheld (h : Hart) (r : XReg) (v : Word) : (h.setX r v).vheld = h.vheld := by unfold Hart.setX; split <;> rfl
@[simp] theorem Hart.setX_mheld (h : Hart) (r : XReg) (v : Word) : (h.setX r v).mheld = h.mheld := by unfold Hart.setX; split <;> rfl
@[simp] theorem Hart.setX_reported (h : Hart) (r : XReg) (v : Word) : (h.setX r v).reported = h.reported := by unfold Hart.setX; split <;> rfl
@[simp] theorem Hart.setX_sread (h : Hart) (r : XReg) (v : Word) : (h.setX r v).sread = h.sread := by unfold Hart.setX; split <;> rfl
@[simp] theorem Hart.setX_copyTrap (h : Hart) (r : XReg) (v : Word) : (h.setX r v).copyTrap = h.copyTrap := by unfold Hart.setX; split <;> rfl
@[simp] theorem Hart.setX_headWait (h : Hart) (r : XReg) (v : Word) : (h.setX r v).headWait = h.headWait := by unfold Hart.setX; split <;> rfl
@[simp] theorem Hart.setX_seq (h : Hart) (r : XReg) (v : Word) : (h.setX r v).seq = h.seq := by unfold Hart.setX; split <;> rfl
@[simp] theorem Hart.setX_round (h : Hart) (r : XReg) (v : Word) : (h.setX r v).round = h.round := by unfold Hart.setX; split <;> rfl
@[simp] theorem Hart.setX_resume (h : Hart) (r : XReg) (v : Word) : (h.setX r v).resume = h.resume := by unfold Hart.setX; split <;> rfl
@[simp] theorem Hart.setX_links (h : Hart) (r : XReg) (v : Word) : (h.setX r v).links = h.links := by unfold Hart.setX; split <;> rfl
@[simp] theorem Hart.setX_streams (h : Hart) (r : XReg) (v : Word) : (h.setX r v).streams = h.streams := by unfold Hart.setX; split <;> rfl
@[simp] theorem Hart.setX_ixt (h : Hart) (r : XReg) (v : Word) : (h.setX r v).ixt = h.ixt := by unfold Hart.setX; split <;> rfl
@[simp] theorem Hart.setX_arrival (h : Hart) (r : XReg) (v : Word) : (h.setX r v).arrival = h.arrival := by unfold Hart.setX; split <;> rfl
@[simp] theorem Hart.setX_mshape (h : Hart) (r : XReg) (v : Word) : (h.setX r v).mshape = h.mshape := by unfold Hart.setX; split <;> rfl
@[simp] theorem Hart.setX_attachment (h : Hart) (r : XReg) (v : Word) : (h.setX r v).attachment = h.attachment := by unfold Hart.setX; split <;> rfl
@[simp] theorem Hart.setX_chains (h : Hart) (r : XReg) (v : Word) : (h.setX r v).chains = h.chains := by unfold Hart.setX; split <;> rfl
@[simp] theorem Hart.setX_replay (h : Hart) (r : XReg) (v : Word) : (h.setX r v).replay = h.replay := by unfold Hart.setX; split <;> rfl
@[simp] theorem Hart.setX_pause (h : Hart) (r : XReg) (v : Word) : (h.setX r v).pause = h.pause := by unfold Hart.setX; split <;> rfl
@[simp] theorem Hart.setX_mt (h : Hart) (r : XReg) (v : Word) : (h.setX r v).mt = h.mt := by unfold Hart.setX; split <;> rfl

/-! ## `Hart.goTo` -/

@[simp] theorem Hart.goTo_live (h : Hart) (pc : Word) : (h.goTo pc).live = h.live := rfl
@[simp] theorem Hart.goTo_app (h : Hart) (pc : Word) : (h.goTo pc).app = h.app := rfl
@[simp] theorem Hart.goTo_x (h : Hart) (pc : Word) : (h.goTo pc).x = h.x := rfl
@[simp] theorem Hart.goTo_mode (h : Hart) (pc : Word) : (h.goTo pc).mode = h.mode := rfl
@[simp] theorem Hart.goTo_facts (h : Hart) (pc : Word) : (h.goTo pc).facts = h.facts := rfl
@[simp] theorem Hart.goTo_frozen (h : Hart) (pc : Word) : (h.goTo pc).frozen = h.frozen := rfl
@[simp] theorem Hart.goTo_freezeReq (h : Hart) (pc : Word) : (h.goTo pc).freezeReq = h.freezeReq := rfl
@[simp] theorem Hart.goTo_freezeMax (h : Hart) (pc : Word) : (h.goTo pc).freezeMax = h.freezeMax := rfl
@[simp] theorem Hart.goTo_vec (h : Hart) (pc : Word) : (h.goTo pc).vec = h.vec := rfl
@[simp] theorem Hart.goTo_vc (h : Hart) (pc : Word) : (h.goTo pc).vc = h.vc := rfl
@[simp] theorem Hart.goTo_lanes (h : Hart) (pc : Word) : (h.goTo pc).lanes = h.lanes := rfl
@[simp] theorem Hart.goTo_vq (h : Hart) (pc : Word) : (h.goTo pc).vq = h.vq := rfl
@[simp] theorem Hart.goTo_mq (h : Hart) (pc : Word) : (h.goTo pc).mq = h.mq := rfl
@[simp] theorem Hart.goTo_vfault (h : Hart) (pc : Word) : (h.goTo pc).vfault = h.vfault := rfl
@[simp] theorem Hart.goTo_mfault (h : Hart) (pc : Word) : (h.goTo pc).mfault = h.mfault := rfl
@[simp] theorem Hart.goTo_vheld (h : Hart) (pc : Word) : (h.goTo pc).vheld = h.vheld := rfl
@[simp] theorem Hart.goTo_mheld (h : Hart) (pc : Word) : (h.goTo pc).mheld = h.mheld := rfl
@[simp] theorem Hart.goTo_reported (h : Hart) (pc : Word) : (h.goTo pc).reported = h.reported := rfl
@[simp] theorem Hart.goTo_sread (h : Hart) (pc : Word) : (h.goTo pc).sread = h.sread := rfl
@[simp] theorem Hart.goTo_copyTrap (h : Hart) (pc : Word) : (h.goTo pc).copyTrap = h.copyTrap := rfl
@[simp] theorem Hart.goTo_headWait (h : Hart) (pc : Word) : (h.goTo pc).headWait = h.headWait := rfl
@[simp] theorem Hart.goTo_seq (h : Hart) (pc : Word) : (h.goTo pc).seq = h.seq := rfl
@[simp] theorem Hart.goTo_round (h : Hart) (pc : Word) : (h.goTo pc).round = h.round := rfl
@[simp] theorem Hart.goTo_resume (h : Hart) (pc : Word) : (h.goTo pc).resume = h.resume := rfl
@[simp] theorem Hart.goTo_links (h : Hart) (pc : Word) : (h.goTo pc).links = h.links := rfl
@[simp] theorem Hart.goTo_streams (h : Hart) (pc : Word) : (h.goTo pc).streams = h.streams := rfl
@[simp] theorem Hart.goTo_ixt (h : Hart) (pc : Word) : (h.goTo pc).ixt = h.ixt := rfl
@[simp] theorem Hart.goTo_arrival (h : Hart) (pc : Word) : (h.goTo pc).arrival = h.arrival := rfl
@[simp] theorem Hart.goTo_mshape (h : Hart) (pc : Word) : (h.goTo pc).mshape = h.mshape := rfl
@[simp] theorem Hart.goTo_attachment (h : Hart) (pc : Word) : (h.goTo pc).attachment = h.attachment := rfl
@[simp] theorem Hart.goTo_chains (h : Hart) (pc : Word) : (h.goTo pc).chains = h.chains := rfl
@[simp] theorem Hart.goTo_replay (h : Hart) (pc : Word) : (h.goTo pc).replay = h.replay := rfl
@[simp] theorem Hart.goTo_pause (h : Hart) (pc : Word) : (h.goTo pc).pause = h.pause := rfl
@[simp] theorem Hart.goTo_mt (h : Hart) (pc : Word) : (h.goTo pc).mt = h.mt := rfl
@[simp] theorem Hart.goTo_pc (h : Hart) (pc : Word) : (h.goTo pc).pc = pc := rfl
@[simp] theorem Hart.goTo_csr_mstatus (h : Hart) (pc : Word) : (h.goTo pc).csr.mstatus = h.csr.mstatus := by unfold Hart.goTo; dsimp only; split <;> rfl
@[simp] theorem Hart.goTo_csr_medeleg (h : Hart) (pc : Word) : (h.goTo pc).csr.medeleg = h.csr.medeleg := by unfold Hart.goTo; dsimp only; split <;> rfl
@[simp] theorem Hart.goTo_csr_mideleg (h : Hart) (pc : Word) : (h.goTo pc).csr.mideleg = h.csr.mideleg := by unfold Hart.goTo; dsimp only; split <;> rfl
@[simp] theorem Hart.goTo_csr_mie (h : Hart) (pc : Word) : (h.goTo pc).csr.mie = h.csr.mie := by unfold Hart.goTo; dsimp only; split <;> rfl
@[simp] theorem Hart.goTo_csr_mip (h : Hart) (pc : Word) : (h.goTo pc).csr.mip = h.csr.mip := by unfold Hart.goTo; dsimp only; split <;> rfl
@[simp] theorem Hart.goTo_csr_mtvec (h : Hart) (pc : Word) : (h.goTo pc).csr.mtvec = h.csr.mtvec := by unfold Hart.goTo; dsimp only; split <;> rfl
@[simp] theorem Hart.goTo_csr_mscratch (h : Hart) (pc : Word) : (h.goTo pc).csr.mscratch = h.csr.mscratch := by unfold Hart.goTo; dsimp only; split <;> rfl
@[simp] theorem Hart.goTo_csr_mepc (h : Hart) (pc : Word) : (h.goTo pc).csr.mepc = h.csr.mepc := by unfold Hart.goTo; dsimp only; split <;> rfl
@[simp] theorem Hart.goTo_csr_mcause (h : Hart) (pc : Word) : (h.goTo pc).csr.mcause = h.csr.mcause := by unfold Hart.goTo; dsimp only; split <;> rfl
@[simp] theorem Hart.goTo_csr_mtval (h : Hart) (pc : Word) : (h.goTo pc).csr.mtval = h.csr.mtval := by unfold Hart.goTo; dsimp only; split <;> rfl
@[simp] theorem Hart.goTo_csr_mcounteren (h : Hart) (pc : Word) : (h.goTo pc).csr.mcounteren = h.csr.mcounteren := by unfold Hart.goTo; dsimp only; split <;> rfl
@[simp] theorem Hart.goTo_csr_mcountinhibit (h : Hart) (pc : Word) : (h.goTo pc).csr.mcountinhibit = h.csr.mcountinhibit := by unfold Hart.goTo; dsimp only; split <;> rfl
@[simp] theorem Hart.goTo_csr_menvcfg (h : Hart) (pc : Word) : (h.goTo pc).csr.menvcfg = h.csr.menvcfg := by unfold Hart.goTo; dsimp only; split <;> rfl
@[simp] theorem Hart.goTo_csr_mcycle (h : Hart) (pc : Word) : (h.goTo pc).csr.mcycle = h.csr.mcycle := by unfold Hart.goTo; dsimp only; split <;> rfl
@[simp] theorem Hart.goTo_csr_stvec (h : Hart) (pc : Word) : (h.goTo pc).csr.stvec = h.csr.stvec := by unfold Hart.goTo; dsimp only; split <;> rfl
@[simp] theorem Hart.goTo_csr_sscratch (h : Hart) (pc : Word) : (h.goTo pc).csr.sscratch = h.csr.sscratch := by unfold Hart.goTo; dsimp only; split <;> rfl
@[simp] theorem Hart.goTo_csr_sepc (h : Hart) (pc : Word) : (h.goTo pc).csr.sepc = h.csr.sepc := by unfold Hart.goTo; dsimp only; split <;> rfl
@[simp] theorem Hart.goTo_csr_scause (h : Hart) (pc : Word) : (h.goTo pc).csr.scause = h.csr.scause := by unfold Hart.goTo; dsimp only; split <;> rfl
@[simp] theorem Hart.goTo_csr_stval (h : Hart) (pc : Word) : (h.goTo pc).csr.stval = h.csr.stval := by unfold Hart.goTo; dsimp only; split <;> rfl
@[simp] theorem Hart.goTo_csr_satp (h : Hart) (pc : Word) : (h.goTo pc).csr.satp = h.csr.satp := by unfold Hart.goTo; dsimp only; split <;> rfl
@[simp] theorem Hart.goTo_csr_scounteren (h : Hart) (pc : Word) : (h.goTo pc).csr.scounteren = h.csr.scounteren := by unfold Hart.goTo; dsimp only; split <;> rfl
@[simp] theorem Hart.goTo_csr_senvcfg (h : Hart) (pc : Word) : (h.goTo pc).csr.senvcfg = h.csr.senvcfg := by unfold Hart.goTo; dsimp only; split <;> rfl
@[simp] theorem Hart.goTo_csr_svtrap0 (h : Hart) (pc : Word) : (h.goTo pc).csr.svtrap0 = h.csr.svtrap0 := by unfold Hart.goTo; dsimp only; split <;> rfl
@[simp] theorem Hart.goTo_csr_svtrap1 (h : Hart) (pc : Word) : (h.goTo pc).csr.svtrap1 = h.csr.svtrap1 := by unfold Hart.goTo; dsimp only; split <;> rfl
@[simp] theorem Hart.goTo_csr_svtrap2 (h : Hart) (pc : Word) : (h.goTo pc).csr.svtrap2 = h.csr.svtrap2 := by unfold Hart.goTo; dsimp only; split <;> rfl
@[simp] theorem Hart.goTo_csr_svtrap3 (h : Hart) (pc : Word) : (h.goTo pc).csr.svtrap3 = h.csr.svtrap3 := by unfold Hart.goTo; dsimp only; split <;> rfl
@[simp] theorem Hart.goTo_csr_sctxbase (h : Hart) (pc : Word) : (h.goTo pc).csr.sctxbase = h.csr.sctxbase := by unfold Hart.goTo; dsimp only; split <;> rfl
@[simp] theorem Hart.goTo_csr_swindow (h : Hart) (pc : Word) : (h.goTo pc).csr.swindow = h.csr.swindow := by unfold Hart.goTo; dsimp only; split <;> rfl

/-! ## `Hart.accrue` -/

@[simp] theorem Hart.accrue_live (h : Hart) (f : Flags) : (h.accrue f).live = h.live := rfl
@[simp] theorem Hart.accrue_app (h : Hart) (f : Flags) : (h.accrue f).app = h.app := rfl
@[simp] theorem Hart.accrue_x (h : Hart) (f : Flags) : (h.accrue f).x = h.x := rfl
@[simp] theorem Hart.accrue_pc (h : Hart) (f : Flags) : (h.accrue f).pc = h.pc := rfl
@[simp] theorem Hart.accrue_mode (h : Hart) (f : Flags) : (h.accrue f).mode = h.mode := rfl
@[simp] theorem Hart.accrue_csr (h : Hart) (f : Flags) : (h.accrue f).csr = h.csr := rfl
@[simp] theorem Hart.accrue_region (h : Hart) (f : Flags) : (h.accrue f).region = h.region := rfl
@[simp] theorem Hart.accrue_facts (h : Hart) (f : Flags) : (h.accrue f).facts = h.facts := rfl
@[simp] theorem Hart.accrue_waiting (h : Hart) (f : Flags) : (h.accrue f).waiting = h.waiting := rfl
@[simp] theorem Hart.accrue_frozen (h : Hart) (f : Flags) : (h.accrue f).frozen = h.frozen := rfl
@[simp] theorem Hart.accrue_freezeReq (h : Hart) (f : Flags) : (h.accrue f).freezeReq = h.freezeReq := rfl
@[simp] theorem Hart.accrue_freezeMax (h : Hart) (f : Flags) : (h.accrue f).freezeMax = h.freezeMax := rfl
@[simp] theorem Hart.accrue_vec (h : Hart) (f : Flags) : (h.accrue f).vec = h.vec := rfl
@[simp] theorem Hart.accrue_lanes (h : Hart) (f : Flags) : (h.accrue f).lanes = h.lanes := rfl
@[simp] theorem Hart.accrue_vq (h : Hart) (f : Flags) : (h.accrue f).vq = h.vq := rfl
@[simp] theorem Hart.accrue_mq (h : Hart) (f : Flags) : (h.accrue f).mq = h.mq := rfl
@[simp] theorem Hart.accrue_vfault (h : Hart) (f : Flags) : (h.accrue f).vfault = h.vfault := rfl
@[simp] theorem Hart.accrue_mfault (h : Hart) (f : Flags) : (h.accrue f).mfault = h.mfault := rfl
@[simp] theorem Hart.accrue_vheld (h : Hart) (f : Flags) : (h.accrue f).vheld = h.vheld := rfl
@[simp] theorem Hart.accrue_mheld (h : Hart) (f : Flags) : (h.accrue f).mheld = h.mheld := rfl
@[simp] theorem Hart.accrue_reported (h : Hart) (f : Flags) : (h.accrue f).reported = h.reported := rfl
@[simp] theorem Hart.accrue_sread (h : Hart) (f : Flags) : (h.accrue f).sread = h.sread := rfl
@[simp] theorem Hart.accrue_copyTrap (h : Hart) (f : Flags) : (h.accrue f).copyTrap = h.copyTrap := rfl
@[simp] theorem Hart.accrue_headWait (h : Hart) (f : Flags) : (h.accrue f).headWait = h.headWait := rfl
@[simp] theorem Hart.accrue_seq (h : Hart) (f : Flags) : (h.accrue f).seq = h.seq := rfl
@[simp] theorem Hart.accrue_round (h : Hart) (f : Flags) : (h.accrue f).round = h.round := rfl
@[simp] theorem Hart.accrue_resume (h : Hart) (f : Flags) : (h.accrue f).resume = h.resume := rfl
@[simp] theorem Hart.accrue_links (h : Hart) (f : Flags) : (h.accrue f).links = h.links := rfl
@[simp] theorem Hart.accrue_streams (h : Hart) (f : Flags) : (h.accrue f).streams = h.streams := rfl
@[simp] theorem Hart.accrue_ixt (h : Hart) (f : Flags) : (h.accrue f).ixt = h.ixt := rfl
@[simp] theorem Hart.accrue_arrival (h : Hart) (f : Flags) : (h.accrue f).arrival = h.arrival := rfl
@[simp] theorem Hart.accrue_mshape (h : Hart) (f : Flags) : (h.accrue f).mshape = h.mshape := rfl
@[simp] theorem Hart.accrue_attachment (h : Hart) (f : Flags) : (h.accrue f).attachment = h.attachment := rfl
@[simp] theorem Hart.accrue_chains (h : Hart) (f : Flags) : (h.accrue f).chains = h.chains := rfl
@[simp] theorem Hart.accrue_replay (h : Hart) (f : Flags) : (h.accrue f).replay = h.replay := rfl
@[simp] theorem Hart.accrue_pause (h : Hart) (f : Flags) : (h.accrue f).pause = h.pause := rfl
@[simp] theorem Hart.accrue_mt (h : Hart) (f : Flags) : (h.accrue f).mt = h.mt := rfl
@[simp] theorem Hart.accrue_vc_vstart (h : Hart) (f : Flags) : (h.accrue f).vc.vstart = h.vc.vstart := rfl
@[simp] theorem Hart.accrue_vc_vrm (h : Hart) (f : Flags) : (h.accrue f).vc.vrm = h.vc.vrm := rfl
@[simp] theorem Hart.accrue_vc_vseed (h : Hart) (f : Flags) : (h.accrue f).vc.vseed = h.vc.vseed := rfl
@[simp] theorem Hart.accrue_vc_vlinkin (h : Hart) (f : Flags) : (h.accrue f).vc.vlinkin = h.vc.vlinkin := rfl
@[simp] theorem Hart.accrue_vc_vlinkout (h : Hart) (f : Flags) : (h.accrue f).vc.vlinkout = h.vc.vlinkout := rfl
@[simp] theorem Hart.accrue_vc_vstrip (h : Hart) (f : Flags) : (h.accrue f).vc.vstrip = h.vc.vstrip := rfl
@[simp] theorem Hart.accrue_vc_vtype (h : Hart) (f : Flags) : (h.accrue f).vc.vtype = h.vc.vtype := rfl
@[simp] theorem Hart.accrue_vc_vl (h : Hart) (f : Flags) : (h.accrue f).vc.vl = h.vc.vl := rfl
@[simp] theorem Hart.accrue_vc_vlmax (h : Hart) (f : Flags) : (h.accrue f).vc.vlmax = h.vc.vlmax := rfl
@[simp] theorem Hart.accrue_vc_shrunk (h : Hart) (f : Flags) : (h.accrue f).vc.shrunk = h.vc.shrunk := rfl
@[simp] theorem Hart.accrue_vc_pwr (h : Hart) (f : Flags) : (h.accrue f).vc.pwr = h.vc.pwr := rfl
@[simp] theorem Hart.accrue_vc_ceil (h : Hart) (f : Flags) : (h.accrue f).vc.ceil = h.vc.ceil := rfl
@[simp] theorem Hart.accrue_vc_seqDone (h : Hart) (f : Flags) : (h.accrue f).vc.seqDone = h.vc.seqDone := rfl
@[simp] theorem Hart.accrue_vc_strip (h : Hart) (f : Flags) : (h.accrue f).vc.strip = h.vc.strip := rfl

/-! ## `Hart.unbind` and `Hart.wrote` -/

@[simp] theorem Hart.unbind_live (h : Hart) (set : BitVec 32) : (h.unbind set).live = h.live := rfl
@[simp] theorem Hart.unbind_app (h : Hart) (set : BitVec 32) : (h.unbind set).app = h.app := rfl
@[simp] theorem Hart.unbind_x (h : Hart) (set : BitVec 32) : (h.unbind set).x = h.x := rfl
@[simp] theorem Hart.unbind_pc (h : Hart) (set : BitVec 32) : (h.unbind set).pc = h.pc := rfl
@[simp] theorem Hart.unbind_mode (h : Hart) (set : BitVec 32) : (h.unbind set).mode = h.mode := rfl
@[simp] theorem Hart.unbind_csr (h : Hart) (set : BitVec 32) : (h.unbind set).csr = h.csr := rfl
@[simp] theorem Hart.unbind_region (h : Hart) (set : BitVec 32) : (h.unbind set).region = h.region := rfl
@[simp] theorem Hart.unbind_facts (h : Hart) (set : BitVec 32) : (h.unbind set).facts = h.facts := rfl
@[simp] theorem Hart.unbind_waiting (h : Hart) (set : BitVec 32) : (h.unbind set).waiting = h.waiting := rfl
@[simp] theorem Hart.unbind_frozen (h : Hart) (set : BitVec 32) : (h.unbind set).frozen = h.frozen := rfl
@[simp] theorem Hart.unbind_freezeReq (h : Hart) (set : BitVec 32) : (h.unbind set).freezeReq = h.freezeReq := rfl
@[simp] theorem Hart.unbind_freezeMax (h : Hart) (set : BitVec 32) : (h.unbind set).freezeMax = h.freezeMax := rfl
@[simp] theorem Hart.unbind_vec (h : Hart) (set : BitVec 32) : (h.unbind set).vec = h.vec := rfl
@[simp] theorem Hart.unbind_vc (h : Hart) (set : BitVec 32) : (h.unbind set).vc = h.vc := rfl
@[simp] theorem Hart.unbind_lanes (h : Hart) (set : BitVec 32) : (h.unbind set).lanes = h.lanes := rfl
@[simp] theorem Hart.unbind_vq (h : Hart) (set : BitVec 32) : (h.unbind set).vq = h.vq := rfl
@[simp] theorem Hart.unbind_mq (h : Hart) (set : BitVec 32) : (h.unbind set).mq = h.mq := rfl
@[simp] theorem Hart.unbind_vfault (h : Hart) (set : BitVec 32) : (h.unbind set).vfault = h.vfault := rfl
@[simp] theorem Hart.unbind_mfault (h : Hart) (set : BitVec 32) : (h.unbind set).mfault = h.mfault := rfl
@[simp] theorem Hart.unbind_vheld (h : Hart) (set : BitVec 32) : (h.unbind set).vheld = h.vheld := rfl
@[simp] theorem Hart.unbind_mheld (h : Hart) (set : BitVec 32) : (h.unbind set).mheld = h.mheld := rfl
@[simp] theorem Hart.unbind_reported (h : Hart) (set : BitVec 32) : (h.unbind set).reported = h.reported := rfl
@[simp] theorem Hart.unbind_sread (h : Hart) (set : BitVec 32) : (h.unbind set).sread = h.sread := rfl
@[simp] theorem Hart.unbind_copyTrap (h : Hart) (set : BitVec 32) : (h.unbind set).copyTrap = h.copyTrap := rfl
@[simp] theorem Hart.unbind_headWait (h : Hart) (set : BitVec 32) : (h.unbind set).headWait = h.headWait := rfl
@[simp] theorem Hart.unbind_seq (h : Hart) (set : BitVec 32) : (h.unbind set).seq = h.seq := rfl
@[simp] theorem Hart.unbind_round (h : Hart) (set : BitVec 32) : (h.unbind set).round = h.round := rfl
@[simp] theorem Hart.unbind_resume (h : Hart) (set : BitVec 32) : (h.unbind set).resume = h.resume := rfl
@[simp] theorem Hart.unbind_links (h : Hart) (set : BitVec 32) : (h.unbind set).links = h.links := rfl
@[simp] theorem Hart.unbind_ixt (h : Hart) (set : BitVec 32) : (h.unbind set).ixt = h.ixt := rfl
@[simp] theorem Hart.unbind_arrival (h : Hart) (set : BitVec 32) : (h.unbind set).arrival = h.arrival := rfl
@[simp] theorem Hart.unbind_mshape (h : Hart) (set : BitVec 32) : (h.unbind set).mshape = h.mshape := rfl
@[simp] theorem Hart.unbind_attachment (h : Hart) (set : BitVec 32) : (h.unbind set).attachment = h.attachment := rfl
@[simp] theorem Hart.unbind_chains (h : Hart) (set : BitVec 32) : (h.unbind set).chains = h.chains := rfl
@[simp] theorem Hart.unbind_replay (h : Hart) (set : BitVec 32) : (h.unbind set).replay = h.replay := rfl
@[simp] theorem Hart.unbind_pause (h : Hart) (set : BitVec 32) : (h.unbind set).pause = h.pause := rfl
@[simp] theorem Hart.unbind_mt (h : Hart) (set : BitVec 32) : (h.unbind set).mt = h.mt := rfl
@[simp] theorem Hart.wrote_live (h : Hart) (vlen : Nat) (set : BitVec 32) : (h.wrote vlen set).live = h.live := rfl
@[simp] theorem Hart.wrote_app (h : Hart) (vlen : Nat) (set : BitVec 32) : (h.wrote vlen set).app = h.app := rfl
@[simp] theorem Hart.wrote_x (h : Hart) (vlen : Nat) (set : BitVec 32) : (h.wrote vlen set).x = h.x := rfl
@[simp] theorem Hart.wrote_pc (h : Hart) (vlen : Nat) (set : BitVec 32) : (h.wrote vlen set).pc = h.pc := rfl
@[simp] theorem Hart.wrote_mode (h : Hart) (vlen : Nat) (set : BitVec 32) : (h.wrote vlen set).mode = h.mode := rfl
@[simp] theorem Hart.wrote_csr (h : Hart) (vlen : Nat) (set : BitVec 32) : (h.wrote vlen set).csr = h.csr := rfl
@[simp] theorem Hart.wrote_region (h : Hart) (vlen : Nat) (set : BitVec 32) : (h.wrote vlen set).region = h.region := rfl
@[simp] theorem Hart.wrote_facts (h : Hart) (vlen : Nat) (set : BitVec 32) : (h.wrote vlen set).facts = h.facts := rfl
@[simp] theorem Hart.wrote_waiting (h : Hart) (vlen : Nat) (set : BitVec 32) : (h.wrote vlen set).waiting = h.waiting := rfl
@[simp] theorem Hart.wrote_frozen (h : Hart) (vlen : Nat) (set : BitVec 32) : (h.wrote vlen set).frozen = h.frozen := rfl
@[simp] theorem Hart.wrote_freezeReq (h : Hart) (vlen : Nat) (set : BitVec 32) : (h.wrote vlen set).freezeReq = h.freezeReq := rfl
@[simp] theorem Hart.wrote_freezeMax (h : Hart) (vlen : Nat) (set : BitVec 32) : (h.wrote vlen set).freezeMax = h.freezeMax := rfl
@[simp] theorem Hart.wrote_vc (h : Hart) (vlen : Nat) (set : BitVec 32) : (h.wrote vlen set).vc = h.vc := rfl
@[simp] theorem Hart.wrote_lanes (h : Hart) (vlen : Nat) (set : BitVec 32) : (h.wrote vlen set).lanes = h.lanes := rfl
@[simp] theorem Hart.wrote_vq (h : Hart) (vlen : Nat) (set : BitVec 32) : (h.wrote vlen set).vq = h.vq := rfl
@[simp] theorem Hart.wrote_mq (h : Hart) (vlen : Nat) (set : BitVec 32) : (h.wrote vlen set).mq = h.mq := rfl
@[simp] theorem Hart.wrote_vfault (h : Hart) (vlen : Nat) (set : BitVec 32) : (h.wrote vlen set).vfault = h.vfault := rfl
@[simp] theorem Hart.wrote_mfault (h : Hart) (vlen : Nat) (set : BitVec 32) : (h.wrote vlen set).mfault = h.mfault := rfl
@[simp] theorem Hart.wrote_vheld (h : Hart) (vlen : Nat) (set : BitVec 32) : (h.wrote vlen set).vheld = h.vheld := rfl
@[simp] theorem Hart.wrote_mheld (h : Hart) (vlen : Nat) (set : BitVec 32) : (h.wrote vlen set).mheld = h.mheld := rfl
@[simp] theorem Hart.wrote_reported (h : Hart) (vlen : Nat) (set : BitVec 32) : (h.wrote vlen set).reported = h.reported := rfl
@[simp] theorem Hart.wrote_sread (h : Hart) (vlen : Nat) (set : BitVec 32) : (h.wrote vlen set).sread = h.sread := rfl
@[simp] theorem Hart.wrote_copyTrap (h : Hart) (vlen : Nat) (set : BitVec 32) : (h.wrote vlen set).copyTrap = h.copyTrap := rfl
@[simp] theorem Hart.wrote_headWait (h : Hart) (vlen : Nat) (set : BitVec 32) : (h.wrote vlen set).headWait = h.headWait := rfl
@[simp] theorem Hart.wrote_seq (h : Hart) (vlen : Nat) (set : BitVec 32) : (h.wrote vlen set).seq = h.seq := rfl
@[simp] theorem Hart.wrote_round (h : Hart) (vlen : Nat) (set : BitVec 32) : (h.wrote vlen set).round = h.round := rfl
@[simp] theorem Hart.wrote_resume (h : Hart) (vlen : Nat) (set : BitVec 32) : (h.wrote vlen set).resume = h.resume := rfl
@[simp] theorem Hart.wrote_links (h : Hart) (vlen : Nat) (set : BitVec 32) : (h.wrote vlen set).links = h.links := rfl
@[simp] theorem Hart.wrote_ixt (h : Hart) (vlen : Nat) (set : BitVec 32) : (h.wrote vlen set).ixt = h.ixt := rfl
@[simp] theorem Hart.wrote_arrival (h : Hart) (vlen : Nat) (set : BitVec 32) : (h.wrote vlen set).arrival = h.arrival := rfl
@[simp] theorem Hart.wrote_mshape (h : Hart) (vlen : Nat) (set : BitVec 32) : (h.wrote vlen set).mshape = h.mshape := rfl
@[simp] theorem Hart.wrote_attachment (h : Hart) (vlen : Nat) (set : BitVec 32) : (h.wrote vlen set).attachment = h.attachment := rfl
@[simp] theorem Hart.wrote_chains (h : Hart) (vlen : Nat) (set : BitVec 32) : (h.wrote vlen set).chains = h.chains := rfl
@[simp] theorem Hart.wrote_replay (h : Hart) (vlen : Nat) (set : BitVec 32) : (h.wrote vlen set).replay = h.replay := rfl
@[simp] theorem Hart.wrote_pause (h : Hart) (vlen : Nat) (set : BitVec 32) : (h.wrote vlen set).pause = h.pause := rfl
@[simp] theorem Hart.wrote_mt (h : Hart) (vlen : Nat) (set : BitVec 32) : (h.wrote vlen set).mt = h.mt := rfl

/-! ## `State.setX` -/

@[simp] theorem State.setX_hartId (s : State) (r : XReg) (v : Word) : (s.setX r v).hartId = s.hartId := rfl
@[simp] theorem State.setX_others (s : State) (r : XReg) (v : Word) : (s.setX r v).others = s.others := rfl
@[simp] theorem State.setX_agenda (s : State) (r : XReg) (v : Word) : (s.setX r v).agenda = s.agenda := rfl
@[simp] theorem State.setX_cycle (s : State) (r : XReg) (v : Word) : (s.setX r v).cycle = s.cycle := rfl
@[simp] theorem State.setX_free (s : State) (r : XReg) (v : Word) : (s.setX r v).free = s.free := rfl
@[simp] theorem State.setX_memory (s : State) (r : XReg) (v : Word) : (s.setX r v).memory = s.memory := rfl
@[simp] theorem State.setX_reservations (s : State) (r : XReg) (v : Word) : (s.setX r v).reservations = s.reservations := rfl
@[simp] theorem State.setX_fullEmpty (s : State) (r : XReg) (v : Word) : (s.setX r v).fullEmpty = s.fullEmpty := rfl
@[simp] theorem State.setX_poison (s : State) (r : XReg) (v : Word) : (s.setX r v).poison = s.poison := rfl
@[simp] theorem State.setX_bigMemory (s : State) (r : XReg) (v : Word) : (s.setX r v).bigMemory = s.bigMemory := rfl
@[simp] theorem State.setX_cores (s : State) (r : XReg) (v : Word) : (s.setX r v).cores = s.cores := rfl
@[simp] theorem State.setX_squalls (s : State) (r : XReg) (v : Word) : (s.setX r v).squalls = s.squalls := rfl
@[simp] theorem State.setX_copies (s : State) (r : XReg) (v : Word) : (s.setX r v).copies = s.copies := rfl
@[simp] theorem State.setX_nextCopy (s : State) (r : XReg) (v : Word) : (s.setX r v).nextCopy = s.nextCopy := rfl
@[simp] theorem State.setX_queues (s : State) (r : XReg) (v : Word) : (s.setX r v).queues = s.queues := rfl
@[simp] theorem State.setX_lastQueue (s : State) (r : XReg) (v : Word) : (s.setX r v).lastQueue = s.lastQueue := rfl
@[simp] theorem State.setX_launches (s : State) (r : XReg) (v : Word) : (s.setX r v).launches = s.launches := rfl
@[simp] theorem State.setX_nextLaunch (s : State) (r : XReg) (v : Word) : (s.setX r v).nextLaunch = s.nextLaunch := rfl
@[simp] theorem State.setX_astbase (s : State) (r : XReg) (v : Word) : (s.setX r v).astbase = s.astbase := rfl
@[simp] theorem State.setX_services (s : State) (r : XReg) (v : Word) : (s.setX r v).services = s.services := rfl
@[simp] theorem State.setX_migrations (s : State) (r : XReg) (v : Word) : (s.setX r v).migrations = s.migrations := rfl
@[simp] theorem State.setX_remote (s : State) (r : XReg) (v : Word) : (s.setX r v).remote = s.remote := rfl
@[simp] theorem State.setX_links (s : State) (r : XReg) (v : Word) : (s.setX r v).links = s.links := rfl
@[simp] theorem State.setX_log (s : State) (r : XReg) (v : Word) : (s.setX r v).log = s.log := rfl
@[simp] theorem State.setX_ready (s : State) (r : XReg) (v : Word) : (s.setX r v).ready = s.ready := rfl
@[simp] theorem State.setX_lifeRam (s : State) (r : XReg) (v : Word) : (s.setX r v).lifeRam = s.lifeRam := rfl
@[simp] theorem State.setX_lifeFlash (s : State) (r : XReg) (v : Word) : (s.setX r v).lifeFlash = s.lifeFlash := rfl
@[simp] theorem State.setX_measurements (s : State) (r : XReg) (v : Word) : (s.setX r v).measurements = s.measurements := rfl
@[simp] theorem State.setX_power (s : State) (r : XReg) (v : Word) : (s.setX r v).power = s.power := rfl
@[simp] theorem State.setX_reports (s : State) (r : XReg) (v : Word) : (s.setX r v).reports = s.reports := rfl
@[simp] theorem State.setX_appInterrupts (s : State) (r : XReg) (v : Word) : (s.setX r v).appInterrupts = s.appInterrupts := rfl
@[simp] theorem State.setX_interruptFiles (s : State) (r : XReg) (v : Word) : (s.setX r v).interruptFiles = s.interruptFiles := rfl

/-! ## `State.advance` -/

@[simp] theorem State.advance_hartId (s : State) : s.advance.hartId = s.hartId := rfl
@[simp] theorem State.advance_others (s : State) : s.advance.others = s.others := rfl
@[simp] theorem State.advance_agenda (s : State) : s.advance.agenda = s.agenda := rfl
@[simp] theorem State.advance_cycle (s : State) : s.advance.cycle = s.cycle := rfl
@[simp] theorem State.advance_free (s : State) : s.advance.free = s.free := rfl
@[simp] theorem State.advance_memory (s : State) : s.advance.memory = s.memory := rfl
@[simp] theorem State.advance_reservations (s : State) : s.advance.reservations = s.reservations := rfl
@[simp] theorem State.advance_fullEmpty (s : State) : s.advance.fullEmpty = s.fullEmpty := rfl
@[simp] theorem State.advance_poison (s : State) : s.advance.poison = s.poison := rfl
@[simp] theorem State.advance_bigMemory (s : State) : s.advance.bigMemory = s.bigMemory := rfl
@[simp] theorem State.advance_cores (s : State) : s.advance.cores = s.cores := rfl
@[simp] theorem State.advance_squalls (s : State) : s.advance.squalls = s.squalls := rfl
@[simp] theorem State.advance_copies (s : State) : s.advance.copies = s.copies := rfl
@[simp] theorem State.advance_nextCopy (s : State) : s.advance.nextCopy = s.nextCopy := rfl
@[simp] theorem State.advance_queues (s : State) : s.advance.queues = s.queues := rfl
@[simp] theorem State.advance_lastQueue (s : State) : s.advance.lastQueue = s.lastQueue := rfl
@[simp] theorem State.advance_launches (s : State) : s.advance.launches = s.launches := rfl
@[simp] theorem State.advance_nextLaunch (s : State) : s.advance.nextLaunch = s.nextLaunch := rfl
@[simp] theorem State.advance_astbase (s : State) : s.advance.astbase = s.astbase := rfl
@[simp] theorem State.advance_services (s : State) : s.advance.services = s.services := rfl
@[simp] theorem State.advance_migrations (s : State) : s.advance.migrations = s.migrations := rfl
@[simp] theorem State.advance_remote (s : State) : s.advance.remote = s.remote := rfl
@[simp] theorem State.advance_links (s : State) : s.advance.links = s.links := rfl
@[simp] theorem State.advance_log (s : State) : s.advance.log = s.log := rfl
@[simp] theorem State.advance_ready (s : State) : s.advance.ready = s.ready := rfl
@[simp] theorem State.advance_lifeRam (s : State) : s.advance.lifeRam = s.lifeRam := rfl
@[simp] theorem State.advance_lifeFlash (s : State) : s.advance.lifeFlash = s.lifeFlash := rfl
@[simp] theorem State.advance_measurements (s : State) : s.advance.measurements = s.measurements := rfl
@[simp] theorem State.advance_power (s : State) : s.advance.power = s.power := rfl
@[simp] theorem State.advance_reports (s : State) : s.advance.reports = s.reports := rfl
@[simp] theorem State.advance_appInterrupts (s : State) : s.advance.appInterrupts = s.appInterrupts := rfl
@[simp] theorem State.advance_interruptFiles (s : State) : s.advance.interruptFiles = s.interruptFiles := rfl

/-! ## `State.setVec` -/

@[simp] theorem State.setVec_hartId (s : State) (f : VecFile) : (s.setVec f).hartId = s.hartId := rfl
@[simp] theorem State.setVec_others (s : State) (f : VecFile) : (s.setVec f).others = s.others := rfl
@[simp] theorem State.setVec_agenda (s : State) (f : VecFile) : (s.setVec f).agenda = s.agenda := rfl
@[simp] theorem State.setVec_cycle (s : State) (f : VecFile) : (s.setVec f).cycle = s.cycle := rfl
@[simp] theorem State.setVec_free (s : State) (f : VecFile) : (s.setVec f).free = s.free := rfl
@[simp] theorem State.setVec_memory (s : State) (f : VecFile) : (s.setVec f).memory = s.memory := rfl
@[simp] theorem State.setVec_reservations (s : State) (f : VecFile) : (s.setVec f).reservations = s.reservations := rfl
@[simp] theorem State.setVec_fullEmpty (s : State) (f : VecFile) : (s.setVec f).fullEmpty = s.fullEmpty := rfl
@[simp] theorem State.setVec_poison (s : State) (f : VecFile) : (s.setVec f).poison = s.poison := rfl
@[simp] theorem State.setVec_bigMemory (s : State) (f : VecFile) : (s.setVec f).bigMemory = s.bigMemory := rfl
@[simp] theorem State.setVec_cores (s : State) (f : VecFile) : (s.setVec f).cores = s.cores := rfl
@[simp] theorem State.setVec_squalls (s : State) (f : VecFile) : (s.setVec f).squalls = s.squalls := rfl
@[simp] theorem State.setVec_copies (s : State) (f : VecFile) : (s.setVec f).copies = s.copies := rfl
@[simp] theorem State.setVec_nextCopy (s : State) (f : VecFile) : (s.setVec f).nextCopy = s.nextCopy := rfl
@[simp] theorem State.setVec_queues (s : State) (f : VecFile) : (s.setVec f).queues = s.queues := rfl
@[simp] theorem State.setVec_lastQueue (s : State) (f : VecFile) : (s.setVec f).lastQueue = s.lastQueue := rfl
@[simp] theorem State.setVec_launches (s : State) (f : VecFile) : (s.setVec f).launches = s.launches := rfl
@[simp] theorem State.setVec_nextLaunch (s : State) (f : VecFile) : (s.setVec f).nextLaunch = s.nextLaunch := rfl
@[simp] theorem State.setVec_astbase (s : State) (f : VecFile) : (s.setVec f).astbase = s.astbase := rfl
@[simp] theorem State.setVec_services (s : State) (f : VecFile) : (s.setVec f).services = s.services := rfl
@[simp] theorem State.setVec_migrations (s : State) (f : VecFile) : (s.setVec f).migrations = s.migrations := rfl
@[simp] theorem State.setVec_remote (s : State) (f : VecFile) : (s.setVec f).remote = s.remote := rfl
@[simp] theorem State.setVec_links (s : State) (f : VecFile) : (s.setVec f).links = s.links := rfl
@[simp] theorem State.setVec_log (s : State) (f : VecFile) : (s.setVec f).log = s.log := rfl
@[simp] theorem State.setVec_ready (s : State) (f : VecFile) : (s.setVec f).ready = s.ready := rfl
@[simp] theorem State.setVec_lifeRam (s : State) (f : VecFile) : (s.setVec f).lifeRam = s.lifeRam := rfl
@[simp] theorem State.setVec_lifeFlash (s : State) (f : VecFile) : (s.setVec f).lifeFlash = s.lifeFlash := rfl
@[simp] theorem State.setVec_measurements (s : State) (f : VecFile) : (s.setVec f).measurements = s.measurements := rfl
@[simp] theorem State.setVec_power (s : State) (f : VecFile) : (s.setVec f).power = s.power := rfl
@[simp] theorem State.setVec_reports (s : State) (f : VecFile) : (s.setVec f).reports = s.reports := rfl
@[simp] theorem State.setVec_appInterrupts (s : State) (f : VecFile) : (s.setVec f).appInterrupts = s.appInterrupts := rfl
@[simp] theorem State.setVec_interruptFiles (s : State) (f : VecFile) : (s.setVec f).interruptFiles = s.interruptFiles := rfl

/-! ## `State.accrue` -/

@[simp] theorem State.accrue_hartId (s : State) (f : Flags) : (s.accrue f).hartId = s.hartId := rfl
@[simp] theorem State.accrue_others (s : State) (f : Flags) : (s.accrue f).others = s.others := rfl
@[simp] theorem State.accrue_agenda (s : State) (f : Flags) : (s.accrue f).agenda = s.agenda := rfl
@[simp] theorem State.accrue_cycle (s : State) (f : Flags) : (s.accrue f).cycle = s.cycle := rfl
@[simp] theorem State.accrue_free (s : State) (f : Flags) : (s.accrue f).free = s.free := rfl
@[simp] theorem State.accrue_memory (s : State) (f : Flags) : (s.accrue f).memory = s.memory := rfl
@[simp] theorem State.accrue_reservations (s : State) (f : Flags) : (s.accrue f).reservations = s.reservations := rfl
@[simp] theorem State.accrue_fullEmpty (s : State) (f : Flags) : (s.accrue f).fullEmpty = s.fullEmpty := rfl
@[simp] theorem State.accrue_poison (s : State) (f : Flags) : (s.accrue f).poison = s.poison := rfl
@[simp] theorem State.accrue_bigMemory (s : State) (f : Flags) : (s.accrue f).bigMemory = s.bigMemory := rfl
@[simp] theorem State.accrue_cores (s : State) (f : Flags) : (s.accrue f).cores = s.cores := rfl
@[simp] theorem State.accrue_squalls (s : State) (f : Flags) : (s.accrue f).squalls = s.squalls := rfl
@[simp] theorem State.accrue_copies (s : State) (f : Flags) : (s.accrue f).copies = s.copies := rfl
@[simp] theorem State.accrue_nextCopy (s : State) (f : Flags) : (s.accrue f).nextCopy = s.nextCopy := rfl
@[simp] theorem State.accrue_queues (s : State) (f : Flags) : (s.accrue f).queues = s.queues := rfl
@[simp] theorem State.accrue_lastQueue (s : State) (f : Flags) : (s.accrue f).lastQueue = s.lastQueue := rfl
@[simp] theorem State.accrue_launches (s : State) (f : Flags) : (s.accrue f).launches = s.launches := rfl
@[simp] theorem State.accrue_nextLaunch (s : State) (f : Flags) : (s.accrue f).nextLaunch = s.nextLaunch := rfl
@[simp] theorem State.accrue_astbase (s : State) (f : Flags) : (s.accrue f).astbase = s.astbase := rfl
@[simp] theorem State.accrue_services (s : State) (f : Flags) : (s.accrue f).services = s.services := rfl
@[simp] theorem State.accrue_migrations (s : State) (f : Flags) : (s.accrue f).migrations = s.migrations := rfl
@[simp] theorem State.accrue_remote (s : State) (f : Flags) : (s.accrue f).remote = s.remote := rfl
@[simp] theorem State.accrue_links (s : State) (f : Flags) : (s.accrue f).links = s.links := rfl
@[simp] theorem State.accrue_log (s : State) (f : Flags) : (s.accrue f).log = s.log := rfl
@[simp] theorem State.accrue_ready (s : State) (f : Flags) : (s.accrue f).ready = s.ready := rfl
@[simp] theorem State.accrue_lifeRam (s : State) (f : Flags) : (s.accrue f).lifeRam = s.lifeRam := rfl
@[simp] theorem State.accrue_lifeFlash (s : State) (f : Flags) : (s.accrue f).lifeFlash = s.lifeFlash := rfl
@[simp] theorem State.accrue_measurements (s : State) (f : Flags) : (s.accrue f).measurements = s.measurements := rfl
@[simp] theorem State.accrue_power (s : State) (f : Flags) : (s.accrue f).power = s.power := rfl
@[simp] theorem State.accrue_reports (s : State) (f : Flags) : (s.accrue f).reports = s.reports := rfl
@[simp] theorem State.accrue_appInterrupts (s : State) (f : Flags) : (s.accrue f).appInterrupts = s.appInterrupts := rfl
@[simp] theorem State.accrue_interruptFiles (s : State) (f : Flags) : (s.accrue f).interruptFiles = s.interruptFiles := rfl

/-! ## `State.wrote` -/

@[simp] theorem State.wrote_hartId (s : State) (vlen : Nat) (set : BitVec 32) : (s.wrote vlen set).hartId = s.hartId := rfl
@[simp] theorem State.wrote_others (s : State) (vlen : Nat) (set : BitVec 32) : (s.wrote vlen set).others = s.others := rfl
@[simp] theorem State.wrote_agenda (s : State) (vlen : Nat) (set : BitVec 32) : (s.wrote vlen set).agenda = s.agenda := rfl
@[simp] theorem State.wrote_cycle (s : State) (vlen : Nat) (set : BitVec 32) : (s.wrote vlen set).cycle = s.cycle := rfl
@[simp] theorem State.wrote_free (s : State) (vlen : Nat) (set : BitVec 32) : (s.wrote vlen set).free = s.free := rfl
@[simp] theorem State.wrote_memory (s : State) (vlen : Nat) (set : BitVec 32) : (s.wrote vlen set).memory = s.memory := rfl
@[simp] theorem State.wrote_reservations (s : State) (vlen : Nat) (set : BitVec 32) : (s.wrote vlen set).reservations = s.reservations := rfl
@[simp] theorem State.wrote_fullEmpty (s : State) (vlen : Nat) (set : BitVec 32) : (s.wrote vlen set).fullEmpty = s.fullEmpty := rfl
@[simp] theorem State.wrote_poison (s : State) (vlen : Nat) (set : BitVec 32) : (s.wrote vlen set).poison = s.poison := rfl
@[simp] theorem State.wrote_bigMemory (s : State) (vlen : Nat) (set : BitVec 32) : (s.wrote vlen set).bigMemory = s.bigMemory := rfl
@[simp] theorem State.wrote_cores (s : State) (vlen : Nat) (set : BitVec 32) : (s.wrote vlen set).cores = s.cores := rfl
@[simp] theorem State.wrote_squalls (s : State) (vlen : Nat) (set : BitVec 32) : (s.wrote vlen set).squalls = s.squalls := rfl
@[simp] theorem State.wrote_copies (s : State) (vlen : Nat) (set : BitVec 32) : (s.wrote vlen set).copies = s.copies := rfl
@[simp] theorem State.wrote_nextCopy (s : State) (vlen : Nat) (set : BitVec 32) : (s.wrote vlen set).nextCopy = s.nextCopy := rfl
@[simp] theorem State.wrote_queues (s : State) (vlen : Nat) (set : BitVec 32) : (s.wrote vlen set).queues = s.queues := rfl
@[simp] theorem State.wrote_lastQueue (s : State) (vlen : Nat) (set : BitVec 32) : (s.wrote vlen set).lastQueue = s.lastQueue := rfl
@[simp] theorem State.wrote_launches (s : State) (vlen : Nat) (set : BitVec 32) : (s.wrote vlen set).launches = s.launches := rfl
@[simp] theorem State.wrote_nextLaunch (s : State) (vlen : Nat) (set : BitVec 32) : (s.wrote vlen set).nextLaunch = s.nextLaunch := rfl
@[simp] theorem State.wrote_astbase (s : State) (vlen : Nat) (set : BitVec 32) : (s.wrote vlen set).astbase = s.astbase := rfl
@[simp] theorem State.wrote_services (s : State) (vlen : Nat) (set : BitVec 32) : (s.wrote vlen set).services = s.services := rfl
@[simp] theorem State.wrote_migrations (s : State) (vlen : Nat) (set : BitVec 32) : (s.wrote vlen set).migrations = s.migrations := rfl
@[simp] theorem State.wrote_remote (s : State) (vlen : Nat) (set : BitVec 32) : (s.wrote vlen set).remote = s.remote := rfl
@[simp] theorem State.wrote_links (s : State) (vlen : Nat) (set : BitVec 32) : (s.wrote vlen set).links = s.links := rfl
@[simp] theorem State.wrote_log (s : State) (vlen : Nat) (set : BitVec 32) : (s.wrote vlen set).log = s.log := rfl
@[simp] theorem State.wrote_ready (s : State) (vlen : Nat) (set : BitVec 32) : (s.wrote vlen set).ready = s.ready := rfl
@[simp] theorem State.wrote_lifeRam (s : State) (vlen : Nat) (set : BitVec 32) : (s.wrote vlen set).lifeRam = s.lifeRam := rfl
@[simp] theorem State.wrote_lifeFlash (s : State) (vlen : Nat) (set : BitVec 32) : (s.wrote vlen set).lifeFlash = s.lifeFlash := rfl
@[simp] theorem State.wrote_measurements (s : State) (vlen : Nat) (set : BitVec 32) : (s.wrote vlen set).measurements = s.measurements := rfl
@[simp] theorem State.wrote_power (s : State) (vlen : Nat) (set : BitVec 32) : (s.wrote vlen set).power = s.power := rfl
@[simp] theorem State.wrote_reports (s : State) (vlen : Nat) (set : BitVec 32) : (s.wrote vlen set).reports = s.reports := rfl
@[simp] theorem State.wrote_appInterrupts (s : State) (vlen : Nat) (set : BitVec 32) : (s.wrote vlen set).appInterrupts = s.appInterrupts := rfl
@[simp] theorem State.wrote_interruptFiles (s : State) (vlen : Nat) (set : BitVec 32) : (s.wrote vlen set).interruptFiles = s.interruptFiles := rfl

/-! ## `State.issued` -/

@[simp] theorem State.issued_hartId (s : State) (a b : Bool) : (s.issued a b).hartId = s.hartId := rfl
@[simp] theorem State.issued_others (s : State) (a b : Bool) : (s.issued a b).others = s.others := rfl
@[simp] theorem State.issued_agenda (s : State) (a b : Bool) : (s.issued a b).agenda = s.agenda := rfl
@[simp] theorem State.issued_cycle (s : State) (a b : Bool) : (s.issued a b).cycle = s.cycle := rfl
@[simp] theorem State.issued_free (s : State) (a b : Bool) : (s.issued a b).free = s.free := rfl
@[simp] theorem State.issued_memory (s : State) (a b : Bool) : (s.issued a b).memory = s.memory := rfl
@[simp] theorem State.issued_reservations (s : State) (a b : Bool) : (s.issued a b).reservations = s.reservations := rfl
@[simp] theorem State.issued_fullEmpty (s : State) (a b : Bool) : (s.issued a b).fullEmpty = s.fullEmpty := rfl
@[simp] theorem State.issued_poison (s : State) (a b : Bool) : (s.issued a b).poison = s.poison := rfl
@[simp] theorem State.issued_bigMemory (s : State) (a b : Bool) : (s.issued a b).bigMemory = s.bigMemory := rfl
@[simp] theorem State.issued_cores (s : State) (a b : Bool) : (s.issued a b).cores = s.cores := rfl
@[simp] theorem State.issued_squalls (s : State) (a b : Bool) : (s.issued a b).squalls = s.squalls := rfl
@[simp] theorem State.issued_copies (s : State) (a b : Bool) : (s.issued a b).copies = s.copies := rfl
@[simp] theorem State.issued_nextCopy (s : State) (a b : Bool) : (s.issued a b).nextCopy = s.nextCopy := rfl
@[simp] theorem State.issued_queues (s : State) (a b : Bool) : (s.issued a b).queues = s.queues := rfl
@[simp] theorem State.issued_lastQueue (s : State) (a b : Bool) : (s.issued a b).lastQueue = s.lastQueue := rfl
@[simp] theorem State.issued_launches (s : State) (a b : Bool) : (s.issued a b).launches = s.launches := rfl
@[simp] theorem State.issued_nextLaunch (s : State) (a b : Bool) : (s.issued a b).nextLaunch = s.nextLaunch := rfl
@[simp] theorem State.issued_astbase (s : State) (a b : Bool) : (s.issued a b).astbase = s.astbase := rfl
@[simp] theorem State.issued_services (s : State) (a b : Bool) : (s.issued a b).services = s.services := rfl
@[simp] theorem State.issued_migrations (s : State) (a b : Bool) : (s.issued a b).migrations = s.migrations := rfl
@[simp] theorem State.issued_remote (s : State) (a b : Bool) : (s.issued a b).remote = s.remote := rfl
@[simp] theorem State.issued_links (s : State) (a b : Bool) : (s.issued a b).links = s.links := rfl
@[simp] theorem State.issued_log (s : State) (a b : Bool) : (s.issued a b).log = s.log := rfl
@[simp] theorem State.issued_ready (s : State) (a b : Bool) : (s.issued a b).ready = s.ready := rfl
@[simp] theorem State.issued_lifeRam (s : State) (a b : Bool) : (s.issued a b).lifeRam = s.lifeRam := rfl
@[simp] theorem State.issued_lifeFlash (s : State) (a b : Bool) : (s.issued a b).lifeFlash = s.lifeFlash := rfl
@[simp] theorem State.issued_measurements (s : State) (a b : Bool) : (s.issued a b).measurements = s.measurements := rfl
@[simp] theorem State.issued_power (s : State) (a b : Bool) : (s.issued a b).power = s.power := rfl
@[simp] theorem State.issued_reports (s : State) (a b : Bool) : (s.issued a b).reports = s.reports := rfl
@[simp] theorem State.issued_appInterrupts (s : State) (a b : Bool) : (s.issued a b).appInterrupts = s.appInterrupts := rfl
@[simp] theorem State.issued_interruptFiles (s : State) (a b : Bool) : (s.issued a b).interruptFiles = s.interruptFiles := rfl
@[simp] theorem State.setVec_hart_vec (s : State) (f : VecFile) : (s.setVec f).hart.vec = f := rfl
@[simp] theorem State.setVec_hart_live (s : State) (f : VecFile) : (s.setVec f).hart.live = s.hart.live := rfl
@[simp] theorem State.setVec_hart_app (s : State) (f : VecFile) : (s.setVec f).hart.app = s.hart.app := rfl
@[simp] theorem State.setVec_hart_x (s : State) (f : VecFile) : (s.setVec f).hart.x = s.hart.x := rfl
@[simp] theorem State.setVec_hart_pc (s : State) (f : VecFile) : (s.setVec f).hart.pc = s.hart.pc := rfl
@[simp] theorem State.setVec_hart_mode (s : State) (f : VecFile) : (s.setVec f).hart.mode = s.hart.mode := rfl
@[simp] theorem State.setVec_hart_csr (s : State) (f : VecFile) : (s.setVec f).hart.csr = s.hart.csr := rfl
@[simp] theorem State.setVec_hart_region (s : State) (f : VecFile) : (s.setVec f).hart.region = s.hart.region := rfl
@[simp] theorem State.setVec_hart_facts (s : State) (f : VecFile) : (s.setVec f).hart.facts = s.hart.facts := rfl
@[simp] theorem State.setVec_hart_waiting (s : State) (f : VecFile) : (s.setVec f).hart.waiting = s.hart.waiting := rfl
@[simp] theorem State.setVec_hart_frozen (s : State) (f : VecFile) : (s.setVec f).hart.frozen = s.hart.frozen := rfl
@[simp] theorem State.setVec_hart_freezeReq (s : State) (f : VecFile) : (s.setVec f).hart.freezeReq = s.hart.freezeReq := rfl
@[simp] theorem State.setVec_hart_freezeMax (s : State) (f : VecFile) : (s.setVec f).hart.freezeMax = s.hart.freezeMax := rfl
@[simp] theorem State.setVec_hart_vc (s : State) (f : VecFile) : (s.setVec f).hart.vc = s.hart.vc := rfl
@[simp] theorem State.setVec_hart_lanes (s : State) (f : VecFile) : (s.setVec f).hart.lanes = s.hart.lanes := rfl
@[simp] theorem State.setVec_hart_vq (s : State) (f : VecFile) : (s.setVec f).hart.vq = s.hart.vq := rfl
@[simp] theorem State.setVec_hart_mq (s : State) (f : VecFile) : (s.setVec f).hart.mq = s.hart.mq := rfl
@[simp] theorem State.setVec_hart_vfault (s : State) (f : VecFile) : (s.setVec f).hart.vfault = s.hart.vfault := rfl
@[simp] theorem State.setVec_hart_mfault (s : State) (f : VecFile) : (s.setVec f).hart.mfault = s.hart.mfault := rfl
@[simp] theorem State.setVec_hart_vheld (s : State) (f : VecFile) : (s.setVec f).hart.vheld = s.hart.vheld := rfl
@[simp] theorem State.setVec_hart_mheld (s : State) (f : VecFile) : (s.setVec f).hart.mheld = s.hart.mheld := rfl
@[simp] theorem State.setVec_hart_reported (s : State) (f : VecFile) : (s.setVec f).hart.reported = s.hart.reported := rfl
@[simp] theorem State.setVec_hart_sread (s : State) (f : VecFile) : (s.setVec f).hart.sread = s.hart.sread := rfl
@[simp] theorem State.setVec_hart_copyTrap (s : State) (f : VecFile) : (s.setVec f).hart.copyTrap = s.hart.copyTrap := rfl
@[simp] theorem State.setVec_hart_headWait (s : State) (f : VecFile) : (s.setVec f).hart.headWait = s.hart.headWait := rfl
@[simp] theorem State.setVec_hart_seq (s : State) (f : VecFile) : (s.setVec f).hart.seq = s.hart.seq := rfl
@[simp] theorem State.setVec_hart_round (s : State) (f : VecFile) : (s.setVec f).hart.round = s.hart.round := rfl
@[simp] theorem State.setVec_hart_resume (s : State) (f : VecFile) : (s.setVec f).hart.resume = s.hart.resume := rfl
@[simp] theorem State.setVec_hart_links (s : State) (f : VecFile) : (s.setVec f).hart.links = s.hart.links := rfl
@[simp] theorem State.setVec_hart_streams (s : State) (f : VecFile) : (s.setVec f).hart.streams = s.hart.streams := rfl
@[simp] theorem State.setVec_hart_ixt (s : State) (f : VecFile) : (s.setVec f).hart.ixt = s.hart.ixt := rfl
@[simp] theorem State.setVec_hart_arrival (s : State) (f : VecFile) : (s.setVec f).hart.arrival = s.hart.arrival := rfl
@[simp] theorem State.setVec_hart_mshape (s : State) (f : VecFile) : (s.setVec f).hart.mshape = s.hart.mshape := rfl
@[simp] theorem State.setVec_hart_attachment (s : State) (f : VecFile) : (s.setVec f).hart.attachment = s.hart.attachment := rfl
@[simp] theorem State.setVec_hart_chains (s : State) (f : VecFile) : (s.setVec f).hart.chains = s.hart.chains := rfl
@[simp] theorem State.setVec_hart_replay (s : State) (f : VecFile) : (s.setVec f).hart.replay = s.hart.replay := rfl
@[simp] theorem State.setVec_hart_pause (s : State) (f : VecFile) : (s.setVec f).hart.pause = s.hart.pause := rfl
@[simp] theorem State.setVec_hart_mt (s : State) (f : VecFile) : (s.setVec f).hart.mt = s.hart.mt := rfl
@[simp] theorem State.accrue_hart (s : State) (f : Flags) : (s.accrue f).hart = s.hart.accrue f := rfl
@[simp] theorem State.wrote_hart (s : State) (vlen : Nat) (set : BitVec 32) : (s.wrote vlen set).hart = s.hart.wrote vlen set := rfl
@[simp] theorem State.setX_hart (s : State) (r : XReg) (v : Word) : (s.setX r v).hart = s.hart.setX r v := rfl
@[simp] theorem State.advance_hart (s : State) : s.advance.hart = s.hart.goTo (s.hart.pc + 4#64) := rfl

end Sys2Proof.Machine
end

