-- ==== Sys2Proof/Laws/Queue.lean ====
section
/-!
SUPPORT. What issuing a queued instruction does when nothing stands before it, and how what its performance changes shows in the
state after it.
-/

namespace Sys2Proof.Machine

/-- The state in which a queued instruction is performed at once: its entry is in its queue, and the pc has moved past it. -/
def State.entered (s : State) (i : Instr) (c : Cap) (q : QClass) : State :=
  { s with hart := (s.hart.push q (s.hart.entry i c q)).goTo (s.hart.pc + 4#64) }

/-- An idle hart holds nothing. -/
theorem Hart.idle_iff (h : Hart) : h.idle = true ↔
    h.replay = none ∧ h.vq = [] ∧ h.mq = [] ∧ h.vfault = none ∧ h.mfault = none ∧ h.vheld = false ∧ h.mheld = false ∧
    h.round = none ∧ h.resume = [] ∧ h.sread = none ∧ h.headWait = none ∧ h.chains = [] ∧ h.lanes.resizes = [] ∧
    h.pause = none := by
  simp [Hart.idle, and_assoc]

/-- No register that an entry reads is poisoned in a clean file. -/
theorem Hart.poisonedRead_clean (h : Hart) (e : QEntry) (hc : h.vec.clean = true) : h.poisonedRead e = none := by
  simp only [VecFile.clean, Bool.and_eq_true, beq_iff_eq, List.isEmpty_iff] at hc
  obtain ⟨⟨⟨⟨h1, h2⟩, h3⟩, h4⟩, -⟩ := hc
  have hn (n : Nat) : (List.range n).find? (fun _ => false) = none := by simp
  simp [Hart.poisonedRead, VecFile.poisonedRead, h1, h2, h3, h4, hn]

/-- An entry of an idle hart is performed as it is issued. -/
theorem Hart.quiet_idle (h : Hart) (q : QClass) (e : QEntry) (hi : h.idle = true) : h.quiet q e = true := by
  rw [Hart.idle_iff] at hi
  obtain ⟨-, h2, h3, h4, h5, h6, h7, h8, h9, -, -, h12, h13, -⟩ := hi
  unfold Hart.quiet
  split
  · simp [Hart.mready, Hart.vectorBefore, Hart.resizeBefore, Hart.vwork, h2, h3, h5, h7, h8, h9, h13]
  · simp [Hart.vready, Hart.resizeBefore, Hart.vwork, h2, h3, h4, h6, h8, h12, h13, Store.get]

/-- An entry that reads no poisoned register is performed. -/
theorem perform_clean (e : QEntry) (act : QEntry → State → VecRes) (s : State) (hc : s.hart.vec.clean = true) :
    perform e act s = act e s ∧ poisonCheck e act s = act e s := by
  have h : poisonCheck e act s = act e s := by simp [poisonCheck, Hart.poisonedRead_clean _ _ hc]
  refine ⟨?_, h⟩
  unfold perform
  split
  · rfl
  · exact h

/-- ISSUE on an idle hart: a legal instruction is performed at once on its entry. -/
theorem issue_idle (s : State) (i : Instr) (q : QClass) (c : Cap) (act : QEntry → State → VecRes)
    (hi : s.hart.idle = true) (hc : s.hart.vec.clean = true) :
    issue s i true q c act = settle q (s.hart.entry i c q) (act (s.hart.entry i c q) (s.entered i c q)) := by
  have hq := Hart.quiet_idle s.hart q (s.hart.entry i c q) hi
  rw [Hart.idle_iff] at hi
  obtain ⟨h1, h2, h3, -, -, h6, h7, -⟩ := hi
  have hf : s.hart.full q = false := by cases q <;> simp [Hart.full, QClass.inMatrix, h2, h3]
  have hp : (s.entered i c q).hart.vec = s.hart.vec := by
    unfold State.entered Hart.push
    cases q <;> rfl
  unfold issue
  rw [h1]
  simp only [Hart.held, h6, h7, Bool.or_false, Bool.not_true, hf, hq, if_true, Bool.false_eq_true, if_false]
  show settle q _ (perform _ act (s.entered i c q)) = _
  rw [(perform_clean _ _ _ (hp ▸ hc)).1]

/-- Only data has changed from a state to itself. -/
theorem OnlyData.refl (s : State) : OnlyData s s := rfl

/-- Changes of data one after another are changes of data. -/
theorem OnlyData.trans {s t u : State} (h1 : OnlyData s t) (h2 : OnlyData t u) : OnlyData s u := by
  unfold OnlyData at *
  rw [h1] at h2
  exact h2

/-- What has changed, where only data has. -/
theorem OnlyData.exists {u t : State} (h : OnlyData u t) : ∃ vec fl ixt st fr m r fe p,
    t = { u with
      hart := { u.hart with vec := vec, vc := { u.hart.vc with vxflags := fl }, ixt := ixt, streams := st }
      free := fr, memory := m, reservations := r, fullEmpty := fe, poison := p } :=
  ⟨_, _, _, _, _, _, _, _, _, h⟩

/-- A vector instruction that has been performed and changed data alone completes: its slot, its count and `vstart` are as R59, R63 and
R254 say, and the data is what it made of it. -/
theorem settle_vector (s : State) (i : Instr) (c : Cap) (t : State) (hi : s.hart.idle = true)
    (ht : OnlyData (s.entered i c .vector) t) :
    ∃ u, settle .vector (s.hart.entry i c .vector) (.ok t) = .next u ∧ OnlyData s.done u ∧
      (∃ p, u.hart.vec = { t.hart.vec with progress := p }) ∧ u.hart.vc.vxflags = t.hart.vc.vxflags ∧ u.hart.ixt = t.hart.ixt ∧
      u.hart.streams = t.hart.streams ∧ u.free = t.free ∧ u.memory = t.memory ∧ u.reservations = t.reservations ∧
      u.fullEmpty = t.fullEmpty ∧ u.poison = t.poison := by
  rw [Hart.idle_iff] at hi
  obtain ⟨h1, h2, h3, h4, h5, h6, h7, h8, h9, h10, h11, h12, h13, h14⟩ := hi
  obtain ⟨vec, fl, ixt, st, fr, m, r, fe, p, rfl⟩ := ht.exists
  refine ⟨_, rfl, ?_, ⟨_, rfl⟩, rfl, rfl, rfl, rfl, rfl, rfl, rfl, rfl⟩
  have hr : retireEntry [s.hart.entry i c .vector] (s.hart.entry i c .vector).seq = [] := by simp [retireEntry]
  unfold OnlyData
  simp [QClass.inMatrix, Hart.retire, QClass.usesStart, State.entered, Hart.push, State.issued, Hart.goTo, h1, h2, h10, h11, h14, hr]

end Sys2Proof.Machine
end

