-- ==== Sys2Proof/Laws/Store.lean ====
section
/-!
SUPPORT. Laws of tables, of memory, and of the slots of registers: a read after a write gives the value written, a write leaves every
other place alone, and the canonical form is kept.
-/

namespace Sys2Proof.Machine

/-! ## Tables -/

/-- A write leaves every other key alone. -/
theorem Store.get_put_ne {α : Type} [DecidableEq α] (dflt : α) (m : List (Nat × α)) (key key' : Nat) (v : α) (h : key' ≠ key) :
    Store.get dflt (Store.put dflt m key v) key' = Store.get dflt m key' := by
  induction m with
  | nil => by_cases hv : v = dflt <;> simp [Store.put, Store.get, hv, Ne.symm h]
  | cons p rest ih =>
    obtain ⟨k, w⟩ := p
    unfold Store.put
    by_cases h1 : key < k
    · by_cases hv : v = dflt <;> simp [h1, hv, Store.get, Ne.symm h]
    · by_cases h2 : key = k
      · subst h2
        by_cases hv : v = dflt <;> simp [hv, Store.get, Ne.symm h]
      · simp [h1, h2, Store.get, ih]

/-- A table whose keys rise from above a key does not list it. -/
theorem Store.get_of_wfFrom {α : Type} [DecidableEq α] (dflt : α) (m : List (Nat × α)) (lo key : Nat)
    (h : Store.wfFrom dflt lo m = true) (hk : key < lo) : Store.get dflt m key = dflt := by
  induction m generalizing lo with
  | nil => rfl
  | cons p rest ih =>
    obtain ⟨k, w⟩ := p
    simp only [Store.wfFrom, Bool.and_eq_true, decide_eq_true_eq] at h
    have : k ≠ key := by omega
    simp only [Store.get, this, if_false]
    exact ih (k + 1) h.2 (by omega)

/-- A weaker bound keeps the canonical form. -/
theorem Store.wfFrom_mono {α : Type} [DecidableEq α] (dflt : α) (m : List (Nat × α)) (lo lo' : Nat)
    (h : Store.wfFrom dflt lo m = true) (hl : lo' ≤ lo) : Store.wfFrom dflt lo' m = true := by
  cases m with
  | nil => rfl
  | cons p rest =>
    simp only [Store.wfFrom, Bool.and_eq_true, decide_eq_true_eq] at h ⊢
    exact ⟨⟨by omega, h.1.2⟩, h.2⟩

/-- A read after a write of the same key gives the value written. -/
theorem Store.get_put_same {α : Type} [DecidableEq α] (dflt : α) (m : List (Nat × α)) (lo key : Nat) (v : α)
    (h : Store.wfFrom dflt lo m = true) : Store.get dflt (Store.put dflt m key v) key = v := by
  induction m generalizing lo with
  | nil => by_cases hv : v = dflt <;> simp [Store.put, Store.get, hv]
  | cons p rest ih =>
    obtain ⟨k, w⟩ := p
    simp only [Store.wfFrom, Bool.and_eq_true, decide_eq_true_eq] at h
    unfold Store.put
    by_cases h1 : key < k
    · by_cases hv : v = dflt
      · have hk : k ≠ key := by omega
        simp only [h1, hv, if_true, Store.get, hk, if_false]
        exact Store.get_of_wfFrom dflt rest (k + 1) key h.2 (by omega)
      · simp [h1, hv, Store.get]
    · by_cases h2 : key = k
      · by_cases hv : v = dflt
        · subst h2
          simp only [Nat.lt_irrefl, hv, if_true, if_false]
          exact Store.get_of_wfFrom dflt rest (key + 1) key h.2 (by omega)
        · simp [h2, hv, Store.get]
      · have hk : k ≠ key := fun e => h2 e.symm
        simp only [h1, h2, if_false, Store.get, hk]
        exact ih (k + 1) h.2

/-- A write keeps the canonical form. -/
theorem Store.wfFrom_put {α : Type} [DecidableEq α] (dflt : α) (m : List (Nat × α)) (lo key : Nat) (v : α)
    (h : Store.wfFrom dflt lo m = true) (hk : lo ≤ key) : Store.wfFrom dflt lo (Store.put dflt m key v) = true := by
  induction m generalizing lo with
  | nil => by_cases hv : v = dflt <;> simp [Store.put, Store.wfFrom, hv, hk]
  | cons p rest ih =>
    obtain ⟨k, w⟩ := p
    have h' := h
    simp only [Store.wfFrom, Bool.and_eq_true, decide_eq_true_eq] at h
    unfold Store.put
    by_cases h1 : key < k
    · by_cases hv : v = dflt
      · simp [h1, hv, h']
      · simp only [h1, hv, if_true, if_false, Store.wfFrom, Bool.and_eq_true, decide_eq_true_eq]
        exact ⟨⟨hk, hv⟩, ⟨by omega, h.1.2⟩, h.2⟩
    · by_cases h2 : key = k
      · subst h2
        by_cases hv : v = dflt
        · simp only [Nat.lt_irrefl, hv, if_true, if_false]
          exact Store.wfFrom_mono dflt rest (key + 1) lo h.2 (by omega)
        · simp only [Nat.lt_irrefl, hv, if_true, if_false, Store.wfFrom, Bool.and_eq_true, decide_eq_true_eq]
          exact ⟨⟨hk, hv⟩, h.2⟩
      · simp only [h1, h2, if_false, Store.wfFrom, Bool.and_eq_true, decide_eq_true_eq]
        exact ⟨h.1, ih (k + 1) h.2 (by omega)⟩

/-- A write keeps the canonical form of a table. -/
theorem Store.wf_put {α : Type} [DecidableEq α] (dflt : α) (m : List (Nat × α)) (key : Nat) (v : α)
    (h : Store.wf dflt m = true) : Store.wf dflt (Store.put dflt m key v) = true :=
  Store.wfFrom_put dflt m 0 key v h (Nat.zero_le _)

/-- A table without some of its entries keeps the canonical form. -/
theorem Store.wfFrom_filter {α : Type} [DecidableEq α] (dflt : α) (m : List (Nat × α)) (lo : Nat) (p : Nat × α → Bool)
    (h : Store.wfFrom dflt lo m = true) : Store.wfFrom dflt lo (m.filter p) = true := by
  induction m generalizing lo with
  | nil => rfl
  | cons e rest ih =>
    have h' := h
    simp only [Store.wfFrom, Bool.and_eq_true, decide_eq_true_eq] at h
    rw [List.filter_cons]
    split
    · simp only [Store.wfFrom, Bool.and_eq_true, decide_eq_true_eq]
      exact ⟨h.1, ih _ h.2⟩
    · exact Store.wfFrom_mono dflt _ (e.1 + 1) lo (ih _ h.2) (by omega)

/-- A table without some of its entries keeps the canonical form. -/
theorem Store.wf_filter {α : Type} [DecidableEq α] (dflt : α) (m : List (Nat × α)) (p : Nat × α → Bool)
    (h : Store.wf dflt m = true) : Store.wf dflt (m.filter p) = true := Store.wfFrom_filter dflt m 0 p h

/-- A table without the entries of a key reads as the default there, and elsewhere as it did. -/
theorem Store.get_filter_key {α : Type} (dflt : α) (m : List (Nat × α)) (k key : Nat) :
    Store.get dflt (m.filter fun p => p.1 != k) key = if key = k then dflt else Store.get dflt m key := by
  induction m with
  | nil => simp [Store.get]
  | cons p rest ih =>
    obtain ⟨j, w⟩ := p
    by_cases hj : j = k
    · subst hj
      simp only [List.filter_cons, bne_self_eq_false, Bool.false_eq_true, if_false, ih, Store.get]
      by_cases hk : key = j
      · simp [hk]
      · simp [hk, Ne.symm hk]
    · have hb : (j != k) = true := by simp [hj]
      simp only [List.filter_cons, hb, if_true, Store.get, ih]
      by_cases hk : j = key
      · subst hk; simp [hj]
      · simp [hk]

/-- A change of every value changes what each key reads as. -/
theorem Store.get_map {α : Type} [DecidableEq α] (dflt : α) (f : α → α) (m : List (Nat × α)) (key : Nat) (h : f dflt = dflt) :
    Store.get dflt (Store.map dflt f m) key = f (Store.get dflt m key) := by
  induction m with
  | nil => simp [Store.map, Store.get, h]
  | cons p rest ih =>
    obtain ⟨k, v⟩ := p
    simp only [Store.map, Store.get]
    by_cases hk : k = key
    · subst hk
      by_cases hv : f v = dflt
      · simp [hv, Store.get_filter_key]
      · simp [hv, Store.get]
    · by_cases hv : f v = dflt
      · simp [hv, hk, Store.get_filter_key, Ne.symm hk, ih]
      · simp [hv, hk, Store.get, Store.get_filter_key, Ne.symm hk, ih]

/-- A change of every value keeps the canonical form of a table. -/
theorem Store.wfFrom_map {α : Type} [DecidableEq α] (dflt : α) (f : α → α) (m : List (Nat × α)) (lo : Nat)
    (h : Store.wfFrom dflt lo m = true) : Store.wfFrom dflt lo (Store.map dflt f m) = true := by
  induction m generalizing lo with
  | nil => rfl
  | cons p rest ih =>
    obtain ⟨k, v⟩ := p
    simp only [Store.wfFrom, Bool.and_eq_true, decide_eq_true_eq] at h
    have hr := Store.wfFrom_filter dflt _ (k + 1) (fun p => p.1 != k) (ih (k + 1) h.2)
    simp only [Store.map]
    by_cases hv : f v = dflt
    · simp only [hv, if_true]
      exact Store.wfFrom_mono dflt _ (k + 1) lo hr (by omega)
    · simp only [hv, if_false, Store.wfFrom, Bool.and_eq_true, decide_eq_true_eq]
      exact ⟨⟨h.1.1, hv⟩, hr⟩

/-! ## Memory -/

/-- A byte written is read back. -/
theorem Memory.readByte_writeByte_same (m : List Host.Cell) (pa : Nat) (b : Byte) (h : Memory.wf m = true) :
    Memory.readByte (Memory.writeByte m pa b) pa = b := Store.get_put_same _ m 0 pa b h

/-- A byte written leaves every other byte alone. -/
theorem Memory.readByte_writeByte_ne (m : List Host.Cell) (pa a : Nat) (b : Byte) (h : a ≠ pa) :
    Memory.readByte (Memory.writeByte m pa b) a = Memory.readByte m a := Store.get_put_ne _ m pa a b h

/-- Writing a byte keeps the canonical form of memory. -/
theorem Memory.wf_writeByte (m : List Host.Cell) (pa : Nat) (b : Byte) (h : Memory.wf m = true) :
    Memory.wf (Memory.writeByte m pa b) = true := Store.wf_put _ m pa b h

/-- Writing bytes keeps the canonical form of memory. -/
theorem Memory.wf_writeBytes (bs : List Byte) : ∀ (m : List Host.Cell) (pa : Nat), Memory.wf m = true →
    Memory.wf (Memory.writeBytes m pa bs) = true := by
  induction bs with
  | nil => intro m pa h; exact h
  | cons b bs ih => intro m pa h; exact ih _ _ (Memory.wf_writeByte m pa b h)

/-- Writing a number keeps the canonical form of memory. -/
theorem Memory.wf_writeNum (m : List Host.Cell) (pa n v : Nat) (h : Memory.wf m = true) :
    Memory.wf (Memory.writeNum m pa n v) = true := Memory.wf_writeBytes _ m pa h

/-- Writing bytes leaves every byte outside them alone. -/
theorem Memory.readByte_writeBytes_ne (bs : List Byte) : ∀ (m : List Host.Cell) (pa a : Nat), (a < pa ∨ pa + bs.length ≤ a) →
    Memory.readByte (Memory.writeBytes m pa bs) a = Memory.readByte m a := by
  induction bs with
  | nil => intro m pa a _; rfl
  | cons b bs ih =>
    intro m pa a h
    simp only [List.length_cons] at h
    rw [Memory.writeBytes, ih _ _ _ (by omega), Memory.readByte_writeByte_ne m pa a b (by omega)]

/-- A byte among those written is read back. -/
theorem Memory.readByte_writeBytes_in (bs : List Byte) : ∀ (m : List Host.Cell) (pa i : Nat) (h : i < bs.length),
    Memory.wf m = true → Memory.readByte (Memory.writeBytes m pa bs) (pa + i) = bs[i] := by
  induction bs with
  | nil => intro m pa i h; simp at h
  | cons b bs ih =>
    intro m pa i h hw
    cases i with
    | zero =>
      rw [Memory.writeBytes, Memory.readByte_writeBytes_ne bs _ _ _ (by omega)]
      exact Memory.readByte_writeByte_same m pa b hw
    | succ j =>
      have := ih (Memory.writeByte m pa b) (pa + 1) j (by simpa using h) (Memory.wf_writeByte m pa b hw)
      rw [Memory.writeBytes, show pa + (j + 1) = pa + 1 + j by omega, this]
      rfl

/-- The length of the bytes of a number. -/
@[simp] theorem byteList_length (n v : Nat) : (byteList n v).length = n := by
  induction n generalizing v with
  | zero => rfl
  | succ n ih => simp [byteList, ih]

/-- The bytes written are read back. -/
theorem Memory.readBytes_writeBytes (bs : List Byte) : ∀ (m : List Host.Cell) (pa : Nat), Memory.wf m = true →
    Memory.readBytes (Memory.writeBytes m pa bs) pa bs.length = bs := by
  induction bs with
  | nil => intro m pa _; rfl
  | cons b bs ih =>
    intro m pa h
    simp only [List.length_cons, Memory.readBytes, Memory.writeBytes]
    rw [Memory.readByte_writeBytes_ne bs _ _ _ (by omega), Memory.readByte_writeByte_same m pa b h,
      ih _ _ (Memory.wf_writeByte m pa b h)]

/-- The number of the bytes of a number. -/
theorem Memory.numBytes_byteList (n v : Nat) : Memory.readNum.numBytes (byteList n v) = v % 256 ^ n := by
  induction n generalizing v with
  | zero => simp [byteList, Memory.readNum.numBytes, Nat.mod_one]
  | succ n ih =>
    simp only [byteList, Memory.readNum.numBytes, ih, BitVec.toNat_ofNat]
    have h : v % 256 ^ (n + 1) = v % 256 + 256 * (v / 256 % 256 ^ n) := by
      rw [Nat.pow_succ, Nat.mul_comm (256 ^ n) 256, Nat.mod_mul]
    exact h.symm

/-- A number written is read back, at its width. -/
theorem Memory.readNum_writeNum (m : List Host.Cell) (pa n v : Nat) (h : Memory.wf m = true) :
    Memory.readNum (Memory.writeNum m pa n v) pa n = v % 256 ^ n := by
  have := Memory.readBytes_writeBytes (byteList n v) m pa h
  rw [byteList_length] at this
  rw [Memory.readNum, Memory.writeNum, this, Memory.numBytes_byteList]

/-- A number outside what is written reads as before. -/
theorem Memory.readBytes_writeBytes_ne (bs : List Byte) (m : List Host.Cell) (pa : Nat) :
    ∀ (n a : Nat), (a + n ≤ pa ∨ pa + bs.length ≤ a) →
    Memory.readBytes (Memory.writeBytes m pa bs) a n = Memory.readBytes m a n := by
  intro n
  induction n with
  | zero => intro a _; rfl
  | succ n ih =>
    intro a h
    simp only [Memory.readBytes]
    rw [Memory.readByte_writeBytes_ne bs m pa a (by omega), ih (a + 1) (by omega)]

/-! ## Slots -/

/-- A slot of a register after a write of a slot of the same width: the value where it is the same one, else what it held. -/
theorem getSlot_setSlot (v : VecBits) (w i j x : Nat) (h : w * i + w ≤ maxVlen) :
    getSlot (setSlot v w i x) w j = if i = j then x % 2 ^ w else getSlot v w j := by
  unfold getSlot setSlot
  apply Nat.eq_of_testBit_eq
  intro b
  have split : (if i = j then x % 2 ^ w else (v.extractLsb' (w * j) w).toNat).testBit b =
      if i = j then (x % 2 ^ w).testBit b else (v.extractLsb' (w * j) w).toNat.testBit b := by split <;> rfl
  rw [split]
  simp only [BitVec.testBit_toNat, BitVec.getLsbD_extractLsb', BitVec.getLsbD_or, BitVec.getLsbD_and, BitVec.getLsbD_not,
    BitVec.getLsbD_shiftLeft, BitVec.getLsbD_ofNat, Nat.testBit_mod_two_pow, Nat.testBit_two_pow_sub_one]
  by_cases hb : b < w
  · by_cases hij : i = j
    · subst hij
      have h1 : w * i + b < maxVlen := by omega
      have h2 : b < maxVlen := by omega
      simp [hb, h1, h2]
    · have hd : w * j + b < w * i ∨ w * i + w ≤ w * j + b := by
        rcases Nat.lt_or_gt_of_ne hij with hlt | hgt
        · right
          have : w * (i + 1) ≤ w * j := Nat.mul_le_mul_left w hlt
          rw [Nat.mul_add, Nat.mul_one] at this; omega
        · left
          have : w * (j + 1) ≤ w * i := Nat.mul_le_mul_left w hgt
          rw [Nat.mul_add, Nat.mul_one] at this; omega
      by_cases h1 : w * j + b < maxVlen
      · rcases hd with hd | hd
        · simp [hb, hij, h1, hd]
        · have h3 : ¬ w * j + b < w * i := by omega
          have h4 : ¬ w * j + b - w * i < w := by omega
          simp [hb, hij, h1, h3, h4]
      · have : v.getLsbD (w * j + b) = false := BitVec.getLsbD_of_ge v _ (by omega)
        simp [hb, hij, h1, this]
  · by_cases hij : i = j <;> simp [hb, hij]

/-- A slot holds a number of its width. -/
theorem getSlot_lt (v : VecBits) (w i : Nat) : getSlot v w i < 2 ^ w := (v.extractLsb' (w * i) w).isLt

/-- An element holds a number of its width. -/
theorem VecFile.elem_lt (f : VecFile) (vlen n w e : Nat) : f.elem vlen n w e < 2 ^ w := by
  unfold VecFile.elem
  dsimp only
  split
  · exact getSlot_lt ..
  · exact Nat.two_pow_pos w

/-- A write of an element changes no register but the one in which it lies. -/
theorem VecFile.setElem_v_ne (f : VecFile) (vlen n w e x : Nat) (r : Fin 32) (h : r.val ≠ n + e / (vlen / w)) :
    (f.setElem vlen n w e x).v[r] = f.v[r] := by
  unfold VecFile.setElem
  dsimp only
  split
  · simp [Ne.symm h]
  · rfl

/-- An element lies in the register file. -/
def InFile (vlen n w e : Nat) : Prop := n + e / (vlen / w) < 32 ∧ w * (e % (vlen / w)) + w ≤ maxVlen

/-- An element after a write of it. -/
theorem VecFile.elem_setElem_same (f : VecFile) (vlen n w e x : Nat) (h : InFile vlen n w e) :
    (f.setElem vlen n w e x).elem vlen n w e = x % 2 ^ w := by
  unfold VecFile.elem VecFile.setElem
  have h1 : n + e / (vlen / w) < 32 := h.1
  simp only [Vector.getElem?_eq_getElem h1, Vector.getElem_setIfInBounds_self]
  rw [getSlot_setSlot _ _ _ _ _ h.2, if_pos rfl]

/-- An element of a group after a write of another element of the file at the same width. -/
theorem VecFile.elem_setElem_ne (f : VecFile) (vlen n n' w e e' x : Nat) (h : InFile vlen n w e)
    (hne : n + e / (vlen / w) ≠ n' + e' / (vlen / w) ∨ e % (vlen / w) ≠ e' % (vlen / w)) :
    (f.setElem vlen n w e x).elem vlen n' w e' = f.elem vlen n' w e' := by
  unfold VecFile.elem VecFile.setElem
  have h1 : n + e / (vlen / w) < 32 := h.1
  simp only [Vector.getElem?_eq_getElem h1]
  by_cases hr : n + e / (vlen / w) = n' + e' / (vlen / w)
  · have h2 : n' + e' / (vlen / w) < 32 := hr ▸ h1
    rw [← hr, Vector.getElem?_setIfInBounds_self, if_pos h1, Vector.getElem?_eq_getElem h1]
    simp only
    rw [getSlot_setSlot _ _ _ _ _ h.2, if_neg (by omega)]
  · rw [Vector.getElem?_setIfInBounds_ne hr]

/-- A write of an element changes the registers of elements and the progress index alone: the masks, the scales, the
constants, the tags and the poison stay. -/
theorem VecFile.setElem_rest (f : VecFile) (vlen n w e x : Nat) :
    f.setElem vlen n w e x
      = { f with v := (f.setElem vlen n w e x).v, progress := (f.setElem vlen n w e x).progress } := by
  unfold VecFile.setElem
  dsimp only
  split <;> rfl

end Sys2Proof.Machine
end

