-- ==== Sys2Proof/Laws/Vector.lean ====
section
/-!
SUPPORT. What the shared operations of the vector instructions do to a state: which registers they change, and what an element-wise
instruction leaves in its destination.
-/

namespace Sys2Proof.Machine

/-! ## Changes of registers -/

/-- A state changes no register from itself. -/
theorem WritesRegs.refl (s : State) (v : BitVec 32) (m : BitVec 8) (k : BitVec 16) (g : BitVec 32) : WritesRegs s s s v m k g :=
  ⟨rfl, ⟨rfl, rfl, rfl, rfl⟩, ⟨rfl, rfl⟩, ⟨rfl, rfl⟩, fun _ _ => rfl, fun _ _ => rfl, fun _ _ => rfl, rfl, fun _ _ => .inl rfl⟩

/-- Changes of registers one after another are changes of those registers. -/
theorem WritesRegs.trans {s t u : State} {v : BitVec 32} {m : BitVec 8} {k : BitVec 16} {g : BitVec 32}
    (h1 : WritesRegs s s t v m k g) (h2 : WritesRegs t t u v m k g) : WritesRegs s s u v m k g := by
  obtain ⟨a1, ⟨b1, b2, b3, b4⟩, ⟨c1, c2⟩, ⟨d1, d2⟩, e1, e2, e3, e4, e5⟩ := h1
  obtain ⟨a1', ⟨b1', b2', b3', b4'⟩, ⟨c1', c2'⟩, ⟨d1', d2'⟩, e1', e2', e3', e4', e5'⟩ := h2
  refine ⟨a1.trans a1', ⟨b1'.trans b1, b2'.trans b2, b3'.trans b3, b4'.trans b4⟩, ⟨c1'.trans c1, c2'.trans c2⟩,
    ⟨d1'.trans d1, d2'.trans d2⟩, fun r h => (e1' r h).trans (e1 r h), fun r h => (e2' r h).trans (e2 r h),
    fun r h => (e3' r h).trans (e3 r h), e4'.trans e4, fun r h => ?_⟩
  rcases e5' r h with h' | h'
  · rw [h']; exact e5 r h
  · exact .inr h'

/-- A change of the vector file alone. -/
theorem WritesRegs.ofVec (s : State) (f : VecFile) (v : BitVec 32) (m : BitVec 8) (k : BitVec 16) (g : BitVec 32)
    (h : SameOutside s.hart.vec f v m k g) : WritesRegs s s (s.setVec f) v m k g :=
  ⟨rfl, ⟨rfl, rfl, rfl, rfl⟩, ⟨rfl, rfl⟩, ⟨rfl, rfl⟩, h⟩

/-- A hart to which no stream is bound has no binding to end. -/
theorem Hart.unbind_unbound (h : Hart) (set : BitVec 32) (hu : h.unbound = true) : h.unbind set = h := by
  have hs : h.streams.map (fun st => st.bind fun b => if groupSet b.regs b.group &&& set != 0#32 then none else some b)
      = h.streams := by
    apply Vector.ext
    intro i hi
    have := List.all_eq_true.mp hu ⟨i, hi⟩ (List.mem_finRange _)
    simp only [Option.isNone_iff_eq_none] at this
    have h0 : h.streams[i] = none := this
    simp [h0]
  unfold Hart.unbind
  rw [hs]

/-- A write of registers noted: it clears tags, and with no stream bound it does nothing else. -/
theorem State.wrote_unbound (s : State) (vlen : Nat) (set : BitVec 32) (hu : s.hart.unbound = true) :
    s.wrote vlen set = s.setVec (s.hart.vec.clearTags vlen set) := by
  unfold State.wrote Hart.wrote
  rw [Hart.unbind_unbound _ _ hu]
  rfl

/-- A register of a group. -/
theorem groupSet_getLsbD (g n r : Nat) (hr : r < 32) : (groupSet g n).getLsbD r = decide (n ≤ r ∧ r < n + g) := by
  simp only [groupSet, BitVec.getLsbD_ofNat, hr, decide_true, Bool.true_and]
  rw [Nat.mul_comm, Nat.testBit_two_pow_mul]
  by_cases h : n ≤ r
  · simp [h, Nat.testBit_two_pow_sub_one]
    omega
  · simp [h]

/-- Clearing tags leaves each tag as it was or cleared. -/
theorem VecFile.clearTags_tag (f : VecFile) (vlen : Nat) (set : BitVec 32) (r : Fin 32) :
    (f.clearTags vlen set).tag[r] = f.tag[r] ∨ (f.clearTags vlen set).tag[r] = none := by
  simp only [VecFile.clearTags, Fin.getElem_fin, Vector.getElem_mapFinIdx]
  cases h : f.tag[r.val] with
  | none => exact .inl rfl
  | some g =>
    simp only [Option.bind_some]
    split
    · exact .inr rfl
    · exact .inl rfl

/-- A register written has no tag. -/
theorem VecFile.clearTags_written (f : VecFile) (vlen : Nat) (set : BitVec 32) (r : Fin 32) (h : set.getLsbD r.val = true) :
    (f.clearTags vlen set).tag[r] = none := by
  simp only [VecFile.clearTags, Fin.getElem_fin, Vector.getElem_mapFinIdx]
  cases hg : f.tag[r.val] with
  | none => rfl
  | some g =>
    simp only [Option.bind_some]
    rw [if_pos]
    simp only [bne_iff_ne, ne_eq]
    intro h0
    have h1 : (groupSet 1 r.val).getLsbD r.val = true := by rw [groupSet_getLsbD _ _ _ r.isLt]; simp
    have h2 := congrArg (fun b => b.getLsbD r.val) h0
    rw [BitVec.getLsbD_and, BitVec.getLsbD_or, h, h1] at h2
    simp at h2

/-! ## Sizes -/

/-- A power of two at most another is one of those below it. -/
theorem floorPow2_cases (n : Nat) (h : n ≤ 8) : floorPow2 n = 0 ∨ floorPow2 n = 1 ∨ floorPow2 n = 2 ∨ floorPow2 n = 4 ∨ floorPow2 n = 8 := by
  have : ∀ n ∈ List.range 9, floorPow2 n = 0 ∨ floorPow2 n = 1 ∨ floorPow2 n = 2 ∨ floorPow2 n = 4 ∨ floorPow2 n = 8 := by decide
  exact this n (List.mem_range.mpr (by omega))

/-- SEW divides the bits of a lane group. -/
theorem VType.sew_dvd (t : VType) : t.sew ∣ groupBits := by
  unfold VType.sew
  cases t.fmt <;> decide

/-- SEW is positive. -/
theorem VType.sew_pos (t : VType) : 0 < t.sew := by
  unfold VType.sew
  cases t.fmt <;> decide

/-- The registers of a hart have at most as many bits as eight lane groups give. -/
theorem Hart.vlen_le (h : Hart) : h.vlen ≤ maxVlen := by
  unfold Hart.vlen Hart.nlg
  rcases floorPow2_cases _ (Nat.min_le_left 8 h.lanes.held.length) with h | h | h | h | h <;> rw [h] <;> decide

/-- The VLEN of an entry is that of its hart, which holds lane groups. -/
theorem Hart.entry_vlen (h : Hart) (i : Instr) (c : Cap) (q : QClass) (hl : h.lanes.held ≠ []) :
    (h.entry i c q).vlen = h.vlen := by
  show 2 ^ Nat.log2 h.vlen = h.vlen
  have h0 : floorPow2 (min 8 h.lanes.held.length) ≠ 0 := by
    have : h.lanes.held.length ≠ 0 := by simpa using hl
    have : min 8 h.lanes.held.length ≠ 0 := by omega
    simp [floorPow2, this]
  unfold Hart.vlen Hart.nlg
  rcases floorPow2_cases _ (Nat.min_le_left 8 h.lanes.held.length) with h | h | h | h | h
  · exact absurd h h0
  all_goals rw [h]; decide

/-- An element of a legal group below VLMAX lies in the register file, in a register of the group. -/
theorem element_inFile (s : State) (t : VType) (v : VName) (k : Nat) (g : Nat)
    (hg : groupOk g v.val = true) (hk : k < g * s.hart.vlen / t.sew) :
    InFile s.hart.vlen v.val t.sew k ∧ k / (s.hart.vlen / t.sew) < g := by
  have hd : t.sew ∣ s.hart.vlen := (t.sew_dvd).trans (Nat.dvd_mul_right _ _)
  obtain ⟨per, hper⟩ := hd
  have hs := t.sew_pos
  have hp : s.hart.vlen / t.sew = per := by rw [hper, Nat.mul_div_cancel_left _ hs]
  have hm : g * s.hart.vlen / t.sew = g * per := by
    rw [hper, Nat.mul_left_comm, Nat.mul_div_cancel_left _ hs]
  rw [hm] at hk
  have hp0 : 0 < per := Nat.pos_of_ne_zero (by rintro rfl; simp at hk)
  have hlt : k / per < g := Nat.div_lt_of_lt_mul (by rwa [Nat.mul_comm])
  have hv := Hart.vlen_le s.hart
  simp only [groupOk, decide_eq_true_eq] at hg
  rw [InFile, hp]
  refine ⟨⟨by omega, ?_⟩, hlt⟩
  have : k % per + 1 ≤ per := Nat.mod_lt _ hp0
  calc t.sew * (k % per) + t.sew = t.sew * (k % per + 1) := by rw [Nat.mul_add, Nat.mul_one]
    _ ≤ t.sew * per := Nat.mul_le_mul_left _ this
    _ ≤ maxVlen := by rw [← hper]; exact hv

/-! ## Elements -/

/-- Two elements of a group are in different places. -/
theorem place_ne (per k k' : Nat) (n : Nat) (h : k ≠ k') : n + k / per ≠ n + k' / per ∨ k % per ≠ k' % per := by
  by_contra hc
  simp only [ne_eq, not_or, not_not] at hc
  apply h
  have h1 : k / per = k' / per := by omega
  rw [← Nat.div_add_mod k per, ← Nat.div_add_mod k' per, h1, hc.2]

/-- The slots from one on are zero, the slots below it are as they were. -/
theorem getSlot_zeroSlots (v : VecBits) (w first j : Nat) :
    getSlot (zeroSlots v w first) w j = if j < first then getSlot v w j else 0 := by
  unfold getSlot zeroSlots
  apply Nat.eq_of_testBit_eq
  intro b
  have split : (if j < first then (v.extractLsb' (w * j) w).toNat else 0).testBit b =
      if j < first then (v.extractLsb' (w * j) w).toNat.testBit b else false := by split <;> simp
  rw [split]
  simp only [BitVec.testBit_toNat, BitVec.getLsbD_extractLsb', BitVec.getLsbD_and, BitVec.getLsbD_ofNat,
    Nat.testBit_two_pow_sub_one]
  by_cases hb : b < w
  · by_cases hj : j < first
    · have h1 : w * j + b < w * first := by
        have : w * (j + 1) ≤ w * first := Nat.mul_le_mul_left w hj
        rw [Nat.mul_add, Nat.mul_one] at this; omega
      by_cases h2 : w * j + b < maxVlen
      · simp [hb, hj, h1, h2]
      · have : v.getLsbD (w * j + b) = false := BitVec.getLsbD_of_ge v _ (by omega)
        simp [hb, hj, this]
    · have h1 : ¬ w * j + b < w * first := by
        have : w * first ≤ w * j := Nat.mul_le_mul_left w (by omega)
        omega
      simp [hb, hj, h1]
  · simp [hb]

/-- One more register of the tail of a group. -/
theorem VecFile.zeroFrom_succ (f : VecFile) (vlen n w first g : Nat) (h : n + g < 32) :
    f.zeroFrom vlen n w first (g + 1) =
      let F := f.zeroFrom vlen n w first g
      let x : VecBits := if first ≤ g * (vlen / w) then 0#maxVlen else zeroSlots F.v[n + g] w (first - g * (vlen / w))
      { F with v := F.v.setIfInBounds (n + g) x } := by
  simp only [VecFile.zeroFrom, Vector.getElem?_eq_getElem h]

/-- The tail of a group: its elements from one on are zero, and every other element of the file is as it was. -/
theorem VecFile.elem_zeroFrom (f : VecFile) (vlen n w first : Nat) : ∀ g, n + g ≤ 32 → ∀ k, n + k / (vlen / w) < 32 →
    (f.zeroFrom vlen n w first g).elem vlen n w k =
      if k / (vlen / w) < g ∧ first ≤ k then 0 else f.elem vlen n w k := by
  intro g
  induction g with
  | zero => intro _ k _; simp [VecFile.zeroFrom]
  | succ g ih =>
    intro hg k hk
    have ih' := ih (by omega)
    generalize hF : f.zeroFrom vlen n w first g = F at ih'
    have h1 : n + g < 32 := by omega
    rw [VecFile.zeroFrom_succ f vlen n w first g h1, hF]
    dsimp only
    by_cases hr : k / (vlen / w) = g
    · subst hr
      unfold VecFile.elem
      simp only [Vector.getElem?_setIfInBounds_self, if_pos hk, Nat.lt_succ_self, true_and]
      have hF' := ih' k hk
      simp only [Nat.lt_irrefl, false_and, if_false] at hF'
      unfold VecFile.elem at hF'
      simp only [Vector.getElem?_eq_getElem hk] at hF' ⊢
      have hdm := Nat.div_add_mod k (vlen / w)
      rw [Nat.mul_comm] at hdm
      by_cases hf : first ≤ k / (vlen / w) * (vlen / w)
      · have : first ≤ k := by omega
        simp only [hf, this, if_true]
        simp [getSlot]
      · simp only [hf, if_false]
        rw [getSlot_zeroSlots, hF']
        by_cases hk2 : first ≤ k
        · rw [if_neg (by omega), if_pos hk2]
        · rw [if_pos (by omega), if_neg hk2]
    · have hne : n + g ≠ n + k / (vlen / w) := by omega
      show VecFile.elem _ vlen n w k = _
      have hF2 : ∀ x : VecBits,
          VecFile.elem { F with v := F.v.setIfInBounds (n + g) x } vlen n w k = F.elem vlen n w k := by
        intro x
        unfold VecFile.elem
        simp only [Vector.getElem?_setIfInBounds_ne hne]
      rw [hF2, ih' k hk]
      by_cases h2 : k / (vlen / w) < g
      · simp [h2, Nat.lt_succ_of_lt h2]
      · have : ¬ k / (vlen / w) < g + 1 := by omega
        simp [h2, this]

/-- The tail of a group changes no other register. -/
theorem VecFile.zeroFrom_v_ne (f : VecFile) (vlen n w first : Nat) (r : Fin 32) : ∀ g, n + g ≤ 32 → (r.val < n ∨ n + g ≤ r.val) →
    (f.zeroFrom vlen n w first g).v[r] = f.v[r] := by
  intro g
  induction g with
  | zero => intro _ _; rfl
  | succ g ih =>
    intro hg h
    have h1 : n + g ≠ r.val := by omega
    rw [VecFile.zeroFrom_succ f vlen n w first g (by omega), ← ih (by omega) (by omega)]
    simp [h1]

/-- The tail of a group changes vector registers alone. -/
theorem VecFile.zeroFrom_rest (f : VecFile) (vlen n w first g : Nat) :
    f.zeroFrom vlen n w first g = { f with v := (f.zeroFrom vlen n w first g).v } := by
  induction g with
  | zero => rfl
  | succ g ih =>
    simp only [VecFile.zeroFrom]
    rw [ih]

/-! ## Element-wise instructions -/

/-- One element written into a group of the destination. -/
theorem State.putElem_writes (s : State) (e : QEntry) (t : VType) (d : VName) (k x g : Nat) (m : BitVec 8) (ks : BitVec 16)
    (tg : BitVec 32) (hk : d.val + k / (e.vlen / t.sew) < d.val + g) :
    WritesRegs s s (s.putElem e t d k x) (groupSet g d.val) m ks tg := by
  apply WritesRegs.ofVec
  rw [VecFile.setElem_rest]
  refine ⟨fun r hr => ?_, fun _ _ => rfl, fun _ _ => rfl, rfl, fun _ _ => .inl rfl⟩
  apply VecFile.setElem_v_ne
  intro hc
  rw [groupSet_getLsbD _ _ _ r.isLt] at hr
  simp only [decide_eq_false_iff_not, not_and, not_lt] at hr
  have := hr (by rw [hc]; exact Nat.le_add_right _ _)
  omega

end Sys2Proof.Machine
end

