-- ==== Sys2Proof/Laws/Elementwise.lean ====
section
/-!
SUPPORT. Element-wise instructions: what one does to the registers when it is performed, and what it leaves when it is issued on a ready
hart.
-/

namespace Sys2Proof.Machine

/-- A value that an element-wise instruction computes for element `k` depends on the registers outside its destination, on the masks, and
on the elements of the destination from `k` on: the elements already written do not change it. -/
def Upward (s : State) (e : QEntry) (t : VType) (d : VName) (val : State → Nat → Nat) : Prop :=
  ∀ (f : VecFile) (k : Nat), k < e.vl → f.m = s.hart.vec.m →
    (∀ r : Fin 32, (groupSet t.mul d.val).getLsbD r.val = false → f.v[r] = s.hart.vec.v[r]) →
    (∀ j, k ≤ j → j < e.vlmax t → f.elem e.vlen d.val t.sew j = s.hart.vec.elem e.vlen d.val t.sew j) →
    val (s.setVec f) k = val s k

/-- Two groups of one size at different registers have no register in common. -/
theorem groups_apart (g a d : Nat) (ha : groupOk g a = true) (hd : groupOk g d = true) (hne : a ≠ d) : groupsMeet g d g a = false := by
  simp only [groupOk, decide_eq_true_eq] at ha hd
  obtain ⟨ha, -⟩ := ha
  obtain ⟨hd, -⟩ := hd
  simp only [groupsMeet, decide_eq_false_iff_not, not_and_or, not_lt]
  obtain ⟨p, rfl⟩ := Nat.dvd_of_mod_eq_zero ha
  obtain ⟨q, rfl⟩ := Nat.dvd_of_mod_eq_zero hd
  rcases Nat.lt_or_gt_of_ne (show p ≠ q from fun h => hne (by rw [h])) with h | h
  · left
    calc g * p + g = g * (p + 1) := by ring
      _ ≤ g * q := Nat.mul_le_mul_left _ h
  · right
    calc g * q + g = g * (q + 1) := by ring
      _ ≤ g * p := Nat.mul_le_mul_left _ h

/-- An element of a group that a destination does not meet is what it was while nothing but the destination has been written. -/
theorem elem_apart (f f' : VecFile) (vlen g g' w k : Nat) (d a : VName) (hm : groupsMeet g d.val g' a.val = false)
    (hk : k / (vlen / w) < g') (ha : a.val + g' ≤ 32)
    (h : ∀ r : Fin 32, (groupSet g d.val).getLsbD r.val = false → f'.v[r] = f.v[r]) :
    f'.elem vlen a.val w k = f.elem vlen a.val w k := by
  unfold VecFile.elem
  dsimp only
  generalize k / (vlen / w) = c at hk ⊢
  have hr : a.val + c < 32 := by omega
  have : f'.v[a.val + c] = f.v[a.val + c] := by
    apply h ⟨_, hr⟩
    rw [groupSet_getLsbD _ _ _ hr]
    simp only [groupsMeet, decide_eq_false_iff_not] at hm
    simp only [decide_eq_false_iff_not]
    omega
  rw [Vector.getElem?_eq_getElem hr, Vector.getElem?_eq_getElem hr, this]

/-- A source of one size with the destination, whether it is the destination or apart from it, gives its elements in ascending order. -/
theorem upward_source (s : State) (e : QEntry) (t : VType) (d a : VName) (hv : e.vlen = s.hart.vlen)
    (hm : e.vl ≤ e.vlmax t) (hd : t.groupAt d = true) (ha : t.groupAt a = true) :
    Upward s e t d fun s k => s.elemOf e t a k := by
  intro f k hk _ hout hel
  show f.elem _ _ _ _ = s.hart.vec.elem _ _ _ _
  by_cases hda : a = d
  · subst hda
    exact hel k (Nat.le_refl _) (by omega)
  · have hin := (element_inFile s t a k t.mul ha (by unfold QEntry.vlmax at hm; rw [hv] at hm; omega)).2
    rw [← hv] at hin
    have ha' := ha
    simp only [VType.groupAt, groupOk, decide_eq_true_eq] at ha'
    exact elem_apart _ _ _ t.mul t.mul _ _ d a (groups_apart _ _ _ ha hd fun h => hda (Fin.ext h)) hin ha'.2 hout

/-- What an element-wise instruction has done to the vector file once its elements from `lo` up to `hi` have been performed. -/
structure Done (s : State) (e : QEntry) (t : VType) (d : VName) (m : Option MName) (lo hi : Nat) (val : State → Nat → Nat)
    (f : VecFile) : Prop where
  rest : f = { s.hart.vec with v := f.v, progress := f.progress }
  outside : ∀ r : Fin 32, (groupSet t.mul d.val).getLsbD r.val = false → f.v[r] = s.hart.vec.v[r]
  elems : ∀ j, j < e.vlmax t → f.elem e.vlen d.val t.sew j =
    if lo ≤ j ∧ j < hi then
      if s.hart.vec.active m j then val s j % 2 ^ t.sew
      else if t.mp then 0 else s.hart.vec.elem e.vlen d.val t.sew j
    else s.hart.vec.elem e.vlen d.val t.sew j

/-- One more element performed. -/
theorem Done.step {s : State} {e : QEntry} {t : VType} {d : VName} {m : Option MName} {lo hi : Nat} {val : State → Nat → Nat}
    {f : VecFile} (h : Done s e t d m lo hi val f) (hv : e.vlen = s.hart.vlen)
    (hg : t.groupAt d = true) (hm : e.vl ≤ e.vlmax t) (hu : Upward s e t d val) (hlo : lo ≤ hi) (hi' : hi < e.vl) :
    ∃ g, (if (s.setVec f).hart.vec.active m hi then (s.setVec f).putElem e t d hi (val (s.setVec f) hi)
        else (s.setVec f).inactive e t d hi) = s.setVec g ∧ Done s e t d m lo (hi + 1) val g := by
  have hin : ∀ j, j < e.vlmax t → InFile e.vlen d.val t.sew j ∧ j / (e.vlen / t.sew) < t.mul := by
    intro j hj
    rw [hv]
    exact element_inFile s t d j t.mul hg (by rw [← hv]; exact hj)
  have hact : (s.setVec f).hart.vec.active m hi = s.hart.vec.active m hi := by
    show f.active m hi = _
    rw [h.rest]; cases m <;> rfl
  have hval : val (s.setVec f) hi = val s hi := by
    refine hu f hi hi' (by rw [h.rest]) h.outside fun j hj hjm => ?_
    rw [h.elems j hjm, if_neg (by omega)]
  have put : ∀ x, Done s e t d m lo hi val f → 
      (x % 2 ^ t.sew = if s.hart.vec.active m hi then val s hi % 2 ^ t.sew
        else if t.mp then 0 else s.hart.vec.elem e.vlen d.val t.sew hi) →
      Done s e t d m lo (hi + 1) val (f.setElem e.vlen d.val t.sew hi x) := by
    intro x h hx
    obtain ⟨h1, h2⟩ := hin hi (by omega)
    refine ⟨?_, fun r hr => ?_, fun j hj => ?_⟩
    · rw [VecFile.setElem_rest]
      have := h.rest
      rw [this]
    · rw [VecFile.setElem_v_ne, h.outside r hr]
      intro hc
      rw [groupSet_getLsbD _ _ _ r.isLt] at hr
      have h3 : d.val ≤ r.val ∧ r.val < d.val + t.mul := ⟨by rw [hc]; exact Nat.le_add_right _ _, by rw [hc]; exact Nat.add_lt_add_left h2 _⟩
      simp [h3] at hr
    · by_cases hjh : j = hi
      · subst hjh
        rw [VecFile.elem_setElem_same _ _ _ _ _ _ h1, hx, if_pos (⟨hlo, Nat.lt_succ_self _⟩ : lo ≤ j ∧ j < j + 1)]
      · rw [VecFile.elem_setElem_ne _ _ _ _ _ _ _ _ h1, h.elems j hj]
        · split_ifs <;> first | rfl | omega
        · exact place_ne _ _ _ _ (Ne.symm hjh)
  rw [hact, hval]
  by_cases ha : s.hart.vec.active m hi = true
  · rw [if_pos ha]
    refine ⟨_, rfl, put _ h (by rw [if_pos ha])⟩
  · rw [if_neg ha]
    unfold State.inactive
    by_cases hmp : t.mp = true
    · rw [if_pos hmp]
      refine ⟨_, rfl, put 0 h (by rw [if_neg ha, if_pos hmp]; simp)⟩
    · rw [if_neg hmp]
      refine ⟨f, rfl, h.rest, h.outside, fun j hj => ?_⟩
      rw [h.elems j hj]
      by_cases hjh : j = hi
      · subst hjh
        rw [if_neg (by omega), if_pos (⟨hlo, Nat.lt_succ_self _⟩ : lo ≤ j ∧ j < j + 1), if_neg ha, if_neg hmp]
      · split_ifs <;> first | rfl | omega

/-- The elements from `lo` on performed, `n` of them. -/
theorem elements_done (s : State) (e : QEntry) (t : VType) (d : VName) (m : Option MName) (lo : Nat) (val : State → Nat → Nat)
    (hv : e.vlen = s.hart.vlen)
    (hg : t.groupAt d = true) (hm : e.vl ≤ e.vlmax t) (hu : Upward s e t d val) : ∀ n, lo + n ≤ e.vl →
    ∃ g, (List.range' lo n).foldl (fun (s : State) k =>
        if s.hart.vec.active m k then s.putElem e t d k (val s k) else s.inactive e t d k) s = s.setVec g ∧
      Done s e t d m lo (lo + n) val g := by
  intro n
  induction n with
  | zero =>
    intro _
    refine ⟨s.hart.vec, rfl, rfl, fun _ _ => rfl, fun j _ => ?_⟩
    rw [if_neg (by omega)]
  | succ n ih =>
    intro hn
    obtain ⟨f, h1, h2⟩ := ih (by omega)
    obtain ⟨g, h3, h4⟩ := h2.step hv hg hm hu (by omega) (by omega)
    refine ⟨g, ?_, h4⟩
    rw [List.range'_concat, List.foldl_append, h1]
    simpa using h3

/-- A destination complete up to `n`: the elements from `n` on follow TP, every other element is as it was, and no register of the group
has a tag. -/
theorem finishFrom_spec (s : State) (e : QEntry) (t : VType) (d : VName) (n : Nat) (wrote : Nat → Bool) (hu : s.hart.unbound = true)
    (hv : e.vlen = s.hart.vlen) (hg : t.groupAt d = true) :
    ∃ f, s.finishFrom e t d n wrote = s.setVec f ∧ f.m = s.hart.vec.m ∧ f.k = s.hart.vec.k ∧ f.b = s.hart.vec.b ∧
      (∀ r : Fin 32, (groupSet t.mul d.val).getLsbD r.val = false → f.v[r] = s.hart.vec.v[r]) ∧
      (∀ r : Fin 32, f.tag[r] = s.hart.vec.tag[r] ∨ f.tag[r] = none) ∧
      (∀ r : Fin 32, (groupSet t.mul d.val).getLsbD r.val = true → f.tag[r] = none) ∧
      (∀ k, k < e.vlmax t → f.elem e.vlen d.val t.sew k =
        if n ≤ k ∧ t.tp = true then 0 else s.hart.vec.elem e.vlen d.val t.sew k) := by
  have hg' : d.val + t.mul ≤ 32 := by
    simp only [VType.groupAt, groupOk, decide_eq_true_eq] at hg; exact hg.2
  have key : ∃ f, (s.wrote e.vlen (groupSet t.mul d.val)).tail e t d n = s.setVec f ∧ f.m = s.hart.vec.m ∧ f.k = s.hart.vec.k ∧
      f.b = s.hart.vec.b ∧
      (∀ r : Fin 32, (groupSet t.mul d.val).getLsbD r.val = false → f.v[r] = s.hart.vec.v[r]) ∧
      f.tag = (s.hart.vec.clearTags e.vlen (groupSet t.mul d.val)).tag ∧
      (∀ k, k < e.vlmax t → f.elem e.vlen d.val t.sew k =
        if n ≤ k ∧ t.tp = true then 0 else s.hart.vec.elem e.vlen d.val t.sew k) := by
    rw [State.wrote_unbound _ _ _ hu]
    unfold State.tail
    by_cases ht : t.tp = true
    · rw [if_pos ht]
      refine ⟨_, rfl, ?_, ?_, ?_, fun r hr => ?_, ?_, fun k hk => ?_⟩
      · rw [VecFile.zeroFrom_rest]; rfl
      · rw [VecFile.zeroFrom_rest]; rfl
      · rw [VecFile.zeroFrom_rest]; rfl
      · rw [VecFile.zeroFrom_v_ne _ _ _ _ _ _ _ hg']
        · rfl
        · rw [groupSet_getLsbD _ _ _ r.isLt] at hr
          simp only [decide_eq_false_iff_not] at hr
          omega
      · rw [VecFile.zeroFrom_rest]; rfl
      · have h1 := element_inFile s t d k t.mul hg (by rw [← hv]; exact hk)
        rw [← hv] at h1
        show VecFile.elem (VecFile.zeroFrom _ _ _ _ _ _) _ _ _ _ = _
        rw [VecFile.elem_zeroFrom _ _ _ _ _ _ hg' _ (by omega)]
        simp only [h1.2, true_and, ht, and_true]
        rfl
    · rw [if_neg ht]
      refine ⟨_, rfl, rfl, rfl, rfl, fun _ _ => rfl, rfl, fun k _ => ?_⟩
      rw [if_neg (fun h => ht h.2)]
      rfl
  obtain ⟨f, h1, h2, h3, h4, h5, h6, h7⟩ := key
  have tags : (∀ r : Fin 32, f.tag[r] = s.hart.vec.tag[r] ∨ f.tag[r] = none) ∧
      (∀ r : Fin 32, (groupSet t.mul d.val).getLsbD r.val = true → f.tag[r] = none) := by
    rw [h6]
    exact ⟨VecFile.clearTags_tag _ _ _, VecFile.clearTags_written _ _ _⟩
  unfold State.finishFrom
  dsimp only
  rw [h1]
  unfold State.cleanse VecFile.cleanse
  split
  · exact ⟨f.progressTo (groupSet t.mul d.val) n, rfl, h2, h3, h4, h5, tags.1, tags.2, h7⟩
  · exact ⟨{ f.progressTo (groupSet t.mul d.val) n with poisonV := _ }, rfl, h2, h3, h4, h5, tags.1, tags.2, h7⟩

/-- ELEMENT-WISE INSTRUCTIONS, once for all: what one does to an idle hart. -/
theorem elementwise_spec (s : State) (e : QEntry) (t : VType) (d : VName) (m : Option MName) (first : Nat) (val : State → Nat → Nat)
    (hu : s.hart.unbound = true) (hp : s.hart.pause = none) (hv : e.vlen = s.hart.vlen) (hg : t.groupAt d = true)
    (hm : e.vl ≤ e.vlmax t) (hup : Upward s e t d val) :
    ∃ u, elementwise e s t d m first val = .ok u ∧ WritesRegs s s u (groupSet t.mul d.val) 0#8 0#16 0#32 ∧
      (if e.vl ≤ e.start then u = s
       else (∀ k, k < e.vlmax t → u.hart.vec.elem e.vlen d.val t.sew k =
          if e.vl ≤ k then (if t.tp then 0 else s.hart.vec.elem e.vlen d.val t.sew k)
          else if k < max e.start first then s.hart.vec.elem e.vlen d.val t.sew k
          else if s.hart.vec.active m k then val s k % 2 ^ t.sew
          else if t.mp then 0 else s.hart.vec.elem e.vlen d.val t.sew k) ∧
        Untagged u (groupSet t.mul d.val)) := by
  unfold elementwise
  simp only [hp]
  by_cases hs : e.vl ≤ e.start
  · simp only [if_pos hs]
    exact ⟨s, rfl, WritesRegs.refl _ _ _ _ _, rfl⟩
  · simp only [if_neg hs]
    generalize hlo : max e.start first = lo
    have hd : ∃ f, (List.range' lo (e.vl - lo)).foldl (fun (s : State) k =>
        if s.hart.vec.active m k then s.putElem e t d k (val s k) else s.inactive e t d k) s = s.setVec f ∧
        Done s e t d m lo (max lo e.vl) val f := by
      by_cases h : lo ≤ e.vl
      · have := elements_done s e t d m lo val hv hg hm hup (e.vl - lo) (by omega)
        rwa [show lo + (e.vl - lo) = max lo e.vl by omega] at this
      · rw [show e.vl - lo = 0 by omega, show max lo e.vl = lo by omega]
        exact ⟨s.hart.vec, rfl, rfl, fun _ _ => rfl, fun j _ => by rw [if_neg (by omega)]⟩
    obtain ⟨f, h1, h2⟩ := hd
    rw [h1]
    obtain ⟨g, g1, g2, g3, g4, g5, g6, g7, g8⟩ :=
      finishFrom_spec (s.setVec f) e t d e.vl (e.covers t s.hart.vec m first) hu hv hg
    refine ⟨_, rfl, ?_, fun k hk => ?_, ?_⟩
    · unfold State.finishDest
      rw [g1]
      refine WritesRegs.ofVec s g _ _ _ _ ⟨fun r hr => ?_, fun r _ => ?_, fun r _ => ?_, ?_, fun r _ => ?_⟩
      · rw [g5 r hr]; exact h2.outside r hr
      · rw [g2, State.setVec, h2.rest]
      · rw [g3, State.setVec, h2.rest]
      · rw [g4, State.setVec, h2.rest]
      · have := g6 r
        rw [State.setVec, h2.rest] at this
        exact this
    · unfold State.finishDest
      rw [g1]
      show g.elem _ _ _ _ = _
      rw [g8 k hk]
      have h3 := h2.elems k hk
      show (if _ then 0 else f.elem _ _ _ _) = _
      by_cases h4 : e.vl ≤ k
      · rw [if_pos h4]
        by_cases h5 : t.tp = true
        · rw [if_pos ⟨h4, h5⟩, if_pos h5]
        · rw [if_neg (fun h => h5 h.2), if_neg h5, h3, if_neg (by omega)]
      · rw [if_neg (fun h => h4 h.1), if_neg h4, h3]
        split_ifs <;> first | rfl | omega
    · unfold State.finishDest
      rw [g1]
      exact g7


/-! ## Element-wise instructions at issue -/

/-- With no stream bound nothing is popped. -/
theorem popStrips_unbound (e : QEntry) (s : State) (srcs : List VName) (how : Pops) (act : QEntry → State → VecRes) (t : VType)
    (ht : e.vtype = some t) (hu : s.hart.unbound = true) : popStrips e s srcs how act = act e s := by
  have hb : s.hart.boundTo srcs = [] := by
    unfold Hart.boundTo
    rw [List.filter_eq_nil_iff]
    intro i hi
    have := List.all_eq_true.mp hu i hi
    simp only [Option.isNone_iff_eq_none] at this
    rw [this]
    simp
  unfold popStrips QEntry.typed
  rw [ht]
  simp [hb]

/-- With no stream bound, and nothing poisoned, an instruction that reads bound groups is performed. -/
theorem popping_unbound (e : QEntry) (s : State) (srcs : List VName) (how : Pops) (act : QEntry → State → VecRes) (t : VType)
    (ht : e.vtype = some t) (hu : s.hart.unbound = true) (hc : s.hart.vec.clean = true) : popping e s srcs how act = act e s :=
  (popStrips_unbound e s srcs how _ t ht hu).trans (perform_clean e act s hc).2

/-- The entry that a ready hart performs has the type, the length and the VLEN of the hart. -/
theorem entered_facts (s : State) (i : Instr) (c : Cap) (q : QClass) (t : VType) (h : Ready s t) :
    (s.hart.entry i c q).vtype = some t ∧ (s.hart.entry i c q).vlen = s.hart.vlen ∧ (s.hart.entry i c q).vl = s.hart.vc.vl ∧
    (s.hart.entry i c q).vl ≤ (s.hart.entry i c q).vlmax t := by
  obtain ⟨-, hf, hl, ht⟩ := h
  have hv := Hart.entry_vlen s.hart i c q hl
  refine ⟨ht, hv, rfl, ?_⟩
  unfold QEntry.vlmax
  rw [hv]
  simp only [Hart.fits, ht, Bool.and_eq_true, decide_eq_true_eq] at hf
  exact hf.2

/-- What an element-wise instruction leaves when it is issued on a ready hart. -/
theorem issue_elementwise (s : State) (i : Instr) (t : VType) (d : VName) (m : Option MName) (c : Cap) (first : Nat)
    (act : QEntry → State → VecRes) (val : QEntry → State → Nat → Nat) (h : Ready s t) (hg : t.groupAt d = true)
    (hact : act (s.hart.entry i c .vector) (s.entered i c .vector) =
      elementwise (s.hart.entry i c .vector) (s.entered i c .vector) t d m first (val (s.hart.entry i c .vector)))
    (hup : Upward (s.entered i c .vector) (s.hart.entry i c .vector) t d (val (s.hart.entry i c .vector))) :
    ∃ u, issue s i true .vector c act = .next u ∧
      Elementwise s u t d m first (val (s.hart.entry i c .vector) (s.entered i c .vector)) := by
  obtain ⟨h1, h2, h3, h4⟩ := entered_facts s i c .vector t h
  obtain ⟨⟨hi, hu, hc⟩, hf, hl, ht⟩ := h
  obtain ⟨u, e1, e2, e3⟩ := elementwise_spec (s.entered i c .vector) (s.hart.entry i c .vector) t d m first
    (val (s.hart.entry i c .vector)) hu (s.hart.idle_iff.mp hi).2.2.2.2.2.2.2.2.2.2.2.2.2 h2 hg h4 hup
  rw [issue_idle s i .vector c act hi hc, hact, e1]
  obtain ⟨d1, d2, d3, d4, d5⟩ := e2
  obtain ⟨w, w1, w2, ⟨p, w3⟩, w4, w5, w6, w7, w8, w9, w10, w11⟩ := settle_vector s i c u hi d1
  refine ⟨w, w1, ?_⟩
  have hstart : (s.hart.entry i c .vector).start = s.hart.vc.vstart := rfl
  have hwv : w.hart.vec.v = u.hart.vec.v := by rw [w3]
  have hwt : w.hart.vec.tag = u.hart.vec.tag := by rw [w3]
  have hel : ∀ k, w.element t d k = u.hart.vec.elem (s.hart.entry i c .vector).vlen d.val t.sew k := by
    intro k
    unfold State.element
    rw [h2, w3]
    have : w.hart.vlen = s.hart.vlen := by
      unfold Hart.vlen Hart.nlg
      rw [w2]; rfl
    rw [this]; rfl
  refine ⟨⟨w2, ?_, ?_, ?_, ?_⟩, ?_⟩
  · obtain ⟨a, b, cc, dd⟩ := d2
    exact ⟨w8.trans a, w9.trans b, w10.trans cc, w11.trans dd⟩
  · exact ⟨w4.trans d3.1, w7.trans d3.2⟩
  · exact ⟨w5.trans d4.1, w6.trans d4.2⟩
  · rw [w3]
    exact d5
  · rw [hstart, h3] at e3
    by_cases hs : s.hart.vc.vl ≤ s.hart.vc.vstart
    · rw [if_pos hs] at e3 ⊢
      subst e3
      exact ⟨hwv, hwt⟩
    · rw [if_neg hs] at e3 ⊢
      refine ⟨fun k hk => ?_, fun r hr => ?_⟩
      · rw [hel, e3.1 k (by unfold QEntry.vlmax; rw [h2]; exact hk)]
        unfold State.kept State.element
        rw [h2]
        rfl
      · rw [hwt]
        exact e3.2 r hr

end Sys2Proof.Machine
end

