-- ==== Sys2Proof/Tests/Slice0.lean ====
section
/-!
SUPPORT. Tests: ill-formed terms that the checks refuse, instruction words written out from the encoding tables of the spec, single steps
whose results the spec gives, and for each statement of `Obligations.lean` states and operands that meet its hypotheses.
-/

namespace Sys2Proof.Tests
-- One theorem at a time: each is a kernel evaluation with a thread of its own.
set_option Elab.async false
open Sys2Proof Sys2Proof.Machine

/-! ## Ill-formed instructions (R60, R61, R72 to R78, R84) -/

theorem test_wf_first_fault_with_fe : (Instr.vle 2 7 true .fe false none).wf = false := by decide
theorem test_wf_compressed_store_pair : (Instr.vstc 10 11 4 none).wf = false := by decide
theorem test_wf_compressed_load_pair : (Instr.vldx 4 11 none).wf = false := by decide
theorem test_wf_copy_put_pair : (Instr.vcopy 11 10 14 .put false).wf = false := by decide
theorem test_wf_copy_get_pair : (Instr.vcopy 10 11 14 .get false).wf = false := by decide
theorem test_wf_copy_barrier_pair : (Instr.vcopy 10 12 13 .onDevice true).wf = false := by decide
theorem test_wf_sort_grain : (Instr.vsortg 4 8 0 ⟨false, 0, false⟩).wf = false := by decide
theorem test_wf_sort_width_alone : (Instr.vsortg 4 8 2 ⟨false, 1, false⟩).wf = false := by decide
theorem test_wf_assert_grain : (Instr.vassert 4 false 19 ⟨false, 0, false⟩).wf = false := by decide
theorem test_wf_assert_width_alone : (Instr.vassert 4 false 31 ⟨false, 2, false⟩).wf = false := by decide
theorem test_wf_attach_rows : (Instr.matt 0).wf = false ∧ (Instr.matt 9).wf = false := by decide
theorem test_wf_resume_all : (Instr.vresume 1 true).wf = false := by decide
theorem test_wf_update_swap : (Instr.vupd 1 10 2 .swap false).wf = false := by decide
theorem test_wf_remote_atomic_pair : (Instr.vamo 1 11 2 .add true).wf = false := by decide
theorem test_wf_csr_rows :
    (Instr.rv64 (.csr ⟨.rw, 0, .reg 5, 0x803#12⟩)).wf = false ∧ (Instr.vectorCsrAccess ⟨.rw, 0, .reg 5, 0x340#12⟩).wf = false ∧
    (Instr.vseedWrite ⟨.rw, 0, .reg 5, 0x800#12⟩).wf = false ∧ (Instr.mshapeMirrorWrite ⟨.rw, 0, .reg 5, 0x804#12⟩).wf = false ∧
    (Instr.registerWrite ⟨.rw, 0, .reg 5, 0x800#12⟩).wf = false := by decide
theorem test_wf_block_form :
    (Instr.add ⟨3, .e 3, .e 2, .e 0, .fp32, .rne, false, none, none, 0#13, none, none⟩).wf = false ∧
    (Instr.stop ⟨1, .e 0, .e 0, .e 0, .fp64, .rne, false, none, none, 0#13, none, none⟩).wf = false := by decide
/-- BEXT reads no operand b (R84, R103). -/
theorem test_wf_bext_operand :
    (Instr.bext ⟨3, .e 3, .e 2, .e 0, .i32, .rne, false, none, none, 0#13, none, none⟩).wf = false ∧
    (Instr.bext ⟨3, .e 3, .e 0, .e 0, .i32, .rne, false, none, none, 0#13, none, none⟩).wf = true := by decide

/-! ## Words written out from the encoding tables (R68, R71 to R89) -/

theorem test_decode_vlse : decodeControl 0x0055A20B#32 = some (.vlse 4 11 5 none) := by decide +kernel
theorem test_decode_vle : decodeControl 0x0003810B#32 = some (.vle 2 7 false .plain false none) := by decide +kernel
theorem test_decode_vse : decodeControl 0x0003920B#32 = some (.vse 4 7 false false none) := by decide +kernel
theorem test_decode_vstc : decodeControl 0x3227368B#32 = some (.vstc 13 14 2 (some 1)) := by decide +kernel
theorem test_decode_vcopy_put : decodeControl 0x22E5760B#32 = some (.vcopy 12 10 14 .put false) := by decide +kernel
theorem test_decode_vredo : decodeControl 0x200410AB#32 = some (.vredo 1 8 .sum none) := by decide +kernel
theorem test_decode_vscan : decodeControl 0x2081232B#32 = some (.vscan 6 2 .sum true none) := by decide +kernel
theorem test_decode_vpopc : decodeControl 0x2000B5AB#32 = some (.vpopc 11 1 none) := by decide +kernel
theorem test_decode_vmkeepn : decodeControl 0x20C151AB#32 = some (.vmkeepn 3 2 12) := by decide +kernel
theorem test_decode_vmlogic : decodeControl 0x2420E1AB#32 = some (.vmlogic 3 1 2 4#4) := by decide +kernel
theorem test_decode_vcompress : decodeControl 0x1801522B#32 = some (.vcompress 4 2 4) := by decide +kernel
theorem test_decode_vordkey : decodeControl 0x4001132B#32 = some (.vordkey 6 2 none) := by decide +kernel
theorem test_decode_vsortg : decodeControl 0x5021402B#32 = some (.vsortg 0 2 2 ⟨true, 0, false⟩) := by decide +kernel
theorem test_decode_vmergeg : decodeControl 0x4000622B#32 = some (.vmergeg 4 0) := by decide +kernel
theorem test_decode_vrtagc : decodeControl 0x6000712B#32 = some (.vrtagc 2) := by decide +kernel
theorem test_decode_vixins : decodeControl 0x92A4012B#32 = some (.vixins 2 8 10 (some 1)) := by decide +kernel
theorem test_decode_vixlkp : decodeControl 0x8034162B#32 = some (.vixlkp 12 8 3 none) := by decide +kernel
theorem test_decode_vixdump : decodeControl 0x8605312B#32 = some (.vixdump 2 10 3) := by decide +kernel
theorem test_decode_vixclr : decodeControl 0x8000402B#32 = some .vixclr := by decide +kernel
theorem test_decode_matt : decodeControl 0x0010005B#32 = some (.matt 1) := by decide +kernel
theorem test_decode_mlds : decodeControl 0x10C5B05B#32 = some (.mlds 0 11 12 true) := by decide +kernel
theorem test_decode_mswap : decodeControl 0x0000505B#32 = some .mswap := by decide +kernel
theorem test_decode_mmul : decodeControl 0x0004605B#32 = some (.mmul 0 8 0) := by decide +kernel
theorem test_decode_mrd : decodeControl 0x2000025B#32 = some (.mrd 4 0 0 .rne false) := by decide +kernel
theorem test_decode_vfbm : decodeControl 0x3405505B#32 = some (.vfbm 10 2) := by decide +kernel
theorem test_decode_vdrain : decodeControl 0x2080705B#32 = some (.vdrain .hart true) := by decide +kernel
theorem test_decode_vresume : decodeControl 0x4080005B#32 = some (.vresume 0 true) := by decide +kernel
theorem test_decode_vkill : decodeControl 0x4000105B#32 = some .vkill := by decide +kernel
theorem test_decode_vupd : decodeControl 0x402520DB#32 = some (.vupd 1 10 2 .add false) := by decide +kernel
theorem test_decode_vamo : decodeControl 0x402530DB#32 = some (.vamo 1 10 2 .add false) := by decide +kernel
theorem test_decode_vamo_remote : decodeControl 0x502630DB#32 = some (.vamo 1 12 2 .add true) := by decide +kernel
theorem test_decode_vsetli : decodeControl 0x1412937B#32 = some (.vsetli 6 5 21#9) := by decide +kernel
theorem test_decode_addi : decodeControl 0x00A30313#32 = some (.rv64 (.aluImm .addi 6 6 10#12)) := by decide +kernel
theorem test_decode_zero : decodeControl 0x00000000#32 = none := by decide +kernel
/-- The arguments of a block instruction without modifiers. -/
def plain (d : Fin 32) (a b c : Src) (fmt : Fmt) (rm : Rm) (fn13 : BitVec 13) : BlockArgs :=
  ⟨d, a, b, c, fmt, rm, false, none, none, fn13, none, none⟩

theorem test_decode_block_ld :
    decodeBlock [0x001003C003080231#64] = .ok (.ld (plain 2 (.b 0) .eid (.e 0) .i32 .rne 2#13)) 1 := by decide +kernel
theorem test_decode_block_st :
    decodeBlock [0x001003C00F084032#64] = .ok (.st (plain 0 (.b 1) .eid (.e 3) .i32 .rne 2#13)) 1 := by decide +kernel
theorem test_decode_block_lget :
    decodeBlock [0x000003C000000334#64] = .ok (.lget (plain 3 (.e 0) (.e 0) (.e 0) .i32 .rne 0#13)) 1 := by decide +kernel
theorem test_decode_block_lput :
    decodeBlock [0x000003C00000C035#64] = .ok (.lput (plain 0 (.e 3) (.e 0) (.e 0) .i32 .rne 0#13)) 1 := by decide +kernel
theorem test_decode_block_add :
    decodeBlock [0x000003C00020C301#64] = .ok (.add (plain 3 (.e 3) (.e 2) (.e 0) .i32 .rne 0#13)) 1 := by decide +kernel
theorem test_decode_block_fmax :
    decodeBlock [0x0000002002208323#64] = .ok (.fmax (plain 3 (.e 2) (.b 2) (.e 0) .fp32 .rne 0#13)) 1 := by decide +kernel
theorem test_decode_block_fma :
    decodeBlock [0x0000383A0C20441F#64] =
      .ok (.fma { plain 4 (.e 1) (.e 2) (.e 3) .fp32 .dyn 0#13 with pred := some (true, 2) }) 1 := by decide +kernel
theorem test_decode_block_stop :
    decodeBlock [0x0000000000000038#64] = .ok (.stop (plain 0 (.e 0) (.e 0) (.e 0) .fp64 .rne 0#13)) 1 := by decide +kernel
theorem test_decode_block_prefix :
    decodeBlock [0x0000000000000CFF#64, 0x350003C000000513#64] =
      .ok (.li { plain 5 (.e 0) (.e 0) (.e 0) .i32 .rne 0x6A0#13 with xpi := some 12#48 }) 2 := by decide +kernel

/-! ## States for the tests -/

/-- The vector type of 32-bit integers with one register to a group. -/
def i32 : VType := ⟨.i32, 0, 2, false, false, false, 0⟩
/-- The vector type of fp32. -/
def fp32 : VType := { i32 with fmt := .fp32 }
/-- The vector type of unsigned 64-bit integers. -/
def n64 : VType := { i32 with fmt := .n64 }

/-- A hart of core 0 in M-mode that holds one lane group and runs with vl = 4 under a vector type, over memory that is ready. -/
def under (t : VType) : State :=
  { State.reset with
    ready := [(0, BitVec.allOnes 64), (16, BitVec.allOnes 64)]
    hart := { Hart.reset with
      live := true
      pc := 0x1000#64
      lanes := ⟨[0], [], [], []⟩
      vc := { VecCsrs.reset with vtype := some t, vl := 4, vlmax := t.mul * 32768 / t.sew } } }

/-- The state with values in x registers. -/
def withX (s : State) (l : List (XReg × Word)) : State := l.foldl (fun s p => s.setX p.1 p.2) s

/-- The state with a number of bytes in memory. -/
def withMem (s : State) (addr n value : Nat) : State := { s with memory := Memory.writeNum s.memory addr n value }

/-- The state with elements in a vector register. -/
def withV (s : State) (v : VName) (w : Nat) (xs : List Nat) : State :=
  { s with hart := { s.hart with vec := xs.zipIdx.foldl (fun f p => f.setElem s.hart.vlen v.val w p.2 p.1) s.hart.vec } }

/-- The state with a run tag on a register. -/
def withTag (s : State) (v : VName) (g : RunTag) : State :=
  { s with hart := { s.hart with vec := { s.hart.vec with tag := s.hart.vec.tag.set v (some g) } } }

/-- What a test looks at in the state after an instruction. -/
def after {α : Type} (r : Host.Outcome State Fault Refusal) (f : State → α) : Option α :=
  match r with
  | .next s => some (f s)
  | _ => none

/-! ## Hypotheses met: cross-element, run and index instructions -/

/-- The state with vl at a number. -/
def withVl (s : State) (vl : Nat) : State := { s with hart := { s.hart with vc := { s.hart.vc with vl := vl } } }

theorem meets_ElementMoves :
    Ready (under i32) i32 ∧ i32.groupAt 4 = true ∧ i32.groupAt 8 = true ∧ i32.groupAt 12 = true ∧ i32.meet 4 8 = false ∧
    i32.meet 4 12 = false ∧ (i32.fmt.isFS || i32.fmt.isInt) = true := by decide +kernel

theorem meets_Selectors :
    Ready (under i32) i32 ∧ i32.groupAt 4 = true ∧ i32.groupAt 8 = true ∧ i32.meet 4 8 = false ∧ i32.fmt.isInt = true := by decide +kernel

theorem meets_Selectors_zip :
    Ready (under i32) i32 ∧ i32.wideAt 4 = true ∧ i32.groupAt 8 = true ∧ i32.groupAt 9 = true ∧
    groupsMeet (2 * i32.mul) 4 i32.mul 8 = false ∧ groupsMeet (2 * i32.mul) 4 i32.mul 9 = false := by decide +kernel

theorem meets_Selectors_unzip :
    Ready (under i32) i32 ∧ i32.groupAt 4 = true ∧ i32.wideAt 8 = true ∧ groupsMeet i32.mul 4 (2 * i32.mul) 8 = false := by
  decide +kernel

theorem meets_ReductionsComplete :
    Ready (under fp32) fp32 ∧ fp32.groupAt 8 = true ∧ redAccepts .sum fp32.fmt = true ∧ groupsMeet 1 4 fp32.mul 8 = false ∧
    fp32.groupAt 4 = true ∧ fp32.meet 4 8 = false ∧ (under fp32).hart.vc.vl ≠ 0 ∧
    ∀ k, k < (under fp32).hart.vc.vl → (under fp32).hart.vec.active (some 3) k = false := by decide +kernel

theorem meets_ReductionsComplete_empty :
    Ready (withVl (under fp32) 0) fp32 ∧ (withVl (under fp32) 0).hart.vc.vl = 0 := by decide +kernel

theorem meets_IntegerReductions :
    Ready (under i32) i32 ∧ i32.groupAt 4 = true ∧ i32.groupAt 8 = true ∧ i32.fmt.isInt = true ∧ groupsMeet 1 4 i32.mul 8 = false ∧
    i32.meet 4 8 = false ∧ (under i32).hart.vc.vl ≠ 0 := by decide +kernel

theorem meets_ReductionValues :
    let s := { under fp32 with hart := { (under fp32).hart with vec := { (under fp32).hart.vec with
      m := (under fp32).hart.vec.m.set 3 5#maxVlen } } }
    Ready s fp32 ∧ fp32.groupAt 8 = true ∧ (∀ op ∈ [RedOp.sum, .min, .max], redAccepts op fp32.fmt = true) ∧ s.hart.vc.vl ≠ 0 ∧
    groupsMeet 1 4 fp32.mul 8 = false ∧ fp32.groupAt 4 = true ∧ fp32.meet 4 8 = false ∧ s.hart.vec.active (some 3) 0 = true ∧
    s.hart.vec.active (some 3) 1 = false := by decide +kernel

theorem meets_ReductionValues_integer :
    Ready (under i32) i32 ∧ (∀ op ∈ [RedOp.sum, .min, .max, .and, .or, .xor, .ssum], redAccepts op i32.fmt = true) ∧
    (under i32).hart.vc.vl ≠ 0 := by decide +kernel

theorem meets_MaskInstructions : Ready (under i32) i32 ∧ NoCopyFault (under i32) ∧ (under i32).hart.vc.vl ≠ 0 := by decide +kernel

theorem meets_MaskInstructions_empty : Ready (withVl (under i32) 0) i32 ∧ (withVl (under i32) 0).hart.vc.vl = 0 := by decide +kernel

theorem meets_ScalarExchange :
    let s := withX (under i32) [(10, 3#64), (11, 1024#64)]
    Ready s i32 ∧ i32.groupAt 4 = true ∧ NoCopyFault s ∧ (s.x 10).toNat < s.maxElems i32 ∧ s.maxElems i32 ≤ (s.x 11).toNat := by
  decide +kernel

theorem meets_SortsGroups :
    Ready (under i32) i32 ∧ runFmt i32.fmt = true ∧ i32.groupAt 4 = true ∧ i32.groupAt 8 = true ∧
    (i32.runGroup 4 0).set true &&& (i32.runGroup 8 0).set true = 0#32 ∧ (i32.runGroup 4 0).payOk (i32.payloadGroup 0) = true ∧
    (i32.runGroup 8 0).payOk (i32.payloadGroup 0) = true ∧ (under i32).hart.vc.vstart = 0 ∧ (under i32).hart.vc.vl ≠ 0 := by
  decide +kernel

/-- Four keys of v8, in ascending order. -/
def sorted : State := withV (under i32) 8 32 [3, 5, 5, 9]

theorem meets_AssertsRuns :
    let breaks (k : Nat) : Bool := k % 4 != 0 &&
      (runLess i32.fmt false (sorted.element i32 8 k) (sorted.element i32 8 (k - 1)) ||
        (false && !runLess i32.fmt false (sorted.element i32 8 (k - 1)) (sorted.element i32 8 k)))
    Ready sorted i32 ∧ runFmt i32.fmt = true ∧ i32.groupAt 8 = true ∧ (i32.runGroup 8 0).payOk (i32.payloadGroup 0) = true ∧
    ∀ k, k < sorted.hart.vc.vl → breaks k = false := by decide +kernel

theorem meets_AssertsRuns_broken :
    let breaks (k : Nat) : Bool := k % 4 != 0 &&
      (runLess i32.fmt false (sorted.element i32 8 k) (sorted.element i32 8 (k - 1)) ||
        (true && !runLess i32.fmt false (sorted.element i32 8 (k - 1)) (sorted.element i32 8 k)))
    Ready sorted i32 ∧ i32.groupAt 8 = true ∧ breaks 2 = true ∧ ∀ j, j < 2 → breaks j = false := by decide +kernel

/-- A tag of one ascending run of four signed 32-bit keys with 32-bit payloads. -/
def oneRun : RunTag := ⟨false, .i32, some 2, 31, 4, false⟩

/-- Two registers of ascending keys, each tagged as one run. -/
def twoRuns : State := withTag (withTag (withV sorted 9 32 [1, 5, 8, 8]) 8 oneRun) 9 oneRun

theorem meets_MergesAdjacentRuns :
    let g := { oneRun with gr := 1 }
    let s := withTag sorted 8 g
    let xs := s.run i32 8 4 g.payload
    Ready s i32 ∧ runFmt i32.fmt = true ∧ i32.groupAt 4 = true ∧ i32.groupAt 8 = true ∧ i32.meet 4 8 = false ∧ Tagged s i32 8 g ∧
    PayloadFits i32 g (.group 4 1) [8] ∧ s.hart.vc.vstart = 0 ∧ (g.gr == 31 || decide (4 ≤ 2 ^ g.gr.val)) = false ∧
    InOrder i32.fmt g.descending ((xs.drop 0).take 2) ∧ InOrder i32.fmt g.descending ((xs.drop 2).take 2) := by
  refine ⟨by decide +kernel, by decide, by decide, by decide, by decide, ⟨by decide +kernel, by decide, by decide⟩, by decide, by decide +kernel, by decide,
    by decide +kernel, by decide +kernel⟩

theorem meets_MergesAdjacentRuns_one : (oneRun.gr == 31) = true ∧ Tagged twoRuns i32 8 oneRun := by
  refine ⟨by decide, by decide +kernel, by decide, by decide⟩

theorem meets_MergesTwoRuns :
    Ready twoRuns i32 ∧ i32.groupAt 8 = true ∧ i32.groupAt 9 = true ∧ Tagged twoRuns i32 8 oneRun ∧ Tagged twoRuns i32 9 oneRun ∧
    oneRun.whole 4 = true ∧ twoRuns.hart.vc.vl = 4 ∧ twoRuns.hart.vc.vstart = 0 ∧ InOrder i32.fmt false (twoRuns.run i32 8 4 (some 2)) ∧
    InOrder i32.fmt false (twoRuns.run i32 9 4 (some 2)) := by
  refine ⟨by decide +kernel, by decide, by decide, ⟨by decide +kernel, by decide, by decide⟩, ⟨by decide +kernel, by decide, by decide⟩,
    by decide, by decide +kernel, by decide +kernel, by decide +kernel, by decide +kernel⟩

theorem meets_MergesTwoRuns_wide :
    i32.wideAt 4 = true ∧ groupsMeet (2 * i32.mul) 4 i32.mul 8 = false ∧ groupsMeet (2 * i32.mul) 4 i32.mul 9 = false ∧
    PayloadFits i32 oneRun (.group 4 2) [8, 9] ∧ 4 + 4 ≤ 262144 := by
  refine ⟨by decide, by decide, by decide, by decide, by decide⟩

theorem meets_MergesTwoRuns_lower :
    i32.groupAt 4 = true ∧ i32.meet 4 8 = false ∧ i32.meet 4 9 = false ∧ PayloadFits i32 oneRun (.group 4 1) [8, 9] ∧
    NoCopyFault twoRuns := by
  refine ⟨by decide, by decide, by decide, by decide, by decide +kernel⟩

/-- `twoRuns` meets the hypotheses of the selecting and searching run instructions too. -/
theorem meets_SelectsFromRuns :
    Ready twoRuns i32 ∧ NoCopyFault twoRuns ∧ i32.groupAt 4 = true ∧ i32.groupAt 8 = true ∧ i32.groupAt 9 = true ∧
    i32.meet 4 8 = false ∧ i32.meet 4 9 = false ∧ Tagged twoRuns i32 8 oneRun ∧ Tagged twoRuns i32 9 oneRun ∧
    oneRun.whole twoRuns.hart.vc.vl = true ∧ PayloadFits i32 oneRun (.group 4 1) [8, 9] ∧ PayloadFits i32 oneRun (.group 4 1) [8] := by
  refine ⟨by decide +kernel, by decide +kernel, by decide, by decide, by decide, by decide, by decide,
    ⟨by decide +kernel, by decide, by decide⟩, ⟨by decide +kernel, by decide, by decide⟩, by decide +kernel, by decide, by decide⟩

theorem meets_SearchesRuns :
    Ready twoRuns i32 ∧ runFmt i32.fmt = true ∧ Tagged twoRuns i32 8 oneRun ∧ Tagged twoRuns i32 9 oneRun ∧
    oneRun.whole twoRuns.hart.vc.vl = true ∧ groupsMeet 1 4 i32.mul 8 = false ∧ groupsMeet 1 4 i32.mul 9 = false ∧
    i32.meet 4 8 = false ∧ i32.meet 4 9 = false ∧ min twoRuns.hart.vc.vl oneRun.len ≤ 64 ∧ NoCopyFault twoRuns ∧
    (∀ pw, oneRun.payload = some pw → (i32.runGroup 8 pw).set true &&& groupSet i32.mul 4 = 0#32) ∧
    (∀ pw, oneRun.payload = some pw → ∀ v ∈ [(8 : VName), 9], (i32.runGroup v pw).set true &&& groupSet 1 4 = 0#32) := by
  refine ⟨by decide +kernel, by decide, ⟨by decide +kernel, by decide, by decide⟩, ⟨by decide +kernel, by decide, by decide⟩,
    by decide +kernel, by decide, by decide, by decide, by decide, by decide +kernel, by decide +kernel, by decide, by decide⟩

theorem meets_IndexTable :
    Ready (under n64) n64 ∧ ixtFmt n64.fmt = true ∧ n64.groupAt 4 = true ∧ n64.groupAt 8 = true ∧ n64.groupAt 9 = true ∧
    n64.meet 4 8 = false ∧ (under n64).hart.vc.vl ≠ 0 := by decide +kernel

theorem meets_IndexTable_insertion :
    Store.wf none ([] : Ixt) = true ∧ 0 < 1 ∧ (Ixt.insert [] 1 7#64 9#64).2 = false ∧ (8#64 : Word) ≠ 7#64 := by decide +kernel

/-- A full set of the table: eight entries in the one set of it. -/
def fullSet : Ixt := (List.range 8).foldl (fun t k => (Ixt.insert t 1 (BitVec.ofNat 64 k) 5#64).1) []

theorem meets_IndexTable_full : Store.wf none fullSet = true ∧ (Ixt.insert fullSet 1 100#64 9#64).2 = true := by decide +kernel

theorem meets_IndexAccumulate :
    Ready (withVl (under n64) 1) n64 ∧ ixtFmt n64.fmt = true ∧ n64.groupAt 4 = true ∧ n64.groupAt 8 = true ∧
    IxOp.addI64 ≠ .addFp64 ∧ IxOp.addI64 ≠ .addFp32 ∧ (withVl (under n64) 1).hart.vc.vl = 1 ∧ NoCopyFault (withVl (under n64) 1) ∧
    n64.fmt = .n64 ∧ (n64.runGroup 4 3).payOk (n64.payloadGroup 3) = true := by decide +kernel

/-! ## Hypotheses met: vector memory instructions -/

/-- Addresses of main memory and of the TCM in x10, a stride in x11, a key and device for the other packages in x12 and x13. -/
def atMain (t : VType) : State := withX (under t) [(10, 0x100000#64), (11, 64#64), (12, 0x200000#64), (13, 0x300000#64)]

/-- The same with x10 in the TCM of core 0, its granules full. -/
def atTcm (t : VType) : State :=
  { withX (under t) [(10, BitVec.ofNat 64 tcmBase), (11, 4#64)] with
    fullEmpty := (List.range 4).map fun g => (tcmBase / 16 + g, true) }

theorem meets_VectorLoads :
    let s := withMem (atMain i32) 0x200000 1 0xB
    let unit (k : Nat) : Word := s.x 10 + BitVec.ofNat 64 (k * 4)
    let stride (k : Nat) : Word := s.x 10 + BitVec.ofNat 64 k * s.x 11
    let index (k : Nat) : Word := s.x 10 + BitVec.ofNat 64 (s.element i32 8 k * 4)
    Ready s i32 ∧ i32.groupAt 4 = true ∧ i32.fmt.packed % 8 = 0 ∧ i32.fmt.isM8 = true ∧ i32.groupAt 8 = true ∧ i32.meet 4 8 = false ∧
    Loadable s none unit 4 ∧ Loadable s none stride 4 ∧ Loadable s none index 4 := by decide +kernel

theorem meets_VectorLoads_packed :
    let s := withMem (withX (under i32) [(10, 0x100000#64), (11, 0x200000#64)]) 0x200000 1 0xB
    let at' (i : Nat) : Word := s.x (pairOf 10) + BitVec.ofNat 64 i
    let bit (k : Nat) : Bool := (s.loaded (at' (k / 8)) 1).testBit (k % 8)
    let place (k : Nat) : Word := s.x 10 + BitVec.ofNat 64 (((List.range k).filter bit).length * 4)
    Ready s i32 ∧ (∀ i, i < (s.hart.vc.vl + 7) / 8 → (s.plain .load (at' i) 1).isSome) ∧ bit 0 = true ∧
    ∀ k ∈ s.work none, bit k = true → (s.plain .load (place k) 4).isSome := by decide +kernel

/-- The vector type of the packed 4-bit integers. -/
def i4 : VType := { i32 with fmt := .i4 }

theorem meets_PackedAccesses_load :
    let s := atMain i4
    let byte (i : Nat) : Word := s.x 10 + BitVec.ofNat 64 i
    Ready s i4 ∧ i4.groupAt 4 = true ∧ i4.fmt.packed % 8 ≠ 0 ∧
    ∀ k ∈ s.work none, (s.plain .load (byte (k * 4 / 8)) 1).isSome ∧ (s.plain .load (byte ((k * 4 + 3) / 8)) 1).isSome := by decide +kernel

theorem meets_PackedAccesses_store :
    let s := withV (atMain i4) 4 4 [1, 2, 3, 4]
    let byte (i : Nat) : Word := s.x 10 + BitVec.ofNat 64 i
    let merge (hole bits old : Nat) : Nat := old &&& (255 ^^^ hole % 256) ||| bits % 256 &&& hole % 256
    let ups := (s.work none).flatMap fun k =>
      let i := k * 4 / 8
      let at' := k * 4 % 8
      let hole := (2 ^ 4 - 1) * 2 ^ at'
      let bits := s.element i4 4 k % 2 ^ 4 * 2 ^ at'
      (byte i, 1, merge hole bits) :: (if at' + 4 ≤ 8 then [] else [(byte (i + 1), 1, merge (hole / 256) (bits / 256))])
    Ready s i4 ∧ (s.storeAll ups).isSome = true := by decide +kernel

theorem meets_LoadConditions_full :
    let s := atTcm i32
    let addr (k : Nat) : Word := s.x 10 + BitVec.ofNat 64 (k * 4)
    let granule (k : Nat) : Nat := (s.plain .load (addr k) 4).getD 0 / 16
    Ready s i32 ∧ i32.groupAt 4 = true ∧ i32.fmt.isM8 = true ∧ Loadable s none addr 4 ∧
    ∀ k ∈ s.work none, hasFullEmpty s.bigMemory (granule k * 16) = true ∧ Store.get false s.fullEmpty (granule k) = true := by decide +kernel

/-- In U-mode under an empty page table: x10 is the last word of the TCM window, and the next word has no translation. -/
def atEdge (t : VType) : State :=
  let s := withX (under t) [(10, 0x7F000003FFFC#64)]
  { s with hart := { s.hart with mode := .u, csr := { s.hart.csr with satp := 0x9000000000000400#64, swindow := 0x11#5 } } }

theorem meets_LoadConditions_fault :
    let s := atEdge i32
    let addr (k : Nat) : Word := s.x 10 + BitVec.ofNat 64 (k * 4)
    Ready s i32 ∧ i32.groupAt 4 = true ∧ i32.fmt.packed % 8 = 0 ∧ 1 ∈ s.work none ∧
    (∀ j ∈ s.work none, j < 1 → (s.plain .load (addr j) 4).isSome) ∧ (addr 1).toNat % 4 = 0 ∧
    translate s s.agent s.dataSpace .load (addr 1) = .page ∧ (s.work none).any (fun j => decide (j < 1)) = true := by decide +kernel

theorem meets_LoadConditions_first :
    let s := withX (atEdge i32) [(10, 0x1000#64)]
    Ready s i32 ∧ 0 ∈ s.work none ∧ (∀ j ∈ s.work none, ¬ j < 0) ∧ translate s s.agent s.dataSpace .load (s.x 10) = .page := by
  decide +kernel

theorem meets_SegmentAccesses_fields :
    let s := withV (atMain i32) 4 32 [1, 2, 3, 4]
    let addr (k j : Nat) : Word := s.x 10 + BitVec.ofNat 64 ((k * 3 + j) * 4)
    let segs : List Update := (s.work none).flatMap fun i => (List.range 3).map fun j =>
      (addr i j, 4, fun _ => s.element i32 (fieldGroup i32 4 j) i)
    Ready s i32 ∧ i32.fmt.isM8 = true ∧ fieldsOk i32 4 3 = true ∧ s.hart.vc.vstart < s.hart.vc.vl ∧
    (∀ k ∈ s.work none, ∀ j, j < 3 → (s.plain .load (addr k j) 4).isSome) ∧ (s.storeAll segs).isSome = true := by decide +kernel

/-- The vector type of an MX format in blocks of 32. -/
def mx : VType := { i32 with fmt := .mxe4m3 }

theorem meets_SegmentAccesses_scales :
    let s := withVl (atMain mx) 70
    let count := (s.hart.vc.vl + 2 ^ mx.bl - 1) / 2 ^ mx.bl
    let addr (j : Nat) : Word := s.x 10 + BitVec.ofNat 64 j * s.x 11
    let scales : List Update := ((List.range count).filter fun j =>
      decide (s.hart.vc.vstart < s.hart.vc.vl) && decide (s.hart.vc.vstart / 2 ^ mx.bl ≤ j)).map fun j =>
      (addr j, 1, fun _ => (s.hart.vec.scaleByte 3 j).toNat)
    Ready s mx ∧ count = 3 ∧ (∀ j, j < count → (s.plain .load (addr j) 1).isSome) ∧ (s.storeAll scales).isSome = true := by decide +kernel

theorem meets_SegmentAccesses_blocks :
    let s := withV (withVl (atMain mx) 33) 4 8 [1, 2, 3]
    let block (j old : Nat) : Nat := (s.hart.vec.scaleByte 3 j).toNat + ((List.range 32).map fun i =>
      (if (s.work none).contains (j * 32 + i) then s.element mx 4 (j * 32 + i) % 2 ^ 8 else old / 2 ^ (8 + i * 8) % 2 ^ 8) * 2 ^ (8 + i * 8)).sum
    let blocks : List Update := ((List.range ((s.hart.vc.vl + 32 - 1) / 32)).filter fun j =>
      (List.range 32).any fun i => (s.work none).contains (j * 32 + i)).map fun j => (s.x 10 + BitVec.ofNat 64 (j * 64), 64, block j)
    Ready s mx ∧ mx.groupAt 4 = true ∧ mx.fmt.isSC = true ∧ segmentSize mx = 64 ∧ (s.x 10).toNat % 64 = 0 ∧ 2 ^ mx.bl = 32 ∧
    mx.fmt.packed = 8 ∧ (s.storeAll blocks).isSome = true := by decide +kernel

theorem meets_VectorStores :
    let s := withV (atMain i32) 4 32 [1, 2, 3, 4]
    let ups (addr : Nat → Word) : List Update := (s.work none).map fun k => (addr k, 4, fun _ => s.element i32 4 k)
    Ready s i32 ∧ i32.groupAt 4 = true ∧ i32.fmt.packed % 8 = 0 ∧ i32.fmt.isM8 = true ∧ i32.groupAt 8 = true ∧
    (s.storeAll (ups fun k => s.x 10 + BitVec.ofNat 64 (k * 4))).isSome = true ∧
    (s.storeAll (ups fun k => s.x 10 + BitVec.ofNat 64 k * s.x 11)).isSome = true ∧
    (s.storeAll (ups fun k => s.x 10 + BitVec.ofNat 64 (s.element i32 8 k * 4))).isSome = true := by decide +kernel

theorem meets_VectorStores_fill :
    let s := withV (atTcm i32) 4 32 [1, 2, 3, 4]
    let r := s.storeAll ((s.work none).map fun k => (s.x 10 + BitVec.ofNat 64 (k * 4), 4, fun _ => s.element i32 4 k))
    Ready s i32 ∧ r.isSome = true ∧ ∀ p ∈ (r.getD (s, [])).2, hasFullEmpty s.bigMemory p.1 = true := by decide +kernel

theorem meets_VectorStores_compressed :
    let s := withV (withX (under i32) [(10, 0x100000#64), (11, 0x200000#64)]) 4 32 [7, 0, 9, 0]
    let present (k : Nat) : Bool := decide (k < s.hart.vc.vl) && s.hart.vec.active none k && s.element i32 4 k != 0
    let below (k : Nat) : Nat := ((List.range k).filter present).length
    let bitmap (i : Nat) : Nat := ((List.range 8).map fun j => if present (8 * i + j) then 2 ^ j else 0).sum
    let ups : List Update := (List.range' s.hart.vc.vstart (s.hart.vc.vl - s.hart.vc.vstart)).flatMap fun k =>
      (if k % 8 = 0 ∨ k = s.hart.vc.vstart then [(s.x (pairOf 10) + BitVec.ofNat 64 (k / 8), 1, fun _ => bitmap (k / 8))] else []) ++
      (if present k then [(s.x 10 + BitVec.ofNat 64 (below k * 4), 4, fun _ => s.element i32 4 k)] else [])
    Ready s i32 ∧ NoCopyFault s ∧ i32.groupAt 4 = true ∧ i32.fmt.isM8 = true ∧ (s.storeAll ups).isSome = true := by decide +kernel

theorem meets_IndexedUpdates :
    let s := withV (atMain i32) 4 32 [1, 2, 3, 4]
    let ups (m : Option MName) : List Update := (s.work m).map fun k =>
      (s.x 10 + BitVec.ofNat 64 (s.element i32 8 k * 4), 4, fun old => (updValue .add i32.fmt old (s.element i32 4 k)).1)
    Ready s i32 ∧ i32.groupAt 4 = true ∧ i32.groupAt 8 = true ∧ i32.meet 4 8 = false ∧ updAccepts .add i32.fmt = true ∧
    UpdOp.add ≠ .swap ∧ UpdOp.add ≠ .fadd ∧ (s.storeAll (ups none)).isSome = true ∧ s.hart.vc.vstart < s.hart.vc.vl := by decide +kernel

/-- A package of device 3 with one window over all memory that asks for no key. -/
def window : RemoteWindow := ⟨0#64, 0xFFFFFFFFFFFFFF#64, 0x8000000F00000000#64⟩

theorem meets_IndexedUpdates_here :
    let s := withVl (withX (under i32) [(10, 0x100000#64), (11, 3#64)]) 1
    let s := { s with
      ready := [(0, BitVec.allOnes 64), (16, BitVec.allOnes 64), (20, BitVec.allOnes 64)]
      remote := { s.remote with devnum := 3#21, windows := [(0, window)] } }
    let dev : BitVec 21 := (s.x (pairOf 10)).extractLsb' 0 21
    let key : BitVec 32 := (s.x (pairOf 10)).extractLsb' 32 32
    Ready s i32 ∧ (s.x 10 + BitVec.ofNat 64 (s.element i32 8 0 * 4)).toNat % 4 = 0 ∧ s.awaited? (· == .atomic s.hartId 0) = none ∧
    dev = s.remote.devnum ∧ s.hart.vc.vl = 0 + 1 ∧ s.admits dev .atomic 0x100000 4 key = true ∧ s.routeToRemote s.agent = .open' ∧
    s.remote.lost = none ∧ s.meets 0x100000 4 true = .clear := by
  refine ⟨by decide +kernel, by decide +kernel, by decide +kernel, by decide +kernel, by decide +kernel, by decide +kernel,
    by decide +kernel, by decide +kernel, ?_⟩
  rfl

theorem meets_IndexedUpdates_away :
    let s := withMem (withX (under i32) [(10, 0x100000#64), (11, 5#64)]) (0x300000 + 8 * 5) 8 (2 ^ 63)
    let s := { s with
      ready := [(0, BitVec.allOnes 64), (16, BitVec.allOnes 64), (20, BitVec.allOnes 64)]
      remote := { s.remote with devnum := 3#21, rtbase := 0x300000#64 } }
    let dev : BitVec 21 := (s.x (pairOf 10)).extractLsb' 0 21
    Ready s i32 ∧ s.hart.vc.vstart < s.hart.vc.vl ∧ dev ≠ s.remote.devnum ∧ (s.netRoute dev).isSome = true ∧
    s.routeToRemote s.agent = .open' ∧ s.remote.lost = none ∧
    (s.x 10 + BitVec.ofNat 64 (s.element i32 8 0 * 4)).toNat % 4 = 0 ∧ s.awaited? (· == .atomic s.hartId 0) = none := by decide +kernel

/-! ## Hypotheses met: ranges, streams, copies and grants -/

theorem meets_RangesAndStreams :
    let s := withX (atTcm i32) [(11, 40#64)]
    let count := if s.x 11 = 0#64 then 0 else ((s.x 10).toNat % 16 + (s.x 11).toNat + 15) / 16
    let at' (g : Nat) : Word := if g = 0 then s.x 10 else BitVec.ofNat 64 ((s.x 10).toNat / 16 * 16 + 16 * g)
    let place (g : Nat) : Option Nat := match translate s s.agent s.dataSpace .store (at' g) with
      | .ok pa _ => if hasFullEmpty s.bigMemory pa then some (pa / 16) else none
      | _ => none
    Prompt s ∧ s.hart.vc.vtype = some i32 ∧ (s.x 11).toNat < 2 ^ 39 ∧
    ∀ g ∈ List.range' s.hart.vc.vstart (count - s.hart.vc.vstart), (place g).isSome := by decide +kernel

/-- A stream control block at 0x100000: count 8, format i32, rows of 4. -/
def withBlock (s : State) : State := withMem (withMem s 0x100018 8 8) 0x100020 8 (30 + 4 * 1024)

theorem meets_RangesAndStreams_bind :
    let s := withBlock (atMain i32)
    let word (i : Nat) : Word := BitVec.ofNat 64 (s.loaded (s.x 10) 64 / 2 ^ (64 * i))
    Prompt s ∧ i32 ∈ s.hart.vc.vtype ∧ i32.groupAt 4 = true ∧ (s.x 10).toNat % 64 = 0 ∧ (s.plain .load (s.x 10) 64).isSome = true ∧
    (∀ i : Fin 4, i ≠ 2 → ∀ o ∈ s.hart.streams[i], groupsMeet o.regs o.group i32.mul 4 = false) ∧
    (scbOf word 4 i32.mul).isSome = true ∧ s.hart.vc.vtype ≠ none := by decide +kernel

/-- A stream of i32 elements in three rows of four at 0x200000, its row list at 0x100000, bound to v8 at a position. -/
def stream (pos : Nat) : Stream := ⟨0x100000#64, 0x200000#64, 64#64, 3, 4, 0, .i32, 8, 1, pos, none⟩

/-- A hart with that stream bound in slot 2, at element 1 of a strip of four. -/
def bound (t : VType) (pos : Nat) : State :=
  let s := withMem (atMain t) 0x100000 8 0x0000000500000007
  { s with hart := { s.hart with vc := { s.hart.vc with vstart := 1 }, streams := s.hart.streams.set 2 (some (stream pos)) } }

theorem meets_RangesAndStreams_pops :
    let s := bound i32 6
    let b := stream 6
    let entry (r : Nat) : Word := b.index + BitVec.ofNat 64 (r * b.indexBytes)
    let place (p : Nat) : Word := b.base + BitVec.ofNat 64 (s.loaded (entry (p / b.rowLen)) b.indexBytes) * b.rowStride +
      BitVec.ofNat 64 (p % b.rowLen * 4)
    Prompt s ∧ s.hart.fits = true ∧ s.hart.lanes.held ≠ [] ∧ s.hart.vc.vtype = some i32 ∧ i32.groupAt 4 = true ∧ i32.groupAt 8 = true ∧
    i32.meet 4 8 = false ∧ s.hart.streams[(2 : Fin 4)] = some b ∧ (∀ i : Fin 4, i ≠ 2 → s.hart.streams[i] = none) ∧
    b.group = (8 : VName).val ∧ b.regs = i32.mul ∧ s.hart.vc.vstart < s.hart.vc.vl ∧ i32.fmt = b.sfmt ∧ b.pos < b.total ∧
    i32.fmt.isM8 = true ∧ (∀ k, k < s.hart.vc.vl → s.hart.vc.vstart ≤ k → b.pos + k < b.total →
      (s.plain .load (entry ((b.pos + k) / b.rowLen)) b.indexBytes).isSome = true ∧ (s.plain .load (place (b.pos + k)) 4).isSome = true) ∧
    after (exec (.vmv 4 8 none) s) (fun u => ((List.range 4).map (u.element i32 4), (u.hart.streams[(2 : Fin 4)]).map Stream.pos)) =
      some ([0, 0, 0, 0], some 10) := by decide +kernel

/-- The same where the stream is exhausted, and where it has another format. -/
theorem meets_RangesAndStreams_faults :
    (stream 12).total ≤ (stream 12).pos ∧ Prompt (bound i32 12) ∧ fp32.fmt ≠ (stream 6).sfmt ∧ Prompt (bound fp32 6) ∧
    (bound fp32 6).hart.vc.vtype = some fp32 ∧
    (after (exec (.vmv 4 8 none) (bound fp32 6)) fun u => u.hart.vfault.map fun f => (f.cause, f.kind)) = some (some (29, 1)) := by
  decide +kernel

theorem meets_CopyHandOff :
    let s := withX (under i32) [(10, 0x100000#64), (12, 0x200000#64), (14, 256#64), (15, BitVec.ofNat 64 tcmBase), (16, 0#64)]
    Prompt s ∧ s.hart.vc.vtype ≠ none ∧ s.engineReady (clusterOf s.hartId) = true ∧ (s.x 14).toNat < 2 ^ 36 ∧ s.x 14 ≠ 0#64 ∧ s.x 16 = 0#64 ∧
    translate s (.engine (clusterOf s.hartId)) s.dataSpace .store (s.x (pairOf 14)) = .ok tcmBase false ∧
    Canonical s ∧
    (s.x (pairOf 14)).toNat % 32 = 0 ∧ s.poisoned tcmBase = false ∧ (s.barrier tcmBase).pending + 256 < 2 ^ 36 := by
  unfold Canonical
  decide +kernel

theorem meets_Grants :
    let s := withX (under i32) [(10, 1000#64), (11, 31#64), (12, 33#64)]
    let u := s.applyLanes
    let t := { i32 with fmt := .n32, blm3 := 0 }
    Grantable s ∧ requestedType (s.x 11) = some t ∧ Least 1000 (u.grantLimits t (s.x 10).toNat) ∧ requestedType (s.x 12) = none := by
  decide +kernel

theorem meets_Grants_immediate :
    let s := withX (under i32) [(10, 5000#64)]
    let u := s.applyLanes
    let t := { i32 with fmt := .n8 }
    Grantable s ∧ requestedType (immediateType 21#9) = some t ∧ Least 4096 (u.grantLimits t (s.x 10).toNat) ∧
    requestedType (immediateType 0xFF#9) = none := by decide +kernel

theorem meets_Grants_shaped :
    let s := withX (under i32) [(10, 3#64), (11, 100#64)]
    let u := s.applyLanes
    let streams := u.streamsAhead.toList.filterMap (·.map Stream.left)
    Grantable s ∧ i32 ∈ s.hart.vc.vtype ∧ Least 1024 (u.grantLimits i32 (u.maxElems i32)) ∧ u.hart.facts.ceil = 0 ∧
    Least 1024 ([u.maxElems i32] ++ streams) ∧ Least 1024 ([u.maxElems i32, u.powered i32] ++ streams) := by decide +kernel

/-- A start record's ceiling of 100 limits a shape to 64 elements, where the request is for 3 rows of 100: CEIL (R223). -/
theorem test_vsetsh_ceiling :
    let s := withX (under i32) [(10, 3#64), (11, 100#64)]
    let s := { s with hart := { s.hart with facts := { s.hart.facts with ceil := 100 } } }
    after (exec (.vsetsh 12 10 11) s) (fun u => (u.x 12, u.hart.vc.pwr, u.hart.vc.ceil)) = some (64#64, false, true) := by decide +kernel

theorem meets_Grants_untyped :
    let s := { under i32 with hart := { (under i32).hart with vc := { (under i32).hart.vc with vtype := none } } }
    Grantable s ∧ s.hart.vc.vtype = none := by decide +kernel

theorem meets_Squalls_declare :
    let s := withMem (atMain i32) 0x100010 8 500
    let word (k : Nat) : Word := BitVec.ofNat 64 (s.loaded (s.x 10) 64 / 2 ^ (64 * k))
    s.engineReady (clusterOf s.hartId) = true ∧ (s.plain .load (s.x 10) 64).isSome = true ∧ (word 2).toNat < 2 ^ 32 ∧ (∀ k, k < 8 → 3 ≤ k → word k = 0#64) ∧
    (s.squallSlot 0).squall = none := by decide +kernel

/-- A squall of 100 elements from element 7 on. -/
def squall : Squall := ⟨7#64, 100, 0, 0, 0#16, none⟩

theorem meets_Squalls_full :
    let s := { atMain i32 with squalls := (List.range 32).map fun i => (i, ⟨0#32, some squall⟩) }
    s.engineReady (clusterOf s.hartId) = true ∧ (s.plain .load (s.x 10) 64).isSome = true ∧ ∀ j, j < 32 → (s.squallSlot (32 * clusterOf s.hartId + j)).squall ≠ none := by decide +kernel

theorem meets_Squalls_live :
    let s := { withX (under i32) [(10, squallHandle 4 3#32), (11, 30#64)] with squalls := [(4, ⟨3#32, some squall⟩)] }
    let t := { i32 with blm3 := 0 }
    let u := s.applyLanes
    32 * clusterOf s.hartId + 4 < 512 ∧ (s.squallSlot 4).squall = some squall ∧ squall.asid = s.asid ∧
    s.x 10 = squallHandle 4 (s.squallSlot 4).gen ∧ Grantable s ∧ requestedType (s.x 11) = some t ∧
    Least 100 (u.grantLimits t (squall.count - squall.taken) ++ (if squall.stripMax = 0 then [] else [squall.stripMax])) := by decide +kernel

/-- A cluster whose squall table is not ready. -/
theorem meets_Squalls_dark :
    let s := { atMain i32 with ready := [] }
    s.engineReady (clusterOf s.hartId) = false ∧ (requestedType (s.x 11)).isSome = true ∧
    after (exec (.sqdecl 12 10) s) (fun u => u.hart.csr.mcause) = some 5#64 := by decide +kernel

/-! ## Hypotheses met: the matrix array -/

/-- A shape of 2 by 2 by 2 over signed bytes. -/
def shape : Word := 0x1414010101#64

/-- Vectors of signed bytes in rows of two. -/
def i8x2 : VType := ⟨.i8, 0, 2, false, false, true, 1⟩

/-- A hart with sixteen K-rows attached, under a shape of signed bytes, with two rows of two elements in v4. -/
def onArray : State :=
  let s := withV (atMain i8x2) 4 8 [1, 2, 3, 4]
  { s with hart := { s.hart with mshape := shape, attachment := some (Attachment.fresh 16 shape) } }

theorem meets_MatrixControl :
    Prompt (atMain i8x2) ∧ (atMain i8x2).hart.attachment = none ∧ Prompt onArray ∧ onArray.hart.attachment.isSome = true ∧
    NoCopyFault onArray := by decide +kernel

theorem meets_MatrixControl_loads :
    let s := onArray
    let att := Attachment.fresh 16 shape
    let granule (r g : Nat) : Word := s.x 10 + BitVec.ofNat 64 r * s.x 11 + BitVec.ofNat 64 (16 * g)
    Canonical s ∧ Prompt s ∧ s.hart.lanes.held ≠ [] ∧ att ∈ s.hart.attachment ∧
    shapeOf s.hart.mshape = some ⟨2, 2, 2, .i8, .i8, 0, 0, 0⟩ ∧ 2 ≤ att.rows ∧
    scalesTooMany ⟨2, 2, 2, .i8, .i8, 0, 0, 0⟩ s.hart.vlen = false ∧ (s.x 10).toNat % 16 = 0 ∧ (s.x 11).toNat % 16 = 0 ∧
    s.hart.vc.vstart < 2 ∧ (∀ r, r < 2 → ∀ g, g < (2 * 8 + 127) / 128 → (s.plain .load (granule r g) 16).isSome) ∧
    i8x2 ∈ s.hart.vc.vtype ∧ i8x2.groupAt 4 = true ∧ i8x2.sh = true ∧ s.hart.unbound = true ∧ 2 ≤ 2 ^ i8x2.rlog.val ∧
    2 ≤ s.hart.vc.vl / 2 ^ i8x2.rlog.val ∧ s.hart.vc.vl ≤ s.maxElems i8x2 := by
  unfold Canonical
  decide +kernel

theorem meets_MatrixProducts :
    let att := Attachment.fresh 16 shape
    Ready onArray i8x2 ∧ i8x2.groupAt 4 = true ∧ att ∈ onArray.hart.attachment ∧
    shapeOf onArray.hart.mshape = some ⟨2, 2, 2, .i8, .i8, 0, 0, 0⟩ ∧ accKind .i8 att.active.wf 0 = some .i32 ∧ 2 ≤ att.rows ∧
    att.lost = false ∧ i8x2.fmt = .i8 ∧ att.tiles[(1 : AccName)].kind.any (· != .i32) = false ∧ i8x2.sh = true ∧ 2 ≤ 2 ^ i8x2.rlog.val ∧
    2 ≤ onArray.hart.vc.vl / 2 ^ i8x2.rlog.val ∧ (Fmt.i8.scaled = true → i8x2.bl ≤ i8x2.rlog.val) := by decide +kernel

theorem meets_MatrixProducts_sliding :
    let t := { i8x2 with sh := false }
    let s := { onArray with hart := { onArray.hart with vc := { onArray.hart.vc with vtype := some t } } }
    Ready s t ∧ t.sh = false ∧ 2 + 2 - 1 ≤ s.hart.vc.vl ∧ Attachment.fresh 16 shape ∈ s.hart.attachment := by decide +kernel

theorem meets_MatrixProducts_exact :
    isMatrixInt .i8 = true ∧ ([(5, 127#8), (250, 127#8)] : List (Nat × Byte)).length = ([(7, 127#8), (3, 127#8)] : List (Nat × Byte)).length ∧
    10 < 2 ^ 32 ∧
    (Fmt.i32.toInt 10).natAbs + ((([(5, 127#8), (250, 127#8)] : List (Nat × Byte)).zip [(7, 127#8), (3, 127#8)]).map fun p =>
      (Fmt.i8.toInt p.1.1 * Fmt.i8.toInt p.2.1).natAbs).sum < 2 ^ 31 := by decide +kernel

theorem meets_ReadOuts :
    Ready onArray i8x2 ∧ i8x2.groupAt 4 = true ∧ Attachment.fresh 16 shape ∈ onArray.hart.attachment ∧
    (readout i8x2 (shapeOf onArray.hart.mshape) (Attachment.fresh 16 shape).tiles[(1 : AccName)]).isSome = true ∧
    (i8x2.fmt.isFS || i8x2.fmt.isInt) = true ∧ Rm.rne.resolve onArray.hart.vc.vrm ≠ .sr := by decide +kernel

theorem meets_ReadOuts_scaled :
    let t : VType := ⟨.mxe4m3, 0, 0, false, false, true, 3⟩
    let s := { onArray with hart := { onArray.hart with vc := { onArray.hart.vc with vtype := some t } } }
    Ready s t ∧ t.groupAt 4 = true ∧ t.fmt.isSC = true ∧ (Attachment.fresh 16 shape).tiles[(1 : AccName)].kind.getD .fp32 ≠ .i32 ∧
    readout t (shapeOf s.hart.mshape) (Attachment.fresh 16 shape).tiles[(1 : AccName)] = some (128, 8) ∧ 8 % 2 ^ t.bl = 0 ∧
    Rounding.ofVrm s.hart.vc.vrm ≠ .sr := by decide +kernel

/-! ## Hypotheses met: rounds, barriers, launches and the system instructions -/

/-- A block at 0x100000: word 0 adds v2 to v3, word 1 stops. -/
def withCode (s : State) : State := withMem (withMem s 0x100000 8 0x000003C00020C301) 0x100008 8 0x38

theorem meets_Broadcasts :
    let s := withCode (atMain i32)
    Prompt s ∧ s.hart.vc.vtype = some i32 ∧ (s.x 10).toNat % 128 = 0 ∧ (List.range s.hart.vc.vl).filter (s.hart.vec.active none) ≠ [] ∧
    (s.blockAt i32 (s.x 10)).isSome = true ∧ (List.range s.hart.vc.vl).filter (s.hart.vec.active (some 3)) = [] := by decide +kernel

theorem meets_Broadcasts_faults :
    let s := withX (under i32) [(10, 0x100040#64), (11, 0x100080#64)]
    Prompt s ∧ s.hart.vc.vtype = some i32 ∧ (s.x 10).toNat % 128 ≠ 0 ∧ (s.x 11).toNat % 128 = 0 ∧
    (List.range s.hart.vc.vl).filter (s.hart.vec.active none) ≠ [] ∧ (s.blockFault i32 (s.x 11)).isSome = true := by decide +kernel

/-- A resume group of one member, with its number. -/
def group (n : Nat) : ResumeGroup :=
  ⟨n, 0x100000#64, 4, 15, i32, .m, none, [⟨1, true, true, 0, 0x100000#64, 1, .running, .aside none, none, none⟩], none, none⟩

theorem meets_Broadcasts_control :
    let s := under i32
    s.hart.idle = true ∧ s.copying s.hartId = false ∧ NoCopyFault s ∧ Prompt s ∧ s.hart.vc.vtype = some i32 ∧
    ([group 2].filter fun r => false || r.num == (1 : Fin 8).val) = [] ∧
    (continueRound ([group 2].filter fun r => false || r.num == (2 : Fin 8).val) s.hart.seq s.cycle true).isSome = true ∧
    ∀ c ∈ s.copies, c.hart = s.hartId → c.held = none := by decide +kernel

/-- A barrier object in the TCM that expects `expect` arrivals. -/
def withBarrier (s : State) (expect : Nat) : State := withMem (withX s [(10, BitVec.ofNat 64 tcmBase)]) tcmBase 8 expect

theorem meets_Barriers :
    let s := withBarrier (under i32) 1
    Canonical s ∧ (s.x 10).toNat % 32 = 0 ∧ (s.placed .store (s.x 10)).isSome = true ∧ Prompt s ∧ s.poisoned tcmBase = false ∧
    (s.barrier tcmBase).expect = 1 := by
  unfold Canonical
  decide +kernel

theorem meets_Barriers_waits :
    let s := withBarrier (under i32) 2
    let s (gen : Bool) : State := { s with hart := { s.hart with arrival := some (s.x 10, gen) } }
    (s true).hart.vwork = [] ∧ (s true).plain .load ((s true).x 10) 32 = some tcmBase ∧ true ≠ ((s true).barrier tcmBase).gen ∧
    (s false).hart.vwork = [] ∧ false = ((s false).barrier tcmBase).gen ∧ (s false).hart.waiting = .nothing ∧
    ({ s false with hart := { (s false).hart with waiting := .barrier tcmBase true } } : State).hart.waiting = .barrier tcmBase true := by
  decide +kernel

theorem meets_Barriers_full_empty :
    let s := withX (under i32) [(10, BitVec.ofNat 64 tcmBase), (11, 9#64)]
    let t := { atTcm i32 with cycle := 2 ^ 30 + 7 }
    s.plain .load (s.x 10) 8 = some tcmBase ∧ hasFullEmpty s.bigMemory tcmBase = true ∧ s.full tcmBase = false ∧
    s.hart.waiting = .nothing ∧ 7 + 2 ^ 30 ≤ t.cycle ∧ (atTcm i32).plain .load ((atTcm i32).x 10) 8 = some tcmBase ∧
    (atTcm i32).full tcmBase = true ∧ (s.x 10).toNat % 8 = 0 ∧ s.placed .store (s.x 10) = some tcmBase := by decide +kernel

/-- A start record at 0x100000: one hart, one lane group, ASID 0. -/
def withRecord (s : State) : State := withMem (withMem s 0x100000 8 0x4000) 0x100010 8 (2 ^ 16 + 2 ^ 20 + 2 ^ 24)

/-- A launch queue that is enabled. -/
def queue : LaunchQueue := { LaunchQueue.reset with enable := true, umode := true, cores := 0xFFFFFFFF#32, clmask := 0xF#4, diemask := 0xF#4 }

/-- The words of that record, as LAUNCH reads them. -/
def recordOf (s : State) : StartRecord :=
  let words : Vector Word 8 := Vector.ofFn fun i => BitVec.ofNat 64 (Memory.readNum s.memory (0x100000 + 8 * i.val) 8)
  StartRecord.ofWords fun i => words.getD i 0#64

theorem meets_Launches_accepted :
    let s := withX (withRecord { atMain i32 with queues := [(2, queue)], astbase := 0x400000#64 }) [(11, 2#64)]
    let s := withMem s 0x400000 8 (9 * 2 ^ 60)
    let q := s.queue 2
    (s.x 11).toNat < 64 ∧ q.admits s.hart = true ∧ s.plain .load (s.x 10) 64 = some 0x100000 ∧
    (recordOf s).refused s.mostLanes = none ∧ ¬ (1024 ≤ q.records.length ∨ s.freeSlots 2 = 0) ∧ s.queueReady q = true ∧
    s.addressSpaceWaits s.agent (recordOf s).asid = false ∧ (s.addressSpace s.agent (recordOf s).asid).isSome = true := by decide +kernel

theorem meets_Launches_refused :
    let s := withX (withRecord { atMain i32 with queues := [(2, queue)] }) [(11, 2#64), (12, 3#64), (13, 0x100008#64)]
    let bad := withMem s 0x100010 8 0
    ((s.queue 3).admits s.hart = false ∧ (s.x 12).toNat < 64 ∧ (s.plain .load (s.x 10) 64).isSome = true) ∧
    ((s.queue 2).admits s.hart = true ∧ (s.x 13).toNat % 64 ≠ 0) ∧
    ((bad.queue 2).admits bad.hart = true ∧ bad.plain .load (bad.x 10) 64 = some 0x100000 ∧
      (recordOf bad).refused bad.mostLanes = some 2) := by decide +kernel

theorem meets_Launches_busy :
    let filled : LaunchQueue := { queue with records := List.replicate 1024 ⟨1, Vector.replicate 8 0#64, none⟩ }
    let s := withX (withRecord { atMain i32 with queues := [(2, filled)] }) [(11, 2#64)]
    let dark : LaunchQueue := { queue with diemask := 0#4 }
    let u := withX (withRecord { atMain i32 with queues := [(2, dark)] }) [(11, 2#64)]
    let unmapped := withX (withRecord { atMain i32 with queues := [(2, queue)] }) [(11, 2#64)]
    ((s.queue 2).admits s.hart = true ∧ s.plain .load (s.x 10) 64 = some 0x100000 ∧ (recordOf s).refused s.mostLanes = none ∧
      1024 ≤ (s.queue 2).records.length) ∧
    ((recordOf u).refused u.mostLanes = none ∧ ¬ (1024 ≤ (u.queue 2).records.length ∨ u.freeSlots 2 = 0) ∧
      u.queueReady (u.queue 2) = false) ∧
    ((recordOf unmapped).refused unmapped.mostLanes = none ∧ unmapped.queueReady (unmapped.queue 2) = true ∧
      unmapped.addressSpaceWaits unmapped.agent (recordOf unmapped).asid = false ∧
      (unmapped.addressSpace unmapped.agent (recordOf unmapped).asid).isNone = true ∧
      unmapped.poisoned (unmapped.astEntry (recordOf unmapped).asid) = false) := by decide +kernel

theorem meets_Launches_bad_queue :
    let s := withX (withRecord { atMain i32 with queues := [(2, queue)] }) [(11, 64#64), (12, 0x10000000#64)]
    (s.x 11).getLsbD 27 = false ∧ 64 ≤ (s.x 11).toNat ∧ (s.plain .load (s.x 10) 64).isSome = true ∧
    2 ^ 28 ≤ (s.x 12).toNat ∧ after (exec (.launch 13 10 11) s) (·.x 13) = some 1#64 := by decide +kernel

/-- A remote LAUNCH for queue 2 of device 5, from a package of device 3 with one permit for it and a way to it. -/
def launchingAway : State :=
  let s := withMem (withX (withRecord (atMain i32)) [(11, 0x8000142#64)]) (0x300000 + 8 * 5) 8 (2 ^ 63)
  { s with
    ready := [(0, BitVec.allOnes 64), (16, BitVec.allOnes 64), (20, BitVec.allOnes 64)]
    remote := { s.remote with devnum := 3#21, rtbase := 0x300000#64, permits := [(7, ⟨0x8000000000400005#64, 1#16⟩)] } }

theorem meets_Launches_remote :
    let s := launchingAway
    let dev : BitVec 21 := (s.x 11).extractLsb' 6 21
    let held (q : Nat) := s.remote.permits.filter fun p => p.2.head.getLsbD 63 && p.2.head.extractLsb' 0 21 == dev &&
      getField p.2.head 21 6 == q && p.2.head.extractLsb' 27 16 == s.hart.csr.satp.extractLsb' 44 16 && p.2.count != 0#16
    (s.x 11).getLsbD 27 = true ∧ (s.x 11).toNat < 2 ^ 28 ∧ s.plain .load (s.x 10) 64 = some 0x100000 ∧
    (recordOf s).refused 8 = none ∧ s.routeToRemote s.agent = .open' ∧ held 2 ≠ [] ∧ held 3 = [] ∧ dev ≠ s.remote.devnum ∧
    (s.netRoute dev).isSome = true ∧ (s.x 11).extractLsb' 6 21 = ({ s.remote with devnum := 5#21 } : Remote).devnum ∧
    after (exec (.launch 13 10 11) s) (fun u => (u.remote.permits.map (·.2.count), u.remote.outbox.length)) = some ([0#16], 1) := by
  decide +kernel

theorem meets_Launches_ticket :
    let s := withX { atMain i32 with queues := [(0, { queue with tickets := [⟨7, 1, 0, 0⟩, ⟨5, 2, 1, 0⟩] })] } [(10, 5#64), (11, 6#64)]
    ((⟨5, 2, 1, 0⟩ : Ticket) ∈ (s.queue (getField (s.x 10) 50 6)).tickets.find? (fun t => t.seq == getField (s.x 10) 0 50) ∧
      (s.x 10).toNat < 2 ^ 56 ∧ after (exec (.lstat 12 10) s) (·.x 12) = some 0x102#64) ∧ ∀ t ∈ (s.queue (getField (s.x 11) 50 6)).tickets, t.seq ≠ getField (s.x 11) 0 50 := by decide +kernel

/-- A launch of two harts of core 0. -/
def launch : Launch := ⟨4, 2, 9, 0, [0, 1], (0, 0), (0, 0), none, 0#64, ⟨0#64, .u, false, false, 0#5, 0⟩⟩

theorem meets_HartsAndSystem :
    let s := { under i32 with launches := [launch] }
    let last := { under i32 with launches := [{ launch with harts := [0] }] }
    s.hart.idle = true ∧ s.copying s.hartId = false ∧ NoCopyFault s ∧ (∀ l ∈ s.launchOf s.hartId, (s.completion l).isSome = true) ∧
    launch ∈ s.launchOf s.hartId ∧ launch.harts.filter (· != s.hartId) ≠ [] ∧ (under i32).launchOf 0 = none ∧
    { launch with harts := [0] } ∈ last.launchOf last.hartId ∧ [0].filter (· != last.hartId) = [] ∧ launch.bar = 0#64 := by decide +kernel

theorem meets_HartsAndSystem_services :
    let s := under i32
    s.hart.mode ≠ .u ∧ s.hart.parked = false ∧ s.hart.live = true ∧ s.hart.app = false ∧
    (physicalRuns s 0x100000 (0x100000 + 4096) 1 0x100).isSome = true := by decide +kernel

/-- Two running harts of a core exchange lane groups: hart 0 holds groups 0 and 1, hart 1 group 2. -/
def sharing : State :=
  let s := withX (under i32) [(10, 0x00011110#64)]
  { s with
    hart := { s.hart with lanes := ⟨[0, 1], [], [], []⟩ }
    others := [(1, { Hart.reset with live := true, lanes := ⟨[2], [], [], []⟩ })] }

theorem meets_HartsAndSystem_partition :
    sharing.hart.mode ≠ .u ∧ Canonical sharing ∧ sharing.partLegal (coreOf sharing.hartId) (sharing.x 10) = true ∧
    after (exec (.lanepart 10) sharing) (fun u =>
      (u.hart.lanes.lose, u.hart.lanes.receive, (u.getHart 1).lanes.receive, (u.core 0).promised)) =
      some ([1], [5, 6, 7], [3, 4], [(1, 1)]) := by
  unfold Canonical
  decide +kernel

/-- A hart that holds no lane group, and so no register content. -/
def bare : State :=
  { State.reset with
    ready := [(16, BitVec.allOnes 64)]
    hart := { Hart.reset with live := true, x := (Vector.replicate 32 0#64).set 10 0x100000#64 } }

theorem meets_ContextImages_save :
    let s := withVl (atMain i32) 0
    s.hart.mode ≠ .u ∧ s.hart.idle = true ∧ (s.x 10).toNat % 4096 = 0 ∧ s.hart.vec.clean = true ∧ s.atomicOut = false ∧
    (s.spanStored (s.x 10) (s.hart.image true)).isSome = true := by decide +kernel

theorem meets_ContextImages_save_raw :
    bare.hart.mode ≠ .u ∧ bare.hart.idle = true ∧ (bare.x 10).toNat % 4096 = 0 ∧ bare.hart.vec.clean = true ∧ bare.atomicOut = false ∧
    (bare.spanStored (bare.x 10) (bare.hart.image false)).isSome = true := by decide +kernel

/-- What `VCTXRST` needs of an image at X[a]. -/
def restorable (s : State) (a : XReg) (port : Bool) : Bool :=
  match s.spanLoaded (s.x a) 256 with
  | none => false
  | some head => match readLayout head with
    | none => false
    | some l => l.port == port && s.hart.accepts l &&
      (match s.spanLoaded (s.x a) (if port then l.ixtAt + 8 else l.ixtAt) with
      | none => false
      | some part =>
        let count := if port then numAt part l.ixtAt 8 % 2 ^ 32 else 0
        match s.spanLoaded (s.x a) (l.length count) with
        | none => false
        | some img => match readWork s.hart img l count with
          | none => false
          | some work => rowsOk img l count && !l.att &&
            (s.spanLoadedIn s.areaSpace s.hart.csr.sctxbase (32 * ((work.groups.head?.map (·.vl)).getD 0))).isSome &&
            (!port || (s.spanStored (s.x a) (List.replicate 124 0#8)).isSome))

theorem meets_ContextImages_restore :
    let s := withVl (atMain i32) 0
    restorable ((s.spanStored (s.x 10) (s.hart.image true)).getD s) 10 true = true := by decide +kernel

theorem meets_ContextImages_restore_raw :
    restorable (withMem (withMem bare 0x100000 8 0x14F564358) 0x100028 8 (2 ^ 63)) 10 false = true := by decide +kernel

/-! ## Hypotheses met: blocks -/

/-- A micro-thread of element 1 at word 0 of the block at 0x100000, in a round of two under a vector type. -/
def micro : Micro := ⟨1, true, true, 0, 0x100000#64, 0, .running, .group 0, none, none⟩

/-- The round of `micro` and of element 0. -/
def round (t : VType) : Round :=
  ⟨0, 0, 4, 15, t, true, .no, none, .m, [{ micro with elem := 0 }, micro], [⟨0, 0x100000#64, [], false, 0, []⟩], [], 1⟩

/-- A hart in that round, with the micro-thread of element 1 to execute an instruction. -/
def inRound (t : VType) : State :=
  let s := under t
  { s with hart := { s.hart with mt := some micro, round := some (round t), links := ⟨3#maxVlen, [], []⟩ } }

/-- Arguments of an i32 instruction `d = a op b`. -/
def abd : BlockArgs := plain 4 (.e 2) (.e 3) (.e 0) .i32 .rne 0#13

theorem meets_BlockValues :
    let s := inRound i32
    s.hart.mt = some micro ∧ s.hart.round = some (round i32) ∧ micro.poison = none ∧ abd.formOk .add = true ∧ s.hart.vec.clean = true ∧
    15 ≤ (round i32).log2vlen ∧ (round i32).log2vlen ≤ 18 ∧ executes s.hart.vec micro.elem abd.pred = true ∧
    abd.d.val + micro.elem / ((round i32).vlen / abd.widthD .add) < 32 ∧
    executes s.hart.vec micro.elem (some (false, 3)) = false := by decide +kernel

theorem meets_BlockPredicates :
    let s := inRound i32
    let f := { abd with fn13 := 2#13 }
    f.formOk .cmp = true ∧ s.hart.vec.clean = true ∧ micro ∈ (round i32).micros ∧ micro.elem < maxVlen ∧ executes s.hart.vec micro.elem f.pred = true := by
  decide +kernel

theorem meets_BlockPredicates_ends :
    let s := inRound i32
    let stop := plain 0 (.e 0) (.e 0) (.e 0) .fp64 .rne 0#13
    let fetch := plain 0 .zero (.e 0) (.e 0) .fp64 .rne 1#13
    let off := plain 0 (.b 0) (.e 0) (.e 0) .fp64 .rne 1#13
    let fetchc := plain 0 .zero (.e 0) (.e 11) .fp64 .rne 1#13
    let s' := { s with hart := { s.hart with vec := { s.hart.vec with b := s.hart.vec.b.set 0 0x20#64 } } }
    stop.formOk .stop = true ∧ fetch.formOk .fetch = true ∧ fetchc.formOk .fetchc = true ∧
    (micro.block + BitVec.ofInt 64 (fetch.fn13.toInt * 128)).toNat % 128 = 0 ∧
    (BitVec.ofNat 64 (s'.hart.vec.source (round i32).vlen (round i32).vl 1 64 off.a) + BitVec.ofInt 64 128).toNat % 128 ≠ 0 ∧
    (s.hart.vec.maskBit 3 1 != (11 : Nat).testBit 3) = true ∧ (s.hart.vec.maskBit 3 1 != (3 : Nat).testBit 3) = false := by decide +kernel

theorem meets_BlockAccesses :
    let s := inRound i32
    let s := { s with hart := { s.hart with vec := { s.hart.vec with b := s.hart.vec.b.set 0 0x100000#64 } } }
    let ld := plain 4 (.b 0) .eid (.e 0) .i32 .rne 2#13
    let st := plain 0 (.b 0) .eid (.e 3) .i32 .rne 2#13
    ld.formOk .ld = true ∧ st.formOk .st = true ∧ ld.d.val + micro.elem / ((round i32).vlen / ld.fmt.slot) < 32 ∧
    (s.plainAs .m .load (elemAddr s .ld ld (round i32) 1) 4).isSome = true ∧
    (s.plainAs .m .store (elemAddr s .ld st (round i32) 1) 4).isSome = true ∧ ld.fn13.toNat / 4 = 0 := by decide +kernel

theorem meets_BlockAccesses_full_empty :
    let s := inRound i32
    let s := { s with hart := { s.hart with vec := { s.hart.vec with b := s.hart.vec.b.set 0 (BitVec.ofNat 64 tcmBase) } } }
    let fe := plain 4 (.b 0) .eid (.e 0) .i32 .rne 6#13
    let fes := plain 0 (.b 0) .eid (.e 3) .i32 .rne 6#13
    fe.formOk .ld = true ∧ fes.formOk .st = true ∧ s.plainAs .m .load (elemAddr s .ld fe (round i32) 1) 4 = some (tcmBase + 4) ∧
    hasFullEmpty s.bigMemory (tcmBase + 4) = true ∧ s.full (tcmBase + 4) = false ∧ micro.waited = none ∧
    ({ s with fullEmpty := [(tcmBase / 16, true)] } : State).full (tcmBase + 4) = true := by decide +kernel

theorem meets_BlockAccesses_links :
    let lget := plain 3 (.e 0) (.e 0) (.e 0) .i32 .rne 0#13
    let lput := plain 0 (.e 3) (.e 0) (.e 0) .i32 .rne 0#13
    let l := (inRound i32).hart.links
    let queued := l.setQueue 1 [7#64]
    lget.formOk .lget = true ∧ lput.formOk .lput = true ∧ (queued.queue 1).head? = some 7#64 ∧
    (l.queue 1 = [] ∧ activeBelow l.active 1 = some 0 ∧ ((round i32).micros.any fun o => o.elem == 0) = true) ∧
    activeBelow (⟨2#maxVlen, [], []⟩ : Links).active 1 = none ∧
    ((round i32).micros.drop 1).any (fun o => o.elem == 0) = false ∧
    l.above 4 1 = none ∧ (⟨7#maxVlen, [], []⟩ : Links).above 4 1 = some 2 ∧ ((round i32).micros.any fun o => o.elem == 2) = false ∧
    l.above 4 0 = some 1 ∧ ((round i32).micros.any fun o => o.elem == 1) = true ∧ (l.queue 1).length < 2 ∧
    2 ≤ ((l.setQueue 1 [7#64, 8#64]).queue 1).length := by decide +kernel

/-- VKILL of that round: the highest of its elements is that of `micro`, and leaves its held value. -/
theorem meets_Broadcasts_killed :
    let s := inRound i32
    let s := { s with hart := { s.hart with links := s.hart.links.hold 1 7#64 } }
    micro ∈ (round i32).micros ∧ s.hart.links.above (round i32).vl micro.elem = none ∧
    (∀ o ∈ (round i32).micros, o.elem ≠ micro.elem → (s.hart.links.above (round i32).vl o.elem).isSome = true) ∧
    after (exec .vkill s) (·.hart.vc.vlinkout) = some 7#64 := by decide +kernel

/-! ## Hypotheses met: the standard control stream -/

theorem meets_ControlFlow :
    let s := withX (under i32) [(10, 0x2000#64), (11, 0x2002#64)]
    (((s.x 10) + (0#12).signExtend 64) &&& ~~~1#64).toNat % 4 = 0 ∧ (((s.x 11) + (0#12).signExtend 64) &&& ~~~1#64).toNat % 4 ≠ 0 ∧
    s.hart.app = false ∧ s.hart.idle = true ∧ NoCopyFault s ∧ s.hart.mode = .m ∧ decide (s.x 10 = s.x 10) = true ∧
    decide (s.x 10 = s.x 11) = false := by
  decide +kernel

theorem meets_ScalarAccesses :
    let s := atMain i32
    (s.plain .load (s.x 10 + (8#12).signExtend 64) 8).isSome = true ∧ Memory.wf s.memory = true ∧
    s.plain .store (s.x 10) 8 = some 0x100000 ∧ s.plain .load (s.x 10) 8 = some 0x100000 ∧ s.reserves 0x100000 8 = false ∧
    ({ s with reservations := [(0, 0x100000, 8)] } : State).reserves 0x100000 8 = true := by decide +kernel

/-- The first and the last register of each block, of the registers that the statement names. -/
def registers : List Nat :=
  [0x10000, 0x10FC0, 0x10008, 0x10FC8, 0x10018, 0x10FD8, 0x20000, 0x27FF8, 0x50000, 0x57FF8, 0x30000, 0x300C0, 0x30008, 0x300C8, 0x30010,
    0x300D0, 0x40000, 0x40300, 0x40008, 0x40318, 0x40040, 0x40340, 0x40048, 0x40348, 0x40050, 0x40350, 0x70000, 0x70008, 0x70010]

/-- A hart with the address of such a register in x10 and a value in x11, in a mode. -/
def atRegister (mode : Mode) (off : Nat) (x : Word) : State :=
  let s := withX (under i32) [(10, BitVec.ofNat 64 (0xF000000000000 + off)), (11, x)]
  { s with hart := { s.hart with mode := mode } }

theorem meets_ScalarAccesses_devices :
    ∀ off ∈ registers, ∀ mode ∈ [Mode.m, .u],
      let s := atRegister mode off 0#64
      let there (acc : Access) : Bool := match translate s s.agent s.dataSpace acc (s.x 10 + (0#12).signExtend 64) with
        | .ok pa _ => pa == 0xF000000000000 + off
        | _ => false
      off < 2 ^ 32 ∧ (s.x 10 + (0#12).signExtend 64).toNat % 8 = 0 ∧ there .load = true ∧ there .store = true ∧ s.hart.dataMode = mode := by
  decide +kernel

theorem meets_ScalarAccesses_registers :
    let s := atRegister .m 0x70008 3#64
    Store.wf none s.log.entries = true ∧ (BitVec.ofNat 64 5 : Word).getLsbD 0 = true ∧ (BitVec.ofNat 64 4 : Word).getLsbD 0 = false ∧
    (exec (.migrationStart 3) s matches .next _) = true ∧ (exec (.svtoDeliver 3 7#64) s matches .next _) = true := by decide +kernel

/-- LQCTL holds PRIO, ENABLE, APPC, UMODE and REMOTE, and FLUSH reads 1 until the discard is done (R305). -/
theorem test_lqctl :
    after (exec (.rv64 (.store .d 10 11 0#12)) (atRegister .m 0x100C0 0xFFFFFFFFFFFFFFFF#64)) (fun u =>
      after (exec (.rv64 (.load .d 12 10 0#12)) u) (·.x 12)) = some (some 0xF7#64) := by decide +kernel
/-- LQSTAT reads NEXTSEQ 1 at reset, and ignores a write (R307). -/
theorem test_lqstat :
    after (exec (.rv64 (.store .d 10 11 0#12)) (atRegister .m 0x100D8 0xFFFFFFFFFFFFFFFF#64)) (fun u =>
      after (exec (.rv64 (.load .d 12 10 0#12)) u) (·.x 12)) = some (some 0x4000#64) := by decide +kernel
/-- A load of 4 bytes of a register, and a load of a queue's block in U-mode, are access faults (R304, R402). -/
theorem test_device_faults :
    after (exec (.rv64 (.load .w 12 10 0#12)) (atRegister .m 0x10000 0#64)) (·.hart.csr.mcause) = some 5#64 ∧
    after (exec (.rv64 (.load .d 12 10 0#12)) (atRegister .u 0x10000 0#64)) (·.hart.csr.scause) = some 5#64 := by decide +kernel

/-- The arguments of a CSR instruction that writes X[11] and reads into x10. -/
def access (addr : BitVec 12) : CsrArgs := ⟨.rw, 10, .reg 11, addr⟩

theorem meets_CsrAccesses :
    let s := under i32
    0x340 / 256 % 4 ≤ s.hart.mode.code ∧ ((access 0x340#12).writes = true → 0x340 / 1024 ≠ 3) ∧
    (readCsr s 0x340#12).isSome = true ∧ (access 0x340#12).writes = true ∧ (⟨.rs, 10, .reg 0, 0x300#12⟩ : CsrArgs).writes = false ∧
    (readB7Supervisor s 0x5C1).isSome = true ∧ s.hart.idle = true ∧ NoCopyFault s ∧
    ((access 0x803#12).writes = true → 0x803 / 1024 ≠ 3) ∧ 0xCE0 / 256 % 4 ≤ s.hart.mode.code := by decide +kernel

theorem meets_CsrAccesses_tags :
    let s := under i32
    let s := { s with hart := { s.hart with vec := { s.hart.vec with poisonTag := 4#32 } } }
    let a : CsrArgs := ⟨.rs, 10, .reg 0, 0xCE2#12⟩
    s.hart.idle = true ∧ NoCopyFault s ∧ a.addr.toNat = 0xCE0 + (2 : Fin 32).val ∧ s.hart.vec.poisonTag.getLsbD (2 : Fin 32).val = true ∧
    a.writes = false ∧ s.hart.vec.poisonTag.getLsbD 3 = false ∧
    after (exec (.vectorCsrAccess a) s) (fun u => (u.hart.csr.mcause, getField u.hart.csr.svtrap0 48 8)) = some (24#64, 6) := by
  decide +kernel

theorem meets_ExceptionsAndReturns :
    let s := withX (under i32) [(10, 0x100001#64)]
    let user := { s with hart := { s.hart with mode := .u } }
    let untyped := { s with hart := { s.hart with vc := { s.hart.vc with vtype := none } } }
    let held := { s with hart := { s.hart with vheld := true } }
    (s.x 10 + (0#12).signExtend 64).toNat % 8 ≠ 0 ∧
    (∀ acc ∈ [Access.load, .store], translate s s.agent s.dataSpace acc (s.x 10) = .ok 0x100001 false ∧
      physAt s.bigMemory 0x100001 ≠ .device) ∧
    s.hart.idle = true ∧ (held.hart.idle || (held.hart.held && (held.hart.vheld || held.hart.vwork.isEmpty) &&
      (held.hart.mheld || held.hart.mq.isEmpty))) = true ∧ user.hart.mode = .u ∧ user.hart.mode ≠ .m ∧ s.hart.replay = none ∧
    untyped.hart.replay = none ∧ untyped.hart.vc.vtype = none ∧ held.hart.held = true ∧ s.hart.mode = .m ∧ s.hart.held = false := by
  decide +kernel

/-! ## Hypotheses met: faults, traps and events -/

/-- The word of an instruction. -/
def wordOf (i : Instr) : BitVec 32 := (encodeControl i).getD 0#32

/-- The state with an instruction at the pc. -/
def withInstr (s : State) (i : Instr) : State := withMem s 0x1000 4 (wordOf i).toNat

/-- A pending page fault of the vector queue. -/
def fault : VecFault := ⟨24, 0, 0, 0x100000#64, 0x2000#64, 3, 0, none, none, none, none⟩

/-- A hart with that fault pending, and MWAIT at its pc. -/
def faulted : State :=
  let s := withInstr (under i32) .mwait
  { s with hart := { s.hart with vfault := some fault } }

theorem meets_FaultTraps :
    faulted.hart.vfault = some fault ∧ faulted.hart.mfault = none ∧ faulted.hart.round = none ∧ faulted.hart.held = false := by
  decide +kernel

theorem meets_ThreadEvents :
    let s := under i32
    let s := { s with hart := { s.hart with mode := .u, csr := { s.hart.csr with mie := 2#64 } } }
    s.hart.live = true ∧ 1 < 64 ∧ s.hart.csr.mideleg.getLsbD 1 = true ∧ s.hart.csr.mie.getLsbD 1 = true ∧ s.hart.mode = .u ∧
    (faulted.hart.live = true ∧ faulted.hart.vfault.isSome = true ∧ faulted.codeAt.isSome = true ∧
      (faulted.codeAt.bind fun p => decodeControl p.1) = some .mwait) ∧
    ({ s with hart := { s.hart with waiting := .barrier 64 true } } : State).hart.waiting = .barrier 64 true := by decide +kernel

theorem meets_ThreadEvents_load :
    let s := { withInstr (atTcm i32) (.ldfe 11 10 true) with cycle := 2 ^ 30 + 5 }
    let s := { s with hart := { s.hart with waiting := .ldfe 5 (tcmBase / 16) false } }
    (s.codeAt.bind fun p => decodeControl p.1) = some (.ldfe 11 10 true) ∧ s.plain .load (s.x 10) 8 = some tcmBase ∧
    hasFullEmpty s.bigMemory tcmBase = true ∧ s.hart.waiting = .ldfe 5 (tcmBase / 16) false ∧ s.full tcmBase = true ∧
    ({ s with fullEmpty := [] } : State).full tcmBase = false ∧ 5 + 2 ^ 30 ≤ s.cycle := by decide +kernel

theorem meets_QueueEvents_forms :
    let s := withCode (inRound i32)
    let r := { round i32 with groups := [], micros := [{ micro with place := .waiting }] }
    let parked := { round i32 with groups := [⟨0, 0x100000#64, [], true, 0, []⟩] }
    r.holding = .no ∧ (r.groups.filter fun g => !g.parked).length < 4 ∧
    (∀ o ∈ r.micros, o.place = .waiting → o.ended = .running ∧ (0x100000#64 : Word).toNat ≤ o.block.toNat) ∧
    s.hart.live = true ∧ State.reset.hart.live = false ∧ (s.blockAtAs r.mode r.vtype 0x100000#64).isSome = true ∧ (∀ m ∈ parked.micros, m.place ≠ .waiting) ∧
    (parked.groups.find? (·.parked)).isSome = true := by decide +kernel

theorem meets_QueueEvents_park :
    let g (i : Instr) : FetchGroup := ⟨0, 0x100000#64, [(0, i)], false, 0, []⟩
    let lget := Instr.lget (plain 3 (.e 0) (.e 0) (.e 0) .i32 .rne 0#13)
    let lput := Instr.lput (plain 0 (.e 3) (.e 0) (.e 0) .i32 .rne 0#13)
    let r := { round i32 with micros := [{ micro with elem := 0 }, { micro with waited := some (0, 7) }], groups := [g lget] }
    let l := (inRound i32).hart.links
    (r.groups.filter fun g => !g.parked)[0]? = some (g lget) ∧ r.group? 0 = some (g lget) ∧
    0 + 4096 ≤ ({ under i32 with cycle := 5000 } : State).cycle ∧
    (r.micros.any fun m => m.place == .group 0 && m.ended == .running && m.waited.any fun w => !Store.get false (under i32).fullEmpty w.2) = true ∧
    ((g lget).at micro.idx = some (0, lget) ∧ l.queue micro.elem = [] ∧ activeBelow l.active micro.elem = some 0 ∧
      (r.micros.any fun o => o.elem == 0) = true ∧ executes (inRound i32).hart.vec micro.elem none = true) ∧
    ((g lput).at micro.idx = some (0, lput) ∧ l.above r.vl 0 = some 1 ∧ (r.micros.any fun o => o.elem == 1) = true ∧
      2 ≤ ((l.setQueue 1 [7#64, 8#64]).queue 1).length) := by decide +kernel

/-- A queue entry of an instruction, under i32 and vl = 4, with an address in xa. -/
def entry (i : Instr) (seq : Nat) (xa : Word) : QEntry :=
  ⟨0x2000#64, wordOf i, false, false, false, 0, 0, 0#64, 0#64, xa, 0#64, 0#64, 0#64, some i32, 4, 15, 0, seq, .m, []⟩

theorem meets_QueueEvents_chains :
    let e := entry (.vmv 8 4 none) 1 0#64
    let o := entry (.vmv 4 8 none) 0 0#64
    let work := [o, e].filter fun e => !e.finished
    work[1]? = some e ∧ o ∈ work ∧ o.seq < e.seq ∧ (under i32).hart.chainsFrom e o = true ∧ work.head? = some o ∧
    { e with start := 1 }.start > 0 ∧ e.vl ≤ 4 ∧ 4 ≠ e.start := by decide +kernel

/-- A hart with one entry in its vector queue. -/
def queued (i : Instr) (xa : Word) : State :=
  let s := atTcm i32
  { s with hart := { s.hart with seq := 1, vq := [entry i 0 xa] } }

theorem meets_QueueEvents_marker :
    let s := queued (.barrive 10 .hart) (BitVec.ofNat 64 tcmBase)
    s.hart.round = none ∧ s.hart.resume = [] ∧ s.hart.vec.clean = true ∧
    s.hart.vnext = some (entry (.barrive 10 .hart) 0 (BitVec.ofNat 64 tcmBase)) ∧
    decodeControl (wordOf (.barrive 10 .hart)) = some (.barrive 10 .hart) ∧
    Canonical s ∧
    (BitVec.ofNat 64 tcmBase : Word).toNat % 32 = 0 ∧ s.plainAs .m .store (BitVec.ofNat 64 tcmBase) 32 = some tcmBase := by
  unfold Canonical
  decide +kernel

theorem meets_QueueEvents_copy :
    let i : Instr := .vcopy 12 10 14 .onDevice false
    let e := { entry i 0 0x100000#64 with xd := 0x200000#64, xb := 256#64 }
    let s := { queued i 0#64 with hart := { (queued i 0#64).hart with vq := [e] } }
    s.hart.round = none ∧ s.hart.resume = [] ∧ s.hart.vec.clean = true ∧ s.hart.vnext = some e ∧ decodeControl e.word = some i ∧
    e.xb ≠ 0#64 ∧ e.xb.toNat < 2 ^ 36 ∧ s.engineReady (clusterOf s.hartId) = true := by decide +kernel

theorem meets_QueueEvents_load :
    let i : Instr := .vle 4 10 false .fe false none
    let consumes : QEntry := { entry (.vle 4 10 false .fec false none) 0 (BitVec.ofNat 64 tcmBase) with start := 3, base := 3 }
    let e := { entry i 0 (BitVec.ofNat 64 tcmBase) with start := 3 }
    let s := { queued i 0#64 with
      hart := { (queued i 0#64).hart with vq := [e], headWait := some (5, (tcmBase + 12) / 16) }
      cycle := 2 ^ 30 + 5 }
    s.hart.vnext = some e ∧ decodeControl e.word = some i ∧ s.hart.headWait = some (5, (tcmBase + 12) / 16) ∧ e.vtype = some i32 ∧
    s.hart.waiting = .nothing ∧ e.start + 1 = e.vl ∧ i32.fmt.isM8 = true ∧ 15 ≤ e.log2vlen ∧ e.log2vlen ≤ 18 ∧
    4 + e.start / (e.vlen / i32.sew) < 32 ∧ s.plainAs .m .load (e.xa + BitVec.ofNat 64 (e.start * i32.bytes)) i32.bytes = some (tcmBase + 12) ∧
    hasFullEmpty s.bigMemory (tcmBase + 12) = true ∧ s.full (tcmBase + 12) = true ∧
    ({ s with fullEmpty := [] } : State).full (tcmBase + 12) = false ∧ 5 + 2 ^ 30 ≤ s.cycle ∧ s.hart.live = true ∧
    granuleMates s consumes i32 none consumes.base consumes.start consumes.start = [] := by decide +kernel

/-- A copy of 256 bytes of hart 0 between two places of main memory. -/
def copy : Copy :=
  ⟨3, 0, ⟨0#64, .m, false, false, 0#5, 0⟩, 0x2000#64, .onDevice, 0x100000#64, 0x200000#64, 256, 0, 0#21, 0#32, (10, 12), none, 0, false, none⟩

theorem meets_CopyEvents :
    let s := { under i32 with copies := [{ copy with id := 2 }, copy] }
    let at' (acc : Access) (va : Word) : Xlate := translate s (.engine (clusterOf copy.hart)) copy.space acc va
    copy ∈ s.copies ∧ (∀ o ∈ s.copies, o.id = copy.id → o = copy) ∧ s.poison = [] ∧ copy.src.toNat % 4096 + copy.count ≤ 4096 ∧ copy.dst.toNat % 4096 + copy.count ≤ 4096 ∧
    at' .load copy.src = .ok 0x100000 false ∧ at' .store copy.dst = .ok 0x200000 false ∧ 0x100000 + 256 ≤ 0x200000 ∧
    physAt s.bigMemory 0x100000 ≠ .device ∧ physAt s.bigMemory 0x200000 ≠ .device := by decide +kernel

theorem meets_CopyEvents_fault :
    let c := { copy with space := ⟨0x9000000000000400#64, .u, false, false, 0#5, 0⟩ }
    let s := { under i32 with copies := [c] }
    translate s (.engine (clusterOf c.hart)) c.space .load c.src = .page ∧ c.src.toNat + c.count ≤ 2 ^ 64 ∧
    c.src.toNat + c.count ≤ c.dst.toNat ∧ c.held = none ∧ c.done = 0 ∧ 0 < c.count := by decide +kernel

theorem meets_CopyEvents_written :
    let c := { copy with written := true, done := 256, bar := some (BitVec.ofNat 64 tcmBase, tcmBase), pending := 256 }
    let s := { withMem (under i32) (tcmBase + 8) 8 256 with copies := [c] }
    c ∈ s.copies ∧ (∀ o ∈ s.copies, o.id = c.id → o = c) ∧ (c.written && c.held.isSome) = false ∧ c.written = true ∧
    ({ c with held := some fault }.written && { c with held := some fault }.held.isSome) = true ∧ c.pending - (c.count - c.done) ≠ 0 ∧ Canonical s ∧
    translate s (.engine (clusterOf c.hart)) c.space .store (BitVec.ofNat 64 tcmBase) = .ok tcmBase false := by
  unfold Canonical
  decide +kernel

/-- The words of a start record of one hart with one lane group. -/
def words : Vector Word 8 := (Vector.replicate 8 0#64).set 2 0x1110000#64

/-- A state whose queue 2 holds that record, and whose address-space table has an entry for ASID 0. -/
def launching : State :=
  withMem { atMain i32 with
    queues := [(2, { queue with records := [⟨1, words, none⟩], tickets := [⟨1, 1, 0, 0⟩], nextSeq := 2 })]
    astbase := 0x400000#64 } 0x400000 8 (9 * 2 ^ 60)

theorem meets_Dispatches :
    let r : LqRecord := ⟨1, words, none⟩
    Store.wf LaunchQueue.reset launching.queues = true ∧ (launching.queueOrder 0).head? = some 2 ∧
    (launching.queue 2).records.head? = some r ∧ ((launching.eligible 2 r.start).map fun o => o.core / 128) = some 0 ∧
    launching.addressSpaceWaits (.dispatcher 0) r.start.asid = false ∧ r.start.sqd = 0#64 ∧ r.start.refused 8 = none ∧
    (launching.addressSpace (.dispatcher 0) r.start.asid).isSome = true ∧
    (({ launching with memory := [] } : State).addressSpace (.dispatcher 0) r.start.asid).isNone = true := by decide +kernel

/-- The dispatcher of die 1, where the one record goes to a core of that die. -/
theorem meets_Dispatches_other_die :
    let s := { launching with
      queues := [(2, { queue with diemask := 2#4, records := [⟨1, words, none⟩] })]
      ready := [(0, BitVec.allOnes 64), (4, BitVec.allOnes 64), (16, BitVec.allOnes 64), (17, BitVec.allOnes 64)] }
    let r : LqRecord := ⟨1, words, none⟩
    (s.queueOrder 1).head? = some 2 ∧ (s.queue 2).records.head? = some r ∧ (∀ p, p < 64 → p ≠ 2 → (s.queue p).records = []) ∧
    ((s.eligible 2 r.start).map fun o => o.core / 128) = some 1 ∧ s.addressSpaceWaits (.dispatcher 1) r.start.asid = false := by decide +kernel

theorem meets_LaneEvents :
    let flushing (held : Nat) : LaunchQueue := { queue with flush := some held, records := [⟨1, words, none⟩] }
    (∀ held ∈ [0, 1], Store.wf LaunchQueue.reset [(2, flushing held)] = true ∧ (∀ r ∈ (flushing held).records, r.sender = none) ∧
      (flushing held).flush = some held) ∧
    (flushing 0).records.take 0 = [] ∧ (flushing 1).records.take 1 ≠ [] ∧ Store.wf CoreState.reset (under i32).cores = true := by
  decide +kernel

theorem meets_LaneEvents_reclaim :
    let s := { launching with
      queues := [(2, { queue with records := [⟨1, words, none⟩], cores := 1#32, clmask := 1#4, diemask := 1#4 })]
      hart := { launching.hart with lanes := ⟨List.range 8, [], [], []⟩, facts := ⟨none, 0#16, 0, 1, 8, 0⟩ } }
    let r : StartRecord := (⟨1, words, none⟩ : LqRecord).start
    (s.queueOrder 0).head? = some 2 ∧ Store.wf CoreState.reset s.cores = true ∧ s.chosen 2 = none ∧ s.eligible 2 r = none ∧ (s.allHarts.map (·.1)).Nodup ∧
    (bestPlan ((s.queue 2).dispatchSet.filterMap (s.planOn 2 r))).isSome = true ∧ s.hart.lanes.held.Nodup := by decide +kernel

theorem meets_LaneEvents_pass :
    let r : Resize := ⟨3, 2, 1, [1]⟩
    let s := { under i32 with hart := { (under i32).hart with lanes := ⟨[0], [], [], [r]⟩ } }
    s.hart.lanes.resizes.head? = some r ∧ s.hart.lanes.resizes.length = 1 ∧ s.hart.workBefore r.place = false ∧ r.new < r.old := by
  decide +kernel

theorem meets_ServiceEvents :
    let s := { under i32 with hart := { (under i32).hart with waiting := .service 7#64 } }
    (s.allHarts.filter fun p => p.2.live && p.2.waiting == .service 7#64 && dieOf p.1 == (0 : Fin 4).val).head? = some (0, s.hart) ∧
    (s.allHarts.filter fun p => p.2.live && p.2.waiting == .service 8#64 && dieOf p.1 == (0 : Fin 4).val) = [] := by decide +kernel

theorem meets_ServiceEvents_migration :
    let s := { State.reset with migrations := [(1, ⟨0x10000#64, 0x20000#64, 0, false, true⟩)] }
    let idle : State := { State.reset with migrations := [(1, ⟨0x3000010000#64, 0x20000#64, 0, false, false⟩)] }
    let there (pa : Nat) : Bool := physAt s.bigMemory pa != .device && physAt s.bigMemory pa != .absent
    let m := idle.migration 1
    (m.busy = false ∧ m.done = false ∧ m.size ≠ 3 ∧ m.src.toNat % 4096 = 0 ∧ m.dst.toNat % 4096 = 0 ∧ there m.src.toNat = true ∧
      there m.dst.toNat = true ∧ memoryDie (physAt s.bigMemory m.src.toNat) = 1) ∧
    (s.migration 1).busy = true ∧ s.migrationRoute 1 = true ∧ Canonical s := by
  unfold Canonical
  decide +kernel

/-! ## Hypotheses met: other packages, links and errors -/

/-- A message of device 5 in its first boot generation. -/
def header : MsgHeader := ⟨5#21, 1#32, 9⟩

/-- A package that has heard from device 5 and has reserved two slots of queue 2 for its ASID 6. -/
def connected : State :=
  { under i32 with
    ready := [(0, BitVec.allOnes 64), (16, BitVec.allOnes 64), (20, BitVec.allOnes 64)]
    queues := [(2, { queue with remote := true })]
    remote := { Remote.reset with
      devnum := 3#21, seen := [(5#21, 1#32)], peers := [(5#21, 1#32)], windows := [(0, window)]
      reserved := [⟨5#21, 2, 6#16, 2⟩], transit := [⟨5#21, 2, 6#16, 2⟩] } }

theorem meets_PermitEvents :
    let s := connected
    ofDevice s.remote.seen header.dev = some header.bootgen ∧ (⟨header.dev, 2, 6#16, 2⟩ : Reserved) ∈ s.remote.transit ∧
    header.dev ≠ s.remote.devnum ∧ ((s.queue 2).enable && (s.queue 2).remote) = true ∧
    ((s.queue 2).records.filter fun o => o.sender == some (header.dev, 6#16)).length <
      ((s.remote.reserved.filter fun o => o.queue == 2 && o.dev == header.dev && o.asid == 6#16).map (·.count)).sum ∧
    ((s.queue 4).enable && (s.queue 4).remote) = false ∧ (0#32 : BitVec 32).toNat < (1#32 : BitVec 32).toNat ∧
    (1#32 : BitVec 32).toNat < (2#32 : BitVec 32).toNat ∧ s.routeEntry header.dev ≠ .missing kindDataError ∧
    s.routeEntry header.dev ≠ .waits := by decide +kernel

/-- The package while the links between the application die and die 0, which holds the route table, retrain. -/
def retraining : State := { connected with links := (List.range 8).map fun l => (l, ⟨true, true, 0, 16, 1⟩) }

theorem meets_PermitEvents_waits :
    retraining.routeEntry header.dev = .waits ∧ ofDevice retraining.remote.seen header.dev = some header.bootgen ∧
    (∀ m ∈ [Message.grantAck 9 5#21 true], connected.routeEntry m.dev ≠ .missing kindDataError ∧ connected.routeEntry m.dev ≠ .waits) := by
  decide +kernel

theorem meets_RemoteRequests :
    let s := connected
    let open' (n : Nat) : Bool := [0x100000, 0x100000 + n - 1].all fun pa =>
      let p := physAt s.bigMemory pa
      reaches .remote p && s.memoryReady pa && s.routeTo .remote p == .open'
    let allowed (bit n : Nat) (key : BitVec 32) : Bool := s.remote.windows.any fun p =>
      let c := p.2.ctl
      c.getLsbD 63 && c.getLsbD bit && (c.getLsbD 35 || c.extractLsb' 36 21 == header.dev) && c.extractLsb' 0 32 == key &&
        decide (p.2.base.toNat ≤ 0x100000 ∧ 0x100000 + n ≤ p.2.base.toNat + p.2.len.toNat)
    ofDevice s.remote.seen header.dev = some header.bootgen ∧ Memory.wf s.memory = true ∧ s.poison = [] ∧ s.migrations = [] ∧
    s.routeEntry header.dev ≠ .missing kindDataError ∧ s.routeEntry header.dev ≠ .waits ∧ s.remote.lost = none ∧
    allowed 33 4 0#32 = true ∧ allowed 32 4 0#32 = true ∧ allowed 34 4 0#32 = true ∧ allowed 33 4 1#32 = false ∧ allowed 32 4 1#32 = false ∧
    allowed 34 4 1#32 = false ∧ open' 4 = true ∧ updAccepts .add .i32 = true ∧ 0x100000 % (Fmt.i32.packed / 8) = 0 ∧
    (s.remote.cached.filter fun p => p.1 == (header.dev, header.req)).head?.map (·.2) = none ∧
    (([((5#21, 9), (none, 4#64))] : List ((BitVec 21 × Nat) × Option Nat × Word)).filter fun p =>
      p.1 == (header.dev, header.req)).head?.map (·.2) = some (none, 4#64) := by
  decide +kernel

/-- A request of a put of the whole of a copy, one of a get, and one of an atomic. -/
def sentOf (kind : RemoteKind) : RemoteRequest := ⟨9, 5#21, kind, 0, none⟩

/-- The package with a request on its way for its copy. -/
def asked (kind : RemoteKind) : State :=
  { connected with
    copies := [{ copy with dev := 5#21 }]
    cycle := 2 ^ 32
    remote := { connected.remote with outstanding := [sentOf kind] } }

theorem meets_RemoteAnswers :
    ∀ kind ∈ [RemoteKind.put 3 0 256, .get 3 0 256, .atomic 0 1],
      let s := asked kind
      ofDevice s.remote.peers header.dev = some header.bootgen ∧
      (s.remote.outstanding.filter fun o => o.req == header.req && o.dev == header.dev && o.answer.isNone).head? = some (sentOf kind) ∧
      (s.remote.outstanding.filter fun o => o.req == header.req) = [sentOf kind] ∧
      (s.copies.filter fun o => o.id == 3).head? = some { copy with dev := 5#21 } ∧ (sentOf kind).sent + 2 ^ 32 ≤ s.cycle ∧
      (s.remote.outstanding.filter fun o => o.dev == header.dev && o.answer.isNone) = [sentOf kind] ∧
      s.answerRoute (sentOf kind) = .open' ∧ { s with links := retraining.links }.answerRoute (sentOf kind) = .waits := by decide +kernel

theorem meets_RemoteAnswers_peer :
    let s := asked (.put 3 0 256)
    ofDevice s.remote.seen header.dev = some 1#32 ∧ (1#32 : BitVec 32).toNat ≤ header.bootgen.toNat ∧ s.routeEntry header.dev ≠ .missing kindDataError ∧
    s.routeEntry header.dev ≠ .waits := by
  decide +kernel

theorem meets_RemoteAnswers_get :
    let s := asked (.get 3 0 256)
    let data : List Byte := List.replicate 256 7#8
    let va := copy.dst + BitVec.ofNat 64 copy.done
    data ≠ [] ∧ data.length = 256 ∧ copy.space.satp = 0#64 ∧ copy.space.swindow = 0#5 ∧ s.poison = [] ∧ va.toNat % 4096 + data.length ≤ 4096 ∧
    translate s (.engine (clusterOf copy.hart)) copy.space .store va = .ok 0x200000 false ∧
    physAt s.bigMemory 0x200000 ≠ .device := by decide +kernel

theorem meets_LinkEvents :
    let up : Link := ⟨true, false, 7, 16, 0⟩
    let failing : Link := ⟨true, true, 7, 16, 3⟩
    2 < 8 ∧ up.up = true ∧ up.retraining = false ∧ 16 ≤ up.replays ∧ failing.retraining = true ∧ 3 ≤ failing.failed ∧
    Store.wf 0#64 (under i32).ready = true ∧ (under i32).log.valid < 256 := by decide +kernel

theorem meets_LinkEvents_memory :
    let s := connected
    s.appWord.getLsbD (2 : Fin 8).val = true ∧ (under i32).appWord.getLsbD (2 : Fin 8).val = false ∧
    ([7#8, 8#8] : List Byte) ≠ [] ∧ s.poison = [] ∧ ([0x100000, 0x100000 + 2 - 1].all fun pa =>
      let m := physAt s.bigMemory pa
      reaches .endpoint m && s.memoryReady pa && s.routeTo .endpoint m == .open' && !s.refusesMoved pa) = true := by decide +kernel

/-- What the IOMMU answers is one of the three that the statement takes, whatever it is. -/
theorem meets_LinkEvents_iommu (e : Endpoint) (a : Nat) (m : List (Nat × Byte)) :
    (∃ pa, Config.iommu e a m = .memory pa) ∨ (∃ c n, Config.iommu e a m = .interrupt c n) ∨ Config.iommu e a m = .refused := by
  cases Config.iommu e a m with
  | memory pa => exact .inl ⟨pa, rfl⟩
  | interrupt c n => exact .inr (.inl ⟨c, n, rfl⟩)
  | refused => exact .inr (.inr rfl)

theorem meets_LinkEvents_scrub :
    physAt (under i32).bigMemory 0x100000 = .main 0 ∧ physAt (under i32).bigMemory tcmBase = .tcm 0 ∧
    (under i32).log.valid < 256 ∧ (under i32).hartId < 4096 := by decide +kernel

theorem meets_LinkEvents_parity :
    let s := withInstr (atMain i32) (.rv64 (.load .d 11 10 0#12))
    let e := entry (.vle 4 10 false .plain false none) 0 0x100000#64
    let v := { s with hart := { s.hart with seq := 1, vq := [e] } }
    s.hart.live = true ∧ (s.codeAt.bind fun p => decodeControl p.1) = some (.rv64 (.load .d 11 10 0#12)) ∧
    v.hart.live = true ∧ v.hart.vnext = some e ∧ decodeControl e.word = some (.vle 4 10 false .plain false none) ∧
    (∀ o ∈ ({ s with copies := [copy] } : State).copies, o.id = copy.id → o = copy) ∧ copy.held = none ∧ copy.written = false ∧
    memoryDie (physAt s.bigMemory 0x100000) = 0 ∧ (s.others.map (·.1)).Nodup ∧ Store.wf 0#64 s.ready = true := by decide +kernel

/-- A package that is powered, its security engine ready, with the images of cluster 3 verified. -/
def powered : State :=
  { State.reset with
    ready := [(20, 0x100#64)]
    power := { State.reset.power with on := true, verified := [.security, .dieFirmware 0, .dieFirmware 4, .isobar 3] } }

theorem meets_PowerEvents :
    let s := powered
    (∀ f ∈ [Function.clusterMemory 3, .isobar 3, .core 100, .appCores], s.mayBeReady f = true ∧
      ∀ p ∈ readyBit f, (Store.get 0#64 s.ready p.1).getLsbD p.2 = false) ∧
    readyBit (.clusterMemory 3) = some (3, 32) ∧ readyBit .appCores = some (20, 9) ∧ Store.wf 0#64 s.ready = true ∧
    Store.wf CoreState.reset s.cores = true ∧ s.hartId < 4096 ∧ Store.wf Hart.reset s.others = true ∧
    s.power.on = true ∧ s.appWord.getLsbD 8 = true ∧ State.reset.appWord.getLsbD 8 = false ∧ { s with power := { s.power with on := false } }.power.on = false ∧ Store.wf 0 s.lifeRam = true := by decide +kernel

/-- A core becomes ready only with its cluster's tables verified (R326). -/
theorem test_core_needs_tables : powered.mayBeReady (.core 100) = true ∧ powered.mayBeReady (.core 130) = false ∧
    powered.mayBeReady (.core 10) = false := by decide +kernel

/-! ## Hypotheses met: encodings and steps -/

theorem meets_ControlRoundTrip :
    (Instr.vredo 1 8 .sum none).wf = true ∧ encodeControl (.vredo 1 8 .sum none) = some 0x200410AB#32 ∧
    decodeControl 0x200410AB#32 = some (.vredo 1 8 .sum none) := by decide +kernel

theorem meets_BlockRoundTrip :
    (Instr.add (plain 3 (.e 3) (.e 2) (.e 0) .i32 .rne 0#13)).wf = true ∧
    encodeBlock (.add (plain 3 (.e 3) (.e 2) (.e 0) .i32 .rne 0#13)) = some [0x000003C00020C301#64] ∧
    decodeBlock [0x000003C00020C301#64] = .ok (.add (plain 3 (.e 3) (.e 2) (.e 0) .i32 .rne 0#13)) 1 := by decide +kernel

/-- A hart at `addi x6, x6, 10`. -/
def atAddi : State := withInstr (withX (under i32) [(6, 5#64)]) (.rv64 (.aluImm .addi 6 6 10#12))

theorem meets_StepKeepsCanonical :
    Canonical atAddi ∧ after (step atAddi) (fun t => t.x 6) = some 15#64 := by
  unfold Canonical
  decide +kernel

theorem meets_StepKeepsFits :
    atAddi.hart.fits = true ∧ atAddi.others = [] ∧ after (step atAddi) (fun t => t.hart.pc) = some 0x1004#64 := by decide +kernel

theorem meets_StepRunsDecoded :
    let s' : State := { ({ atAddi with cycle := atAddi.cycle + 1 } : State).renewWaits with agenda := atAddi.agenda.tail }
    let h := s'.hart
    (atAddi.agenda = [] ∧ atAddi.power.on = true ∧ s'.due = none ∧ h.idle = true) ∧ h.live = true ∧ h.interrupt? = none ∧
    h.parked = false ∧ h.pc.toNat % 4 = 0 ∧ (s'.codeAt.bind fun p => decodeControl p.1) = some (.rv64 (.aluImm .addi 6 6 10#12)) ∧
    h.app = false ∧ h.region = none ∧ atAddi.cached h.pc.toNat (codeSpace atAddi.fetchSpace) false = none ∧
    translate s' atAddi.agent atAddi.fetchSpace .fetch h.pc = .ok 0x1000 false ∧ atAddi.poisoned 0x1000 = false ∧
    (s'.codeAt.bind fun p => decodeControl p.1).isSome = true := by decide +kernel

theorem meets_StepRunsDecoded_undefined :
    let s := { under i32 with agenda := [.control] }
    let s' : State := { ({ s with cycle := s.cycle + 1 } : State).renewWaits with agenda := s.agenda.tail }
    s.agenda.head? = some .control ∧ s'.hart.live = true ∧ ({ State.reset with agenda := [.control] } : State).hart.live = false ∧ (s'.codeAt.bind fun p => decodeControl p.1) = none ∧ s'.codeAt.isSome = true := by decide +kernel

theorem meets_StepRunsDecoded_turns :
    let s := { under i32 with agenda := [.event .orderlyPowerOff] }
    let t := { under i32 with agenda := [.hart 3] }
    s.agenda.head? = some (.event .orderlyPowerOff) ∧ t.agenda.head? = some (.hart 3) := by decide +kernel

theorem meets_StepRunsDecoded_queue :
    let e := entry (.vmv 4 8 none) 0 0#64
    let s := queued (.vmv 4 8 none) 0#64
    let s := { s with agenda := [.vector] }
    let s' : State := { ({ s with cycle := s.cycle + 1 } : State).renewWaits with agenda := s.agenda.tail }
    s'.hart = s.hart ∧ s.agenda.head? = some .vector ∧ s.hart.live = true ∧ s.hart.round = none ∧ s.hart.vnext = some e ∧ decodeControl e.word = some (.vmv 4 8 none) ∧
    after (exec (.vmv 4 8 none) { s' with hart := { s.hart with replay := some e } }) (fun t => t.hart.movedFrom s.hart) = some true := by
  decide +kernel

theorem meets_StepRunsDecoded_block :
    let code := [(0, Instr.add (plain 3 (.e 3) (.e 2) (.e 0) .i32 .rne 0#13)), (1, .stop (plain 0 (.e 0) (.e 0) (.e 0) .fp64 .rne 0#13))]
    let g : FetchGroup := ⟨0, 0x100000#64, code, false, 0, []⟩
    let r := { round i32 with micros := [micro], groups := [g] }
    let s := inRound i32
    let s := { s with agenda := [.vector], hart := { s.hart with mt := none, round := some r } }
    let s' : State := { ({ s with cycle := s.cycle + 1 } : State).renewWaits with agenda := s.agenda.tail }
    s'.hart = s.hart ∧ s.hart.live = true ∧ s.hart.round = some r ∧ r.holding = .no ∧ micro.place = .group g.id ∧ micro.ended = .running ∧ micro.first = true ∧
    r.micros.length = 1 ∧ r.groups.length = 1 ∧ g.parked = false ∧ g.limits = [] ∧ s.cycle + 1 < g.moved + 4096 ∧
    g.at micro.idx = some (0, .add (plain 3 (.e 3) (.e 2) (.e 0) .i32 .rne 0#13)) ∧
    after (exec (.add (plain 3 (.e 3) (.e 2) (.e 0) .i32 .rne 0#13)) { s' with hart := { s'.hart with mt := some micro } })
      (fun t => stood t micro 0) = some false := by decide +kernel

/-! ## Single steps with the values of the spec's worked examples -/

/-- The first elements of a group. -/
def elems (t : VType) (v : VName) (n : Nat) (s : State) : List Nat := (List.range n).map (s.element t v)

/-- fp32 elements 2^24, 1, 1, 1 in v8 (the example of R40 and R41: the order of sums). -/
def sums : State := withV (under fp32) 8 32 [0x4B800000, 0x3F800000, 0x3F800000, 0x3F800000]

theorem test_vredo_order :
    after (exec (.vredo 4 8 .sum none) sums) (fun u => (u.element fp32 4 0, u.hart.vc.vxflags)) = some (0x4B800000, flagNX) := by decide +kernel
theorem test_vredt_order :
    after (exec (.vredt 4 8 .sum none) sums) (fun u => (u.element fp32 4 0, u.hart.vc.vxflags)) = some (0x4B800001, flagNX) := by decide +kernel

/-- The vector type of the unsigned 16-bit integers, and the registers of the example of the searching instructions (R186). -/
def n16 : VType := { i32 with fmt := .n16 }
def runs : State :=
  let s := withV (withV (withV (under n16) 2 16 [1, 3, 3, 5, 8]) 4 16 [3, 5, 6, 9]) 10 16 [0, 3, 5, 9, 8]
  withTag (withTag (withX (withVl s 5) [(13, 5#64)]) 2 ⟨false, .n16, none, 31, 5, false⟩) 4 ⟨false, .n16, none, 31, 4, false⟩
/-- A register after an instruction on them: its elements and its tag word. -/
def ran (i : Instr) (d : VName) (n : Nat) : Option (List Nat × Word) :=
  after (exec i runs) fun u => (elems n16 d n u, tagWord u.hart.vec.tag[d])

theorem test_vmergeh_run : ran (.vmergeh 6 2 4 2) 6 5 = some ([1, 3, 3, 3, 5], 0x5F84D#64) := by decide +kernel
theorem test_vmergeh_count : after (exec (.vmergeh 6 2 4 2) runs) (·.x 10) = some 4#64 := by decide +kernel
theorem test_vmerge2 : ran (.vmerge2 0 2 4) 0 9 = some ([1, 3, 3, 3, 5, 5, 6, 8, 9], 0x9F84D#64) := by decide +kernel
theorem test_visect : ran (.visect 6 2 4 2) 6 3 = some ([3, 3, 5], 0x3F84D#64) := by decide +kernel
theorem test_vdiffk : ran (.vdiffk 6 2 4 2) 6 2 = some ([1, 8], 0x2F84D#64) := by decide +kernel
theorem test_vuniq : ran (.vuniq 6 2 2) 6 4 = some ([1, 3, 5, 8], 0x40004F84D#64) := by decide +kernel
theorem test_vrank : ran (.vrank 6 2 10 false) 6 5 = some ([0, 1, 3, 5, 4], 0#64) := by decide +kernel
theorem test_vrank_le : ran (.vrank 6 2 10 true) 6 5 = some ([0, 3, 4, 5, 5], 0#64) := by decide +kernel
theorem test_vpart : after (exec (.vpart 8 2 4) runs) (elems i32 8 5) = some [1, 2, 1, 1, 0] := by decide +kernel
theorem test_vlocate : after (exec (.vlocate 12 2 13) runs) (·.x 12) = some 3#64 := by decide +kernel

/-- The masks of the worked example of choosing four of eight (R163): m1 is 0x21 and m2 is 0x94. -/
def masks : State :=
  let s := withX (withVl (under i32) 8) [(12, 2#64)]
  { s with hart := { s.hart with vec := { s.hart.vec with m := (s.hart.vec.m.set 1 0x21#maxVlen).set 2 0x94#maxVlen } } }

theorem test_vpopc : after (exec (.vpopc 11 1 none) masks) (·.x 11) = some 2#64 := by decide +kernel
theorem test_vmkeepn : after (exec (.vmkeepn 3 2 12) masks) (fun u => u.hart.vec.m[(3 : MName)]) = some 0x14#maxVlen := by decide +kernel
theorem test_vmlogic_or : after (exec (.vmlogic 4 1 2 14#4) masks) (fun u => u.hart.vec.m[(4 : MName)]) = some 0xB5#maxVlen := by decide +kernel

/-- The registers of the worked example of VSTC (R136). -/
def sparse : State :=
  let s := withX (withV (withVl (under fp32) 8) 2 32 [0x3F800000, 0, 0x80000000, 0x40200000, 0x7FC00000, 0, 0x40E00000, 0])
    [(14, 0x400000#64), (15, 0x400100#64)]
  { s with hart := { s.hart with vec := { s.hart.vec with m := s.hart.vec.m.set 1 0xF7#maxVlen } } }

theorem test_vstc :
    after (exec (.vstc 13 14 2 (some 1)) sparse) (fun u =>
      ((List.range 4).map fun k => Memory.readNum u.memory (0x400000 + 4 * k) 4, Memory.readNum u.memory 0x400100 1, u.x 13)) =
      some ([0x3F800000, 0x80000000, 0x7FC00000, 0x40E00000], 0x55, 4#64) := by decide +kernel

/-- The memory and registers of the worked example of VAMO (R236). -/
def updates : State :=
  withMem (withMem (withV (withV (atMain i32) 1 32 [1, 2, 3, 4]) 2 32 [0, 2, 0, 0]) 0x100000 4 10) 0x100008 4 100

theorem test_vamo :
    after (exec (.vamo 1 10 2 .add false) updates) (fun u =>
      (elems i32 1 4 u, Memory.readNum u.memory 0x100000 4, Memory.readNum u.memory 0x100008 4)) =
      some ([10, 100, 11, 14], 18, 102) := by decide +kernel

/-- The block instruction `op v4, v2` of the micro-thread of element 0, which finds a value in its element of v2. -/
def converts (op : BlockOp) (f : BlockArgs) (w x : Nat) : Option (Nat × Flags) :=
  let s := withV (under { fp32 with fmt := .e4m3 }) 2 32 [x]
  let m := { micro with elem := 0 }
  let r := { round { fp32 with fmt := .e4m3 } with micros := [m] }
  after (exec (Instr.ofBlock op f) { s with hart := { s.hart with mt := some m, round := some r } })
    fun u => (u.hart.vec.elem 32768 4 w 0, u.hart.vc.vxflags)

/-- `fcvt.F e4, e2.fp32` under RNE. -/
def fcvt (f : Fmt) : BlockArgs := { plain 4 (.e 2) (.e 0) (.e 0) f .rne 0#13 with xpf := some ⟨some .fp32, none⟩ }

theorem test_fcvt_e4m3 : converts .fcvt (fcvt .e4m3) 8 0x3FC00000 = some (0x3C, 0#5) := by decide +kernel
theorem test_fcvt_e4m3_overflow : converts .fcvt (fcvt .e4m3) 8 0x43FA0000 = some (0x7F, flagOF ||| flagNX) := by decide +kernel
theorem test_fcvtl : converts .fcvtl (fcvt .l6) 8 0x3FC00000 = some (0x12, flagNX) := by decide +kernel
theorem test_fcvt_e2m1 : (fcvtTo .e2m1 .fp32 RoundCtx.nearest 127#8 0x3E99999A) = (1, flagUF ||| flagNX) := by decide +kernel
theorem test_lacc_lcvtf : l6ToFp32 (l6Acc 0 0x12 0x13).1 = (0x40183800, 0#5) := by decide +kernel

theorem test_addi_wraps :
    after (exec (.rv64 (.aluImm .addi 6 6 1#12)) (withX (under i32) [(6, 0xFFFFFFFFFFFFFFFF#64)])) (·.x 6) = some 0#64 := by decide +kernel
theorem test_x0_reads_zero : after (exec (.rv64 (.aluImm .addi 0 0 7#12)) (under i32)) (·.x 0) = some 0#64 := by decide +kernel
theorem test_div_by_zero :
    after (exec (.rv64 (.alu .div 6 5 0)) (withX (under i32) [(5, 9#64)])) (·.x 6) = some 0xFFFFFFFFFFFFFFFF#64 := by decide +kernel

theorem test_vrtagc_keeps_partner : after (exec (.vrtagc 8) twoRuns) (·.hart.vec.tag) = some (twoRuns.hart.vec.tag.set 8 none) := by
  decide +kernel

/-- R233: a copy that a fault holds is discarded, one that none holds stays. -/
def twoCopies : State :=
  { under i32 with copies := [{ copy with held := some (copy.fault 1 1 0#64) }, { copy with id := copy.id + 1, held := none }] }

theorem meets_Broadcasts_copies :
    (twoCopies.copies.map (·.id)).Nodup ∧
    ∀ c ∈ twoCopies.copies, c.hart = twoCopies.hartId → c.held.isSome = true → c.bar = none := by decide +kernel
theorem test_vkill_copies : after (exec .vkill twoCopies) (·.copies) = some (twoCopies.copies.drop 1) := by decide +kernel

end Sys2Proof.Tests
end

section
/-!
Facts of the block instructions' integers: patterns of integers, and fields of bits.
-/

namespace Sys2Proof

/-- A slot has bits. -/
theorem Fmt.slot_pos (f : Fmt) : 0 < f.slot := by cases f <;> decide

/-- A slot has at most 64 bits. -/
theorem Fmt.slot_le (f : Fmt) : f.slot ≤ 64 := by cases f <;> decide

/-- The pattern of an integer is that of the bit vector made of it. -/
theorem wrapInt_eq_ofInt (w : Nat) (v : Int) : wrapInt w v = (BitVec.ofInt w v).toNat := by
  rw [BitVec.toNat_ofInt, wrapInt, Nat.cast_pow, Nat.cast_ofNat]

/-- The pattern of an integer fits its width. -/
theorem wrapInt_lt (w : Nat) (v : Int) : wrapInt w v < 2 ^ w := wrapInt_eq_ofInt w v ▸ BitVec.isLt _

/-- The pattern of a natural number is its low bits. -/
theorem wrapInt_natCast (w x : Nat) : wrapInt w x = x % 2 ^ w := by
  rw [wrapInt_eq_ofInt, BitVec.ofInt_natCast, BitVec.toNat_ofNat]

/-- Integers that are equal modulo 2^w have one pattern. -/
theorem wrapInt_congr (w : Nat) (v v' : Int) (h : v % 2 ^ w = v' % 2 ^ w) : wrapInt w v = wrapInt w v' := by
  rw [wrapInt, wrapInt, h]

/-- The integer of a pattern is the pattern modulo 2^w, signed or not. -/
theorem Fmt.toInt_emod (f : Fmt) (x : Nat) : f.toInt x % 2 ^ f.slot = (x : Int) % 2 ^ f.slot := by
  unfold Fmt.toInt
  dsimp only
  split <;> simp

/-- A pattern is that of its integer. -/
theorem wrapInt_toInt (f : Fmt) (x : Nat) : wrapInt f.slot (f.toInt x) = x % 2 ^ f.slot := by
  rw [wrapInt_congr _ _ _ (f.toInt_emod x), wrapInt_natCast]

/-- The pattern of −1 is all ones. -/
theorem wrapInt_neg_one (w : Nat) : wrapInt w (-1) = 2 ^ w - 1 := by
  have h1 : (1 : Int) ≤ 2 ^ w := one_le_pow₀ (by decide)
  have h : (-1 : Int) % 2 ^ w = 2 ^ w - 1 := by
    rw [← Int.add_emod_right, Int.emod_eq_of_lt] <;> omega
  rw [wrapInt, h]
  have hc : ((2 ^ w - 1 : Nat) : Int) = 2 ^ w - 1 := by push_cast [Nat.one_le_two_pow]; rfl
  omega

/-- The two's complement reading of a pattern: its last bit counts as negative. -/
theorem toInt_ofNat_of_lt (w x : Nat) (hw : 0 < w) (hx : x < 2 ^ w) :
    (BitVec.ofNat w x).toInt = if x.testBit (w - 1) then (x : Int) - 2 ^ w else x := by
  have hmsb : (BitVec.ofNat w x).msb = x.testBit (w - 1) := by
    rw [BitVec.msb_eq_getLsbD_last, BitVec.getLsbD_ofNat]
    simp [hw]
  rw [BitVec.toInt_eq_msb_cond, hmsb, BitVec.toNat_ofNat, Nat.mod_eq_of_lt hx]
  simp

/-- A field read as a signed or an unsigned integer (R103). -/
theorem signExtend_eq_toInt (signed : Bool) (len v : Nat) (hlen : 0 < len) (hv : v < 2 ^ len) :
    (if signed && v.testBit (len - 1) then (v : Int) - 2 ^ len else v) = if signed then (BitVec.ofNat len v).toInt else v := by
  rw [toInt_ofNat_of_lt _ _ hlen hv]
  cases signed <;> rfl

/-- Numbers without a common bit add up to their union. -/
theorem add_eq_or_of_and_eq_zero (x y : Nat) (h : x &&& y = 0) : x + y = x ||| y := by
  have hlt : x + y < 2 ^ (x + y) := Nat.lt_two_pow_self
  have hx : x < 2 ^ (x + y) := by omega
  have hy : y < 2 ^ (x + y) := by omega
  have hb : BitVec.ofNat (x + y) x &&& BitVec.ofNat (x + y) y = 0#(x + y) := by
    apply BitVec.eq_of_toNat_eq
    simp [Nat.mod_eq_of_lt hx, Nat.mod_eq_of_lt hy, h]
  have := congrArg BitVec.toNat (BitVec.add_eq_or_of_and_eq_zero _ _ hb)
  simpa [Nat.mod_eq_of_lt hx, Nat.mod_eq_of_lt hy, Nat.mod_eq_of_lt hlt] using this

/-- The low bits of `b` put in place of a field of `a` (R103). -/
theorem insertField_eq (a b pos len : Nat) :
    (a ||| (2 ^ len - 1) <<< pos) ^^^ (2 ^ len - 1) <<< pos ||| (b % 2 ^ len) <<< pos =
      a - (a &&& (2 ^ len - 1) * 2 ^ pos) + b % 2 ^ len * 2 ^ pos := by
  rw [← Nat.shiftLeft_eq (2 ^ len - 1), ← Nat.shiftLeft_eq (b % 2 ^ len)]
  generalize hh : (2 ^ len - 1) <<< pos = hole
  generalize hf : (b % 2 ^ len) <<< pos = field
  have hfield : field &&& hole = field := by
    subst hh hf
    rw [← Nat.shiftLeft_and_distrib, Nat.and_two_pow_sub_one_eq_mod, Nat.mod_mod]
  have hclear : (a ||| hole) ^^^ hole = a - (a &&& hole) := by
    have h0 : ((a ||| hole) ^^^ hole) &&& (a &&& hole) = 0 := by
      apply Nat.eq_of_testBit_eq
      intro i
      simp only [Nat.testBit_and, Nat.testBit_xor, Nat.testBit_or, Nat.zero_testBit]
      cases a.testBit i <;> cases hole.testBit i <;> rfl
    have h1 : ((a ||| hole) ^^^ hole) ||| (a &&& hole) = a := by
      apply Nat.eq_of_testBit_eq
      intro i
      simp only [Nat.testBit_and, Nat.testBit_xor, Nat.testBit_or]
      cases a.testBit i <;> cases hole.testBit i <;> rfl
    have := add_eq_or_of_and_eq_zero _ _ h0
    omega
  rw [← hclear]
  refine (add_eq_or_of_and_eq_zero _ _ ?_).symm
  rw [← hfield]
  apply Nat.eq_of_testBit_eq
  intro i
  simp only [Nat.testBit_and, Nat.testBit_xor, Nat.testBit_or, Nat.zero_testBit]
  cases a.testBit i <;> cases hole.testBit i <;> simp

/-- An operation that takes no XPF reads source a in the format of the instruction (R86). -/
theorem BlockArgs.fmtA_eq_fmt (f : BlockArgs) (op : BlockOp) (h : f.formOk op = true) (hx : op.takesXpf = false) : f.fmtA = f.fmt := by
  have hp : f.xpf = none := by
    simp only [BlockArgs.formOk, BlockArgs.prefixesOk, Bool.and_eq_true, hx] at h
    cases hf : f.xpf <;> simp_all
  rw [BlockArgs.fmtA, hp]; rfl

end Sys2Proof
end

section
/-!
Block instructions (R38, R39, R96, R142): what one does to the micro-thread at the cursor.
-/

namespace Sys2Proof.Machine

/-- No register of a clean file is poisoned. -/
theorem VecFile.poisonedRead_clean (v : VecFile) (u : RegUse) (hc : v.clean = true) : v.poisonedRead u = none := by
  simp only [VecFile.clean, Bool.and_eq_true, beq_iff_eq, List.isEmpty_iff] at hc
  obtain ⟨⟨⟨⟨hv, hm⟩, hk⟩, -⟩, -⟩ := hc
  have hn (n : Nat) : (List.range n).find? (fun _ => false) = none := by simp
  simp [VecFile.poisonedRead, hv, hm, hk, hn]

/-- A bit of a mask register after a write of one bit. -/
theorem getLsbD_setSlot_one (v : VecBits) (e k : Nat) (b : Bool) (hk : k < maxVlen) :
    (setSlot v 1 e b.toNat).getLsbD k = if k = e then b else v.getLsbD k := by
  have hb : b.toNat % 2 ^ 1 = b.toNat := by cases b <;> rfl
  simp only [setSlot, hb, BitVec.getLsbD_or, BitVec.getLsbD_and, BitVec.getLsbD_not, BitVec.getLsbD_shiftLeft,
    BitVec.getLsbD_ofNat, Nat.one_mul, Nat.testBit_two_pow_sub_one]
  rcases Nat.lt_trichotomy k e with h | rfl | h
  · simp [h, hk, Nat.ne_of_lt h]
  · have h0 : 0 < maxVlen := by omega
    cases b <;> simp [hk, h0]
  · have hd : 0 < k - e := by omega
    have hb' : b.toNat.testBit (k - e) = false :=
      Nat.testBit_lt_two_pow (b.toNat_lt.trans_le (Nat.pow_le_pow_right (by decide) hd : 2 ^ 1 ≤ _))
    simp [hk, show ¬ k < e by omega, show k ≠ e by omega, hb', show ¬ k - e = 0 by omega]

/-- A bit of a mask register after a write of a bit of it. -/
theorem VecFile.maskBit_setMaskBit (f : VecFile) (q : MName) (e k : Nat) (b : Bool) (hk : k < maxVlen) :
    (f.setMaskBit q e b).maskBit q k = if k = e then b else f.maskBit q k := by
  have h : (f.setMaskBit q e b).m[q] = setSlot f.m[q] 1 e b.toNat := by simp [VecFile.setMaskBit]
  rw [VecFile.maskBit, h, getLsbD_setSlot_one _ _ _ _ hk, VecFile.maskBit]

/-- A write of a mask bit changes no other mask register. -/
theorem VecFile.setMaskBit_m_ne (f : VecFile) (q q' : MName) (e : Nat) (b : Bool) (h : q' ≠ q) :
    (f.setMaskBit q e b).m[q'] = f.m[q'] := by
  have : q.val ≠ q'.val := fun hv => h (Fin.ext hv.symm)
  simp [VecFile.setMaskBit, this]

/-- A set meets the set of one register where it has that register. -/
theorem and_groupSet_one_ne_zero (x : BitVec 32) (n : Nat) (hn : n < 32) :
    (x &&& groupSet 1 n != 0#32) = x.getLsbD n := by
  cases h : x.getLsbD n with
  | true =>
    rw [bne_iff_ne]
    intro h0
    have := congrArg (·.getLsbD n) h0
    simp [groupSet_getLsbD _ _ _ hn, h] at this
  | false =>
    have h0 : x &&& groupSet 1 n = 0#32 := by
      apply BitVec.eq_of_getLsbD_eq
      intro i hi
      rw [BitVec.getLsbD_and, groupSet_getLsbD _ _ _ hi]
      by_cases hin : i = n
      · rw [hin, h]; simp
      · have : ¬ (n ≤ i ∧ i < n + 1) := by omega
        rw [decide_eq_false this]; simp
    rw [h0]; rfl

/-- A write of an element writes the low bits of the value alone. -/
theorem VecFile.setElem_congr (f : VecFile) (vlen n w e x y : Nat) (h : x % 2 ^ w = y % 2 ^ w) :
    f.setElem vlen n w e x = f.setElem vlen n w e y := by
  simp only [VecFile.setElem, setSlot, h]

/-- `.x` changes mask registers alone. -/
theorem VecFile.writeX_rest (f : VecFile) (x : Option MName) (e : Nat) (fl : Flags) :
    f.writeX x e fl = { f with m := (f.writeX x e fl).m } := by
  cases x <;> rfl

/-- `.x` changes no mask register but its own. -/
theorem VecFile.writeX_m_ne (f : VecFile) (x : Option MName) (e : Nat) (fl : Flags) (q : MName) (h : x ≠ some q) :
    (f.writeX x e fl).m[q] = f.m[q] := by
  cases x with
  | none => rfl
  | some q' => exact VecFile.setMaskBit_m_ne _ _ _ _ _ fun hq => h (by rw [hq])

/-- `.x` changes no element. -/
theorem VecFile.elem_writeX (f : VecFile) (x : Option MName) (e : Nat) (fl : Flags) (vlen n w k : Nat) :
    (f.writeX x e fl).elem vlen n w k = f.elem vlen n w k := by
  cases x <;> rfl

/-- The registers of a round have room for an element of any width. -/
theorem Round.vlen_bounds (r : Round) (hlo : 15 ≤ r.log2vlen) (hhi : r.log2vlen ≤ 18) : 128 ≤ r.vlen ∧ r.vlen ≤ maxVlen :=
  ⟨(by decide : 128 ≤ 2 ^ 15).trans (Nat.pow_le_pow_right (by decide) hlo), Nat.pow_le_pow_right (by decide) hhi⟩

/-- An element whose register exists lies in the file. -/
theorem inFile_of_register_lt (vlen n w e : Nat) (hw : 0 < w) (hlo : w ≤ vlen) (hhi : vlen ≤ maxVlen) (hd : n + e / (vlen / w) < 32) :
    InFile vlen n w e := by
  refine ⟨hd, ?_⟩
  have hper : 0 < vlen / w := Nat.div_pos hlo hw
  calc w * (e % (vlen / w)) + w = w * (e % (vlen / w) + 1) := by ring
    _ ≤ w * (vlen / w) := Nat.mul_le_mul_left _ (Nat.mod_lt _ hper)
    _ ≤ maxVlen := (Nat.mul_div_le _ _).trans hhi

/-- What a write of an element and of its `.x` bit leaves (R38, R39). -/
theorem elementWritten_writeX (f : VecFile) (vlen d w e v : Nat) (x : Option MName) (fl : Flags)
    (h : InFile vlen d w e) :
    ElementWritten f ((f.setElem vlen d w e v).writeX x e fl) vlen d w e v x fl.severe := by
  refine ⟨?_, ?_, fun k _ hk => ?_, fun r hr => ?_, fun q hq => ?_, fun q hq k hk => ?_⟩
  · rw [VecFile.writeX_rest, VecFile.setElem_rest]
  · rw [VecFile.elem_writeX, VecFile.elem_setElem_same _ _ _ _ _ _ h]
  · rw [VecFile.elem_writeX, VecFile.elem_setElem_ne _ _ _ _ _ _ _ _ h (place_ne _ _ _ _ (Ne.symm hk))]
  · rw [VecFile.writeX_rest]
    exact VecFile.setElem_v_ne _ _ _ _ _ _ _ hr
  · rw [VecFile.writeX_m_ne _ _ _ _ _ hq, VecFile.setElem_rest]
  · obtain rfl : x = some q := hq
    rw [VecFile.writeX, VecFile.maskBit_setMaskBit _ _ _ _ _ hk]
    simp only [VecFile.maskBit]
    rw [VecFile.setElem_rest]

/-- A write of one register ends the bindings that contain it (R142). -/
theorem Hart.unbind_streams (h : Hart) (n : Nat) (hn : n < 32) (i : Fin 4) :
    (h.unbind (groupSet 1 n)).streams[i] =
      (h.streams[i]).bind fun b => if (groupSet b.regs b.group).getLsbD n then none else some b := by
  simp [Hart.unbind, and_groupSet_one_ne_zero _ _ hn]

/-- The fields that the result of a block instruction changes. -/
theorem writeBlock_eq (s : State) (op : BlockOp) (f : BlockArgs) (r : Round) (e v : Nat) (fl : Flags) :
    writeBlock s op f r e v fl = { s with
      hart := { s.hart with
        vec := (s.hart.vec.setElem r.vlen f.d.val (f.widthD op) e v).writeX f.x e fl
        streams := (s.hart.unbind (groupSet 1 (f.d.val + e / (r.vlen / f.widthD op)))).streams
        vc := { s.hart.vc with vxflags := s.hart.vc.vxflags ||| fl } }
      free := if f.rm.resolve s.hart.vc.vrm = .sr then s.free + 1 else s.free } := by
  by_cases h : f.rm.resolve s.hart.vc.vrm = .sr <;> simp only [writeBlock, State.drawn, h, if_true, if_false] <;> rfl

/-- A source supplies a pattern of its width (R48, R49). -/
theorem VecFile.source_lt (v : VecFile) (vlen vl e w : Nat) (x : Src) : v.source vlen vl e w x < 2 ^ w := by
  cases x with
  | e n => exact VecFile.elem_lt ..
  | b n => exact Nat.mod_lt _ (Nat.two_pow_pos w)
  | eid => exact Nat.mod_lt _ (Nat.two_pow_pos w)
  | vl => exact Nat.mod_lt _ (Nat.two_pow_pos w)
  | zero => exact Nat.two_pow_pos w

/-- An instruction that writes an element writes one of at most 128 bits. -/
theorem widthD_bounds (op : BlockOp) (f : BlockArgs) (h : (op.usesD && !op.predicateDest) = true) :
    0 < f.widthD op ∧ f.widthD op ≤ 128 := by
  have h1 := f.fmt.slot_pos
  have h2 := f.fmt.slot_le
  unfold BlockArgs.widthD
  split
  · omega
  · omega
  · omega
  · omega
  · rw [if_pos h]; omega

/-- An arithmetic shift right is a division, rounded down, of the two's complement reading (R99). -/
theorem wrapInt_sshiftRight (w a sh : Nat) (hw : 0 < w) (ha : a < 2 ^ w) :
    wrapInt w ((if a.testBit (w - 1) then (a : Int) - 2 ^ w else a) / 2 ^ sh) = ((BitVec.ofNat w a).sshiftRight sh).toNat := by
  have h : (if a.testBit (w - 1) then (a : Int) - 2 ^ w else a) / 2 ^ sh = ((BitVec.ofNat w a).sshiftRight sh).toInt := by
    rw [BitVec.toInt_sshiftRight, Int.shiftRight_eq_div_pow, toInt_ofNat_of_lt _ _ hw ha]
    simp
  rw [h, wrapInt_eq_ofInt, BitVec.ofInt_toInt]

/-- The micro-thread `m` of the round `r` is at the cursor and executes an instruction, in a state in which nothing is poisoned. -/
structure Executing (s : State) (m : Micro) (r : Round) (f : BlockArgs) : Prop where
  mt : s.hart.mt = some m
  round : s.hart.round = some r
  poison : m.poison = none
  clean : s.hart.vec.clean = true
  executes : executes s.hart.vec m.elem f.pred = true

section
variable {s : State} {m : Micro} {r : Round} {op : BlockOp} {f : BlockArgs}

/-- A block instruction that its predicate turns off goes on to the next word (R96). -/
theorem runBlock_off (act : State → Micro → Round → MicroRes) (hmt : s.hart.mt = some m) (hr : s.hart.round = some r)
    (hp : m.poison = none) (he : executes s.hart.vec m.elem f.pred = false) :
    runBlock s op f act = .next (s.stepped m r) := by
  simp [runBlock, hmt, hr, hp, he, settleMicro, State.stepped]

/-- A block instruction that executes and reads no poisoned register acts. -/
theorem runBlock_on (act : State → Micro → Round → MicroRes) (hx : Executing s m r f) :
    runBlock s op f act = settleMicro s m r (act s m r) := by
  simp [runBlock, hx.mt, hx.round, hx.poison, hx.executes, VecFile.poisonedRead_clean _ _ hx.clean]

/-- A block instruction that computes an element and flags completes with them; the element is its value modulo 2^w. -/
theorem runBlock_writes (act : State → Micro → Round → Nat × Flags) (hx : Executing s m r f)
    (hlo : 15 ≤ r.log2vlen) (hhi : r.log2vlen ≤ 18) (hw : 0 < f.widthD op) (hw' : f.widthD op ≤ 128)
    (hd : f.d.val + m.elem / (r.vlen / f.widthD op) < 32) (v : Nat) (fl : Flags)
    (hv : (act s m r).1 % 2 ^ f.widthD op = v % 2 ^ f.widthD op) (hfl : (act s m r).2 = fl) :
    ∃ u, runBlock s op f (fun s m r => .next (writeBlock s op f r m.elem (act s m r).1 (act s m r).2)) = .next u ∧
      BlockWritten (s.stepped m r) u r.vlen (f.widthD op) m.elem f v fl := by
  obtain ⟨hb, hb'⟩ := r.vlen_bounds hlo hhi
  have hin := inFile_of_register_lt r.vlen f.d.val _ m.elem hw (hw'.trans hb) hb' hd
  rw [runBlock_on _ hx, writeBlock_eq, VecFile.setElem_congr _ _ _ _ _ _ _ hv, hfl]
  exact ⟨_, rfl, rfl, elementWritten_writeX _ _ _ _ _ _ _ _ hin, Hart.unbind_streams _ _ hd⟩

/-- The same of an instruction that computes from its operands alone. -/
theorem blockValue_writes (val : BlockIn → Nat × Flags) (hx : Executing s m r f)
    (hlo : 15 ≤ r.log2vlen) (hhi : r.log2vlen ≤ 18) (hw : 0 < f.widthD op) (hw' : f.widthD op ≤ 128)
    (hd : f.d.val + m.elem / (r.vlen / f.widthD op) < 32) (v : Nat) (fl : Flags)
    (hv : (val (blockIn s op f r m.elem)).1 % 2 ^ f.widthD op = v % 2 ^ f.widthD op)
    (hfl : (val (blockIn s op f r m.elem)).2 = fl) :
    ∃ u, blockValue s op f val = .next u ∧ BlockWritten (s.stepped m r) u r.vlen (f.widthD op) m.elem f v fl :=
  runBlock_writes (fun s m r => val (blockIn s op f r m.elem)) hx hlo hhi hw hw' hd v fl hv hfl

end

end Sys2Proof.Machine
end

section
/-!
O34: predicates of blocks, and the ends of micro-threads (R90, R111, R116, R120).
-/

namespace Sys2Proof.Machine

section
variable {s : State} {m : Micro} {r : Round} {op : BlockOp} {f : BlockArgs}

/-- What a predicate instruction leaves in `u` (R38, R111): its bit of the destination predicate and its flags, and nothing else but the
step of its micro-thread. -/
def PredicateWritten (s u : State) (m : Micro) (r : Round) (f : BlockArgs) (b : Bool) (fl : Flags) : Prop :=
  let base := s.stepped m r
  u = { base with hart := { base.hart with
    vec := { s.hart.vec with m := u.hart.vec.m }, vc := { s.hart.vc with vxflags := s.hart.vc.vxflags ||| fl } } } ∧
  let d : MName := Fin.ofNat 8 f.d.val
  (∀ q : MName, q ≠ d → u.hart.vec.m[q] = s.hart.vec.m[q]) ∧
  ∀ k, k < maxVlen → u.hart.vec.maskBit d k = if k = m.elem then b else s.hart.vec.maskBit d k

/-- An instruction that writes its predicate destination completes with the bit and the flags that it computes. -/
theorem blockPredicate_written (val : State → Micro → BlockIn → Bool × Flags) (hx : Executing s m r f) :
    ∃ u, blockPredicate s op f val = .next u ∧
      PredicateWritten s u m r f (val s m (blockIn s op f r m.elem)).1 (val s m (blockIn s op f r m.elem)).2 := by
  refine ⟨_, runBlock_on _ hx, rfl, fun q hq => ?_, fun k hk => ?_⟩
  · exact VecFile.setMaskBit_m_ne _ _ _ _ _ hq
  · exact VecFile.maskBit_setMaskBit _ _ _ _ _ hk

/-- STOP ends its micro-thread, and the highest active element leaves its held value in `vlinkout` (R116, R120). -/
theorem settleMicro_stop (s : State) (m : Micro) (r : Round) :
    settleMicro s m r .stop = .next { s with hart := { s.hart with
      mt := none
      links := s.hart.links.setQueue m.elem []
      vc := { s.hart.vc with
        vlinkout := if s.hart.links.above r.vl m.elem = none then s.hart.links.heldOf m.elem else s.hart.vc.vlinkout }
      round := some ((r.moved m s.cycle).remove m.elem) } } := by
  have habove : ({ s.hart.links with queued := Store.put [] s.hart.links.queued m.elem [] } : Links).above r.vl m.elem =
      s.hart.links.above r.vl m.elem := rfl
  by_cases h : s.hart.links.above r.vl m.elem = none <;>
    simp [settleMicro, Hart.stopLinks, State.putRound, Links.heldOf, Links.setQueue, habove, h]

/-- A micro-thread put into a round stands in it. -/
theorem Round.mem_put (r : Round) (m o : Micro) (hm : m ∈ r.micros) (ho : o.elem = m.elem) : o ∈ (r.put o).micros :=
  List.mem_map.mpr ⟨m, hm, if_pos ho.symm⟩

/-- The micro-threads of a round in which one has been set aside. -/
theorem Round.setAside_micros (r : Round) (m : Micro) (x : VecFault) :
    (r.setAside m x).micros = (r.put { m with place := .aside (some x), waited := none }).micros := by
  unfold Round.setAside
  split <;> rfl

/-- A micro-thread whose fetch target is misaligned is set aside with kind 4 (R90, R338). -/
theorem settleMicro_misaligned (s : State) (m : Micro) (r : Round) (t : Word) (o : Option (Nat × Nat)) (hm : m ∈ r.micros) :
    ∃ u, settleMicro s m r (.fault (microFault s r m 27 4 3 t o)) = .next u ∧ SameMemory s u ∧ u.hart.vec = s.hart.vec ∧
      SetAside u m.elem fun x => (x.cause, x.kind, x.acc, x.tval, x.vpc) = (27, 4, 3, t, m.block) := by
  have hn (v : State) : v.noteFault s.hartId (microFault s r m 27 4 3 t o) = v := by simp [State.noteFault, microFault]
  refine ⟨s.putRound (r.setAside m (microFault s r m 27 4 3 t o)), by rw [settleMicro, hn], ⟨rfl, rfl, rfl, rfl⟩, rfl,
    _, rfl, { m with place := .aside (some (microFault s r m 27 4 3 t o)), waited := none }, ?_, rfl, _, rfl, rfl⟩
  rw [Round.setAside_micros]
  exact r.mem_put m _ hm rfl

/-- The answer of a terminator that fetches the block at `t` (R90, R120): the micro-thread has ended its block with the fetch, or stands
aside with a fault where the target is misaligned. -/
def FetchesTo (s : State) (m : Micro) (r : Round) (t : Word) (via : Nat) (res : Result) : Prop :=
  (t.toNat % 128 = 0 → res = .next (s.putRound ((r.moved m s.cycle).put
    { m with ended := .fetched t, via := via, waited := none }))) ∧
  (t.toNat % 128 ≠ 0 → ∃ u, res = .next u ∧ SameMemory s u ∧ u.hart.vec = s.hart.vec ∧
    SetAside u m.elem fun x => (x.cause, x.kind, x.acc, x.tval, x.vpc) = (27, 4, 3, t, m.block))

/-- A terminator that fetches does so (R120). -/
theorem fetchTarget_fetches (hm : m ∈ r.micros) (hw : f.widthA op = 64) :
    FetchesTo s m r
      ((if f.a = .zero then m.block else BitVec.ofNat 64 (s.hart.vec.source r.vlen r.vl m.elem 64 f.a)) +
        BitVec.ofInt 64 (f.fn13.toInt * 128)) f.a.code.toNat
      (settleMicro s m r (fetchTarget s op f m r)) := by
  have ha : (blockIn s op f r m.elem).a = s.hart.vec.source r.vlen r.vl m.elem 64 f.a := by simp [blockIn, hw]
  unfold fetchTarget
  rw [ha]
  constructor
  · intro ht
    simp only [ht, ne_eq, not_true_eq_false, if_false]
    rfl
  · intro ht
    simp only [ht, ne_eq, not_false_eq_true, if_true]
    exact settleMicro_misaligned s m r _ _ hm

/-- The comparison that CMP makes, by its condition (R111). -/
theorem execCmp_eq (f : BlockArgs) (s : State) :
    execCmp f s = blockPredicate s .cmp f fun _ _ o =>
      (if f.fn13.toNat = 0 then decide (f.fmt.toInt o.a = f.fmt.toInt o.b)
        else if f.fn13.toNat = 1 then decide (f.fmt.toInt o.a ≠ f.fmt.toInt o.b)
        else if f.fn13.toNat = 2 then decide (f.fmt.toInt o.a < f.fmt.toInt o.b)
        else decide (f.fmt.toInt o.b ≤ f.fmt.toInt o.a), 0#5) := by
  unfold execCmp
  congr 1
  funext _ _ o
  generalize f.fn13.toNat = n
  match n with
  | 0 => simp [beq_eq_decide]
  | 1 => simp [bne, beq_eq_decide]
  | 2 => rfl
  | n + 3 => simp

/-- The predicate bit that a source of PLOG names (R111). -/
def predicateBit (s : State) (m : Micro) (x : Src) : Nat := match x with
  | .e q => (s.hart.vec.maskBit (Fin.ofNat 8 q.val) m.elem).toNat
  | _ => 0

/-- Settles O34: the predicate instructions by `blockPredicate_written`, and the terminators by what `settleMicro` makes of a stop and of
a fetch. -/
theorem blockPredicates : Obligations.BlockPredicates := by
  unfold Obligations.BlockPredicates
  refine ⟨fun s op f m r hmt hr _ hc hp _ he => ?_, fun s f m r hmt hr hc hp hm he => ?_⟩
  · have hx : Executing s m r f := ⟨hmt, hr, hp, hc, he⟩
    intro e o a b n bit results
    have written (op : BlockOp) (val : State → Micro → BlockIn → Bool × Flags) :=
      blockPredicate_written (op := op) val hx
    simp only [results, List.forall_mem_cons, List.not_mem_nil, false_implies, implies_true, and_true]
    refine ⟨?_, ?_, ?_, ?_⟩ <;> rintro rfl
    · obtain ⟨u, hu, h⟩ := execCmp_eq f s ▸ written .cmp _
      exact ⟨u, hu, h⟩
    · obtain ⟨u, hu, h⟩ := written .fcmp fun _ _ o => f.fmt.fcmp f.fn13.toNat o.a o.b
      exact ⟨u, hu, h⟩
    · obtain ⟨u, hu, h⟩ := written .plog fun s m _ => (f.fn13.toNat.testBit (2 * predicateBit s m f.a + predicateBit s m f.b), 0#5)
      exact ⟨u, hu, h⟩
    · obtain ⟨u, hu, h⟩ := written .pset fun _ _ o => (o.a.testBit f.fn13.toNat, 0#5)
      exact ⟨u, hu, h⟩
  · have hx : Executing s m r f := ⟨hmt, hr, hp, hc, he⟩
    intro l e stops base t fetches
    have stopped (op : BlockOp) : runBlock s op f (fun _ _ _ => .stop) = _ :=
      (runBlock_on _ hx).trans (settleMicro_stop s m r)
    have fetched (op : BlockOp) (hw : f.widthA op = 64) := fetchTarget_fetches (s := s) (r := r) (op := op) hm hw
    refine ⟨fun _ => stopped .stop, fun _ => ?_, fun _ q hq => ?_⟩
    · have h : exec (.fetch f) s = settleMicro s m r (fetchTarget s .fetch f m r) :=
        runBlock_on (fun s m r => fetchTarget s .fetch f m r) hx
      show FetchesTo s m r t f.a.code.toNat (exec (.fetch f) s)
      exact h ▸ fetched .fetch rfl
    · intro holds
      have hfetchc : exec (.fetchc f) s = settleMicro s m r (if holds then fetchTarget s .fetchc f m r else .stop) := by
        show execFetchc f s = _
        rw [execFetchc, runBlock_on _ hx, hq]
      refine ⟨fun h => ?_, fun h => ?_⟩ <;> rw [h] at hfetchc
      · show FetchesTo s m r t f.a.code.toNat (exec (.fetchc f) s)
        exact hfetchc ▸ fetched .fetchc rfl
      · exact hfetchc.trans (settleMicro_stop s m r)

end

end Sys2Proof.Machine
end

section
/-!
O33: the arithmetic, move and select instructions of a block (R96 to R110, R119).
-/

namespace Sys2Proof.Machine

/-- Every block instruction is run by `runBlock`. -/
theorem exec_ofBlock (op : BlockOp) (f : BlockArgs) (s : State) : ∃ act, exec (Instr.ofBlock op f) s = runBlock s op f act := by
  cases op <;> dsimp only [Instr.ofBlock, exec, blockValue, blockPredicate, intBinary, bitBinary, widening,
    execAdd, execSub, execMul, execMulh, execDiv, execRem, execAnd, execOr, execXor, execSll, execSrl, execSra, execMin, execMax,
    execAbs, execClz, execPopc, execAddi, execLi, execWadd, execWmul, execWmac, execNclip, execBext, execBins, execFadd,
    execFsub, execFmul, execFmulz, execFma, execFdiv, execFsqrt, execFmin, execFmax, execFclass, execFsgnj, execFcvt, execFcvti,
    execIcvtf, execLmul, execLacc, execLcvtf, execFcvtl, execCmp, execFcmp, execPlog, execPset, execLd, execSt, execPf, execLget,
    execLput, execSget, execMov, execStop, execFetch, execFetchc] <;> exact ⟨_, rfl⟩

/-- Settles O33: each operation's value is the one stated, modulo the width of its destination, and `runBlock_writes` says what becomes of
it. -/
theorem blockValues : Obligations.BlockValues := by
  unfold Obligations.BlockValues
  intro s op f m r hmt hr hf hc hp hlo hhi
  dsimp only
  refine ⟨fun he => ?_, fun he hd => ?_⟩
  · obtain ⟨act, hact⟩ := exec_ofBlock op f s
    exact hact.trans (runBlock_off act hmt hr hp he)
  have hx : Executing s m r f := ⟨hmt, hr, hp, hc, he⟩
  have writes (hop : (op.usesD && !op.predicateDest) = true) (val : BlockIn → Nat × Flags) (v : Nat) (fl : Flags) :=
    blockValue_writes (op := op) val hx hlo hhi (widthD_bounds op f hop).1 (widthD_bounds op f hop).2 hd v fl
  have hslot := f.fmt.slot_pos
  simp only [List.forall_mem_cons, List.not_mem_nil, false_implies, implies_true, and_true]
  refine ⟨?add, ?sub, ?mul, ?mulh, ?div, ?rem, ?and, ?or, ?xor, ?sll, ?srl, ?sra, ?min, ?max, ?abs, ?clz, ?popc, ?addi, ?li, ?sel,
    ?wadd, ?wmul, ?wmac, ?nclip, ?bext, ?bins, ?fadd, ?fsub, ?fmul, ?fmulz, ?fdiv, ?fsqrt, ?fma, ?fmin, ?fmax, ?fclass, ?fsgnj,
    ?fcvt, ?fcvti, ?icvtf, ?lmul, ?lacc, ?lcvtf, ?fcvtl, ?sget, ?mov⟩ <;> rintro rfl
  case add | sub | mul | mulh | min | max | abs | addi | li | wadd | wmul | wmac | nclip | fadd | fsub | fmul | fmulz | fdiv |
    fsqrt | fma | fmin | fmax | fclass | fsgnj | fcvt | fcvti | icvtf | lmul | lacc | lcvtf | fcvtl =>
    dsimp only [Instr.ofBlock, exec, intBinary, bitBinary, widening,
      execAdd, execSub, execMul, execMulh, execMin, execMax, execAbs, execAddi, execLi, execWadd, execWmul, execWmac,
      execNclip, execFadd, execFsub, execFmul, execFmulz, execFdiv, execFsqrt, execFma, execFmin, execFmax, execFclass,
      execFsgnj, execFcvt, execFcvti, execIcvtf, execLmul, execLacc, execLcvtf, execFcvtl]
    refine writes rfl _ _ _ ?_ ?_ <;> rfl
  case and | or | xor | clz | popc | sget | mov =>
    dsimp only [Instr.ofBlock, exec, bitBinary, execAnd, execOr, execXor, execClz, execPopc, execSget, execMov]
    refine writes rfl _ _ _ ?_ ?_
    · exact Nat.mod_mod _ _
    · rfl
  case div =>
    dsimp only [Instr.ofBlock, exec, execDiv]
    by_cases hb : f.fmt.toInt (blockIn s .div f r m.elem).b = 0
    · rw [if_pos hb]
      refine writes rfl _ _ _ ?_ ?_ <;> rw [if_pos hb]
      exact congrArg (· % _) (wrapInt_neg_one _)
    · rw [if_neg hb]
      refine writes rfl _ _ _ ?_ ?_ <;> rw [if_neg hb]
  case rem =>
    dsimp only [Instr.ofBlock, exec, execRem]
    by_cases hb : f.fmt.toInt (blockIn s .rem f r m.elem).b = 0
    · rw [if_pos hb]
      refine writes rfl _ _ _ ?_ ?_ <;> rw [if_pos hb]
      exact (congrArg (· % _) (wrapInt_toInt _ _)).trans (Nat.mod_mod _ _)
    · rw [if_neg hb]
      refine writes rfl _ _ _ ?_ ?_ <;> rw [if_neg hb]
  case sll =>
    dsimp only [Instr.ofBlock, exec, bitBinary, execSll]
    refine writes rfl _ _ _ ?_ ?_
    · rw [Nat.shiftLeft_eq]
      exact Nat.mod_mod _ _
    · rfl
  case srl =>
    dsimp only [Instr.ofBlock, exec, bitBinary, execSrl]
    refine writes rfl _ _ _ ?_ ?_
    · rw [Nat.shiftRight_eq_div_pow]
      exact Nat.mod_mod _ _
    · rfl
  case sra =>
    have ha : (blockIn s .sra f r m.elem).a < 2 ^ f.fmt.slot := f.fmtA_eq_fmt .sra hf rfl ▸ VecFile.source_lt ..
    dsimp only [Instr.ofBlock, exec, execSra]
    refine writes rfl _ _ _ ?_ ?_
    · exact congrArg (· % _) (wrapInt_sshiftRight _ _ _ hslot ha)
    · rfl
  case bext =>
    dsimp only [Instr.ofBlock, exec, execBext]
    refine writes rfl _ _ _ ?_ ?_
    · rw [Nat.shiftRight_eq_div_pow, signExtend_eq_toInt _ _ _ (Nat.succ_pos _) (Nat.mod_lt _ (Nat.two_pow_pos _))]
    · rfl
  case bins =>
    dsimp only [Instr.ofBlock, exec, execBins]
    refine writes rfl _ _ _ ?_ ?_
    · rw [insertField_eq]
    · rfl
  case sel =>
    exact runBlock_writes (op := .sel)
      (fun s m r => (if s.hart.vec.maskBit (Fin.ofNat 8 (f.fn13.toNat % 8)) m.elem != f.fn13.toNat.testBit 3 then
        (blockIn s .sel f r m.elem).a else (blockIn s .sel f r m.elem).b, 0#5))
      hx hlo hhi (widthD_bounds .sel f rfl).1 (widthD_bounds .sel f rfl).2 hd _ _ rfl rfl

end Sys2Proof.Machine
end

section
/-!
The combinations of reductions and scans (R40, R158): the model's operations, which accrue flags and use draws as they go, give the
values and flags of the spec's, in element order and over the tree.
-/

namespace Sys2Proof.Machine

/-- The state after operations that have accrued flags and used draws. -/
def State.accrued (s : State) (fl : Flags) (free : Nat) : State :=
  { s with hart := { s.hart with vc := { s.hart.vc with vxflags := s.hart.vc.vxflags ||| fl } }, free := free }

/-- Flags accrued twice are accrued at once; the later count of draws stands. -/
theorem State.accrued_accrued (s : State) (a b : Flags) (n n' : Nat) : (s.accrued a n).accrued b n' = s.accrued (a ||| b) n' := by
  simp [State.accrued, BitVec.or_assoc]

/-- Without flags and draws nothing changes. -/
theorem State.accrued_zero (s : State) : s.accrued 0 s.free = s := by simp [State.accrued]

/-- A value is a pattern of its width, in an integer format. -/
def IntFits (f : Fmt) (x : Nat) : Prop := f.isInt = true → x < 2 ^ f.slot

/-- The lesser of two patterns, as an integer, is the pattern of the lesser integer. -/
theorem wrapInt_choose_min (f : Fmt) (x y : Nat) (hx : x < 2 ^ f.slot) (hy : y < 2 ^ f.slot) :
    (if f.toInt y < f.toInt x then y else x) = wrapInt f.slot (min (f.toInt x) (f.toInt y)) := by
  split
  · rw [min_eq_right (by omega), wrapInt_toInt, Nat.mod_eq_of_lt hy]
  · rw [min_eq_left (by omega), wrapInt_toInt, Nat.mod_eq_of_lt hx]

/-- The greater of two patterns, as an integer, is the pattern of the greater integer. -/
theorem wrapInt_choose_max (f : Fmt) (x y : Nat) (hx : x < 2 ^ f.slot) (hy : y < 2 ^ f.slot) :
    (if f.toInt x < f.toInt y then y else x) = wrapInt f.slot (max (f.toInt x) (f.toInt y)) := by
  split
  · rw [max_eq_right (by omega), wrapInt_toInt, Nat.mod_eq_of_lt hy]
  · rw [max_eq_left (by omega), wrapInt_toInt, Nat.mod_eq_of_lt hx]

/-- An integer operation of patterns of the width gives one. -/
theorem opValue_fits (f : Fmt) (op : RedOp) (mode : Rounding) (draw : BitVec 16) (x y : Nat) (hx : IntFits f x) (hy : IntFits f y) :
    IntFits f (opValue f op mode draw x y).1 := by
  intro hi
  unfold opValue
  cases op <;> simp only [hi, if_true]
  case sum | min | max | ssum => exact wrapInt_lt _ _
  case and => exact Nat.and_lt_two_pow _ (hy hi)
  case or => exact Nat.or_lt_two_pow (hx hi) (hy hi)
  case xor => exact Nat.xor_lt_two_pow (hx hi) (hy hi)

/-- An integer operation raises no flag. -/
theorem opValue_flags_int (f : Fmt) (op : RedOp) (mode : Rounding) (draw : BitVec 16) (x y : Nat) (hi : f.isInt = true) :
    (opValue f op mode draw x y).2 = 0 := by
  unfold opValue
  cases op <;> simp only [hi, if_true]

/-- The model's operation is Op of R158: its value, and its flags accrued; SR may have used a draw, an integer format none. -/
theorem redOp_eq (f : Fmt) (op : RedOp) (s : State) (x y : Nat) (hx : IntFits f x) (hy : IntFits f y) :
    ∃ n, redOp f op s x y =
        ((opValue f op (Rounding.ofVrm s.hart.vc.vrm) (Config.srDraw s.free) x y).1,
          s.accrued (opValue f op (Rounding.ofVrm s.hart.vc.vrm) (Config.srDraw s.free) x y).2 n) ∧
      (f.isInt = true → n = s.free) := by
  by_cases hi : f.isInt = true
  · refine ⟨s.free, ?_, fun _ => rfl⟩
    rw [opValue_flags_int _ _ _ _ _ _ hi, State.accrued_zero]
    unfold redOp opValue
    cases op <;> simp only [hi, if_true]
    case sum | ssum => rfl
    case min => rw [wrapInt_choose_min f x y (hx hi) (hy hi)]
    case max => rw [wrapInt_choose_max f x y (hx hi) (hy hi)]
  · have keep : s = s.accrued 0 s.free := (State.accrued_zero s).symm
    unfold redOp opValue
    cases op <;> simp only [hi, if_false, Bool.false_eq_true]
    case sum =>
      refine ⟨if Rounding.ofVrm s.hart.vc.vrm = .sr then s.free + 1 else s.free, ?_, fun h => h.elim⟩
      simp only [State.drawn, State.roundCtx]
      split <;> rfl
    case min | max => exact ⟨s.free, rfl, fun h => h.elim⟩
    case and | or | xor | ssum => exact ⟨s.free, Prod.ext rfl keep, fun h => h.elim⟩

/-- The slots that are present fit the format. -/
def SlotFits (f : Fmt) (slot : Nat → Option Nat) : Prop := ∀ k x, slot k = some x → IntFits f x

/-- Op of R158 under the rounding mode of a state. -/
def State.opAt (s : State) (f : Fmt) (op : RedOp) (draw : BitVec 16) : Nat → Nat → Nat × Flags :=
  opValue f op (Rounding.ofVrm s.hart.vc.vrm) draw

/-- The same after other operations: the flags add up. -/
theorem redOp_accrued (f : Fmt) (op : RedOp) (s : State) (fl : Flags) (n x y : Nat) (hx : IntFits f x) (hy : IntFits f y) :
    ∃ n', redOp f op (s.accrued fl n) x y =
        ((opOnto (s.opAt f op (Config.srDraw n)) (x, fl) y).1, s.accrued (opOnto (s.opAt f op (Config.srDraw n)) (x, fl) y).2 n') ∧
      (f.isInt = true → n' = n) := by
  obtain ⟨n', h, hn⟩ := redOp_eq f op (s.accrued fl n) x y hx hy
  exact ⟨n', by rw [h, State.accrued_accrued]; rfl, hn⟩

/-! ## Combinations in element order -/

/-- The combination of two lists goes on with the second from the value and the state of the first. -/
theorem orderedOf_append (f : Fmt) (op : RedOp) (xs ys : List (Option Nat)) (s : State) (start : Nat) :
    orderedOf f op s start (xs ++ ys) = orderedOf f op (orderedOf f op s start xs).2 (orderedOf f op s start xs).1 ys := by
  induction xs generalizing s start with
  | nil => rfl
  | cons x xs ih => cases x <;> exact ih ..

/-- The draw that the step at element `k` takes in element order. -/
def orderedDraw (f : Fmt) (op : RedOp) (s : State) (start : Nat) (slot : Nat → Option Nat) (k : Nat) : BitVec 16 :=
  Config.srDraw (orderedOf f op s start ((List.range k).map slot)).2.free

/-- The model's combination in element order is the spec's, with the draws that its steps take. -/
theorem orderedOf_eq_orderedValue (f : Fmt) (op : RedOp) (s : State) (start : Nat) (slot : Nat → Option Nat)
    (hstart : IntFits f start) (hslot : SlotFits f slot) (n : Nat) :
    ∃ free, let c := orderedValue (fun k => s.opAt f op (orderedDraw f op s start slot k)) slot start n
      orderedOf f op s start ((List.range n).map slot) = (c.1, s.accrued c.2 free) ∧ IntFits f c.1 ∧
      (f.isInt = true → free = s.free) := by
  induction n with
  | zero => exact ⟨s.free, by rw [orderedValue, State.accrued_zero]; rfl, hstart, fun _ => rfl⟩
  | succ n ih =>
    obtain ⟨free, hc, hfit, hfree⟩ := ih
    have draw : orderedDraw f op s start slot n = Config.srDraw free := by rw [orderedDraw, hc]; rfl
    rw [List.range_succ, List.map_append, orderedOf_append, hc]
    simp only [List.map_cons, List.map_nil, orderedValue]
    cases hx : slot n with
    | none => exact ⟨free, rfl, hfit, hfree⟩
    | some x =>
      obtain ⟨n', h, hn⟩ := redOp_accrued f op s (orderedValue (fun k => s.opAt f op (orderedDraw f op s start slot k)) slot start n).2
        free _ x hfit (hslot n x hx)
      rw [← draw] at h
      exact ⟨n', h, opValue_fits _ _ _ _ _ _ hfit (hslot n x hx), fun hi => (hn hi).trans (hfree hi)⟩

/-! ## Combinations over the tree -/

/-- A node of the tree: the combination of the elements below it, with the flags of their steps, where one is present. -/
abbrev Node := Option (Nat × Flags)

/-- Two neighbours combined: an absent one contributes nothing. -/
def joinNodes (op : Nat → Nat → Nat × Flags) : Node → Node → Node
  | some x, some y => some ((opOnto op x y.1).1, (opOnto op x y.1).2 ||| y.2)
  | some x, none => some x
  | none, y => y

/-- The nodes of a level as the model holds them: their values alone. -/
def nodeValues (ys : List Node) : List (Option Nat) := ys.map (Option.map (·.1))

/-- The flags of a node. -/
def Node.flags (y : Node) : Flags := (y.map (·.2)).getD 0

/-- The flags that the nodes of a level have raised. -/
def nodeFlags (ys : List Node) : Flags := ys.foldr (Node.flags · ||| ·) 0

/-- Node `q` of a level, absent beyond its end. -/
def nodeAt (ys : List Node) (q : Nat) : Node := (ys[q]?).join

/-- The value of a node fits its format. -/
def NodeFits (f : Fmt) (y : Node) : Prop := IntFits f ((y.map (·.1)).getD 0)

/-- An absent right neighbour leaves the left one. -/
theorem joinNodes_none (op : Nat → Nat → Nat × Flags) (x : Node) : joinNodes op x none = x := by cases x <;> rfl

/-- Neighbours that fit combine to a node that fits. -/
theorem joinNodes_fits (f : Fmt) (op : RedOp) (s : State) (draw : BitVec 16) (x y : Node) (hx : NodeFits f x) (hy : NodeFits f y) :
    NodeFits f (joinNodes (s.opAt f op draw) x y) := by
  cases x <;> cases y
  case some.some => exact opValue_fits _ _ _ _ _ _ hx hy
  all_goals assumption

/-- Two neighbours of a level combined by the model. -/
theorem treeLevel_pair (f : Fmt) (op : RedOp) (s : State) (x y : Node) (fl : Flags) (n : Nat) (hx : NodeFits f x) (hy : NodeFits f y) :
    ∃ (draw : BitVec 16) (lvl : Flags) (n' : Nat),
      (∀ rest, treeLevel f op (s.accrued fl n) (x.map (·.1) :: y.map (·.1) :: rest) =
        let r := treeLevel f op (s.accrued (fl ||| lvl) n') rest
        ((joinNodes (s.opAt f op draw) x y).map (·.1) :: r.1, r.2)) ∧
      (joinNodes (s.opAt f op draw) x y).flags = x.flags ||| y.flags ||| lvl ∧ (f.isInt = true → n' = n) := by
  rcases x with - | ⟨x, fx⟩ <;> rcases y with - | ⟨y, fy⟩
  case some.some =>
    obtain ⟨n', h, hn⟩ := redOp_accrued f op s fl n x y hx hy
    refine ⟨Config.srDraw n, (s.opAt f op (Config.srDraw n) x y).2, n', fun rest => ?_, ?_, hn⟩
    · simp only [Option.map_some, treeLevel]
      rw [h]
      rfl
    · show fx ||| _ ||| fy = fx ||| fy ||| _
      ac_rfl
  all_goals exact ⟨0, 0, n, fun rest => by simp [treeLevel, joinNodes], by simp [Node.flags, joinNodes], fun _ => rfl⟩

/-- One level of the model's tree: each node joins its two neighbours, and the state accrues the flags of the level. -/
theorem treeLevel_eq_joinNodes (f : Fmt) (op : RedOp) (s : State) :
    ∀ (ys : List Node) (fl : Flags) (n : Nat), (∀ y ∈ ys, NodeFits f y) →
    ∃ (draw : Nat → BitVec 16) (zs : List Node) (lvl : Flags) (n' : Nat),
      treeLevel f op (s.accrued fl n) (nodeValues ys) = (nodeValues zs, s.accrued (fl ||| lvl) n') ∧
      nodeFlags zs = nodeFlags ys ||| lvl ∧ zs.length = (ys.length + 1) / 2 ∧ (∀ z ∈ zs, NodeFits f z) ∧
      (∀ q, nodeAt zs q = joinNodes (s.opAt f op (draw q)) (nodeAt ys (2 * q)) (nodeAt ys (2 * q + 1))) ∧
      (f.isInt = true → n' = n)
  | [], fl, n, _ => ⟨fun _ => 0, [], 0, n, by simp [treeLevel, nodeValues], rfl, rfl, by simp, fun _ => rfl, fun _ => rfl⟩
  | [y], fl, n, hf => by
    refine ⟨fun _ => 0, [y], 0, n, by cases y <;> simp [treeLevel, nodeValues], by simp, by simp, hf, fun q => ?_, fun _ => rfl⟩
    cases q with
    | zero => exact (joinNodes_none _ _).symm
    | succ q => rfl
  | x :: y :: rest, fl, n, hf => by
    have hx : NodeFits f x := hf x (by simp)
    have hy : NodeFits f y := hf y (by simp)
    obtain ⟨d0, l0, n0, h0, hl0, hn0⟩ := treeLevel_pair f op s x y fl n hx hy
    obtain ⟨draw, zs, lvl, n', h, hl, hlen, hfit, hat, hn⟩ :=
      treeLevel_eq_joinNodes f op s rest (fl ||| l0) n0 fun z hz => hf z (by simp [hz])
    refine ⟨fun q => if q = 0 then d0 else draw (q - 1), joinNodes (s.opAt f op d0) x y :: zs, l0 ||| lvl, n', ?_, ?_, ?_, ?_, ?_,
      fun hi => (hn hi).trans (hn0 hi)⟩
    · rw [← BitVec.or_assoc]
      exact (h0 (nodeValues rest)).trans (by rw [h]; rfl)
    · show Node.flags _ ||| nodeFlags zs = x.flags ||| (y.flags ||| nodeFlags rest) ||| _
      rw [hl0, hl]
      ac_rfl
    · simp only [List.length_cons, hlen]; omega
    · exact List.forall_mem_cons.mpr ⟨joinNodes_fits f op s d0 x y hx hy, hfit⟩
    · intro q
      cases q with
      | zero => rfl
      | succ q => exact hat q

/-- The combination of the 2^j leaves below node `q` of level `j`, where `op j q` combines the two halves of a node. -/
def nodeValue (op : Nat → Nat → Nat → Nat → Nat × Flags) (leaf : Nat → Node) : Nat → Nat → Node
  | 0, q => leaf q
  | j + 1, q => joinNodes (op j q) (nodeValue op leaf j (2 * q)) (nodeValue op leaf j (2 * q + 1))

/-- The lowest level of the tree may be combined first. -/
theorem nodeValue_bottom (op : Nat → Nat → Nat → Nat → Nat × Flags) (leaf : Nat → Node) (j q : Nat) :
    nodeValue op leaf (j + 1) q =
      nodeValue (fun j => op (j + 1)) (fun q => joinNodes (op 0 q) (leaf (2 * q)) (leaf (2 * q + 1))) j q := by
  induction j generalizing q with
  | zero => rfl
  | succ j ih => rw [nodeValue, ih, ih]; rfl

/-- Above absent leaves there is no node. -/
theorem nodeValue_absent (op : Nat → Nat → Nat → Nat → Nat × Flags) (leaf : Nat → Node) (j q : Nat)
    (h : ∀ i, q * 2 ^ j ≤ i → leaf i = none) : nodeValue op leaf j q = none := by
  induction j generalizing q with
  | zero => exact h q (by simp)
  | succ j ih =>
    have le : q * 2 ^ (j + 1) ≤ 2 * q * 2 ^ j := by rw [Nat.pow_succ]; exact le_of_eq (by ring)
    have le' : 2 * q * 2 ^ j ≤ (2 * q + 1) * 2 ^ j := Nat.mul_le_mul_right _ (Nat.le_succ _)
    rw [nodeValue, ih (2 * q) fun i hi => h i (le.trans hi), ih (2 * q + 1) fun i hi => h i (le.trans (le'.trans hi))]
    rfl

/-- The tree of the spec names a node by its first slot, `nodeValue` by its number in its level. -/
theorem treeValue_eq_nodeValue (op : Nat → Nat → Nat → Nat → Nat × Flags) (slot : Nat → Option Nat) (j q : Nat) :
    treeValue (fun j i => op j (i / 2 ^ (j + 1))) slot j (q * 2 ^ j) = nodeValue op (fun q => (slot q).map (·, 0)) j q := by
  induction j generalizing q with
  | zero => simp [treeValue, nodeValue]
  | succ j ih =>
    have left : q * 2 ^ (j + 1) = 2 * q * 2 ^ j := by ring
    have right : 2 * q * 2 ^ j + 2 ^ j = (2 * q + 1) * 2 ^ j := by ring
    rw [treeValue, Nat.mul_div_cancel _ (Nat.two_pow_pos _), left, right, ih, ih, nodeValue]
    cases nodeValue op (fun q => (slot q).map (·, 0)) j (2 * q) <;>
      cases nodeValue op (fun q => (slot q).map (·, 0)) j (2 * q + 1) <;> rfl

/-- The tree of the model over nodes whose flags have accrued: its root with the flags of all the steps below it. -/
theorem treeOf_eq_nodeValue (f : Fmt) (op : RedOp) (s : State) (levels : Nat) :
    ∀ (ys : List Node) (n : Nat), (∀ y ∈ ys, NodeFits f y) → ys.length ≤ 2 ^ levels →
    ∃ (draw : Nat → Nat → BitVec 16) (n' : Nat),
      let root := nodeValue (fun j q => s.opAt f op (draw j q)) (nodeAt ys) levels 0
      treeOf f op levels (s.accrued (nodeFlags ys) n) (nodeValues ys) = (root.map (·.1), s.accrued root.flags n') ∧
      NodeFits f root ∧ (f.isInt = true → n' = n) := by
  induction levels with
  | zero =>
    intro ys n hf hlen
    refine ⟨fun _ _ => 0, n, ?_⟩
    match ys, hlen with
    | [], _ => exact ⟨rfl, fun _ => Nat.two_pow_pos _, fun _ => rfl⟩
    | [y], _ =>
      refine ⟨?_, hf y (by simp), fun _ => rfl⟩
      simp [treeOf, nodeValues, nodeFlags, nodeValue, nodeAt]
  | succ levels ih =>
    intro ys n hf hlen
    obtain ⟨draw0, zs, lvl, n0, h, hl, hzs, hfit, hat, hn⟩ := treeLevel_eq_joinNodes f op s ys (nodeFlags ys) n hf
    obtain ⟨draw, n', h', hfit', hn'⟩ := ih zs n0 hfit (by rw [hzs]; rw [Nat.pow_succ] at hlen; omega)
    have leaves : nodeAt zs = fun q => joinNodes (s.opAt f op (draw0 q)) (nodeAt ys (2 * q)) (nodeAt ys (2 * q + 1)) := funext hat
    refine ⟨fun j => match j with
      | 0 => draw0
      | j + 1 => draw j, n', ?_⟩
    rw [nodeValue_bottom, ← leaves, treeOf, h, ← hl]
    exact ⟨h', hfit', fun hi => (hn' hi).trans (hn hi)⟩

end Sys2Proof.Machine
end

section
/-!
Reductions as they are issued: what VREDO and VREDT leave on a ready hart.
-/

namespace Sys2Proof.Machine

/-- An element fits its format. -/
theorem elem_intFits (s : State) (t : VType) (v : VName) (k : Nat) : IntFits t.fmt (s.element t v k) :=
  fun _ => VecFile.elem_lt ..

/-- The state `u` holds the vector file of `w`, but for the progress index, and its flags and free values. -/
structure Holds (u w : State) : Prop where
  vec : ∃ p, u.hart.vec = { w.hart.vec with progress := p }
  flags : u.hart.vc.vxflags = w.hart.vc.vxflags
  free : u.free = w.free

/-- An instruction that is performed and changes data alone, memory and the tables aside, completes with what it made of the registers. -/
theorem issue_data (s : State) (i : Instr) (t : VType) (c : Cap) (act : QEntry → State → VecRes) (w : State) (h : Ready s t)
    (hact : act (s.hart.entry i c .vector) (s.entered i c .vector) = .ok w) (hw : OnlyData (s.entered i c .vector) w)
    (hmem : SameMemory s w) (htab : SameTables s w) :
    ∃ u, issue s i true .vector c act = .next u ∧ OnlyData s.done u ∧ SameMemory s u ∧ SameTables s u ∧ Holds u w := by
  obtain ⟨⟨hi, -, hc⟩, -⟩ := h
  obtain ⟨u, hu, hdata, hvec, hfl, hixt, hstr, hfree, hm, hres, hfe, hpo⟩ := settle_vector s i c w hi hw
  obtain ⟨m1, m2, m3, m4⟩ := hmem
  exact ⟨u, by rw [issue_idle s i .vector c act hi hc, hact, hu], hdata,
    ⟨hm.trans m1, hres.trans m2, hfe.trans m3, hpo.trans m4⟩, ⟨hixt.trans htab.1, hstr.trans htab.2⟩, hvec, hfl, hfree⟩

/-- The elements of the state that an instruction leaves are those that its performance left. -/
theorem Holds.element {s u w : State} (h : Holds u w) (hd : OnlyData s.done u) (t : VType) (v : VName) (k : Nat) :
    u.element t v k = w.hart.vec.elem s.hart.vlen v.val t.sew k := by
  obtain ⟨p, hp⟩ := h.vec
  have vlen : u.hart.vlen = s.hart.vlen := by rw [hd]; rfl
  rw [State.element, vlen, hp]
  rfl

/-- A group that holds an element has whole elements. -/
theorem zero_lt_perRegister (s : State) (t : VType) (h : s.hart.fits = true) (ht : s.hart.vc.vtype = some t) (hvl : s.hart.vc.vl ≠ 0) :
    0 < s.hart.vlen / t.sew := by
  simp only [Hart.fits, ht, Bool.and_eq_true, decide_eq_true_eq] at h
  refine Nat.pos_of_ne_zero fun h0 => hvl ?_
  obtain ⟨per, hper⟩ := t.sew_dvd.trans (Nat.dvd_mul_right groupBits s.hart.nlg)
  change s.hart.vlen = _ at hper
  have : per = 0 := by rwa [hper, Nat.mul_div_cancel_left _ t.sew_pos] at h0
  rw [hper, this] at h
  simpa using h.2

/-- A reduction performed: element 0 of its destination is the combination, and the tag of its register is cleared. -/
theorem reduction_performed (e : QEntry) (s : State) (t : VType) (d a : VName) (m : Option MName)
    (combine : VType → State → Nat → List (Option Nat) → Nat × State) (z : Nat) (fl : Flags) (free : Nat)
    (ht : e.vtype = some t) (hvl : e.vl ≠ 0) (hu : s.hart.unbound = true) (hcl : s.hart.vec.clean = true)
    (hc : combine t s (s.elemOf e t d 0) (activeElems s e t a m) = (z, s.accrued fl free)) :
    reduction d a m e s combine = .ok (((s.accrued fl free).setVec
      ((s.hart.vec.setElem e.vlen d.val t.sew 0 z).clearTags e.vlen (groupSet 1 d.val))).progress (groupSet 1 d.val) 1) := by
  unfold reduction
  rw [popping_unbound _ _ _ _ _ t ht hu hcl, wholeVector, if_neg hvl, QEntry.typed, ht]
  dsimp only
  rw [hc]
  dsimp only
  rw [State.wrote_unbound _ _ _ (show ((s.accrued fl free).putElem e t d 0 z).hart.unbound = true from hu)]
  rfl

/-- A reduction issued on a ready hart leaves the combination in element 0, with its flags. -/
theorem issue_reduction (s : State) (i : Instr) (t : VType) (d a : VName) (m : Option MName)
    (combine : VType → State → Nat → List (Option Nat) → Nat × State) (z : Nat) (fl : Flags) (free : Nat) (h : Ready s t)
    (hvl : s.hart.vc.vl ≠ 0)
    (hc : combine t (s.entered i {} .vector) (s.element t d 0)
        ((List.range s.hart.vc.vl).map fun k => if s.hart.vec.active m k then some (s.element t a k) else none) =
      (z, (s.entered i {} .vector).accrued fl free)) :
    ∃ u, issue s i true .vector {} (fun e s => reduction d a m e s combine) = .next u ∧ u.element t d 0 = z % 2 ^ t.sew ∧
      u.hart.vc.vxflags = s.hart.vc.vxflags ||| fl ∧ u.free = free := by
  obtain ⟨hty, hvlen, hevl, -⟩ := entered_facts s i {} .vector t h
  have start : (s.entered i {} .vector).elemOf (s.hart.entry i {} .vector) t d 0 = s.element t d 0 := by
    rw [State.elemOf, hvlen]; rfl
  have elems : activeElems (s.entered i {} .vector) (s.hart.entry i {} .vector) t a m =
      (List.range s.hart.vc.vl).map fun k => if s.hart.vec.active m k then some (s.element t a k) else none := by
    rw [activeElems, hevl]
    simp only [State.elemOf, hvlen]
    rfl
  have act := reduction_performed _ _ t d a m combine z fl free hty (by rw [hevl]; exact hvl)
    (show (s.entered i {} .vector).hart.unbound = true from h.1.2.1) h.1.2.2 (by rw [start, elems, hc])
  obtain ⟨u, hu, hd, -, -, hh⟩ := issue_data s i t {} (fun e s => reduction d a m e s combine) _ h act rfl
    ⟨rfl, rfl, rfl, rfl⟩ ⟨rfl, rfl⟩
  refine ⟨u, hu, ?_, hh.flags, hh.free⟩
  obtain ⟨-, hf, -, ht⟩ := h
  have inFile := element_inFile s t d 0 1 (by simp [groupOk]; omega) (by rw [one_mul]; exact zero_lt_perRegister s t hf ht hvl)
  rw [hh.element hd, hvlen]
  exact VecFile.elem_setElem_same _ _ _ _ _ _ inFile.1

/-- The element of a source that a reduction or scan combines at `k`, where it is active below vl. -/
def State.slot (s : State) (t : VType) (a : VName) (m : Option MName) (k : Nat) : Option Nat :=
  if decide (k < s.hart.vc.vl) && s.hart.vec.active m k then some (s.element t a k) else none

/-- Below vl a slot is present where its element is active. -/
theorem State.slot_of_lt (s : State) (t : VType) (a : VName) (m : Option MName) (k : Nat) (h : k < s.hart.vc.vl) :
    s.slot t a m k = if s.hart.vec.active m k then some (s.element t a k) else none := by simp [State.slot, h]

/-- From vl on no slot is present. -/
theorem State.slot_of_ge (s : State) (t : VType) (a : VName) (m : Option MName) (k : Nat) (h : s.hart.vc.vl ≤ k) :
    s.slot t a m k = none := by simp [State.slot, Nat.not_lt.mpr h]

/-- The slots are elements, which fit their format. -/
theorem State.slot_fits (s : State) (t : VType) (a : VName) (m : Option MName) : SlotFits t.fmt (s.slot t a m) := by
  intro k x h
  unfold State.slot at h
  split at h
  · cases h
    exact elem_intFits s t a k
  · cases h

/-- The active elements below vl, as a reduction lists them, are the slots. -/
theorem State.map_slot (s : State) (t : VType) (a : VName) (m : Option MName) :
    ((List.range s.hart.vc.vl).map fun k => if s.hart.vec.active m k then some (s.element t a k) else none) =
      (List.range s.hart.vc.vl).map (s.slot t a m) :=
  List.map_congr_left fun k hk => (s.slot_of_lt t a m k (List.mem_range.mp hk)).symm

/-- The operands of a reduction are legal. -/
theorem reductionOk_of_ready (s : State) (t : VType) (d a : VName) (op : RedOp) (h : Ready s t) (ha : t.groupAt a = true)
    (hop : redAccepts op t.fmt = true) (hda : groupsMeet 1 d.val t.mul a.val = false) : reductionOk s d a op = true := by
  simp [reductionOk, legalUnder, h.2.2.2, ha, hop, hda]

/-- Entering an instruction leaves the rounding mode. -/
theorem State.opAt_entered (s : State) (i : Instr) (c : Cap) (q : QClass) : (s.entered i c q).opAt = s.opAt := by
  have mode : (s.entered i c q).hart.vc.vrm = s.hart.vc.vrm := by cases q <;> rfl
  funext f op draw
  rw [State.opAt, State.opAt, mode]

/-- VREDO leaves the combination in element order. -/
theorem vredo_spec (s : State) (t : VType) (d a : VName) (op : RedOp) (m : Option MName) (h : Ready s t) (ha : t.groupAt a = true)
    (hop : redAccepts op t.fmt = true) (hvl : s.hart.vc.vl ≠ 0) (hda : groupsMeet 1 d.val t.mul a.val = false) :
    ∃ (u : State) (draw : Nat → BitVec 16), exec (.vredo d a op m) s = .next u ∧
      let r := orderedValue (fun k => s.opAt t.fmt op (draw k)) (s.slot t a m) (s.element t d 0) s.hart.vc.vl
      u.element t d 0 = r.1 % 2 ^ t.sew ∧ u.hart.vc.vxflags = s.hart.vc.vxflags ||| r.2 ∧ (t.fmt.isInt = true → u.free = s.free) := by
  obtain ⟨free, hc, -, hfree⟩ := orderedOf_eq_orderedValue t.fmt op (s.entered (.vredo d a op m) {} .vector) (s.element t d 0)
    (s.slot t a m) (elem_intFits s t d 0) (s.slot_fits t a m) s.hart.vc.vl
  obtain ⟨u, hu, hz, hfl, hu'⟩ := issue_reduction s (.vredo d a op m) t d a m (fun t s => orderedOf t.fmt op s) _ _ _ h hvl
    (by rw [State.map_slot]; exact hc)
  refine ⟨u, _, ?_, hz, hfl, fun hi => hu'.trans (hfree hi)⟩
  show issue s _ (reductionOk s d a op) .vector {} (doVredo d a op m) = _
  rw [reductionOk_of_ready s t d a op h ha hop hda]
  exact hu

/-- vl is at most the 2^18 slots of the tree: LMUL is at most SEW. -/
theorem vl_le_two_pow (s : State) (t : VType) (h : s.hart.fits = true) (ht : s.hart.vc.vtype = some t) : s.hart.vc.vl ≤ 2 ^ 18 := by
  simp only [Hart.fits, ht, Bool.and_eq_true, decide_eq_true_eq, VType.legal] at h
  obtain ⟨⟨hmul, -⟩, hvl⟩ := h
  calc s.hart.vc.vl ≤ t.mul * s.hart.vlen / t.sew := hvl
    _ ≤ t.sew * s.hart.vlen / t.sew := Nat.div_le_div_right (Nat.mul_le_mul_right _ hmul)
    _ = s.hart.vlen := Nat.mul_div_cancel_left _ t.sew_pos
    _ ≤ maxVlen := Hart.vlen_le s.hart
    _ = 2 ^ 18 := by decide

/-- The leaves of the tree of a reduction. -/
def leafOf (slot : Nat → Option Nat) (k : Nat) : Node := (slot k).map (·, 0)

/-- The leaves of the tree over `n` slots. -/
def leavesOf (slot : Nat → Option Nat) (n : Nat) : List Node := (List.range n).map (leafOf slot)

/-- The values of the leaves are the slots. -/
theorem nodeValues_leavesOf (slot : Nat → Option Nat) (n : Nat) : nodeValues (leavesOf slot n) = (List.range n).map slot := by
  rw [nodeValues, leavesOf, List.map_map]
  refine List.map_congr_left fun k _ => ?_
  show Option.map _ (Option.map _ (slot k)) = slot k
  cases slot k <;> rfl

/-- The leaves have raised no flag. -/
theorem nodeFlags_leavesOf (slot : Nat → Option Nat) (n : Nat) : nodeFlags (leavesOf slot n) = 0 := by
  rw [nodeFlags, leavesOf]
  induction List.range n with
  | nil => rfl
  | cons k ks ih =>
    rw [List.map_cons, List.foldr_cons, ih, leafOf]
    cases slot k <;> simp [Node.flags]

/-- A leaf of the tree is its slot, where no slot lies beyond those listed. -/
theorem nodeAt_leavesOf (slot : Nat → Option Nat) (n : Nat) (h : ∀ k, n ≤ k → slot k = none) :
    nodeAt (leavesOf slot n) = leafOf slot := by
  funext q
  rw [nodeAt, leavesOf, List.getElem?_map]
  by_cases hq : q < n
  · rw [List.getElem?_range hq]; rfl
  · rw [List.getElem?_eq_none (by simpa using hq), leafOf, h q (by omega)]; rfl

/-- The leaves fit as their slots do. -/
theorem leavesOf_fits (f : Fmt) (slot : Nat → Option Nat) (h : SlotFits f slot) (n : Nat) : ∀ y ∈ leavesOf slot n, NodeFits f y := by
  intro y hy
  obtain ⟨k, -, rfl⟩ := List.mem_map.mp hy
  unfold leafOf
  cases hk : slot k with
  | none => exact fun _ => Nat.two_pow_pos _
  | some x => exact h k x hk

/-- Over at most 2^L slots, one level above the L that they need changes nothing. -/
theorem nodeValue_top (op : Nat → Nat → Nat → Nat → Nat × Flags) (slot : Nat → Option Nat) (levels : Nat)
    (hout : ∀ k, 2 ^ levels ≤ k → slot k = none) :
    nodeValue op (leafOf slot) (levels + 1) 0 = treeValue (fun j i => op j (i / 2 ^ (j + 1))) slot levels 0 := by
  have upper : nodeValue op (leafOf slot) levels (2 * 0 + 1) = none :=
    nodeValue_absent _ _ _ _ fun i hi => by rw [leafOf, hout i (by omega)]; rfl
  have lower := treeValue_eq_nodeValue op slot levels 0
  rw [Nat.zero_mul] at lower
  rw [nodeValue, upper, joinNodes_none, lower]
  rfl

/-- The model's tree, of one level more than the spec's needs, is the tree of the spec: its values and flags, with a draw for each node. -/
theorem treeOf_eq_treeValue (f : Fmt) (op : RedOp) (s : State) (slot : Nat → Option Nat) (levels n : Nat) (hslot : SlotFits f slot)
    (hn : n ≤ 2 ^ levels) (hout : ∀ k, n ≤ k → slot k = none) :
    ∃ (draw : Nat → Nat → BitVec 16) (free : Nat) (root : Node),
      root = treeValue (fun j i => s.opAt f op (draw j i)) slot levels 0 ∧
      treeOf f op (levels + 1) s ((List.range n).map slot) = (root.map (·.1), s.accrued root.flags free) ∧ NodeFits f root ∧
      (f.isInt = true → free = s.free) := by
  obtain ⟨draw, free, h, hfit, hfree⟩ := treeOf_eq_nodeValue f op s (levels + 1) (leavesOf slot n) s.free
    (leavesOf_fits f slot hslot n) (by simp only [leavesOf, List.length_map, List.length_range, Nat.pow_succ]; omega)
  have root := nodeValue_top (fun j q => s.opAt f op (draw j q)) slot levels fun k hk => hout k (hn.trans hk)
  rw [nodeFlags_leavesOf, State.accrued_zero, nodeValues_leavesOf, nodeAt_leavesOf slot n hout, root] at h
  rw [nodeAt_leavesOf slot n hout, root] at hfit
  exact ⟨fun j i => draw j (i / 2 ^ (j + 1)), free, _, rfl, h, hfit, hfree⟩

/-- The start value combined with the root of the tree (R40). -/
def lastStep (op : Nat → Nat → Nat × Flags) (start : Nat) : Node → Nat × Flags
  | none => (start, 0)
  | some c => ((op start c.1).1, c.2 ||| (op start c.1).2)

/-- The combination over the tree, to which the start value is added last (R40). -/
def treeReduction (f : Fmt) (op : RedOp) (s : State) (start : Nat) (xs : List (Option Nat)) : Nat × State :=
  match treeOf f op 19 s xs with
  | (none, s) => (start, s)
  | (some x, s) => redOp f op s start x

/-- VREDT is the reduction by `treeReduction`. -/
theorem doVredt_eq (d a : VName) (op : RedOp) (m : Option MName) :
    doVredt d a op m = fun e s => reduction d a m e s fun t => treeReduction t.fmt op := by
  funext e s
  unfold doVredt
  refine congrArg (reduction d a m e s) (funext fun t => funext fun s => funext fun start => funext fun xs => ?_)
  unfold treeReduction
  generalize treeOf t.fmt op 19 s xs = r
  obtain ⟨- | x, s'⟩ := r <;> rfl

/-- Over the root of the tree, the start value is combined with it. -/
theorem treeReduction_eq (f : Fmt) (op : RedOp) (s : State) (start : Nat) (xs : List (Option Nat)) (root : Node) (n : Nat)
    (h : treeOf f op 19 s xs = (root.map (·.1), s.accrued root.flags n)) (hstart : IntFits f start) (hroot : NodeFits f root) :
    ∃ (last : BitVec 16) (free : Nat),
      treeReduction f op s start xs =
        ((lastStep (s.opAt f op last) start root).1, s.accrued (lastStep (s.opAt f op last) start root).2 free) ∧
      (f.isInt = true → free = n) := by
  rw [treeReduction, h]
  cases root with
  | none => exact ⟨0, n, rfl, fun _ => rfl⟩
  | some c =>
    obtain ⟨free, hr, hfree⟩ := redOp_accrued f op s c.2 n _ c.1 hstart hroot
    exact ⟨Config.srDraw n, free, hr, hfree⟩

/-- VREDT leaves the start value combined with the root of the tree. -/
theorem vredt_spec (s : State) (t : VType) (d a : VName) (op : RedOp) (m : Option MName) (h : Ready s t) (ha : t.groupAt a = true)
    (hop : redAccepts op t.fmt = true) (hvl : s.hart.vc.vl ≠ 0) (hda : groupsMeet 1 d.val t.mul a.val = false) :
    ∃ (u : State) (draw : Nat → Nat → BitVec 16) (last : BitVec 16) (root : Node), exec (.vredt d a op m) s = .next u ∧
      root = treeValue (fun j i => s.opAt t.fmt op (draw j i)) (s.slot t a m) 18 0 ∧
      let r := lastStep (s.opAt t.fmt op last) (s.element t d 0) root
      u.element t d 0 = r.1 % 2 ^ t.sew ∧ u.hart.vc.vxflags = s.hart.vc.vxflags ||| r.2 ∧ (t.fmt.isInt = true → u.free = s.free) := by
  obtain ⟨draw, n, root, hval, hroot, hfit, hn⟩ := treeOf_eq_treeValue t.fmt op (s.entered (.vredt d a op m) {} .vector) (s.slot t a m)
    18 s.hart.vc.vl (s.slot_fits t a m) (vl_le_two_pow s t h.2.1 h.2.2.2) (s.slot_of_ge t a m)
  rw [State.opAt_entered] at hval
  obtain ⟨last, free, hlast, hfree⟩ := treeReduction_eq t.fmt op _ (s.element t d 0) _ _ n hroot (elem_intFits s t d 0) hfit
  rw [State.opAt_entered] at hlast
  obtain ⟨u, hu, hz, hfl, hu'⟩ := issue_reduction s (.vredt d a op m) t d a m (fun t => treeReduction t.fmt op) _ _ free h hvl
    (by rw [State.map_slot]; exact hlast)
  refine ⟨u, draw, last, root, ?_, hval, hz, hfl, fun hi => hu'.trans ((hfree hi).trans (hn hi))⟩
  show issue s _ (reductionOk s d a op) .vector {} (doVredt d a op m) = _
  rw [reductionOk_of_ready s t d a op h ha hop hda, doVredt_eq]
  exact hu

end Sys2Proof.Machine
end

section
/-!
Scans as they are issued: what VSCAN leaves on a ready hart.
-/

namespace Sys2Proof.Machine

/-- An integer format has no ignored bits. -/
theorem packed_of_isInt (f : Fmt) (h : f.isInt = true) : f.packed = f.slot := by
  revert h
  cases f <;> decide

/-- An element copied: both forms of it have the ignored bits zero. -/
theorem clean_eq_raw (t : VType) (x : Nat) (h : (t.fmt.isFA || t.fmt.isInt) = true) (hx : x < 2 ^ t.fmt.slot) :
    t.fmt.clean x = t.raw x := by
  unfold VType.raw Fmt.clean
  generalize t.fmt = f at *
  cases f <;> simp_all [Fmt.isFA, Fmt.isInt, Fmt.isFS, Fmt.packed, Fmt.slot, Fmt.layout]
  all_goals omega

/-- Every operation is one of floating arithmetic or integer formats. -/
theorem redAccepts_class (op : RedOp) (f : Fmt) (h : redAccepts op f = true) : (f.isFA || f.isInt) = true := by
  cases op <;> simp_all [redAccepts]

/-- The first value of a scan (R160). -/
def scanStart (t : VType) (x : Nat) : Nat × Flags :=
  if t.fmt.isFA && (t.fmt.layout.decode x).isSignalling then (t.fmt.layout.canonicalNaN, flagNV) else (t.raw x, 0)

/-- The model's First is that of the spec, with its flags accrued. -/
theorem scanFirst_accrued (t : VType) (s : State) (fl : Flags) (n x : Nat) (h : (t.fmt.isFA || t.fmt.isInt) = true)
    (hx : x < 2 ^ t.fmt.slot) :
    scanFirst t.fmt (s.accrued fl n) x = ((scanStart t x).1, s.accrued (fl ||| (scanStart t x).2) n) := by
  unfold scanFirst scanStart
  split
  · exact Prod.ext rfl (State.accrued_accrued s fl flagNV n n)
  · simp [clean_eq_raw t x h hx]

/-- In an integer format First is the element. -/
theorem scanStart_int (t : VType) (hi : t.fmt.isInt = true) (x : Nat) : scanStart t x = (x % 2 ^ t.sew, 0) := by
  have hfa : t.fmt.isFA = false := by revert hi; cases t.fmt <;> decide
  have he : t.fmt ≠ .e8m10 := by rintro he; rw [he] at hi; cases hi
  simp only [scanStart, hfa, Bool.false_and, Bool.false_eq_true, if_false, VType.raw, he, packed_of_isInt t.fmt hi, VType.sew]

/-- First fits its format. -/
theorem scanStart_fits (t : VType) (x : Nat) : IntFits t.fmt (scanStart t x).1 := by
  intro hi
  rw [scanStart_int t hi]
  exact Nat.mod_lt _ (Nat.two_pow_pos _)

/-- The combination of a scan with a further element (R160). -/
def scanNew (t : VType) (op : RedOp) (c : Option Nat) (s : State) (x : Nat) : Nat × State :=
  match c with
  | some acc => redOp t.fmt op s acc x
  | none => scanFirst t.fmt s x

/-- One element of VSCAN: what has been combined, and the state, after it. -/
def scanStep (e : QEntry) (t : VType) (d a : VName) (op : RedOp) (ex : Bool) (m : Option MName) (c : Option Nat × State) (k : Nat) :
    Option Nat × State :=
  if c.2.hart.vec.active m k then
    let new := scanNew t op c.1 c.2 (c.2.elemOf e t a k)
    (some new.1, new.2.putElem e t d k (if ex then c.1.getD (scanIdentity t.fmt op) else new.1))
  else (c.1, c.2.inactive e t d k)

/-- An active element is combined, and written. -/
theorem scanStep_active (e : QEntry) (t : VType) (d a : VName) (op : RedOp) (ex : Bool) (m : Option MName) (c : Option Nat)
    (s : State) (k : Nat) (h : s.hart.vec.active m k = true) :
    scanStep e t d a op ex m (c, s) k =
      let new := scanNew t op c s (s.elemOf e t a k)
      (some new.1, new.2.putElem e t d k (if ex then c.getD (scanIdentity t.fmt op) else new.1)) := by
  rw [scanStep, if_pos h]

/-- An inactive element follows MP. -/
theorem scanStep_inactive (e : QEntry) (t : VType) (d a : VName) (op : RedOp) (ex : Bool) (m : Option MName) (c : Option Nat)
    (s : State) (k : Nat) (h : ¬ s.hart.vec.active m k = true) :
    scanStep e t d a op ex m (c, s) k = (c, s.inactive e t d k) := by
  rw [scanStep, if_neg h]

/-- VSCAN performs `scanStep` at each element below vl. -/
theorem doVscan_eq (d a : VName) (op : RedOp) (ex : Bool) (m : Option MName) :
    doVscan d a op ex m = fun e s => popping e s [a] .whole fun e s => wholeVector e s fun t =>
      .ok (((List.range e.vl).foldl (scanStep e t d a op ex m) (none, s)).2.finishDest e t d fun k => t.mp || s.hart.vec.active m k) := by
  funext e s
  rfl

/-- The draw that the step at element `k` of a scan takes. -/
def scanDraw (s : State) (e : QEntry) (t : VType) (d a : VName) (op : RedOp) (ex : Bool) (m : Option MName) (k : Nat) : BitVec 16 :=
  Config.srDraw ((List.range k).foldl (scanStep e t d a op ex m) (none, s)).2.free

/-- What a scan has combined of the elements below `n`. -/
def State.scanned (s : State) (t : VType) (a : VName) (op : RedOp) (m : Option MName) (draw : Nat → BitVec 16) (n : Nat) : Node :=
  scanValue (scanStart t) (fun k => s.opAt t.fmt op (draw k)) (s.slot t a m) n

/-- The value that VSCAN writes at element `k`. -/
def State.scanElement (s : State) (t : VType) (a : VName) (op : RedOp) (ex : Bool) (m : Option MName)
    (draw : Nat → BitVec 16) (k : Nat) : Nat :=
  if ex then ((s.scanned t a op m draw k).map (·.1)).getD (scanIdentity t.fmt op)
  else ((s.scanned t a op m draw (k + 1)).map (·.1)).getD 0

/-- Writes of registers leave the rounding mode. -/
theorem State.opAt_setVec (s : State) (g : VecFile) : (s.setVec g).opAt = s.opAt := rfl

/-- The model's combination with element `k` is that of the spec. -/
theorem scanNew_eq (s : State) (t : VType) (a : VName) (op : RedOp) (m : Option MName) (draw : Nat → BitVec 16) (k n : Nat)
    (g : VecFile) (x : Nat) (hop : redAccepts op t.fmt = true) (hx : s.slot t a m k = some x) (hfx : x < 2 ^ t.fmt.slot)
    (hfit : NodeFits t.fmt (s.scanned t a op m draw k)) (hdraw : draw k = Config.srDraw n) :
    ∃ new n', scanNew t op ((s.scanned t a op m draw k).map (·.1)) ((s.setVec g).accrued (s.scanned t a op m draw k).flags n) x =
        (new.1, (s.setVec g).accrued new.2 n') ∧ s.scanned t a op m draw (k + 1) = some new ∧ NodeFits t.fmt (some new) ∧
        (t.fmt.isInt = true → n' = n) := by
  have hnext : s.scanned t a op m draw (k + 1) = some (match s.scanned t a op m draw k with
      | none => scanStart t x
      | some c => opOnto (s.opAt t.fmt op (draw k)) c x) := by
    rw [State.scanned, scanValue, hx]
    show (match some x, s.scanned t a op m draw k with | none, c => c | some x, none => _ | some x, some c => _) = _
    cases s.scanned t a op m draw k <;> rfl
  rw [hnext]
  generalize s.scanned t a op m draw k = c at hfit ⊢
  cases c with
  | none =>
    refine ⟨_, n, ?_, rfl, scanStart_fits t x, fun _ => rfl⟩
    have := scanFirst_accrued t (s.setVec g) 0 n x (redAccepts_class op _ hop) hfx
    simpa [Node.flags, scanNew] using this
  | some c =>
    obtain ⟨n', hr, hn⟩ := redOp_accrued t.fmt op (s.setVec g) c.2 n c.1 x hfit fun _ => hfx
    rw [State.opAt_setVec, ← hdraw] at hr
    exact ⟨_, n', hr, rfl, opValue_fits _ _ _ _ _ _ hfit fun _ => hfx, hn⟩

/-- MP takes no account of flags and draws. -/
theorem State.inactive_accrued (s : State) (fl : Flags) (n : Nat) (e : QEntry) (t : VType) (d : VName) (k : Nat) :
    (s.accrued fl n).inactive e t d k = (s.inactive e t d k).accrued fl n := by
  unfold State.inactive
  split <;> rfl

/-- The end of a destination takes no account of flags and draws. -/
theorem State.finishDest_accrued (s : State) (fl : Flags) (n : Nat) (e : QEntry) (t : VType) (d : VName) (wrote : Nat → Bool) :
    (s.accrued fl n).finishDest e t d wrote = (s.finishDest e t d wrote).accrued fl n := by
  unfold State.finishDest State.finishFrom State.tail
  split <;> rfl

/-- What a scan carries once it has performed its elements below `n`: what it has combined, with the flags and draws of that in the state,
and the elements of its destination. -/
def ScanDone (s : State) (e : QEntry) (t : VType) (d a : VName) (op : RedOp) (ex : Bool) (m : Option MName) (draw : Nat → BitVec 16)
    (n : Nat) (c : Option Nat × State) : Prop :=
  ∃ (g : VecFile) (free : Nat),
    c = ((s.scanned t a op m draw n).map (·.1), (s.setVec g).accrued (s.scanned t a op m draw n).flags free) ∧
    Done s e t d m 0 n (fun _ => s.scanElement t a op ex m draw) g ∧ NodeFits t.fmt (s.scanned t a op m draw n) ∧
    (t.fmt.isInt = true → free = s.free)

/-- One more element of a scan performed. -/
theorem ScanDone.step {s : State} {e : QEntry} {t : VType} {d a : VName} {op : RedOp} {ex : Bool} {m : Option MName}
    {draw : Nat → BitVec 16} {n : Nat} {c : Option Nat × State} (h : ScanDone s e t d a op ex m draw n c)
    (hvlen : e.vlen = s.hart.vlen) (hvl : e.vl = s.hart.vc.vl) (hmax : e.vl ≤ e.vlmax t) (hd : t.groupAt d = true)
    (ha : t.groupAt a = true) (hop : redAccepts op t.fmt = true) (hda : t.meet d a = false) (hn : n < e.vl)
    (hdraw : draw n = Config.srDraw c.2.free) : ScanDone s e t d a op ex m draw (n + 1) (scanStep e t d a op ex m c n) := by
  obtain ⟨g, free, rfl, hdone, hfit, hfree⟩ := h
  have source : ((s.setVec g).accrued (s.scanned t a op m draw n).flags free).elemOf e t a n = s.element t a n := by
    have hin := (element_inFile s t a n t.mul ha (by unfold QEntry.vlmax at hmax; rw [hvlen] at hmax; omega)).2
    have ha' := ha
    simp only [VType.groupAt, groupOk, decide_eq_true_eq] at ha'
    rw [State.elemOf, hvlen]
    exact elem_apart _ _ _ t.mul t.mul _ _ d a hda hin ha'.2 hdone.outside
  have active : (s.setVec g).hart.vec.active m n = s.hart.vec.active m n := by
    show g.active m n = _
    rw [hdone.rest]
    cases m <;> rfl
  obtain ⟨g', hput, hdone'⟩ := hdone.step hvlen hd hmax (fun _ _ _ _ _ _ => rfl) (Nat.zero_le n) hn
  by_cases hact : s.hart.vec.active m n = true
  · obtain ⟨new, n', hnew, hnext, hfit', hn'⟩ := scanNew_eq s t a op m draw n free g (s.element t a n) hop
      (by rw [s.slot_of_lt t a m n (by omega), if_pos hact]) (VecFile.elem_lt ..) hfit hdraw
    refine ⟨g', n', ?_, hdone', hnext ▸ hfit', fun hi => (hn' hi).trans (hfree hi)⟩
    rw [if_pos (active.trans hact)] at hput
    have value : (if ex then ((s.scanned t a op m draw n).map (·.1)).getD (scanIdentity t.fmt op) else new.1) =
        s.scanElement t a op ex m draw n := by rw [State.scanElement, hnext]; rfl
    rw [scanStep_active (s := (s.setVec g).accrued _ free) (h := active.trans hact), source, hnew, hnext]
    dsimp only
    rw [value]
    exact Prod.ext rfl (congrArg (State.accrued · new.2 n') hput)
  · have hnext : s.scanned t a op m draw (n + 1) = s.scanned t a op m draw n := by
      rw [State.scanned, scanValue, s.slot_of_lt t a m n (by omega), if_neg hact]
      rfl
    refine ⟨g', free, ?_, hdone', hnext ▸ hfit, hfree⟩
    rw [if_neg (active ▸ hact)] at hput
    rw [scanStep_inactive (s := (s.setVec g).accrued _ free) (h := active ▸ hact), hnext, State.inactive_accrued, hput]

/-- The elements of a scan below `n` performed. -/
theorem scanStep_foldl (s : State) (e : QEntry) (t : VType) (d a : VName) (op : RedOp) (ex : Bool) (m : Option MName)
    (hvlen : e.vlen = s.hart.vlen) (hvl : e.vl = s.hart.vc.vl) (hmax : e.vl ≤ e.vlmax t) (hd : t.groupAt d = true)
    (ha : t.groupAt a = true) (hop : redAccepts op t.fmt = true) (hda : t.meet d a = false) (n : Nat) (hn : n ≤ e.vl) :
    ScanDone s e t d a op ex m (scanDraw s e t d a op ex m) n ((List.range n).foldl (scanStep e t d a op ex m) (none, s)) := by
  induction n with
  | zero =>
    exact ⟨s.hart.vec, s.free, Prod.ext rfl (State.accrued_zero s).symm,
      ⟨rfl, fun _ _ => rfl, fun j _ => by rw [if_neg (by omega)]⟩, fun _ => Nat.two_pow_pos _, fun _ => rfl⟩
  | succ n ih =>
    rw [List.range_succ, List.foldl_append]
    exact (ih (by omega)).step hvlen hvl hmax hd ha hop hda hn rfl

/-- VSCAN performed: the registers, the flags and the draws that it leaves. -/
theorem doVscan_performed (e : QEntry) (s : State) (t : VType) (d a : VName) (op : RedOp) (ex : Bool) (m : Option MName)
    (ht : e.vtype = some t) (hvlen : e.vlen = s.hart.vlen) (hvl : e.vl = s.hart.vc.vl) (hvl0 : e.vl ≠ 0) (hmax : e.vl ≤ e.vlmax t)
    (hu : s.hart.unbound = true) (hcl : s.hart.vec.clean = true) (hd : t.groupAt d = true)
    (ha : t.groupAt a = true) (hop : redAccepts op t.fmt = true) (hda : t.meet d a = false) :
    ∃ (draw : Nat → BitVec 16) (f : VecFile) (free : Nat),
      doVscan d a op ex m e s = .ok ((s.setVec f).accrued (s.scanned t a op m draw s.hart.vc.vl).flags free) ∧
      SameOutside s.hart.vec f (groupSet t.mul d.val) 0#8 0#16 0#32 ∧
      (∀ r : Fin 32, (groupSet t.mul d.val).getLsbD r.val = true → f.tag[r] = none) ∧
      (∀ k, k < s.maxElems t → f.elem s.hart.vlen d.val t.sew k =
        if s.hart.vc.vl ≤ k then s.kept t t.tp d k
        else if s.hart.vec.active m k then s.scanElement t a op ex m draw k % 2 ^ t.sew
        else s.kept t t.mp d k) ∧
      (t.fmt.isInt = true → free = s.free) := by
  obtain ⟨g, free, hfold, hdone, -, hfree⟩ := scanStep_foldl s e t d a op ex m hvlen hvl hmax hd ha hop hda e.vl (Nat.le_refl _)
  generalize scanDraw s e t d a op ex m = draw at hfold hdone
  obtain ⟨f, hf, hm, hk, hb, hout, htag, huntag, helem⟩ :=
    finishFrom_spec (s.setVec g) e t d e.vl (fun k => t.mp || s.hart.vec.active m k) hu hvlen hd
  refine ⟨draw, f, free, ?_, ⟨fun r hr => (hout r hr).trans (hdone.outside r hr), fun r _ => ?_, fun r _ => ?_, ?_, fun r _ => ?_⟩,
    huntag, fun k hk => ?_, hfree⟩
  · rw [doVscan_eq]
    dsimp only
    rw [popping_unbound _ _ _ _ _ t ht hu hcl, wholeVector, if_neg hvl0, QEntry.typed, ht]
    dsimp only
    rw [hfold, ← hvl]
    dsimp only
    rw [State.finishDest_accrued, State.finishDest, hf]
    rfl
  · rw [hm, State.setVec, hdone.rest]
  · rw [hk, State.setVec, hdone.rest]
  · rw [hb, State.setVec, hdone.rest]
  · have := htag r
    rw [State.setVec, hdone.rest] at this
    exact this
  · have hk' : k < e.vlmax t := by rw [QEntry.vlmax, hvlen]; exact hk
    have hg := hdone.elems k hk'
    rw [← hvlen, helem k hk', ← hvl, State.kept, State.kept, State.element, ← hvlen]
    show (if _ then 0 else g.elem _ _ _ _) = _
    rw [hg]
    by_cases h1 : e.vl ≤ k
    · rw [if_pos h1, if_neg (by omega : ¬ (0 ≤ k ∧ k < e.vl))]
      simp only [h1, true_and]
    · rw [if_neg h1, if_neg (fun h => h1 h.1), if_pos ⟨Nat.zero_le k, Nat.not_le.mp h1⟩]

/-- Entering an instruction leaves the slots. -/
theorem State.slot_entered (s : State) (i : Instr) (c : Cap) (t : VType) (a : VName) (m : Option MName) :
    (s.entered i c .vector).slot t a m = s.slot t a m := rfl

/-- Entering an instruction leaves what a scan combines. -/
theorem State.scanned_entered (s : State) (i : Instr) (c : Cap) (t : VType) (a : VName) (op : RedOp) (m : Option MName)
    (draw : Nat → BitVec 16) : (s.entered i c .vector).scanned t a op m draw = s.scanned t a op m draw := by
  funext n
  rw [State.scanned, State.opAt_entered, State.slot_entered]
  rfl

/-- Entering an instruction leaves the values of a scan. -/
theorem State.scanElement_entered (s : State) (i : Instr) (c : Cap) (t : VType) (a : VName) (op : RedOp) (ex : Bool) (m : Option MName)
    (draw : Nat → BitVec 16) : (s.entered i c .vector).scanElement t a op ex m draw = s.scanElement t a op ex m draw := by
  funext n
  rw [State.scanElement, State.scanned_entered]
  rfl

/-- VSCAN issued on a ready hart leaves its combinations in the active elements, with the flags of its steps. -/
theorem vscan_spec (s : State) (t : VType) (d a : VName) (op : RedOp) (ex : Bool) (m : Option MName) (h : Ready s t)
    (hd : t.groupAt d = true) (ha : t.groupAt a = true) (hop : redAccepts op t.fmt = true) (hvl : s.hart.vc.vl ≠ 0)
    (hda : t.meet d a = false) :
    ∃ (u : State) (draw : Nat → BitVec 16), exec (.vscan d a op ex m) s = .next u ∧
      WritesRegsAndFlags s s.done u (groupSet t.mul d.val) 0#8 0#16 0#32 ∧ Untagged u (groupSet t.mul d.val) ∧
      ElementsWritten s u t d m 0 (s.scanElement t a op ex m draw) ∧
      u.hart.vc.vxflags = s.hart.vc.vxflags ||| (s.scanned t a op m draw s.hart.vc.vl).flags ∧
      (t.fmt.isInt = true → u.free = s.free) := by
  obtain ⟨hty, hvlen, hevl, hmax⟩ := entered_facts s (.vscan d a op ex m) {} .vector t h
  obtain ⟨draw, f, free, hact, hout, huntag, helem, hfree⟩ :=
    doVscan_performed _ (s.entered (.vscan d a op ex m) {} .vector) t d a op ex m hty hvlen hevl
      (by rw [hevl]; exact hvl) hmax h.1.2.1 h.1.2.2 hd ha hop hda
  rw [State.scanned_entered] at hact
  rw [State.scanElement_entered] at helem
  obtain ⟨u, hu, hdata, hmem, htab, hh⟩ := issue_data s (.vscan d a op ex m) t {} (doVscan d a op ex m) _ h hact rfl
    ⟨rfl, rfl, rfl, rfl⟩ ⟨rfl, rfl⟩
  obtain ⟨p, hp⟩ := hh.vec
  refine ⟨u, draw, ?_, ⟨hdata, hmem, ?_, htab, ?_⟩, fun r hr => ?_, fun k hk => ?_, hh.flags, fun hi => hh.free.trans (hfree hi)⟩
  · show issue s _ (legalUnder s fun t => t.groupAt d && t.groupAt a && !t.meet d a && redAccepts op t.fmt) .vector {} _ = _
    rw [show (legalUnder s fun t => t.groupAt d && t.groupAt a && !t.meet d a && redAccepts op t.fmt) = true by
      simp [legalUnder, h.2.2.2, hd, ha, hop, hda]]
    exact hu
  · rw [hh.flags]
    show s.hart.vc.vxflags ||| (s.hart.vc.vxflags ||| _) = s.hart.vc.vxflags ||| _
    rw [← BitVec.or_assoc, BitVec.or_self]
  · rw [hp]; exact hout
  · rw [hp]; exact huntag r hr
  · rw [hh.element hdata, if_neg (Nat.not_lt_zero k)]
    exact helem k hk

end Sys2Proof.Machine
end

section
/-!
The obligations on reductions and scans: their values in every format, and integer sums.
-/

namespace Sys2Proof.Machine

/-- Settles O60: the issued reductions and scans leave the spec's combinations. -/
theorem reductionValues : Obligations.ReductionValues := by
  intro s t d a op ex m h ha hop hvl slot start step result
  refine ⟨fun hda => ⟨?_, ?_⟩, fun hd hda => ?_⟩
  · obtain ⟨u, draw, hu, hz, hfl, -⟩ := vredo_spec s t d a op m h ha hop hvl hda
    exact ⟨u, draw, hu, hz, hfl⟩
  · obtain ⟨u, draw, last, root, hu, hroot, hz, hfl, -⟩ := vredt_spec s t d a op m h ha hop hvl hda
    refine ⟨u, draw, last, hu, ?_⟩
    change root = treeValue (fun j i => step (draw j i)) slot 18 0 at hroot
    rw [← hroot]
    cases root <;> exact ⟨hz, hfl⟩
  · obtain ⟨u, draw, hu, -, -, helem, hfl, -⟩ := vscan_spec s t d a op ex m h hd ha hop hvl hda
    refine ⟨u, draw, hu, fun k hk hact => ?_, hfl⟩
    obtain ⟨-, hf, -, ht⟩ := h
    simp only [Hart.fits, ht, Bool.and_eq_true, decide_eq_true_eq] at hf
    rw [helem k (hk.trans_le hf.2), if_neg (Nat.not_le.mpr hk), if_neg (Nat.not_lt_zero k), if_pos hact]
    rfl

/-! ## Integer sums -/

/-- An operation that adds modulo `n` and raises no flag. -/
def AddsMod (n : Nat) (op : Nat → Nat → Nat × Flags) : Prop := ∀ x y, (op x y).1 ≡ x + y [MOD n] ∧ (op x y).2 = 0

/-- A node that is a sum modulo `n` without flags, where an absent one is 0. -/
def SumsMod (n total : Nat) (c : Node) : Prop := (c.map (·.1)).getD 0 ≡ total [MOD n] ∧ c.flags = 0

/-- The integer SUM adds modulo 2^slot. -/
theorem opValue_sum_addsMod (f : Fmt) (mode : Rounding) (draw : BitVec 16) (hi : f.isInt = true) :
    AddsMod (2 ^ f.slot) (opValue f .sum mode draw) := by
  intro x y
  simp only [opValue, hi, if_true, and_true]
  have sum : wrapInt f.slot (f.toInt x + f.toInt y) = (x + y) % 2 ^ f.slot := by
    rw [← wrapInt_natCast]
    apply wrapInt_congr
    rw [Int.add_emod, f.toInt_emod, f.toInt_emod, ← Int.add_emod, Nat.cast_add]
  rw [sum]
  exact Nat.mod_modEq _ _

/-- One more element adds to the sum. -/
theorem opOnto_sumsMod {n a b : Nat} {op : Nat → Nat → Nat × Flags} {c : Nat × Flags} {x : Nat} (hop : AddsMod n op)
    (hc : SumsMod n a (some c)) (hx : x ≡ b [MOD n]) : SumsMod n (a + b) (some (opOnto op c x)) := by
  obtain ⟨hsum, hfl⟩ := hc
  refine ⟨(hop c.1 x).1.trans (hsum.add hx), ?_⟩
  change c.2 = 0 at hfl
  show c.2 ||| (op c.1 x).2 = 0
  rw [hfl, (hop c.1 x).2]
  rfl

/-- What is congruent to nothing adds nothing. -/
theorem modEq_add_of_zero {n a b x : Nat} (ha : 0 ≡ a [MOD n]) (hx : x ≡ b [MOD n]) : x ≡ a + b [MOD n] := by
  simpa only [Nat.zero_add] using ha.add hx

/-- The sums of neighbours add. -/
theorem joinNodes_sumsMod {n a b : Nat} {op : Nat → Nat → Nat × Flags} {x y : Node} (hop : AddsMod n op)
    (hx : SumsMod n a x) (hy : SumsMod n b y) : SumsMod n (a + b) (joinNodes op x y) := by
  cases x with
  | none => exact ⟨modEq_add_of_zero hx.1 hy.1, hy.2⟩
  | some x =>
    cases y with
    | none => exact ⟨Nat.add_comm b a ▸ modEq_add_of_zero hy.1 hx.1, hx.2⟩
    | some y =>
      obtain ⟨hsum, hfl⟩ := opOnto_sumsMod hop hx hy.1
      refine ⟨hsum, ?_⟩
      show (opOnto op x y.1).2 ||| y.2 = 0
      rw [show (opOnto op x y.1).2 = 0 from hfl, show y.2 = 0 from hy.2]
      rfl

/-- The sum of the first `n` slots. -/
def slotSum (slot : Nat → Option Nat) (n : Nat) : Nat := ((List.range n).map fun k => (slot k).getD 0).sum

/-- One more slot. -/
theorem slotSum_succ (slot : Nat → Option Nat) (n : Nat) : slotSum slot (n + 1) = slotSum slot n + (slot n).getD 0 := by
  simp [slotSum, List.range_succ]

/-- A sum over slots splits anywhere. -/
theorem slotSum_add (slot : Nat → Option Nat) (n k : Nat) :
    slotSum slot (n + k) = slotSum slot n + slotSum (fun i => slot (n + i)) k := by
  simp [slotSum, List.range_add, Function.comp_def]

/-- Absent slots add nothing. -/
theorem slotSum_absent (slot : Nat → Option Nat) (n n' : Nat) (hn : n ≤ n') (h : ∀ k, n ≤ k → slot k = none) :
    slotSum slot n' = slotSum slot n := by
  obtain ⟨k, rfl⟩ := Nat.exists_eq_add_of_le hn
  rw [slotSum_add]
  simp [slotSum, h]

/-- The sum of the slots below vl is that of the active elements. -/
theorem State.slotSum_slot (s : State) (t : VType) (a : VName) (m : Option MName) :
    slotSum (s.slot t a m) s.hart.vc.vl = (((List.range s.hart.vc.vl).filter (s.hart.vec.active m)).map (s.element t a)).sum := by
  rw [slotSum, List.map_congr_left fun k hk => congrArg (Option.getD · 0) (s.slot_of_lt t a m k (List.mem_range.mp hk))]
  induction List.range s.hart.vc.vl with
  | nil => rfl
  | cons k ks ih =>
    rw [List.map_cons, List.sum_cons, ih, List.filter_cons]
    split <;> simp

/-- The combination in element order is the start value with the sum of the slots. -/
theorem orderedValue_sumsMod {M : Nat} {op : Nat → Nat → Nat → Nat × Flags} (hop : ∀ k, AddsMod M (op k))
    (slot : Nat → Option Nat) (start n : Nat) : SumsMod M (start + slotSum slot n) (some (orderedValue op slot start n)) := by
  induction n with
  | zero => exact ⟨rfl, rfl⟩
  | succ n ih =>
    rw [orderedValue, slotSum_succ, ← Nat.add_assoc]
    cases slot n with
    | none => exact ih
    | some x => exact opOnto_sumsMod (hop n) ih rfl

/-- A node of the spec's tree joins its halves. -/
theorem treeValue_succ (op : Nat → Nat → Nat → Nat → Nat × Flags) (slot : Nat → Option Nat) (j i : Nat) :
    treeValue op slot (j + 1) i = joinNodes (op j i) (treeValue op slot j i) (treeValue op slot j (i + 2 ^ j)) := by
  rw [treeValue]
  cases treeValue op slot j i <;> cases treeValue op slot j (i + 2 ^ j) <;> rfl

/-- A node of the tree is the sum of the slots below it. -/
theorem treeValue_sumsMod {M : Nat} {op : Nat → Nat → Nat → Nat → Nat × Flags} (hop : ∀ j i, AddsMod M (op j i))
    (slot : Nat → Option Nat) (j i : Nat) : SumsMod M (slotSum (fun k => slot (i + k)) (2 ^ j)) (treeValue op slot j i) := by
  induction j generalizing i with
  | zero =>
    have one : slotSum (fun k => slot (i + k)) 1 = (slot i).getD 0 := by simp [slotSum]
    rw [Nat.pow_zero, one, treeValue]
    cases slot i <;> exact ⟨rfl, rfl⟩
  | succ j ih =>
    rw [treeValue_succ, Nat.pow_succ, Nat.mul_two, slotSum_add]
    simp only [← Nat.add_assoc]
    exact joinNodes_sumsMod (hop j i) (ih i) (ih (i + 2 ^ j))

/-- The last step of VREDT adds the start value. -/
theorem lastStep_sumsMod {M total : Nat} {op : Nat → Nat → Nat × Flags} (hop : AddsMod M op) (start : Nat) {root : Node}
    (h : SumsMod M total root) : SumsMod M (start + total) (some (lastStep op start root)) := by
  cases root with
  | none => exact ⟨Nat.add_comm total start ▸ modEq_add_of_zero h.1 rfl, rfl⟩
  | some c =>
    refine ⟨(hop start c.1).1.trans (h.1.add_left start), ?_⟩
    show c.2 ||| (op start c.1).2 = 0
    rw [(hop start c.1).2, show c.2 = 0 from h.2]
    rfl

/-- A scan has the sum of the slots that it has passed. -/
theorem scanValue_sumsMod {M : Nat} {first : Nat → Nat × Flags} {op : Nat → Nat → Nat → Nat × Flags}
    (hfirst : ∀ x, SumsMod M x (some (first x))) (hop : ∀ k, AddsMod M (op k)) (slot : Nat → Option Nat) (n : Nat) :
    SumsMod M (slotSum slot n) (scanValue first op slot n) := by
  induction n with
  | zero => exact ⟨rfl, rfl⟩
  | succ n ih =>
    rw [slotSum_succ, scanValue]
    generalize scanValue first op slot n = c at ih
    cases slot n with
    | none => exact ih
    | some x =>
      cases c with
      | none => exact ⟨modEq_add_of_zero ih.1 (hfirst x).1, (hfirst x).2⟩
      | some c => exact opOnto_sumsMod (hop n) ih rfl

/-- First is the element, modulo 2^SEW. -/
theorem scanStart_sumsMod (t : VType) (hi : t.fmt.isInt = true) (x : Nat) : SumsMod (2 ^ t.sew) x (some (scanStart t x)) := by
  rw [scanStart_int t hi]
  exact ⟨Nat.mod_modEq x _, rfl⟩

/-- Under no mask the slots are the elements. -/
theorem State.slotSum_unmasked (s : State) (t : VType) (a : VName) (n : Nat) (h : n ≤ s.hart.vc.vl) :
    slotSum (s.slot t a none) n = ((List.range n).map (s.element t a)).sum := by
  rw [slotSum]
  refine congrArg List.sum (List.map_congr_left fun k hk => ?_)
  rw [s.slot_of_lt t a none k ((List.mem_range.mp hk).trans_le h)]
  rfl

/-- An unmasked scan of sums writes the sums of the elements up to each, or before it. -/
theorem State.scanElement_sum (s : State) (t : VType) (a : VName) (ex : Bool) (draw : Nat → BitVec 16) (k : Nat)
    (hi : t.fmt.isInt = true) (hk : k < s.hart.vc.vl) :
    s.scanElement t a .sum ex none draw k % 2 ^ t.sew =
      ((List.range (if ex then k else k + 1)).map (s.element t a)).sum % 2 ^ t.sew := by
  have sums (n : Nat) (hn : n ≤ s.hart.vc.vl) :
      SumsMod (2 ^ t.sew) ((List.range n).map (s.element t a)).sum (s.scanned t a .sum none draw n) :=
    s.slotSum_unmasked t a n hn ▸ scanValue_sumsMod (scanStart_sumsMod t hi) (fun k => opValue_sum_addsMod _ _ _ hi) _ n
  cases ex with
  | false => exact (sums (k + 1) hk).1
  | true => exact (sums k hk.le).1

/-- A reduction to a sum without flags, which has used no draw. -/
theorem reduction_sum {s u : State} {t : VType} {d a : VName} {m : Option MName} {r : Nat × Flags}
    (hz : u.element t d 0 = r.1 % 2 ^ t.sew) (hfl : u.hart.vc.vxflags = s.hart.vc.vxflags ||| r.2) (hfree : u.free = s.free)
    (hr : SumsMod (2 ^ t.sew) (s.element t d 0 + slotSum (s.slot t a m) s.hart.vc.vl) (some r)) :
    SameFlags s u ∧ u.element t d 0 =
      (s.element t d 0 + (((List.range s.hart.vc.vl).filter (s.hart.vec.active m)).map (s.element t a)).sum) % 2 ^ t.sew := by
  rw [State.slotSum_slot] at hr
  refine ⟨⟨?_, hfree⟩, hz.trans hr.1⟩
  rw [hfl, show r.2 = 0 from hr.2]
  exact BitVec.or_zero

/-- Settles O4: an integer SUM adds modulo 2^SEW without flags, so every order of combination gives the sum. -/
theorem integerReductions : Obligations.IntegerReductions := by
  refine ⟨fun s t d a m h ha hi hda hvl i hmem => ?_, fun s t d a ex h hd ha hi hda hvl => ?_⟩
  · have hop : redAccepts .sum t.fmt = true := by simp [redAccepts, hi]
    have adds (draw : BitVec 16) : AddsMod (2 ^ t.sew) (s.opAt t.fmt .sum draw) := opValue_sum_addsMod _ _ _ hi
    rcases List.mem_pair.mp hmem with rfl | rfl
    · obtain ⟨u, draw, last, root, hu, hroot, hz, hfl, hfree⟩ := vredt_spec s t d a .sum m h ha hop hvl hda
      have total : slotSum (fun k => s.slot t a m (0 + k)) (2 ^ 18) = slotSum (s.slot t a m) s.hart.vc.vl := by
        simp only [Nat.zero_add]
        exact slotSum_absent _ _ _ (vl_le_two_pow s t h.2.1 h.2.2.2) (s.slot_of_ge t a m)
      have hsum := treeValue_sumsMod (fun j i => adds (draw j i)) (s.slot t a m) 18 0
      rw [total, ← hroot] at hsum
      exact ⟨u, hu, reduction_sum hz hfl (hfree hi) (lastStep_sumsMod (adds last) _ hsum)⟩
    · obtain ⟨u, draw, hu, hz, hfl, hfree⟩ := vredo_spec s t d a .sum m h ha hop hvl hda
      exact ⟨u, hu, reduction_sum hz hfl (hfree hi) (orderedValue_sumsMod (fun k => adds (draw k)) _ _ _)⟩
  · obtain ⟨u, draw, hu, ⟨hdata, hmem, -, htab, hout⟩, huntag, helem, hfl, hfree⟩ :=
      vscan_spec s t d a .sum ex none h hd ha (by simp [redAccepts, hi]) hvl hda
    have noFlags : (s.scanned t a .sum none draw s.hart.vc.vl).flags = 0 :=
      (scanValue_sumsMod (scanStart_sumsMod t hi) (fun k => opValue_sum_addsMod _ _ _ hi) _ _).2
    refine ⟨u, hu, ⟨hdata, hmem, ⟨?_, hfree hi⟩, htab, hout⟩, ?_⟩
    · rw [hfl, noFlags]
      exact BitVec.or_zero
    · rw [if_neg hvl]
      refine ⟨fun k hk => ?_, huntag⟩
      rw [helem k hk, if_neg (Nat.not_lt_zero k)]
      by_cases hlt : k < s.hart.vc.vl
      · rw [if_neg (Nat.not_le.mpr hlt), if_pos hlt]
        exact s.scanElement_sum t a ex draw k hi hlt
      · rw [if_pos (Nat.not_lt.mp hlt), if_neg hlt]

end Sys2Proof.Machine
end

section
/-!
The obligation on packed accesses, which fails: the store clause holds `poison` unchanged in every state, also in one whose poison table
lists a line with the value `false`. Such a line is not poisoned, so the stores are plain; a store that covers it removes its entry
(`State.clearCovered`), and the table is another one. No canonical table lists such an entry, so the clause is refuted for the states
outside `Canonical` alone: nothing is said here of those within it.
-/

namespace Sys2Proof.Machine

/-- A vector type of 4-bit integers, two to a byte. -/
def nibbleType : VType := ⟨.i4, 0, 0, false, false, false, 0⟩

/-- A ready hart in M-mode with 128 elements of 4 bits, whose 64 bytes fill the line at X[10], which the poison table lists as not
poisoned. -/
def listedUnpoisoned : State :=
  { State.reset with
    ready := [(16, BitVec.allOnes 64)]
    poison := [(0x4000, false)]
    hart := { Hart.reset with
      live := true
      lanes := ⟨[0], [], [], []⟩
      x := Hart.reset.x.set 10 0x100000#64
      vc := { VecCsrs.reset with vtype := some nibbleType, vl := 128 } } }

/-- The updates that O16 names, for the elements of a register under no mask at X[10]. -/
def nibbleUpdates (s : State) (d : VName) : List Update :=
  let p := nibbleType.fmt.packed
  let byte (i : Nat) : Word := s.x 10 + BitVec.ofNat 64 i
  let merge (hole bits old : Nat) : Nat := old &&& (255 ^^^ hole % 256) ||| bits % 256 &&& hole % 256
  (s.work none).flatMap fun k =>
    let i := k * p / 8
    let at' := k * p % 8
    let hole := (2 ^ p - 1) * 2 ^ at'
    let bits := s.element nibbleType d k % 2 ^ p * 2 ^ at'
    (byte i, 1, merge hole bits) :: (if at' + p ≤ 8 then [] else [(byte (i + 1), 1, merge (hole / 256) (bits / 256))])

/-- The poison table after an instruction. -/
def poisonAfter (r : Result) : Option (List (Nat × Bool)) :=
  match r with
  | .next u => some u.poison
  | _ => none

/-- The hart is ready. -/
theorem listedUnpoisoned_ready : Ready listedUnpoisoned nibbleType := by decide +kernel

/-- Its poison table is not in canonical form. -/
theorem listedUnpoisoned_not_canonical : ¬ Canonical listedUnpoisoned := by
  rintro ⟨-, -, -, -, poison, -⟩
  exact absurd poison (by decide)

/-- All the updates are of plain memory. -/
theorem listedUnpoisoned_storeAll : (listedUnpoisoned.storeAll (nibbleUpdates listedUnpoisoned 4)).isSome = true := by decide +kernel

/-- The store removes the entry of the line. -/
theorem poisonAfter_vse : poisonAfter (exec (.vse 4 10 false false none) listedUnpoisoned) = some [] := by decide +kernel

/-- Refutes O16: a store of 128 elements of 4 bits over a line that the poison table lists with the value `false` empties the table,
where the statement, which does not ask for a canonical state, has it unchanged. -/
theorem not_packedAccesses : ¬ Obligations.PackedAccesses := by
  rintro ⟨-, store⟩
  obtain ⟨u, hu, -, -, -, -, poison, -⟩ :=
    store listedUnpoisoned nibbleType 4 10 false none listedUnpoisoned_ready (by decide) (by decide) listedUnpoisoned_storeAll
  have emptied := poisonAfter_vse
  rw [hu] at emptied
  have kept : u.poison = [(0x4000, false)] := poison
  exact absurd (kept.symm.trans (Option.some.inj emptied)) (by decide)

end Sys2Proof.Machine
end

section
/-!
Fields of words (R71, R72, R82): the fields of a concatenation, and the field classes of the encodings. Each field decoder reads back what
its encoder writes, and nothing else, so that a decoder is inverted by rewriting with these equivalences.
-/

namespace Sys2Proof

/-- A word is the literal of its number. -/
theorem eq_ofNat_of_toNat {n k : Nat} {x : BitVec n} (h : x.toNat = k) : x = BitVec.ofNat n k := by
  rw [← h, BitVec.ofNat_toNat, BitVec.setWidth_eq]

/-! ## Concatenations whose width is a numeral -/

/-- A field of the high part of a concatenation. The library states this for a width written as a sum; the words here are as wide as a
numeral. -/
theorem extract_append_high {v w : Nat} (x : BitVec v) (y : BitVec w) (s l : Nat) (h : w ≤ s) :
    BitVec.extractLsb' s l (HAppend.hAppend (γ := no_index (BitVec (v + w))) x y) = BitVec.extractLsb' (s - w) l x :=
  BitVec.extractLsb'_append_eq_of_le h

/-- A field of the low part of a concatenation. -/
theorem extract_append_low {v w : Nat} (x : BitVec v) (y : BitVec w) (s l : Nat) (h : s + l ≤ w) :
    BitVec.extractLsb' s l (HAppend.hAppend (γ := no_index (BitVec (v + w))) x y) = BitVec.extractLsb' s l y :=
  BitVec.extractLsb'_append_eq_of_add_le h

/-- Neighbouring fields of a word make one field. -/
theorem extract_append_extract {n : Nat} (x : BitVec n) (s s' l l' : Nat) (h : s = s' + l') :
    HAppend.hAppend (γ := no_index (BitVec (l + l'))) (x.extractLsb' s l) (x.extractLsb' s' l') = x.extractLsb' s' (l + l') :=
  BitVec.extractLsb'_append_extractLsb'_eq_extractLsb' h

/-- One bit of a word is its field of one bit. -/
theorem ofBool_getElem {n : Nat} (x : BitVec n) (k : Nat) (h : k < n) : BitVec.ofBool x[k] = x.extractLsb' k 1 := by
  ext i hi
  obtain rfl : i = 0 := by omega
  simp [h]

/-- A bit of the high part of a concatenation. -/
theorem getElem_append_high {v w : Nat} (x : BitVec v) (y : BitVec w) (k : Nat) (hk : k < v + w) (h : w ≤ k) :
    (HAppend.hAppend (γ := no_index (BitVec (v + w))) x y)[k]'hk = x[k - w] := by
  rw [BitVec.getElem_append, dif_neg (Nat.not_lt.mpr h)]

/-- The lowest bit of a concatenation that ends in one bit. -/
theorem getElem_zero_append_ofBool {v : Nat} (x : BitVec v) (b : Bool) (h : 0 < v + 1) :
    (HAppend.hAppend (γ := no_index (BitVec (v + 1))) x (BitVec.ofBool b))[0]'h = b := by
  rw [BitVec.getElem_append]
  simp

/-! ## Field classes (R72, R74, R76 to R79) -/

@[simp] theorem unused_eq_some (x : BitVec 5) (u : Unit) : unused x = some u ↔ x = 0#5 := by
  unfold unused; split <;> simp [*]

@[simp] theorem noMask_eq_some (me : Bool) (mk : BitVec 3) (u : Unit) : noMask me mk = some u ↔ me = false ∧ mk = 0#3 := by
  unfold noMask; split <;> simp [*]

@[simp] theorem reg4_eq_some (x : BitVec 5) (n : Fin 16) : reg4 x = some n ↔ x = ofReg4 n := by decide +revert

@[simp] theorem reg3_eq_some (x : BitVec 5) (n : Fin 8) : reg3 x = some n ↔ x = ofReg3 n := by decide +revert

@[simp] theorem reg2_eq_some (x : BitVec 5) (n : Fin 4) : reg2 x = some n ↔ x = ofReg2 n := by decide +revert

@[simp] theorem maskField_eq_some (me : Bool) (mk : BitVec 3) (m : Option MName) :
    maskField me mk = some m ↔ me = m.isSome ∧ mk = ofMask m := by
  decide +revert

@[simp] theorem selector_eq_some (me : Bool) (mk : BitVec 3) (m : MName) :
    selector me mk = some m ↔ me = true ∧ mk = BitVec.ofFin m := by
  decide +revert

@[simp] theorem countReg_eq_some (me : Bool) (mk : BitVec 3) (n : Fin 8) :
    countReg me mk = some n ↔ me = false ∧ mk = BitVec.ofFin n := by
  decide +revert

@[simp] theorem modifier_eq_some (me : Bool) (mk : BitVec 3) (v : Bool) : modifier me mk = some v ↔ me = v ∧ mk = 0#3 := by
  decide +revert

@[simp] theorem flag_eq_some (x : BitVec 5) (v : Bool) : flag x = some v ↔ x = ofFlag v := by decide +revert

@[simp] theorem loadMods_eq_some (x : BitVec 5) (ff nt : Bool) (q : FeLoad) :
    loadMods x = some (ff, q, nt) ↔ x = ofLoadMods ff q nt := by
  cases q <;> decide +revert

@[simp] theorem storeMods_eq_some (x : BitVec 5) (fes nt : Bool) : storeMods x = some (fes, nt) ↔ x = ofStoreMods fes nt := by
  decide +revert

@[simp] theorem copyKind_eq_some (mk : BitVec 3) (kind : CopyKind) : copyKind mk = some kind ↔ mk = ofCopyKind kind := by
  cases kind <;> decide +revert

@[simp] theorem redOp_eq_some (x : BitVec 5) (op : RedOp) : redOp x = some op ↔ x = ofRedOp op := by
  cases op <;> decide +revert

@[simp] theorem scanOp_eq_some (x : BitVec 5) (op : RedOp) (ex : Bool) : scanOp x = some (op, ex) ↔ x = ofScanOp op ex := by
  cases op <;> decide +revert

@[simp] theorem runMods_eq_some (me : Bool) (mk : BitVec 3) (r : RunMods) :
    runMods me mk = some r ↔ (me = r.payload ∧ mk = ofRunMods r) ∧ (r.payload || r.pw == 0) = true := by
  obtain ⟨payload, pw, descending⟩ := r
  decide +revert

@[simp] theorem ixOp_eq_some (me : Bool) (mk : BitVec 3) (op : IxOp) : ixOp me mk = some op ↔ me = ofIxOpLow op ∧ mk = ofIxOp op := by
  cases op <;> decide +revert

@[simp] theorem rmField_eq_some (x : BitVec 3) (rm : Rm) : rmField x = some rm ↔ x = ofRm rm := by
  cases rm <;> decide +revert

@[simp] theorem scopeField_eq_some (x : BitVec 5) (s : Scope) : scopeField x = some s ↔ x = ofScope s := by
  cases s <;> decide +revert

@[simp] theorem drainMods_eq_some (x : BitVec 5) (s : Scope) (m : Bool) : drainMods x = some (s, m) ↔ x = ofDrainMods s m := by
  cases s <;> decide +revert

@[simp] theorem resumeMods_eq_some (x : BitVec 5) (g : Fin 8) (all : Bool) :
    resumeMods x = some (g, all) ↔ x = ofResumeMods g all := by
  decide +revert

@[simp] theorem unused_zero : unused 0#5 = some () := rfl

/-! ## Fields in which every value has a meaning -/

theorem kPair_eq (me : Bool) (mk : BitVec 3) (k : KName) : kPair me mk = k ↔ me = kLow k ∧ mk = kHigh k := by
  decide +revert

theorem updOp_eq (mk : BitVec 3) (op : UpdOp) : updOp mk = op ↔ mk = ofUpdOp op := by
  cases op <;> decide +revert

@[simp] theorem ofUpdOp_updOp (mk : BitVec 3) : ofUpdOp (updOp mk) = mk := ((updOp_eq mk _).mp rfl).symm

@[simp] theorem updOp_ofUpdOp (op : UpdOp) : updOp (ofUpdOp op) = op := (updOp_eq _ op).mpr rfl

@[simp] theorem kLow_kPair (me : Bool) (mk : BitVec 3) : kLow (kPair me mk) = me := ((kPair_eq me mk _).mp rfl).1.symm

@[simp] theorem kHigh_kPair (me : Bool) (mk : BitVec 3) : kHigh (kPair me mk) = mk := ((kPair_eq me mk _).mp rfl).2.symm

@[simp] theorem kPair_kLow_kHigh (k : KName) : kPair (kLow k) (kHigh k) = k := (kPair_eq _ _ k).mpr ⟨rfl, rfl⟩

end Sys2Proof
end

section
/-!
O54: decoding and encoding of control-stream words (R68 to R81). A word is its fields (`unpack`, `pack`), and the fields of an instruction
are decoded and encoded by opcode: the four custom spaces through their OVIS fields, the standard opcodes through their own formats.
-/

namespace Sys2Proof

/-! ## The fields of a word (R71) -/

theorem unpack_pack (f : WordFields) : unpack (pack f) = f := by
  simp [unpack, pack, extract_append_high, extract_append_low]

theorem pack_unpack (w : BitVec 32) : pack (unpack w) = w := by
  simp [unpack, pack, extract_append_extract]

/-- The low bits of funct7 are the mask fields of an OVIS word; funct6 takes the others. -/
theorem WordFields.funct6_eq (f : WordFields) : f.funct6 = (f.f7.extractLsb' 4 3).toNat * 8 + f.f3.toNat := by
  have h : f.f7.toNat / 16 = (f.f7.extractLsb' 4 3).toNat := by
    simp only [BitVec.extractLsb'_toNat, Nat.shiftRight_eq_div_pow]
    omega
  rw [← h, WordFields.funct6]

/-- A word of a custom space is the OVIS word of its funct6 and its operand fields. -/
theorem ovisWord_funct6_ovis (f : WordFields) (major : Nat) (h : f.op = customOpcode major) :
    ovisWord major f.funct6 f.ovis = f := by
  have hi : BitVec.ofNat 3 (f.funct6 / 8) = f.f7.extractLsb' 4 3 := by
    rw [BitVec.toNat_eq, BitVec.toNat_ofNat, f.funct6_eq]
    omega
  have lo : BitVec.ofNat 3 f.funct6 = f.f3 := by
    rw [BitVec.toNat_eq, BitVec.toNat_ofNat, f.funct6_eq]
    omega
  simp [ovisWord, WordFields.ovis, hi, lo, ← h, ofBool_getElem, extract_append_extract]

theorem funct6_ovisWord (major n : Nat) (o : OvisFields) (h : n < 64) : (ovisWord major n o).funct6 = n := by
  rw [WordFields.funct6_eq]
  simp only [ovisWord, extract_append_high, BitVec.extractLsb'_eq_self, BitVec.toNat_ofNat, Nat.reduceAdd, Nat.reduceSub,
    Nat.reduceLeDiff]
  omega

theorem ovis_ovisWord (major n : Nat) (o : OvisFields) : (ovisWord major n o).ovis = o := by
  simp [WordFields.ovis, ovisWord, extract_append_low, getElem_append_high, getElem_zero_append_ofBool]

/-! ## The custom spaces, from fields to instructions and back (R73 to R79)

A row of a decoder binds the fields of its instruction one after another. The equivalences of the field classes turn "the row answers `i`"
into equations that give every field by the operands of `i`; what is left is that the encoder's row names the same fields. -/

theorem encodeOvis_of_decodeCustom0 (n : Nat) (o : OvisFields) (i : Instr) (h : decodeCustom0 n o = some i) :
    encodeOvis i = some (0, n, o) := by
  obtain ⟨me, mr, b, a, d⟩ := o
  revert h
  unfold decodeCustom0
  split <;> simp [Option.bind_eq_some_iff, -Bool.exists_bool, -Bool.forall_bool] <;> intros <;> subst_vars <;> rfl

theorem encodeOvis_of_decodeCustom1 (n : Nat) (o : OvisFields) (i : Instr) (h : decodeCustom1 n o = some i) :
    encodeOvis i = some (1, n, o) := by
  obtain ⟨me, mr, b, a, d⟩ := o
  revert h
  unfold decodeCustom1
  split <;> simp [Option.bind_eq_some_iff, -Bool.exists_bool, -Bool.forall_bool] <;> intros <;> subst_vars <;>
    (show some _ = some _; simp [getElem_zero_append_ofBool, extract_append_high])

theorem encodeOvis_of_decodeCustom2 (n : Nat) (o : OvisFields) (i : Instr) (h : decodeCustom2 n o = some i) :
    encodeOvis i = some (2, n, o) := by
  obtain ⟨me, mr, b, a, d⟩ := o
  revert h
  unfold decodeCustom2
  split <;> simp [Option.bind_eq_some_iff, -Bool.exists_bool, -Bool.forall_bool] <;> intros <;> subst_vars <;>
    (show some _ = some _; simp)

theorem encodeOvis_of_decodeCustom3 (n : Nat) (o : OvisFields) (i : Instr) (h : decodeCustom3 n o = some i) :
    encodeOvis i = some (3, n, o) := by
  obtain ⟨me, mr, b, a, d⟩ := o
  revert h
  unfold decodeCustom3
  split <;> simp [Option.bind_eq_some_iff, -Bool.exists_bool, -Bool.forall_bool] <;> intros <;> subst_vars <;>
    (show some _ = some _; simp [getElem_zero_append_ofBool, extract_append_high, extract_append_low])

theorem runMods_of_vsortg_wf {d a : VName} {g : Fin 8} {mods : RunMods} (h : (Instr.vsortg d a g mods).wf = true) :
    mods.payload = true ∨ mods.pw = 0 := by
  have h : ((1 ≤ g.val && g.val ≤ 6) && (mods.payload || mods.pw == 0)) = true := h
  simpa using (Bool.and_eq_true_iff.mp h).2

theorem runMods_of_vassert_wf {d : VName} {uq : Bool} {gr : Fin 32} {mods : RunMods} (h : (Instr.vassert d uq gr mods).wf = true) :
    mods.payload = true ∨ mods.pw = 0 := by
  have h : ((gr.val ≤ 18 || gr.val == 31) && (mods.payload || mods.pw == 0)) = true := h
  simpa using (Bool.and_eq_true_iff.mp h).2

theorem decodeCustom0_of_encodeOvis (n : Nat) (o : OvisFields) (i : Instr) (h : encodeOvis i = some (0, n, o)) :
    decodeCustom0 n o = some i := by
  cases i <;> cases h <;> simp [decodeCustom0, Option.bind_eq_some_iff, -Bool.exists_bool]

/-- The run modifiers are the one field class of which an instruction can hold a value without an encoding: a width code without `.p`. -/
theorem decodeCustom1_of_encodeOvis (n : Nat) (o : OvisFields) (i : Instr) (hwf : i.wf = true) (h : encodeOvis i = some (1, n, o)) :
    decodeCustom1 n o = some i := by
  cases i
  case vsortg => cases h; simpa [decodeCustom1, Option.bind_eq_some_iff] using runMods_of_vsortg_wf hwf
  case vassert => cases h; simpa [decodeCustom1, Option.bind_eq_some_iff, -Bool.exists_bool] using runMods_of_vassert_wf hwf
  all_goals cases h <;> simp [decodeCustom1, Option.bind_eq_some_iff, -Bool.exists_bool, ofBool_getElem, extract_append_extract]

theorem decodeCustom2_of_encodeOvis (n : Nat) (o : OvisFields) (i : Instr) (h : encodeOvis i = some (2, n, o)) :
    decodeCustom2 n o = some i := by
  cases i <;> cases h <;> simp [decodeCustom2, Option.bind_eq_some_iff, -Bool.exists_bool]

theorem decodeCustom3_of_encodeOvis (n : Nat) (o : OvisFields) (i : Instr) (h : encodeOvis i = some (3, n, o)) :
    decodeCustom3 n o = some i := by
  cases i <;> cases h <;> simp [decodeCustom3, Option.bind_eq_some_iff, -Bool.exists_bool, ofBool_getElem, extract_append_extract]

theorem decodeOvis_of_encodeOvis (major n : Nat) (o : OvisFields) (i : Instr) (hm : major < 4) (hwf : i.wf = true)
    (h : encodeOvis i = some (major, n, o)) : decodeOvis major n o = some i := by
  match major, hm with
  | 0, _ => exact decodeCustom0_of_encodeOvis n o i h
  | 1, _ => exact decodeCustom1_of_encodeOvis n o i hwf h
  | 2, _ => exact decodeCustom2_of_encodeOvis n o i h
  | 3, _ => exact decodeCustom3_of_encodeOvis n o i h

theorem encodeOvis_bounds {i : Instr} {major n : Nat} {o : OvisFields} (h : encodeOvis i = some (major, n, o)) :
    major < 4 ∧ n < 64 := by
  cases i <;> cases h <;> simp

theorem controlFields_of_encodeOvis {i : Instr} {p : Nat × Nat × OvisFields} (h : encodeOvis i = some p) :
    controlFields i = some (ovisWord p.1 p.2.1 p.2.2) := by
  cases i <;> cases h <;> rfl

theorem decodeFields_ovisWord (major n : Nat) (o : OvisFields) (hm : major < 4) (hn : n < 64) :
    decodeFields (ovisWord major n o) = decodeOvis major n o := by
  have h6 := funct6_ovisWord major n o hn
  have ho := ovis_ovisWord major n o
  match major, hm with
  | 0, _ => exact congrArg₂ decodeCustom0 h6 ho
  | 1, _ => exact congrArg₂ decodeCustom1 h6 ho
  | 2, _ => exact congrArg₂ decodeCustom2 h6 ho
  | 3, _ => exact congrArg₂ decodeCustom3 h6 ho

/-! ## Codes of the standard opcodes (R68) -/

theorem BrCond.ofCode_eq_some (x : BitVec 3) (c : BrCond) : BrCond.ofCode x.toNat = some c ↔ x = c.code := by
  cases c <;> decide +revert

theorem LoadW.ofCode_eq_some (x : BitVec 3) (width : LoadW) : LoadW.ofCode x.toNat = some width ↔ x = width.code := by
  cases width <;> decide +revert

theorem StoreW.ofCode_eq_some (x : BitVec 3) (width : StoreW) : StoreW.ofCode x.toNat = some width ↔ x = width.code := by
  cases width <;> decide +revert

theorem AmoOp.ofCode_eq_some (x : BitVec 5) (op : AmoOp) : AmoOp.ofCode x.toNat = some op ↔ x = op.code := by
  cases op <;> decide +revert

theorem AluOp.code_of_ofCode {f7 : BitVec 7} {f3 : BitVec 3} {op : AluOp} (h : AluOp.ofCode f7.toNat f3.toNat = some op) :
    op.code = (f7, f3, 0x33#7) := by
  revert h
  unfold AluOp.ofCode
  split <;> rintro ⟨⟩ <;> simp [AluOp.code, BitVec.toNat_eq, *]

theorem AluOp.code_of_ofCodeW {f7 : BitVec 7} {f3 : BitVec 3} {op : AluOp} (h : AluOp.ofCodeW f7.toNat f3.toNat = some op) :
    op.code = (f7, f3, 0x3B#7) := by
  revert h
  unfold AluOp.ofCodeW
  split <;> rintro ⟨⟩ <;> simp [AluOp.code, BitVec.toNat_eq, *]

theorem csrOp_eq_some (x : BitVec 3) (op : CsrOp) (imm : Bool) : csrOp x.toNat = some (op, imm) ↔
    x = CsrArgs.funct3 ⟨op, 0, if imm then .imm 0#5 else .reg 0, 0#12⟩ := by
  cases op <;> decide +revert

/-! ## Formats of the standard opcodes (R68) -/

theorem immI_fieldsI (imm : BitVec 12) (a : XReg) (f3 : BitVec 3) (d : XReg) (op : BitVec 7) : (fieldsI imm a f3 d op).immI = imm := by
  simp [fieldsI, WordFields.immI, extract_append_extract]

theorem fieldsI_immI (f : WordFields) : fieldsI f.immI f.a.toFin f.f3 f.d.toFin f.op = f := by
  simp [fieldsI, WordFields.immI, extract_append_high, extract_append_low]

theorem immU_fieldsU (imm : BitVec 20) (d : XReg) (op : BitVec 7) : (fieldsU imm d op).immU = imm := by
  simp [fieldsU, WordFields.immU, extract_append_extract]

theorem fieldsU_immU (f : WordFields) : fieldsU f.immU f.d.toFin f.op = f := by
  simp [fieldsU, WordFields.immU, extract_append_high, extract_append_low]

theorem immJ_fieldsU_jumpImm (off : BitVec 20) (d : XReg) (op : BitVec 7) : (fieldsU (jumpImm off) d op).immJ = off := by
  simp [immU_fieldsU, WordFields.immJ, jumpImm, ofBool_getElem, extract_append_extract, extract_append_high, extract_append_low,
    getElem_append_high]

theorem jumpImm_immJ (f : WordFields) : jumpImm f.immJ = f.immU := by
  simp [WordFields.immJ, jumpImm, ofBool_getElem, extract_append_extract, extract_append_high, extract_append_low, getElem_append_high]

theorem immB_fields_branch (c : BrCond) (a b : XReg) (off : BitVec 12) : (Rv.fields (.branch c a b off)).immB = off := by
  simp [Rv.fields, WordFields.immB, ofBool_getElem, extract_append_extract, extract_append_high, extract_append_low]

theorem fields_branch_immB (c : BrCond) (f : WordFields) :
    Rv.fields (.branch c f.a.toFin f.b.toFin f.immB) = ⟨f.f7, f.b, f.a, c.code, f.d, 0x63#7⟩ := by
  simp [Rv.fields, WordFields.immB, ofBool_getElem, extract_append_extract, extract_append_high, extract_append_low]

theorem immS_fields_store (width : StoreW) (a b : XReg) (imm : BitVec 12) : (Rv.fields (.store width a b imm)).immS = imm := by
  simp [Rv.fields, WordFields.immS, extract_append_extract]

theorem fields_store_immS (width : StoreW) (f : WordFields) :
    Rv.fields (.store width f.a.toFin f.b.toFin f.immS) = ⟨f.f7, f.b, f.a, width.code, f.d, 0x23#7⟩ := by
  simp [Rv.fields, WordFields.immS, extract_append_high, extract_append_low]

theorem fields_alu {op : AluOp} (f : WordFields) (h : op.code = (f.f7, f.f3, f.op)) :
    Rv.fields (.alu op f.d.toFin f.a.toFin f.b.toFin) = f := by
  simp [Rv.fields, h]

/-- A 6-bit shift amount lies in the low bit of funct7 and in field b; the other bits of funct7 say which shift it is. -/
theorem funct7_of_shift {z : BitVec 6} {f7 : BitVec 7} (b : BitVec 5) (h : f7.extractLsb' 1 6 = z) :
    let sh : BitVec 6 := f7.extractLsb' 0 1 ++ b
    (z ++ sh.extractLsb' 5 1, sh.extractLsb' 0 5) = (f7, b) := by
  simp [← h, extract_append_high, extract_append_low, extract_append_extract]

theorem controlFields_fence (f : WordFields) (h3 : f.f3 = 0#3) (hop : f.op = 0x0F#7) :
    controlFields (.fence (f.f7.extractLsb' 3 4) (f.f7.extractLsb' 0 3 ++ f.b.extractLsb' 4 1) (f.b.extractLsb' 0 4)
      f.d.toFin f.a.toFin) = some f := by
  obtain ⟨f7, b, a, f3, d, op⟩ := f
  obtain rfl : f3 = _ := h3
  obtain rfl : op = _ := hop
  refine congrArg some ?_
  simp [extract_append_extract, extract_append_high, extract_append_low]

/-! ## The A extension -/

/-- The fields of an instruction of the A extension: funct5, the width, aq and rl. -/
def amoFields (f5 : BitVec 5) (dbl aq rl : Bool) (b a d : BitVec 5) : WordFields :=
  ⟨f5 ++ BitVec.ofBool aq ++ BitVec.ofBool rl, b, a, if dbl then 3#3 else 2#3, d, 0x2F#7⟩

/-- What a funct5 of the A extension stands for. -/
def amoInstr (f5 : BitVec 5) (dbl aq rl : Bool) (b a d : BitVec 5) : Option Instr :=
  if f5 = 2#5 then if b = 0#5 then some (.rv64 (.lr dbl aq rl d.toFin a.toFin)) else none
  else if f5 = 3#5 then some (.rv64 (.sc dbl aq rl d.toFin a.toFin b.toFin))
  else (AmoOp.ofCode f5.toNat).map fun op => .rv64 (.amo op dbl aq rl d.toFin a.toFin b.toFin)

theorem decodeAmo_amoFields (f5 : BitVec 5) (dbl aq rl : Bool) (b a d : BitVec 5) :
    decodeAmo (amoFields f5 dbl aq rl b a d) = amoInstr f5 dbl aq rl b a d := by
  have hf : ∀ (f5 : BitVec 5) (aq rl : Bool), let f7 : BitVec 7 := f5 ++ BitVec.ofBool aq ++ BitVec.ofBool rl
    f7.toNat / 4 = f5.toNat ∧ f7.getLsbD 1 = aq ∧ f7.getLsbD 0 = rl := by decide
  obtain ⟨h5, haq, hrl⟩ := hf f5 aq rl
  have h3 : (if dbl then 3#3 else 2#3) = 2#3 ∨ (if dbl then 3#3 else 2#3) = 3#3 := by cases dbl <;> decide
  have hd : ((if dbl then 3#3 else 2#3) == 3#3) = dbl := by cases dbl <;> decide
  simp only [decodeAmo, amoFields, amoInstr, h5, haq, hrl, h3, hd, if_true, ← BitVec.toNat_inj (x := f5), BitVec.toNat_ofNat,
    Nat.reducePow, Nat.reduceMod]

theorem exists_amoFields (f : WordFields) (h3 : f.f3 = 2#3 ∨ f.f3 = 3#3) (hop : f.op = 0x2F#7) :
    ∃ f5 dbl aq rl, f = amoFields f5 dbl aq rl f.b f.a f.d := by
  obtain ⟨f7, b, a, f3, d, op⟩ := f
  obtain rfl : op = _ := hop
  refine ⟨f7.extractLsb' 2 5, f3 == 3#3, f7.getLsbD 1, f7.getLsbD 0, ?_⟩
  rcases h3 with rfl | rfl <;> simp [amoFields, ofBool_getElem, extract_append_extract]

theorem controlFields_of_decodeAmo (f : WordFields) (i : Instr) (hop : f.op = 0x2F#7) (h : decodeAmo f = some i) :
    controlFields i = some f := by
  by_cases h3 : f.f3 = 2#3 ∨ f.f3 = 3#3
  · obtain ⟨f5, dbl, aq, rl, hf⟩ := exists_amoFields f h3 hop
    rw [hf, decodeAmo_amoFields, amoInstr] at h
    rw [hf]
    split_ifs at h with h5 hb h5
    · cases h; rw [hb, h5]; rfl
    · cases h; rw [h5]; rfl
    · obtain ⟨op, hop, rfl⟩ := Option.map_eq_some_iff.mp h
      rw [(AmoOp.ofCode_eq_some f5 op).mp hop]; rfl
  · rw [decodeAmo, if_neg h3] at h
    cases h

/-! ## SYSTEM, with Zicsr -/

theorem decodeFields_csrFields (a : CsrArgs) : decodeFields a.fields = some (Instr.ofCsr a) := by
  obtain ⟨op, rd, src, addr⟩ := a
  have h : (CsrArgs.fields ⟨op, rd, src, addr⟩).immI = addr := by simp [CsrArgs.fields, WordFields.immI, extract_append_extract]
  cases op <;> cases src <;> exact congrArg (fun x => some (Instr.ofCsr ⟨_, _, _, x⟩)) h

theorem controlFields_ofCsr (a : CsrArgs) : controlFields (Instr.ofCsr a) = some a.fields := by
  unfold Instr.ofCsr
  split_ifs <;> rfl

theorem fields_of_csrOp {f3 : BitVec 3} {op : CsrOp} {imm : Bool} (a : BitVec 5) (d : XReg) (addr : BitVec 12)
    (h : csrOp f3.toNat = some (op, imm)) :
    CsrArgs.fields ⟨op, d, if imm then .imm a else .reg a.toFin, addr⟩ = fieldsI addr a.toFin f3 d 0x73#7 := by
  rw [csrOp_eq_some] at h
  subst h
  cases op <;> cases imm <;> rfl

theorem controlFields_of_decodeSystem (f : WordFields) (i : Instr) (hop : f.op = 0x73#7) (h : decodeSystem f = some i) :
    controlFields i = some f := by
  have hI := fieldsI_immI f
  rw [hop] at hI
  unfold decodeSystem at h
  split_ifs at h with h3 hs hp
  · obtain ⟨f7, b, a, f3, d, op⟩ := f
    obtain ⟨rfl, rfl⟩ := hs
    obtain rfl : f3 = _ := h3
    obtain rfl : op = _ := hop
    cases h; rfl
  · obtain ⟨hd, ha⟩ := hp
    rw [h3, hd, ha] at hI
    rw [← hI]
    split at h
    case h_1 himm => cases h; rw [eq_ofNat_of_toNat himm]; rfl
    case h_2 himm => cases h; rw [eq_ofNat_of_toNat himm]; rfl
    case h_3 himm => cases h; rw [eq_ofNat_of_toNat himm]; rfl
    case h_4 himm => cases h; rw [eq_ofNat_of_toNat himm]; rfl
    case h_5 himm => cases h; rw [eq_ofNat_of_toNat himm]; rfl
    case h_6 => cases h
  · obtain ⟨⟨op, imm⟩, ho, rfl⟩ := Option.map_eq_some_iff.mp h
    rw [controlFields_ofCsr, fields_of_csrOp f.a _ _ ho]
    exact congrArg some hI

/-! ## OP-IMM and OP-IMM-32 -/

theorem funct3_cases (x : BitVec 3) : x = 0#3 ∨ x = 1#3 ∨ x = 2#3 ∨ x = 3#3 ∨ x = 4#3 ∨ x = 5#3 ∨ x = 6#3 ∨ x = 7#3 := by
  decide +revert

theorem controlFields_of_decodeImm (f : WordFields) (i : Instr) (hop : f.op = 0x13#7) (h : decodeImm f = some i) :
    controlFields i = some f := by
  have hI := fieldsI_immI f
  obtain ⟨f7, b, a, f3, d, op⟩ := f
  obtain rfl : op = _ := hop
  rcases funct3_cases f3 with rfl | rfl | rfl | rfl | rfl | rfl | rfl | rfl
  case inr.inl =>
    obtain ⟨hz, rfl⟩ : f7.extractLsb' 1 6 = 0#6 ∧ _ = i := by simpa [decodeImm] using h
    exact congrArg (fun x : BitVec 7 × BitVec 5 => some (WordFields.mk x.1 x.2 a 1#3 d 0x13#7)) (funct7_of_shift b hz)
  case inr.inr.inr.inr.inr.inl =>
    simp only [decodeImm, if_true] at h
    split_ifs at h with hz hz <;> cases h <;>
      exact congrArg (fun x : BitVec 7 × BitVec 5 => some (WordFields.mk x.1 x.2 a 5#3 d 0x13#7)) (funct7_of_shift b hz)
  all_goals cases h; exact congrArg some hI

theorem controlFields_of_decodeImmWord (f : WordFields) (i : Instr) (hop : f.op = 0x1B#7) (h : decodeImm f = some i) :
    controlFields i = some f := by
  have hI := fieldsI_immI f
  obtain ⟨f7, b, a, f3, d, op⟩ := f
  obtain rfl : op = _ := hop
  rcases funct3_cases f3 with rfl | rfl | rfl | rfl | rfl | rfl | rfl | rfl
  case inl => cases h; exact congrArg some hI
  case inr.inl =>
    obtain ⟨rfl, rfl⟩ : f7 = 0#7 ∧ _ = i := by simpa [decodeImm] using h
    rfl
  case inr.inr.inr.inr.inr.inl =>
    simp only [decodeImm, BitVec.reduceEq, if_false] at h
    split_ifs at h with hz hz <;> cases h <;> subst hz <;> rfl
  all_goals cases h

/-! ## Every opcode -/

theorem decodeFields_fields (r : Rv) (hwf : (Instr.rv64 r).wf = true) : decodeFields r.fields = some (.rv64 r) := by
  cases r with
  | lui d imm => exact congrArg (fun x => some (Instr.rv64 (.lui d x))) (immU_fieldsU imm d _)
  | auipc d imm => exact congrArg (fun x => some (Instr.rv64 (.auipc d x))) (immU_fieldsU imm d _)
  | jal d off => exact congrArg (fun x => some (Instr.rv64 (.jal d x))) (immJ_fieldsU_jumpImm off d _)
  | jalr d a imm => exact congrArg (fun x => some (Instr.rv64 (.jalr d a x))) (immI_fieldsI imm a _ d _)
  | branch c a b off => cases c <;> exact congrArg (fun x => some (Instr.rv64 (.branch _ a b x))) (immB_fields_branch _ a b off)
  | load width d a imm => cases width <;> exact congrArg (fun x => some (Instr.rv64 (.load _ d a x))) (immI_fieldsI imm a _ d _)
  | store width a b imm => cases width <;> exact congrArg (fun x => some (Instr.rv64 (.store _ a b x))) (immS_fields_store _ a b imm)
  | aluImm op d a imm => cases op <;> exact congrArg (fun x => some (Instr.rv64 (.aluImm _ d a x))) (immI_fieldsI imm a _ d _)
  | shift op d a sh =>
    cases op <;>
      simp [decodeFields, Rv.fields, decodeStandard, decodeImm, extract_append_extract, extract_append_high, extract_append_low]
  | shiftw op d a sh => cases op <;> rfl
  | alu op d a b => cases op <;> rfl
  | lr dbl aq rl d a => exact decodeAmo_amoFields 2#5 dbl aq rl 0#5 (BitVec.ofFin a) (BitVec.ofFin d)
  | sc dbl aq rl d a b => exact decodeAmo_amoFields 3#5 dbl aq rl (BitVec.ofFin b) (BitVec.ofFin a) (BitVec.ofFin d)
  | amo op dbl aq rl d a b =>
    refine (decodeAmo_amoFields op.code dbl aq rl (BitVec.ofFin b) (BitVec.ofFin a) (BitVec.ofFin d)).trans ?_
    cases op <;> rfl
  | csr a =>
    have h : Instr.ofCsr a = .rv64 (.csr a) := beq_iff_eq.mp hwf
    rw [← h]
    exact decodeFields_csrFields a
  | ecall | ebreak | mret | wfi => rfl

theorem decodeFields_controlFields (i : Instr) (f : WordFields) (hwf : i.wf = true) (h : controlFields i = some f) :
    decodeFields f = some i := by
  cases ho : encodeOvis i with
  | some p =>
    rw [controlFields_of_encodeOvis ho] at h
    cases h
    obtain ⟨hm, hn⟩ := encodeOvis_bounds ho
    rw [decodeFields_ovisWord _ _ _ hm hn]
    exact decodeOvis_of_encodeOvis _ _ _ i hm hwf ho
  | none =>
    cases i
    case rv64 r => cases h; exact decodeFields_fields r hwf
    case fence fm p s d a =>
      cases h
      simp [decodeFields, decodeStandard, extract_append_extract, extract_append_high, extract_append_low]
    case fenceI imm d a => cases h; exact congrArg (fun x => some (Instr.fenceI x d a)) (immI_fieldsI imm a _ d _)
    case sfenceVma a b => cases h; rfl
    case sret => cases h; rfl
    case vectorCsrAccess a => cases h; rw [decodeFields_csrFields, beq_iff_eq.mp hwf]
    case vseedWrite a => cases h; rw [decodeFields_csrFields, beq_iff_eq.mp hwf]
    case mshapeMirrorWrite a => cases h; rw [decodeFields_csrFields, beq_iff_eq.mp hwf]
    case registerWrite a => cases h; rw [decodeFields_csrFields, beq_iff_eq.mp hwf]
    all_goals cases h <;> cases ho

theorem controlFields_of_decodeStandard (f : WordFields) (i : Instr) (h : decodeStandard f = some i) : controlFields i = some f := by
  have hI := fieldsI_immI f
  have hU := fieldsU_immU f
  unfold decodeStandard at h
  split at h
  case h_1 hop => cases h; rw [eq_ofNat_of_toNat hop] at hU; exact congrArg some hU
  case h_2 hop => cases h; rw [eq_ofNat_of_toNat hop] at hU; exact congrArg some hU
  case h_3 hop => cases h; rw [eq_ofNat_of_toNat hop, ← jumpImm_immJ f] at hU; exact congrArg some hU
  case h_4 hop =>
    split_ifs at h with h3
    cases h
    rw [eq_ofNat_of_toNat hop, h3] at hI
    exact congrArg some hI
  case h_5 hop =>
    obtain ⟨c, hc, rfl⟩ := Option.map_eq_some_iff.mp h
    refine congrArg some ((fields_branch_immB c f).trans ?_)
    rw [← (BrCond.ofCode_eq_some _ c).mp hc]
    exact congrArg _ (eq_ofNat_of_toNat hop).symm
  case h_6 hop =>
    obtain ⟨width, hw, rfl⟩ := Option.map_eq_some_iff.mp h
    rw [eq_ofNat_of_toNat hop, (LoadW.ofCode_eq_some _ width).mp hw] at hI
    exact congrArg some hI
  case h_7 hop =>
    obtain ⟨width, hw, rfl⟩ := Option.map_eq_some_iff.mp h
    refine congrArg some ((fields_store_immS width f).trans ?_)
    rw [← (StoreW.ofCode_eq_some _ width).mp hw]
    exact congrArg _ (eq_ofNat_of_toNat hop).symm
  case h_8 hop => exact controlFields_of_decodeImm f i (eq_ofNat_of_toNat hop) h
  case h_9 hop => exact controlFields_of_decodeImmWord f i (eq_ofNat_of_toNat hop) h
  case h_10 hop =>
    obtain ⟨op, ho, rfl⟩ := Option.map_eq_some_iff.mp h
    exact congrArg some (fields_alu f ((eq_ofNat_of_toNat hop : f.op = 0x33#7) ▸ AluOp.code_of_ofCode ho))
  case h_11 hop =>
    obtain ⟨op, ho, rfl⟩ := Option.map_eq_some_iff.mp h
    exact congrArg some (fields_alu f ((eq_ofNat_of_toNat hop : f.op = 0x3B#7) ▸ AluOp.code_of_ofCodeW ho))
  case h_12 hop =>
    split at h
    case h_1 h3 => cases h; exact controlFields_fence f (eq_ofNat_of_toNat h3) (eq_ofNat_of_toNat hop)
    case h_2 h3 => cases h; rw [eq_ofNat_of_toNat hop, eq_ofNat_of_toNat h3] at hI; exact congrArg some hI
    case h_3 => cases h
  case h_13 hop => exact controlFields_of_decodeAmo f i (eq_ofNat_of_toNat hop) h
  case h_14 hop => exact controlFields_of_decodeSystem f i (eq_ofNat_of_toNat hop) h
  case h_15 => cases h

theorem controlFields_of_decodeFields (f : WordFields) (i : Instr) (h : decodeFields f = some i) : controlFields i = some f := by
  unfold decodeFields at h
  split at h
  case h_1 hop =>
    rw [controlFields_of_encodeOvis (encodeOvis_of_decodeCustom0 _ _ i h), ovisWord_funct6_ovis f 0 (eq_ofNat_of_toNat hop)]
  case h_2 hop =>
    rw [controlFields_of_encodeOvis (encodeOvis_of_decodeCustom1 _ _ i h), ovisWord_funct6_ovis f 1 (eq_ofNat_of_toNat hop)]
  case h_3 hop =>
    rw [controlFields_of_encodeOvis (encodeOvis_of_decodeCustom2 _ _ i h), ovisWord_funct6_ovis f 2 (eq_ofNat_of_toNat hop)]
  case h_4 hop =>
    rw [controlFields_of_encodeOvis (encodeOvis_of_decodeCustom3 _ _ i h), ovisWord_funct6_ovis f 3 (eq_ofNat_of_toNat hop)]
  case h_5 => exact controlFields_of_decodeStandard f i h

/-- Settles O54: a word is its fields, and the fields of an instruction are decoded and encoded back opcode by opcode. -/
theorem controlRoundTrip : Obligations.ControlRoundTrip := by
  intro i w
  simp only [encodeControl, decodeControl, Option.map_eq_some_iff, Option.bind_eq_some_iff, Option.ite_none_right_eq_some,
    Option.some.injEq]
  constructor
  · rintro hwf ⟨f, hf, rfl⟩
    exact ⟨i, by rw [unpack_pack]; exact decodeFields_controlFields i f hwf hf, hwf, rfl⟩
  · rintro ⟨j, hj, hwf, rfl⟩
    exact ⟨⟨unpack w, controlFields_of_decodeFields _ _ hj, pack_unpack w⟩, hwf⟩

/-- Settles O53, word by word. -/
theorem decodeWords : Obligations.DecodeWords := by
  unfold Obligations.DecodeWords
  refine ⟨?_, ?_, ?_, ?_, ?_, ?_, ?_, ?_, ?_, ?_, ?_, ?_, ?_, ?_, ?_⟩ <;> decide

end Sys2Proof
end

section
/-!
O55: decoding and encoding of block instructions with their prefixes (R82 to R89). A block word is its fields (`unpackBlock`,
`packBlock`), the fields are read by the classes of R83 and R84, and prefixes are read back by themselves.
-/

namespace Sys2Proof

/-! ## The fields of a block word (R82) -/

/-- The fields of a block word (R82). -/
structure BlockFields where
  fn13 : BitVec 13
  xr : BitVec 3
  xe : Bool
  sat : Bool
  rm : BitVec 3
  fmt : BitVec 6
  qe : Bool
  qn : Bool
  qp : BitVec 3
  c : BitVec 6
  b : BitVec 6
  a : BitVec 6
  d : BitVec 6
  op : BitVec 8

/-- The word of its fields (R82). -/
def packBlock (f : BlockFields) : Word :=
  f.fn13 ++ f.xr ++ BitVec.ofBool f.xe ++ BitVec.ofBool f.sat ++ f.rm ++ f.fmt ++ BitVec.ofBool f.qe ++ BitVec.ofBool f.qn ++ f.qp ++
  f.c ++ f.b ++ f.a ++ f.d ++ f.op

/-- The fields of a word (R82). -/
def unpackBlock (w : Word) : BlockFields :=
  ⟨w.extractLsb' 51 13, w.extractLsb' 48 3, w.getLsbD 47, w.getLsbD 46, w.extractLsb' 43 3, w.extractLsb' 37 6, w.getLsbD 36, w.getLsbD 35,
    w.extractLsb' 32 3, w.extractLsb' 26 6, w.extractLsb' 20 6, w.extractLsb' 14 6, w.extractLsb' 8 6, w.extractLsb' 0 8⟩

theorem unpackBlock_packBlock (f : BlockFields) : unpackBlock (packBlock f) = f := by
  simp [unpackBlock, packBlock, extract_append_high, extract_append_low, getElem_append_high, getElem_zero_append_ofBool]

theorem packBlock_unpackBlock (w : Word) : packBlock (unpackBlock w) = w := by
  simp [unpackBlock, packBlock, ofBool_getElem, extract_append_extract]

/-! ## Field classes (R83, R84) -/

theorem reg5_eq_some (x : BitVec 6) (n : Fin 32) : decodeBlockArgs.reg5 x = some n ↔ x = BitVec.ofNat 6 n.val := by
  decide +revert

theorem Src.ofCode_eq_some (x : BitVec 6) (s : Src) : Src.ofCode x = some s ↔ x = s.code := by
  cases s <;> decide +revert

theorem predField_eq_some (qe qn : Bool) (qp : BitVec 3) (p : Option (Bool × MName)) :
    decodeBlockArgs.predField qe qn qp = some p ↔ qe = p.isSome ∧ qn = (p.map Prod.fst).getD false ∧ qp = ofMask (p.map Prod.snd) := by
  decide +revert

theorem Fmt.ofCode_eq_some (x : BitVec 6) (f : Fmt) : Fmt.ofCode x.toNat = some f ↔ x = BitVec.ofNat 6 f.code := by
  cases f <;> decide +revert

theorem BlockOp.ofCode_eq_some (x : BitVec 8) (op : BlockOp) : BlockOp.ofCode x.toNat = some op ↔ x = BitVec.ofNat 8 op.code := by
  constructor
  · unfold BlockOp.ofCode
    split <;> rintro ⟨⟩ <;> rename_i h <;> exact eq_ofNat_of_toNat h
  · rintro rfl
    cases op <;> rfl

/-! ## The word of an instruction -/

/-- The fields of the word of an instruction (R82, R84). -/
def BlockArgs.fields (op : BlockOp) (f : BlockArgs) : BlockFields :=
  ⟨f.fn13, ofMask f.x, f.x.isSome, f.sat, ofRm f.rm, BitVec.ofNat 6 f.fmt.code, f.pred.isSome, (f.pred.map Prod.fst).getD false,
    ofMask (f.pred.map Prod.snd), f.c.code, f.b.code, f.a.code, BitVec.ofNat 6 f.d.val, BitVec.ofNat 8 op.code⟩

theorem encodeBlockWord_eq_packBlock (op : BlockOp) (f : BlockArgs) : encodeBlockWord op f = packBlock (f.fields op) := rfl

theorem eq_encodeBlockWord_iff (op : BlockOp) (f : BlockArgs) (w : Word) : unpackBlock w = f.fields op ↔ w = encodeBlockWord op f := by
  constructor
  · intro h
    rw [encodeBlockWord_eq_packBlock, ← h, packBlock_unpackBlock]
  · rintro rfl
    rw [encodeBlockWord_eq_packBlock, unpackBlock_packBlock]

theorem decodeBlockArgs_eq_some (w : Word) (xpf : Option Xpf) (xpi : Option (BitVec 48)) (op : BlockOp) (f : BlockArgs)
    (h : BlockOp.ofCode (blockOpField w) = some op) :
    decodeBlockArgs w xpf xpi = some f ↔ unpackBlock w = f.fields op ∧ f.xpf = xpf ∧ f.xpi = xpi := by
  have hop : w.extractLsb' 0 8 = BitVec.ofNat 8 op.code := (BlockOp.ofCode_eq_some _ op).mp h
  constructor
  · simp only [decodeBlockArgs, Option.bind_eq_some_iff, reg5_eq_some, Src.ofCode_eq_some, predField_eq_some, Fmt.ofCode_eq_some,
      rmField_eq_some, maskField_eq_some, Option.some.injEq]
    rintro ⟨d, hd, a, ha, b, hb, c, hc, pred, ⟨hqe, hqn, hqp⟩, fmt, hfmt, rm, hrm, x, ⟨hxe, hxr⟩, rfl⟩
    exact ⟨by simp only [unpackBlock, BlockArgs.fields, *], rfl, rfl⟩
  · rintro ⟨hu, rfl, rfl⟩
    simp only [unpackBlock, BlockArgs.fields, BlockFields.mk.injEq] at hu
    simp only [decodeBlockArgs, Option.bind_eq_some_iff, reg5_eq_some, Src.ofCode_eq_some, predField_eq_some, Fmt.ofCode_eq_some,
      rmField_eq_some, maskField_eq_some, Option.some.injEq]
    obtain ⟨hfn, hxr, hxe, hsat, hrm, hfmt, hqe, hqn, hqp, hc, hb, ha, hd, hop⟩ := hu
    exact ⟨f.d, hd, f.a, ha, f.b, hb, f.c, hc, f.pred, ⟨hqe, hqn, hqp⟩, f.fmt, hfmt, f.rm, hrm, f.x, ⟨hxe, hxr⟩, by rw [hsat, hfn]⟩

/-! ## Prefix words (R86) -/

/-- A format field of XPF and its valid bit are one optional format. -/
theorem xpfField_eq_some (valid : Bool) (code : BitVec 6) (x : Option Fmt) :
    (if valid then (Fmt.ofCode code.toNat).map some else if code = 0#6 then some none else none) = some x ↔
      valid = x.isSome ∧ code = BitVec.ofNat 6 ((x.map Fmt.code).getD 0) := by
  cases valid <;> cases x <;> simp [Fmt.ofCode_eq_some]

theorem decodeXpf_eq_some (w : Word) (p : Xpf) (h : w.extractLsb' 0 8 = 0xFE#8) : decodeXpf w = some p ↔ encodeXpf p = w := by
  simp only [decodeXpf, Option.ite_none_right_eq_some, Option.bind_eq_some_iff, xpfField_eq_some, Option.some.injEq]
  constructor
  · rintro ⟨⟨hz, hz'⟩, a, ⟨hva, ha⟩, b, ⟨hvb, hb⟩, hp⟩
    cases hp
    simp [encodeXpf, ← ha, ← hb, ← hva, ← hvb, ← hz, ← hz', ← h, ofBool_getElem, extract_append_extract]
  · rintro rfl
    refine ⟨⟨?_, ?_⟩, p.af, ⟨?_, ?_⟩, p.bf, ⟨?_, ?_⟩, rfl⟩ <;>
      simp [encodeXpf, extract_append_high, extract_append_low, getElem_append_high, getElem_zero_append_ofBool]

theorem decodeXpi_eq_some (w : Word) (p : BitVec 48) (h : w.extractLsb' 0 8 = 0xFF#8) : decodeXpi w = some p ↔ encodeXpi p = w := by
  constructor
  · simp only [decodeXpi, Option.ite_none_right_eq_some]
    rintro ⟨hz, hp⟩
    cases hp
    simp [encodeXpi, ← hz, ← h, extract_append_extract]
  · rintro rfl
    simp [decodeXpi, encodeXpi, extract_append_high, extract_append_low]


/-! ## Operations and their instructions -/

theorem Instr.block?_ofBlock (op : BlockOp) (f : BlockArgs) : (Instr.ofBlock op f).block? = some (op, f) := by
  cases op <;> rfl

theorem Instr.wf_ofBlock (op : BlockOp) (f : BlockArgs) : (Instr.ofBlock op f).wf = f.formOk op := by
  cases op <;> rfl

theorem Instr.eq_ofBlock_of_block? {i : Instr} {op : BlockOp} {f : BlockArgs} (h : i.block? = some (op, f)) : i = Instr.ofBlock op f := by
  cases i <;> cases h <;> rfl

theorem blockOpField_encodeBlockWord (op : BlockOp) (f : BlockArgs) : blockOpField (encodeBlockWord op f) = op.code := by
  have h : (unpackBlock (encodeBlockWord op f)).op = BitVec.ofNat 8 op.code := by
    rw [encodeBlockWord_eq_packBlock, unpackBlock_packBlock]
    rfl
  exact (congrArg BitVec.toNat h).trans (by cases op <;> rfl)

theorem BlockOp.ofCode_code (op : BlockOp) : BlockOp.ofCode op.code = some op := by cases op <;> rfl

/-! ## One instruction after its prefixes (R86, R87) -/

/-- The prefixes of a well-formed instruction pass the checks that come before its own fields. -/
theorem prefixes_accepted {op : BlockOp} {w : Word} {f : BlockArgs} (hf : f.prefixesOk op = true)
    (hfmt : Fmt.ofCode (w.extractLsb' 37 6).toNat = some f.fmt) :
    ((f.xpf.isSome && !op.takesXpf) || (f.xpi.isSome && !op.takesXpi)) = false ∧ decodeBlockOp.overridesOk op w f.xpf = true := by
  unfold BlockArgs.prefixesOk at hf
  unfold decodeBlockOp.overridesOk
  cases hx : f.xpf <;> cases hi : f.xpi <;> simp_all

theorem fmt_of_unpackBlock {op : BlockOp} {w : Word} {f : BlockArgs} (h : unpackBlock w = f.fields op) :
    Fmt.ofCode (w.extractLsb' 37 6).toNat = some f.fmt :=
  (Fmt.ofCode_eq_some _ _).mpr (congrArg BlockFields.fmt h)

/-- What the decoder answers for a word with its prefixes is a well-formed instruction whose word that is. -/
theorem decodeBlockOp_eq_ok (w : Word) (xpf : Option Xpf) (xpi : Option (BitVec 48)) (before n : Nat) (i : Instr) :
    decodeBlockOp w xpf xpi before = .ok i n ↔
      ∃ op f, i = Instr.ofBlock op f ∧ n = before + 1 ∧ f.formOk op = true ∧ w = encodeBlockWord op f ∧ f.xpf = xpf ∧ f.xpi = xpi := by
  constructor
  · intro h
    unfold decodeBlockOp at h
    split at h
    · cases h
    · next op hop =>
      split_ifs at h
      split at h
      · cases h
      · next f hf =>
        split_ifs at h with hok
        cases h
        obtain ⟨hw, hxpf, hxpi⟩ := (decodeBlockArgs_eq_some w xpf xpi op f hop).mp hf
        exact ⟨op, f, rfl, rfl, hok, (eq_encodeBlockWord_iff op f w).mp hw, hxpf, hxpi⟩
  · rintro ⟨op, f, rfl, rfl, hok, hw, rfl, rfl⟩
    have hu := (eq_encodeBlockWord_iff op f w).mpr hw
    have hop : BlockOp.ofCode (blockOpField w) = some op := by rw [hw, blockOpField_encodeBlockWord, BlockOp.ofCode_code]
    obtain ⟨hpre, hover⟩ := prefixes_accepted (Bool.and_eq_true_iff.mp hok).1 (fmt_of_unpackBlock hu)
    have hargs := (decodeBlockArgs_eq_some w f.xpf f.xpi op f hop).mpr ⟨hu, rfl, rfl⟩
    unfold decodeBlockOp
    simp [hop, hpre, hover, hargs, hok]

/-! ## The head of a list of words -/

/-- At most one of the prefixes may precede an operation (R86). -/
theorem prefixes_cases {op : BlockOp} {f : BlockArgs} (h : f.formOk op = true) : f.xpf = none ∨ f.xpi = none := by
  have hp := (Bool.and_eq_true_iff.mp h).1
  have hd : ¬ (op.takesXpf = true ∧ op.takesXpi = true) := by cases op <;> decide
  unfold BlockArgs.prefixesOk at hp
  cases hx : f.xpf <;> cases hi : f.xpi <;> simp_all

theorem encodeXpf_op (p : Xpf) : (encodeXpf p).extractLsb' 0 8 = 0xFE#8 := by
  simp [encodeXpf, extract_append_low]

theorem encodeXpi_op (p : BitVec 48) : (encodeXpi p).extractLsb' 0 8 = 0xFF#8 := by
  simp [encodeXpi, extract_append_low]

theorem encodeBlock_ofBlock (op : BlockOp) (f : BlockArgs) : encodeBlock (Instr.ofBlock op f) =
    some (f.xpf.toList.map encodeXpf ++ f.xpi.toList.map encodeXpi ++ [encodeBlockWord op f]) := by
  rw [encodeBlock, Instr.block?_ofBlock]
  rfl

theorem decodeBlock_encode (op : BlockOp) (f : BlockArgs) (rest : List Word) (hok : f.formOk op = true) :
    decodeBlock (f.xpf.toList.map encodeXpf ++ f.xpi.toList.map encodeXpi ++ [encodeBlockWord op f] ++ rest) =
      .ok (Instr.ofBlock op f) (f.xpf.toList.map encodeXpf ++ f.xpi.toList.map encodeXpi ++ [encodeBlockWord op f]).length := by
  have hop := blockOpField_encodeBlockWord op f
  have hlt : op.code < 0xFE := by cases op <;> decide
  have hdec (before : Nat) := (decodeBlockOp_eq_ok (encodeBlockWord op f) f.xpf f.xpi before _ _).mpr ⟨op, f, rfl, rfl, hok, rfl, rfl, rfl⟩
  cases hx : f.xpf with
  | none =>
    cases hi : f.xpi with
    | none =>
      rw [hx, hi] at hdec
      simp [decodeBlock, hop, hlt.ne, (hlt.trans_le (by decide : 0xFE ≤ 0xFF)).ne, hdec]
    | some p =>
      rw [hx, hi] at hdec
      have hp : blockOpField (encodeXpi p) = 0xFF := congrArg BitVec.toNat (encodeXpi_op p)
      simp [decodeBlock, hp, (decodeXpi_eq_some _ p (encodeXpi_op p)).mpr rfl, hdec]
  | some p =>
    have hi : f.xpi = none := (prefixes_cases hok).resolve_left (by simp [hx])
    rw [hx, hi] at hdec
    have hp : blockOpField (encodeXpf p) = 0xFE := congrArg BitVec.toNat (encodeXpf_op p)
    simp [decodeBlock, hp, hi, (decodeXpf_eq_some _ p (encodeXpf_op p)).mpr rfl, hdec]

theorem encodeBlock_of_decodeBlock (words : List Word) (i : Instr) (n : Nat) (h : decodeBlock words = .ok i n) :
    encodeBlock i = some (words.take n) ∧ i.wf = true ∧ n ≤ 2 := by
  unfold decodeBlock at h
  split at h
  · cases h
  · next w rest =>
    split_ifs at h with hf hi
    · split at h
      · cases h
      · cases h
      · next p w' rest hp =>
        obtain ⟨op, f, rfl, rfl, hok, rfl, hxpf, hxpi⟩ := (decodeBlockOp_eq_ok _ _ _ _ _ _).mp h
        have hw := (decodeXpf_eq_some w p (eq_ofNat_of_toNat hf)).mp hp
        exact ⟨by simp [encodeBlock_ofBlock, hxpf, hxpi, hw], by rw [Instr.wf_ofBlock, hok], by decide⟩
    · split at h
      · cases h
      · cases h
      · next p w' rest hp =>
        obtain ⟨op, f, rfl, rfl, hok, rfl, hxpf, hxpi⟩ := (decodeBlockOp_eq_ok _ _ _ _ _ _).mp h
        have hw := (decodeXpi_eq_some w p (eq_ofNat_of_toNat hi)).mp hp
        exact ⟨by simp [encodeBlock_ofBlock, hxpf, hxpi, hw], by rw [Instr.wf_ofBlock, hok], by decide⟩
    · obtain ⟨op, f, rfl, rfl, hok, rfl, hxpf, hxpi⟩ := (decodeBlockOp_eq_ok _ _ _ _ _ _).mp h
      exact ⟨by simp [encodeBlock_ofBlock, hxpf, hxpi], by rw [Instr.wf_ofBlock, hok], by decide⟩

/-- Settles O55: the prefixes and the instruction's own word are each read back, and at most one of them stands before it. -/
theorem blockRoundTrip : Obligations.BlockRoundTrip := by
  intro i words rest n
  refine ⟨fun hwf henc => ?_, encodeBlock_of_decodeBlock words i n⟩
  obtain ⟨⟨op, f⟩, hb, rfl⟩ := Option.map_eq_some_iff.mp henc
  obtain rfl := Instr.eq_ofBlock_of_block? hb
  exact decodeBlock_encode op f rest (Instr.wf_ofBlock op f ▸ hwf)

end Sys2Proof
end

section
/-!
The control thread's own state: its registers, the fields of a status word, exceptions and returns (R68, R333, R335), and the
synchronising points (R255) of a hart with nothing to wait for. One rule for each operation; the proofs about instructions cite them.
-/

namespace Sys2Proof.Machine

/-! ## Registers -/

theorem Hart.getX_setX (h : Hart) (r q : XReg) (v : Word) : (h.setX r v).getX q = if q = r ∧ q ≠ 0 then v else h.getX q := by
  by_cases hr : r = 0
  · have hq : ¬ (q = r ∧ q ≠ 0) := fun hq => hq.2 (hq.1.trans hr)
    rw [if_neg hq, Hart.setX, if_pos hr]
  · by_cases hq : q = r
    · subst hq
      simp [Hart.getX, Hart.setX, hr]
    · simp [Hart.getX, Hart.setX, hr, hq, Ne.symm (Fin.val_ne_of_ne hq)]

/-- A write of an x register changes the x registers alone. -/
theorem Hart.setX_eq (h : Hart) (r : XReg) (v : Word) : h.setX r v = { h with x := (h.setX r v).x } := by
  unfold Hart.setX
  split <;> rfl

/-- Whether the registers are written before or after the pc moves on makes no difference. -/
theorem Hart.setX_goTo (h : Hart) (r : XReg) (v : Word) (pc : Word) : (h.setX r v).goTo pc = { h.goTo pc with x := (h.setX r v).x } := by
  rw [Hart.setX_eq]
  rfl

theorem State.setX_advance (s : State) (r : XReg) (v : Word) :
    (s.setX r v).advance = { s with hart := { s.advance.hart with x := (s.hart.setX r v).x } } := by
  unfold State.advance
  rw [State.setX_hart, Hart.setX_goTo, Hart.setX_pc]
  rfl

/-! ## Fields of a word -/

/-- A field put into a word is there, and the other bits are as they were. -/
theorem getLsbD_putField (w : Word) (lo n v k : Nat) (hn : lo + n ≤ 64) (hk : k < 64) :
    (putField w lo n v).getLsbD k = if lo ≤ k ∧ k < lo + n then v.testBit (k - lo) else w.getLsbD k := by
  simp only [putField, BitVec.getLsbD_or, BitVec.getLsbD_and, BitVec.getLsbD_not, BitVec.getLsbD_shiftLeft, BitVec.getLsbD_ofNat, hk,
    decide_true, Bool.true_and, Nat.testBit_two_pow_sub_one, Nat.testBit_mod_two_pow]
  by_cases hlo : lo ≤ k
  · have hb : k - lo < 64 := by omega
    by_cases hhi : k < lo + n
    · have hn' : k - lo < n := by omega
      simp [Nat.not_lt.mpr hlo, *]
    · have hn' : ¬ k - lo < n := by omega
      simp [*]
  · simp [hlo, Nat.lt_of_not_le hlo]

/-! ## Exceptions (R68, R333, R335) -/

/-- The target of an exception is the vector base, whose two low bits say the mode of the vector. -/
theorem trapTarget_exception (tvec : Word) (cause : Nat) : trapTarget tvec false cause = tvec &&& ~~~3#64 := by
  have h : trapTarget tvec false cause = (tvec >>> 2) <<< 2 := by simp [trapTarget]
  rw [h]
  ext k hk
  match k with
  | 0 => simp
  | 1 => simp
  | k + 2 =>
    have h3 : Nat.testBit 3 (k + 2) = false := Nat.testBit_lt_two_pow (by
      calc 3 < 2 ^ 2 := by decide
        _ ≤ 2 ^ (k + 2) := Nat.pow_le_pow_right (by decide) (by omega))
    have hm : (18446744073709551612#64).getLsbD (k + 2) = true := by
      rw [show 18446744073709551612#64 = ~~~3#64 from rfl, BitVec.getLsbD_not, BitVec.getLsbD_ofNat, h3]
      simp [hk]
    rw [← BitVec.getLsbD_eq_getElem, ← BitVec.getLsbD_eq_getElem]
    simp [hm, hk, Nat.add_comm 2 k, -BitVec.getLsbD_eq_getElem]

/-- The cause of an exception is its number. -/
theorem causeWord_exception (cause : Nat) (h : cause < 2 ^ 63) : causeWord false cause = BitVec.ofNat 64 cause := by
  ext k hk
  rw [← BitVec.getLsbD_eq_getElem, ← BitVec.getLsbD_eq_getElem, causeWord, getLsbD_putField _ _ _ _ _ (by decide) hk]
  split
  · next hb =>
    obtain rfl : k = 63 := by omega
    simp [BitVec.getLsbD_ofNat, Nat.testBit_lt_two_pow h, -BitVec.getLsbD_eq_getElem]
  · rfl

theorem putField_valid (w : Word) : putField w 63 1 0 = w &&& ~~~0x8000000000000000#64 := by
  simp [putField]

/-- A field of one bit is that bit. -/
theorem getLsbD_putField_one (w : Word) (lo v k : Nat) (hlo : lo < 64) (hk : k < 64) :
    (putField w lo 1 v).getLsbD k = if k = lo then v.testBit 0 else w.getLsbD k := by
  rw [getLsbD_putField w lo 1 v k hlo hk]
  by_cases h : k = lo
  · simp [h]
  · rw [if_neg h, if_neg (by omega)]

theorem statusBits_trapS (w : Word) (old spp : Bool) :
    StatusBits w (putField (putField (putField w 8 1 spp.toNat) 5 1 old.toNat) 1 1 0) [(1, false), (5, old), (8, spp)] := by
  refine ⟨?_, fun k hk hne => ?_⟩
  · cases old <;> cases spp <;> simp [getLsbD_putField_one, -BitVec.getLsbD_eq_getElem]
  · simp only [List.mem_cons, forall_eq_or_imp, List.not_mem_nil, false_imp_iff, implies_true, and_true] at hne
    obtain ⟨h1, h5, h8⟩ := hne
    simp only [getLsbD_putField_one _ _ _ _ _ hk, Nat.reduceLT, h1.symm, h5.symm, h8.symm, if_false]

theorem statusBits_trapM (w : Word) (old : Bool) (mode : Mode) :
    StatusBits w (putField (putField (putField w 11 2 mode.code) 7 1 old.toNat) 3 1 0)
      [(3, false), (7, old), (11, decide (mode ≠ .u)), (12, decide (mode = .m))] := by
  refine ⟨?_, fun k hk hne => ?_⟩
  · cases old <;> cases mode <;> simp [getLsbD_putField, Mode.code, -BitVec.getLsbD_eq_getElem] <;> decide
  · simp only [List.mem_cons, forall_eq_or_imp, List.not_mem_nil, false_imp_iff, implies_true, and_true] at hne
    obtain ⟨h3, h7, h11, h12⟩ := hne
    rw [getLsbD_putField_one _ _ _ _ (by decide) hk, if_neg h3.symm, getLsbD_putField_one _ _ _ _ (by decide) hk, if_neg h7.symm,
      getLsbD_putField _ _ _ _ _ (by decide) hk, if_neg (by omega)]

/-- Every exception is taken as R68 and R333 say. -/
theorem State.trapTaken_takeTrap (s : State) (cause : Nat) (tval : Word) (hc : cause < 2 ^ 63) :
    TrapTaken s (s.takeTrap cause tval) cause tval := by
  have hd : s.hart.delegated false cause = true ↔ s.hart.mode ≠ .m ∧ s.hart.csr.medeleg.getLsbD cause = true := by
    simp [Hart.delegated]
  have hcause := causeWord_exception cause hc
  unfold TrapTaken State.takeTrap Hart.takeTrap
  dsimp only
  split
  · next h =>
    rw [if_pos (hd.mp h), hcause]
    refine ⟨rfl, putField_valid _, rfl, rfl, trapTarget_exception _ cause, ?_⟩
    have hs : (if s.hart.mode = .s then 1 else 0) = (decide (s.hart.mode = .s)).toNat := by cases s.hart.mode <;> rfl
    rw [hs]
    exact statusBits_trapS _ _ _
  · next h =>
    rw [if_neg (hd.not.mp h), hcause]
    exact ⟨rfl, putField_valid _, rfl, rfl, trapTarget_exception _ cause, statusBits_trapM _ _ _⟩

/-! ## Synchronising points (R81, R255) -/

theorem Hart.vbusy_idle (h : Hart) (hi : h.idle = true) : h.vbusy = false := by
  rw [Hart.idle_iff] at hi
  obtain ⟨-, hvq, -⟩ := hi
  simp [Hart.vbusy, Hart.vhead, hvq]

theorem Hart.mbusy_idle (h : Hart) (hi : h.idle = true) : h.mbusy = false := by
  rw [Hart.idle_iff] at hi
  obtain ⟨-, -, hmq, -⟩ := hi
  simp [Hart.mbusy, hmq]

theorem Hart.held_idle (h : Hart) (hi : h.idle = true) : h.held = false := by
  rw [Hart.idle_iff] at hi
  obtain ⟨-, -, -, -, -, hv, hm, -⟩ := hi
  simp [Hart.held, hv, hm]

/-- No fault is pending on an idle hart. -/
theorem State.takePending_idle (s : State) (hi : s.hart.idle = true) : s.takePending = none := by
  rw [Hart.idle_iff] at hi
  obtain ⟨-, -, -, hvf, hmf, -, -, hr, -⟩ := hi
  simp [State.takePending, State.takePending.takeRound, hvf, hmf, hr]

theorem awaitOlder_idle (s : State) (hi : s.hart.idle = true) : awaitOlder s false = none := by
  simp [awaitOlder, s.hart.held_idle hi, s.takePending_idle hi]

/-- An idle hart without the fault of a copy goes on past a synchronising point. -/
theorem syncPoint_idle (s : State) (hi : s.hart.idle = true) (hc : NoCopyFault s) : syncPoint s s.hart.vbusy = none := by
  have hn : s.copyFault? = none := Option.isNone_iff_eq_none.mp hc
  simp [syncPoint, s.hart.vbusy_idle hi, awaitOlder_idle s hi, hn]

end Sys2Proof.Machine
end

section
/-!
O36 and O37: the register instructions of RV64I, M and Zicond, jumps and branches, the fences and WFI (R68, R69, R255, R323, R324).
-/

namespace Sys2Proof.Machine

/-! ## Values (R68) -/

theorem boolWord_slt (a b : Word) : boolWord (a.slt b) = if decide (a.toInt < b.toInt) then 1#64 else 0#64 := by
  simp [boolWord, BitVec.slt]

theorem boolWord_ult (a b : Word) : boolWord (a.ult b) = if decide (a.toNat < b.toNat) then 1#64 else 0#64 := by
  simp [boolWord, BitVec.ult]

/-- An immediate with zeros below it. -/
theorem signExtend_append_zeros {v n w : Nat} (x : BitVec v) (hv : 0 < v) :
    (HAppend.hAppend (γ := no_index (BitVec (v + n))) x 0#n).signExtend w = (x.signExtend w) <<< n := by
  ext i hi
  have hv' : v ≠ 0 := by omega
  simp only [BitVec.getElem_signExtend, BitVec.getElem_append, BitVec.msb_append, BitVec.getElem_shiftLeft, BitVec.getElem_zero,
    hv']
  by_cases hn : i < n
  · have : i < v + n := by omega
    simp [hn, this]
  · by_cases hx : i < v + n
    · have : i - n < v := by omega
      simp [hn, hx, this]
    · have : ¬ i - n < v := by omega
      simp [hn, hx, this]

/-- The low bits of an integer's word are the integer's word of fewer bits. -/
theorem setWidth_ofInt {v w : Nat} (h : v ≤ w) (z : Int) : (BitVec.ofInt w z).setWidth v = BitVec.ofInt v z := by
  apply BitVec.eq_of_toNat_eq
  rw [BitVec.toNat_setWidth, BitVec.toNat_ofInt, BitVec.toNat_ofInt]
  zify
  rw [Int.toNat_of_nonneg (Int.emod_nonneg _ (by positivity)), Int.toNat_of_nonneg (Int.emod_nonneg _ (by positivity))]
  exact Int.emod_emod_of_dvd z (pow_dvd_pow 2 h)

theorem neg_one_eq_ofInt (w : Nat) : -1#w = BitVec.ofInt w (-1) := by
  rw [BitVec.ofInt_neg]
  rfl

theorem toInt_eq_zero {w : Nat} (b : BitVec w) : b.toInt = 0 ↔ b = 0#w := by rw [← BitVec.toInt_inj, BitVec.toInt_zero]

theorem divS_eq {w : Nat} (a b : BitVec w) : divS a b = BitVec.ofInt w (if b.toInt = 0 then -1 else a.toInt.tdiv b.toInt) := by
  unfold divS
  simp only [toInt_eq_zero]
  split
  · exact neg_one_eq_ofInt w
  · rw [← BitVec.toInt_inj, BitVec.toInt_sdiv, BitVec.toInt_ofInt]

theorem remS_eq {w : Nat} (a b : BitVec w) : remS a b = BitVec.ofInt w (if b.toInt = 0 then a.toInt else a.toInt.tmod b.toInt) := by
  unfold remS
  simp only [toInt_eq_zero]
  split
  · simp
  · rw [← BitVec.toInt_srem, BitVec.ofInt_toInt]

theorem divU_eq {w : Nat} (a b : BitVec w) : divU a b = BitVec.ofInt w (if (b.toNat : Int) = 0 then -1 else (a.toNat : Int).tdiv b.toNat) := by
  unfold divU
  have : (b.toNat : Int) = 0 ↔ b = 0#w := by rw [← BitVec.toNat_inj, BitVec.toNat_ofNat]; simp
  simp only [this]
  split
  · exact neg_one_eq_ofInt w
  · rw [← Int.ofNat_tdiv, BitVec.ofInt_natCast, ← BitVec.toNat_udiv, BitVec.ofNat_toNat, BitVec.setWidth_eq]

theorem remU_eq {w : Nat} (a b : BitVec w) : remU a b = BitVec.ofInt w (if (b.toNat : Int) = 0 then a.toNat else (a.toNat : Int).tmod b.toNat) := by
  unfold remU
  have : (b.toNat : Int) = 0 ↔ b = 0#w := by rw [← BitVec.toNat_inj, BitVec.toNat_ofNat]; simp
  simp only [this]
  split
  · simp
  · rw [← Int.ofNat_tmod, BitVec.ofInt_natCast, ← BitVec.toNat_umod, BitVec.ofNat_toNat, BitVec.setWidth_eq]

/-- The register and the value that a register instruction writes. -/
def regResult (s : State) : Rv → Option (XReg × Word)
  | .lui rd imm => some (rd, (imm ++ 0#12).signExtend 64)
  | .auipc rd imm => some (rd, s.hart.pc + (imm ++ 0#12).signExtend 64)
  | .aluImm op rd rs1 imm => some (rd, immValue op (s.x rs1) (sext12 imm))
  | .shift op rd rs1 sh => some (rd, shiftValue op (s.x rs1) sh.toNat)
  | .shiftw op rd rs1 sh => some (rd, (shiftValue op ((s.x rs1).setWidth 32) sh.toNat).signExtend 64)
  | .alu op rd rs1 rs2 => some (rd, aluValue op (s.x rs1) (s.x rs2))
  | _ => none

theorem exec_of_regResult {s : State} {i : Rv} {rd : XReg} {v : Word} (h : regResult s i = some (rd, v)) :
    exec (.rv64 i) s = .next (s.setX rd v).advance := by
  cases i <;> cases h <;> rfl

/-! ## Register instructions -/

/-- What a completed register instruction leaves: its value in its destination, and the pc at the next word. -/
theorem setX_advance_reads (s : State) (rd r : XReg) (v : Word) :
    (s.setX rd v).advance.x r = if r = rd ∧ r ≠ 0 then v else s.x r := by
  rw [State.setX_advance]
  exact s.hart.getX_setX rd r v

/-- Settles O36: each instruction writes its value (`regResult`), and the values are those of the statement. -/
theorem scalarValues : Obligations.ScalarValues := by
  intro s rd rs1 rs2 imm up sh shw a b i upper w32 low flag n n32 quotient remainder values
  have key : ∀ p ∈ values, regResult s p.1 = some (rd, p.2) := by
    simp only [values, a, b, i, upper, w32, low, flag, n, n32, quotient, remainder, List.forall_mem_cons, regResult, immValue, shiftValue,
      aluValue, sext12, sextW, mulHigh, boolWord_slt, boolWord_ult, divS_eq, remS_eq, divU_eq, remU_eq]
    simp [signExtend_append_zeros, setWidth_ofInt]
  intro p hp
  refine ⟨_, exec_of_regResult (key p hp), ?_, ?_, fun r => setX_advance_reads s rd r p.2⟩
  · rw [State.setX_advance]
  · rw [State.setX_advance]; rfl

/-! ## Jumps and branches -/

/-- A jump to `target`, with the next word's address in `d`, or its exception. -/
def JumpsTo (s : State) (i : Rv) (d : XReg) (target : Word) : Prop :=
  (target.toNat % 4 = 0 ∨ s.hart.app = true → ∃ u, exec (.rv64 i) s = .next u ∧ u.hart.pc = target ∧
    u = { s with hart := { s.hart.goTo target with x := u.hart.x } } ∧
    ∀ r : XReg, u.x r = if r = d ∧ r ≠ 0 then s.hart.pc + 4#64 else s.x r) ∧
  (target.toNat % 4 ≠ 0 → s.hart.app = false → ∃ u, exec (.rv64 i) s = .next u ∧ TrapTaken s u 0 target)

theorem jumpsTo_of_exec {s : State} {i : Rv} {d : XReg} {target : Word} (h : exec (.rv64 i) s = jumpTo s d target) :
    JumpsTo s i d target := by
  constructor
  · intro ht
    have hj : jumpTo s d target = .next { s with hart := (s.hart.setX d (s.hart.pc + 4#64)).goTo target } :=
      if_neg fun hf => ht.elim hf.1 fun ha => Bool.noConfusion (ha.symm.trans hf.2)
    refine ⟨_, h.trans hj, rfl, ?_, fun r => s.hart.getX_setX d r _⟩
    rw [Hart.setX_goTo]
  · intro ht ha
    exact ⟨_, h.trans (if_pos ⟨ht, ha⟩), s.trapTaken_takeTrap _ _ (by decide)⟩

theorem exec_branch (c : BrCond) (rs1 rs2 : XReg) (off : BitVec 12) (s : State) : exec (.rv64 (.branch c rs1 rs2 off)) s =
    if branchTaken c (s.x rs1) (s.x rs2) then jumpTo s 0 (s.hart.pc + (off ++ 0#1).signExtend 64) else .next s.advance := rfl

theorem branchTaken_eq (a b : Word) :
    ∀ p ∈ [(BrCond.eq, decide (a = b)), (.ne, decide (a ≠ b)), (.lt, decide (a.toInt < b.toInt)), (.ge, decide (b.toInt ≤ a.toInt)),
      (.ltu, decide (a.toNat < b.toNat)), (.geu, decide (b.toNat ≤ a.toNat))], branchTaken p.1 a b = p.2 := by
  simp only [List.forall_mem_cons, branchTaken, BitVec.slt, BitVec.ult]
  refine ⟨?_, ?_, trivial, ?_, trivial, ?_, by simp⟩
  · by_cases h : a = b <;> simp [h]
  · by_cases h : a = b <;> simp [h]
  · by_cases h : a.toInt < b.toInt
    · simp [h]
    · simp [h, Int.not_lt.mp h]
  · by_cases h : a.toNat < b.toNat
    · simp [h]
    · simp [h, Nat.not_lt.mp h]

/-! ## Fences -/

theorem exec_fence_idle (s : State) (fm pred succ : BitVec 4) (rd rs1 : XReg) (hi : s.hart.idle = true) (hc : NoCopyFault s) :
    exec (.fence fm pred succ rd rs1) s = .next s.advance := by
  show execFence fm pred succ rd rs1 s = _
  unfold execFence
  split
  · rfl
  · rw [syncPoint_idle s hi hc]

theorem exec_fenceI_idle (s : State) (imm : BitVec 12) (rd rs1 : XReg) (hi : s.hart.idle = true) (hc : NoCopyFault s) :
    exec (.fenceI imm rd rs1) s = .next ((({ s with hart := { s.hart with region := none } } : State).setCore (coreOf s.hartId)
      { s.core (coreOf s.hartId) with tc := [] }).advance) := by
  show execFenceI imm rd rs1 s = _
  unfold execFenceI
  rw [syncPoint_idle s hi hc]
  rfl

/-- SFENCE.VMA drops the translations that its operands name: x0 names every address, or every space. -/
theorem covered_eq (s : State) (rs1 rs2 : XReg) (t : Translation) :
    covered (if rs1 = 0 then none else some (s.x rs1)) (if rs2 = 0 then none else some (s.x rs2)) t =
      ((rs1 == 0 || t.va / 2 ^ 39 == (s.x rs1).toNat / 2 ^ 39) && (rs2 == 0 || t.space == (s.x rs2).toNat % 2 ^ 16)) := by
  unfold covered
  have hb (r : XReg) (hr : r ≠ 0) : (r == 0) = false := beq_false_of_ne hr
  by_cases h1 : rs1 = 0 <;> by_cases h2 : rs2 = 0 <;> simp [h1, h2, hb]

/-- Settles O37. -/
theorem controlFlow : Obligations.ControlFlow := by
  constructor
  · intro s rd rs1 rs2 imm off a b near far goes
    refine ⟨jumpsTo_of_exec ?_, jumpsTo_of_exec rfl, fun p hp => ?_⟩
    · show jumpTo s rd _ = _
      rw [signExtend_append_zeros _ (by decide)]
    · have hb := exec_branch p.1 rs1 rs2 imm s
      rw [branchTaken_eq a b p hp, signExtend_append_zeros _ (by decide)] at hb
      constructor
      · intro ht
        exact jumpsTo_of_exec (hb.trans (if_pos ht))
      · intro hf
        exact hb.trans (if_neg (by simp [hf]))
  · intro s fm pred succ rd rs1 rs2 imm c fresh
    refine ⟨rfl, fun hi hc => ⟨exec_fence_idle s fm pred succ rd rs1 hi hc, exec_fenceI_idle s imm rd rs1 hi hc⟩, fun hm => ?_⟩
    have hlegal : ¬ (s.hart.mode = .u ∨ (s.hart.mode = .s ∧ s.hart.csr.tvm = true)) := by
      rcases hm with hm | ⟨hm, ht⟩ <;> simp [*]
    show execSfenceVma rs1 rs2 s = _
    unfold execSfenceVma
    rw [if_neg hlegal]
    simp only [covered_eq]
    rfl

end Sys2Proof.Machine
end

section
/-!
O59: what a step performs (R68, R69, R257, R259, R344; the turns are log entry 1).
-/

namespace Sys2Proof.Machine

/-! ## The turn of a step -/

/-- The state in which the agent whose turn it is moves: the cycle count and the full-empty waits have advanced. -/
def State.atTurn (s : State) : State := { ({ s with cycle := s.cycle + 1 } : State).renewWaits with agenda := s.agenda.tail }

@[simp] theorem State.renewWaits_hartId (s : State) : s.renewWaits.hartId = s.hartId := by unfold State.renewWaits; split <;> rfl
@[simp] theorem State.renewWaits_memory (s : State) : s.renewWaits.memory = s.memory := by unfold State.renewWaits; split <;> rfl
@[simp] theorem State.renewWaits_poison (s : State) : s.renewWaits.poison = s.poison := by unfold State.renewWaits; split <;> rfl
@[simp] theorem State.renewWaits_cores (s : State) : s.renewWaits.cores = s.cores := by unfold State.renewWaits; split <;> rfl
@[simp] theorem State.renewWaits_power (s : State) : s.renewWaits.power = s.power := by unfold State.renewWaits; split <;> rfl
@[simp] theorem State.renewWaits_cycle (s : State) : s.renewWaits.cycle = s.cycle := by unfold State.renewWaits; split <;> rfl
@[simp] theorem State.renewWaits_agenda (s : State) : s.renewWaits.agenda = s.agenda := by unfold State.renewWaits; split <;> rfl

@[simp] theorem State.renewWaits_fetchSpace (s : State) : s.renewWaits.fetchSpace = s.fetchSpace := by
  unfold State.renewWaits; split <;> rfl

@[simp] theorem State.atTurn_hartId (s : State) : s.atTurn.hartId = s.hartId := State.renewWaits_hartId _
@[simp] theorem State.atTurn_memory (s : State) : s.atTurn.memory = s.memory := State.renewWaits_memory _
@[simp] theorem State.atTurn_poison (s : State) : s.atTurn.poison = s.poison := State.renewWaits_poison _
@[simp] theorem State.atTurn_cores (s : State) : s.atTurn.cores = s.cores := State.renewWaits_cores _
@[simp] theorem State.atTurn_power (s : State) : s.atTurn.power = s.power := State.renewWaits_power _
@[simp] theorem State.atTurn_cycle (s : State) : s.atTurn.cycle = s.cycle + 1 := State.renewWaits_cycle _
@[simp] theorem State.atTurn_fetchSpace (s : State) : s.atTurn.fetchSpace = s.fetchSpace := State.renewWaits_fetchSpace _
@[simp] theorem State.atTurn_agent (s : State) : s.atTurn.agent = s.agent := by simp [State.agent]

@[simp] theorem State.atTurn_poisoned (s : State) (pa : Nat) : s.atTurn.poisoned pa = s.poisoned pa := by simp [State.poisoned]

@[simp] theorem State.atTurn_cached (s : State) (va space : Nat) (block : Bool) : s.atTurn.cached va space block = s.cached va space block := by
  simp [State.cached, State.core]

/-- What a step performs, by the head of the agenda. -/
def agendaMove (s : State) : Option Turn → Result
  | some (.event i) => exec i s
  | some (.hart id) => .next (s.select id)
  | some .control => liveMove s (passTurn s (threadMove exec s))
  | some .vector => liveMove s ((vectorMove exec s).getD (.next s))
  | some (.part elem) => liveMove s (partMove exec elem s)
  | none => defaultMove exec s

theorem step_eq_agendaMove (s : State) : step s = agendaMove s.atTurn s.agenda.head? := by
  unfold step State.atTurn
  have ha := State.renewWaits_agenda { s with cycle := s.cycle + 1 }
  generalize ({ s with cycle := s.cycle + 1 } : State).renewWaits = r at ha ⊢
  dsimp only at ha ⊢
  rw [← ha]
  split <;> rename_i h <;> rw [h]
  case h_6 =>
    have hr : ({ r with agenda := [] } : State) = r := by rw [← h]
    exact congrArg (defaultMove exec) hr.symm
  all_goals rfl

/-! ## The control thread (R68, R69) -/

/-- A fetch that answers a word changes the region of the hart and the caches of the cores alone. -/
theorem fetchWord_frame (s t : State) (w : BitVec 32) (h : fetchWord s = .word w t) :
    t = { s with hart := { s.hart with region := t.hart.region }, cores := t.cores } := by
  have htake (u : State) (ws : List (Option Word)) (hu : u = { s with cores := u.cores })
      (h : fetchWord.take u ws = .word w t) : t = { s with hart := { s.hart with region := t.hart.region }, cores := t.cores } := by
    unfold fetchWord.take at h
    split at h
    · obtain ⟨-, rfl⟩ := Fetched.word.inj h
      rw [hu]
    · cases h
  have henter (h : fetchWord.enter s = .word w t) : t = { s with hart := { s.hart with region := t.hart.region }, cores := t.cores } := by
    unfold fetchWord.enter at h
    split at h
    · cases h
    · cases h
    · cases h
    · dsimp only at h
      split at h
      · exact htake _ _ rfl h
      · exact htake _ _ rfl h
  unfold fetchWord at h
  split at h
  · split at h
    · obtain ⟨-, rfl⟩ := Fetched.word.inj h
      rfl
    · exact henter h
  · split at h
    · cases h
    · exact henter h
  · exact henter h

/-- The state that has read the word at the pc differs from the state before in the region and the caches alone. -/
theorem codeAt_frame (s : State) : ∀ p ∈ s.codeAt, p.2 = { s with hart := { s.hart with region := p.2.hart.region }, cores := p.2.cores } := by
  intro p hp
  unfold State.codeAt at hp
  split at hp <;> cases hp
  exact fetchWord_frame s _ _ (by assumption)

/-- Where no region and no cached translation stands, the fetch reads the word in memory. -/
theorem fetchWord_fresh (s : State) (pa : Nat) (io : Bool) (hr : s.hart.region = none)
    (hc : s.cached s.hart.pc.toNat (codeSpace s.fetchSpace) false = none)
    (ht : translate s s.agent s.fetchSpace .fetch s.hart.pc = .ok pa io) (hp : s.poisoned pa = false) :
    ∃ t, fetchWord s = .word (BitVec.ofNat 32 (Memory.readNum s.memory pa 4)) t := by
  have hw : codeWord s pa 4 = some (BitVec.ofNat 64 (Memory.readNum s.memory pa 4)) := by simp [codeWord, hp]
  obtain ⟨ws, hws⟩ : ∃ ws, regionWords s 32 pa = some (BitVec.ofNat 64 (Memory.readNum s.memory pa 4)) :: ws := by
    rw [regionWords, hw]
    dsimp only
    split
    · exact ⟨_, rfl⟩
    · exact ⟨_, rfl⟩
  unfold fetchWord fetchWord.enter
  simp only [hr, ht, hc, hws]
  refine ⟨_, congrArg₂ Fetched.word ?_ rfl⟩
  exact BitVec.setWidth_ofNat_of_le (by decide) _

/-- A control thread at a word address, with no interrupt to take and no answer to wait for, executes the word at its pc. -/
theorem threadMove_fetched (s t : State) (w : BitVec 32) (hi : s.hart.interrupt? = none) (hp : s.hart.parked = false)
    (hpc : s.hart.pc.toNat % 4 = 0) (hf : fetchWord s = .word w t) : threadMove exec s = runWord exec t w := by
  simp [threadMove, hi, hp, controlMove, hpc, hf]

/-- A word that decodes to an instruction of the core is executed. -/
theorem runWord_decodes (s : State) (w : BitVec 32) (i : Instr) (hd : decodeControl w = some i)
    (ha : s.hart.app = true → appDecodes i = true) : runWord exec s w = exec i s := by
  simp only [runWord, hd]
  exact if_neg (by simpa using ha)

/-- A word that decodes to no instruction is illegal, once nothing older is left to complete (R69, R81). -/
theorem runWord_undefined (s : State) (w : BitVec 32) (hd : decodeControl w = none) (ha : s.hart.app = false)
    (hi : s.hart.idle = true) : runWord exec s w = .next (s.takeTrap 2 (w.setWidth 64)) := by
  have ho : awaitOlder s (s.hart.vbusy || s.hart.mbusy) = none := by
    rw [Hart.vbusy_idle _ hi, Hart.mbusy_idle _ hi]
    exact awaitOlder_idle s hi
  simp [runWord, hd, illegalWord, ha, State.illegalWord, ho, causeIllegal]

/-! ## The vector side (R259) -/

/-- The vector side of an idle hart has no move. -/
theorem vectorMove_idle (run : Instr → State → Result) (s : State) (hi : s.hart.idle = true) : vectorMove run s = none := by
  rw [Hart.idle_iff] at hi
  simp_all [vectorMove, roundMove, Hart.vnext, Hart.mnext, Hart.vwork]

/-- A move of the round comes before those of the queues. -/
theorem vectorMove_round (run : Instr → State → Result) (s : State) (r : Result) (h : roundMove run s = some r) :
    vectorMove run s = some r := by
  simp [vectorMove, h]

/-- The head of the vector queue is performed by the instruction that its word decodes to. -/
theorem vectorMove_entry (run : Instr → State → Result) (s : State) (e : QEntry) (i : Instr) (hr : s.hart.round = none)
    (he : s.hart.vnext = some e) (hd : decodeControl e.word = some i)
    (hm : ∀ t, run i { s with hart := { s.hart with replay := some e } } = .next t → t.hart.movedFrom s.hart = true) :
    vectorMove run s = some (run i { s with hart := { s.hart with replay := some e } }) := by
  have ht : tryEntry run s e = some (run i { s with hart := { s.hart with replay := some e } }) := by
    unfold tryEntry
    simp only [hd, Option.bind_some]
    split
    · next t h => rw [h, hm t h]; rfl
    · rfl
  simp [vectorMove, roundMove, hr, he, ht]

/-- The state in which a micro-thread executes. -/
def State.atMicro (s : State) (m : Micro) : State := { s with hart := { s.hart with mt := some m } }

/-- A round with one micro-thread, in one fetch group that is not parked, does nothing but execute the instruction at which the
micro-thread stands (R257, R259): nothing of it ends, is read, is parked or is formed first. -/
theorem roundMove_single (run : Instr → State → Result) (s : State) (r : Round) (m : Micro) (g : FetchGroup) (p : Nat × Instr)
    (hr : s.hart.round = some r) (hh : r.holding = .no) (hms : r.micros = [m]) (hgs : r.groups = [g]) (hpl : m.place = .group g.id)
    (hru : m.ended = .running) (hfi : m.first = true) (hpk : g.parked = false) (hli : g.limits = []) (hmv : s.cycle < g.moved + 4096)
    (hat : g.at m.idx = some p)
    (hmoves : ∀ t, run p.2 (s.atMicro { m with idx := p.1 }) = .next t → stood t m p.1 = false) :
    roundMove run s = some (run p.2 (s.atMicro { m with idx := p.1 })) := by
  have hfirst : r.firstDone = false := by simp [Round.firstDone, hms, hfi, hru]
  have hfree : r.freeGroup = none := by simp [Round.freeGroup, Round.running, hgs, hms, hpl, hru]
  have hcode : g.code.isEmpty = false := by
    cases hc : g.code with
    | nil => simp [FetchGroup.at, hc] at hat
    | cons => rfl
  have hread : readGroup s r = none := by simp [readGroup, hgs, hcode]
  have hpark : r.groups.find? (r.parkable s) = none := by
    have : r.parkable s g = false := by simp [Round.parkable, Nat.not_le.mpr hmv]
    simp [hgs, this]
  have hform : formGroup s = none := by
    simp [formGroup, hr, Round.slotFree, Round.lowestWaiting, hgs, hms, hpk, hpl, blockAddresses]
  have hgroup : r.group? g.id = some g := by simp [Round.group?, hgs]
  have hsup : g.suppressed m.elem p.1 = false := by simp [FetchGroup.suppressed, hli]
  have htry : tryMicros run s r [] [m] = some (run p.2 (s.atMicro { m with idx := p.1 })) := by
    unfold tryMicros
    split
    · next id hid hrun =>
      cases hpl.symm.trans hid
      simp only [hgroup, hat]
      rw [if_neg (by simp [hpk]), if_neg (by simp [hsup])]
      split
      · next t h => exact (if_neg (by simp [hmoves t h])).trans (congrArg some h.symm)
      · rfl
    · next hno => exact absurd hru (hno g.id hpl)
  unfold roundMove
  simp [hr, hfirst, hfree, hms, hh, hread, hpark, hform, firstMove, htry]

/-- The turn is passed on where the control thread stays at its instruction or its hart. -/
theorem passTurn_eq (s : State) (r : Result) : passTurn s r = match r with
    | .next t => .next (if t.hartId = s.hartId ∧ t.hart.live = true ∧ t.hart.pc ≠ s.hart.pc then t else t.nextHart)
    | other => other := by
  cases r <;> rfl

/-- The turn of the control thread: named by the agenda, or, with nothing on it and nothing due, of a hart with no other work. -/
theorem step_controlTurn (s : State) (hl : s.atTurn.hart.live = true)
    (ht : s.agenda.head? = some .control ∨
      (s.agenda = [] ∧ s.power.on = true ∧ s.atTurn.due = none ∧ s.atTurn.hart.idle = true)) :
    step s = passTurn s.atTurn (threadMove exec s.atTurn) := by
  rw [step_eq_agendaMove]
  rcases ht with hc | ⟨ha, hp, hd, hi⟩
  · rw [hc]
    exact if_pos hl
  · simp [ha, agendaMove, defaultMove, hp, hd, hartMove, hl, vectorMove_idle _ _ hi]

/-- The turn of the vector side, where it has a move. -/
theorem step_vectorTurn (s : State) (r : Result) (hl : s.atTurn.hart.live = true) (ht : s.agenda.head? = some .vector)
    (hv : vectorMove exec s.atTurn = some r) : step s = r := by
  rw [step_eq_agendaMove, ht]
  simp [agendaMove, liveMove, hl, hv]

/-- The move that the agenda names of a hart that does not run is none (R382). -/
theorem step_notLive (s : State) (hl : s.atTurn.hart.live = false) (t : Turn) (ht : s.agenda.head? = some t)
    (hk : t = .control ∨ t = .vector ∨ ∃ e, t = .part e) : step s = .next s.atTurn := by
  rw [step_eq_agendaMove, ht]
  rcases hk with rfl | rfl | ⟨e, rfl⟩ <;> simp [agendaMove, liveMove, hl]

/-- The word that the control thread fetches, where nothing is in its way, is executed. -/
theorem step_executes (s t : State) (w : BitVec 32) (hl : s.atTurn.hart.live = true)
    (ht : s.agenda.head? = some .control ∨
      (s.agenda = [] ∧ s.power.on = true ∧ s.atTurn.due = none ∧ s.atTurn.hart.idle = true))
    (hi : s.atTurn.hart.interrupt? = none) (hp : s.atTurn.hart.parked = false) (hpc : s.atTurn.hart.pc.toNat % 4 = 0)
    (hf : s.atTurn.codeAt = some (w, t)) : step s = passTurn s.atTurn (runWord exec t w) := by
  have hword : fetchWord s.atTurn = .word w t := by
    unfold State.codeAt at hf
    split at hf <;> cases hf
    assumption
  rw [step_controlTurn s hl ht, threadMove_fetched _ t w hi hp hpc hword]

end Sys2Proof.Machine

namespace Sys2Proof

open Machine

/-- Settles O59: each turn by the equation of `step` for the head of the agenda; the fetched word by the frame of the fetch; the round by
the single micro-thread that can move in it. -/
theorem stepRunsDecoded : Obligations.StepRunsDecoded := by
  intro s s' h passes moves event chosen
  have hpass (r : Result) : passTurn s' r = passes r := by
    have hid : s'.hartId = s.hartId := s.atTurn_hartId
    cases r <;> simp only [passTurn_eq, hid] <;> rfl
  have hmoves (r : Result) (p : State → Bool) (hm : moves r p = true) (t : State) (ht : r = .next t) : p t = true := by
    rw [ht] at hm
    exact hm
  refine ⟨fun i hi => ?_, fun id hid => ?_, fun hl t ht hk => step_notLive s hl t ht hk, fun hl ht hint hpark hpc => ⟨?_, ?_, ?_⟩, ?_, ?_⟩
  · have ha : s.agenda.head? = some (.event i) := by
      unfold event at hi
      split at hi <;> cases hi
      assumption
    rw [step_eq_agendaMove, ha]
    rfl
  · have ha : s.agenda.head? = some (.hart id) := by
      unfold chosen at hid
      split at hid <;> cases hid
      assumption
    rw [step_eq_agendaMove, ha]
    rfl
  · intro p hp i hd happ
    have hfr := codeAt_frame s' p hp
    rw [step_executes s p.2 p.1 hl ht hint hpark hpc hp, runWord_decodes p.2 p.1 i hd (by rw [hfr]; exact happ)]
    exact hpass _
  · intro hidle p hp hd happ
    have hfr := codeAt_frame s' p hp
    rw [step_executes s p.2 p.1 hl ht hint hpark hpc hp,
      runWord_undefined p.2 p.1 hd (by rw [hfr]; exact happ) (by rw [hfr]; exact hidle)]
    exact hpass _
  · intro place hreg hcache pa hpa hpoison
    have htr : ∃ io, translate s' s.agent s.fetchSpace .fetch h.pc = .ok pa io := by
      unfold place at hpa
      split at hpa <;> cases hpa
      exact ⟨_, by assumption⟩
    obtain ⟨io, hio⟩ := htr
    rw [← s.atTurn_agent, ← s.atTurn_fetchSpace] at hio
    rw [← s.atTurn_fetchSpace, ← s.atTurn_cached] at hcache
    rw [← s.atTurn_poisoned] at hpoison
    obtain ⟨t, hf⟩ := fetchWord_fresh s.atTurn pa io hreg hcache hio hpoison
    rw [s.atTurn_memory] at hf
    have hcode : s'.codeAt = some (BitVec.ofNat 32 (Memory.readNum s.memory pa 4), t) := by
      have : fetchWord s' = .word (BitVec.ofNat 32 (Memory.readNum s.memory pa 4)) t := hf
      simp [State.codeAt, this]
    exact ⟨by rw [hcode]; rfl, codeAt_frame s'⟩
  · intro ht hl hr e he i hd r hm
    exact step_vectorTurn s r hl ht (vectorMove_entry exec s' e i hr he hd fun t h => hmoves _ _ hm t h)
  · intro ht hl r hr hh hms hgs m hm g hg hpl hru hfi hpk hli hmv p hat x hx
    have hmicros : r.micros = [m] := by
      obtain ⟨a, ha⟩ := List.length_eq_one_iff.mp hms
      rw [ha] at hm ⊢
      rw [List.mem_singleton.mp hm]
    have hgroups : r.groups = [g] := by
      obtain ⟨a, ha⟩ := List.length_eq_one_iff.mp hgs
      rw [ha] at hg ⊢
      rw [List.mem_singleton.mp hg]
    have hround := roundMove_single exec s' r m g p hr hh hmicros hgroups hpl hru hfi hpk hli
      (lt_of_eq_of_lt s.atTurn_cycle hmv) hat fun t h => by simpa using hmoves _ _ hx t h
    exact step_vectorTurn s x hl ht (vectorMove_round exec s' x hround)

end Sys2Proof
end

section
/-!
O40: exceptions and returns of the control thread (R68, R69, R81, R249, R251, R343, R402; log entries 5 and 34).
-/

namespace Sys2Proof.Machine

/-! ## Illegal instructions (R81) -/

/-- Nothing older is left to complete: the hart is idle, or it holds an image and the other queue is empty. -/
def Hart.olderDone (h : Hart) : Bool :=
  h.idle || (h.held && (h.vheld || h.vwork.isEmpty) && (h.mheld || h.mq.isEmpty))

theorem Hart.vbusy_of_vwork (h : Hart) (hv : (h.vheld || h.vwork.isEmpty) = true) : h.vbusy = false := by
  rcases Bool.or_eq_true_iff.mp hv with hheld | hwork
  · simp [Hart.vbusy, hheld]
  · have hhead : h.vhead = none := by
      rw [List.isEmpty_iff, Hart.vwork, List.filter_eq_nil_iff] at hwork
      exact List.find?_eq_none.mpr hwork
    simp [Hart.vbusy, hhead]

theorem Hart.mbusy_of_mq (h : Hart) (hm : (h.mheld || h.mq.isEmpty) = true) : h.mbusy = false := by
  rcases Bool.or_eq_true_iff.mp hm with hheld | hq <;> simp [Hart.mbusy, *]

theorem awaitOlder_olderDone (s : State) (ho : s.hart.olderDone = true) : awaitOlder s (s.hart.vbusy || s.hart.mbusy) = none := by
  rcases Bool.or_eq_true_iff.mp ho with hi | hh
  · rw [s.hart.vbusy_idle hi, s.hart.mbusy_idle hi]
    exact awaitOlder_idle s hi
  · simp only [Bool.and_eq_true] at hh
    obtain ⟨⟨hheld, hv⟩, hm⟩ := hh
    simp [awaitOlder, hheld, s.hart.vbusy_of_vwork hv, s.hart.mbusy_of_mq hm]

/-- Once nothing older is left, an instruction that answers as an illegal one does takes the exception (R81, log entry 34). -/
theorem trapTaken_illegal (s : State) (i : Instr) (hx : exec i s = .next (s.illegal i)) (ho : s.hart.olderDone = true) :
    ∃ u, exec i s = .next u ∧ TrapTaken s u 2 (((encodeControl i).getD 0#32).setWidth 64) := by
  have hill : s.illegal i = s.takeTrap 2 (((encodeControl i).getD 0#32).setWidth 64) := by
    simp [State.illegal, State.illegalWord, awaitOlder_olderDone s ho, causeIllegal]
  exact ⟨_, hx.trans (congrArg _ hill), s.trapTaken_takeTrap _ _ (by decide)⟩

/-- R80: the privileged instructions are illegal in U-mode. -/
theorem exec_privileged_user (s : State) (a b : XReg) (port : Bool) (hu : s.hart.mode = .u) :
    ∀ i ∈ [Instr.svcall a, .tcinv a b, .vctxsave a port, .vctxrst a port, .lanepart a, .sret, .sfenceVma a b, .rv64 .mret],
      exec i s = .next (s.illegal i) := by
  simp only [List.mem_cons, List.not_mem_nil, or_false, forall_eq_or_imp, forall_eq]
  refine ⟨?_, ?_, ?_, ?_, ?_, ?_, ?_, ?_⟩
  · exact if_pos hu
  · exact if_pos hu
  · exact if_pos (by simp [hu])
  · exact if_pos hu
  · exact if_pos (by simp [hu])
  · exact if_pos (.inl hu)
  · exact if_pos (.inl hu)
  · exact if_neg (by simp [hu])

/-- A queued instruction that is not legal, or that is reached while an image is held, is illegal (R81, R342). -/
theorem issue_illegal (s : State) (i : Instr) (legal : Bool) (q : QClass) (c : Cap) (act : QEntry → State → VecRes)
    (hr : s.hart.replay = none) (h : s.hart.held = true ∨ legal = false) : issue s i legal q c act = .next (s.illegal i) := by
  unfold issue
  rw [hr]
  exact if_pos (by simpa using h)

theorem issueSync_illegal (s : State) (i : Instr) (legal : Bool) (c : Cap) (act : QEntry → State → VecRes)
    (hr : s.hart.replay = none) (h : s.hart.held = true ∨ legal = false) : issueSync s i legal c act = .next (s.illegal i) := by
  unfold issueSync
  rw [hr]
  exact if_pos (by simpa using h)

/-- R56, R340, R342: vector instructions are illegal under VILL, and while an image is held. -/
theorem exec_vector_illegal (s : State) (a d : XReg) (v w : VName) (m : Option MName) (hr : s.hart.replay = none)
    (h : s.hart.vc.vtype = none ∨ s.hart.held = true) :
    ∀ i ∈ [Instr.vle v a false .plain false m, .vse v a false false m, .vmv v w m, .vfb a, .vpopc d 0 m,
      .vsortg v w 2 ⟨false, 0, false⟩], exec i s = .next (s.illegal i) := by
  have hleg (p : VType → Bool) : s.hart.held = true ∨ legalUnder s p = false := by
    rcases h with hv | hh
    · exact .inr (by simp [legalUnder, hv])
    · exact .inl hh
  have hbroadcast : (s.hart.replay.isNone && !s.hart.held && s.hart.vc.vtype.isSome && (s.x a).toNat % 128 != 0) ≠ true := by
    rcases h with hv | hh
    · simp [hv]
    · simp [hh]
  simp only [List.mem_cons, List.not_mem_nil, or_false, forall_eq_or_imp, forall_eq]
  refine ⟨?_, ?_, ?_, ?_, ?_, ?_⟩
  · exact issue_illegal _ _ _ _ _ _ hr (hleg _)
  · exact issue_illegal _ _ _ _ _ _ hr (hleg _)
  · exact issue_illegal _ _ _ _ _ _ hr (hleg _)
  · exact (if_neg hbroadcast).trans (issue_illegal _ _ _ _ _ _ hr (hleg _))
  · exact issueSync_illegal _ _ _ _ _ hr (hleg _)
  · exact issue_illegal _ _ _ _ _ _ hr (hleg _)

/-! ## Misaligned accesses (R68, R402) -/

/-- Outside the device registers a misaligned access raises its own exception. -/
theorem misalignedCause_outside (s : State) (va : Word) (acc : Access)
    (h : ∀ pa io, translate s s.agent s.dataSpace acc va = .ok pa io → physAt s.bigMemory pa ≠ .device ∨ 0xF000100000000 ≤ pa) :
    misalignedCause s va acc = if acc = .store then 6 else 4 := by
  have hin : inDevices s s.agent s.dataSpace acc va = false := by
    unfold inDevices
    split
    · next pa io ht =>
      have hend : registersEnd = 0xF000100000000 := by decide
      rcases h pa io ht with hd | hp
      · simp [hd]
      · simp [hend, hp]
    · rfl
  simp [misalignedCause, hin, causeStoreMisaligned, causeLoadMisaligned]

/-- An exception that is no access fault logs no error. -/
theorem accessTrap_eq_takeTrap (s : State) (cause : Nat) (va : Word) (hl : cause ≠ causeLoadAccess) (hs : cause ≠ causeStoreAccess) :
    s.accessTrap cause va = s.takeTrap cause va := by
  have hno : ¬ (cause = causeLoadAccess ∨ cause = causeStoreAccess) := not_or.mpr ⟨hl, hs⟩
  simp only [State.accessTrap, if_neg hno]
  congr 1
  split <;> rfl

theorem exec_load_misaligned (s : State) (d a : XReg) (imm : BitVec 12) (hva : (s.x a + imm.signExtend 64).toNat % 8 ≠ 0)
    (hout : ∀ pa io, translate s s.agent s.dataSpace .load (s.x a + imm.signExtend 64) = .ok pa io →
      physAt s.bigMemory pa ≠ .device ∨ 0xF000100000000 ≤ pa) :
    exec (.rv64 (.load .d d a imm)) s = .next (s.takeTrap 4 (s.x a + imm.signExtend 64)) := by
  generalize hv : s.x a + imm.signExtend 64 = va at *
  have hl : scalarLoad s va 8 = .trap 4 :=
    (if_pos hva).trans (congrArg Got.trap (misalignedCause_outside s va .load hout))
  subst hv
  rw [← accessTrap_eq_takeTrap s 4 _ (by decide) (by decide)]
  exact congrArg (finishAccess s _ · fun v s => s.setX d (loadExtend .d v)) hl

theorem exec_store_misaligned (s : State) (d a : XReg) (imm : BitVec 12) (hva : (s.x a + imm.signExtend 64).toNat % 8 ≠ 0)
    (hout : ∀ pa io, translate s s.agent s.dataSpace .store (s.x a + imm.signExtend 64) = .ok pa io →
      physAt s.bigMemory pa ≠ .device ∨ 0xF000100000000 ≤ pa) :
    exec (.rv64 (.store .d a d imm)) s = .next (s.takeTrap 6 (s.x a + imm.signExtend 64)) := by
  generalize hv : s.x a + imm.signExtend 64 = va at *
  have hl : scalarStore s va 8 (s.x d).toNat = .trap 6 :=
    (if_pos hva).trans (congrArg Got.trap (misalignedCause_outside s va .store hout))
  subst hv
  rw [← accessTrap_eq_takeTrap s 6 _ (by decide) (by decide)]
  exact congrArg (finishAccess s _ · fun _ s => s) hl

/-! ## Returns (R68, R343) -/

theorem statusBits_returnS (w : Word) (old : Bool) :
    StatusBits w (putField (putField (putField (putField w 1 1 old.toNat) 5 1 1) 8 1 0) 17 1 0)
      [(1, old), (5, true), (8, false), (17, false)] := by
  refine ⟨?_, fun k hk hne => ?_⟩
  · cases old <;> simp [getLsbD_putField_one, -BitVec.getLsbD_eq_getElem]
  · simp only [List.mem_cons, forall_eq_or_imp, List.not_mem_nil, false_imp_iff, implies_true, and_true] at hne
    obtain ⟨h1, h5, h8, h17⟩ := hne
    simp only [getLsbD_putField_one _ _ _ _ _ hk, Nat.reduceLT, h1.symm, h5.symm, h8.symm, h17.symm, if_false]

/-- The status after the return from M-mode, MPRV aside. -/
theorem statusBits_returnM (w : Word) (old : Bool) :
    StatusBits w (putField (putField (putField w 3 1 old.toNat) 7 1 1) 11 2 0)
      [(3, old), (7, true), (11, false), (12, false)] := by
  refine ⟨?_, fun k hk hne => ?_⟩
  · cases old <;> simp [getLsbD_putField, -BitVec.getLsbD_eq_getElem]
  · simp only [List.mem_cons, forall_eq_or_imp, List.not_mem_nil, false_imp_iff, implies_true, and_true] at hne
    obtain ⟨h3, h7, h11, h12⟩ := hne
    rw [getLsbD_putField _ _ _ _ _ (by decide) hk, if_neg (by omega), getLsbD_putField_one _ _ _ _ (by decide) hk, if_neg h7.symm,
      getLsbD_putField_one _ _ _ _ (by decide) hk, if_neg h3.symm]

/-- A bit cleared besides. -/
theorem StatusBits.clear {a b : Word} {bits : List (Nat × Bool)} (h : StatusBits a b bits) (i : Nat) (hi : i < 64)
    (hn : ∀ p ∈ bits, p.1 < 64 ∧ p.1 ≠ i) : StatusBits a (putField b i 1 0) (bits ++ [(i, false)]) := by
  obtain ⟨hset, hkeep⟩ := h
  refine ⟨fun p hp => ?_, fun k hk hne => ?_⟩
  · rcases List.mem_append.mp hp with hp | hp
    · obtain ⟨hlt, hne⟩ := hn p hp
      rw [getLsbD_putField_one _ _ _ _ hi hlt, if_neg hne, hset p hp]
    · obtain rfl := List.mem_singleton.mp hp
      simp [getLsbD_putField_one _ _ _ _ hi hi, -BitVec.getLsbD_eq_getElem]
  · have hki : k ≠ i := fun h => hne (i, false) (by simp) h.symm
    rw [getLsbD_putField_one _ _ _ _ hi hk, if_neg hki]
    exact hkeep k hk fun p hp => hne p (List.mem_append_left _ hp)

/-- A completed instruction is counted, where counting is not inhibited; no other CSR changes. -/
theorem Hart.goTo_csr (h : Hart) (pc : Word) : ∃ n, (h.goTo pc).csr = { h.csr with minstret := n } := by
  unfold Hart.goTo
  dsimp only
  split
  · exact ⟨_, rfl⟩
  · exact ⟨_, rfl⟩

/-- R343: SRET where the mode may execute it. -/
theorem exec_sret (s : State) (h : s.hart.mode = .m ∨ (s.hart.mode = .s ∧ s.hart.csr.tsr = false)) :
    exec .sret s = .next
      ({ s with hart := ((s.hart.goTo s.hart.pc).resumeHeld s.cycle).returnS } : State).resumeCopy := by
  refine if_neg ?_
  rcases h with hm | ⟨hm, ht⟩
  · simp [hm]
  · simp [hm, ht]

/-- What a resumption leaves alone (R343). -/
theorem Hart.resumeHeld_frame (h : Hart) (cycle : Nat) :
    h.resumeHeld cycle = { h with
      vheld := (h.resumeHeld cycle).vheld, mheld := (h.resumeHeld cycle).mheld, vfault := (h.resumeHeld cycle).vfault
      mfault := (h.resumeHeld cycle).mfault, reported := (h.resumeHeld cycle).reported, vq := (h.resumeHeld cycle).vq
      round := (h.resumeHeld cycle).round, resume := (h.resumeHeld cycle).resume } := by
  unfold Hart.resumeHeld
  split <;> rfl

theorem Hart.resumeHeld_of_not_held (h : Hart) (cycle : Nat) (hh : h.held = false) : h.resumeHeld cycle = h := by
  simp [Hart.resumeHeld, hh]

/-- With an image held the resume groups continue as a round, and the entries are held no more. -/
theorem Hart.resumeHeld_of_held (h : Hart) (cycle : Nat) (hh : h.held = true) :
    (h.resumeHeld cycle).resume = [] ∧ (h.resumeHeld cycle).vq = h.vq.map (fun e => { e with held := false }) ∧
      (h.resume = [] → (h.resumeHeld cycle).round = h.round) ∧ (h.vheld = true → (h.resumeHeld cycle).vfault = none) ∧
      (h.mheld = true → (h.resumeHeld cycle).mfault = none) := by
  unfold Hart.resumeHeld
  rw [if_pos hh]
  exact ⟨rfl, rfl, fun hr => if_pos (by simp [hr]), fun hv => if_pos hv, fun hm => if_pos hm⟩

/-- The CSRs after the return from a trap taken in S-mode. -/
theorem Hart.returnS_csr (r : Hart) (c : Csrs) (n : Word) (h : r.csr = { c with minstret := n }) :
    r.returnS.csr = { c with
      minstret := n
      mstatus := putField (putField (putField (putField c.mstatus 1 1 (c.mstatus.getLsbD 5).toNat) 5 1 1) 8 1 0) 17 1 0 } := by
  simp only [Hart.returnS, h]

/-- The CSRs after the return from a trap taken in M-mode. -/
theorem Hart.returnM_csr (r : Hart) (c : Csrs) (n : Word) (h : r.csr = { c with minstret := n }) :
    r.returnM.csr = { c with
      minstret := n
      mstatus :=
        let st := putField (putField (putField c.mstatus 3 1 (c.mstatus.getLsbD 7).toNat) 7 1 1) 11 2 0
        if c.mpp = .m then st else putField st 17 1 0 } := by
  simp only [Hart.returnM, h]
  rfl

/-- A return with no held work changes the pc, the mode and the CSRs, and ends the region. -/
theorem Hart.returnS_goTo (h : Hart) :
    (h.goTo h.pc).returnS = { h.goTo h.csr.sepc with
      csr := (h.goTo h.pc).returnS.csr, mode := (h.goTo h.pc).returnS.mode, region := none } := by
  obtain ⟨n, hn⟩ := h.goTo_csr h.pc
  have hpc : (h.goTo h.pc).returnS.pc = h.csr.sepc := (congrArg Csrs.sepc hn :)
  rw [← hpc]
  rfl

theorem Hart.returnM_goTo (h : Hart) :
    (h.goTo h.pc).returnM = { h.goTo h.csr.mepc with
      csr := (h.goTo h.pc).returnM.csr, mode := (h.goTo h.pc).returnM.mode, region := none } := by
  obtain ⟨n, hn⟩ := h.goTo_csr h.pc
  have hpc : (h.goTo h.pc).returnM.pc = h.csr.mepc := (congrArg Csrs.mepc hn :)
  rw [← hpc]
  rfl

/-- After a resumption no image is held. -/
theorem Hart.resumeHeld_not_held (h : Hart) (cycle : Nat) : (h.resumeHeld cycle).vheld = false ∧ (h.resumeHeld cycle).mheld = false := by
  unfold Hart.resumeHeld
  split
  · exact ⟨rfl, rfl⟩
  · next hn => simpa [Hart.held] using hn

end Sys2Proof.Machine

namespace Sys2Proof

open Machine

/-- Settles O40: each exception by the rule of `takeTrap`, the returns by those of `returnS`, `returnM` and `resumeHeld`. -/
theorem exceptionsAndReturns : Obligations.ExceptionsAndReturns := by
  constructor
  · intro s a b d v w port m imm older illegal
    refine ⟨?_, ?_, ?_, ?_, ?_, ?_⟩
    · have hc : ecallCause s.hart.mode = match s.hart.mode with | .u => 8 | .s => 9 | .m => 11 := by cases s.hart.mode <;> rfl
      refine ⟨_, rfl, ?_⟩
      rw [hc]
      exact s.trapTaken_takeTrap _ _ (by cases s.hart.mode <;> decide)
    · exact ⟨_, rfl, s.trapTaken_takeTrap _ _ (by decide)⟩
    · intro va hva hout
      exact ⟨⟨_, exec_load_misaligned s d a imm hva (hout .load (by simp)), s.trapTaken_takeTrap 4 va (by decide)⟩,
        ⟨_, exec_store_misaligned s d a imm hva (hout .store (by simp)), s.trapTaken_takeTrap 6 va (by decide)⟩⟩
    · exact fun hu i hi ho => trapTaken_illegal s i (exec_privileged_user s a b port hu i hi) ho
    · exact fun hm ho => trapTaken_illegal s _ (if_neg hm) ho
    · exact fun hr h i hi ho => trapTaken_illegal s i (exec_vector_illegal s a d v w m hr h i hi) ho
  · intro s
    dsimp only
    obtain ⟨n, hn⟩ := s.hart.goTo_csr s.hart.pc
    refine ⟨fun hmode => ⟨_, exec_sret s hmode, ?_⟩, fun hm => ⟨_, if_pos hm, ?_⟩⟩
    · obtain ⟨hv, hmh⟩ := (s.hart.goTo s.hart.pc).resumeHeld_not_held s.cycle
      have hframe := (s.hart.goTo s.hart.pc).resumeHeld_frame s.cycle
      have hheld (hh : s.hart.held = false) := (s.hart.goTo s.hart.pc).resumeHeld_of_not_held s.cycle hh
      have hres (hh : s.hart.held = true) := (s.hart.goTo s.hart.pc).resumeHeld_of_held s.cycle hh
      generalize (s.hart.goTo s.hart.pc).resumeHeld s.cycle = r at hv hmh hframe hheld hres
      have hcsr : r.csr = { s.hart.csr with minstret := n } := (congrArg Hart.csr hframe).trans hn
      have hk := r.returnS_csr _ n hcsr
      refine ⟨(congrArg Csrs.sepc hcsr :), (congrArg Csrs.spp hcsr :), (congrArg Hart.x hframe :), (congrArg Hart.vec hframe :),
        ⟨rfl, rfl, rfl, rfl⟩, ?_, ?_, hv, hmh, ?_, rfl, ?_, ?_⟩
      · show r.returnS.csr = { s.hart.csr with mstatus := r.returnS.csr.mstatus, minstret := r.returnS.csr.minstret }
        rw [hk]
      · show StatusBits s.hart.csr.mstatus r.returnS.csr.mstatus _
        rw [hk]
        exact statusBits_returnS _ _
      · intro hh
        rw [hheld hh]
        exact congrArg (fun k : Hart => { k with copyTrap := none }) s.hart.returnS_goTo
      · intro hh
        obtain ⟨hresume, hvq, hround, hvf, hmf⟩ := hres hh
        exact ⟨hresume, hvq, (congrArg Hart.mq hframe :), hround, hvf, hmf⟩
      · have hct : r.copyTrap = s.hart.copyTrap := (congrArg Hart.copyTrap hframe :)
        rw [← hct]
        rfl
    · have hk := (s.hart.goTo s.hart.pc).returnM_csr _ n hn
      have hmpp : s.hart.csr.mpp = if getField s.hart.csr.mstatus 11 2 = 3 then .m
          else if getField s.hart.csr.mstatus 11 2 = 1 then .s else .u := rfl
      have hst := statusBits_returnM s.hart.csr.mstatus (s.hart.csr.mstatus.getLsbD 7)
      refine ⟨?_, ((congrArg Csrs.mpp hn).trans hmpp :), ?_, ?_⟩
      · exact congrArg (fun k : Hart => { s with hart := k }) s.hart.returnM_goTo
      · show (s.hart.goTo s.hart.pc).returnM.csr = { s.hart.csr with
          mstatus := (s.hart.goTo s.hart.pc).returnM.csr.mstatus, minstret := (s.hart.goTo s.hart.pc).returnM.csr.minstret }
        rw [hk]
      · show StatusBits s.hart.csr.mstatus (s.hart.goTo s.hart.pc).returnM.csr.mstatus _
        rw [hk]
        by_cases hm3 : getField s.hart.csr.mstatus 11 2 = 3
        · have hmm : s.hart.csr.mpp = .m := hmpp.trans (if_pos hm3)
          simpa only [hmm, hm3, if_true, List.append_nil] using hst
        · have hmm : s.hart.csr.mpp ≠ .m := by
            rw [hmpp, if_neg hm3]
            split <;> simp
          simpa only [hmm, hm3, if_false] using hst.clear 17 (by decide) (by simp)

end Sys2Proof
end

section
/-!
O38, which fails. Its device clauses hold a load of SVQ at offset 0 to give the REQ of the oldest record in every state, also in one whose
table of service queues lists a die twice. The pop leaves the first entry of that die at the value that an unlisted die reads as, which
removes it (`Store.put`), and the load then reads the second entry. No table in the form of `Store.wf` lists a key twice, and `Canonical`
does not speak of this table: the refutation says nothing of states whose tables of service queues and migrations have that form.
-/

namespace Sys2Proof.Machine

/-- A record of a service queue that asks for a number. -/
def serviceRequest (req : Word) : Request := ⟨req, 0#64, 0#64, 0#64, 0#64, 0⟩

/-- A hart in M-mode with the address of SVQ of die 0 in x10. The table of service queues lists die 0 twice: first with no record left to
pop but the one being read, then with the record of REQ 5 being read. -/
def twiceListedQueue : State :=
  { State.reset with
    ready := [(16, BitVec.allOnes 64)]
    services := [(0, { ServiceQueue.reset with current := some (serviceRequest 1#64) }),
      (0, { ServiceQueue.reset with current := some (serviceRequest 5#64) })]
    hart := { Hart.reset with x := Hart.reset.x.set 10 0xF000000040000#64 } }

theorem twiceListedQueue_not_wf : Store.wf ServiceQueue.reset twiceListedQueue.services = false := by decide

/-- The queue of die 0 has no record to pop. -/
theorem twiceListedQueue_empty : (twiceListedQueue.service 0).records = [] := by decide

/-- A register of the hart after an instruction. -/
def registerAfter (r : Result) (d : XReg) : Option Word :=
  match r with
  | .next u => some (u.x d)
  | _ => none

/-- A load of SVQ of die 0 reads REQ 5, of the entry that the pop uncovers. -/
theorem load_twiceListedQueue :
    registerAfter (exec (.rv64 (.load .d 12 10 0#12)) twiceListedQueue) 12 = some 5#64 := by decide +kernel

/-- The load is one of the register. -/
theorem translate_twiceListedQueue :
    translate twiceListedQueue twiceListedQueue.agent twiceListedQueue.dataSpace .load
      (twiceListedQueue.x 10 + (0#12).signExtend 64) = .ok (0xF000000000000 + 0x40000) true := by decide +kernel

/-- Refutes O38: an empty service queue that its table lists twice answers a load of SVQ with the REQ of the second entry, where the
statement, which does not ask for a canonical table, has 0. -/
theorem not_scalarAccesses : ¬ Obligations.ScalarAccesses := by
  rintro ⟨-, devices⟩
  obtain ⟨-, -, dies, -⟩ := devices twiceListedQueue 12 10 0 0#12 false false false .swap 0x40000
  obtain ⟨-, -, -, svq, -⟩ := dies 0
  obtain ⟨reads, -⟩ := svq rfl
  have hload := reads (by decide) (by dsimp only; rw [translate_twiceListedQueue]; rfl)
  have hfive := load_twiceListedQueue
  rw [hload] at hfive
  exact absurd (Option.some.inj hfive) (by decide +kernel)

end Sys2Proof.Machine
end

section
/-!
O28, which fails. Its broadcast clause holds VFB to start a micro-thread for each element below vl in every state, also in one whose vl
exceeds the bits of a vector register (R67). The active set is a mask register's width (`activeSet`), so that no element from `maxVlen` on
has a micro-thread. No state that `Fits` (R44, R56, R222) has such a vl under a vector type, since LMUL is not above SEW: the refutation
says nothing of those states.
-/

namespace Sys2Proof.Machine

/-! ## What an answered entry leaves of the round -/

/-- The state of the answer of an entry. -/
def VecRes.state? : VecRes → Option State
  | .done s _ => some s
  | .fault s _ _ => some s
  | .wait s _ _ => some s
  | .pcie _ => none

/-- A contained error leaves every hart as it is (R382). -/
theorem State.logError_contained_hart (s : State) (site : ErrorSite) : (s.logError 1 site).hart = s.hart := by
  unfold State.logError
  rw [if_neg (by decide)]
  repeat' split
  all_goals rfl

theorem State.noteFault_hart (s : State) (id : Nat) (f : VecFault) : (s.noteFault id f).hart = s.hart := by
  have hcount (u : State) (k n : Nat) : (u.countLife k n).hart = u.hart := rfl
  unfold State.noteFault
  dsimp only
  repeat' split
  all_goals simp [hcount, State.logError_contained_hart]

theorem Hart.retire_round (h : Hart) (q : QClass) (e : QEntry) : (h.retire q e).round = h.round := by cases q <;> rfl

theorem Hart.replace_round (h : Hart) (matrix : Bool) (e : QEntry) : (h.replace matrix e).round = h.round := by cases matrix <;> rfl

/-- The round is as the performance of the entry left it, whatever its answer. -/
theorem settle_round (q : QClass) (e : QEntry) (res : VecRes) (u : State) (h : settle q e res = .next u) :
    ∃ t ∈ res.state?, u.hart.round = t.hart.round := by
  unfold settle at h
  cases res with
  | done t vals =>
    cases h
    refine ⟨t, rfl, (Hart.retire_round _ q e).trans ?_⟩
    split <;> rfl
  | fault t e' f =>
    cases h
    refine ⟨t, rfl, (congrArg Hart.round (State.noteFault_hart _ _ _)).trans ?_⟩
    dsimp only
    split
    · exact Hart.replace_round t.hart _ e'
    · exact Hart.replace_round t.hart _ e'
  | wait t e' g =>
    refine ⟨t, rfl, ?_⟩
    have hr := Hart.replace_round t.hart q.inMatrix e'
    cases g with
    | none =>
      cases h
      dsimp only
      split
      · exact hr
      · exact hr
    | some g =>
      dsimp only at h
      rcases ite_eq_iff.mp h with ⟨-, h⟩ | ⟨-, h⟩
      · cases h
        exact hr
      · cases h
        exact hr
  | pcie pa => cases h

/-! ## The micro-threads of a broadcast -/

/-- Every micro-thread of the hart's round is an element that a mask register has a bit for. -/
def Hart.roundBelow (h : Hart) : Prop := ∀ r ∈ h.round, ∀ o ∈ r.micros, o.elem < maxVlen

theorem Hart.roundBelow_of_none {h : Hart} (hr : h.round = none) : h.roundBelow := by
  intro r hmem
  rw [hr] at hmem
  cases hmem

/-- A broadcast starts micro-threads of such elements alone. -/
theorem Hart.broadcast_roundBelow (h : Hart) (e : QEntry) (t : VType) (active : VecBits) (block : Word) (code : List (Nat × Instr))
    (cycle : Nat) : (h.broadcast e t active block code cycle).roundBelow := by
  intro r hr o ho
  cases hr
  obtain ⟨k, hk, rfl⟩ := List.mem_map.mp ho
  exact BitVec.lt_of_getLsbD (List.mem_filter.mp hk).2

theorem doBroadcast_roundBelow (m : Option MName) (e : QEntry) (s t : State) (hr : s.hart.round = none)
    (h : t ∈ (doBroadcast m e s).state?) : t.hart.roundBelow := by
  unfold doBroadcast at h
  dsimp only at h
  split at h
  · cases h
    exact Hart.roundBelow_of_none hr
  · split at h
    · cases h
      exact Hart.roundBelow_of_none hr
    · split at h
      · cases h
        exact Hart.roundBelow_of_none hr
      · split at h
        · cases h
          exact Hart.roundBelow_of_none hr
        · cases h
          exact Hart.roundBelow_of_none hr
        · cases h
          exact Hart.broadcast_roundBelow _ _ _ _ _ _ _

/-- VFB of an aligned block on a prompt hart leaves a round of such elements alone. -/
theorem exec_vfb_roundBelow (s u : State) (t : VType) (a : XReg) (hp : Prompt s) (ht : s.hart.vc.vtype = some t)
    (ha : (s.x a).toNat % 128 = 0) (hu : exec (.vfb a) s = .next u) : u.hart.roundBelow := by
  obtain ⟨hi, hc⟩ := hp
  have hissue : exec (.vfb a) s = issue s (.vfb a) true .vector { a := some a } (doBroadcast none) := by
    have hlegal : legalUnder s (fun _ => true) = true := by simp [legalUnder, ht]
    exact (if_neg (by simp [ha])).trans (congrArg (issue s (.vfb a) · .vector { a := some a } (doBroadcast none)) hlegal)
  rw [hissue, issue_idle s _ _ _ _ hi hc] at hu
  obtain ⟨v, hv, hround⟩ := settle_round _ _ _ u hu
  have hnone : (s.entered (.vfb a) { a := some a } .vector).hart.round = none := by
    rw [Hart.idle_iff] at hi
    obtain ⟨-, -, -, -, -, -, -, hr, -⟩ := hi
    exact hr
  have hbelow := doBroadcast_roundBelow _ _ _ v hnone hv
  intro r hr
  exact hbelow r (hround ▸ hr)

/-! ## The counterexample -/

/-- The vector type of 32-bit integers. -/
def wordType : VType := ⟨.i32, 0, 0, false, false, false, 0⟩

/-- A hart in M-mode with vl one above the bits of a vector register, and the address of a block in x10. The block is a STOP. -/
def tooLong : State :=
  { State.reset with
    ready := [(16, BitVec.allOnes 64)]
    memory := [(0x100000, 0x38#8)]
    hart := { Hart.reset with
      x := Hart.reset.x.set 10 0x100000#64
      vc := { VecCsrs.reset with vtype := some wordType, vl := maxVlen + 1 } } }

theorem tooLong_prompt : Prompt tooLong := by decide +kernel

/-- Its block can be fetched, and is valid. -/
theorem tooLong_block : (tooLong.blockAt wordType (tooLong.x 10)).isSome = true := by decide +kernel

theorem tooLong_not_fits : ¬ Fits tooLong := by
  rintro ⟨hfits, -⟩
  exact absurd hfits (by decide +kernel)

/-- The last element below vl is active. -/
theorem tooLong_active : maxVlen ∈ (List.range tooLong.hart.vc.vl).filter (tooLong.hart.vec.active none) :=
  List.mem_filter.mpr ⟨List.mem_range.mpr (Nat.lt_succ_self maxVlen), rfl⟩

/-- Under the statement every active element below vl is one that a mask register has a bit for. -/
theorem active_lt_of_broadcasts (h : Obligations.Broadcasts) (s : State) (t : VType) (a : XReg) (hp : Prompt s)
    (ht : s.hart.vc.vtype = some t) (ha : (s.x a).toNat % 128 = 0) (hb : (s.blockAt t (s.x a)).isSome = true) (k : Nat)
    (hk : k ∈ (List.range s.hart.vc.vl).filter (s.hart.vec.active none)) : k < maxVlen := by
  obtain ⟨broadcast, -⟩ := h
  obtain ⟨-, -, begins⟩ := broadcast s t a 0 hp ht (.vfb a, none) (List.mem_cons_self ..)
  obtain ⟨c, hc⟩ := Option.isSome_iff_exists.mp hb
  obtain ⟨blocks, -⟩ := begins ha (List.ne_nil_of_mem hk)
  obtain ⟨u, hu, -, hstate, -⟩ := blocks c hc
  have hround := congrArg (fun v : State => v.hart.round) hstate
  exact exec_vfb_roundBelow s u t a hp ht ha hu _ hround _ (List.mem_map_of_mem hk)

/-- Refutes O28: element 262,144 is active below a vl of 262,145, but VFB starts no micro-thread for it, where the statement, which does not
ask for a vl that fits, has one. -/
theorem not_broadcasts : ¬ Obligations.Broadcasts := fun h =>
  Nat.lt_irrefl _
    (active_lt_of_broadcasts h tooLong wordType 10 tooLong_prompt rfl (by decide) tooLong_block maxVlen tooLong_active)

end Sys2Proof.Machine
end

section
/-!
O35: element accesses, prefetches and links of blocks (R112 to R117).
-/

namespace Sys2Proof.Machine

/-! ## Accesses to plain memory -/

/-- What makes a place plain memory. -/
theorem State.plainAs_eq_some {s : State} {mode : Mode} {acc : Access} {va : Word} {n pa : Nat}
    (h : s.plainAs mode acc va n = some pa) :
    va.toNat % n = 0 ∧ translate s s.agent { s.dataSpace with mode := mode } acc va = .ok pa false ∧
      physAt s.bigMemory pa ≠ .device ∧ s.poisoned pa = false := by
  unfold State.plainAs at h
  split at h
  · cases h
  next hn =>
    split at h
    next pa' ht =>
      split at h
      · cases h
      next hp =>
        cases h
        rw [not_or, Bool.not_eq_true] at hp
        exact ⟨not_not.mp hn, ht, hp⟩
    · cases h

section
variable {s : State} {mode : Mode} {va : Word} {n pa : Nat}

/-- A load of plain memory reads its bytes, without a qualifier or in a full granule, which `.fec` empties (R113). -/
theorem elemLoad_of_plainAs (h : s.plainAs mode .load va n = some pa) (q : FeLoad)
    (hq : q = .plain ∨ hasFullEmpty s.bigMemory pa = true ∧ s.full pa = true) :
    elemLoad s s.agent { s.dataSpace with mode := mode } va n n false q =
      .ok (Memory.readNum s.memory pa n) (if q = .fec then s.setFull pa false else s) := by
  obtain ⟨hn, ht, hd, hp⟩ := State.plainAs_eq_some h
  rcases hq with rfl | ⟨hfe, hfull⟩
  · simp [elemLoad, hn, ht, hd, hp]
  · simp [elemLoad, hn, ht, hd, hp, hfe, hfull]

/-- A load with a full-empty qualifier waits for an empty granule (R113). -/
theorem elemLoad_of_empty (h : s.plainAs mode .load va n = some pa) {q : FeLoad} (hq : q ≠ .plain)
    (hfe : hasFullEmpty s.bigMemory pa = true) (hfull : s.full pa = false) :
    elemLoad s s.agent { s.dataSpace with mode := mode } va n n false q = .wait (some (pa / 16)) := by
  obtain ⟨hn, ht, hd, hp⟩ := State.plainAs_eq_some h
  simp [elemLoad, hn, ht, hd, hp, hq, hfe, hfull]

/-- A store to plain memory writes its bytes, with `.fes` where there are full-empty bits (R113). -/
theorem elemStore_of_plainAs (h : s.plainAs mode .store va n = some pa) (v : Nat) (fes : Bool)
    (hfe : fes = true → hasFullEmpty s.bigMemory pa = true) :
    elemStore s s.agent { s.dataSpace with mode := mode } va n n v false fes =
      .ok pa (s.writeBytes (some s.hartId) pa (byteList n v)) := by
  obtain ⟨hn, ht, hd, -⟩ := State.plainAs_eq_some h
  have hfes : ¬ (fes = true ∧ hasFullEmpty s.bigMemory pa = false) := fun ⟨hf, hno⟩ => by simp [hfe hf] at hno
  simp only [elemStore, hn, ht, hd, hfes, ne_eq, not_true_eq_false, Bool.false_and, Bool.false_eq_true, if_false]
  rfl

end

/-! ## What a link gives and takes (R116, R117) -/

section
variable {h : Hart} {r : Round} {e : Nat}

/-- The oldest value queued toward an element is the one that it receives. -/
theorem takeLink_queued {v : Word} (hv : (h.links.queue e).head? = some v) :
    takeLink h r e = some (v, (h.links.setQueue e (h.links.queue e).tail).hold e v) := by
  obtain ⟨q, hq⟩ := List.head?_eq_some_iff.mp hv
  simp [takeLink, hq]

/-- An element without a predecessor receives `vlinkin`. -/
theorem takeLink_first (hq : h.links.queue e = []) (hb : activeBelow h.links.active e = none) :
    takeLink h r e = some (h.vc.vlinkin, h.links.hold e h.vc.vlinkin) := by
  simp [takeLink, hq, hb]

/-- An element whose predecessor has stopped receives the value that it holds. -/
theorem takeLink_stopped {p : Nat} (hq : h.links.queue e = []) (hb : activeBelow h.links.active e = some p)
    (hs : (r.micros.any fun o => o.elem == p) = false) :
    takeLink h r e = some (h.links.heldOf p, h.links.hold e (h.links.heldOf p)) := by
  simp [takeLink, hq, hb, hs]

/-- An element whose predecessor runs waits for it. -/
theorem takeLink_waits {p : Nat} (hq : h.links.queue e = []) (hb : activeBelow h.links.active e = some p)
    (hs : (r.micros.any fun o => o.elem == p) = true) : takeLink h r e = none := by
  simp [takeLink, hq, hb, hs]

/-- A value that no element receives is held alone. -/
theorem putLink_unreceived (v : Word) (hn : ∀ p ∈ h.links.above r.vl e, (r.micros.any fun o => o.elem == p) = false) :
    putLink h r e v = some (h.links.hold e v) := by
  unfold putLink
  cases ha : h.links.above r.vl e with
  | none => rfl
  | some p => simp [hn p ha]

/-- A value whose receiver runs is queued toward it while its link has room. -/
theorem putLink_queued {p : Nat} (v : Word) (ha : h.links.above r.vl e = some p)
    (hs : (r.micros.any fun o => o.elem == p) = true) (hl : (h.links.queue p).length < 2) :
    putLink h r e v = some ((h.links.setQueue p (h.links.queue p ++ [v])).hold e v) := by
  simp [putLink, ha, hs, hl]

/-- A full link takes no value. -/
theorem putLink_full {p : Nat} (v : Word) (ha : h.links.above r.vl e = some p)
    (hs : (r.micros.any fun o => o.elem == p) = true) (hl : 2 ≤ (h.links.queue p).length) : putLink h r e v = none := by
  simp [putLink, ha, hs, Nat.not_lt.mpr hl]

end

/-! ## The instructions -/

/-- The full-empty qualifier of LD, by bits 3:2 of its fn13 (R112). -/
def loadQualifier (kind : Nat) : FeLoad :=
  match kind with
  | 0 => .plain
  | 1 => .fe
  | _ => .fec

theorem loadQualifier_eq_plain (kind : Nat) : loadQualifier kind = .plain ↔ kind = 0 := by
  match kind with
  | 0 => simp [loadQualifier]
  | 1 => simp [loadQualifier]
  | n + 2 => simp [loadQualifier]

theorem loadQualifier_eq_fec (kind : Nat) : loadQualifier kind = .fec ↔ ¬ (kind = 0 ∨ kind = 1) := by
  match kind with
  | 0 => simp [loadQualifier]
  | 1 => simp [loadQualifier]
  | n + 2 => simp [loadQualifier]

section
variable {s : State} {m : Micro} {r : Round} {f : BlockArgs}

/-- A micro-thread that has loaded stands at the next word; `.fec` alone has changed its granule (R113). -/
theorem stepped_afterLoad (s : State) (m : Micro) (r : Round) (pa kind : Nat) :
    (if loadQualifier kind = .fec then s.setFull pa false else s).stepped m r =
      if kind = 0 ∨ kind = 1 then s.stepped m r
      else { s.stepped m r with fullEmpty := Store.put false s.fullEmpty (pa / 16) false } := by
  by_cases hk : kind = 0 ∨ kind = 1
  · rw [if_pos hk, if_neg fun h => (loadQualifier_eq_fec kind).mp h hk]
  · rw [if_neg hk, if_pos ((loadQualifier_eq_fec kind).mpr hk)]
    rfl

/-- PF goes on, whether it executes or not and whatever it reads (R96, R114). -/
theorem exec_pf (hmt : s.hart.mt = some m) (hr : s.hart.round = some r) (hp : m.poison = none) :
    exec (.pf f) s = .next (s.stepped m r) := by
  show runBlock s .pf f (fun s _ _ => .next s) = _
  cases he : executes s.hart.vec m.elem f.pred with
  | false => exact runBlock_off _ hmt hr hp he
  | true => simp [runBlock, hmt, hr, hp, he, settleMicro, State.stepped]

/-- A micro-thread that writes its element in a state that its access or link has left completes with it there. -/
theorem settleMicro_writeBlock (op : BlockOp) (t : State) (v : Nat) (fl : Flags) (hlo : 15 ≤ r.log2vlen) (hhi : r.log2vlen ≤ 18)
    (hw : 0 < f.widthD op) (hw' : f.widthD op ≤ 128) (hd : f.d.val + m.elem / (r.vlen / f.widthD op) < 32) :
    ∃ u, settleMicro s m r (.next (writeBlock t op f r m.elem v fl)) = .next u ∧
      BlockWritten (t.stepped m r) u r.vlen (f.widthD op) m.elem f v fl := by
  obtain ⟨hb, hb'⟩ := r.vlen_bounds hlo hhi
  have hin := inFile_of_register_lt r.vlen f.d.val _ m.elem hw (hw'.trans hb) hb' hd
  rw [writeBlock_eq]
  exact ⟨_, rfl, rfl, elementWritten_writeX _ _ _ _ _ _ _ _ hin, Hart.unbind_streams _ _ hd⟩

/-- The answer of LD's access. -/
abbrev State.blockLoad (s : State) (f : BlockArgs) (m : Micro) (r : Round) : Elem :=
  elemLoad s s.agent { s.dataSpace with mode := r.mode } (elemAddr s .ld f r m.elem) (f.fmt.packed / 8) (f.fmt.packed / 8) false
    (loadQualifier (f.fn13.toNat / 4))

/-- LD writes what its access has read (R113). -/
theorem exec_ld_of_ok (hx : Executing s m r f) {v : Nat} {t : State} (h : s.blockLoad f m r = .ok v t) :
    exec (.ld f) s = settleMicro s m r (.next (writeBlock t .ld f r m.elem v 0#5)) := by
  show execLd f s = _
  rw [execLd, runBlock_on _ hx]
  dsimp only
  split <;> rename_i hgot <;> cases hgot.symm.trans h
  rfl

/-- LD whose access has to wait for a granule waits from now on, where it did not wait before (R113, R344). -/
theorem exec_ld_of_wait (hx : Executing s m r f) {g : Nat} (h : s.blockLoad f m r = .wait (some g)) (hm : m.waited = none) :
    exec (.ld f) s = .next (s.putRound (r.put { m with waited := some (s.cycle, g) })) := by
  have hwait : exec (.ld f) s = settleMicro s m r (.wait (some g)) := by
    show execLd f s = _
    rw [execLd, runBlock_on _ hx]
    dsimp only
    split <;> rename_i hgot <;> cases hgot.symm.trans h
    rfl
  rw [hwait]
  simp [settleMicro, waitSince, hm]

/-- ST to plain memory writes its bytes, and with `.fes` sets the bit of their granule (R113). -/
theorem exec_st_of_plainAs (hx : Executing s m r f) {pa : Nat}
    (h : s.plainAs r.mode .store (elemAddr s .st f r m.elem) (f.fmt.packed / 8) = some pa)
    (hfe : (f.fn13.toNat / 4 == 1) = true → hasFullEmpty s.bigMemory pa = true) :
    exec (.st f) s =
      let t := s.writeBytes (some s.hartId) pa (byteList (f.fmt.packed / 8) (blockIn s .st f r m.elem).c)
      settleMicro s m r (.next (if f.fn13.toNat / 4 == 1 then t.setFull pa true else t)) := by
  show execSt f s = _
  rw [execSt, runBlock_on _ hx]
  dsimp only
  rw [roundSpace, elemStore_of_plainAs h _ _ hfe]

/-- LGET writes the value that its link gives, and leaves the links after it (R116). -/
theorem exec_lget_of_some (hx : Executing s m r f) {v : Word} {l : Links} (h : takeLink s.hart r m.elem = some (v, l)) :
    exec (.lget f) s =
      settleMicro s m r (.next (writeBlock { s with hart := { s.hart with links := l } } .lget f r m.elem v.toNat 0#5)) := by
  show execLget f s = _
  rw [execLget, runBlock_on _ hx]
  rw [h]

/-- LGET waits at its word where its link gives nothing (R116). -/
theorem exec_lget_of_none (hx : Executing s m r f) (h : takeLink s.hart r m.elem = none) :
    exec (.lget f) s = .next (s.putRound (r.put { m with waited := none })) := by
  show execLget f s = _
  rw [execLget, runBlock_on _ hx]
  rw [h]
  rfl

/-- LPUT leaves the links with its value passed on (R116). -/
theorem exec_lput_of_some (hx : Executing s m r f) {l : Links}
    (h : putLink s.hart r m.elem (BitVec.ofNat 64 (blockIn s .lput f r m.elem).a) = some l) :
    exec (.lput f) s = .next { s.stepped m r with hart := { (s.stepped m r).hart with links := l } } := by
  show execLput f s = _
  rw [execLput, runBlock_on _ hx]
  rw [h]
  rfl

/-- LPUT waits at its word where its link takes nothing (R116, R348). -/
theorem exec_lput_of_none (hx : Executing s m r f)
    (h : putLink s.hart r m.elem (BitVec.ofNat 64 (blockIn s .lput f r m.elem).a) = none) :
    exec (.lput f) s = .next (s.putRound (r.put { m with waited := none })) := by
  show execLput f s = _
  rw [execLput, runBlock_on _ hx]
  rw [h]
  rfl

end

/-- Settles O35: LD, ST and PF by what their accesses answer in plain memory, LGET and LPUT by what their links give and take. -/
theorem blockAccesses : Obligations.BlockAccesses := by
  unfold Obligations.BlockAccesses
  intro s f m r hmt hr hp
  refine ⟨exec_pf hmt hr hp, fun hc he hlo hhi => ?_⟩
  have hx : Executing s m r f := ⟨hmt, hr, hp, hc, he⟩
  have hslot := f.fmt.slot_le.trans (by decide : 64 ≤ 128)
  intro e n va base waits
  refine ⟨fun _ hd => ⟨rfl, fun pa hpa => ⟨fun hready => ?loads, fun hkind hfe hempty hm => ?waits⟩⟩, fun _ pa hpa => ?stores,
    fun _ hd => ?gets, fun _ => ?puts⟩
  case loads =>
    have hload := elemLoad_of_plainAs hpa (loadQualifier (f.fn13.toNat / 4)) (hready.imp_left (loadQualifier_eq_plain _).mpr)
    obtain ⟨u, hu, hwritten⟩ := settleMicro_writeBlock (s := s) .ld _ _ 0#5 hlo hhi f.fmt.slot_pos hslot hd
    exact ⟨u, (exec_ld_of_ok hx hload).trans hu, stepped_afterLoad s m r pa _ ▸ hwritten⟩
  case waits =>
    exact exec_ld_of_wait hx (elemLoad_of_empty hpa (mt (loadQualifier_eq_plain _).mp hkind) hfe hempty) hm
  case stores =>
    intro fes hfe
    refine ⟨_, exec_st_of_plainAs hx hpa hfe, ?_⟩
    dsimp only [fes]
    split
    · exact ⟨rfl, rfl⟩
    · exact ⟨rfl, rfl⟩
  case gets =>
    have gets (v : Word) (l : Links) (hl : takeLink s.hart r e = some (v, l.hold e v)) :
        ∃ u, exec (.lget f) s = .next u ∧
          BlockWritten { base with hart := { base.hart with links := l.hold e v } } u r.vlen f.fmt.slot e f v.toNat 0#5 := by
      obtain ⟨u, hu, hwritten⟩ := settleMicro_writeBlock (s := s) .lget { s with hart := { s.hart with links := l.hold e v } }
        v.toNat 0#5 hlo hhi f.fmt.slot_pos hslot hd
      exact ⟨u, (exec_lget_of_some hx hl).trans hu, hwritten⟩
    exact ⟨fun v hv => gets v _ (takeLink_queued hv), fun hq hb => gets _ _ (takeLink_first hq hb), fun hq p hb =>
      ⟨fun hs => gets _ _ (takeLink_stopped hq hb hs), fun hs => exec_lget_of_none hx (takeLink_waits hq hb hs)⟩⟩
  case puts =>
    refine ⟨fun ha => exec_lput_of_some hx (putLink_unreceived _ ?_), fun p ha => ⟨fun hs => ?_, fun hs hl => ?_, fun hs hl => ?_⟩⟩
    · exact fun q hq => by cases ha.symm.trans hq
    · exact exec_lput_of_some hx (putLink_unreceived _ fun q hq => by cases ha.symm.trans hq; exact hs)
    · exact exec_lput_of_some hx (putLink_queued _ ha hs hl)
    · exact exec_lput_of_none hx (putLink_full _ ha hs hl)

end Sys2Proof.Machine
end

section
/-!
The obligations on vector stores and on segment accesses, which fail as that on packed accesses does: their store clauses hold `poison`
unchanged in every state, also in `listedUnpoisoned`, whose poison table lists the line at X[10] with the value `false`. The elements of
that line are plain, and a store that covers it removes the entry. No canonical table lists one: nothing is said here of the states
within `Canonical`.
-/

namespace Sys2Proof.Machine

/-- A vector type of bytes. -/
def byteType : VType := ⟨.i8, 0, 0, false, false, false, 0⟩

/-- The hart of `listedUnpoisoned` with 64 elements of a byte, which fill the line at X[10]. -/
def listedUnpoisonedBytes : State :=
  { listedUnpoisoned with hart := { listedUnpoisoned.hart with
      vc := { listedUnpoisoned.hart.vc with vtype := some byteType, vl := 64 } } }

/-- The hart is ready. -/
theorem listedUnpoisonedBytes_ready : Ready listedUnpoisonedBytes byteType := by decide +kernel

/-- The stores of its elements from register 4, one after another from X[10] on, are all to plain memory. -/
theorem listedUnpoisonedBytes_storeAll :
    (listedUnpoisonedBytes.storeAll ((listedUnpoisonedBytes.work none).map fun k =>
      (listedUnpoisonedBytes.x 10 + BitVec.ofNat 64 (k * byteType.bytes), byteType.bytes, fun _ => listedUnpoisonedBytes.element byteType 4 k))).isSome = true := by
  decide +kernel

/-- VSE removes the entry of the line. -/
theorem poisonAfter_vse_bytes : poisonAfter (exec (.vse 4 10 false false none) listedUnpoisonedBytes) = some [] := by decide +kernel

/-- VSSEG of one field removes it too. -/
theorem poisonAfter_vsseg : poisonAfter (exec (.vsseg 4 10 0 none) listedUnpoisonedBytes) = some [] := by decide +kernel

/-- An instruction that removes the entry is no store as `Stored` has it, which keeps the poison table. -/
theorem not_stored_of_poisonAfter {r : Result} {base : State} {places : State × List (Nat × Nat)} {fes : Bool}
    (h : poisonAfter r = some []) : ¬ ∃ u, r = .next u ∧ Stored listedUnpoisonedBytes base u places fes := by
  rintro ⟨u, rfl, -, -, -, -, poison, -⟩
  have emptied : u.poison = [] := Option.some.inj h
  exact absurd (poison.symm.trans emptied) (by decide)

/-- Refutes O19: VSE of 64 bytes over a line that the poison table lists with the value `false` empties the table, where the statement,
which does not ask for a canonical state, has it unchanged. -/
theorem not_vectorStores : ¬ Obligations.VectorStores := by
  rintro ⟨stores, -⟩
  obtain ⟨unit, -⟩ := stores listedUnpoisonedBytes byteType 4 4 10 10 false false none listedUnpoisonedBytes_ready (by decide) (by decide)
  exact not_stored_of_poisonAfter poisonAfter_vse_bytes (unit listedUnpoisonedBytes_storeAll (by simp))

/-- Refutes O18: VSSEG of 64 segments of one byte over such a line empties the table. -/
theorem not_segmentAccesses : ¬ Obligations.SegmentAccesses := by
  rintro ⟨-, -, stores⟩
  obtain ⟨segments, -⟩ := stores listedUnpoisonedBytes byteType 4 10 10 0 0 none listedUnpoisonedBytes_ready
  exact not_stored_of_poisonAfter poisonAfter_vsseg (segments (by decide) (by decide) (by decide +kernel))

end Sys2Proof.Machine
end

section
/-!
The obligation on the conditions of loads, which fails: its clause on `.fec` has the granule of every active element emptied, one element
after another, where the model empties a granule once, with the first of its elements (R132). In a full-empty table that lists a granule
twice, each emptying removes one entry. No canonical table does so: nothing is said here of the states within `Canonical`.
-/

namespace Sys2Proof.Machine

/-- A ready hart in M-mode with two elements of a byte in the first granule of its TCM, which the full-empty table lists twice. -/
def listedTwice : State :=
  { State.reset with
    ready := [(0, BitVec.allOnes 64)]
    fullEmpty := [(tcmBase / 16, true), (tcmBase / 16, true)]
    hart := { Hart.reset with
      live := true
      lanes := ⟨[0], [], [], []⟩
      x := Hart.reset.x.set 10 (BitVec.ofNat 64 tcmBase)
      vc := { VecCsrs.reset with vtype := some byteType, vl := 2 } } }

/-- The hart is ready. -/
theorem listedTwice_ready : Ready listedTwice byteType := by decide +kernel

/-- Its full-empty table is not in canonical form. -/
theorem listedTwice_not_canonical : ¬ Canonical listedTwice := by
  rintro ⟨-, -, -, full, -⟩
  exact absurd full (by decide)

/-- The address of an element. -/
def listedTwiceAddr (k : Nat) : Word := listedTwice.x 10 + BitVec.ofNat 64 (k * byteType.bytes)

/-- Both elements lie in plain memory. -/
theorem listedTwice_loadable : Loadable listedTwice none listedTwiceAddr byteType.bytes := by decide +kernel

/-- Both lie in the granule that is listed, which is full. -/
theorem listedTwice_full : ∀ k ∈ listedTwice.work none,
    let granule := (listedTwice.plain .load (listedTwiceAddr k) byteType.bytes).getD 0 / 16
    hasFullEmpty listedTwice.bigMemory (granule * 16) = true ∧ Store.get false listedTwice.fullEmpty granule = true := by decide +kernel

/-- The full-empty table after an instruction. -/
def fullEmptyAfter (r : Result) : Option (List (Nat × Bool)) :=
  match r with
  | .next u => some u.fullEmpty
  | _ => none

/-- The load empties the granule once. -/
theorem fullEmptyAfter_vle : fullEmptyAfter (exec (.vle 4 10 false .fec false none) listedTwice) = some [(tcmBase / 16, true)] := by
  decide +kernel

/-- Emptied with each of its elements, the granule is listed no more. -/
theorem listedTwice_emptied : (listedTwice.work none).foldl
    (fun f k => Store.put false f ((listedTwice.plain .load (listedTwiceAddr k) byteType.bytes).getD 0 / 16) false)
    listedTwice.fullEmpty = [] := by decide +kernel

/-- Refutes O17: VLE with `.fec` of two bytes of a granule that the full-empty table lists twice leaves one of the entries, where the
statement, which does not ask for a canonical state, has none left. -/
theorem not_loadConditions : ¬ Obligations.LoadConditions := by
  rintro ⟨loads, -⟩
  obtain ⟨u, hu, -, -, -, -, -, -, -, emptied, -⟩ :=
    loads listedTwice byteType 4 10 false false true none listedTwice_ready (by decide) (by decide) listedTwice_loadable listedTwice_full
  rw [if_pos rfl] at hu
  have left := fullEmptyAfter_vle
  rw [hu] at left
  have none_left : u.fullEmpty = [] := emptied.trans listedTwice_emptied
  exact absurd (none_left.symm.trans (Option.some.inj left)) (by decide)

end Sys2Proof.Machine
end

section
/-!
The obligation on the events of copies, which fails in a canonical state: its clause on COPY_COMPLETE asks where the first byte of the
source and that of the destination lie, and takes their pages to be like them. A page that is being moved is refused from MIGSRC on, and
MIGSRC may be written while a move is DONE (notes/assumptions/28.md), with an address that begins no page: then the first bytes of a page
are not refused, and later ones are. A copy that runs down from its last byte waits there.
-/

namespace Sys2Proof.Machine

/-- A copy of three bytes, from 0x100000 to two bytes above, so that it runs down from its last byte. -/
def overlappingCopy : Copy :=
  { id := 0, hart := 0, space := ⟨0#64, .m, false, false, 0#5, 0⟩, pc := 0#64, kind := .onDevice, src := 0x100000#64, dst := 0x100002#64,
    count := 3, done := 0, dev := 0#21, key := 0#32, regs := (10, 11), bar := none, pending := 0, written := false, held := none }

/-- A state with that copy. The migration block of die 0 refuses 4 KiB from 0x100004 on, where the last byte of the destination lies. -/
def refusedLastByte : State :=
  { State.reset with
    ready := [(16, BitVec.allOnes 64)]
    copies := [overlappingCopy]
    migrations := [(0, ⟨0x100004#64, 0x200000#64, 0, true, false⟩)] }

/-- The state is canonical. -/
theorem refusedLastByte_canonical : Canonical refusedLastByte := by
  unfold Canonical
  decide +kernel

/-- The first byte of the source is in memory. -/
theorem translate_overlappingCopy_src :
    translate refusedLastByte (.engine (clusterOf overlappingCopy.hart)) overlappingCopy.space .load overlappingCopy.src = .ok 0x100000 false := by
  decide +kernel

/-- The first byte of the destination is in memory. -/
theorem translate_overlappingCopy_dst :
    translate refusedLastByte (.engine (clusterOf overlappingCopy.hart)) overlappingCopy.space .store overlappingCopy.dst = .ok 0x100002 false := by
  decide +kernel

/-- The copies left after an event. -/
def copiesAfter (r : Result) : Option (List Copy) :=
  match r with
  | .next u => some u.copies
  | _ => none

/-- COPY_COMPLETE leaves the copy as it is. -/
theorem copiesAfter_copyComplete : copiesAfter (exec (.copyComplete overlappingCopy.id) refusedLastByte) = some [overlappingCopy] := by decide +kernel

/-- Refutes O44: COPY_COMPLETE of a copy that runs down from a byte whose page is refused does not end the copy, where the statement, which
asks about the first bytes of its pages alone, has it gone. -/
theorem not_copyEvents : ¬ Obligations.CopyEvents := by
  intro h
  obtain ⟨completes, -⟩ := h refusedLastByte overlappingCopy (List.mem_singleton.mpr rfl) fun o ho _ => List.mem_singleton.mp ho
  obtain ⟨u, hu, ended, -⟩ := completes rfl rfl rfl rfl rfl (by decide) rfl (by decide) (by decide)
    0x100000 (by dsimp only; rw [translate_overlappingCopy_src]; rfl) 0x100002 (by dsimp only; rw [translate_overlappingCopy_dst]; rfl)
    (.inr (.inr (by decide)))
  have left := copiesAfter_copyComplete
  rw [hu] at left
  have gone : u.copies = [] := congrArg State.copies ended
  exact absurd (gone.symm.trans (Option.some.inj left)) (by decide)

end Sys2Proof.Machine
end

section
/-!
Queued instructions of every class that `vqpos` counts, issued on an idle hart (R59, R63, R254), and what translation goes by (R272 to
R277, R353): the rules that the proofs about vector memory instructions share.
-/

namespace Sys2Proof.Machine

/-! ## Issue -/

/-- The instructions of a class enter the vector queue and are counted by `vqpos` (R63, R254). -/
def QClass.counted : QClass → Bool
  | .matrix | .rows | .marker => false
  | _ => true

/-- A hart with the data of another: the vector side's registers, flags, index table and streams. -/
def Hart.takeData (base h : Hart) : Hart :=
  { base with vec := h.vec, vc := { base.vc with vxflags := h.vc.vxflags }, ixt := h.ixt, streams := h.streams }

/-- A counted instruction that has been performed on an idle hart, and has changed no more of the hart than data, completes: its slot, its
count and `vstart` are as R59, R63 and R254 say. -/
theorem settle_done (s : State) (i : Instr) (c : Cap) (q : QClass) (t : State) (hq : q.counted = true) (hi : s.hart.idle = true)
    (ht : t.hart = (s.entered i c q).hart.takeData t.hart) :
    settle q (s.hart.entry i c q) (.ok t) = .next { t with hart := (s.issued q.usesStart true).hart.takeData t.hart } := by
  rw [Hart.idle_iff] at hi
  obtain ⟨hreplay, hvq, -, -, -, -, -, -, -, hsread, hwait, -⟩ := hi
  have retired : retireEntry [s.hart.entry i c q] s.hart.seq = [] := by simp [retireEntry, Hart.entry]
  have seq : (s.hart.entry i c q).seq = s.hart.seq := rfl
  unfold settle
  dsimp only
  rw [ht]
  cases q with
  | matrix | rows | marker => contradiction
  | vector | free | prefetch | copy =>
    simp [Hart.retire, QClass.usesStart, QClass.inMatrix, Hart.takeData, State.entered, Hart.push, State.issued, Hart.goTo, retired, hvq,
      hreplay, hsread, hwait, seq]

/-- ISSUE on an idle hart of an instruction that is performed and leaves its hart but for data: it completes. -/
theorem issue_done (s : State) (i : Instr) (c : Cap) (q : QClass) (act : QEntry → State → VecRes) (t : State)
    (hq : q.counted = true) (hp : Prompt s) (hact : act (s.hart.entry i c q) (s.entered i c q) = .ok t)
    (ht : t.hart = (s.entered i c q).hart.takeData t.hart) :
    issue s i true q c act = .next { t with hart := (s.issued q.usesStart true).hart.takeData t.hart } := by
  rw [issue_idle s i q c act hp.1 hp.2, hact, settle_done s i c q t hq hp.1 ht]

/-- A condition that holds of the current type. -/
theorem legalUnder_true (s : State) (p : VType → Bool) (t : VType) (ht : s.hart.vc.vtype = some t) (h : p t = true) :
    legalUnder s p = true := by
  simp [legalUnder, ht, h]

/-- The accesses of an entry are made in the space of the data of the hart that issues it. -/
theorem State.entered_entrySpace (s : State) (i : Instr) (c : Cap) (q : QClass) :
    (s.entered i c q).entrySpace (s.hart.entry i c q) = s.dataSpace := by
  have push : (s.hart.push q (s.hart.entry i c q)).csr = s.hart.csr := by cases q <;> rfl
  have mode : (s.hart.entry i c q).mode = s.hart.dataMode := rfl
  simp [State.entrySpace, State.dataSpace, State.entered, Csrs.sum, Csrs.mxr, push, mode]

/-! ## The physical map -/

/-- Two states with one physical map: memory, its poison and readiness, the links and the moves of pages. -/
structure SameMap (s t : State) : Prop where
  memory : t.memory = s.memory
  poison : t.poison = s.poison
  big : t.bigMemory = s.bigMemory
  ready : t.ready = s.ready
  links : t.links = s.links
  migrations : t.migrations = s.migrations

theorem SameMap.poisoned {s t : State} (h : SameMap s t) (pa : Nat) : t.poisoned pa = s.poisoned pa := by
  rw [State.poisoned, h.poison]; rfl

theorem SameMap.memoryReady {s t : State} (h : SameMap s t) (pa : Nat) : t.memoryReady pa = s.memoryReady pa := by
  unfold State.memoryReady State.dieWord State.clusterWord
  rw [h.big, h.ready]

theorem SameMap.routeTo {s t : State} (h : SameMap s t) (a : Agent) (p : Phys) : t.routeTo a p = s.routeTo a p := by
  unfold State.routeTo State.route State.crossing State.linkOpen State.link State.dieWord
  rw [h.links, h.ready]

theorem SameMap.refusesMoved {s t : State} (h : SameMap s t) (pa : Nat) : t.refusesMoved pa = s.refusesMoved pa := by
  rw [State.refusesMoved, h.migrations]; rfl

theorem SameMap.walk {s t : State} (h : SameMap s t) (a : Agent) (sp : Space) (acc : Access) (va level table : Nat) :
    walk t a sp acc va level table = walk s a sp acc va level table := by
  induction level generalizing table with
  | zero => rfl
  | succ level ih => simp only [Machine.walk, h.big, h.memory, h.memoryReady, h.poisoned, h.routeTo, ih]

/-- Translation goes by the physical map alone. -/
theorem SameMap.translate {s t : State} (h : SameMap s t) (a : Agent) (sp : Space) (acc : Access) (va : Word) :
    translate t a sp acc va = translate s a sp acc va := by
  simp only [Machine.translate, pageTables, h.walk, h.big, h.memoryReady, h.routeTo, h.refusesMoved]

/-- Entering an instruction leaves the physical map. -/
theorem State.sameMap_entered (s : State) (i : Instr) (c : Cap) (q : QClass) : SameMap s (s.entered i c q) :=
  ⟨rfl, rfl, rfl, rfl, rfl, rfl⟩

end Sys2Proof.Machine
end

section
/-!
O22: VCOPY (R144, R147, R238, R239, R388), and barrier objects in memory.
-/

namespace Sys2Proof.Machine

/-! ## Barrier objects -/

/-- Bytes written one list after another. -/
theorem Memory.writeBytes_append (m : List Host.Cell) (pa : Nat) (xs ys : List Byte) :
    Memory.writeBytes m pa (xs ++ ys) = Memory.writeBytes (Memory.writeBytes m pa xs) (pa + xs.length) ys := by
  induction xs generalizing m pa with
  | nil => rfl
  | cons x xs ih =>
    rw [List.cons_append, Memory.writeBytes, ih, Memory.writeBytes, List.length_cons, Nat.add_right_comm pa 1]
    rfl

/-- Two words written one after another are read back. -/
theorem Memory.readNum_writeWords (m : List Host.Cell) (pa x y : Nat) (h : Memory.wf m = true) :
    let m' := Memory.writeBytes m pa (byteList 8 x ++ byteList 8 y)
    Memory.readNum m' pa 8 = x % 256 ^ 8 ∧ Memory.readNum m' (pa + 8) 8 = y % 256 ^ 8 := by
  intro m'
  have hm : m' = Memory.writeNum (Memory.writeNum m pa 8 x) (pa + 8) 8 y := by
    have := Memory.writeBytes_append m pa (byteList 8 x) (byteList 8 y)
    rwa [byteList_length] at this
  have first : Memory.readNum m' pa 8 = Memory.readNum (Memory.writeNum m pa 8 x) pa 8 := by
    rw [hm, Memory.readNum, Memory.writeNum, Memory.readBytes_writeBytes_ne _ _ _ _ _ (.inl (Nat.le_refl _))]
    rfl
  exact ⟨first.trans (Memory.readNum_writeNum _ _ _ _ h), hm ▸ Memory.readNum_writeNum _ _ _ _ (Memory.wf_writeNum _ _ _ _ h)⟩

/-- The fields of a barrier object fit their places (R238). -/
structure Barrier.Fits (b : Barrier) : Prop where
  expect : b.expect < 65536
  arrived : b.arrived < 65536
  pending : b.pending < 2 ^ 36

/-- An object in memory fits. -/
theorem State.barrier_fits (s : State) (pa : Nat) : (s.barrier pa).Fits :=
  ⟨Nat.mod_lt _ (by decide), Nat.mod_lt _ (by decide), Nat.mod_lt _ (by decide)⟩

/-- An object written is read back. -/
theorem State.barrier_of_written (s t : State) (pa : Nat) (b : Barrier) (hm : Memory.wf s.memory = true) (hb : b.Fits)
    (ht : t.memory = Memory.writeBytes s.memory pa b.bytes) : t.barrier pa = b := by
  obtain ⟨expect, arrived, gen, err, pending⟩ := b
  obtain ⟨hexpect, harrived, hpending⟩ := hb
  dsimp only at hexpect harrived hpending
  obtain ⟨hw, hp⟩ := Memory.readNum_writeWords s.memory pa
    (err.toNat * 2 ^ 33 + gen.toNat * 2 ^ 32 + arrived % 65536 * 65536 + expect % 65536) (pending % 2 ^ 36) hm
  have hgen := gen.toNat_lt
  have herr := err.toNat_lt
  rw [State.barrier, ht, Barrier.bytes, hw, hp]
  simp only [getField, BitVec.toNat_ofNat, BitVec.getLsbD_ofNat, Nat.testBit_eq_decide_div_mod_eq, Barrier.mk.injEq]
  refine ⟨by omega, by omega, ?_, ?_, by omega⟩
  · rw [show _ / 2 ^ 32 % 2 = gen.toNat by omega]
    cases gen <;> rfl
  · rw [show _ / 2 ^ 33 % 2 = err.toNat by omega]
    cases err <;> rfl

/-- An object that keeps its generation is written, and no wait on it sees a release. -/
theorem State.setBarrier_of_gen (s : State) (owner : Option Nat) (pa : Nat) (b : Barrier) (h : b.gen = (s.barrier pa).gen) :
    s.setBarrier owner pa b = s.writeBytes owner pa b.bytes := if_pos h

/-- An object takes 16 bytes. -/
theorem Barrier.bytes_length (b : Barrier) : b.bytes.length = 16 := by simp [Barrier.bytes]

/-! ## VCOPY -/

/-- The x registers that VCOPY captures. -/
def copyCap (d a b : XReg) (kind : CopyKind) (bar : Bool) : Cap :=
  { d := some d, d1 := if kind = .put then some (pairOf d) else none, a := some a,
    a1 := if kind = .get then some (pairOf a) else none, b := some b, b1 := if bar then some (pairOf b) else none }

/-- The entry of a VCOPY issued now. -/
abbrev State.vcopyEntry (s : State) (d a b : XReg) (kind : CopyKind) (bar : Bool) : QEntry :=
  s.hart.entry (.vcopy d a b kind bar) (copyCap d a b kind bar) .copy

/-- The state in which it is performed. -/
abbrev State.vcopyEntered (s : State) (d a b : XReg) (kind : CopyKind) (bar : Bool) : State :=
  s.entered (.vcopy d a b kind bar) (copyCap d a b kind bar) .copy

section
variable {s : State} {d a b : XReg} {kind : CopyKind} {bar : Bool}

/-- VCOPY is performed as it is issued, and completes where it leaves its hart as it is. -/
theorem exec_vcopy (hp : Prompt s) (ht : s.hart.vc.vtype ≠ none) (t : State)
    (hact : doVcopy d a b kind bar (s.vcopyEntry d a b kind bar) (s.vcopyEntered d a b kind bar) = .ok t)
    (hh : t.hart = (s.vcopyEntered d a b kind bar).hart) :
    exec (.vcopy d a b kind bar) s = .next { t with hart := (s.issued false true).hart } := by
  obtain ⟨ty, hty⟩ := Option.ne_none_iff_exists'.mp ht
  show issue s _ (legalUnder s fun _ => true) .copy (copyCap d a b kind bar) (doVcopy d a b kind bar) = _
  rw [legalUnder_true s _ ty hty rfl, issue_done s _ _ .copy _ t rfl hp hact (by rw [hh]; rfl), hh]
  rfl

/-- What a VCOPY does once its copy engine is ready and its length is one that it can count. -/
theorem doVcopy_ready (e : QEntry) (hr : s.engineReady (clusterOf s.hartId) = true) (hl : e.xb.toNat < 2 ^ 36) :
    (e.xb = 0#64 → doVcopy d a b kind bar e s = .ok s) ∧
    (e.xb ≠ 0#64 → doVcopy d a b kind false e s = .ok (s.accept (e.copy s d a kind none))) ∧
    (e.xb ≠ 0#64 → ∀ pa, e.xb1.toNat % 32 = 0 →
      translate s (.engine (clusterOf s.hartId)) (s.entrySpace e) .store e.xb1 = .ok pa false → s.poisoned pa = false →
      (s.barrier pa).pending + e.xb.toNat < 2 ^ 36 →
      doVcopy d a b kind true e s =
        .ok ((s.writeBytes none pa ({ s.barrier pa with pending := (s.barrier pa).pending + e.xb.toNat } : Barrier).bytes).accept
          (e.copy s d a kind (some (e.xb1, pa))))) := by
  refine ⟨fun h0 => ?_, fun h0 => ?_, fun h0 pa hal htr hpo hlt => ?_⟩
  · simp [doVcopy, hr, h0]
  · simp only [doVcopy, hr, h0, Nat.not_le.mpr hl, Bool.not_true, Bool.not_false, Bool.false_eq_true, if_false, if_true]
  · rw [← State.setBarrier_of_gen s none pa { s.barrier pa with pending := (s.barrier pa).pending + e.xb.toNat } rfl]
    simp only [doVcopy, hr, h0, Nat.not_le.mpr hl, hal, htr, hpo, Nat.not_le.mpr hlt, Bool.not_true, Bool.false_eq_true, if_false,
      ne_eq, not_true_eq_false]

end

/-- Settles O22: the copy is handed over with the operands that its entry has captured, and a barrier object is read back as it is
written. -/
theorem copyHandOff : Obligations.CopyHandOff := by
  intro s d a b kind hp ht hr hl count pair copy base
  have desc (bar : Bool) (obj : Option (Word × Nat)) :
      (s.vcopyEntry d a b kind bar).copy (s.vcopyEntered d a b kind bar) d a kind obj = copy obj := by
    unfold QEntry.copy
    rw [State.entered_entrySpace]
    cases kind
    case onDevice => simp [copy, Hart.entry, copyCap, State.entered, State.x, count]
    case put | get => rfl
  have ready (bar : Bool) := doVcopy_ready (s := s.vcopyEntered d a b kind bar) (d := d) (a := a) (b := b) (kind := kind) (bar := bar)
    (s.vcopyEntry d a b kind bar) hr hl
  refine ⟨fun bar _ h0 => ?none, fun h0 => ?untagged, fun h0 => ?tagged⟩
  case none =>
    refine ⟨_, exec_vcopy hp ht _ ((ready bar).1 h0) rfl, ?_⟩
    exact ⟨rfl, ⟨rfl, rfl, rfl, rfl⟩, ⟨rfl, rfl⟩, ⟨rfl, rfl⟩, rfl⟩
  case untagged =>
    refine ⟨_, exec_vcopy hp ht _ ((ready false).2.1 h0) rfl, ?_⟩
    rw [desc]
    exact ⟨rfl, ⟨rfl, rfl, rfl, rfl⟩, ⟨rfl, rfl⟩, ⟨rfl, rfl⟩, rfl⟩
  case tagged =>
    intro va object pa hpa hcan hal hpo hlt
    have htr : translate s (.engine (clusterOf s.hartId)) s.dataSpace .store va = .ok pa false := by
      unfold object at hpa
      split at hpa <;> cases hpa
      assumption
    obtain ⟨o, ho⟩ : ∃ o : Barrier, o = { s.barrier pa with pending := (s.barrier pa).pending + count } := ⟨_, rfl⟩
    -- its bytes stay folded: a check that unfolds the write of 16 bytes takes too long
    obtain ⟨bytes, hbytes⟩ : ∃ bytes, bytes = o.bytes := ⟨_, rfl⟩
    have hact : doVcopy d a b kind true (s.vcopyEntry d a b kind true) (s.vcopyEntered d a b kind true) =
        .ok (((s.vcopyEntered d a b kind true).writeBytes none pa bytes).accept (copy (some (va, pa)))) := by
      rw [hbytes, ho, ← desc true]
      exact (ready true).2.2 h0 pa hal
        (by rw [State.entered_entrySpace]; exact ((s.sameMap_entered _ _ _).translate ..).trans htr) hpo hlt
    refine ⟨_, exec_vcopy hp ht _ hact rfl, rfl, rfl, ⟨rfl, rfl⟩, ⟨rfl, rfl⟩, rfl, rfl, fun at' hat => ?_, ?_⟩
    · have outside := hat _ (List.mem_singleton.mpr rfl)
      exact Memory.readByte_writeBytes_ne bytes s.memory pa at' (by rw [hbytes, Barrier.bytes_length]; omega)
    · have fits : o.Fits := ho ▸ ⟨(s.barrier_fits pa).expect, (s.barrier_fits pa).arrived, hlt⟩
      obtain ⟨-, -, hmem, -⟩ := hcan
      exact (State.barrier_of_written s _ pa o hmem fits (hbytes ▸ rfl)).trans ho

end Sys2Proof.Machine
end

section
/-!
Loads of elements from plain memory (R126 to R129): what an access answers, and what a walk that loads its active elements leaves in a
destination group.
-/

namespace Sys2Proof.Machine

/-! ## Accesses of an entry -/

/-- In the state `u` the accesses of an entry meet what the data accesses of the hart meet in `s`. -/
structure Sees (s u : State) (e : QEntry) : Prop where
  map : SameMap s u
  hartId : u.hartId = s.hartId
  space : u.entrySpace e = s.dataSpace

theorem State.sees_entered (s : State) (i : Instr) (c : Cap) (q : QClass) : Sees s (s.entered i c q) (s.hart.entry i c q) :=
  ⟨s.sameMap_entered i c q, rfl, s.entered_entrySpace i c q⟩

theorem Sees.setVec {s u : State} {e : QEntry} (h : Sees s u e) (f : VecFile) : Sees s (u.setVec f) e := by
  obtain ⟨⟨hmem, hpoison, hbig, hready, hlinks, hmig⟩, hid, hspace⟩ := h
  exact ⟨⟨hmem, hpoison, hbig, hready, hlinks, hmig⟩, hid, hspace⟩

/-- A load of plain memory answers the number that lies there, whether it demands idempotent memory or not. -/
theorem Sees.elemLoad {s u : State} {e : QEntry} (h : Sees s u e) {va : Word} {n : Nat} (hp : (s.plain .load va n).isSome = true)
    (idem : Bool) : elemLoad u u.agent (u.entrySpace e) va n n idem .plain = .ok (s.loaded va n) u := by
  obtain ⟨pa, hpa⟩ := Option.isSome_iff_exists.mp hp
  obtain ⟨hn, ht, hd, hpo⟩ := State.plainAs_eq_some hpa
  have ht' : translate u u.agent (u.entrySpace e) .load va = .ok pa false := by
    rw [h.map.translate, h.space, State.agent, h.hartId]
    exact ht
  simp [Machine.elemLoad, hn, ht', hd, hpo, h.map.big, h.map.poisoned, h.map.memory, State.loaded, hpa]

/-- A load of one element of plain memory writes its bytes into its slot. -/
theorem Sees.loadTo {s u : State} {e : QEntry} (h : Sees s u e) (t : VType) (d : VName) (operand : Option (Nat × Nat)) (k : Nat)
    {va : Word} (hp : (s.plain .load va t.bytes).isSome = true) (idem : Bool) (c : Option Nat) :
    loadTo u e t d operand k va idem .plain c = .go c (u.putElem e t d k (s.loaded va t.bytes)) := by
  rw [Machine.loadTo, h.elemLoad hp]
  rfl

/-! ## A walk over elements -/

section
variable {s : State} {e : QEntry} {t : VType} {d : VName} {m : Option MName} {lo : Nat} {val : Nat → Nat}

/-- The masks are as they were. -/
theorem Done.active {hi : Nat} {f : VecFile} (h : Done s e t d m lo hi (fun _ => val) f) (k : Nat) :
    f.active m k = s.hart.vec.active m k := by
  rw [h.rest]
  cases m <;> rfl

/-- An element of a group apart from the destination is as it was. -/
theorem Done.elem_apart {hi : Nat} {f : VecFile} (h : Done s e t d m lo hi (fun _ => val) f) (hv : e.vlen = s.hart.vlen)
    (hm : e.vl ≤ e.vlmax t) (b : VName) (hb : t.groupAt b = true) (hdb : t.meet d b = false) (k : Nat) (hk : k < e.vl) :
    f.elem e.vlen b.val t.sew k = s.hart.vec.elem e.vlen b.val t.sew k := by
  have hin := (element_inFile s t b k t.mul hb (by unfold QEntry.vlmax at hm; rw [hv] at hm; omega)).2
  have hb' := hb
  simp only [VType.groupAt, groupOk, decide_eq_true_eq] at hb'
  exact Machine.elem_apart _ _ _ t.mul t.mul _ _ d b hdb (hv ▸ hin) hb'.2 h.outside

variable {α : Type}

/-- One element of a load: it is loaded where it is active, and follows MP where not. -/
def loadBody (e : QEntry) (t : VType) (d : VName) (m : Option MName) (load : Nat → α → State → Did α) (k : Nat) (a : α) (s : State) :
    Did α :=
  if s.hart.vec.active m k then load k a s else .go a (s.inactive e t d k)

/-- What is carried from element to element is good at each, and an active element whose turn it is loads its value. -/
def Loads (s : State) (e : QEntry) (t : VType) (d : VName) (m : Option MName) (val : Nat → Nat) (good : Nat → α → Prop)
    (load : Nat → α → State → Did α) : Prop :=
  ∀ k a f, e.start ≤ k → k < e.vl → good k a → Done s e t d m e.start k (fun _ => val) f →
    (s.hart.vec.active m k = false → good (k + 1) a) ∧
    (s.hart.vec.active m k = true → ∃ a', good (k + 1) a' ∧ load k a (s.setVec f) = .go a' ((s.setVec f).putElem e t d k (val k)))

/-- A walk that loads performs its elements. -/
theorem forElems_loads {good : Nat → α → Prop} {load : Nat → α → State → Did α} (hv : e.vlen = s.hart.vlen) (hg : t.groupAt d = true)
    (hm : e.vl ≤ e.vlmax t) (hl : Loads s e t d m val good load) (n k : Nat) (a : α) (f : VecFile) (hk : e.start ≤ k)
    (hn : k + n ≤ e.vl) (ha : good k a) (hf : Done s e t d m e.start k (fun _ => val) f) :
    ∃ a' g, forElems (loadBody e t d m load) n k a (s.setVec f) = (k + n, a', s.setVec g, .all) ∧
      Done s e t d m e.start (k + n) (fun _ => val) g := by
  induction n generalizing k a f with
  | zero => exact ⟨a, f, rfl, hf⟩
  | succ n ih =>
    obtain ⟨g, hput, hg'⟩ := hf.step hv hg hm (fun _ _ _ _ _ _ => rfl) hk (by omega)
    obtain ⟨hoff, hon⟩ := hl k a f hk (by omega) ha hf
    have hact : (s.setVec f).hart.vec.active m k = s.hart.vec.active m k := hf.active k
    have step : ∃ a', good (k + 1) a' ∧ loadBody e t d m load k a (s.setVec f) = .go a' (s.setVec g) := by
      rw [← hput, loadBody, hact]
      cases h : s.hart.vec.active m k with
      | false => exact ⟨a, hoff h, rfl⟩
      | true => exact hon h
    obtain ⟨a', ha', hbody⟩ := step
    obtain ⟨a'', g', hwalk, hdone⟩ := ih (k + 1) a' g (by omega) (by omega) ha' hg'
    refine ⟨a'', g', ?_, ?_⟩
    · rw [forElems, hbody]
      dsimp only
      rw [hwalk, Nat.add_right_comm, Nat.add_assoc]
    · rwa [Nat.add_right_comm, Nat.add_assoc] at hdone

/-- The walk of a load that nothing stops. -/
theorem walkElems_loads {good : Nat → α → Prop} {load : Nat → α → State → Did α} (hp : s.hart.pause = none) (hv : e.vlen = s.hart.vlen)
    (hg : t.groupAt d = true) (hm : e.vl ≤ e.vlmax t) (hs : e.start ≤ e.vl) (hl : Loads s e t d m val good load) (a : α)
    (ha : good e.start a) :
    ∃ a' g, walkElems (loadBody e t d m load) (e.vl - e.start) e.start a s = (e.vl, a', s.setVec g, .all) ∧
      Done s e t d m e.start e.vl (fun _ => val) g := by
  have start : Done s e t d m e.start e.start (fun _ => val) s.hart.vec := ⟨rfl, fun _ _ => rfl, fun j _ => by rw [if_neg (by omega)]⟩
  obtain ⟨a', g, hwalk, hdone⟩ := forElems_loads hv hg hm hl (e.vl - e.start) e.start a _ (Nat.le_refl _) (by omega) ha start
  rw [Nat.add_sub_cancel' hs] at hwalk hdone
  refine ⟨a', g, ?_, hdone⟩
  rw [walkElems, hp]
  exact hwalk

/-- A destination that a walk leaves: registers, masks and scales are as they were, and tags are as they were or cleared. -/
theorem stopDest_spec (s : State) (e : QEntry) (t : VType) (set : BitVec 32) (k : Nat) (wrote : Nat → Bool) (hu : s.hart.unbound = true) :
    ∃ f, s.stopDest e t set k wrote = s.setVec f ∧ f.v = s.hart.vec.v ∧ f.m = s.hart.vec.m ∧ f.k = s.hart.vec.k ∧ f.b = s.hart.vec.b ∧
      ∀ r : Fin 32, f.tag[r] = s.hart.vec.tag[r] ∨ f.tag[r] = none := by
  have tags := s.hart.vec.clearTags_tag e.vlen set
  unfold State.stopDest
  rw [State.wrote_unbound _ _ _ hu]
  unfold State.cleanse VecFile.cleanse
  split
  · split
    · exact ⟨(s.hart.vec.clearTags e.vlen set).progressTo set k, rfl, rfl, rfl, rfl, rfl, tags⟩
    · exact ⟨{ (s.hart.vec.clearTags e.vlen set).progressTo set k with poisonV := _ }, rfl, rfl, rfl, rfl, rfl, tags⟩
  · exact ⟨s.hart.vec, rfl, rfl, rfl, rfl, rfl, fun _ => .inl rfl⟩

/-- A load has been performed from the state `s` to `u`: nothing where no element is left to it, and otherwise its active elements have
their values, and the others follow MP and TP (R57, R124, R125). -/
def Loaded (s : State) (e : QEntry) (t : VType) (d : VName) (m : Option MName) (val : Nat → Nat) (u : State) : Prop :=
  WritesRegs s s u (groupSet t.mul d.val) 0#8 0#16 0#32 ∧
    if e.vl ≤ e.start then u = s
    else (∀ k, k < e.vlmax t → u.hart.vec.elem e.vlen d.val t.sew k =
        if e.vl ≤ k then (if t.tp then 0 else s.hart.vec.elem e.vlen d.val t.sew k)
        else if k < e.start then s.hart.vec.elem e.vlen d.val t.sew k
        else if s.hart.vec.active m k then val k % 2 ^ t.sew
        else if t.mp then 0 else s.hart.vec.elem e.vlen d.val t.sew k) ∧
      Untagged u (groupSet t.mul d.val)

/-- A load with no element left to it. -/
theorem Loaded.idle (h : e.vl ≤ e.start) : Loaded s e t d m val s :=
  ⟨WritesRegs.refl _ _ _ _ _, by rw [if_pos h]⟩

/-- What a load leaves in its destination once its elements are performed. -/
theorem Done.finished {g : VecFile} (h : Done s e t d m e.start e.vl (fun _ => val) g) (hu : s.hart.unbound = true)
    (hv : e.vlen = s.hart.vlen) (hg : t.groupAt d = true) (hs : ¬ e.vl ≤ e.start) (wrote : Nat → Bool) :
    Loaded s e t d m val (((s.setVec g).stopDest e t (groupSet t.mul d.val) e.vl wrote).finishDest e t d wrote) := by
  generalize hu' : State.finishDest _ e t d wrote = u
  obtain ⟨f, hf, fv, fm, fk, fb, ftag⟩ := stopDest_spec (s.setVec g) e t (groupSet t.mul d.val) e.vl wrote hu
  obtain ⟨f', hf', gm, gk, gb, gout, gtag, guntag, gelem⟩ := finishFrom_spec ((s.setVec g).setVec f) e t d e.vl wrote hu hv hg
  rw [State.finishDest, hf, hf'] at hu'
  subst hu'
  rw [Loaded, if_neg hs]
  refine ⟨WritesRegs.ofVec s f' _ _ _ _ ⟨fun r hr => ?_, fun r _ => ?_, fun r _ => ?_, ?_, fun r _ => ?_⟩, fun k hk => ?_, guntag⟩
  · exact (gout r hr).trans ((congrArg (·[r]) fv).trans (h.outside r hr))
  · exact congrArg (·[r]) (gm.trans (fm.trans (congrArg (·.m) h.rest)))
  · exact congrArg (·[r]) (gk.trans (fk.trans (congrArg (·.k) h.rest)))
  · exact gb.trans (fb.trans (congrArg (·.b) h.rest))
  · have kept : g.tag = s.hart.vec.tag := by rw [h.rest]
    rcases gtag r with hr | hr
    · rw [hr, ← kept]
      exact ftag r
    · exact .inr hr
  · have same : f.elem e.vlen d.val t.sew k = g.elem e.vlen d.val t.sew k := by
      unfold VecFile.elem
      rw [fv]
      rfl
    have hk' := h.elems k hk
    refine (gelem k hk).trans ?_
    show (if _ then 0 else f.elem e.vlen d.val t.sew k) = _
    rw [same, hk']
    by_cases htail : e.vl ≤ k
    · by_cases htp : t.tp = true
      · rw [if_pos ⟨htail, htp⟩, if_pos htail, if_pos htp]
      · rw [if_neg fun hc => htp hc.2, if_pos htail, if_neg htp, if_neg (by omega)]
    · rw [if_neg fun hc => htail hc.1, if_neg htail]
      by_cases hlow : k < e.start
      · rw [if_neg (by omega), if_pos hlow]
      · rw [if_pos (by omega), if_neg hlow]

end

end Sys2Proof.Machine
end

section
/-!
O15: unit, strided, indexed and expanding loads from plain memory.
-/

namespace Sys2Proof.Machine

/-! ## Loads issued on a ready hart -/

section
variable {s : State} {i : Instr} {t : VType} {d : VName} {m : Option MName} {c : Cap} {val : Nat → Nat}

/-- A load performed on a ready hart completes. -/
theorem issue_loaded (act : QEntry → State → VecRes) (h : Ready s t) {u : State}
    (hact : act (s.hart.entry i c .vector) (s.entered i c .vector) = .ok u)
    (hu : Loaded (s.entered i c .vector) (s.hart.entry i c .vector) t d m val u) :
    ∃ w, issue s i true .vector c act = .next w ∧ Elementwise s w t d m 0 val := by
  obtain ⟨-, hvlen, hvl, -⟩ := entered_facts s i c .vector t h
  obtain ⟨⟨hidle, -, hclean⟩, -, -, -⟩ := h
  obtain ⟨⟨donly, ⟨da, db, dc, dd⟩, ⟨df, df'⟩, ⟨dt, dt'⟩, dout⟩, dels⟩ := hu
  rw [issue_idle s i .vector c act hidle hclean, hact]
  obtain ⟨w, hw, wonly, ⟨p, wvec⟩, wfl, wixt, wst, wfree, wmem, wres, wfe, wpo⟩ := settle_vector s i c u hidle donly
  have wv : w.hart.vec.v = u.hart.vec.v := by rw [wvec]
  have wtag : w.hart.vec.tag = u.hart.vec.tag := by rw [wvec]
  have wlen : w.hart.vlen = s.hart.vlen := by
    unfold Hart.vlen Hart.nlg
    rw [wonly]; rfl
  have welem (k : Nat) : w.element t d k = u.hart.vec.elem (s.hart.entry i c .vector).vlen d.val t.sew k := by
    unfold State.element
    rw [hvlen, wlen, wvec]
    rfl
  refine ⟨w, hw, ⟨wonly, ⟨wmem.trans da, wres.trans db, wfe.trans dc, wpo.trans dd⟩, ⟨wfl.trans df, wfree.trans df'⟩,
    ⟨wixt.trans dt, wst.trans dt'⟩, by rw [wvec]; exact dout⟩, ?_⟩
  have start : (s.hart.entry i c .vector).start = s.hart.vc.vstart := rfl
  rw [start, hvl] at dels
  by_cases hs : s.hart.vc.vl ≤ s.hart.vc.vstart
  · rw [if_pos hs] at dels ⊢
    subst dels
    exact ⟨wv, wtag⟩
  · rw [if_neg hs] at dels ⊢
    obtain ⟨elems, untagged⟩ := dels
    refine ⟨fun k hk => ?_, fun r hr => by rw [wtag]; exact untagged r hr⟩
    rw [welem, elems k (by unfold QEntry.vlmax; rw [hvlen]; exact hk), Nat.max_zero]
    unfold State.kept State.element
    rw [hvlen]
    rfl

end

section
variable {s : State} {e : QEntry} {t : VType} {d : VName} {m : Option MName} {val : Nat → Nat}

/-- What a walk needs of a state and an entry to load into a destination group: nothing is bound, nothing is paused, and the group holds
the elements of the entry. -/
structure LoadsInto (s : State) (e : QEntry) (t : VType) (d : VName) : Prop where
  unbound : s.hart.unbound = true
  going : s.hart.pause = none
  vlen : e.vlen = s.hart.vlen
  group : t.groupAt d = true
  room : e.vl ≤ e.vlmax t

/-- An idle hart is to pause at no element. -/
theorem Hart.pause_of_idle {h : Hart} (hi : h.idle = true) : h.pause = none := by
  obtain ⟨-, -, -, -, -, -, -, -, -, -, -, -, -, hpause⟩ := h.idle_iff.mp hi
  exact hpause

/-- The vector type of a ready hart. -/
theorem Ready.vtype {s : State} (h : Ready s t) : s.hart.vc.vtype = some t := by
  obtain ⟨-, -, -, ht⟩ := h
  exact ht

/-- A ready hart has no poison among its registers. -/
theorem Ready.clean {s : State} (h : Ready s t) : s.hart.vec.clean = true := by
  obtain ⟨⟨-, -, hclean⟩, -⟩ := h
  exact hclean

/-- A ready hart is such a state once its instruction has entered. -/
theorem Ready.loadsInto {s : State} (h : Ready s t) (i : Instr) (c : Cap) (hg : t.groupAt d = true) :
    LoadsInto (s.entered i c .vector) (s.hart.entry i c .vector) t d := by
  obtain ⟨-, hvlen, -, hroom⟩ := entered_facts s i c .vector t h
  obtain ⟨⟨hidle, hun, -⟩, -, -, -⟩ := h
  have going : s.hart.pause = none := Hart.pause_of_idle hidle
  exact ⟨hun, going, hvlen, hg, hroom⟩

/-- A load whose active elements load their values performs them. -/
theorem runLoad_loaded {addr : Bool → Nat → Option Nat → State → Did (Option Nat)} (h : LoadsInto s e t d)
    (hl : Loads s e t d m val (fun _ _ => True) (addr false)) (speculate : Bool) (trim : Nat → State → Option VecRes) :
    ∃ u, runLoad e s t d m speculate addr trim = .ok u ∧ Loaded s e t d m val u := by
  obtain ⟨hu, hp, hv, hg, hm⟩ := h
  unfold runLoad
  by_cases hs : e.vl ≤ e.start
  · rw [if_pos hs]
    exact ⟨s, rfl, Loaded.idle hs⟩
  · obtain ⟨a, g, hwalk, hdone⟩ := walkElems_loads hp hv hg hm (by omega) hl none trivial
    rw [if_neg hs]
    dsimp only
    unfold loadBody at hwalk
    rw [hwalk]
    exact ⟨_, rfl, hdone.finished hu hv hg hs _⟩

/-- An element that the walk of a load reaches active is one of the work of its instruction. -/
theorem mem_work {s : State} {k : Nat} (hk : s.hart.vc.vstart ≤ k) (hvl : k < s.hart.vc.vl) (hact : s.hart.vec.active m k = true) :
    k ∈ s.work m := by
  simp [State.work, State.actives, hk, hvl, hact]

end

section
variable {s : State} {i : Instr} {c : Cap} {t : VType} {d : VName} {m : Option MName}

/-- A load issued on a ready hart, each of whose elements is a load of its address in plain memory, completes with what lies there. -/
theorem issue_runLoad (act : QEntry → State → VecRes) {addr : Nat → Word} {speculate : Bool}
    {load : Bool → Nat → Option Nat → State → Did (Option Nat)} {trim : Nat → State → Option VecRes} (h : Ready s t)
    (hg : t.groupAt d = true) (hp : Loadable s m addr t.bytes)
    (hact : act (s.hart.entry i c .vector) (s.entered i c .vector) =
      runLoad (s.hart.entry i c .vector) (s.entered i c .vector) t d m speculate load trim)
    (hload : ∀ k a f, k < s.hart.vc.vl →
      Done (s.entered i c .vector) (s.hart.entry i c .vector) t d m s.hart.vc.vstart k (fun _ k => s.loaded (addr k) t.bytes) f →
      ∃ operand idem, load false k a ((s.entered i c .vector).setVec f) =
        loadTo ((s.entered i c .vector).setVec f) (s.hart.entry i c .vector) t d operand k (addr k) idem .plain a) :
    ∃ u, issue s i true .vector c act = .next u ∧ Elementwise s u t d m 0 fun k => s.loaded (addr k) t.bytes := by
  have loads : Loads (s.entered i c .vector) (s.hart.entry i c .vector) t d m (fun k => s.loaded (addr k) t.bytes)
      (fun _ _ => True) (load false) := by
    intro k a f hk hvl _ hf
    refine ⟨fun _ => trivial, fun hon => ?_⟩
    obtain ⟨operand, idem, heq⟩ := hload k a f hvl hf
    exact ⟨a, trivial, heq.trans
      (((s.sees_entered i c .vector).setVec f).loadTo t d operand k (hp k (mem_work hk hvl hon)) idem a)⟩
  obtain ⟨u, hrun, hloaded⟩ := runLoad_loaded (h.loadsInto i c hg) loads speculate trim
  exact issue_loaded act h (hact.trans hrun) hloaded

/-- An instruction under a vector type is performed under the type of the hart. -/
theorem typed_entry (ht : s.hart.vc.vtype = some t) (i : Instr) (c : Cap) (q : QClass) (u : State) (act : VType → VecRes) :
    (s.hart.entry i c q).typed u act = act t := by
  rw [QEntry.typed, show (s.hart.entry i c q).vtype = some t from ht]

/-! ## Unit, strided and indexed loads -/

/-- VLE of a format of whole bytes (R126, R129). -/
theorem exec_vle_plain (h : Ready s t) (hg : t.groupAt d = true) (hb : t.fmt.packed % 8 = 0) (a : XReg) (ff nt : Bool)
    (m : Option MName) (hp : Loadable s m (fun k => s.x a + BitVec.ofNat 64 (k * t.bytes)) t.bytes) :
    ∃ u, exec (.vle d a ff .plain nt m) s = .next u ∧
      Elementwise s u t d m 0 fun k => s.loaded (s.x a + BitVec.ofNat 64 (k * t.bytes)) t.bytes := by
  have ht : s.hart.vc.vtype = some t := h.vtype
  show ∃ u, execVle d a ff .plain nt m s = .next u ∧ _
  rw [execVle, legalUnder_true s _ t ht (by simp [hg])]
  refine issue_runLoad _ h hg hp (typed_entry ht ..) fun k c f _ _ => ⟨some (4, a.val), false, ?_⟩
  have whole : ¬ t.fmt.packed % 8 ≠ 0 := fun hc => hc hb
  simp only [if_neg whole, reduceCtorEq, false_and, if_false]
  rw [show (s.hart.entry (.vle d a ff .plain nt m) { a := some a } .vector).xa = s.x a from rfl]
  split <;> simp_all

/-- VLSE (R126, R129). -/
theorem exec_vlse_plain (h : Ready s t) (hg : t.groupAt d = true) (h8 : t.fmt.isM8 = true) (a b : XReg)
    (m : Option MName) (hp : Loadable s m (fun k => s.x a + BitVec.ofNat 64 k * s.x b) t.bytes) :
    ∃ u, exec (.vlse d a b m) s = .next u ∧
      Elementwise s u t d m 0 fun k => s.loaded (s.x a + BitVec.ofNat 64 k * s.x b) t.bytes := by
  have ht : s.hart.vc.vtype = some t := h.vtype
  show ∃ u, execVlse d a b m s = .next u ∧ _
  rw [execVlse, legalUnder_true s _ t ht (by simp [hg, h8])]
  exact issue_runLoad _ h hg hp (typed_entry ht ..) fun k c f _ _ => ⟨some (4, a.val), false, rfl⟩

/-- VLXE (R126, R129): the index group is apart from the destination, so that each index is read as it was. -/
theorem exec_vlxe_plain (h : Ready s t) (hg : t.groupAt d = true) (h8 : t.fmt.isM8 = true) (a : XReg) (b : VName)
    (hb : t.groupAt b = true) (hd : t.meet d b = false) (m : Option MName)
    (hp : Loadable s m (fun k => s.x a + BitVec.ofNat 64 (s.element t b k * t.bytes)) t.bytes) :
    ∃ u, exec (.vlxe d a b m) s = .next u ∧
      Elementwise s u t d m 0 fun k => s.loaded (s.x a + BitVec.ofNat 64 (s.element t b k * t.bytes)) t.bytes := by
  have ht : s.hart.vc.vtype = some t := h.vtype
  have into := h.loadsInto (.vlxe d a b m) { a := some a } hg
  have hclean : (s.entered (.vlxe d a b m) { a := some a } .vector).hart.vec.clean = true := h.clean
  show ∃ u, execVlxe d a b m s = .next u ∧ _
  rw [execVlxe, legalUnder_true s _ t ht (by simp [hg, h8, hb, hd])]
  refine issue_runLoad _ h hg hp ((popping_unbound _ _ _ _ _ t ht into.unbound hclean).trans (typed_entry ht ..))
    fun k c f hk hf => ⟨some (0, b.val), false, ?_⟩
  have same : f.elem _ b.val t.sew k = s.hart.vec.elem _ b.val t.sew k := hf.elem_apart into.vlen into.room b hb hd k hk
  have hindex : indexed ((s.entered (.vlxe d a b m) { a := some a } .vector).setVec f)
      (s.hart.entry (.vlxe d a b m) { a := some a } .vector) t b k = s.x a + BitVec.ofNat 64 (s.element t b k * t.bytes) := by
    unfold State.element
    rw [indexed, State.elemOf, State.setVec, same, into.vlen]
    rfl
  rw [hindex]

end

end Sys2Proof.Machine
end

section
/-!
O15: VLDX, which loads the elements present in a bitmap (R137), and the obligation itself.
-/

namespace Sys2Proof.Machine

/-! ## Bitmaps -/

/-- Bit `k` of a bitmap given as bytes. -/
def bitmapBit (byte : Nat → Nat) (k : Nat) : Bool := (byte (k / 8)).testBit (k % 8)

/-- The bits set in a bitmap below bit `k`. -/
def bitmapCount (byte : Nat → Nat) (k : Nat) : Nat := ((List.range k).filter (bitmapBit byte)).length

/-- The bits set in the lower part of a byte. -/
theorem bits_mod (v j : Nat) (hj : j ≤ 8) : readBitmap.bits (v % 2 ^ j) = ((List.range j).filter v.testBit).length := by
  have low : (List.range j).filter (v % 2 ^ j).testBit = (List.range j).filter v.testBit :=
    List.filter_congr fun i hi => by simp [Nat.testBit_mod_two_pow, List.mem_range.mp hi]
  have high : ((List.range (8 - j)).map (j + ·)).filter (v % 2 ^ j).testBit = [] := by
    simp [List.filter_eq_nil_iff, Nat.testBit_mod_two_pow]
  rw [readBitmap.bits, show 8 = j + (8 - j) by omega, List.range_add, List.filter_append, low, high, List.append_nil]

/-- The bits set below a bit of byte `i` are those below the byte and those below the bit in it. -/
theorem bitmapCount_byte (byte : Nat → Nat) (i j : Nat) (hj : j ≤ 8) :
    bitmapCount byte (8 * i + j) = bitmapCount byte (8 * i) + readBitmap.bits (byte i % 2 ^ j) := by
  have inByte : (List.range j).filter (bitmapBit byte ∘ (8 * i + ·)) = (List.range j).filter (byte i).testBit :=
    List.filter_congr fun l hl => by
      have hl := List.mem_range.mp hl
      rw [Function.comp, bitmapBit, show (8 * i + l) / 8 = i by omega, show (8 * i + l) % 8 = l by omega]
  rw [bits_mod _ _ hj, bitmapCount, bitmapCount, List.range_add, List.filter_append, List.length_append, List.filter_map,
    List.length_map, inByte]

/-- The bits set below the next byte. -/
theorem bitmapCount_succ (byte : Nat → Nat) (i : Nat) :
    bitmapCount byte (8 * (i + 1)) = bitmapCount byte (8 * i) + readBitmap.bits (byte i) := by
  have whole : readBitmap.bits (byte i % 2 ^ 8) = readBitmap.bits (byte i) := bits_mod _ _ (Nat.le_refl 8)
  rw [Nat.mul_add, Nat.mul_one, bitmapCount_byte _ _ _ (Nat.le_refl 8), whole]

/-- The bits set below element `k`. -/
theorem bitmapCount_eq (byte : Nat → Nat) (k : Nat) :
    bitmapCount byte k = bitmapCount byte (8 * (k / 8)) + readBitmap.bits (byte (k / 8) % 2 ^ (k % 8)) := by
  rw [← bitmapCount_byte _ _ _ (Nat.le_of_lt (Nat.mod_lt k (by omega))), Nat.div_add_mod]

/-! ## Reading one -/

/-- What VLDX carries to element `k`, where it has read as much as it says of a bitmap: the bytes read, the bits set in those before the
last of them, and that byte. -/
def BitmapRead (byte : Nat → Nat) (k : Nat) : Nat × Nat × Nat → Prop
  | (0, _) => True
  | (n + 1, count, last) => n ≤ k / 8 ∧ count = bitmapCount byte (8 * n) ∧ last = byte n

theorem BitmapRead.succ {byte : Nat → Nat} {k : Nat} {c : Nat × Nat × Nat} (h : BitmapRead byte k c) : BitmapRead byte (k + 1) c := by
  match c, h with
  | (0, _), _ => trivial
  | (n + 1, count, last), ⟨hn, rest⟩ => exact ⟨by omega, rest⟩

section
variable {e : QEntry} {t : VType} {k : Nat} {operand : Option (Nat × Nat)} {u : State} {byte : Nat → Nat}

/-- The bitmap read from byte `i` on up to byte `i + n`, where its bytes lie in plain memory. -/
theorem readBitmap_from (go : Nat → Nat → State → Did (Nat × Nat × Nat)) (n i old : Nat)
    (hload : ∀ j, j ≤ i + n → elemLoad u u.agent (u.entrySpace e) (e.xa1 + BitVec.ofNat 64 j) 1 1 true .plain = .ok (byte j) u) :
    readBitmap e t k operand (i + n) go (n + 1) i (bitmapCount byte (8 * i)) old u =
      go (bitmapCount byte (8 * (i + n))) (byte (i + n)) u := by
  induction n generalizing i old with
  | zero =>
    rw [readBitmap, hload i (Nat.le_refl _)]
    simp [didElem, readBitmap]
  | succ n ih =>
    have next : i + (n + 1) = i + 1 + n := by omega
    rw [readBitmap, hload i (by omega)]
    simp only [didElem]
    rw [if_neg (by omega), ← bitmapCount_succ, next]
    exact ih (i + 1) (byte i) fun j hj => hload j (by omega)

/-- The bitmap read up to the byte of element `k`, after what has been read of it. -/
theorem readBitmap_to (go : Nat → Nat → State → Did (Nat × Nat × Nat)) (c : Nat × Nat × Nat) (hc : BitmapRead byte k c)
    (hload : ∀ j, j ≤ k / 8 → elemLoad u u.agent (u.entrySpace e) (e.xa1 + BitVec.ofNat 64 j) 1 1 true .plain = .ok (byte j) u) :
    readBitmap e t k operand (k / 8) go (k / 8 + 1 - c.1) c.1
        (if c.1 = 0 then 0 else if c.1 ≤ k / 8 then c.2.1 + readBitmap.bits c.2.2 else c.2.1) c.2.2 u =
      go (bitmapCount byte (8 * (k / 8))) (byte (k / 8)) u := by
  match c, hc with
  | (0, _, old), _ =>
    have := readBitmap_from (t := t) (k := k) (operand := operand) (byte := byte) go (k / 8) 0 old fun j hj => hload j (by omega)
    rwa [Nat.zero_add] at this
  | (n + 1, count, last), ⟨hn, hcount, hlast⟩ =>
    subst hcount hlast
    dsimp only
    rw [if_neg (Nat.succ_ne_zero n)]
    by_cases hnext : n + 1 ≤ k / 8
    · obtain ⟨l, hl⟩ := Nat.exists_eq_add_of_le hnext
      rw [if_pos hnext, ← bitmapCount_succ, show k / 8 + 1 - (n + 1) = l + 1 by omega, hl]
      exact readBitmap_from go l (n + 1) (byte n) fun j hj => hload j (by omega)
    · have hlast : n = k / 8 := by omega
      rw [if_neg hnext, show k / 8 + 1 - (n + 1) = 0 by omega, hlast]
      rfl

end

/-! ## The instruction -/

/-- What VLDX does with an active element `k`, once the bitmap has been read up to its byte: the load of an element that is present, and 0
for one that is not. -/
def expandElem (e : QEntry) (t : VType) (d : VName) (operand : Option (Nat × Nat)) (k count byte : Nat) (s : State) :
    Did (Nat × Nat × Nat) :=
  let c := (k / 8 + 1, count, byte)
  if byte.testBit (k % 8) then
    let j := count + readBitmap.bits (byte % 2 ^ (k % 8))
    let va := e.xa + BitVec.ofNat 64 (j * t.bytes)
    didElem s e t 0 k va operand (elemLoad s s.agent (s.entrySpace e) va t.bytes t.bytes true .plain)
      fun v s => .go c (s.putElem e t d k v)
  else .go c (s.putElem e t d k 0)

/-- What VLDX does with an active element. -/
def expandLoad (e : QEntry) (t : VType) (d : VName) (operand : Option (Nat × Nat)) (k : Nat) (c : Nat × Nat × Nat) (s : State) :
    Did (Nat × Nat × Nat) :=
  let before := if c.1 = 0 then 0 else if c.1 ≤ k / 8 then c.2.1 + readBitmap.bits c.2.2 else c.2.1
  readBitmap e t k operand (k / 8) (expandElem e t d operand k) (k / 8 + 1 - c.1) c.1 before c.2.2 s

/-- VLDX whose walk nothing stops. -/
theorem doVldx_of_walk {e : QEntry} {s u : State} {t : VType} {d : VName} {a : XReg} {m : Option MName} {k : Nat} {c : Nat × Nat × Nat}
    (ht : e.vtype = some t) (hs : ¬ e.vl ≤ e.start)
    (hwalk : walkElems (loadBody e t d m (expandLoad e t d (some (4, a.val)))) (e.vl - e.start) e.start (0, 0, 0) s = (k, c, u, .all)) :
    doVldx d a m e s =
      .ok ((u.stopDest e t (groupSet t.mul d.val) k (e.covers t s.hart.vec m 0)).finishDest e t d (e.covers t s.hart.vec m 0)) := by
  rw [doVldx, QEntry.typed, ht]
  dsimp only
  rw [if_neg hs]
  unfold loadBody expandLoad expandElem at hwalk
  rw [hwalk]
  rfl

section
variable {s : State} {t : VType} {d : VName} {a : XReg} {m : Option MName} {byte : Nat → Nat}

/-- The value of an element of VLDX: the element of its place if it is present, or 0. -/
def expandValue (s : State) (t : VType) (byte : Nat → Nat) (base : Word) (k : Nat) : Nat :=
  if bitmapBit byte k then s.loaded (base + BitVec.ofNat 64 (bitmapCount byte k * t.bytes)) t.bytes else 0

/-- An element of VLDX whose bitmap and place lie in plain memory. -/
theorem Sees.expandElem {u : State} {e : QEntry} (h : Sees s u e) (operand : Option (Nat × Nat)) (k : Nat)
    (hp : bitmapBit byte k = true → (s.plain .load (e.xa + BitVec.ofNat 64 (bitmapCount byte k * t.bytes)) t.bytes).isSome) :
    expandElem e t d operand k (bitmapCount byte (8 * (k / 8))) (byte (k / 8)) u =
      .go (k / 8 + 1, bitmapCount byte (8 * (k / 8)), byte (k / 8)) (u.putElem e t d k (expandValue s t byte e.xa k)) := by
  rw [Machine.expandElem, ← bitmapCount_eq, expandValue]
  change (if bitmapBit byte k then _ else _) = _
  cases hbit : bitmapBit byte k with
  | false => rfl
  | true =>
    dsimp only
    rw [if_pos rfl, if_pos rfl, h.elemLoad (hp hbit)]
    rfl

/-- VLDX (R137). -/
theorem exec_vldx_plain (h : Ready s t) (hg : t.groupAt d = true) (h8 : t.fmt.isM8 = true)
    (hbyte : ∀ i, byte i = s.loaded (s.x (pairOf a) + BitVec.ofNat 64 i) 1)
    (hmap : ∀ i, i < (s.hart.vc.vl + 7) / 8 → (s.plain .load (s.x (pairOf a) + BitVec.ofNat 64 i) 1).isSome)
    (hp : ∀ k ∈ s.work m, bitmapBit byte k = true →
      (s.plain .load (s.x a + BitVec.ofNat 64 (bitmapCount byte k * t.bytes)) t.bytes).isSome) :
    ∃ u, exec (.vldx d a m) s = .next u ∧ Elementwise s u t d m 0 (expandValue s t byte (s.x a)) := by
  obtain ⟨hu, hpause, hv, -, hroom⟩ := h.loadsInto (.vldx d a m) { a := some a, a1 := some (pairOf a) } hg
  have sees := s.sees_entered (.vldx d a m) { a := some a, a1 := some (pairOf a) } .vector
  show ∃ u, execVldx d a m s = .next u ∧ _
  rw [execVldx, legalUnder_true s _ t h.vtype (by simp [hg, h8])]
  by_cases hs : s.hart.vc.vl ≤ s.hart.vc.vstart
  · refine issue_loaded _ h ?_ (Loaded.idle hs)
    rw [doVldx, typed_entry h.vtype]
    exact if_pos hs
  · have loads : Loads (s.entered (.vldx d a m) { a := some a, a1 := some (pairOf a) } .vector)
        (s.hart.entry (.vldx d a m) { a := some a, a1 := some (pairOf a) } .vector) t d m (expandValue s t byte (s.x a))
        (BitmapRead byte)
        (expandLoad (s.hart.entry (.vldx d a m) { a := some a, a1 := some (pairOf a) } .vector) t d (some (4, a.val))) := by
      intro k c f hk hvl hc _
      refine ⟨fun _ => hc.succ, fun hon => ⟨(k / 8 + 1, bitmapCount byte (8 * (k / 8)), byte (k / 8)), ?_, ?_⟩⟩
      · exact ⟨Nat.div_le_div_right (Nat.le_succ k), rfl, rfl⟩
      · have hvl : k < s.hart.vc.vl := hvl
        rw [expandLoad, readBitmap_to _ c hc fun j hj => by rw [hbyte]; exact (sees.setVec f).elemLoad (hmap j (by omega)) true]
        exact (sees.setVec f).expandElem _ k (hp k (mem_work hk hvl hon))
    obtain ⟨c, g, hwalk, hdone⟩ := walkElems_loads hpause hv hg hroom (Nat.le_of_not_le hs) loads (0, 0, 0) trivial
    exact issue_loaded _ h (doVldx_of_walk h.vtype hs hwalk) (hdone.finished hu hv hg hs _)

end

/-! ## The obligation -/

/-- Settles O15: a load from plain memory performs its elements, whatever addresses they have. -/
theorem vectorLoads : Obligations.VectorLoads := by
  intro s t d b a c ff nt m h hg hb
  refine ⟨exec_vle_plain h hg hb a ff nt m, fun h8 => exec_vlse_plain h hg h8 a c m,
    fun h8 hgb hd => exec_vlxe_plain h hg h8 a b hgb hd m, fun h8 => ?_⟩
  exact exec_vldx_plain h hg h8 fun _ => rfl

end Sys2Proof.Machine
end

section
/-!
O21, its first two parts: full-empty ranges and prefetches (R148, R149), bindings of streams (R139, R142) and block constants (R230).
-/

namespace Sys2Proof.Machine

/-! ## Ranges of granules -/

section
variable {s : State} {t : VType} {a b : XReg}

/-- The address of granule `g` of a range. -/
def granuleVa (base : Word) (g : Nat) : Word := if g = 0 then base else BitVec.ofNat 64 (base.toNat / 16 * 16 + 16 * g)

/-- The granule of memory that a write to granule `g` of a range reaches, if it has a full-empty bit. -/
def State.granulePlace (s : State) (base : Word) (g : Nat) : Option Nat :=
  match translate s s.agent s.dataSpace .store (granuleVa base g) with
  | .ok pa _ => if hasFullEmpty s.bigMemory pa then some (pa / 16) else none
  | _ => none

/-- The full-empty bits once those of granules of a range are set, or cleared. -/
def State.fullAfter (s : State) (base : Word) (v : Bool) (range : List Nat) (full : List (Nat × Bool)) : List (Nat × Bool) :=
  range.foldl (fun f g => Store.put false f ((s.granulePlace base g).getD 0) v) full

/-- One granule of VFESET or VFECLR. -/
def feBody (e : QEntry) (t : VType) (operand : Nat × Nat) (v : Bool) (k : Nat) (_ : Unit) (s : State) : Did Unit :=
  let report (kind k : Nat) (va : Word) : VecFault := { vecFault s e t 24 kind 1 k va (some operand) with lg := 0 }
  let va := granuleVa e.xa k
  match translate s s.agent (s.entrySpace e) .store va with
  | .page => .fault (report kindPage k va)
  | .access line => .fault { report (kindReach line) k va with line := line }
  | .moved => .wait none
  | .ok pa _ => if hasFullEmpty s.bigMemory pa then .go () (s.setFull pa v) else .fault (report kindFullEmpty k va)

/-- A granule with a full-empty bit takes it. -/
theorem Sees.feBody {u : State} {e : QEntry} (h : Sees s u e) {k g : Nat} (hg : s.granulePlace e.xa k = some g) (operand : Nat × Nat)
    (v : Bool) : feBody e t operand v k () u = .go () { u with fullEmpty := Store.put false u.fullEmpty g v } := by
  rw [State.granulePlace] at hg
  rw [Machine.feBody, h.map.translate, h.space, show u.agent = s.agent from congrArg Agent.hart h.hartId]
  split at hg
  · rename_i pa io htr
    split at hg <;> cases hg
    rename_i hfe
    simp only [htr, h.map.big, hfe, if_true, State.setFull]
  · cases hg

theorem Sees.setFullEmpty {u : State} {e : QEntry} (h : Sees s u e) (full : List (Nat × Bool)) :
    Sees s { u with fullEmpty := full } e := by
  obtain ⟨⟨hmem, hpoison, hbig, hready, hlinks, hmig⟩, hid, hspace⟩ := h
  exact ⟨⟨hmem, hpoison, hbig, hready, hlinks, hmig⟩, hid, hspace⟩

/-- The granules of a range that all have a full-empty bit take them in order. -/
theorem Sees.forElems_feBody {e : QEntry} (operand : Nat × Nat) (v : Bool) (n k : Nat) {u : State} (h : Sees s u e)
    (hg : ∀ g ∈ List.range' k n, (s.granulePlace e.xa g).isSome) :
    forElems (Machine.feBody e t operand v) n k () u =
      (k + n, (), { u with fullEmpty := s.fullAfter e.xa v (List.range' k n) u.fullEmpty }, .all) := by
  induction n generalizing k u with
  | zero => rfl
  | succ n ih =>
    obtain ⟨g, hk⟩ := Option.isSome_iff_exists.mp (hg k (by simp [List.range'_succ]))
    rw [forElems, h.feBody hk]
    dsimp only
    rw [ih (k + 1) (h.setFullEmpty _) fun i hi => hg i (by rw [List.range'_succ]; exact List.mem_cons_of_mem _ hi),
      List.range'_succ, State.fullAfter, State.fullAfter, List.foldl_cons, hk, Nat.add_right_comm, Nat.add_assoc]
    rfl

/-- The granules that a range of bytes meets. -/
def granuleCount (base len : Word) : Nat := if len = 0#64 then 0 else (base.toNat % 16 + len.toNat + 15) / 16

/-- VFESET and VFECLR, of a range of fewer than 2^39 bytes, walk its granules. -/
theorem doVfe_of_walk {e : QEntry} {u w : State} {v : Bool} {k : Nat} (ht : e.vtype = some t) (hl : e.xb.toNat < 2 ^ 39)
    (hwalk : walkElems (feBody e t (4, a.val) v) (granuleCount e.xa e.xb - e.start) e.start () u = (k, (), w, .all)) :
    doVfe a b v e u = .ok w := by
  rw [Machine.doVfe, QEntry.typed, ht]
  dsimp only
  rw [if_neg (Nat.not_le.mpr hl)]
  change (match walkElems (feBody e t (4, a.val) v) (granuleCount e.xa e.xb - e.start) e.start () u with
    | (k, _, s, r) => closeLoop e k s r .ok) = _
  rw [hwalk]
  rfl

/-- VFESET or VFECLR of a range whose granules from START on all have a full-empty bit. -/
theorem Sees.doVfe {u : State} {e : QEntry} (h : Sees s u e) (ht : e.vtype = some t) (hp : u.hart.pause = none) (v : Bool)
    (hl : e.xb.toNat < 2 ^ 39)
    (hg : ∀ g ∈ List.range' e.start (granuleCount e.xa e.xb - e.start), (s.granulePlace e.xa g).isSome) :
    doVfe a b v e u = .ok { u with
      fullEmpty := s.fullAfter e.xa v (List.range' e.start (granuleCount e.xa e.xb - e.start)) u.fullEmpty } := by
  refine doVfe_of_walk ht hl (k := e.start + (granuleCount e.xa e.xb - e.start)) ?_
  rw [walkElems, hp]
  exact h.forElems_feBody (4, a.val) v _ _ hg

/-- A queued instruction that changes nothing of its hart but data that `t` has: what it leaves. -/
theorem issue_legal_done (i : Instr) (c : Cap) (q : QClass) (act : QEntry → State → VecRes) (u : State) (hq : q.counted = true)
    (hp : Prompt s) (ht : s.hart.vc.vtype = some t) (hact : act (s.hart.entry i c q) (s.entered i c q) = .ok u)
    (hu : u.hart = (s.entered i c q).hart.takeData u.hart) :
    issue s i (legalUnder s fun _ => true) q c act = .next { u with hart := (s.issued q.usesStart true).hart.takeData u.hart } := by
  rw [legalUnder_true s _ t ht rfl]
  exact issue_done s i c q act u hq hp hact hu

/-- VFESET and VFECLR (R148). -/
theorem exec_vfe (hp : Prompt s) (ht : s.hart.vc.vtype = some t) (v : Bool) (hl : (s.x b).toNat < 2 ^ 39)
    (hg : ∀ g ∈ List.range' s.hart.vc.vstart (granuleCount (s.x a) (s.x b) - s.hart.vc.vstart), (s.granulePlace (s.x a) g).isSome) :
    exec (if v then .vfeset a b else .vfeclr a b) s = .next { s.done with
      fullEmpty := s.fullAfter (s.x a) v (List.range' s.hart.vc.vstart (granuleCount (s.x a) (s.x b) - s.hart.vc.vstart))
        s.fullEmpty } := by
  have hpause : s.hart.pause = none := Hart.pause_of_idle hp.1
  cases v
  case true =>
    have := (s.sees_entered (.vfeset a b) { a := some a, b := some b } .free).doVfe (a := a) (b := b) ht hpause true hl hg
    exact issue_legal_done _ _ .free _ _ rfl hp ht this rfl
  case false =>
    have := (s.sees_entered (.vfeclr a b) { a := some a, b := some b } .free).doVfe (a := a) (b := b) ht hpause false hl hg
    exact issue_legal_done _ _ .free _ _ rfl hp ht this rfl

/-- VPREF (R149). -/
theorem exec_vpref (hp : Prompt s) (ht : s.hart.vc.vtype = some t) : exec (.vpref a b) s = .next s.done :=
  issue_legal_done (.vpref a b) _ .prefetch _ (s.entered (.vpref a b) { a := some a, b := some b } .prefetch) rfl hp ht rfl rfl

end

/-! ## Bindings of streams and block constants -/

section
variable {s : State} {t : VType} {d : VName} {a : XReg} {slot : Fin 4}

/-- No other slot is bound to a register of a group. -/
theorem boundElsewhere_eq_false {st : Vector (Option Stream) 4} {n d : Nat}
    (h : ∀ i : Fin 4, i ≠ slot → ∀ o ∈ st[i], groupsMeet o.regs o.group n d = false) : boundElsewhere st slot n d = false := by
  rw [boundElsewhere, List.any_eq_false]
  intro i _
  by_cases hi : i = slot
  · simp [hi]
  · cases hst : st[i] with
    | none => simp
    | some o => simp [h i hi o hst]

/-- VSBIND of a legal control block in plain memory (R139). -/
theorem exec_vsbind (hp : Prompt s) (ht : s.hart.vc.vtype = some t) (hg : t.groupAt d = true) (hal : (s.x a).toNat % 64 = 0)
    (hpl : (s.plain .load (s.x a) 64).isSome = true)
    (hfree : ∀ i : Fin 4, i ≠ slot → ∀ o ∈ s.hart.streams[i], groupsMeet o.regs o.group t.mul d.val = false) {b : Stream}
    (hb : scbOf (fun i => BitVec.ofNat 64 (s.loaded (s.x a) 64 / 2 ^ (64 * i))) d.val t.mul = some b) :
    exec (.vsbind d a slot) s =
      .next { s.done with hart := { s.done.hart with streams := s.hart.streams.set slot (some b) } } := by
  have load := (s.sees_entered (.vsbind d a slot) { a := some a } .vector).elemLoad hpl false
  show execVsbind d a slot s = _
  rw [execVsbind, legalUnder_true s _ t ht hg]
  refine issue_done s _ _ .vector _ { s.entered (.vsbind d a slot) { a := some a } .vector with
    hart := { (s.entered (.vsbind d a slot) { a := some a } .vector).hart with
      streams := s.hart.streams.set slot (some b) } } rfl hp ?_ rfl
  have aligned : ¬ (s.hart.entry (.vsbind d a slot) { a := some a } .vector).xa.toNat % 64 ≠ 0 := fun hc => hc hal
  have elsewhere : ¬ boundElsewhere (s.entered (.vsbind d a slot) { a := some a } .vector).hart.streams slot t.mul d.val = true :=
    Bool.eq_false_iff.mp (boundElsewhere_eq_false hfree)
  rw [doVsbind, typed_entry ht]
  dsimp only
  rw [if_neg aligned, show (s.hart.entry (.vsbind d a slot) { a := some a } .vector).xa = s.x a from rfl, load]
  dsimp only
  rw [hb]
  dsimp only
  rw [if_neg elsewhere]
  rfl

/-- VSUNBIND (R142). -/
theorem exec_vsunbind (hp : Prompt s) (ht : s.hart.vc.vtype = some t) :
    exec (.vsunbind slot) s = .next { s.done with hart := { s.done.hart with streams := s.hart.streams.set slot none } } :=
  issue_legal_done (.vsunbind slot) _ .vector _ { s.entered (.vsunbind slot) {} .vector with
    hart := { (s.entered (.vsunbind slot) {} .vector).hart with streams := s.hart.streams.set slot none } } rfl hp ht rfl rfl

/-- VBCONST (R230), under any vector type or none. -/
theorem exec_vbconst (hp : Prompt s) (c : Fin 16) :
    exec (.vbconst c a) s =
      .next { s.done with hart := { s.done.hart with vec := { s.hart.vec with b := s.hart.vec.b.set c (s.x a) } } } := by
  obtain ⟨-, -, -, -, -, -, -, hround, hresume, -⟩ := s.hart.idle_iff.mp hp.1
  refine issue_done s (.vbconst c a) { a := some a } .vector _ ((s.entered (.vbconst c a) { a := some a } .vector).setVec
    { s.hart.vec with b := s.hart.vec.b.set c (s.x a) }) rfl hp ?_ rfl
  have free : ¬ ((s.entered (.vbconst c a) { a := some a } .vector).hart.round.isSome ||
      !(s.entered (.vbconst c a) { a := some a } .vector).hart.resume.isEmpty) = true := by
    show ¬ (s.hart.round.isSome || !s.hart.resume.isEmpty) = true
    simp [hround, hresume]
  rw [doVbconst, if_neg free]
  rfl

end

/-- What a control block gives of its words (R138). -/
theorem scbOf_fields {w : Nat → Word} {group regs : Nat} {b : Stream} (h : scbOf w group regs = some b) :
    b.index = w 0 ∧ b.base = w 1 ∧ b.rowStride = w 2 ∧ b.count = (w 3).toNat ∧ b.pos = 0 := by
  unfold scbOf at h
  dsimp only at h
  split at h
  · cases h
  · split at h <;> cases h
    exact ⟨rfl, rfl, rfl, rfl, rfl⟩

end Sys2Proof.Machine
end

section
/-!
O21: the strips of a bound group (R140, R143), as what they leave in the vector file and in the stream.
-/

namespace Sys2Proof.Machine

/-! ## What a strip leaves in its group -/

/-- The vector file with element `k` of a strip written into its group: the tags of its register are cleared (R125). -/
def VecFile.popInto (vlen w : Nat) (a : VName) (val : Nat → Nat) (f : VecFile) (k : Nat) : VecFile :=
  (f.clearTags vlen (groupSet 1 (a.val + k / (vlen / w)))).setElem vlen a.val w k (val k)

/-- The vector file with `n` elements of a strip, from `lo` on, written into its group. -/
def VecFile.popStrip (vlen w : Nat) (a : VName) (val : Nat → Nat) (lo n : Nat) (f : VecFile) : VecFile :=
  (List.range' lo n).foldl (VecFile.popInto vlen w a val) f

theorem VecFile.popStrip_succ (vlen w : Nat) (a : VName) (val : Nat → Nat) (lo n : Nat) (f : VecFile) :
    f.popStrip vlen w a val lo (n + 1) = (f.popStrip vlen w a val lo n).popInto vlen w a val (lo + n) := by
  simp [VecFile.popStrip, List.range'_concat]

/-- No poison is left to end. -/
theorem VecFile.poisonTag_of_clean {f : VecFile} (h : f.clean = true) : f.poisonTag = 0#32 ∧ f.poisonV = 0#32 := by
  simp only [VecFile.clean, Bool.and_eq_true, beq_iff_eq] at h
  obtain ⟨⟨⟨⟨hv, -⟩, -⟩, htag⟩, -⟩ := h
  exact ⟨htag, hv⟩

/-- What the strip of a group leaves: its registers, their tags and progress, and nothing else of the file. -/
structure Stripped (vlen w mul : Nat) (a : VName) (val : Nat → Nat) (lo hi : Nat) (f g : VecFile) : Prop where
  rest : g = { f with v := g.v, tag := g.tag, progress := g.progress }
  outside : ∀ r : Fin 32, (groupSet mul a.val).getLsbD r.val = false → g.v[r] = f.v[r]
  tags : ∀ r : Fin 32, g.tag[r] = f.tag[r] ∨ g.tag[r] = none
  elems : ∀ j, j < mul * vlen / w → g.elem vlen a.val w j =
    if lo ≤ j ∧ j < hi then val j % 2 ^ w else f.elem vlen a.val w j

section
variable {s : State} {t : VType} {a : VName} {val : Nat → Nat} {lo : Nat} {f : VecFile}

/-- One more element of a strip. -/
theorem Stripped.step {hi : Nat} {g : VecFile} (h : Stripped s.hart.vlen t.sew t.mul a val lo hi f g) (hg : t.groupAt a = true)
    (hf : f.clean = true) (hlo : lo ≤ hi) (hhi : hi < t.mul * s.hart.vlen / t.sew) :
    Stripped s.hart.vlen t.sew t.mul a val lo (hi + 1) f (g.popInto s.hart.vlen t.sew a val hi) := by
  obtain ⟨inFile, inGroup⟩ := element_inFile s t a hi t.mul hg hhi
  have kept (j : Nat) : (g.clearTags s.hart.vlen (groupSet 1 (a.val + hi / (s.hart.vlen / t.sew)))).elem s.hart.vlen a.val t.sew j =
    g.elem s.hart.vlen a.val t.sew j := rfl
  refine ⟨?_, fun r hr => ?_, fun r => ?_, fun j hj => ?_⟩
  · have tag0 : g.poisonTag = f.poisonTag := by rw [h.rest]
    rw [VecFile.popInto, VecFile.setElem_rest, VecFile.clearTags, tag0, (VecFile.poisonTag_of_clean hf).1, BitVec.zero_and, h.rest,
      ← (VecFile.poisonTag_of_clean hf).1]
  · refine (VecFile.setElem_v_ne _ _ _ _ _ _ r fun hc => ?_).trans (h.outside r hr)
    rw [groupSet_getLsbD _ _ _ r.isLt, decide_eq_false_iff_not] at hr
    exact hr ⟨by rw [hc]; exact Nat.le_add_right _ _, by rw [hc]; exact Nat.add_lt_add_left inGroup _⟩
  · have same : (g.popInto s.hart.vlen t.sew a val hi).tag =
        (g.clearTags s.hart.vlen (groupSet 1 (a.val + hi / (s.hart.vlen / t.sew)))).tag := by
      rw [VecFile.popInto, VecFile.setElem_rest]
    rw [same]
    rcases g.clearTags_tag s.hart.vlen (groupSet 1 (a.val + hi / (s.hart.vlen / t.sew))) r with hr | hr
    · rw [hr]
      exact h.tags r
    · exact .inr hr
  · by_cases hjh : j = hi
    · subst hjh
      rw [VecFile.popInto, VecFile.elem_setElem_same _ _ _ _ _ _ inFile, if_pos ⟨hlo, Nat.lt_succ_self j⟩]
    · have cond : (lo ≤ j ∧ j < hi + 1) ↔ lo ≤ j ∧ j < hi := by omega
      rw [VecFile.popInto, VecFile.elem_setElem_ne _ _ _ _ _ _ _ _ inFile (place_ne _ _ _ _ (Ne.symm hjh)), kept, h.elems j hj]
      simp only [cond]

/-- A strip of `n` elements. -/
theorem stripped (hg : t.groupAt a = true) (hf : f.clean = true) (n : Nat) (hn : lo + n ≤ t.mul * s.hart.vlen / t.sew) :
    Stripped s.hart.vlen t.sew t.mul a val lo (lo + n) f (f.popStrip s.hart.vlen t.sew a val lo n) := by
  induction n with
  | zero => exact ⟨rfl, fun _ _ => rfl, fun _ => .inl rfl, fun j _ => by rw [if_neg (by omega)]; rfl⟩
  | succ n ih =>
    rw [VecFile.popStrip_succ]
    exact (ih (by omega)).step hg hf (Nat.le_add_right _ _) (by omega)

end

/-! ## The stream -/

/-- The state with its streams at a value. -/
def State.withStreams (s : State) (st : Vector (Option Stream) 4) : State := { s with hart := { s.hart with streams := st } }

/-- One stream alone is bound. -/
def onlyStream (n : Fin 4) (b : Stream) : Vector (Option Stream) 4 := (Vector.replicate 4 none).set n (some b)

theorem onlyStream_getElem (n : Fin 4) (b : Stream) (i : Fin 4) : (onlyStream n b)[i] = if i = n then some b else none := by
  by_cases h : i = n
  · subst h
    simp [onlyStream]
  · have : n.val ≠ i.val := fun hc => h (Fin.ext hc.symm)
    simp [onlyStream, h, this]

@[simp] theorem onlyStream_set (n : Fin 4) (b c : Stream) : (onlyStream n b).set n (some c) = onlyStream n c := by
  simp [onlyStream]

/-- Streams of which only one is bound. -/
theorem eq_onlyStream {st : Vector (Option Stream) 4} {n : Fin 4} {b : Stream} (h : st[n] = some b)
    (hother : ∀ i : Fin 4, i ≠ n → st[i] = none) : st = onlyStream n b := by
  apply Vector.ext
  intro i hi
  have at' := onlyStream_getElem n b ⟨i, hi⟩
  by_cases hin : (⟨i, hi⟩ : Fin 4) = n
  · rw [if_pos hin] at at'
    subst hin
    exact h.trans at'.symm
  · rw [if_neg hin] at at'
    exact (hother _ hin).trans at'.symm

/-- A stream with what it keeps of its rows. -/
def Stream.withRow (b : Stream) (w : Option (Nat × Word)) : Stream := { b with row := w }

@[simp] theorem Stream.withRow_total (b : Stream) (w : Option (Nat × Word)) : (b.withRow w).total = b.total := rfl
@[simp] theorem Stream.withRow_left (b : Stream) (w : Option (Nat × Word)) : (b.withRow w).left = b.left := rfl
@[simp] theorem Stream.withRow_pos (b : Stream) (w : Option (Nat × Word)) : (b.withRow w).pos = b.pos := rfl
@[simp] theorem Stream.withRow_rowLen (b : Stream) (w : Option (Nat × Word)) : (b.withRow w).rowLen = b.rowLen := rfl
@[simp] theorem Stream.withRow_base (b : Stream) (w : Option (Nat × Word)) : (b.withRow w).base = b.base := rfl
@[simp] theorem Stream.withRow_rowStride (b : Stream) (w : Option (Nat × Word)) : (b.withRow w).rowStride = b.rowStride := rfl
@[simp] theorem Stream.withRow_sfmt (b : Stream) (w : Option (Nat × Word)) : (b.withRow w).sfmt = b.sfmt := rfl
@[simp] theorem Stream.withRow_group (b : Stream) (w : Option (Nat × Word)) : (b.withRow w).group = b.group := rfl
@[simp] theorem Stream.withRow_row (b : Stream) (w : Option (Nat × Word)) : (b.withRow w).row = w := rfl
@[simp] theorem Stream.withRow_withRow (b : Stream) (w w' : Option (Nat × Word)) : (b.withRow w).withRow w' = b.withRow w' := rfl

/-- The place of row index entry `r` of a stream. -/
def Stream.entryAt (b : Stream) (r : Nat) : Word := b.index + BitVec.ofNat 64 (r * b.indexBytes)

/-- The row index entry that a stream has kept for its next strip, from element `lo` on. -/
def Stream.keptRow (b : Stream) (lo r : Nat) : Option Word :=
  b.row.bind fun w => if w.1 = r ∧ r = (b.pos + lo) / b.rowLen then some w.2 else none

/-- Row index entry `r` of a stream: as it was kept, or as it lies in memory. -/
def State.rowAt (s : State) (b : Stream) (lo r : Nat) : Word :=
  (b.keptRow lo r).getD (BitVec.ofNat 64 (s.loaded (b.entryAt r) b.indexBytes))

/-- The place of element `p` of a stream of elements of `size` bytes. -/
def State.streamPlace (s : State) (b : Stream) (lo size p : Nat) : Word :=
  b.base + s.rowAt b lo (p / b.rowLen) * b.rowStride + BitVec.ofNat 64 (p % b.rowLen * size)

/-- Element `k` of the next strip of a stream, 0 past its end. -/
def State.stripValue (s : State) (b : Stream) (lo size k : Nat) : Nat :=
  if b.pos + k < b.total then s.loaded (s.streamPlace b lo size (b.pos + k)) size else 0

/-- The strip of a stream, from element `lo` up to `hi`, lies in plain memory but for the entry that is kept. -/
def State.StripPlain (s : State) (b : Stream) (lo hi size : Nat) : Prop :=
  ∀ k, lo ≤ k → k < hi → b.pos + k < b.total →
    ((b.keptRow lo ((b.pos + k) / b.rowLen)).isSome ||
      (s.plain .load (b.entryAt ((b.pos + k) / b.rowLen)) b.indexBytes).isSome) = true ∧
    (s.plain .load (s.streamPlace b lo size (b.pos + k)) size).isSome = true

/-- What a stream keeps of its rows as the pop comes to element `k`: the entry of the row of that element, or neither it nor what it kept
at first. -/
def State.RowKept (s : State) (b : Stream) (lo k : Nat) (w : Option (Nat × Word)) : Prop :=
  let r := (b.pos + k) / b.rowLen
  w = some (r, s.rowAt b lo r) ∨ (∀ x, w ≠ some (r, x)) ∧ b.keptRow lo r = none

/-- What a stream has kept from its last strip is of the row of the first element or is not used. -/
theorem State.rowKept_first (s : State) (b : Stream) (lo : Nat) : s.RowKept b lo lo b.row := by
  by_cases hr : ∃ x, b.row = some ((b.pos + lo) / b.rowLen, x)
  · obtain ⟨x, hx⟩ := hr
    left
    simp [State.rowAt, Stream.keptRow, hx]
  · right
    refine ⟨fun x hx => hr ⟨x, hx⟩, ?_⟩
    cases hw : b.row with
    | none => simp [Stream.keptRow, hw]
    | some w =>
      obtain ⟨r, x⟩ := w
      have : r ≠ (b.pos + lo) / b.rowLen := fun hc => hr ⟨x, by rw [hw, hc]⟩
      simp [Stream.keptRow, hw, this]

/-- The row of an element serves the next one, or what was kept at first does not. -/
theorem State.RowKept.next (s : State) (b : Stream) {lo k : Nat} (hlo : lo ≤ k) :
    s.RowKept b lo (k + 1) (some ((b.pos + k) / b.rowLen, s.rowAt b lo ((b.pos + k) / b.rowLen))) := by
  have first : (b.pos + lo) / b.rowLen ≤ (b.pos + k) / b.rowLen := Nat.div_le_div_right (by omega)
  have rise : (b.pos + k) / b.rowLen ≤ (b.pos + (k + 1)) / b.rowLen := Nat.div_le_div_right (by omega)
  by_cases hr : (b.pos + (k + 1)) / b.rowLen = (b.pos + k) / b.rowLen
  · left
    rw [hr]
  · right
    refine ⟨fun x hx => hr (by injection hx with hx; injection hx with hx; exact hx.symm), ?_⟩
    have later : (b.pos + (k + 1)) / b.rowLen ≠ (b.pos + lo) / b.rowLen := by omega
    cases hw : b.row <;> simp [Stream.keptRow, hw, later]

end Sys2Proof.Machine
end

section
/-!
O21: the pop of the strip of the only bound stream, whose elements and row index entries lie in plain memory (R140, R143).
-/

namespace Sys2Proof.Machine

section
variable {s u : State} {e : QEntry} {t : VType} {a : VName} {n : Fin 4} {b : Stream} {lo size : Nat} {f : VecFile}

theorem Sees.withStreams (h : Sees s u e) (st : Vector (Option Stream) 4) : Sees s (u.withStreams st) e := by
  obtain ⟨⟨hmem, hpoison, hbig, hready, hlinks, hmig⟩, hid, hspace⟩ := h
  exact ⟨⟨hmem, hpoison, hbig, hready, hlinks, hmig⟩, hid, hspace⟩

/-- The state of a pop: the vector file, and what the only bound stream has kept of its rows. -/
def State.popping (u : State) (f : VecFile) (n : Fin 4) (b : Stream) (w : Option (Nat × Word)) : State :=
  (u.setVec f).withStreams (onlyStream n (b.withRow w))

theorem State.popping_streams (u : State) (f : VecFile) (n : Fin 4) (b : Stream) (w : Option (Nat × Word)) :
    (u.popping f n b w).hart.streams[n] = some (b.withRow w) := by
  show (onlyStream n (b.withRow w))[n] = _
  rw [onlyStream_getElem, if_pos rfl]

/-- What the stream keeps of its rows is replaced. -/
theorem State.popping_setStream (u : State) (f : VecFile) (n : Fin 4) (b : Stream) (w : Option (Nat × Word)) (c : Stream) :
    (u.popping f n b w).setStream n c = (u.setVec f).withStreams (onlyStream n c) := by
  rw [State.setStream]
  show (u.setVec f).withStreams ((onlyStream n (b.withRow w)).set n (some c)) = _
  rw [onlyStream_set]

/-- The accesses of a pop meet the memory of the state that it begins in. -/
theorem Sees.popping (h : Sees s u e) (f : VecFile) (n : Fin 4) (b : Stream) (w : Option (Nat × Word)) :
    Sees s (u.popping f n b w) e := (h.setVec f).withStreams _

/-- The row index entry of an element is the one kept or the one in memory, and is kept from then on. -/
theorem Sees.streamRow (h : Sees s u e) (k r : Nat) (w : Option (Nat × Word)) (hr : r = (b.pos + k) / b.rowLen)
    (hw : s.RowKept b lo k w)
    (hrow : ((b.keptRow lo r).isSome || (s.plain .load (b.entryAt r) b.indexBytes).isSome) = true) :
    streamRow (u.popping f n b w) e t n (b.withRow w) k r = .go (s.rowAt b lo r) (u.popping f n b (some (r, s.rowAt b lo r))) := by
  subst hr
  rcases hw with rfl | ⟨hw, hkept⟩
  · simp [Machine.streamRow]
  · have hp : (s.plain .load (b.entryAt ((b.pos + k) / b.rowLen)) b.indexBytes).isSome = true := by simpa [hkept] using hrow
    have fetch : streamRow.fetch (u.popping f n b w) e t n (b.withRow w) k ((b.pos + k) / b.rowLen) =
        .go (s.rowAt b lo ((b.pos + k) / b.rowLen))
          (u.popping f n b (some ((b.pos + k) / b.rowLen, s.rowAt b lo ((b.pos + k) / b.rowLen)))) := by
      have load := (h.popping f n b w).elemLoad hp true
      rw [State.rowAt, hkept, streamRow.fetch]
      change didElem _ e t 0 k _ _ (Machine.elemLoad (u.popping f n b w) _ _ (b.entryAt ((b.pos + k) / b.rowLen)) b.indexBytes
        b.indexBytes true .plain) _ = _
      rw [load, didElem, State.popping_setStream]
      rfl
    rw [Machine.streamRow]
    cases w with
    | none => exact fetch
    | some w =>
      obtain ⟨r, x⟩ := w
      exact (if_neg fun hr => hw x (by rw [hr])).trans fetch

/-- What becomes of the only bound stream where writes end bindings, but not its own. -/
theorem onlyStream_map_set (n : Fin 4) (b : Stream) (keep : Option Stream → Option Stream) (hnone : keep none = none) :
    ((onlyStream n b).map keep).set n (some b) = onlyStream n b := by
  refine eq_onlyStream (by simp) fun i hi => ?_
  have hne : n.val ≠ i.val := fun hc => hi (Fin.ext hc.symm)
  have none_at : (onlyStream n b)[i] = none := (onlyStream_getElem n b i).trans (if_neg hi)
  simp only [Fin.getElem_fin] at none_at ⊢
  rw [Vector.getElem_set_ne _ _ hne, Vector.getElem_map, none_at, hnone]

/-- A write of an element of a strip is a write to its group alone: the binding that it pops stays. -/
theorem State.popTo_popping (hgrp : b.group = a.val) (hv : e.vlen = s.hart.vlen) (w w' : Option (Nat × Word)) (k : Nat)
    (val : Nat → Nat) :
    (u.popping f n b w).popTo e t n (b.withRow w') k (val k) = u.popping (f.popInto s.hart.vlen t.sew a val k) n b w := by
  have streams := onlyStream_map_set n (b.withRow w) (fun st => st.bind fun c =>
    if groupSet c.regs c.group &&& groupSet 1 (b.group + k / (e.vlen / t.sew)) != 0#32 then none else some c) rfl
  rw [State.popTo, State.popping_streams, Stream.withRow_group]
  simp only [Hart.wrote, Hart.unbind]
  rw [show (u.popping f n b w).hart.streams = onlyStream n (b.withRow w) from rfl, streams, hgrp, hv]
  rfl

/-- Element `k` of a strip popped. -/
theorem Sees.popElem (h : Sees s u e) (hgrp : b.group = a.val) (hv : e.vlen = s.hart.vlen) (hsize : b.sfmt.packed / 8 = size)
    {hi k : Nat} (hp : s.StripPlain b lo hi size) (hlo : lo ≤ k) (hk : k < hi) (w : Option (Nat × Word))
    (hw : b.pos + k < b.total → s.RowKept b lo k w) :
    ∃ w', (b.pos + (k + 1) < b.total → s.RowKept b lo (k + 1) w') ∧ popElem e t k n (u.popping f n b w) =
      (u.popping (f.popInto s.hart.vlen t.sew a (s.stripValue b lo size) k) n b w', .all) := by
  rw [Machine.popElem, State.popping_streams]
  simp only [Stream.withRow_total, Stream.withRow_pos, Stream.withRow_rowLen, Stream.withRow_base, Stream.withRow_rowStride,
    Stream.withRow_sfmt, Stream.withRow_group, hsize]
  by_cases hend : b.total ≤ b.pos + k
  · have zero : s.stripValue b lo size k = 0 := if_neg (Nat.not_lt.mpr hend)
    refine ⟨w, fun hc => by omega, ?_⟩
    rw [if_pos hend, ← zero, State.popTo_popping hgrp hv]
  · obtain ⟨hrow, hplace⟩ := hp k hlo hk (Nat.lt_of_not_le hend)
    have loaded : s.stripValue b lo size k = s.loaded (s.streamPlace b lo size (b.pos + k)) size := if_pos (Nat.lt_of_not_le hend)
    refine ⟨some ((b.pos + k) / b.rowLen, s.rowAt b lo ((b.pos + k) / b.rowLen)), fun _ => State.RowKept.next s b hlo, ?_⟩
    rw [if_neg hend, h.streamRow k _ w rfl (hw (Nat.lt_of_not_le hend)) hrow]
    dsimp only
    rw [State.streamPlace] at hplace loaded
    rw [(h.popping f n b _).elemLoad hplace true, didElem, ← loaded]
    dsimp only
    rw [State.popTo_popping hgrp hv]

/-- A strip popped, element by element. -/
theorem Sees.popFrom (h : Sees s u e) (hgrp : b.group = a.val) (hv : e.vlen = s.hart.vlen) (hsize : b.sfmt.packed / 8 = size)
    {hi : Nat} (hp : s.StripPlain b lo hi size) (c : Nat) : ∀ (k : Nat) (f : VecFile) (w : Option (Nat × Word)),
    lo ≤ k → k + c ≤ hi → (b.pos + k < b.total → s.RowKept b lo k w) →
    ∃ w', popFrom e t [n] c k (u.popping f n b w) =
      (k + c, u.popping (f.popStrip s.hart.vlen t.sew a (s.stripValue b lo size) k c) n b w', .all) := by
  induction c with
  | zero => exact fun k f w _ _ _ => ⟨w, rfl⟩
  | succ c ih =>
    intro k f w hlo hhi hw
    obtain ⟨w₁, hw₁, hpop⟩ := h.popElem (t := t) (n := n) (f := f) hgrp hv hsize hp hlo (by omega) w hw
    obtain ⟨w₂, hrest⟩ := ih (k + 1) (f.popInto s.hart.vlen t.sew a (s.stripValue b lo size) k) w₁ (by omega) (by omega) hw₁
    refine ⟨w₂, ?_⟩
    rw [Machine.popFrom, popEach, hpop]
    dsimp only [popEach]
    rw [hrest, VecFile.popStrip, VecFile.popStrip, List.range'_succ, List.foldl_cons, Nat.add_right_comm, Nat.add_assoc]

/-- A stream that has elements left, of the format of the type, is no fault. -/
theorem streamFault_none {x : State} (hs : x.hart.streams[n] = some b) (hfmt : t.fmt = b.sfmt) (hleft : b.pos < b.total) :
    [n].filterMap (streamFault x e t) = [] := by
  have left : b.left ≠ 0 := by rw [Stream.left]; omega
  simp only [List.filterMap_cons, List.filterMap_nil, streamFault, hs, Option.bind_some, if_neg left, hfmt, ne_eq, not_true_eq_false,
    if_false]

/-- No poison of registers ends where there is none. -/
theorem State.cleansePops_clean (x : State) (e : QEntry) (t : VType) (k : Nat) (hx : x.hart.vec.clean = true) :
    x.cleansePops e t k [n] = x := by
  have cleanse (set : BitVec 32) (p : Nat → Bool) : x.cleanse e t.sew set t.mul p = x := by
    rw [State.cleanse, VecFile.cleanse, (VecFile.poisonTag_of_clean hx).2, BitVec.zero_and, if_pos rfl]
    rfl
  rw [State.cleansePops, List.foldl_cons, List.foldl_nil]
  split
  · exact cleanse _ _
  · rfl

/-- A stream after the pop of a strip up to `vl`. -/
def Stream.advanced (b : Stream) (vl : Nat) (w : Option (Nat × Word)) : Stream := { b with pos := b.pos + min vl b.left, row := w }

theorem State.advance_popping (vl : Nat) (w : Option (Nat × Word)) :
    (u.popping f n b w).advanceStreams vl [n] = (u.setVec f).withStreams (onlyStream n (b.advanced vl w)) := by
  rw [State.advanceStreams, List.foldl_cons, List.foldl_nil, State.popping_streams]
  exact State.popping_setStream u f n b w _

/-- The only bound stream is that of the group that an instruction reads. -/
theorem boundTo_only {h : Hart} (hs : h.streams = onlyStream n b) (hgrp : b.group = a.val) : h.boundTo [a] = [n] := by
  have only (i : Fin 4) : (match h.streams[i] with
      | some b => [a].any fun v => v.val == b.group
      | none => false) = decide (i = n) := by
    rw [hs, onlyStream_getElem]
    by_cases hi : i = n <;> simp [hi, hgrp]
  have alone : ∀ n : Fin 4, (List.finRange 4).filter (fun i => decide (i = n)) = [n] := by decide
  exact (List.filter_congr fun i _ => only i).trans (alone n)

/-- An instruction that reads a group bound to the only stream goes on with the strip in its group, and the stream advanced. -/
theorem Sees.popStrips (h : Sees s u e) (ht : e.vtype = some t) (hs : u.hart.streams = onlyStream n b) (hgrp : b.group = a.val)
    (hv : e.vlen = s.hart.vlen) (hfmt : t.fmt = b.sfmt) (hleft : b.pos < b.total)
    (hfresh : e.popped = false) (hlt : e.start < e.vl) (hp : s.StripPlain b e.start e.vl t.bytes)
    (hclean : (u.hart.vec.popStrip s.hart.vlen t.sew a (s.stripValue b e.start t.bytes) e.start (e.vl - e.start)).clean = true)
    (how : Pops) (act : QEntry → State → VecRes) :
    ∃ w, popStrips e u [a] how act = act { e with popped := true, start := how.first e }
      ((u.setVec (u.hart.vec.popStrip s.hart.vlen t.sew a (s.stripValue b e.start t.bytes) e.start (e.vl - e.start))).withStreams
        (onlyStream n (b.advanced e.vl w))) := by
  have begin' : u = u.popping u.hart.vec n b b.row := by
    rw [State.popping, show b.withRow b.row = b from rfl, ← hs]
    rfl
  obtain ⟨w, hpop⟩ := h.popFrom (t := t) (n := n) (f := u.hart.vec) hgrp hv (size := t.bytes) (by rw [VType.bytes, hfmt]) hp
    (e.vl - e.start) e.start b.row (Nat.le_refl _) (by omega) fun _ => s.rowKept_first b e.start
  rw [← begin'] at hpop
  refine ⟨w, ?_⟩
  have bound : u.hart.boundTo [a] = [n] := boundTo_only hs hgrp
  have goes : ¬ (e.popped || [n].isEmpty || e.vl = 0 || (how != .whole && decide (e.vl ≤ e.start))) = true := by
    simp [hfresh, Nat.not_le.mpr hlt, Nat.ne_of_gt (Nat.zero_lt_of_lt hlt)]
  have atStream : u.hart.streams[n] = some b := by rw [hs, onlyStream_getElem, if_pos rfl]
  rw [Machine.popStrips, QEntry.typed, ht]
  dsimp only
  rw [bound, if_neg goes, popAll, streamFault_none atStream hfmt hleft]
  dsimp only
  rw [hpop]
  dsimp only
  rw [State.cleansePops_clean _ _ _ _ hclean, State.advance_popping]

end

end Sys2Proof.Machine
end

section
/-!
O21: an instruction that reads no stream does the same whichever streams are bound to other groups, and the obligation itself.
-/

namespace Sys2Proof.Machine

/-! ## Beside other streams -/

/-- Two states that have written the vector file of `u` alike, the second beside streams that are bound. -/
def Beside (u : State) (st : Vector (Option Stream) 4) (x y : State) : Prop := ∃ g, x = u.setVec g ∧ y = (u.setVec g).withStreams st

section
variable {u x y : State} {st : Vector (Option Stream) 4} {e : QEntry} {t : VType} {d : VName}

theorem Beside.start (u : State) (st : Vector (Option Stream) 4) : Beside u st u (u.withStreams st) := ⟨u.hart.vec, rfl, rfl⟩

theorem Beside.vec (h : Beside u st x y) : y.hart.vec = x.hart.vec := by
  obtain ⟨g, rfl, rfl⟩ := h
  rfl

theorem Beside.setVec (h : Beside u st x y) (g : VecFile) : Beside u st (x.setVec g) (y.setVec g) := by
  obtain ⟨g', rfl, rfl⟩ := h
  exact ⟨g, rfl, rfl⟩

theorem Beside.putElem (h : Beside u st x y) (e : QEntry) (t : VType) (d : VName) (k v : Nat) :
    Beside u st (x.putElem e t d k v) (y.putElem e t d k v) := by
  rw [State.putElem, State.putElem, h.vec]
  exact h.setVec _

theorem Beside.inactive (h : Beside u st x y) (e : QEntry) (t : VType) (d : VName) (k : Nat) :
    Beside u st (x.inactive e t d k) (y.inactive e t d k) := by
  unfold State.inactive
  split
  · exact h.putElem ..
  · exact h

/-- Writes to a set of registers end no binding of the streams. -/
def Spares (st : Vector (Option Stream) 4) (set : BitVec 32) : Prop := ∀ h : Hart, h.streams = st → h.unbind set = h

theorem Beside.wrote (h : Beside u st x y) (hu : u.hart.unbound = true) {set : BitVec 32} (hst : Spares st set) (vlen : Nat) :
    Beside u st (x.wrote vlen set) (y.wrote vlen set) := by
  obtain ⟨g, rfl, rfl⟩ := h
  refine ⟨g.clearTags vlen set, State.wrote_unbound _ _ _ hu, ?_⟩
  rw [State.wrote, Hart.wrote, hst _ rfl]
  rfl

/-- A destination is completed alike. -/
theorem Beside.finishFrom (h : Beside u st x y) (hu : u.hart.unbound = true) (hst : Spares st (groupSet t.mul d.val)) (e : QEntry)
    (n : Nat) (wrote : Nat → Bool) : Beside u st (x.finishFrom e t d n wrote) (y.finishFrom e t d n wrote) := by
  have noted := h.wrote hu hst e.vlen
  have tail : Beside u st ((x.wrote e.vlen (groupSet t.mul d.val)).tail e t d n)
      ((y.wrote e.vlen (groupSet t.mul d.val)).tail e t d n) := by
    unfold State.tail
    split
    · rw [noted.vec]
      exact noted.setVec _
    · exact noted
  unfold State.finishFrom State.progress State.cleanse
  dsimp only
  have progress := tail.setVec
    (((x.wrote e.vlen (groupSet t.mul d.val)).tail e t d n).hart.vec.progressTo (groupSet t.mul d.val) n)
  rw [tail.vec, progress.vec]
  exact progress.setVec _

/-- Elements one after another, alike. -/
theorem Beside.foldl {α : Type} (h : Beside u st x y) (l : List α) (one : State → α → State)
    (hone : ∀ k x y, Beside u st x y → Beside u st (one x k) (one y k)) : Beside u st (l.foldl one x) (l.foldl one y) := by
  induction l generalizing x y with
  | nil => exact h
  | cons k l ih => exact ih (hone k x y h)

end

/-- What an instruction answers beside other streams is what it answers without them. -/
def SameBeside (u : State) (st : Vector (Option Stream) 4) (r r' : VecRes) : Prop :=
  ∃ x y, Beside u st x y ∧ r = .ok x ∧ r' = .ok y

section
variable {u : State} {st : Vector (Option Stream) 4} {e e' : QEntry} {t : VType} {d a : VName}

/-- An element-wise instruction whose values go by the vector file, from the same START. -/
theorem elementwise_beside (hu : u.hart.unbound = true) (hp : u.hart.pause = none) (hst : Spares st (groupSet t.mul d.val))
    (he : e' = { e with popped := true }) (m : Option MName) (first : Nat) (val : State → Nat → Nat)
    (hval : ∀ x y k, Beside u st x y → val y k = val x k) :
    SameBeside u st (elementwise e u t d m first val) (elementwise e' (u.withStreams st) t d m first val) := by
  subst he
  unfold elementwise
  split
  · exact ⟨_, _, Beside.start u st, rfl, rfl⟩
  · rw [show (u.withStreams st).hart.pause = u.hart.pause from rfl, hp]
    refine ⟨_, _, ((Beside.start u st).foldl _ _ fun k x y hxy => ?_).finishFrom hu hst _ _ _, rfl, rfl⟩
    rw [hxy.vec, hval x y k hxy]
    split
    · exact hxy.putElem ..
    · exact hxy.inactive ..

/-- VCOMPRESS once the strip of its group is popped. -/
def compressGroup (d a : VName) (q : MName) (e : QEntry) (s : State) : VecRes :=
  wholeVector e s fun t =>
    .ok (((selected s e q).zipIdx.foldl (fun s p => s.putElem e t d p.2 (s.valueOf e t a p.1)) s).finishFrom e t d
      (selected s e q).length fun _ => true)

/-- VCOMPRESS beside other streams. -/
theorem vcompress_beside (hu : u.hart.unbound = true) (hst : Spares st (groupSet t.mul d.val)) (ht : e.vtype = some t) (q : MName)
    (first : Nat) :
    SameBeside u st (compressGroup d a q e u) (compressGroup d a q { e with popped := true, start := first } (u.withStreams st)) := by
  simp only [compressGroup, wholeVector, QEntry.typed, ht]
  split
  · exact ⟨_, _, Beside.start u st, rfl, rfl⟩
  · refine ⟨_, _, ((Beside.start u st).foldl _ _ fun p x y hxy => ?_).finishFrom hu hst _ _ _, rfl, rfl⟩
    rw [State.valueOf, State.valueOf, State.elemOf, State.elemOf, hxy.vec]
    exact hxy.putElem ..

/-- One element of VEXPAND, with the elements of its source that it has taken. -/
def expandOne (e : QEntry) (t : VType) (d a : VName) (q : MName) (c : Nat × State) (k : Nat) : Nat × State :=
  if c.2.hart.vec.maskBit q k then (c.1 + 1, c.2.putElem e t d k (c.2.valueOf e t a c.1)) else (c.1, c.2.inactive e t d k)

/-- VEXPAND once the strip of its group is popped. -/
def expandGroup (d a : VName) (q : MName) (e : QEntry) (s : State) : VecRes :=
  wholeVector e s fun t =>
    .ok (((List.range e.vl).foldl (expandOne e t d a q) (0, s)).2.finishDest e t d fun k => t.mp || s.hart.vec.maskBit q k)

/-- The elements of VEXPAND, alike. -/
theorem Beside.foldl_expandOne {x y : State} (h : Beside u st x y) (q : MName) (l : List Nat) (n : Nat) :
    Beside u st (l.foldl (expandOne e t d a q) (n, x)).2 (l.foldl (expandOne e t d a q) (n, y)).2 := by
  induction l generalizing n x y with
  | nil => exact h
  | cons k l ih =>
    rw [List.foldl_cons, List.foldl_cons]
    have taken : ∃ n', (expandOne e t d a q (n, x) k).1 = n' ∧ (expandOne e t d a q (n, y) k).1 = n' ∧
        Beside u st (expandOne e t d a q (n, x) k).2 (expandOne e t d a q (n, y) k).2 := by
      unfold expandOne
      dsimp only
      rw [State.valueOf, State.valueOf, State.elemOf, State.elemOf, h.vec]
      split
      · exact ⟨_, rfl, rfl, h.putElem ..⟩
      · exact ⟨_, rfl, rfl, h.inactive ..⟩
    obtain ⟨n', hx, hy, hb⟩ := taken
    rw [← Prod.mk.eta (p := expandOne e t d a q (n, x) k), ← Prod.mk.eta (p := expandOne e t d a q (n, y) k), hx, hy]
    exact ih hb n'

/-- VEXPAND beside other streams. -/
theorem vexpand_beside (hu : u.hart.unbound = true) (hst : Spares st (groupSet t.mul d.val)) (ht : e.vtype = some t) (q : MName)
    (first : Nat) :
    SameBeside u st (expandGroup d a q e u) (expandGroup d a q { e with popped := true, start := first } (u.withStreams st)) := by
  simp only [expandGroup, wholeVector, QEntry.typed, ht]
  split
  · exact ⟨_, _, Beside.start u st, rfl, rfl⟩
  · exact ⟨_, _, ((Beside.start u st).foldl_expandOne q _ 0).finishFrom hu hst _ _ _, rfl, rfl⟩

end

/-! ## The instructions that the statement names -/

/-- An instruction that reads one group: it is performed after the pop of its strip, and does the same beside streams that its
destination spares. -/
def ReadsGroup (i : Instr) (t : VType) (d a : VName) : Prop :=
  ∃ (c : Cap) (how : Pops) (act : QEntry → State → VecRes),
    (∀ s : State, s.hart.vc.vtype = some t → exec i s = issue s i true .vector c fun e s => popping e s [a] how act) ∧
    ∀ (u : State) (st : Vector (Option Stream) 4) (e : QEntry), u.hart.unbound = true → u.hart.pause = none →
      Spares st (groupSet t.mul d.val) → e.vtype = some t → e.base = e.start →
      SameBeside u st (act e u) (act { e with popped := true, start := how.first e } (u.withStreams st))

section
variable {t : VType} {d a : VName}

/-- What an entry does under its type. -/
theorem QEntry.typed_of_vtype {e : QEntry} (ht : e.vtype = some t) (s : State) (act : VType → VecRes) : e.typed s act = act t := by
  rw [QEntry.typed, ht]

/-- An element-wise instruction whose values are taken from its group, at places that its entry gives. -/
theorem readsGroup_elementwise {i : Instr} (c : Cap) (how : Pops) (m : Option MName) (first : QEntry → Nat)
    (val : QEntry → VType → State → Nat → Nat) (hhow : how ≠ .whole)
    (hexec : ∀ s : State, s.hart.vc.vtype = some t → exec i s = issue s i true .vector c fun e s =>
      popping e s [a] how fun e s => e.typed s fun t => elementwise e s t d m (first e) (val e t))
    (hfirst : ∀ e, first { e with popped := true } = first e)
    (hpopped : ∀ e, val { e with popped := true } t = val e t)
    (hval : ∀ e x y k, y.hart.vec = x.hart.vec → val e t y k = val e t x k) : ReadsGroup i t d a := by
  refine ⟨c, how, _, hexec, fun u st e hu hp hst ht hb => ?_⟩
  have start : how.first e = e.start := by
    cases how with
    | each => rfl
    | issued => exact hb
    | whole => exact absurd rfl hhow
  rw [start]
  show SameBeside u st (e.typed u _) (QEntry.typed { e with popped := true } (u.withStreams st) _)
  rw [QEntry.typed_of_vtype ht, QEntry.typed_of_vtype (e := { e with popped := true }) ht, hpopped e, hfirst e]
  exact elementwise_beside hu hp hst rfl m (first e) (val e t) fun x y k h => hval e x y k h.vec

/-- An element of a group goes by the vector file. -/
theorem State.valueOf_of_vec {x y : State} (h : y.hart.vec = x.hart.vec) (e : QEntry) (t : VType) (a : VName) (k : Nat) :
    y.valueOf e t a k = x.valueOf e t a k := by
  rw [State.valueOf, State.valueOf, State.elemOf, State.elemOf, h]

/-- VMV reads its group element by element. -/
theorem readsGroup_vmv (hd : t.groupAt d = true) (ha : t.groupAt a = true) (hda : d ≠ a) (m : Option MName) :
    ReadsGroup (.vmv d a m) t d a := by
  refine readsGroup_elementwise {} .each m (fun _ => 0) (fun e t s k => s.elemOf e t a k) (by decide) (fun s ht => ?_)
    (fun _ => rfl) (fun _ => rfl) fun e x y k h => by rw [State.elemOf, State.elemOf, h]
  show execVmv d a m s = _
  rw [execVmv, legalUnder_true s _ t ht (by simp [hd, ha])]
  unfold doVmv
  rw [if_neg hda]

/-- VSLIDEUP reads elements below the one that it writes. -/
theorem readsGroup_vslideup (hd : t.groupAt d = true) (ha : t.groupAt a = true) (hda : t.meet d a = false) (b : XReg)
    (m : Option MName) : ReadsGroup (.vslideup d a b m) t d a := by
  refine readsGroup_elementwise { b := some b } .each m (fun e => e.xb.toNat) (fun e t s k => s.valueOf e t a (k - e.xb.toNat))
    (by decide) (fun s ht => ?_) (fun _ => rfl) (fun _ => rfl) fun e x y k h => State.valueOf_of_vec h ..
  show execVslideup d a b m s = _
  rw [execVslideup, legalUnder_true s _ t ht (by simp [hd, ha, hda])]
  rfl

/-- VSLIDEDN reads elements above the one that it writes, so that it begins once its strip is complete. -/
theorem readsGroup_vslidedn (hd : t.groupAt d = true) (ha : t.groupAt a = true) (hda : t.meet d a = false) (b : XReg)
    (m : Option MName) : ReadsGroup (.vslidedn d a b m) t d a := by
  refine readsGroup_elementwise { b := some b } .issued m (fun _ => 0)
    (fun e t s k => if k + e.xb.toNat < e.vlmax t then s.valueOf e t a (k + e.xb.toNat) else 0) (by decide) (fun s ht => ?_)
    (fun _ => rfl) (fun _ => rfl) fun e x y k h => by rw [State.valueOf_of_vec h]
  show execVslidedn d a b m s = _
  rw [execVslidedn, legalUnder_true s _ t ht (by simp [hd, ha, hda])]
  rfl

/-- VCOMPRESS reads its group as a whole. -/
theorem readsGroup_vcompress (hd : t.groupAt d = true) (ha : t.groupAt a = true) (hda : t.meet d a = false) (q : MName) :
    ReadsGroup (.vcompress d a q) t d a := by
  refine ⟨{}, .whole, compressGroup d a q, fun s ht => ?_, fun u st e hu _ hst ht _ => vcompress_beside hu hst ht q 0⟩
  show execVcompress d a q s = _
  rw [execVcompress, legalUnder_true s _ t ht (by simp [hd, ha, hda])]
  rfl

/-- VEXPAND reads its group as a whole. -/
theorem readsGroup_vexpand (hd : t.groupAt d = true) (ha : t.groupAt a = true) (hda : t.meet d a = false) (q : MName) :
    ReadsGroup (.vexpand d a q) t d a := by
  refine ⟨{}, .whole, expandGroup d a q, fun s ht => ?_, fun u st e hu _ hst ht _ => vexpand_beside hu hst ht q 0⟩
  show execVexpand d a q s = _
  rw [execVexpand, legalUnder_true s _ t ht (by simp [hd, ha, hda])]
  rfl

/-- Groups that begin at one register meet. -/
theorem VType.ne_of_meet (h : t.meet d a = false) : d ≠ a := by
  rintro rfl
  have : 0 < t.mul := Nat.two_pow_pos _
  rw [VType.meet, groupsMeet, decide_eq_false_iff_not] at h
  omega

/-- The instructions that the statement names. -/
theorem readsGroup_of_mem (hd : t.groupAt d = true) (ha : t.groupAt a = true) (hda : t.meet d a = false) (x : XReg) (m : Option MName)
    (q : MName) : ∀ i ∈ [Instr.vmv d a m, .vslideup d a x m, .vslidedn d a x m, .vcompress d a q, .vexpand d a q],
      ReadsGroup i t d a := by
  simp only [List.forall_mem_cons, List.not_mem_nil, false_imp_iff, implies_true, and_true]
  exact ⟨readsGroup_vmv hd ha (VType.ne_of_meet hda) m, readsGroup_vslideup hd ha hda x m, readsGroup_vslidedn hd ha hda x m,
    readsGroup_vcompress hd ha hda q, readsGroup_vexpand hd ha hda q⟩

/-- Writes to a group end no binding to a group apart from it. -/
theorem spares_onlyStream {n : Fin 4} {b : Stream} (hgrp : b.group = a.val) (hregs : b.regs = t.mul) (hda : t.meet d a = false) :
    Spares (onlyStream n b) (groupSet t.mul d.val) := by
  have apart : groupSet b.regs b.group &&& groupSet t.mul d.val = 0#32 := by
    apply BitVec.eq_of_getLsbD_eq
    intro r hr
    rw [VType.meet, groupsMeet, decide_eq_false_iff_not] at hda
    rw [BitVec.getLsbD_and, groupSet_getLsbD _ _ _ hr, groupSet_getLsbD _ _ _ hr, hgrp, hregs]
    simp only [BitVec.getLsbD_zero, Bool.and_eq_false_iff, decide_eq_false_iff_not]
    omega
  intro h hs
  have kept : h.streams.map (fun st => st.bind fun b =>
      if groupSet b.regs b.group &&& groupSet t.mul d.val != 0#32 then none else some b) = onlyStream n b := by
    rw [hs]
    refine eq_onlyStream ?_ fun i hi => ?_
    · have at' := onlyStream_getElem n b n
      simp only [Fin.getElem_fin] at at' ⊢
      simp [at', apart]
    · have at' := (onlyStream_getElem n b i).trans (if_neg hi)
      simp only [Fin.getElem_fin] at at' ⊢
      simp [at']
  rw [Hart.unbind, kept, ← hs]

end

/-! ## Issue over a bound group -/

section
variable {s : State} {i : Instr} {t : VType} {d a : VName} {n : Fin 4} {b : Stream}

/-- The vector file with the strip of a stream in its group. -/
def State.stripFile (s : State) (t : VType) (a : VName) (b : Stream) : VecFile :=
  s.hart.vec.popStrip s.hart.vlen t.sew a (s.stripValue b s.hart.vc.vstart t.bytes) s.hart.vc.vstart (s.hart.vc.vl - s.hart.vc.vstart)

/-- The state with the strip of a stream in its group, and no stream bound. -/
def State.stripState (s : State) (t : VType) (a : VName) (b : Stream) : State :=
  (s.setVec (s.stripFile t a b)).withStreams (Vector.replicate 4 none)

/-- What the strip leaves in the vector file. -/
theorem State.stripFile_stripped (ha : t.groupAt a = true) (hc : s.hart.vec.clean = true) (hlt : s.hart.vc.vstart < s.hart.vc.vl)
    (hvl : s.hart.vc.vl ≤ s.maxElems t) :
    Stripped s.hart.vlen t.sew t.mul a (s.stripValue b s.hart.vc.vstart t.bytes) s.hart.vc.vstart s.hart.vc.vl s.hart.vec
      (s.stripFile t a b) := by
  have strip := stripped (s := s) (val := s.stripValue b s.hart.vc.vstart t.bytes) ha hc (lo := s.hart.vc.vstart)
    (s.hart.vc.vl - s.hart.vc.vstart) (by unfold State.maxElems at hvl; omega)
  rwa [Nat.add_sub_cancel' (Nat.le_of_lt hlt)] at strip

/-- A strip poisons nothing. -/
theorem Stripped.clean {vlen w mul lo hi : Nat} {val : Nat → Nat} {f g : VecFile} (h : Stripped vlen w mul a val lo hi f g)
    (hf : f.clean = true) : g.clean = true := by
  rw [h.rest]
  exact hf

/-- Vl is at most VLMAX on a hart that fits. -/
theorem Hart.vl_le_of_fits {s : State} (hf : s.hart.fits = true) (ht : s.hart.vc.vtype = some t) : s.hart.vc.vl ≤ s.maxElems t := by
  simp only [Hart.fits, ht, Bool.and_eq_true, decide_eq_true_eq] at hf
  obtain ⟨-, hvl⟩ := hf
  exact hvl

/-- What is left by an instruction that leaves the vector file `g`, performed beside streams from a state whose vector file and streams
differ, is what it leaves without them. -/
theorem withStreams_issued (s : State) (f g : VecFile) (st st' : Vector (Option Stream) 4) (i : Instr) (c : Cap) :
    let p := (s.setVec f).withStreams st'
    let x := (p.entered i c .vector).setVec g
    { x.withStreams st with hart := (s.issued true true).hart.takeData (x.withStreams st).hart } =
      ({ x with hart := (p.issued true true).hart.takeData x.hart } : State).withStreams st := rfl

/-- An instruction over a bound group does what it does over the group with the strip in it, and the stream is advanced. -/
theorem ReadsGroup.exec_popped (h : ReadsGroup i t d a) (hp : Prompt s) (hl : s.hart.lanes.held ≠ []) (ht : s.hart.vc.vtype = some t)
    (ha : t.groupAt a = true) (hda : t.meet d a = false) (hs : s.hart.streams = onlyStream n b) (hgrp : b.group = a.val)
    (hregs : b.regs = t.mul) (hlt : s.hart.vc.vstart < s.hart.vc.vl) (hvl : s.hart.vc.vl ≤ s.maxElems t) (hfmt : t.fmt = b.sfmt)
    (hleft : b.pos < b.total) (hplain : s.StripPlain b s.hart.vc.vstart s.hart.vc.vl t.bytes) :
    ∃ v w, exec i s = .next (v.withStreams (onlyStream n (b.advanced s.hart.vc.vl w))) ∧ exec i (s.stripState t a b) = .next v := by
  obtain ⟨c, how, act, hexec, hbeside⟩ := h
  obtain ⟨hidle, hclean⟩ := hp
  have hfile : (s.stripFile t a b).clean = true := (State.stripFile_stripped ha hclean hlt hvl).clean hclean
  have going : s.hart.pause = none := Hart.pause_of_idle hidle
  obtain ⟨w, hpop⟩ := (s.sees_entered i c .vector).popStrips (t := t) ht hs hgrp (Hart.entry_vlen s.hart i c .vector hl) hfmt hleft rfl
    hlt hplain hfile how fun e u => poisonCheck e act u
  obtain ⟨x, y, ⟨g, rfl, rfl⟩, hx, hy⟩ := hbeside ((s.stripState t a b).entered i c .vector) (onlyStream n (b.advanced s.hart.vc.vl w))
    (s.hart.entry i c .vector) rfl going (spares_onlyStream hgrp hregs hda) ht rfl
  have acts : popping (s.hart.entry i c .vector) (s.entered i c .vector) [a] how act =
      .ok ((((s.stripState t a b).entered i c .vector).setVec g).withStreams (onlyStream n (b.advanced s.hart.vc.vl w))) :=
    (hpop.trans (perform_clean _ act _ hfile).2).trans hy
  have alone : popping ((s.stripState t a b).hart.entry i c .vector) ((s.stripState t a b).entered i c .vector) [a] how act =
      .ok (((s.stripState t a b).entered i c .vector).setVec g) :=
    (popping_unbound _ _ _ _ _ t ht rfl hfile).trans hx
  have prompt : Prompt (s.stripState t a b) := ⟨hidle, hfile⟩
  have one := issue_done (s.stripState t a b) i c .vector (fun e s => popping e s [a] how act) _ rfl prompt alone rfl
  have two := issue_done s i c .vector (fun e s => popping e s [a] how act) _ rfl ⟨hidle, hclean⟩ acts rfl
  rw [show QClass.vector.usesStart = true from rfl] at one two
  refine ⟨_, w, (hexec s ht).trans (two.trans (congrArg Host.Outcome.next ?_)), (hexec (s.stripState t a b) ht).trans one⟩
  exact withStreams_issued s (s.stripFile t a b) g (onlyStream n (b.advanced s.hart.vc.vl w)) (Vector.replicate 4 none) i c

/-- The fault of a stream with no element left, or of another format. -/
theorem streamFault_some (u : State) (e : QEntry) (hs : u.hart.streams[n] = some b) (hbad : b.total ≤ b.pos ∨ t.fmt ≠ b.sfmt) :
    ∃ f, [n].filterMap (streamFault u e t) = [f] ∧ f.cause = 29 ∧ f.kind = (if b.total ≤ b.pos then 0 else 1) ∧ f.vpc = e.pc ∧
      f.line = none ∧ f.slice = none := by
  by_cases hend : b.total ≤ b.pos
  · have left : b.left = 0 := Nat.sub_eq_zero_of_le hend
    refine ⟨vecFault u e t 29 0 0 0 0#64 (some (0, b.group)), ?_, rfl, (if_pos hend).symm, rfl, rfl, rfl⟩
    simp only [List.filterMap_cons, List.filterMap_nil, streamFault, hs, Option.bind_some, if_pos left]
  · have left : b.left ≠ 0 := by rw [Stream.left]; omega
    have other : t.fmt ≠ b.sfmt := hbad.resolve_left hend
    refine ⟨vecFault u e t 29 1 0 0 0#64 (some (0, b.group)), ?_, rfl, (if_neg hend).symm, rfl, rfl, rfl⟩
    simp only [List.filterMap_cons, List.filterMap_nil, streamFault, hs, Option.bind_some, if_neg left, if_pos other]

/-- An instruction over a bound group stops at the fault of its stream, before it pops an element. -/
theorem popStrips_fault {u : State} {e : QEntry} {f : VecFault} (ht : e.vtype = some t) (hbound : u.hart.boundTo [a] = [n])
    (hfresh : e.popped = false) (hlt : e.start < e.vl) (hclean : u.hart.vec.clean = true)
    (hf : [n].filterMap (streamFault u e t) = [f]) (how : Pops) (act : QEntry → State → VecRes) :
    popStrips e u [a] how act = .fault u e f := by
  have goes : ¬ (e.popped || [n].isEmpty || e.vl = 0 || (how != .whole && decide (e.vl ≤ e.start))) = true := by
    simp [hfresh, Nat.not_le.mpr hlt, Nat.ne_of_gt (Nat.zero_lt_of_lt hlt)]
  rw [popStrips, QEntry.typed_of_vtype ht]
  dsimp only
  rw [hbound, if_neg goes, popAll, hf]
  dsimp only
  rw [State.cleansePops_clean _ _ _ _ hclean, if_neg fun hc => Nat.lt_irrefl _ hc.2]
  rfl

/-- An instruction over a bound group whose stream has no element left, or is of another format, is a stream fault (R140). -/
theorem ReadsGroup.exec_fault (h : ReadsGroup i t d a) (hp : Prompt s) (ht : s.hart.vc.vtype = some t)
    (hs : s.hart.streams = onlyStream n b) (hgrp : b.group = a.val) (hlt : s.hart.vc.vstart < s.hart.vc.vl)
    (hbad : b.total ≤ b.pos ∨ t.fmt ≠ b.sfmt) :
    ∃ u, exec i s = .next u ∧ SameMemory s u ∧ SameVectors s u ∧ u.hart.streams = s.hart.streams ∧
      u.hart.vfault.map (fun f => (f.cause, f.kind, f.vpc)) = some (29, if b.total ≤ b.pos then 0 else 1, s.hart.pc) := by
  obtain ⟨c, how, act, hexec, -⟩ := h
  obtain ⟨hidle, hclean⟩ := hp
  obtain ⟨f, hf, hcause, hkind, hpc, hline, hslice⟩ := streamFault_some (s.entered i c .vector) (s.hart.entry i c .vector) (t := t)
    (show (s.entered i c .vector).hart.streams[n] = some b by
      show s.hart.streams[n] = _
      rw [hs, onlyStream_getElem, if_pos rfl]) hbad
  have acts : popping (s.hart.entry i c .vector) (s.entered i c .vector) [a] how act =
      .fault (s.entered i c .vector) (s.hart.entry i c .vector) f :=
    popStrips_fault (u := s.entered i c .vector) ht (boundTo_only hs hgrp) rfl hlt hclean hf how _
  rw [hexec s ht, issue_idle s i .vector c _ hidle hclean, acts]
  have quiet : ∀ u : State, u.noteFault u.hartId f = u := fun u => by
    simp [State.noteFault, hline, hslice, hcause]
  simp only [settle, quiet]
  refine ⟨_, rfl, ⟨rfl, rfl, rfl, rfl⟩, ⟨rfl, rfl⟩, rfl, ?_⟩
  show some (f.cause, f.kind, f.vpc) = _
  rw [hcause, hkind, hpc]
  rfl

end

/-- The number of bytes read is below the power of 256 that they make. -/
theorem Memory.numBytes_lt (l : List Byte) : Memory.readNum.numBytes l < 256 ^ l.length := by
  induction l with
  | nil => exact Nat.one_pos
  | cons b l ih =>
    rw [Memory.readNum.numBytes, List.length_cons, Nat.pow_succ]
    have := b.isLt
    omega

/-- A number that is loaded has no more bits than its bytes. -/
theorem State.loaded_lt (s : State) (va : Word) (n : Nat) : s.loaded va n < 256 ^ n := by
  have len (m : List Host.Cell) (pa n : Nat) : (Memory.readBytes m pa n).length = n := by
    induction n generalizing pa with
    | zero => rfl
    | succ n ih => rw [Memory.readBytes, List.length_cons, ih]
  rw [State.loaded]
  split
  · exact (Memory.numBytes_lt _).trans_eq (by rw [len])
  · exact Nat.pow_pos (by omega)

/-- The bytes of an element fill no more than its slot. -/
theorem VType.bytes_le_sew (t : VType) : 8 * t.bytes ≤ t.sew := by
  unfold VType.bytes VType.sew
  cases t.fmt <;> decide

/-- An element that is loaded fits its slot. -/
theorem State.stripValue_lt (s : State) (b : Stream) (lo k : Nat) (t : VType) : s.stripValue b lo t.bytes k < 2 ^ t.sew := by
  rw [State.stripValue]
  split
  · refine (s.loaded_lt _ _).trans_le ?_
    rw [show 256 = 2 ^ 8 from rfl, ← Nat.pow_mul]
    exact Nat.pow_le_pow_right (by omega) t.bytes_le_sew
  · exact Nat.two_pow_pos _

/-! ## The obligation -/

/-- Settles O21: a pop leaves the strip in its group, and what an instruction does then goes by the vector file alone. -/
theorem rangesAndStreams : Obligations.RangesAndStreams := by
  refine ⟨fun s t a b hp ht => ⟨fun hl hg v _ => ⟨_, exec_vfe hp ht v hl hg, rfl, rfl, ⟨rfl, rfl⟩, ⟨rfl, rfl⟩, rfl, rfl, rfl, rfl⟩,
    ⟨_, exec_vpref hp ht, rfl, ⟨rfl, rfl, rfl, rfl⟩, ⟨rfl, rfl⟩, ⟨rfl, rfl⟩, rfl⟩⟩, fun s d c a slot hp => ⟨?bind, ?unbind, ?const⟩, ?pops⟩
  case bind =>
    intro t ht hg hal hpl hfree word b hb
    obtain ⟨hindex, hbase, hstride, hcount, hpos⟩ := scbOf_fields hb
    exact ⟨hindex, hbase, hstride, hcount, hpos, _, exec_vsbind hp ht hg hal hpl hfree hb, rfl, ⟨rfl, rfl, rfl, rfl⟩, ⟨rfl, rfl⟩, rfl, rfl,
      rfl⟩
  case unbind =>
    intro ht
    obtain ⟨t, ht⟩ := Option.ne_none_iff_exists'.mp ht
    exact ⟨_, exec_vsunbind hp ht, rfl, ⟨rfl, rfl, rfl, rfl⟩, ⟨rfl, rfl⟩, rfl, rfl, rfl⟩
  case const => exact ⟨_, exec_vbconst hp c, rfl, ⟨rfl, rfl, rfl, rfl⟩, ⟨rfl, rfl⟩, ⟨rfl, rfl⟩, rfl⟩
  case pops =>
    intro s t d a x m q n b hp hf hl ht hgd hga hda hn hother hgrp hregs hlt reads size first entry kept row place strip
    have hs : s.hart.streams = onlyStream n b := eq_onlyStream hn hother
    have hreads := readsGroup_of_mem hgd hga hda x m q
    refine ⟨fun hfmt hleft _ hplain => ?_, fun hbad i hi => (hreads i hi).exec_fault hp ht hs hgrp hlt hbad⟩
    have hvl := Hart.vl_le_of_fits hf ht
    obtain ⟨hrest, hout, htags, helems⟩ := State.stripFile_stripped (b := b) hga hp.2 hlt hvl
    refine ⟨s.stripState t a b, ?_, ⟨hout, fun r _ => congrArg (·.m[r]) hrest, fun r _ => congrArg (·.k[r]) hrest,
      congrArg (·.b) hrest, fun r _ => htags r⟩, fun k hk => ?_, fun i hi => ?_⟩
    · show (s.setVec (s.stripFile t a b)).withStreams _ = (s.setVec { s.hart.vec with
        v := (s.stripFile t a b).v, tag := (s.stripFile t a b).tag, progress := (s.stripFile t a b).progress }).withStreams _
      rw [← hrest]
    · refine (helems k hk).trans ?_
      rw [Nat.mod_eq_of_lt (s.stripValue_lt b _ k t)]
      by_cases hk' : s.hart.vc.vstart ≤ k ∧ k < s.hart.vc.vl
      · have within : strip k = true := by simp [strip, hk']
        rw [if_pos hk', within, if_neg (by decide)]
        rfl
      · have outside : strip k = false := by
          simp only [strip, Bool.and_eq_false_iff, decide_eq_false_iff_not]
          omega
        rw [if_neg hk', if_pos outside]
        rfl
    · obtain ⟨v, w, hu, hv⟩ := (hreads i hi).exec_popped hp hl ht hga hda hs hgrp hregs hlt hvl hfmt hleft fun k hlo hhi =>
        hplain k (by simp [strip, hlo, hhi])
      refine ⟨_, v, w, hu, hv, ?_⟩
      rw [hs, onlyStream_set]
      rfl

end Sys2Proof.Machine
end

section
/-!
Instructions issued on a ready hart that change registers alone, and what they read of groups apart from their destination: the rules
that the proofs about cross-element instructions share (R57, R151, R152).
-/

namespace Sys2Proof.Machine

/-! ## Registers alone -/

section
variable {s u w : State} {t : VType} {i : Instr} {c : Cap} {v g : BitVec 32} {m : BitVec 8} {k : BitVec 16}

/-- What an instruction leaves has the registers, masks and tags that its performance left. -/
theorem Holds.registers (h : Holds u w) :
    u.hart.vec.v = w.hart.vec.v ∧ u.hart.vec.m = w.hart.vec.m ∧ u.hart.vec.tag = w.hart.vec.tag := by
  obtain ⟨p, hp⟩ := h.vec
  rw [hp]
  exact ⟨rfl, rfl, rfl⟩

/-- An instruction that is performed and changes registers alone completes with what it made of them. -/
theorem issue_writesRegs (act : QEntry → State → VecRes) (h : Ready s t)
    (hact : act (s.hart.entry i c .vector) (s.entered i c .vector) = .ok w)
    (hw : WritesRegs (s.entered i c .vector) (s.entered i c .vector) w v m k g) :
    ∃ u, issue s i true .vector c act = .next u ∧ WritesRegs s s.done u v m k g ∧ Holds u w := by
  obtain ⟨hdata, hmem, ⟨hfl, hfree⟩, htab, hout⟩ := hw
  obtain ⟨u, hu, udata, umem, utab, hh⟩ := issue_data s i t c act w h hact hdata hmem htab
  refine ⟨u, hu, ⟨udata, umem, ⟨hh.flags.trans hfl, hh.free.trans hfree⟩, utab, ?_⟩, hh⟩
  obtain ⟨p, hp⟩ := hh.vec
  rw [hp]
  exact hout

/-- An instruction that performs nothing completes. -/
theorem issue_nothing (act : QEntry → State → VecRes) (h : Ready s t)
    (hact : act (s.hart.entry i c .vector) (s.entered i c .vector) = .ok (s.entered i c .vector)) :
    ∃ u, issue s i true .vector c act = .next u ∧ (∀ v m k g, WritesRegs s s.done u v m k g) ∧ SameVectors s u ∧
      u.hart.vec.m = s.hart.vec.m := by
  obtain ⟨u, hu, ⟨hdata, hmem, hfl, htab, -⟩, hh⟩ :=
    issue_writesRegs (v := 0#32) (m := 0#8) (k := 0#16) (g := 0#32) act h hact (WritesRegs.refl ..)
  obtain ⟨hv, hm, htag⟩ := hh.registers
  obtain ⟨p, hp⟩ := hh.vec
  refine ⟨u, hu, fun v m k g => ⟨hdata, hmem, hfl, htab, ?_⟩, ⟨hv, htag⟩, hm⟩
  rw [hp]
  exact ⟨fun _ _ => rfl, fun _ _ => rfl, fun _ _ => rfl, rfl, fun _ _ => .inl rfl⟩

/-- A completed instruction leaves VLEN. -/
theorem OnlyData.vlen (h : OnlyData s.done u) : u.hart.vlen = s.hart.vlen := by
  rw [h]
  rfl

/-- Elements are as they were where no vector register has changed. -/
theorem SameVectors.element (h : SameVectors s u) (hd : OnlyData s.done u) (t : VType) (a : VName) (j : Nat) :
    u.element t a j = s.element t a j := by
  unfold State.element VecFile.elem
  rw [hd.vlen, h.1]

end

/-! ## Operands of an entry on a ready hart -/

section
variable {s : State} {t : VType}

/-- An element read by the entry of an instruction. -/
theorem Ready.elemOf (h : Ready s t) (i : Instr) (c : Cap) (a : VName) (j : Nat) :
    (s.entered i c .vector).elemOf (s.hart.entry i c .vector) t a j = s.element t a j := by
  obtain ⟨-, hvlen, -, -⟩ := entered_facts s i c .vector t h
  rw [State.elemOf, hvlen]
  rfl

/-- The same with its ignored bits zero. -/
theorem Ready.valueOf (h : Ready s t) (i : Instr) (c : Cap) (a : VName) (j : Nat) :
    (s.entered i c .vector).valueOf (s.hart.entry i c .vector) t a j = s.value t a j := by
  rw [State.valueOf, h.elemOf, State.value]

/-- VLMAX of an entry is that of its hart. -/
theorem Ready.vlmax (h : Ready s t) (i : Instr) (c : Cap) : (s.hart.entry i c .vector).vlmax t = s.maxElems t := by
  obtain ⟨-, hvlen, -, -⟩ := entered_facts s i c .vector t h
  rw [QEntry.vlmax, hvlen, State.maxElems]

/-- On a ready hart an instruction that pops strips is performed at once, since no stream is bound. -/
theorem Ready.popping (h : Ready s t) (i : Instr) (c : Cap) (srcs : List VName) (how : Pops) (act : QEntry → State → VecRes) :
    popping (s.hart.entry i c .vector) (s.entered i c .vector) srcs how act =
      act (s.hart.entry i c .vector) (s.entered i c .vector) :=
  popping_unbound _ _ _ _ _ t h.vtype h.1.2.1 h.clean

end

/-! ## Sources apart from a destination -/

section
variable {s : State} {t : VType} {d a : VName} {f : VecFile}

/-- An element of a group that a destination does not meet, while nothing but the destination has been written. -/
theorem Ready.elemOf_apart (h : Ready s t) (i : Instr) (c : Cap) {n n' j : Nat} (ha : groupOk n' a.val = true)
    (hda : groupsMeet n d.val n' a.val = false) (hj : j < n' * s.hart.vlen / t.sew)
    (hout : ∀ r : Fin 32, (groupSet n d.val).getLsbD r.val = false → f.v[r] = s.hart.vec.v[r]) :
    ((s.entered i c .vector).setVec f).elemOf (s.hart.entry i c .vector) t a j = s.element t a j := by
  obtain ⟨-, hvlen, -, -⟩ := entered_facts s i c .vector t h
  obtain ⟨-, hin⟩ := element_inFile s t a j n' ha hj
  simp only [groupOk, decide_eq_true_eq] at ha
  rw [State.elemOf, hvlen]
  exact elem_apart _ _ _ n n' _ _ d a hda hin ha.2 hout

/-- The same with its ignored bits zero. -/
theorem Ready.valueOf_apart (h : Ready s t) (i : Instr) (c : Cap) {n n' j : Nat} (ha : groupOk n' a.val = true)
    (hda : groupsMeet n d.val n' a.val = false) (hj : j < n' * s.hart.vlen / t.sew)
    (hout : ∀ r : Fin 32, (groupSet n d.val).getLsbD r.val = false → f.v[r] = s.hart.vec.v[r]) :
    ((s.entered i c .vector).setVec f).valueOf (s.hart.entry i c .vector) t a j = s.value t a j := by
  rw [State.valueOf, h.elemOf_apart i c ha hda hj hout, State.value]

/-- An element below vl lies below VLMAX. -/
theorem Ready.lt_maxElems (h : Ready s t) {k : Nat} (hk : k < s.hart.vc.vl) : k < s.maxElems t :=
  hk.trans_le (Hart.vl_le_of_fits h.2.1 h.vtype)

end

end Sys2Proof.Machine
end

section
/-!
O1: moves, broadcasts, gathers, slides and order keys.
-/

namespace Sys2Proof.Machine

section
variable {s : State} {t : VType} {d a b : VName}

/-- What an element-wise instruction leaves on a ready hart, its values written as functions of that hart. -/
theorem issue_elementwise_value (i : Instr) (m : Option MName) (c : Cap) (first : Nat) (act : QEntry → State → VecRes)
    (val : QEntry → State → Nat → Nat) (value : Nat → Nat) (h : Ready s t) (hd : t.groupAt d = true)
    (hact : act (s.hart.entry i c .vector) (s.entered i c .vector) =
      elementwise (s.hart.entry i c .vector) (s.entered i c .vector) t d m first (val (s.hart.entry i c .vector)))
    (hup : Upward (s.entered i c .vector) (s.hart.entry i c .vector) t d (val (s.hart.entry i c .vector)))
    (hval : ∀ k, val (s.hart.entry i c .vector) (s.entered i c .vector) k = value k) :
    ∃ u, issue s i true .vector c act = .next u ∧ Elementwise s u t d m first value := by
  rw [← funext hval]
  exact issue_elementwise s i t d m c first act val h hd hact hup

/-- VMV copies the slots of its source. -/
theorem exec_vmv (h : Ready s t) (hd : t.groupAt d = true) (ha : t.groupAt a = true) (m : Option MName) :
    ∃ u, exec (.vmv d a m) s = .next u ∧ Elementwise s u t d m 0 (s.element t a) := by
  obtain ⟨-, hvlen, -, hmax⟩ := entered_facts s (.vmv d a m) {} .vector t h
  show ∃ u, execVmv d a m s = _ ∧ _
  rw [execVmv, legalUnder_true s _ t h.vtype (by simp [hd, ha])]
  refine issue_elementwise_value _ m {} 0 _ (fun e s k => s.elemOf e t a k) _ h hd ?_ (upward_source _ _ t d a hvlen hmax hd ha)
    (h.elemOf _ _ a)
  rw [doVmv, h.popping, typed_entry h.vtype]

/-- VBCST writes X[x] into its elements. -/
theorem exec_vbcst (h : Ready s t) (hd : t.groupAt d = true) (x : XReg) (m : Option MName) :
    ∃ u, exec (.vbcst d x m) s = .next u ∧ Elementwise s u t d m 0 fun _ => t.raw (s.x x).toNat := by
  show ∃ u, execVbcst d x m s = _ ∧ _
  rw [execVbcst, legalUnder_true s _ t h.vtype hd]
  refine issue_elementwise_value _ m { a := some x } 0 _ (fun e _ _ => t.raw e.xa.toNat) _ h hd ?_ (fun _ _ _ _ _ _ => rfl)
    fun _ => rfl
  rw [doVbcst, typed_entry h.vtype]

/-- VPERM gathers the elements that its indices name, and 0 for those from VLMAX on. -/
theorem exec_vperm (h : Ready s t) (hd : t.groupAt d = true) (ha : t.groupAt a = true) (hb : t.groupAt b = true)
    (hda : t.meet d a = false) (hdb : t.meet d b = false) (m : Option MName) :
    ∃ u, exec (.vperm d a b m) s = .next u ∧
      Elementwise s u t d m 0 fun k => if s.element t b k < s.maxElems t then s.value t a (s.element t b k) else 0 := by
  show ∃ u, execVperm d a b m s = _ ∧ _
  rw [execVperm, legalUnder_true s _ t h.vtype (by simp [hd, ha, hb, hda, hdb])]
  refine issue_elementwise_value _ m {} 0 _
    (fun e s k => if s.elemOf e t b k < e.vlmax t then s.valueOf e t a (s.elemOf e t b k) else 0) _ h hd ?_
    (fun f k hk _ hout _ => ?_) fun k => ?_
  · rw [doVperm, h.popping, typed_entry h.vtype]
  · dsimp only
    rw [h.elemOf_apart _ _ hb hdb (h.lt_maxElems hk) hout, h.elemOf, h.vlmax]
    split
    next hj => rw [h.valueOf_apart _ _ ha hda hj hout, h.valueOf]
    · rfl
  · rw [h.elemOf, h.vlmax, h.valueOf]

/-- VSLIDEUP moves elements up, and performs nothing below its distance. -/
theorem exec_vslideup (h : Ready s t) (hd : t.groupAt d = true) (ha : t.groupAt a = true) (hda : t.meet d a = false) (x : XReg)
    (m : Option MName) :
    ∃ u, exec (.vslideup d a x m) s = .next u ∧
      Elementwise s u t d m (s.x x).toNat fun k => s.value t a (k - (s.x x).toNat) := by
  show ∃ u, execVslideup d a x m s = _ ∧ _
  rw [execVslideup, legalUnder_true s _ t h.vtype (by simp [hd, ha, hda])]
  refine issue_elementwise_value _ m { b := some x } _ _ (fun e s k => s.valueOf e t a (k - e.xb.toNat)) _ h hd ?_
    (fun f k hk _ hout _ => ?_) fun k => h.valueOf _ _ a _
  · rw [doVslideup, h.popping, typed_entry h.vtype]
    rfl
  · dsimp only
    rw [h.valueOf_apart _ _ ha hda ((Nat.sub_le ..).trans_lt (h.lt_maxElems hk)) hout, h.valueOf]

/-- VSLIDEDN moves elements down, and 0 in from VLMAX on. -/
theorem exec_vslidedn (h : Ready s t) (hd : t.groupAt d = true) (ha : t.groupAt a = true) (hda : t.meet d a = false) (x : XReg)
    (m : Option MName) :
    ∃ u, exec (.vslidedn d a x m) s = .next u ∧
      Elementwise s u t d m 0 fun k =>
        if k + (s.x x).toNat < s.maxElems t then s.value t a (k + (s.x x).toNat) else 0 := by
  show ∃ u, execVslidedn d a x m s = _ ∧ _
  rw [execVslidedn, legalUnder_true s _ t h.vtype (by simp [hd, ha, hda])]
  refine issue_elementwise_value _ m { b := some x } 0 _
    (fun e s k => if k + e.xb.toNat < e.vlmax t then s.valueOf e t a (k + e.xb.toNat) else 0) _ h hd ?_
    (fun f k hk _ hout _ => ?_) fun k => ?_
  · rw [doVslidedn, h.popping, typed_entry h.vtype]
  · dsimp only
    rw [h.vlmax]
    split
    next hj => rw [h.valueOf_apart _ _ ha hda hj hout, h.valueOf]
    · rfl
  · rw [h.vlmax, h.valueOf]
    rfl

/-- VORDKEY writes the keys of the elements of its source. -/
theorem exec_vordkey (h : Ready s t) (hd : t.groupAt d = true) (ha : t.groupAt a = true) (m : Option MName)
    (hf : (t.fmt.isFS || t.fmt.isInt) = true) :
    ∃ u, exec (.vordkey d a m) s = .next u ∧ Elementwise s u t d m 0 fun k => ordKey t.fmt (s.element t a k) := by
  obtain ⟨-, hvlen, -, hmax⟩ := entered_facts s (.vordkey d a m) {} .vector t h
  show ∃ u, execVordkey d a m s = _ ∧ _
  rw [execVordkey, legalUnder_true s _ t h.vtype (by rw [hd, ha, hf]; rfl)]
  refine issue_elementwise_value _ m {} 0 _ (fun e s k => ordKey t.fmt (s.elemOf e t a k)) _ h hd ?_
    (fun f k hk hm hout hel => congrArg (ordKey t.fmt) (upward_source _ _ t d a hvlen hmax hd ha f k hk hm hout hel))
    fun k => congrArg (ordKey t.fmt) (h.elemOf _ _ a k)
  rw [doVordkey, h.popping, typed_entry h.vtype]

end

/-- Settles O1: an element-wise instruction whose source is its destination, or a group apart from it, reads what the source held. -/
theorem elementMoves : Obligations.ElementMoves := fun _ _ _ _ _ x m h hd ha =>
  ⟨exec_vmv h hd ha m, exec_vbcst h hd x m, fun hb hda hdb => exec_vperm h hd ha hb hda hdb m,
    fun hda => exec_vslideup h hd ha hda x m, fun hda => exec_vslidedn h hd ha hda x m, exec_vordkey h hd ha m⟩

end Sys2Proof.Machine
end

section
/-!
Whole-vector instructions (class W of R152): what one leaves once its elements are performed, and the selector instructions of R157.
-/

namespace Sys2Proof.Machine

/-! ## Destinations -/

/-- An element that is kept is a number of its width. -/
theorem State.kept_mod (s : State) (t : VType) (policy : Bool) (d : VName) (k : Nat) :
    s.kept t policy d k % 2 ^ t.sew = s.kept t policy d k := by
  unfold State.kept
  split
  · exact Nat.zero_mod _
  · exact Nat.mod_eq_of_lt (VecFile.elem_lt ..)

section
variable {s : State} {e : QEntry} {t : VType} {d : VName} {m : Option MName} {n : Nat} {val : Nat → Nat} {g : VecFile}

/-- A destination complete up to `n`, whose elements below `n` have been performed. -/
theorem Done.finishFrom (h : Done s e t d m 0 n (fun _ => val) g) (hu : s.hart.unbound = true) (hv : e.vlen = s.hart.vlen)
    (hd : t.groupAt d = true) (wrote : Nat → Bool) :
    ∃ f, (s.setVec g).finishFrom e t d n wrote = s.setVec f ∧
      WritesRegs s s (s.setVec f) (groupSet t.mul d.val) 0#8 0#16 0#32 ∧ Untagged (s.setVec f) (groupSet t.mul d.val) ∧
      ∀ k, k < s.maxElems t → f.elem s.hart.vlen d.val t.sew k =
        if k < n then (if s.hart.vec.active m k then val k else s.kept t t.mp d k) % 2 ^ t.sew else s.kept t t.tp d k := by
  obtain ⟨f, hf, fm, fk, fb, fout, ftag, funtag, felem⟩ := finishFrom_spec (s.setVec g) e t d n wrote hu hv hd
  refine ⟨f, hf, WritesRegs.ofVec s f _ _ _ _ ⟨fun r hr => (fout r hr).trans (h.outside r hr), fun r _ => ?_, fun r _ => ?_, ?_,
    fun r _ => ?_⟩, funtag, fun k hk => ?_⟩
  · exact congrArg (·[r]) (fm.trans (congrArg (·.m) h.rest))
  · exact congrArg (·[r]) (fk.trans (congrArg (·.k) h.rest))
  · exact fb.trans (congrArg (·.b) h.rest)
  · have kept : g.tag = s.hart.vec.tag := congrArg (·.tag) h.rest
    rw [← kept]
    exact ftag r
  · have hk' : k < e.vlmax t := by rwa [QEntry.vlmax, hv]
    have performed := h.elems k hk'
    have finished : f.elem e.vlen d.val t.sew k = if n ≤ k ∧ t.tp = true then 0 else g.elem e.vlen d.val t.sew k := felem k hk'
    rw [hv] at performed finished
    rw [finished, performed]
    by_cases hkn : k < n
    · rw [if_neg fun hc => Nat.not_le.mpr hkn hc.1, if_pos ⟨Nat.zero_le k, hkn⟩, if_pos hkn]
      split
      · rfl
      · exact (State.kept_mod ..).symm
    · rw [if_neg (fun hc => hkn hc.2 : ¬ (0 ≤ k ∧ k < n)), if_neg hkn, State.kept]
      simp only [Nat.not_lt.mp hkn, true_and]
      rfl

end

/-! ## Whole-vector instructions at issue -/

section
variable {s : State} {t : VType} {d : VName} {m : Option MName} {n : Nat} {val : Nat → Nat}

/-- What a whole-vector instruction leaves when it is issued on a ready hart: its elements below `n` that a mask names have values, and the
others of them follow MP. -/
theorem issue_wholeVector (i : Instr) (c : Cap) (act : QEntry → State → VecRes) (body : VType → VecRes) (h : Ready s t)
    (hd : t.groupAt d = true)
    (hact : act (s.hart.entry i c .vector) (s.entered i c .vector) =
      wholeVector (s.hart.entry i c .vector) (s.entered i c .vector) body)
    {g : VecFile} (hdone : Done (s.entered i c .vector) (s.hart.entry i c .vector) t d m 0 n (fun _ => val) g) (wrote : Nat → Bool)
    (hbody : body t = .ok (((s.entered i c .vector).setVec g).finishFrom (s.hart.entry i c .vector) t d n wrote)) :
    ∃ u, issue s i true .vector c act = .next u ∧
      WholeVector s u t d n fun k => if s.hart.vec.active m k then val k else s.kept t t.mp d k := by
  obtain ⟨-, hvlen, -, -⟩ := entered_facts s i c .vector t h
  by_cases hvl : s.hart.vc.vl = 0
  · obtain ⟨u, hu, hw, hsame, -⟩ := issue_nothing act h (hact.trans (if_pos hvl))
    exact ⟨u, hu, hw _ _ _ _, by rw [if_pos hvl]; exact hsame⟩
  · obtain ⟨f, hf, hw, huntag, helem⟩ := hdone.finishFrom h.1.2.1 hvlen hd wrote
    have performed : act (s.hart.entry i c .vector) (s.entered i c .vector) = .ok ((s.entered i c .vector).setVec f) := by
      rw [hact, wholeVector, if_neg (show ¬ (s.hart.entry i c .vector).vl = 0 from hvl), typed_entry h.vtype, hbody, hf]
    obtain ⟨u, hu, hw', hh⟩ := issue_writesRegs act h performed hw
    refine ⟨u, hu, hw', ?_⟩
    rw [if_neg hvl]
    refine ⟨fun k hk => ?_, fun r hr => ?_⟩
    · rw [hh.element hw'.1]
      exact helem k hk
    · rw [hh.registers.2.2]
      exact huntag r hr

/-- Elements written one after another from the first on, each with a value that those before it do not change. -/
theorem putElems_done (i : Instr) (c : Cap) (h : Ready s t) (hd : t.groupAt d = true) (write : State → Nat → Nat)
    (hup : Upward (s.entered i c .vector) (s.hart.entry i c .vector) t d write)
    (hval : ∀ k, write (s.entered i c .vector) k = val k) (hn : n ≤ s.hart.vc.vl) :
    ∃ g, (List.range n).foldl (fun (s' : State) k => s'.putElem (s.hart.entry i c .vector) t d k (write s' k)) (s.entered i c .vector) =
        (s.entered i c .vector).setVec g ∧
      Done (s.entered i c .vector) (s.hart.entry i c .vector) t d none 0 n (fun _ => val) g := by
  obtain ⟨-, hvlen, -, hmax⟩ := entered_facts s i c .vector t h
  obtain ⟨g, hg, hdone⟩ := elements_done (s.entered i c .vector) (s.hart.entry i c .vector) t d none 0 write hvlen hd hmax hup n
    (by rw [Nat.zero_add]; exact hn)
  rw [Nat.zero_add] at hdone
  refine ⟨g, ?_, hdone.rest, hdone.outside, fun j hj => ?_⟩
  · rw [List.range_eq_range', ← hg]
    rfl
  · rw [hdone.elems j hj, hval]

end

/-! ## Selectors -/

/-- The elements named below one more. -/
theorem State.marked_succ_length (s : State) (q : MName) (n : Nat) :
    (s.marked q (n + 1)).length = (s.marked q n).length + (s.hart.vec.maskBit q n).toNat := by
  rw [State.marked, List.range_succ, List.filter_append, List.length_append, ← State.marked]
  cases h : s.hart.vec.maskBit q n <;> simp [h]

/-- At most `n` elements are named below `n`. -/
theorem State.marked_length_le (s : State) (q : MName) (n : Nat) : (s.marked q n).length ≤ n :=
  (List.length_filter_le ..).trans_eq List.length_range

/-- A walk that counts the elements that a selector names, and performs each element in turn. -/
theorem foldl_counted {s : State} {e : QEntry} {t : VType} {d : VName} {m : Option MName} {val : Nat → Nat} {q : MName}
    (one : Nat × State → Nat → Nat × State)
    (hone : ∀ n f, n < e.vl → Done s e t d m 0 n (fun _ => val) f →
      ∃ g, one ((s.marked q n).length, s.setVec f) n = ((s.marked q (n + 1)).length, s.setVec g) ∧
        Done s e t d m 0 (n + 1) (fun _ => val) g) (n : Nat) (hn : n ≤ e.vl) :
    ∃ g, (List.range n).foldl one (0, s) = ((s.marked q n).length, s.setVec g) ∧ Done s e t d m 0 n (fun _ => val) g := by
  induction n with
  | zero => exact ⟨s.hart.vec, rfl, rfl, fun _ _ => rfl, fun j _ => by rw [if_neg (by omega)]⟩
  | succ n ih =>
    obtain ⟨f, hf, hdone⟩ := ih (by omega)
    obtain ⟨g, hg, hdone'⟩ := hone n f hn hdone
    refine ⟨g, ?_, hdone'⟩
    rw [List.range_succ, List.foldl_append, hf]
    exact hg

/-- A list with the places of its members, place by place. -/
theorem zipIdx_eq_map_getD (l : List Nat) : l.zipIdx = (List.range l.length).map fun j => (l.getD j 0, j) := by
  refine List.ext_getElem (by simp) fun j hj _ => ?_
  rw [List.length_zipIdx] at hj
  simp [hj]

section
variable {s : State} {t : VType} {d a : VName} {q : MName}

/-- An element that a selector names lies below vl. -/
theorem State.marked_getD_lt (j : Nat) (hvl : 0 < s.hart.vc.vl) : (s.marked q s.hart.vc.vl).getD j 0 < s.hart.vc.vl := by
  by_cases hj : j < (s.marked q s.hart.vc.vl).length
  · rw [List.getD_eq_getElem _ _ hj]
    exact List.mem_range.mp (List.mem_of_mem_filter (List.getElem_mem hj))
  · rw [List.getD_eq_default _ _ (Nat.not_lt.mp hj)]
    exact hvl

/-- VCOMPRESS writes the elements that its selector names one after another. -/
theorem exec_vcompress (h : Ready s t) (hd : t.groupAt d = true) (ha : t.groupAt a = true) (hda : t.meet d a = false) :
    ∃ u, exec (.vcompress d a q) s = .next u ∧
      WholeVector s u t d (s.marked q s.hart.vc.vl).length fun j => s.value t a ((s.marked q s.hart.vc.vl).getD j 0) := by
  obtain ⟨g, hg, hdone⟩ := putElems_done (s := s) (val := fun j => s.value t a ((s.marked q s.hart.vc.vl).getD j 0))
    (.vcompress d a q) {} h hd
    (fun s' j => s'.valueOf (s.hart.entry (.vcompress d a q) {} .vector) t a ((s.marked q s.hart.vc.vl).getD j 0))
    (fun f j hj _ hout _ => by
      dsimp only
      rw [h.valueOf_apart _ _ ha hda (h.lt_maxElems (State.marked_getD_lt j (Nat.zero_lt_of_lt hj))) hout, h.valueOf])
    (fun j => h.valueOf _ _ a _) (s.marked_length_le q s.hart.vc.vl)
  show ∃ u, execVcompress d a q s = _ ∧ _
  rw [execVcompress, legalUnder_true s _ t h.vtype (by simp [hd, ha, hda])]
  refine issue_wholeVector (m := none) _ _ _ _ h hd (h.popping ..) hdone (fun _ => true) ?_
  dsimp only
  rw [← hg, show selected (s.entered (.vcompress d a q) {} .vector) (s.hart.entry (.vcompress d a q) {} .vector) q =
    s.marked q s.hart.vc.vl from rfl, zipIdx_eq_map_getD, List.foldl_map]

/-- VEXPAND spreads the elements of its source over those that its selector names. -/
theorem exec_vexpand (h : Ready s t) (hd : t.groupAt d = true) (ha : t.groupAt a = true) (hda : t.meet d a = false) :
    ∃ u, exec (.vexpand d a q) s = .next u ∧
      WholeVector s u t d s.hart.vc.vl fun k =>
        if s.hart.vec.maskBit q k then s.value t a (s.marked q k).length else s.kept t t.mp d k := by
  obtain ⟨-, hvlen, -, hmax⟩ := entered_facts s (.vexpand d a q) {} .vector t h
  obtain ⟨g, hg, hdone⟩ := foldl_counted (s := s.entered (.vexpand d a q) {} .vector) (e := s.hart.entry (.vexpand d a q) {} .vector)
    (t := t) (d := d) (m := some q) (val := fun k => s.value t a (s.marked q k).length) (q := q)
    (expandOne (s.hart.entry (.vexpand d a q) {} .vector) t d a q) (fun n f hn hf => by
      obtain ⟨g, hput, hg⟩ := hf.step hvlen hd hmax (fun _ _ _ _ _ _ => rfl) (Nat.zero_le n) hn
      refine ⟨g, ?_, hg⟩
      have bit : f.maskBit q n = s.hart.vec.maskBit q n := hf.active n
      have taken : (s.marked q n).length < s.maxElems t := h.lt_maxElems ((s.marked_length_le q n).trans_lt hn)
      rw [State.marked_succ_length, ← hput, expandOne]
      dsimp only
      rw [State.setVec_hart_vec]
      show _ = (_ + (s.hart.vec.maskBit q n).toNat, if f.maskBit q n = true then _ else _)
      rw [bit]
      cases s.hart.vec.maskBit q n with
      | false => rfl
      | true => exact congrArg (fun x => (_, State.putElem _ _ t d n x)) (h.valueOf_apart _ _ ha hda taken hf.outside))
    s.hart.vc.vl le_rfl
  show ∃ u, execVexpand d a q s = _ ∧ _
  rw [execVexpand, legalUnder_true s _ t h.vtype (by simp [hd, ha, hda])]
  refine issue_wholeVector (m := some q) _ _ _ _ h hd (h.popping ..) hdone (fun k => t.mp || s.hart.vec.maskBit q k) ?_
  show VecRes.ok (((List.range s.hart.vc.vl).foldl (expandOne _ t d a q) (0, _)).2.finishDest _ t d _) = _
  rw [hg]
  rfl

/-- VIOTA counts the elements that its selector names below each. -/
theorem exec_viota (h : Ready s t) (hd : t.groupAt d = true) (hi : t.fmt.isInt = true) :
    ∃ u, exec (.viota d q) s = .next u ∧ WholeVector s u t d s.hart.vc.vl fun k => (s.marked q k).length := by
  obtain ⟨-, hvlen, -, hmax⟩ := entered_facts s (.viota d q) {} .vector t h
  obtain ⟨g, hg, hdone⟩ := foldl_counted (s := s.entered (.viota d q) {} .vector) (e := s.hart.entry (.viota d q) {} .vector)
    (t := t) (d := d) (m := none) (val := fun k => (s.marked q k).length) (q := q)
    (fun c k => (c.1 + (c.2.hart.vec.maskBit q k).toNat, c.2.putElem (s.hart.entry (.viota d q) {} .vector) t d k c.1))
    (fun n f hn hf => by
      obtain ⟨g, hput, hg⟩ := hf.step hvlen hd hmax (fun _ _ _ _ _ _ => rfl) (Nat.zero_le n) hn
      refine ⟨g, ?_, hg⟩
      have masks : f.m = s.hart.vec.m := congrArg (·.m) hf.rest
      have bit : f.maskBit q n = s.hart.vec.maskBit q n := by rw [VecFile.maskBit, masks, VecFile.maskBit]
      rw [State.marked_succ_length, ← hput]
      exact Prod.ext (congrArg (fun b : Bool => _ + b.toNat) bit) rfl)
    s.hart.vc.vl le_rfl
  show ∃ u, execViota d q s = _ ∧ _
  rw [execViota, legalUnder_true s _ t h.vtype (by simp [hd, hi])]
  refine issue_wholeVector (m := none) _ _ _ _ h hd rfl hdone (fun _ => true) ?_
  dsimp only
  rw [show (s.hart.entry (.viota d q) {} .vector).vl = s.hart.vc.vl from rfl, hg]
  rfl

end

end Sys2Proof.Machine
end

section
/-!
Zip and unzip (R165): positions of interleaved units, and writes into a group of any number of registers.
-/

namespace Sys2Proof.Machine

/-! ## Positions -/

/-- A position has its unit and its place in the unit. -/
theorem zipAt_div_mod {g : Nat} (hg : 0 < g) (i r : Nat) : zipAt g i r / g = 2 * (i / g) + r ∧ zipAt g i r % g = i % g := by
  have hlt := Nat.mod_lt i hg
  rw [zipAt, Nat.mul_comm, Nat.mul_add_div hg, Nat.mul_add_mod, Nat.div_eq_of_lt hlt, Nat.mod_eq_of_lt hlt]
  exact ⟨rfl, rfl⟩

/-- Elements of two sources lie at positions of their own. -/
theorem zipAt_inj {g i j r r' : Nat} (hg : 0 < g) (hr : r < 2) (hr' : r' < 2) (h : zipAt g i r = zipAt g j r') : i = j ∧ r = r' := by
  obtain ⟨unit, place⟩ := zipAt_div_mod hg i r
  obtain ⟨unit', place'⟩ := zipAt_div_mod hg j r'
  rw [h] at unit place
  have same : i / g = j / g := by omega
  refine ⟨?_, by omega⟩
  rw [← Nat.div_add_mod i g, ← Nat.div_add_mod j g, same, ← place, place']

/-- Elements below whole units lie below twice as many positions. -/
theorem zipAt_lt {g i r n : Nat} (hg : g ∣ n) (hi : i < n) (hr : r < 2) : zipAt g i r < 2 * n := by
  obtain ⟨units, rfl⟩ := hg
  have pos : 0 < g := Nat.pos_of_ne_zero (by rintro rfl; simp at hi)
  obtain ⟨unit, -⟩ := zipAt_div_mod pos i r
  have hunit : i / g < units := Nat.div_lt_of_lt_mul hi
  rw [show 2 * (g * units) = 2 * units * g by ring]
  exact (Nat.div_lt_iff_lt_mul pos).mp (by omega)

/-- VLMAX is a whole number of units. -/
theorem zipUnit_dvd_maxElems (s : State) (t : VType) : t.zipUnit ∣ s.maxElems t := by
  have unit : t.zipUnit ∣ 64 := by
    unfold VType.zipUnit
    split
    · have hbl : t.bl ≤ 6 := by unfold VType.bl; omega
      exact Nat.pow_dvd_pow 2 hbl
    · exact Nat.one_dvd _
  have slots : t.sew * 64 ∣ groupBits := by
    unfold VType.sew
    cases t.fmt <;> decide
  have bits : t.sew * 64 ∣ t.mul * s.hart.vlen := (slots.trans (Nat.dvd_mul_right ..)).trans (Nat.dvd_mul_left ..)
  exact unit.trans (Nat.dvd_div_of_mul_dvd bits)

/-- A unit is not empty. -/
theorem VType.zipUnit_pos (t : VType) : 0 < t.zipUnit := by
  unfold VType.zipUnit
  split
  · exact Nat.two_pow_pos _
  · exact Nat.one_pos

/-! ## Groups -/

/-- The vector file `g` is `f` but for the registers of a group of `n` at a register (progress aside, R58). -/
structure GroupWritten (f g : VecFile) (n : Nat) (d : VName) : Prop where
  rest : g = { f with v := g.v, progress := g.progress }
  outside : ∀ r : Fin 32, (groupSet n d.val).getLsbD r.val = false → g.v[r] = f.v[r]

/-- Nothing written. -/
theorem GroupWritten.refl (f : VecFile) (n : Nat) (d : VName) : GroupWritten f f n d := ⟨rfl, fun _ _ => rfl⟩

/-- A group written twice. -/
theorem GroupWritten.trans {f g h : VecFile} {n : Nat} {d : VName} (hg : GroupWritten f g n d) (hh : GroupWritten g h n d) :
    GroupWritten f h n d := by
  refine ⟨?_, fun r hr => (hh.outside r hr).trans (hg.outside r hr)⟩
  have rest := hg.rest ▸ hh.rest
  exact rest

/-- An element of a group written. -/
theorem GroupWritten.setElem (f : VecFile) {vlen w k n : Nat} {d : VName} (hk : k / (vlen / w) < n) (x : Nat) :
    GroupWritten f (f.setElem vlen d.val w k x) n d := by
  refine ⟨VecFile.setElem_rest .., fun r hr => VecFile.setElem_v_ne _ _ _ _ _ _ _ fun hc => ?_⟩
  rw [groupSet_getLsbD _ _ _ r.isLt, decide_eq_false_iff_not] at hr
  generalize k / (vlen / w) = q at hk hc
  omega

/-- The elements of a group after a write of one. -/
theorem VecFile.elem_setElem (f : VecFile) {vlen n w e : Nat} (x : Nat) (h : InFile vlen n w e) (k : Nat) :
    (f.setElem vlen n w e x).elem vlen n w k = if k = e then x % 2 ^ w else f.elem vlen n w k := by
  split
  next hk => rw [hk, VecFile.elem_setElem_same _ _ _ _ _ _ h]
  next hk => exact VecFile.elem_setElem_ne _ _ _ _ _ _ _ _ h (place_ne _ _ _ _ (Ne.symm hk))

/-! ## Writes noted -/

/-- The registers, masks, scales and constants of `g` are those of `f`, and its tags are those of `f` or cleared, cleared at the registers
of a set. -/
structure Noted (f g : VecFile) (set : BitVec 32) : Prop where
  v : g.v = f.v
  m : g.m = f.m
  k : g.k = f.k
  b : g.b = f.b
  tag : ∀ r : Fin 32, g.tag[r] = f.tag[r] ∨ g.tag[r] = none
  untagged : ∀ r : Fin 32, set.getLsbD r.val = true → g.tag[r] = none

/-- The tags of written registers cleared, and their progress moved. -/
theorem noted_clearTags (f : VecFile) (vlen n : Nat) (set : BitVec 32) : Noted f ((f.clearTags vlen set).progressTo set n) set :=
  ⟨rfl, rfl, rfl, rfl, fun r => f.clearTags_tag vlen set r, fun r => f.clearTags_written vlen set r⟩

/-- Of two vector files written one after the other, the second stands. -/
theorem State.setVec_setVec (s : State) (f g : VecFile) : (s.setVec f).setVec g = s.setVec g := rfl

/-- A write of registers noted, with their progress; the poison of registers written whole ends, which is no write. -/
theorem State.wrote_progress_cleanse (s : State) (e : QEntry) (vlen n w mul : Nat) (set : BitVec 32) (p : Nat → Bool)
    (hu : s.hart.unbound = true) :
    ∃ f, ((s.wrote vlen set).progress set n).cleanse e w set mul p = s.setVec f ∧ Noted s.hart.vec f set := by
  have noted := noted_clearTags s.hart.vec vlen n set
  rw [State.wrote_unbound _ _ _ hu, State.progress, State.setVec_hart_vec, State.setVec_setVec, State.cleanse, State.setVec_hart_vec,
    State.setVec_setVec]
  refine ⟨_, rfl, ?_⟩
  unfold VecFile.cleanse
  split
  · exact noted
  · exact ⟨noted.v, noted.m, noted.k, noted.b, noted.tag, noted.untagged⟩

/-- A group written, and its write noted: nothing outside the group has changed. -/
theorem GroupWritten.sameOutside {f g g' : VecFile} {n : Nat} {d : VName} {set : BitVec 32} (h : GroupWritten f g n d)
    (hg : Noted g g' set) : SameOutside f g' (groupSet n d.val) 0#8 0#16 0#32 := by
  have tags : g.tag = f.tag := congrArg (·.tag) h.rest
  refine ⟨fun r hr => ?_, fun r _ => ?_, fun r _ => ?_, ?_, fun r _ => tags ▸ hg.tag r⟩
  · rw [hg.v]
    exact h.outside r hr
  · exact congrArg (·[r]) (hg.m.trans (congrArg (·.m) h.rest))
  · exact congrArg (·[r]) (hg.k.trans (congrArg (·.k) h.rest))
  · exact hg.b.trans (congrArg (·.b) h.rest)

/-- Elements are as they were where a write is noted. -/
theorem Noted.elem {f g : VecFile} {set : BitVec 32} (h : Noted f g set) (vlen n w k : Nat) : g.elem vlen n w k = f.elem vlen n w k := by
  rw [VecFile.elem, h.v, VecFile.elem]

/-! ## VZIP -/

/-- A copied element fits its slot. -/
theorem VType.raw_lt (t : VType) (x : Nat) : t.raw x < 2 ^ t.sew := by
  unfold VType.raw
  split
  next hf =>
    rw [VType.sew, hf]
    exact (Nat.div_mul_le_self ..).trans_lt (Nat.mod_lt _ (Nat.two_pow_pos 32))
  · refine (Nat.mod_lt _ (Nat.two_pow_pos _)).trans_le (Nat.pow_le_pow_right (by decide) ?_)
    unfold VType.sew
    cases t.fmt <;> decide

/-- A copied element is a number of its width. -/
theorem State.value_mod (s : State) (t : VType) (v : VName) (k : Nat) : s.value t v k % 2 ^ t.sew = s.value t v k :=
  Nat.mod_eq_of_lt (t.raw_lt _)

/-- The vector file `g` is `f` with the first `n` elements of two sources interleaved into the group of twice LMUL registers at `d`, which
has room for `room` elements. -/
structure Zipped (f g : VecFile) (vlen : Nat) (t : VType) (d : VName) (room : Nat) (x y : Nat → Nat) (n : Nat) : Prop where
  group : GroupWritten f g (2 * t.mul) d
  first : ∀ i, i < n → g.elem vlen d.val t.sew (zipAt t.zipUnit i 0) = x i % 2 ^ t.sew
  second : ∀ i, i < n → g.elem vlen d.val t.sew (zipAt t.zipUnit i 1) = y i % 2 ^ t.sew
  others : ∀ k, k < room → (∀ i, i < n → k ≠ zipAt t.zipUnit i 0 ∧ k ≠ zipAt t.zipUnit i 1) →
    g.elem vlen d.val t.sew k = f.elem vlen d.val t.sew k

/-- One more element of each source. -/
theorem Zipped.step {f g : VecFile} {vlen : Nat} {t : VType} {d : VName} {room : Nat} {x y : Nat → Nat} {n : Nat}
    (h : Zipped f g vlen t d room x y n) (hroom : ∀ k, k < room → InFile vlen d.val t.sew k ∧ k / (vlen / t.sew) < 2 * t.mul)
    (hn : ∀ r, r < 2 → zipAt t.zipUnit n r < room) :
    Zipped f ((g.setElem vlen d.val t.sew (zipAt t.zipUnit n 0) (x n)).setElem vlen d.val t.sew (zipAt t.zipUnit n 1) (y n))
      vlen t d room x y (n + 1) := by
  obtain ⟨in0, reg0⟩ := hroom _ (hn 0 (by decide))
  obtain ⟨in1, reg1⟩ := hroom _ (hn 1 (by decide))
  have apart {i j r r' : Nat} (hr : r < 2) (hr' : r' < 2) (hne : i ≠ j ∨ r ≠ r') : zipAt t.zipUnit i r ≠ zipAt t.zipUnit j r' :=
    fun he => by have := zipAt_inj t.zipUnit_pos hr hr' he; omega
  refine ⟨(h.group.trans (.setElem g reg0 _)).trans (.setElem _ reg1 _), fun i hi => ?_, fun i hi => ?_, fun k hk hne => ?_⟩
  · rw [VecFile.elem_setElem _ _ in1, if_neg (apart (by decide) (by decide) (.inr (by decide))), VecFile.elem_setElem _ _ in0]
    by_cases hin : i = n
    · rw [hin, if_pos rfl]
    · rw [if_neg (apart (by decide) (by decide) (.inl hin)), h.first i (by omega)]
  · rw [VecFile.elem_setElem _ _ in1]
    by_cases hin : i = n
    · rw [hin, if_pos rfl]
    · rw [if_neg (apart (by decide) (by decide) (.inl hin)), VecFile.elem_setElem _ _ in0,
        if_neg (apart (by decide) (by decide) (.inl hin)), h.second i (by omega)]
  · obtain ⟨h0, h1⟩ := hne n (Nat.lt_succ_self n)
    rw [VecFile.elem_setElem _ _ in1, if_neg h1, VecFile.elem_setElem _ _ in0, if_neg h0]
    exact h.others k hk fun i hi => hne i (Nat.lt_succ_of_lt hi)

/-- The tail of a group, from one of its elements on, written. -/
theorem GroupWritten.zeroFrom (f : VecFile) (vlen w first : Nat) {n : Nat} {d : VName} (hd : d.val + n ≤ 32) :
    GroupWritten f (f.zeroFrom vlen d.val w first n) n d := by
  refine ⟨?_, fun r hr => VecFile.zeroFrom_v_ne _ _ _ _ _ _ _ hd ?_⟩
  · rw [VecFile.zeroFrom_rest]
  · rw [groupSet_getLsbD _ _ _ r.isLt, decide_eq_false_iff_not] at hr
    omega

section
variable {s : State} {t : VType} {d a b : VName}

/-- A wide group has room for twice VLMAX. -/
theorem lt_wide_room {k : Nat} (hk : k < 2 * s.maxElems t) : k < 2 * t.mul * s.hart.vlen / t.sew :=
  hk.trans_le (by
    rw [State.maxElems, Nat.mul_assoc]
    exact Nat.mul_div_le_mul_div_assoc ..)

/-- The destination of a zip before its elements: TP makes it zero. -/
theorem zip_base (e : QEntry) (hv : e.vlen = s.hart.vlen) (hd : t.wideAt d = true) :
    ∃ f, (if t.tp then s.setVec (s.hart.vec.zeroFrom e.vlen d.val t.sew 0 (2 * t.mul)) else s) = s.setVec f ∧
      GroupWritten s.hart.vec f (2 * t.mul) d ∧ ∀ k, k < 2 * s.maxElems t → f.elem s.hart.vlen d.val t.sew k = s.kept t t.tp d k := by
  simp only [VType.wideAt, Bool.and_eq_true] at hd
  obtain ⟨-, hd⟩ := hd
  have room := hd
  simp only [groupOk, decide_eq_true_eq] at room
  unfold State.kept
  split
  · refine ⟨_, rfl, .zeroFrom _ _ _ _ room.2, fun k hk => ?_⟩
    obtain ⟨⟨hfile, -⟩, hreg⟩ := element_inFile s t d k _ hd (lt_wide_room hk)
    rw [hv, VecFile.elem_zeroFrom _ _ _ _ _ _ room.2 _ hfile, if_pos ⟨hreg, Nat.zero_le k⟩]
  · exact ⟨s.hart.vec, rfl, .refl .., fun _ _ => rfl⟩

/-- One element of each source of a zip. -/
def zipOne (e : QEntry) (t : VType) (d a b : VName) (s : State) (i : Nat) : State :=
  (s.putElem e t d (zipAt t.zipUnit i 0) (s.valueOf e t a i)).putElem e t d (zipAt t.zipUnit i 1) (s.valueOf e t b i)

/-- The elements of a zip, one after another. -/
theorem foldl_zipOne (h : Ready s t) (i : Instr) (c : Cap) (hd : t.wideAt d = true) (ha : t.groupAt a = true) (hb : t.groupAt b = true)
    (hda : groupsMeet (2 * t.mul) d.val t.mul a.val = false) (hdb : groupsMeet (2 * t.mul) d.val t.mul b.val = false)
    {f : VecFile} (hf : GroupWritten s.hart.vec f (2 * t.mul) d) (n : Nat) (hn : n ≤ s.hart.vc.vl) :
    ∃ g, (List.range n).foldl (zipOne (s.hart.entry i c .vector) t d a b) ((s.entered i c .vector).setVec f) =
        (s.entered i c .vector).setVec g ∧
      Zipped f g s.hart.vlen t d (2 * s.maxElems t) (s.value t a) (s.value t b) n := by
  obtain ⟨-, hvlen, -, -⟩ := entered_facts s i c .vector t h
  induction n with
  | zero => exact ⟨f, rfl, .refl .., fun i hi => absurd hi (Nat.not_lt_zero i), fun i hi => absurd hi (Nat.not_lt_zero i), fun _ _ _ => rfl⟩
  | succ n ih =>
    obtain ⟨g, hg, hz⟩ := ih (Nat.le_of_succ_le hn)
    have source := (hf.trans hz.group).outside
    have hlt := h.lt_maxElems (Nat.lt_of_succ_le hn)
    simp only [VType.wideAt, Bool.and_eq_true] at hd
    refine ⟨_, ?_, hz.step (fun k hk => element_inFile s t d k _ hd.2 (lt_wide_room hk))
      fun r hr => zipAt_lt (zipUnit_dvd_maxElems s t) hlt hr⟩
    rw [List.range_succ, List.foldl_append, hg, List.foldl_cons, List.foldl_nil, zipOne, h.valueOf_apart i c ha hda hlt source,
      h.valueOf_apart i c hb hdb hlt source, State.putElem, State.putElem, hvlen]
    rfl

/-- VZIP performed: the elements of its sources are interleaved in its destination over what TP has left there, and the write is noted. -/
theorem doVzip_performed (h : Ready s t) (i : Instr) (c : Cap) (hvl : s.hart.vc.vl ≠ 0) (hd : t.wideAt d = true)
    (ha : t.groupAt a = true) (hb : t.groupAt b = true) (hda : groupsMeet (2 * t.mul) d.val t.mul a.val = false)
    (hdb : groupsMeet (2 * t.mul) d.val t.mul b.val = false) :
    ∃ f g g', doVzip d a b (s.hart.entry i c .vector) (s.entered i c .vector) = .ok ((s.entered i c .vector).setVec g') ∧
      GroupWritten s.hart.vec f (2 * t.mul) d ∧ (∀ k, k < 2 * s.maxElems t → f.elem s.hart.vlen d.val t.sew k = s.kept t t.tp d k) ∧
      Zipped f g s.hart.vlen t d (2 * s.maxElems t) (s.value t a) (s.value t b) s.hart.vc.vl ∧
      Noted g g' (groupSet (2 * t.mul) d.val) := by
  obtain ⟨-, hvlen, -, -⟩ := entered_facts s i c .vector t h
  obtain ⟨f, hbase, hf, hkept⟩ := zip_base (s := s.entered i c .vector) _ hvlen hd
  obtain ⟨g, hg, hz⟩ := foldl_zipOne h i c hd ha hb hda hdb hf _ le_rfl
  obtain ⟨g', hg', noted⟩ := ((s.entered i c .vector).setVec g).wrote_progress_cleanse (s.hart.entry i c .vector)
    (s.hart.entry i c .vector).vlen (2 * s.hart.vc.vl) t.sew (2 * t.mul) (groupSet (2 * t.mul) d.val)
    (fun k => t.tp || decide (k < 2 * s.hart.vc.vl)) h.1.2.1
  refine ⟨f, g, g', ?_, hf, hkept, hz, noted⟩
  rw [doVzip, h.popping, wholeVector, if_neg (show ¬ (s.hart.entry i c .vector).vl = 0 from hvl), typed_entry h.vtype]
  dsimp only
  rw [hbase]
  change VecRes.ok (State.cleanse (State.progress (State.wrote ((List.range s.hart.vc.vl).foldl
    (zipOne _ t d a b) _) _ _) _ (2 * s.hart.vc.vl)) _ _ _ _ _) = _
  rw [hg]
  exact congrArg VecRes.ok hg'

/-- VZIP interleaves the elements of its sources, unit by unit. -/
theorem exec_vzip (h : Ready s t) (hd : t.wideAt d = true) (ha : t.groupAt a = true) (hb : t.groupAt b = true)
    (hda : groupsMeet (2 * t.mul) d.val t.mul a.val = false) (hdb : groupsMeet (2 * t.mul) d.val t.mul b.val = false) :
    ∃ u, exec (.vzip d a b) s = .next u ∧
      WritesRegs s s.done u (groupSet (2 * t.mul) d.val) 0#8 0#16 0#32 ∧
      (if s.hart.vc.vl = 0 then SameVectors s u
       else
        (∀ i, i < s.hart.vc.vl →
          u.element t d (zipAt t.zipUnit i 0) = s.value t a i ∧ u.element t d (zipAt t.zipUnit i 1) = s.value t b i) ∧
        (∀ k, k < 2 * s.maxElems t →
          (∀ i, i < s.hart.vc.vl → k ≠ zipAt t.zipUnit i 0 ∧ k ≠ zipAt t.zipUnit i 1) →
          u.element t d k = s.kept t t.tp d k) ∧
        Untagged u (groupSet (2 * t.mul) d.val)) := by
  show ∃ u, execVzip d a b s = _ ∧ _
  rw [execVzip, legalUnder_true s _ t h.vtype (by simp [hd, ha, hb, hda, hdb])]
  by_cases hvl : s.hart.vc.vl = 0
  · obtain ⟨u, hu, hw, hsame, -⟩ := issue_nothing (doVzip d a b) h ((h.popping ..).trans (if_pos hvl))
    exact ⟨u, hu, hw _ _ _ _, by rw [if_pos hvl]; exact hsame⟩
  · obtain ⟨f, g, g', performed, hf, hkept, hz, noted⟩ := doVzip_performed h (.vzip d a b) {} hvl hd ha hb hda hdb
    obtain ⟨u, hu, hw, hh⟩ := issue_writesRegs (doVzip d a b) h performed
      (WritesRegs.ofVec _ _ _ _ _ _ ((hf.trans hz.group).sameOutside noted))
    have element (k : Nat) : u.element t d k = g.elem s.hart.vlen d.val t.sew k := (hh.element hw.1 ..).trans (noted.elem ..)
    refine ⟨u, hu, hw, ?_⟩
    rw [if_neg hvl]
    refine ⟨fun i hi => ⟨?_, ?_⟩, fun k hk hne => ?_, fun r hr => ?_⟩
    · rw [element, hz.first i hi, State.value_mod]
    · rw [element, hz.second i hi, State.value_mod]
    · rw [element, hz.others k hk hne, hkept k hk]
    · rw [hh.registers.2.2]
      exact noted.untagged r hr

/-- VUNZIP takes the elements of one source out of its wide group. -/
theorem exec_vunzip (h : Ready s t) (hd : t.groupAt d = true) (ha : t.wideAt a = true)
    (hda : groupsMeet t.mul d.val (2 * t.mul) a.val = false) (odd : Bool) :
    ∃ u, exec (.vunzip d a odd) s = .next u ∧
      WholeVector s u t d s.hart.vc.vl fun k => s.value t a (zipAt t.zipUnit k odd.toNat) := by
  have place {k : Nat} (hk : k < s.hart.vc.vl) : zipAt t.zipUnit k odd.toNat < 2 * s.maxElems t :=
    zipAt_lt (zipUnit_dvd_maxElems s t) (h.lt_maxElems hk) odd.toNat_lt
  show ∃ u, execVunzip d a odd s = _ ∧ _
  rw [execVunzip, legalUnder_true s _ t h.vtype (by simp [hd, ha, hda])]
  simp only [VType.wideAt, Bool.and_eq_true] at ha
  obtain ⟨g, hg, hdone⟩ := putElems_done (val := fun k => s.value t a (zipAt t.zipUnit k odd.toNat)) (.vunzip d a odd) {} h hd
    (fun s' k => s'.valueOf (s.hart.entry (.vunzip d a odd) {} .vector) t a (zipAt t.zipUnit k odd.toNat))
    (fun f k hk _ hout _ => by
      dsimp only
      rw [h.valueOf_apart _ _ ha.2 hda (lt_wide_room (place hk)) hout, h.valueOf])
    (fun k => h.valueOf _ _ a _) le_rfl
  refine issue_wholeVector (m := none) _ _ _ _ h hd (h.popping ..) hdone (fun _ => true) ?_
  rw [← hg]
  rfl

end

/-- Settles O2: the selector instructions by the count of the elements named, zip and unzip by the positions of the elements. -/
theorem selectors : Obligations.Selectors :=
  ⟨fun _ _ _ _ _ h hd ha => ⟨exec_vcompress h hd ha, exec_vexpand h hd ha, exec_viota h hd⟩,
    fun _ _ _ _ _ odd h => ⟨exec_vzip h, fun hd ha hda => exec_vunzip h hd ha hda odd⟩⟩

end Sys2Proof.Machine
end

section
/-!
O3: reductions and scans complete for every operation and format that they accept (R158 to R160).
-/

namespace Sys2Proof.Machine

/-! ## Reductions of nothing -/

/-- Without an active element the combination in element order is the start value, with nothing accrued. -/
theorem orderedOf_absent (f : Fmt) (op : RedOp) (s : State) (start : Nat) (xs : List (Option Nat)) (h : ∀ x ∈ xs, x = none) :
    orderedOf f op s start xs = (start, s) := by
  induction xs with
  | nil => rfl
  | cons x xs ih =>
    obtain ⟨rfl, hxs⟩ := List.forall_mem_cons.mp h
    exact ih hxs

/-- A level of the tree without an element has none, and accrues nothing. -/
theorem treeLevel_absent (f : Fmt) (op : RedOp) (s : State) :
    ∀ xs : List (Option Nat), (∀ x ∈ xs, x = none) → ∃ ys, treeLevel f op s xs = (ys, s) ∧ ∀ y ∈ ys, y = none
  | [], h => ⟨[], rfl, h⟩
  | [x], h => ⟨[x], by cases x <;> rfl, h⟩
  | x :: y :: rest, h => by
    obtain ⟨rfl, rfl, hrest⟩ : x = none ∧ y = none ∧ ∀ z ∈ rest, z = none := by simpa using h
    obtain ⟨ys, hys, hnone⟩ := treeLevel_absent f op s rest hrest
    exact ⟨none :: ys, by simp [treeLevel, hys], by simpa using hnone⟩

/-- The tree without an element has no root, and accrues nothing. -/
theorem treeOf_absent (f : Fmt) (op : RedOp) (s : State) (levels : Nat) (xs : List (Option Nat)) (h : ∀ x ∈ xs, x = none) :
    treeOf f op levels s xs = (none, s) := by
  induction levels generalizing xs with
  | zero =>
    rw [treeOf]
    cases xs with
    | nil => rfl
    | cons x xs => simp [h x (by simp)]
  | succ levels ih =>
    obtain ⟨ys, hys, hnone⟩ := treeLevel_absent f op s xs h
    rw [treeOf, hys]
    exact ih ys hnone

/-- Without an active element the combination over the tree is the start value, with nothing accrued. -/
theorem treeReduction_absent (f : Fmt) (op : RedOp) (s : State) (start : Nat) (xs : List (Option Nat)) (h : ∀ x ∈ xs, x = none) :
    treeReduction f op s start xs = (start, s) := by
  rw [treeReduction, treeOf_absent f op s 19 xs h]

/-! ## Reductions -/

/-- A combination of a start value with slots accrues flags and uses draws, and does neither where no slot is present. -/
structure Combines (combine : State → Nat → List (Option Nat) → Nat × State) (s : State) (start : Nat) (xs : List (Option Nat)) :
    Prop where
  accrues : ∃ z fl free, combine s start xs = (z, s.accrued fl free)
  absent : (∀ x ∈ xs, x = none) → combine s start xs = (start, s)

section
variable {s : State} {t : VType} {d a : VName} {op : RedOp} {m : Option MName}

/-- VREDO combines in element order. -/
theorem combines_ordered (x : State) (start : Nat) (hstart : IntFits t.fmt start) :
    Combines (orderedOf t.fmt op) x start ((List.range s.hart.vc.vl).map (s.slot t a m)) := by
  obtain ⟨free, hc, -⟩ := orderedOf_eq_orderedValue t.fmt op x start (s.slot t a m) hstart (s.slot_fits t a m) s.hart.vc.vl
  exact ⟨⟨_, _, free, hc⟩, orderedOf_absent t.fmt op x start _⟩

/-- VREDT combines over the tree. -/
theorem combines_tree (h : Ready s t) (x : State) (start : Nat) (hstart : IntFits t.fmt start) :
    Combines (treeReduction t.fmt op) x start ((List.range s.hart.vc.vl).map (s.slot t a m)) := by
  obtain ⟨draw, n, root, -, hroot, hfit, -⟩ := treeOf_eq_treeValue t.fmt op x (s.slot t a m) 18 s.hart.vc.vl (s.slot_fits t a m)
    (vl_le_two_pow s t h.2.1 h.vtype) (s.slot_of_ge t a m)
  obtain ⟨last, free, hlast, -⟩ := treeReduction_eq t.fmt op x start _ root n hroot hstart hfit
  exact ⟨⟨_, _, free, hlast⟩, treeReduction_absent t.fmt op x start _⟩

/-- What a reduction leaves (R159): element 0 of the register `d` alone has changed, and that only where an element is active. -/
structure Reduced (s : State) (t : VType) (d : VName) (m : Option MName) (u : State) : Prop where
  writes : WritesRegsAndFlags s s.done u (groupSet 1 d.val) 0#8 0#16 0#32
  empty : s.hart.vc.vl = 0 → SameVectors s u ∧ SameFlags s u
  others : ∀ k, k < s.hart.vlen / t.sew → 0 < k → u.element t d k = s.element t d k
  inactive : (∀ k, k < s.hart.vc.vl → s.hart.vec.active m k = false) → u.element t d 0 = s.element t d 0 ∧ SameFlags s u

/-- A change of registers alone accrues no flag. -/
theorem WritesRegs.withFlags {s u t : State} {v : BitVec 32} {m : BitVec 8} {k : BitVec 16} {g : BitVec 32}
    (h : WritesRegs s u t v m k g) : WritesRegsAndFlags s u t v m k g := by
  obtain ⟨hdata, hmem, ⟨hfl, -⟩, htab, hout⟩ := h
  exact ⟨hdata, hmem, by rw [hfl, BitVec.or_self], htab, hout⟩

/-- A register is a legal group of one. -/
theorem groupOk_one (v : VName) : groupOk 1 v.val = true := by
  simp only [groupOk, decide_eq_true_eq]
  omega

/-- An instruction that is performed and changes registers, flags and draws completes with what it made of them. -/
theorem issue_accrued {i : Instr} {c : Cap} {f : VecFile} {fl : Flags} {free : Nat} {v g : BitVec 32} {q : BitVec 8} {k : BitVec 16}
    (act : QEntry → State → VecRes) (h : Ready s t)
    (hact : act (s.hart.entry i c .vector) (s.entered i c .vector) = .ok (((s.entered i c .vector).setVec f).accrued fl free))
    (hout : SameOutside s.hart.vec f v q k g) :
    ∃ u, issue s i true .vector c act = .next u ∧ WritesRegsAndFlags s s.done u v q k g ∧
      Holds u (((s.entered i c .vector).setVec f).accrued fl free) := by
  obtain ⟨u, hu, hdata, hmem, htab, hh⟩ := issue_data s i t c act _ h hact rfl ⟨rfl, rfl, rfl, rfl⟩ ⟨rfl, rfl⟩
  have flags : u.hart.vc.vxflags = s.hart.vc.vxflags ||| fl := hh.flags
  obtain ⟨p, hp⟩ := hh.vec
  refine ⟨u, hu, ⟨hdata, hmem, ?_, htab, ?_⟩, hh⟩
  · rw [flags, ← BitVec.or_assoc, BitVec.or_self]
  · rw [hp]
    exact hout

/-- The vector file that a reduction leaves: element 0 is written, and the write noted. -/
def VecFile.reduceTo (f : VecFile) (vlen : Nat) (t : VType) (d : VName) (z : Nat) : VecFile :=
  ((f.setElem vlen d.val t.sew 0 z).clearTags vlen (groupSet 1 d.val)).progressTo (groupSet 1 d.val) 1

/-- A reduction performed on a ready hart. -/
theorem Ready.reduction (h : Ready s t) (i : Instr) (hvl : s.hart.vc.vl ≠ 0)
    (combine : VType → State → Nat → List (Option Nat) → Nat × State) {z : Nat} {fl : Flags} {free : Nat}
    (hc : combine t (s.entered i {} .vector) (s.element t d 0) ((List.range s.hart.vc.vl).map (s.slot t a m)) =
      (z, (s.entered i {} .vector).accrued fl free)) :
    reduction d a m (s.hart.entry i {} .vector) (s.entered i {} .vector) combine =
      .ok (((s.entered i {} .vector).setVec (s.hart.vec.reduceTo s.hart.vlen t d z)).accrued fl free) := by
  obtain ⟨hty, hvlen, hevl, -⟩ := entered_facts s i {} .vector t h
  have elems : activeElems (s.entered i {} .vector) (s.hart.entry i {} .vector) t a m =
      (List.range s.hart.vc.vl).map (s.slot t a m) := by
    rw [← State.map_slot, activeElems, hevl]
    simp only [h.elemOf]
    rfl
  rw [reduction_performed _ _ t d a m combine z fl free hty (by rw [hevl]; exact hvl)
    (show (s.entered i {} .vector).hart.unbound = true from h.1.2.1) h.clean (by rw [h.elemOf, elems, hc]), hvlen]
  rfl

/-- A reduction issued on a ready hart completes. -/
theorem issue_reduced (i : Instr) (combine : VType → State → Nat → List (Option Nat) → Nat × State) (h : Ready s t)
    (hc : Combines (combine t) (s.entered i {} .vector) (s.element t d 0) ((List.range s.hart.vc.vl).map (s.slot t a m))) :
    ∃ u, issue s i true .vector {} (fun e s => reduction d a m e s combine) = .next u ∧ Reduced s t d m u := by
  by_cases hvl : s.hart.vc.vl = 0
  · obtain ⟨u, hu, hw, hsame, -⟩ := issue_nothing (i := i) (fun e s => reduction d a m e s combine) h
      ((h.popping ..).trans (if_pos hvl))
    obtain ⟨hdata, -, hfl, -, -⟩ := hw 0#32 0#8 0#16 0#32
    exact ⟨u, hu, (hw _ _ _ _).withFlags, fun _ => ⟨hsame, hfl⟩, fun _ _ _ => hsame.element hdata .., fun _ => ⟨hsame.element hdata ..,
      hfl⟩⟩
  · obtain ⟨⟨z, fl, free, hz⟩, habsent⟩ := hc
    obtain ⟨inFile, reg⟩ := element_inFile s t d 0 1 (groupOk_one d) (by
      rw [one_mul]
      exact zero_lt_perRegister s t h.2.1 h.vtype hvl)
    have written : GroupWritten s.hart.vec (s.hart.vec.setElem s.hart.vlen d.val t.sew 0 z) 1 d := .setElem _ reg z
    have noted := noted_clearTags (s.hart.vec.setElem s.hart.vlen d.val t.sew 0 z) s.hart.vlen 1 (groupSet 1 d.val)
    obtain ⟨u, hu, hw, hh⟩ := issue_accrued (fun e s => Machine.reduction d a m e s combine) h (h.reduction i hvl combine hz)
      (written.sameOutside noted)
    have element (k : Nat) : u.element t d k = if k = 0 then z % 2 ^ t.sew else s.element t d k := by
      rw [hh.element hw.1]
      exact (noted.elem ..).trans (VecFile.elem_setElem s.hart.vec z inFile k)
    refine ⟨u, hu, hw, fun h0 => absurd h0 hvl, fun k _ hk => ?_, fun hoff => ?_⟩
    · rw [element, if_neg (Nat.ne_of_gt hk)]
    · have noSlot : ∀ x ∈ (List.range s.hart.vc.vl).map (s.slot t a m), x = none := by
        simp only [List.forall_mem_map, List.mem_range]
        intro k hk
        rw [s.slot_of_lt t a m k hk, hoff k hk]
        rfl
      obtain ⟨rfl, same⟩ := Prod.mk.inj (hz.symm.trans (habsent noSlot))
      refine ⟨?_, ?_, ?_⟩
      · rw [element, if_pos rfl]
        exact Nat.mod_eq_of_lt (VecFile.elem_lt ..)
      · exact hh.flags.trans (congrArg (·.hart.vc.vxflags) same)
      · exact hh.free.trans (congrArg (·.free) same)

/-- VREDT and VREDO complete. -/
theorem exec_reduction (h : Ready s t) (ha : t.groupAt a = true) (hop : redAccepts op t.fmt = true)
    (hda : groupsMeet 1 d.val t.mul a.val = false) :
    ∀ i ∈ [Instr.vredt d a op m, Instr.vredo d a op m], ∃ u, exec i s = .next u ∧ Reduced s t d m u := by
  have legal := reductionOk_of_ready s t d a op h ha hop hda
  simp only [List.forall_mem_cons, List.not_mem_nil, false_imp_iff, implies_true, and_true]
  constructor
  · show ∃ u, execVredt d a op m s = _ ∧ _
    rw [execVredt, legal, doVredt_eq]
    exact issue_reduced (.vredt d a op m) (fun t => treeReduction t.fmt op) h (combines_tree h _ _ (elem_intFits s t d 0))
  · show ∃ u, execVredo d a op m s = _ ∧ _
    rw [execVredo, legal]
    exact issue_reduced (.vredo d a op m) (fun t s => orderedOf t.fmt op s) h (combines_ordered _ _ (elem_intFits s t d 0))

/-- VSCAN completes, and its inactive elements follow their policies. -/
theorem exec_vscan (h : Ready s t) (hd : t.groupAt d = true) (ha : t.groupAt a = true) (hop : redAccepts op t.fmt = true)
    (hda : t.meet d a = false) (ex : Bool) :
    ∃ u, exec (.vscan d a op ex m) s = .next u ∧ WritesRegsAndFlags s s.done u (groupSet t.mul d.val) 0#8 0#16 0#32 ∧
      (s.hart.vc.vl = 0 → SameVectors s u ∧ SameFlags s u) ∧
      (s.hart.vc.vl ≠ 0 → ∀ k, k < s.maxElems t → s.hart.vc.vl ≤ k → u.element t d k = s.kept t t.tp d k) ∧
      (∀ k, k < s.hart.vc.vl → s.hart.vec.active m k = false → u.element t d k = s.kept t t.mp d k) := by
  by_cases hvl : s.hart.vc.vl = 0
  · obtain ⟨u, hu, hw, hsame, -⟩ := issue_nothing (i := .vscan d a op ex m) (doVscan d a op ex m) h ((h.popping ..).trans (if_pos hvl))
    obtain ⟨-, -, hfl, -, -⟩ := hw 0#32 0#8 0#16 0#32
    refine ⟨u, ?_, (hw _ _ _ _).withFlags, fun _ => ⟨hsame, hfl⟩, fun h0 => absurd hvl h0, fun k hk => absurd hk (by omega)⟩
    show execVscan d a op ex m s = _
    rw [execVscan, legalUnder_true s _ t h.vtype (by simp [hd, ha, hda, hop])]
    exact hu
  · obtain ⟨u, draw, hu, hw, -, helem, -, -⟩ := vscan_spec s t d a op ex m h hd ha hop hvl hda
    refine ⟨u, hu, hw, fun h0 => absurd h0 hvl, fun _ k hk htail => ?_, fun k hk hoff => ?_⟩
    · rw [helem k hk, if_pos htail]
    · rw [helem k (h.lt_maxElems hk), if_neg (Nat.not_le.mpr hk), if_neg (Nat.not_lt_zero k), hoff, if_neg Bool.false_ne_true]

end

/-- Settles O3: a combination accrues flags and uses draws, and without an active element it does neither. -/
theorem reductionsComplete : Obligations.ReductionsComplete := by
  intro s t d a op ex m h ha hop
  refine ⟨fun hda i hi => ?_, fun hd hda => exec_vscan h hd ha hop hda ex⟩
  obtain ⟨u, hu, hr⟩ := exec_reduction h ha hop hda i hi
  exact ⟨u, hu, hr.writes, hr.empty, hr.others, hr.inactive⟩

end Sys2Proof.Machine
end

section
/-!
O5: synchronising reads (R153, R255), and the masks that are read, kept and combined (R161 to R163).
-/

namespace Sys2Proof.Machine

/-! ## Synchronising reads -/

/-- The state in which a synchronising read is performed at once: its entry is in the queue, and the pc is still at it. -/
def State.reading (s : State) (i : Instr) (c : Cap) : State := { s with hart := s.hart.push .vector (s.hart.entry i c .vector) }

/-- A register written before the pc moves on is one written after it. -/
theorem Hart.goTo_setX (h : Hart) (r : XReg) (v pc : Word) : (h.setX r v).goTo pc = (h.goTo pc).setX r v := by
  unfold Hart.setX
  split <;> rfl

/-- The entry of a synchronising read of an idle hart has completed. -/
theorem reading_completed (s : State) (i : Instr) (c : Cap) (hi : s.hart.idle = true) :
    ((s.reading i c).hart.retire .vector (s.hart.entry i c .vector)).goTo (s.hart.pc + 4#64) = s.done.hart := by
  obtain ⟨-, hvq, -, -, -, -, -, -, -, hsread, hwait, -⟩ := s.hart.idle_iff.mp hi
  have seq : (s.hart.entry i c .vector).seq = s.hart.seq := rfl
  have retired : retireEntry [s.hart.entry i c .vector] s.hart.seq = [] := by simp [retireEntry, seq]
  simp [State.reading, Hart.retire, Hart.push, QClass.usesStart, QClass.inMatrix, State.issued, Hart.goTo, retired, hvq, hsread, hwait, seq]

/-- A synchronising read of an idle hart that nothing older stops completes at once, with its value in its register. -/
theorem issueSync_idle (s : State) (i : Instr) (c : Cap) (act : QEntry → State → VecRes) (d : XReg) (v : Word)
    (hi : s.hart.idle = true) (hc : s.hart.vec.clean = true) (hn : NoCopyFault s)
    (hact : act (s.hart.entry i c .vector) (s.reading i c) = .done (s.reading i c) [(d, v)]) :
    issueSync s i true c act = .next (s.done.setX d v) := by
  have quiet := Hart.quiet_idle s.hart .vector (s.hart.entry i c .vector) hi
  have performed : perform (s.hart.entry i c .vector) act (s.reading i c) = .done (s.reading i c) [(d, v)] :=
    (perform_clean _ act (s.reading i c) hc).1.trans hact
  obtain ⟨hreplay, -, -, -, -, hvh, hmh, -, -, hsread, -⟩ := s.hart.idle_iff.mp hi
  unfold issueSync
  rw [hreplay, hsread]
  simp only [Hart.held, hvh, hmh, Bool.or_false, Bool.not_true, Bool.false_eq_true, if_false]
  unfold issueSync.fresh
  rw [syncPoint_idle s hi hn]
  simp only [quiet, if_true]
  rw [← State.reading, performed]
  have completed : (((s.reading i c).hart.retire .vector (s.hart.entry i c .vector)).setX d v).goTo (s.hart.pc + 4#64) =
      s.done.hart.setX d v := by rw [Hart.goTo_setX, reading_completed s i c hi]
  exact congrArg (fun h => Host.Outcome.next { s with hart := h }) completed

/-! ## Masks written -/

/-- Bits of a mask register written one after another. -/
def VecFile.setMaskBits (f : VecFile) (d : MName) (bit : Nat → Bool) (l : List Nat) : VecFile :=
  l.foldl (fun f k => f.setMaskBit d k (bit k)) f

/-- A bit of a mask register after writes of bits of it. -/
theorem VecFile.maskBit_setMaskBits (f : VecFile) (d : MName) (bit : Nat → Bool) (l : List Nat) (k : Nat) (hk : k < maxVlen) :
    (f.setMaskBits d bit l).maskBit d k = if k ∈ l then bit k else f.maskBit d k := by
  induction l generalizing f with
  | nil => rfl
  | cons j l ih =>
    have step : f.setMaskBits d bit (j :: l) = (f.setMaskBit d j (bit j)).setMaskBits d bit l := rfl
    rw [step, ih, VecFile.maskBit_setMaskBit _ _ _ _ _ hk]
    by_cases hl : k ∈ l
    · rw [if_pos hl, if_pos (List.mem_cons_of_mem j hl)]
    · by_cases hj : k = j
      · rw [if_neg hl, if_pos hj, if_pos (by simp [hj]), hj]
      · rw [if_neg hl, if_neg hj, if_neg (by simp [hj, hl])]

/-- Writes of bits of a mask register change it alone. -/
theorem VecFile.setMaskBits_rest (f : VecFile) (d : MName) (bit : Nat → Bool) (l : List Nat) :
    f.setMaskBits d bit l = { f with m := (f.setMaskBits d bit l).m } ∧
      ∀ q : MName, q ≠ d → (f.setMaskBits d bit l).m[q] = f.m[q] := by
  induction l generalizing f with
  | nil => exact ⟨rfl, fun _ _ => rfl⟩
  | cons j l ih =>
    obtain ⟨rest, others⟩ := ih (f.setMaskBit d j (bit j))
    exact ⟨rest, fun q hq => (others q hq).trans (VecFile.setMaskBit_m_ne _ _ _ _ _ hq)⟩

/-- A register outside the set of one mask register is another one. -/
theorem ne_of_maskSet {d q : MName} (h : (maskSet d).getLsbD q.val = false) : q ≠ d := by
  rintro rfl
  simp [maskSet] at h

/-- The vector file with the bits of a mask destination below `vl` written, and under TP those from there to `n` zero. -/
def VecFile.writeMask (f : VecFile) (d : MName) (bit : Nat → Bool) (vl n : Nat) (tp : Bool) : VecFile :=
  if tp then (f.setMaskBits d bit (List.range vl)).setMaskBits d (fun _ => false) (List.range' vl (n - vl))
  else f.setMaskBits d bit (List.range vl)

/-- The bits of a mask destination. -/
theorem VecFile.maskBit_writeMask (f : VecFile) (d : MName) (bit : Nat → Bool) (vl n : Nat) (tp : Bool) (k : Nat) (hk : k < maxVlen) :
    (f.writeMask d bit vl n tp).maskBit d k = if k < vl then bit k else if tp && decide (k < n) then false else f.maskBit d k := by
  unfold VecFile.writeMask
  cases tp with
  | false => simp [VecFile.maskBit_setMaskBits _ _ _ _ _ hk]
  | true =>
    rw [if_pos rfl, VecFile.maskBit_setMaskBits _ _ _ _ _ hk, VecFile.maskBit_setMaskBits _ _ _ _ _ hk]
    simp only [List.mem_range'_1, List.mem_range, Bool.true_and, decide_eq_true_eq]
    by_cases hlow : k < vl
    · rw [if_neg (by omega), if_pos hlow, if_pos hlow]
    · rw [if_neg hlow, if_neg hlow]
      exact if_congr (by omega) rfl rfl

/-- A mask destination is one mask register. -/
theorem VecFile.writeMask_rest (f : VecFile) (d : MName) (bit : Nat → Bool) (vl n : Nat) (tp : Bool) :
    f.writeMask d bit vl n tp = { f with m := (f.writeMask d bit vl n tp).m } ∧
      ∀ q : MName, q ≠ d → (f.writeMask d bit vl n tp).m[q] = f.m[q] := by
  obtain ⟨rest, others⟩ := f.setMaskBits_rest d bit (List.range vl)
  unfold VecFile.writeMask
  split
  · generalize f.setMaskBits d bit (List.range vl) = g at rest others ⊢
    obtain ⟨rest', others'⟩ := g.setMaskBits_rest d (fun _ => false) (List.range' vl (n - vl))
    exact ⟨by rw [rest', rest], fun q hq => (others' q hq).trans (others q hq)⟩
  · exact ⟨rest, others⟩

/-- A mask destination written: nothing but its bits and its poison has changed. -/
theorem State.writeMask_spec (s : State) (e : QEntry) (t : VType) (d : MName) (bit : Nat → Bool) :
    ∃ f, s.writeMask e t d bit = s.setVec f ∧ SameOutside s.hart.vec f 0#32 (maskSet d) 0#16 0#32 ∧
      ∀ k, k < maxVlen → f.maskBit d k =
        if k < e.vl then bit k else if t.tp && decide (k < e.vlmax t) then false else s.hart.vec.maskBit d k := by
  have bits := s.hart.vec.maskBit_writeMask d bit e.vl (e.vlmax t) t.tp
  obtain ⟨rest, others⟩ := s.hart.vec.writeMask_rest d bit e.vl (e.vlmax t) t.tp
  have file : s.writeMask e t d bit = s.setVec (if decide (e.vlen ≤ e.vlmax t) && (t.tp || decide (e.vlmax t ≤ e.vl)) then
      { s.hart.vec.writeMask d bit e.vl (e.vlmax t) t.tp with
        poisonM := (s.hart.vec.writeMask d bit e.vl (e.vlmax t) t.tp).poisonM &&& ~~~maskSet d }
      else s.hart.vec.writeMask d bit e.vl (e.vlmax t) t.tp) := rfl
  rw [file]
  generalize s.hart.vec.writeMask d bit e.vl (e.vlmax t) t.tp = g at bits rest others ⊢
  have outside : SameOutside s.hart.vec g 0#32 (maskSet d) 0#16 0#32 := by
    refine ⟨fun r _ => ?_, fun q hq => others q (ne_of_maskSet hq), fun r _ => ?_, ?_, fun r _ => .inl ?_⟩ <;> rw [rest]
  split
  · exact ⟨_, rfl, outside, bits⟩
  · exact ⟨g, rfl, outside, bits⟩

section
variable {s : State} {t : VType} {d a b : MName}

/-- What an instruction that writes a mask leaves on a ready hart: its bits below vl, and those of TP (R57, R161). -/
theorem issue_writeMask (i : Instr) (c : Cap) (act : QEntry → State → VecRes) (bit value : Nat → Bool) (h : Ready s t)
    (hact : act (s.hart.entry i c .vector) (s.entered i c .vector) =
      wholeVector (s.hart.entry i c .vector) (s.entered i c .vector) fun t =>
        .ok ((s.entered i c .vector).writeMask (s.hart.entry i c .vector) t d bit))
    (hbit : ∀ k, k < s.hart.vc.vl → bit k = value k) :
    ∃ u, issue s i (legalUnder s fun _ => true) .vector c act = .next u ∧ WritesRegs s s.done u 0#32 (maskSet d) 0#16 0#32 ∧
      (s.hart.vc.vl ≠ 0 → MaskWritten s u t d value) ∧ (s.hart.vc.vl = 0 → u.hart.vec.m = s.hart.vec.m) := by
  rw [legalUnder_true s _ t h.vtype rfl]
  by_cases hvl : s.hart.vc.vl = 0
  · obtain ⟨u, hu, hw, -, hm⟩ := issue_nothing act h (hact.trans (if_pos hvl))
    exact ⟨u, hu, hw _ _ _ _, fun h0 => absurd hvl h0, fun _ => hm⟩
  · obtain ⟨f, hf, outside, bits⟩ := (s.entered i c .vector).writeMask_spec (s.hart.entry i c .vector) t d bit
    have performed : act (s.hart.entry i c .vector) (s.entered i c .vector) = .ok ((s.entered i c .vector).setVec f) := by
      rw [hact, wholeVector, if_neg (show ¬ (s.hart.entry i c .vector).vl = 0 from hvl), typed_entry h.vtype, hf]
    obtain ⟨u, hu, hw, hh⟩ := issue_writesRegs act h performed (WritesRegs.ofVec _ _ _ _ _ _ outside)
    refine ⟨u, hu, hw, fun _ k hk => ?_, fun h0 => absurd h0 hvl⟩
    have masks : u.hart.vec.m = f.m := hh.registers.2.1
    rw [VecFile.maskBit, masks, ← VecFile.maskBit, bits k hk, h.vlmax]
    by_cases hlow : k < s.hart.vc.vl
    · rw [if_pos hlow, ← hbit k hlow]
      exact if_pos hlow
    · rw [if_neg hlow]
      exact if_neg hlow

/-- The first members of a list of numbers that are named, in order: one of them is named, with fewer than so many before it. -/
theorem contains_take_filter_range (p : Nat → Bool) (n vl k : Nat) (hk : k < vl) :
    (((List.range vl).filter p).take n).contains k = (p k && decide (((List.range k).filter p).length < n)) := by
  obtain ⟨l, rfl⟩ := Nat.exists_eq_add_of_lt hk
  have below : k ∉ ((List.range k).filter p).take n := fun hm =>
    absurd (List.mem_range.mp (List.mem_of_mem_filter (List.mem_of_mem_take hm))) (Nat.lt_irrefl k)
  have parts : (List.range (k + l + 1)).filter p = (List.range k).filter p ++ (k :: (List.range' (k + 1) l)).filter p := by
    have join := List.range'_append_1 (s := 0) (m := k) (n := l + 1)
    rw [Nat.zero_add, ← Nat.add_assoc] at join
    rw [← List.filter_append, List.range_eq_range', List.range_eq_range', ← List.range'_succ, join]
  rw [parts, List.take_append, Bool.eq_iff_iff, List.contains_iff_mem, List.mem_append, or_iff_right below]
  cases hp : p k with
  | false =>
    simp only [List.filter_cons, hp, Bool.false_and, Bool.false_eq_true, if_false, iff_false]
    intro hm
    have := List.mem_range'_1.mp (List.mem_of_mem_filter (List.mem_of_mem_take hm))
    omega
  | true =>
    simp only [List.filter_cons, hp, if_true, Bool.true_and, decide_eq_true_eq]
    rw [← Nat.sub_pos_iff_lt]
    cases n - ((List.range k).filter p).length <;> simp

/-- VMKEEPN keeps the lowest bits set, as many as X[x] says. -/
theorem exec_vmkeepn (h : Ready s t) (x : XReg) :
    ∃ u, exec (.vmkeepn d a x) s = .next u ∧ WritesRegs s s.done u 0#32 (maskSet d) 0#16 0#32 ∧
      (s.hart.vc.vl ≠ 0 → MaskWritten s u t d fun k =>
        s.hart.vec.maskBit a k && decide ((s.marked a k).length < (s.x x).toNat)) ∧
      (s.hart.vc.vl = 0 → u.hart.vec.m = s.hart.vec.m) := by
  have found : setBits (s.entered (.vmkeepn d a x) { b := some x } .vector) (s.hart.entry (.vmkeepn d a x) { b := some x } .vector) a none =
      (List.range s.hart.vc.vl).filter (s.hart.vec.maskBit a) :=
    List.filter_congr fun k _ => Bool.and_true _
  refine issue_writeMask (.vmkeepn d a x) { b := some x } (doVmkeepn d a)
    (((List.range s.hart.vc.vl).filter (s.hart.vec.maskBit a)).take (s.x x).toNat).contains _ h ?_
    fun k hk => contains_take_filter_range _ _ _ _ hk
  rw [doVmkeepn, found]
  rfl

/-- VMLOGIC combines two masks bit by bit under its truth table. -/
theorem exec_vmlogic (h : Ready s t) (tt : BitVec 4) :
    ∃ u, exec (.vmlogic d a b tt) s = .next u ∧ WritesRegs s s.done u 0#32 (maskSet d) 0#16 0#32 ∧
      (s.hart.vc.vl ≠ 0 → MaskWritten s u t d fun k =>
        tt.getLsbD (2 * (s.hart.vec.maskBit a k).toNat + (s.hart.vec.maskBit b k).toNat)) ∧
      (s.hart.vc.vl = 0 → u.hart.vec.m = s.hart.vec.m) :=
  issue_writeMask (.vmlogic d a b tt) {} (doVmlogic d a b tt) _ _ h rfl fun _ _ => rfl

/-! ## Masks read -/

/-- VPOPC counts the bits set. -/
theorem exec_vpopc (h : Ready s t) (hn : NoCopyFault s) (x : XReg) (m : Option MName) :
    exec (.vpopc x a m) s = .next (s.done.setX x (BitVec.ofNat 64
      ((List.range s.hart.vc.vl).filter fun k => s.hart.vec.maskBit a k && s.hart.vec.active m k).length)) := by
  show execVpopc x a m s = _
  rw [execVpopc, legalUnder_true s _ t h.vtype rfl]
  exact issueSync_idle s _ {} _ x _ h.1.1 h.clean hn rfl

/-- VMFIRST finds the lowest bit set. -/
theorem exec_vmfirst (h : Ready s t) (hn : NoCopyFault s) (x : XReg) (m : Option MName) :
    exec (.vmfirst x a m) s = .next (s.done.setX x
      (match (List.range s.hart.vc.vl).filter fun k => s.hart.vec.maskBit a k && s.hart.vec.active m k with
        | [] => BitVec.allOnes 64
        | k :: _ => BitVec.ofNat 64 k)) := by
  show execVmfirst x a m s = _
  rw [execVmfirst, legalUnder_true s _ t h.vtype rfl]
  refine issueSync_idle s _ {} _ x _ h.1.1 h.clean hn ?_
  unfold doVmfirst setBits
  generalize hset : List.filter _ _ = set
  change List.filter (fun k => s.hart.vec.maskBit a k && s.hart.vec.active m k) (List.range s.hart.vc.vl) = set at hset
  rw [hset]
  cases set <;> rfl

end

/-- Settles O5: VPOPC and VMFIRST read the list of the bits set, of which VMKEEPN takes the first; VMLOGIC looks each bit up. -/
theorem maskInstructions : Obligations.MaskInstructions :=
  ⟨fun _ _ d _ m h hn => ⟨exec_vpopc h hn d m, exec_vmfirst h hn d m⟩, fun _ _ _ _ _ x tt h => ⟨exec_vmkeepn h x, exec_vmlogic h tt⟩⟩

end Sys2Proof.Machine
end

section
/-!
O6: the exchange of one element with an x register (R153, R154).
-/

namespace Sys2Proof.Machine

section
variable {s : State} {t : VType} {v : VName}

/-- VMOVX gives the element that X[b] names. -/
theorem exec_vmovx (h : Ready s t) (hv : t.groupAt v = true) (hn : NoCopyFault s) (d b : XReg) :
    exec (.vmovx d v b) s = .next (s.done.setX d
      (if s.maxElems t ≤ (s.x b).toNat then 0#64
       else if t.fmt.signed then BitVec.ofInt 64 (t.fmt.toInt (s.element t v (s.x b).toNat))
       else BitVec.ofNat 64 (s.element t v (s.x b).toNat))) := by
  obtain ⟨hty, hvlen, -, -⟩ := entered_facts s (.vmovx d v b) { b := some b } .vector t h
  have room := h.vlmax (.vmovx d v b) { b := some b }
  show execVmovx d v b s = _
  rw [execVmovx, legalUnder_true s _ t h.vtype hv]
  refine issueSync_idle s _ { b := some b } _ d _ h.1.1 h.clean hn ?_
  rw [doVmovx, popping_unbound _ _ _ _ _ t hty (show (s.reading _ _).hart.unbound = true from h.1.2.1) h.clean, typed_entry h.vtype]
  dsimp only
  rw [State.elemOf, hvlen, room]
  rfl

/-- An element of a group written, and its write noted (R154): the other elements are as they were. -/
theorem doVxmov_performed (h : Ready s t) (hv : t.groupAt v = true) (i : Instr) (a b : XReg)
    (hb : (s.x b).toNat < s.maxElems t) :
    ∃ f, doVxmov v (s.hart.entry i { a := some a, b := some b } .vector) (s.entered i { a := some a, b := some b } .vector) =
        .ok ((s.entered i { a := some a, b := some b } .vector).setVec f) ∧
      SameOutside s.hart.vec f (groupSet t.mul v.val) 0#8 0#16 0#32 ∧
      ∀ k, f.elem s.hart.vlen v.val t.sew k =
        if k = (s.x b).toNat then t.raw (s.x a).toNat % 2 ^ t.sew else s.element t v k := by
  obtain ⟨-, hvlen, -, -⟩ := entered_facts s i { a := some a, b := some b } .vector t h
  have room := h.vlmax i { a := some a, b := some b }
  have element : (s.hart.entry i { a := some a, b := some b } .vector).xb = s.x b := rfl
  obtain ⟨inFile, reg⟩ := element_inFile s t v (s.x b).toNat t.mul hv hb
  have written : GroupWritten s.hart.vec (s.hart.vec.setElem s.hart.vlen v.val t.sew (s.x b).toNat (t.raw (s.x a).toNat)) t.mul v :=
    .setElem _ reg _
  have noted := noted_clearTags (s.hart.vec.setElem s.hart.vlen v.val t.sew (s.x b).toNat (t.raw (s.x a).toNat)) s.hart.vlen 1
    (groupSet 1 (v.val + (s.x b).toNat / (s.hart.vlen / t.sew)))
  refine ⟨_, ?_, written.sameOutside noted, fun k => (noted.elem ..).trans (VecFile.elem_setElem _ _ inFile k)⟩
  rw [doVxmov, typed_entry h.vtype]
  dsimp only
  rw [room, element, if_neg (Nat.not_le.mpr hb), State.putElem, hvlen, State.wrote_unbound]
  · rfl
  · exact h.1.2.1

/-- VXMOV writes the element that X[b] names alone. -/
theorem exec_vxmov (h : Ready s t) (hv : t.groupAt v = true) (a b : XReg) :
    ∃ u, exec (.vxmov v a b) s = .next u ∧ WritesRegs s s.done u (groupSet t.mul v.val) 0#8 0#16 0#32 ∧
      (if s.maxElems t ≤ (s.x b).toNat then SameVectors s u
       else ∀ k, k < s.maxElems t →
        u.element t v k = if k = (s.x b).toNat then t.raw (s.x a).toNat % 2 ^ t.sew else s.element t v k) := by
  show ∃ u, execVxmov v a b s = _ ∧ _
  rw [execVxmov, legalUnder_true s _ t h.vtype hv]
  by_cases hb : s.maxElems t ≤ (s.x b).toNat
  · obtain ⟨u, hu, hw, hsame, -⟩ := issue_nothing (i := .vxmov v a b) (c := { a := some a, b := some b }) (doVxmov v) h (by
      rw [doVxmov, typed_entry h.vtype, h.vlmax]
      exact if_pos hb)
    exact ⟨u, hu, hw _ _ _ _, by rw [if_pos hb]; exact hsame⟩
  · obtain ⟨f, performed, outside, elems⟩ := doVxmov_performed h hv (.vxmov v a b) a b (Nat.not_le.mp hb)
    obtain ⟨u, hu, hw, hh⟩ := issue_writesRegs (doVxmov v) h performed (WritesRegs.ofVec _ _ _ _ _ _ outside)
    refine ⟨u, hu, hw, ?_⟩
    rw [if_neg hb]
    intro k _
    rw [hh.element hw.1]
    exact elems k

end

/-- Settles O6: one element is read, or written in its group, whatever vl is. -/
theorem scalarExchange : Obligations.ScalarExchange := fun _ _ d _ a b h hv =>
  ⟨fun hn => exec_vmovx h hv hn d b, exec_vxmov h hv a b⟩

end Sys2Proof.Machine
end
